-- ==== Sys2Proof/Word.lean ====
section
/-! DEFINITION. The words of the LZX-8 (R11, R22, R26, R69): a 32-bit data word with its validity bit, a g register, a
vector register with its tag, and the 256-bit beat that ports carry (R214). -/

namespace Sys2Proof

/-- A byte of memory. -/
abbrev Byte := BitVec 8
/-- A 64-bit register value or address. -/
abbrev Word := BitVec 64
/-- Number of a g register. -/
abbrev GReg := BitVec 5
/-- Number of a v register. -/
abbrev VNum := BitVec 4
/-- Number of a q register. -/
abbrev QNum := BitVec 3

/-- A 32-bit data word with its validity bit (R69). An invalid word holds its payload (R70) in `bits`. -/
structure W32 where
  valid : Bool
  bits : BitVec 32
  deriving DecidableEq, Repr

/-- The value of a g or a register with its validity bit (R22). An invalid one holds its payload in bits [31:0] and
zero above (R181). -/
structure Val where
  valid : Bool
  bits : Word
  deriving DecidableEq, Repr

/-- A v register: format tag, one validity bit for each 32-bit word, 512 data bits (R26). -/
structure VReg where
  tag : BitVec 16
  ok : BitVec 16
  bits : BitVec 512
  deriving DecidableEq, Repr

/-- A 256-bit beat with its 8 validity bits (R144, R214). -/
structure Beat where
  ok : BitVec 8
  bits : BitVec 256
  deriving DecidableEq, Repr

/-- A valid register value. -/
def Val.ofWord (w : Word) : Val := ⟨true, w⟩
/-- A valid zero, what g0 reads as (R22). -/
def Val.zero : Val := ⟨true, 0⟩
/-- A valid 32-bit word. -/
def W32.ofBits (b : BitVec 32) : W32 := ⟨true, b⟩
/-- A valid zero word. -/
def W32.zero : W32 := ⟨true, 0⟩

@[simp] theorem Val.ofWord_valid (w : Word) : (Val.ofWord w).valid = true := rfl
@[simp] theorem Val.ofWord_bits (w : Word) : (Val.ofWord w).bits = w := rfl
@[simp] theorem Val.zero_valid : Val.zero.valid = true := rfl
@[simp] theorem Val.zero_bits : Val.zero.bits = 0 := rfl

end Sys2Proof
end

