-- ==== Sys2Proof/Config.lean ====
section
/-! DEFINITION. What an implementation fixes and the spec does not state: the module's identity (R421), and
the values that the spec leaves open. None of these
constants has a body, so nothing can be proved of their values. -/

namespace Sys2Proof.Config

/-- SHA-384 of the ROM, reported by ATTEST (R421, R422): one value for each firmware build. -/
opaque romHash : BitVec 384
/-- The fuse revision that ATTEST reports (R419). -/
opaque fuseRevision : BitVec 32
/-- The certificate chain of the module's identity key, padded to a multiple of 8 bytes (R419). -/
opaque certChain : List (BitVec 8)
/-- The ECDSA P-384 signature (r, s) under the module's identity key over a SHA-384 digest (R418, R421). The key never
leaves the module and the signature's own random number is the module's: `n` numbers the signatures. -/
opaque identitySign : (digest : BitVec 384) → (n : Nat) → BitVec 768

/-- A word of the private part of a context area (R406), by CLOCK, plot and place: known only to the part that wrote it. -/
opaque contextWord : (clock plot i : Nat) → BitVec 32
/-- A scratchpad word that a restore leaves in a plot whose context was marked discard (R242, R407), with its validity bit: the spec
gives none. -/
opaque lostWord : (clock plot i : Nat) → Bool × BitVec 32

/-- The `n`-th address that a core fetches ahead of its slots, on the sequential path or at a predicted target (R392). -/
opaque fetchAhead : (n : Nat) → BitVec 64
/-- What word `i` of the private part of a plot's context area holds (R406, R407): a word of a register image (slot, file and number as
R391 numbers them, 32-bit word of the register), a word of an edge buffer's image (port, beat, word), or other state. -/
inductive CtxItem where
  | register (slot : BitVec 3) (file : BitVec 3) (num : BitVec 5) (word : BitVec 4)
  | buffer (port : BitVec 4) (beat word : Nat)
  | other
  deriving DecidableEq, Repr, Inhabited
/-- The layout of that part, known only to the part that wrote it (R406). -/
opaque contextItem : (plot i : Nat) → CtxItem

end Sys2Proof.Config
end

