-- ==== Sys2Proof/Syntax.lean ====
section
/-! DEFINITION. The steps of the LZX-8: one constructor for each row of spec/opcode_table.json. Scalar instructions
carry the fields of R28, R35; stream words the fields of R40, R104, R173, R217, R254; commands the bodies of R379, R416;
events name what they act on. -/

namespace Sys2Proof

/-- Header of a stream word (R40), less its opcode and wflags, which each word's constructor holds. -/
structure SwHdr where
  port : BitVec 8
  oc : BitVec 3
  await : Bool
  post : Bool
  arc : BitVec 8
  deriving DecidableEq, Repr

/-- What a scrub or a read finds in a protected store (R251, R395). -/
inductive SoftError where
  | clean | correctable | uncorrectable
  deriving DecidableEq, Repr

/-- A storage that STORAGE_SCRUB visits (R395): a 32-bit word of memory by its address, a word of a slot's register
(file 0 g, 1 a, 2 v, 3 q, 4 tag) by its 64-bit unit, a line of a plot's instruction cache or L1 by its physical address, the entry of its translation cache for
an address, a word of a weight register, an accumulator bank, an edge buffer or, at a plot, a cell link that a wave of a matrix word is on, the state of a plot held as R388, or the causal state of a
die. -/
inductive ScrubTarget where
  | memory (pa : BitVec 48)
  | register (plot : BitVec 13) (slot : BitVec 3) (file : BitVec 3) (num : BitVec 5) (unit : BitVec 3)
  | icache (plot : BitVec 13) (pa : BitVec 48)
  | l1 (plot : BitVec 13) (pa : BitVec 48)
  | tlb (plot : BitVec 13) (va : BitVec 64)
  | weight (inst region w row col word : Nat)
  | accumulator (inst region : Nat) (east : Bool) (line word : Nat)
  | buffer (plot : BitVec 13) (port : BitVec 4) (beat word : Nat)
  | link (inst region word wave lane : Nat) (plot : BitVec 13)
  | plotState (plot : BitVec 13)
  | causal (die : BitVec 3)
  deriving DecidableEq, Repr

/-- The values of one address partition (R80, R416): base and limit in 2-MiB units, ten masks, eight die numbers. -/
structure PartitionVal where
  en : Bool
  base : BitVec 27
  limit : BitVec 27
  masks : List (BitVec 48)
  remap : List (BitVec 3)
  deriving DecidableEq, Repr

/-- The choices the ROM makes at bring-up (R429): which dies fail, the defect maps it reads, partitions, carving,
pennant backing (256-MiB units for each die), the bunting pool. -/
structure BootChoices where
  failed : List (BitVec 3 × BitVec 8)
  defects : List (BitVec 3 × List (BitVec 32))
  partitions : List PartitionVal
  cways : List (BitVec 4)
  backing : List Nat
  poolBase : BitVec 48
  poolBlocks : Nat
  peers : BitVec 8
  deriving DecidableEq, Repr

/-- One step of the device or of the world outside it. -/
inductive Instr where
  -- integer (R307, R308)
  | add (d a b : GReg) | sub (d a b : GReg) | mul (d a b : GReg) | mulh (d a b : GReg) | mulhz (d a b : GReg)
  | div (d a b : GReg) | divz (d a b : GReg) | rem (d a b : GReg) | remz (d a b : GReg)
  | and (d a b : GReg) | or (d a b : GReg) | xor (d a b : GReg) | andn (d a b : GReg)
  | slt (d a b : GReg) | sltz (d a b : GReg) | min (d a b : GReg) | max (d a b : GReg)
  | minz (d a b : GReg) | maxz (d a b : GReg) | sel (d a b : GReg)
  -- immediate forms (R309, R310)
  | addImm (d a : GReg) (imm : BitVec 16) | mulImm (d a : GReg) (imm : BitVec 16) | andImm (d a : GReg) (imm : BitVec 16)
  | orImm (d a : GReg) (imm : BitVec 16) | xorImm (d a : GReg) (imm : BitVec 16) | sltImm (d a : GReg) (imm : BitVec 16)
  | sltzImm (d a : GReg) (imm : BitVec 16) | lih (d : GReg) (imm : BitVec 16)
  -- long forms (R36)
  | li (d : GReg) (imm : BitVec 32) | liH (d : GReg) (imm : BitVec 32) | leaLong (d a : GReg) (imm : BitVec 32)
  | addLong (d a : GReg) (imm : BitVec 32) | mulLong (d a : GReg) (imm : BitVec 32) | andLong (d a : GReg) (imm : BitVec 32)
  | orLong (d a : GReg) (imm : BitVec 32) | xorLong (d a : GReg) (imm : BitVec 32) | sltLong (d a : GReg) (imm : BitVec 32)
  | sltzLong (d a : GReg) (imm : BitVec 32)
  -- shift and bit (R311, R312)
  | shl (d a b : GReg) | shlImm (d a : GReg) (n : BitVec 6) | shr (d a b : GReg) | shrImm (d a : GReg) (n : BitVec 6)
  | sar (d a b : GReg) | sarImm (d a : GReg) (n : BitVec 6) | rol (d a b : GReg) | rolImm (d a : GReg) (n : BitVec 6)
  | clz (d a : GReg) | ctz (d a : GReg) | popc (d a : GReg) | brev (d a : GReg) | bext (d a b : GReg) | bins (d a b : GReg)
  -- address (R313, R314)
  | lea (d a b : GReg) (s : BitVec 3) | idx2 (d a b : GReg) (s : BitVec 3) | pack (d a b : GReg)
  -- branches and control (R315-R320)
  | beq (a b : GReg) (imm : BitVec 16) | bne (a b : GReg) (imm : BitVec 16) | blt (a b : GReg) (imm : BitVec 16)
  | bge (a b : GReg) (imm : BitVec 16) | blo (a b : GReg) (imm : BitVec 16) | bhs (a b : GReg) (imm : BitVec 16)
  | bval (a : GReg) (imm : BitVec 16) | binv (a : GReg) (imm : BitVec 16)
  | jal (d : GReg) (imm : BitVec 21) | jalLong (d : GReg) (imm : BitVec 32) | jr (d a : GReg) | yield
  | loop (a : GReg) (n : BitVec 16)
  -- loads, stores, prefetch (R187-R191): t is the type code of R30
  | ld (d a : GReg) (oc : BitVec 3) (acq : Bool) (t : BitVec 3) (imm : BitVec 9)
  | ldLong (d a : GReg) (oc : BitVec 3) (acq : Bool) (t : BitVec 3) (imm : BitVec 32)
  | st (s a : GReg) (oc : BitVec 3) (rel : Bool) (t : BitVec 3) (imm : BitVec 9)
  | stLong (s a : GReg) (oc : BitVec 3) (rel : Bool) (t : BitVec 3) (imm : BitVec 32)
  | ldv (d : VNum) (a : GReg) (oc : BitVec 3) (fmt : BitVec 4) (imm : BitVec 9)
  | ldvLong (d : VNum) (a : GReg) (oc : BitVec 3) (fmt : BitVec 4) (imm : BitVec 32)
  | stv (s : VNum) (a : GReg) (oc : BitVec 3) (fmt : BitVec 4) (imm : BitVec 9)
  | stvLong (s : VNum) (a : GReg) (oc : BitVec 3) (fmt : BitVec 4) (imm : BitVec 32)
  | prf (t : BitVec 5) (a : GReg) (oc : BitVec 3) (imm : BitVec 9)
  | prfLong (t : BitVec 5) (a : GReg) (oc : BitVec 3) (imm : BitVec 32)
  -- full/empty group (R192, R193)
  | ldfe (d a : GReg) (oc : BitVec 3) (clr : Bool) | stfe (a b : GReg) (oc : BitVec 3)
  | feq (d a : GReg) (oc : BitVec 3) | feset (a : GReg) (oc : BitVec 3) (full : Bool)
  -- atomics and reductions (R196-R200): k is the ordering of R31, w true for .b64
  | amadd (d a b : GReg) (k : BitVec 2) (w : Bool) (oc : BitVec 3) | ammin (d a b : GReg) (k : BitVec 2) (w : Bool) (oc : BitVec 3)
  | ammax (d a b : GReg) (k : BitVec 2) (w : Bool) (oc : BitVec 3) | amminz (d a b : GReg) (k : BitVec 2) (w : Bool) (oc : BitVec 3)
  | ammaxz (d a b : GReg) (k : BitVec 2) (w : Bool) (oc : BitVec 3) | amand (d a b : GReg) (k : BitVec 2) (w : Bool) (oc : BitVec 3)
  | amor (d a b : GReg) (k : BitVec 2) (w : Bool) (oc : BitVec 3) | amxor (d a b : GReg) (k : BitVec 2) (w : Bool) (oc : BitVec 3)
  | amswp (d a b : GReg) (k : BitVec 2) (w : Bool) (oc : BitVec 3) | amcas (d a b : GReg) (k : BitVec 2) (w : Bool) (oc : BitVec 3)
  | amfadd (d a b : GReg) (k : BitVec 2) (w : Bool) (oc : BitVec 3) | aminc (d a b : GReg) (k : BitVec 2) (w : Bool) (oc : BitVec 3)
  | redadd (a b : GReg) (rel : Bool) (w : Bool) (oc : BitVec 3) | redmin (a b : GReg) (rel : Bool) (w : Bool) (oc : BitVec 3)
  | redmax (a b : GReg) (rel : Bool) (w : Bool) (oc : BitVec 3) | redfadd (a b : GReg) (rel : Bool) (w : Bool) (oc : BitVec 3)
  | redor (a b : GReg) (rel : Bool) (w : Bool) (oc : BitVec 3)
  -- ordering (R331, R335) and synchronisation (R363)
  | fence (mask : BitVec 8) (k : BitVec 2) (scope : BitVec 4) | arc (d : GReg) (id : BitVec 8) (k : BitVec 2) (oc : BitVec 3)
  | evsig (a : GReg) (e : BitVec 8) | evwait (d : GReg) (e : BitVec 8) | barrive (d : GReg) (e : BitVec 8)
  | bwait (d : GReg) (e : BitVec 8) | bskip (a : GReg) (e : BitVec 8) | prio (c : BitVec 2)
  | trigbind (d a b : GReg) | trigdrop (d a : GReg) | freeze (d a : GReg) | thaw (d a : GReg)
  -- pennants (R165)
  | pndef (d a : GReg) | pnatt (d a : GReg) (fill : Bool) | pndet (d a : GReg) | pndrop (d a : GReg) | pnrel (d a : GReg)
  | pnq (d a : GReg) (n : BitVec 3)
  -- stream issue (R201) and configuration (R245)
  | sqset (q : QNum) (a b : GReg) (k : BitVec 2) | sqld (q : QNum) (a : GReg) (oc : BitVec 3) | sqiss (d : GReg) (q : QNum)
  | sqwait (a : GReg) | config (d a : GReg) | arm (d a : GReg) | disarm (d a : GReg)
  -- vector floating point (R288): m is the rounding mode
  | vadd (d a b : VNum) (m : BitVec 3) | vsub (d a b : VNum) (m : BitVec 3) | vmul (d a b : VNum) (m : BitVec 3)
  | vfma (d a b : VNum) (m : BitVec 3) | vfms (d a b : VNum) (m : BitVec 3) | vdiv (d a b : VNum) (m : BitVec 3)
  | vsqrt (d a : VNum) (m : BitVec 3) | vrsq (d a : VNum) (m : BitVec 3) | vrcp (d a : VNum) (m : BitVec 3)
  | vmin (d a b : VNum) (m : BitVec 3) | vmax (d a b : VNum) (m : BitVec 3) | vabs (d a : VNum) (m : BitVec 3)
  | vneg (d a : VNum) (m : BitVec 3) | vexp2 (d a : VNum) (m : BitVec 3) | vlog2 (d a : VNum) (m : BitVec 3)
  | vscale (d a : VNum) (b : GReg) (m : BitVec 3)
  -- vector integer (R290)
  | viadd (d a b : VNum) | visub (d a b : VNum) | vimul (d a b : VNum) | vimin (d a b : VNum) | vimax (d a b : VNum)
  | vand (d a b : VNum) | vor (d a b : VNum) | vxor (d a b : VNum) | vshl (d a b : VNum) | vshlImm (d a : VNum) (n : BitVec 6)
  | vshr (d a b : VNum) | vshrImm (d a : VNum) (n : BitVec 6) | vsar (d a b : VNum) | vsarImm (d a : VNum) (n : BitVec 6)
  -- horizontal and lane operations (R291)
  | vsum (d a : VNum) (m : BitVec 3) | vhmax (d a : VNum) | vhmin (d a : VNum) | vcmp (d a b : VNum) (c : BitVec 3)
  | vsel (d a b : VNum) | vval (d a b : VNum) (apply : Bool) | vperm (d a b : VNum) | vbcast (d a : VNum) (i : BitVec 7)
  | vslide (d a b : VNum) (n : BitVec 6)
  -- conversion and tags (R297), moves (R302)
  | vcvt (d a : VNum) (p m : BitVec 3) | vqnt (d a : VNum) (b : GReg) (p m : BitVec 3) | vdqnt (d a : VNum) (b : GReg) (p m : BitVec 3)
  | vtag (d : VNum) (a : GReg) | vtagrd (d : GReg) (a : VNum) | vpack (d a b : VNum) | vunpk (d a b : VNum)
  | vmov (d a : VNum) | vext (d : GReg) (a : VNum) (i : BitVec 7) | vins (d : VNum) (a : GReg) (i : BitVec 7)
  | vzero (d : VNum) (fmt : BitVec 4)
  -- WAIT (R337) and the SYSTEM group (R398)
  | wait (loads stores copies tiles : BitVec 4) | nop | trap (code : BitVec 11) | eret
  | sysrd (d : GReg) (num : BitVec 12) | syswr (d : GReg) (num : BitVec 12) | savec (a : GReg) | restc (a : GReg)
  | tcinv (a : GReg) (k : BitVec 2) | icinv | idle (a : GReg) | brk (code : BitVec 11)
  -- stream words on memory, ports and signals (R217)
  | bindr (h : SwHdr) (rc : BitVec 13) (hold : Bool) | bindw (h : SwHdr) (rc : BitVec 13) | unbind (h : SwHdr) (abort : Bool)
  | cpy (h : SwHdr) (va : BitVec 56) (off : BitVec 19) (len16 : BitVec 21) (out : Bool)
  | cpyp (h : SwHdr) (src dst : BitVec 13) | gath (h : SwHdr) (src dst : BitVec 13) | scat (h : SwHdr) (src dst : BitVec 13)
  | mcst (h : SwHdr) (src store : BitVec 13) (eos : Bool) (hasStore : Bool) | phase (h : SwHdr) (rc : BitVec 13)
  | arrv (h : SwHdr) (plot : BitVec 13) (ctr : BitVec 4) (batch : BitVec 16) (row n1 : BitVec 6)
  | patch (h : SwHdr) (queue : BitVec 8) (slot : BitVec 2) (tag : BitVec 16) (value : BitVec 32) (voff : BitVec 19) (indirect : Bool)
  | evt (h : SwHdr) (event : BitVec 8) (amount : BitVec 16)
  -- matrix stream words (R254): a count field holds the count less 1
  | wld (h : SwHdr) (row : Bool) (w : BitVec 3) (first n1 lines1 : BitVec 7) (xid : BitVec 6) (xv : Bool)
  | wstr (h : SwHdr) (row : Bool) (w : BitVec 3) (first n1 lines1 : BitVec 7)
  | mtok (h : SwHdr) (mode : BitVec 2) (acc : Bool) (w : BitVec 3) (e0 m1 : BitVec 6) (kr1 : BitVec 7) (woff : BitVec 18)
      (nl1 : BitVec 7) (gtag : BitVec 16)
  | accz (h : SwHdr) (east : Bool) (e0 n1 : BitVec 6) (tag : BitVec 16) (res : BitVec 19) (clrstat rdstat : Bool)
  | drn (h : SwHdr) (east : Bool) (e0 n1 : BitVec 6) (sh : BitVec 5) (relu : Bool) (rm : BitVec 3) (te clr : Bool)
      (lines1 : BitVec 7) (goff : BitVec 19) (gate rows : Bool)
  | steer (h : SwHdr) (ioff : BitVec 19) (n1 : BitVec 8)
  | ringMember (h : SwHdr) (mask : Word) (w : BitVec 3) (e0 m1 : BitVec 6) (acc : Bool)
  | ringSource (h : SwHdr) (rc : BitVec 13) (x0 nexp1 m1 : BitVec 6) (lines1 : BitVec 7) (passes1 : BitVec 8)
  | race (h : SwHdr) (soff : BitVec 19) (t1 : BitVec 13) (ooff : BitVec 19) (e1 : BitVec 6) (k1 : BitVec 3) (coff : BitVec 19) (wcnt : Bool)
  -- bunting and pennant stream words (R104, R173)
  | bnalloc (h : SwHdr) (name : BitVec 44) (cnt : BitVec 6) (res : BitVec 19) (wres : Bool) | bnfree (h : SwHdr) (name : BitVec 44) (cnt : BitVec 6)
  | bnshare (h : SwHdr) (src dst : BitVec 44) (cnt : BitVec 6)
  | bnxl (h : SwHdr) (name : BitVec 44) (cnt : BitVec 6) (res : BitVec 19) (wi : Bool)
  | pnevict (h : SwHdr) (name : Word) (res : BitVec 19) (wres : Bool)
  | pnfill (h : SwHdr) (name : Word) (origin : BitVec 13) (res : BitVec 19) (wres : Bool)
  -- commands (R379, R414, R416), performed for the command that the state's focus names
  | queueOpen (queue : BitVec 8) (n : BitVec 5) (qpn : BitVec 24) (port : BitVec 2) (ring : BitVec 48) | queueClose (queue : BitVec 8)
  | queueReset (queue : BitVec 8) | linkCreate (link : BitVec 10) (producer consumer : BitVec 8) | linkDestroy (link : BitVec 10)
  | imageInstall (pa root : BitVec 48) (k : BitVec 5) (gang : Bool) (members1 : BitVec 2) (remaps : List (BitVec 24)) (others : List (BitVec 48))
  | imageRemove (inst : BitVec 16)
  | bindStreams (image : Word) (sink : BitVec 8) (pna pnb : Word) (exts : List (List Word))
  | preempt (inst : BitVec 16) | restore (inst : BitVec 16) | slotResume (inst : BitVec 16) (plot : BitVec 13) (slot : BitVec 3)
  | slotKill (inst : BitVec 16) (plot : BitVec 13) (slot : BitVec 3)
  | pnAdminDrop (name : Word) | pnAdminEvict (name : Word) | pnAdminFill (name : Word) (origin : BitVec 13)
  | pnAdminList (off : BitVec 48) (cap : BitVec 32)
  | regionDeclare (pa : BitVec 48) (life : BitVec 16) (trapFlag : Bool) | regionUndeclare (pa : BitVec 48)
  | faultReplay (id : BitVec 32) | faultDecline (id : BitVec 32)
  | shootdownAsid (inst : BitVec 16) | shootdownPage (inst : BitVec 16) (va : Word) | shootdownAll (inst : BitVec 16)
  | dieFence (die : BitVec 3) | partitionSet (n : BitVec 3) (val : PartitionVal)
  | hostCopy (hoff : BitVec 48) (addr : Word) (len : BitVec 40) (toHost phys : Bool) (inst : BitVec 16)
  | logRead (off : BitVec 48) (cap : BitVec 32)
  -- fetch and decode (R45, R392)
  | decodeFault (illegal : Bool) (bit : BitVec 5) (word0 : BitVec 32) | fetchFault (cause : BitVec 8) (va : Word) (straddle : Bool)
  -- flits (R151, R152)
  | g30Write (v : Val) | g31Read (d : GReg) | flitArrive (id : Nat)
  -- memory events (R180, R324, R197, R200, R116, R93, R90): `id` numbers an outstanding request
  | loadComplete (id : Nat) | storePerform (id : Nat) | amoPerform (id : Nat) | redPerform (id : Nat) | readServe (id : Nat)
  | readResponseMerge (id : Nat) | hostPageAccess (id : Nat) | pageWalk (id : Nat)
  -- the causal fabric (R113-R122): units 0-7 are dies, 8-15 logic bases
  | countedPacketSend (id : Nat) | packetArrive (id : Nat) | deliveryAck (id : Nat) | frontierRequest (unit : BitVec 4) (die : BitVec 3)
  | frontierFlitSend (die : BitVec 3) (unit : BitVec 4) | frontierFlitReceive (id : Nat)
  | mastLinkError | rebaseQuiet | rebaseReset
  -- optics, vertical bus, packet plane, control registers (R125, R126, R139, R149, R131, R80)
  | ringRetune (stack : BitVec 4) | ringHeaterSaturate (stack : BitVec 4) (waveguide : BitVec 5) (wavelength : BitVec 4)
  | ringReassignDone (stack : BitVec 4) (waveguide : BitVec 5)
  | vbusRetrain (die : BitVec 3) | vbusRetrainForced (die : BitVec 3) | vbusRetrainEnd (die : BitVec 3)
  | deadlockRecoveryStart (plot : BitVec 13) | deadlockRecoveryEnd (plot : BitVec 13)
  | dcarveWrite (die : BitVec 3) (value : Word) | controlRegisterWrite (pa : BitVec 48) (value : Word)
  -- engines and regions (R215, R219, R220, R250, R251, R268, R278, R395)
  | bindrBeat (plot : BitVec 13) (port : BitVec 4) | bindwBeat (plot : BitVec 13) (port : BitVec 4)
  | streamWordComplete (plot : BitVec 13) (slot : BitVec 3) (ticket : BitVec 16) | mtokConsumed (plot : BitVec 13) (slot : BitVec 3) (ticket : BitVec 16)
  | mtokDone (plot : BitVec 13) (slot : BitVec 3) (ticket : BitVec 16) | ringGroupProduct (inst region : Nat)
  | plotWake (plot : BitVec 13) | configScrub (inst region : Nat) (err : SoftError) | regionReloadDone (inst region : Nat) (good : Bool)
  | storageScrub (target : ScrubTarget) (err : SoftError)
  -- actors, guidons, barriers (R225, R344-R353, R360, R387, R403, R405)
  | arrvApply (id : Nat) | barrierTimeout (inst : Nat) (e : BitVec 8) | firingStart (plot : BitVec 13) (slot : BitVec 3)
  | permitReceive (id : Nat) | actorDone (id : Nat) | guidonDoneReceive (id : Nat)
  | watchdog (plot : BitVec 13) (slot : BitVec 3) | idleTimeout (plot : BitVec 13) (slot : BitVec 3) | asyncTrap (plot : BitVec 13) (slot : BitVec 3)
  | preemptRegionFreeze (inst region : Nat) | pennantIdleEvict (sess : Option Nat) (name : Word)
  -- the front end (R371-R385)
  | doorbell (sess queue : Nat) (qpn : BitVec 24) (port : BitVec 2) (tail : BitVec 16) | commandDispatch (sess queue : Nat)
  | patchArrive (id : Nat) | commandComplete (id : Nat)
  -- sessions and the world outside (R411-R421, R429, R430)
  | sessionOpen (qp : BitVec 24) (port : BitVec 2) (msg : List Byte) | sessionClose (msg : List Byte)
  | attest (msg : List Byte) | syncstate (msg : List Byte) | sessionTimeout (sess : Nat) | qpLinkDown (port : BitVec 2)
  | rdmaAtomic (qpn : BitVec 24) (port : BitVec 2) | powerOn (boot : BootChoices) | thermalLimit (die : BitVec 3) | criticalTrip
  -- channels, host and peers (R144, R371, R326, R430, R239)
  | channelBeatArrive (id : Nat) | rdmaWrite (sess queue : Nat) (qpn : BitVec 24) (port : BitVec 2) (slot : BitVec 6) (entry : List Word)
  | hostWriteAcknowledged (id : Nat) | peerWriteAcknowledged (id : Nat) | temperatureBelowLimit (die : BitVec 3)
  | defectEntryAdded (die : BitVec 3) (entry : BitVec 32)
  deriving DecidableEq, Repr

end Sys2Proof
end

