-- ==== Sys2Proof/WellFormed.lean ====
section
/-! DEFINITION. Which instructions have an encoding: the reserved values of R30, R31, R34, R45, R61, R165, R291, R302,
R320, R325, R331, R335, R401 for scalar instructions, and the legality rules of R40, R41, R105, R173, R218, R256 for
stream words. Other steps carry no reserved value in their fields beyond what their bodies check (R373). -/

namespace Sys2Proof

/-- A rounding mode other than the reserved 6 and 7 (R61). -/
def okMode (m : BitVec 3) : Bool := m.toNat ≤ 5
/-- A format code other than the reserved 13 to 15 (R48). -/
def okFmt (f : BitVec 4) : Bool := f.toNat ≤ 12

/-- The arc cases of R40: a word that awaits or posts names an arc. -/
def SwHdr.okArc (h : SwHdr) : Bool := !(h.await || h.post) || h.arc != 0
/-- A word that names no port has port = 0 (R209). -/
def SwHdr.noPort (h : SwHdr) : Bool := h.port == 0
/-- The port's number within its plot (R40). -/
def SwHdr.portNum (h : SwHdr) : Nat := h.port.toNat % 16

/-- Names first .. first + cnt keep within 16 bits of block number (R105). -/
def okBlocks (name : BitVec 44) (cnt : BitVec 6) : Bool := name.toNat % 65536 + cnt.toNat ≤ 0xFFFF
/-- The two name ranges of a BNSHARE do not overlap (R105). -/
def blocksDisjoint (src dst : BitVec 44) (cnt : BitVec 6) : Bool :=
  src.toNat / 65536 != dst.toNat / 65536 || src.toNat % 65536 + cnt.toNat < dst.toNat % 65536
    || dst.toNat % 65536 + cnt.toNat < src.toNat % 65536
/-- A scratchpad offset on a 4-byte boundary. -/
def aligned4 {n : Nat} (x : BitVec n) : Bool := x.toNat % 4 == 0

/-- Every field of the instruction holds a value its encoding admits. -/
def Instr.wf : Instr → Bool
  | .ld _ _ _ _ t _ | .ldLong _ _ _ _ t _ => t != 7
  | .st _ _ _ _ t _ | .stLong _ _ _ _ t _ => t.toNat < 4
  | .ldv _ _ _ f _ | .ldvLong _ _ _ f _ | .stv _ _ _ f _ | .stvLong _ _ _ f _ | .vzero _ f => okFmt f
  | .prf t _ _ _ | .prfLong t _ _ _ => t.toNat ≤ 2
  | .loop _ n => 0 < n.toInt
  | .fence mask k scope => mask != 0 && k != 0 && scope.toNat ≤ 10
  | .arc d id k oc => id != 0 && k != 3 && (if k == 0 then oc == 0 else d == 0)
  | .pnq _ _ n => n.toNat ≤ 4
  | .vadd _ _ _ m | .vsub _ _ _ m | .vmul _ _ _ m | .vfma _ _ _ m | .vfms _ _ _ m | .vdiv _ _ _ m | .vmin _ _ _ m
  | .vmax _ _ _ m | .vscale _ _ _ m => okMode m
  | .vsqrt _ _ m | .vrsq _ _ m | .vrcp _ _ m | .vabs _ _ m | .vneg _ _ m | .vexp2 _ _ m | .vlog2 _ _ m | .vsum _ _ m => okMode m
  | .vcmp _ _ _ c => c.toNat ≤ 6
  | .vval _ _ b ap => ap || b == 0
  | .vcvt _ _ _ m | .vqnt _ _ _ _ m | .vdqnt _ _ _ _ m => okMode m
  | .tcinv a k => k != 3 && (k == 1 || a == 0)
  | .bindr h _ _ => h.okArc && h.portNum < 8
  | .bindw h _ => h.okArc && 8 ≤ h.portNum
  | .unbind h _ | .phase h _ => h.okArc
  | .cpy h va off len16 _ => h.okArc && h.noPort && len16 != 0 && va.toNat % 16 == 0 && off.toNat % 16 == 0
  | .cpyp h _ _ | .gath h _ _ | .scat h _ _ => h.okArc && h.noPort
  | .mcst h _ store _ hasStore => h.okArc && (hasStore || store == 0)
  | .arrv h _ _ _ row n1 => h.okArc && h.noPort && row.toNat + n1.toNat + 1 ≤ 64
  | .patch h _ _ _ value voff indirect => h.okArc && h.noPort && aligned4 voff && (if indirect then value == 0 else voff == 0)
  | .evt h _ amount => h.okArc && h.noPort && amount != 0
  | .wld h _ _ first n1 _ xid xv => h.okArc && h.noPort && first.toNat + n1.toNat + 1 ≤ 128 && (xv || xid == 0)
  | .wstr h _ _ first n1 _ => h.okArc && h.noPort && first.toNat + n1.toNat + 1 ≤ 128
  | .mtok h mode _ _ e0 m1 kr1 woff _ gtag => h.okArc && h.noPort && !(h.post && h.arc == 255) && mode != 3
      && e0.toNat + m1.toNat + 1 ≤ 64 && (if mode == 2 then (kr1.toNat + 1) % 4 == 0 else gtag == 0 && woff == 0)
  | .accz h _ e0 n1 _ res _ _ => h.okArc && h.noPort && e0.toNat + n1.toNat + 1 ≤ 64 && aligned4 res
  | .drn h _ e0 n1 _ _ rm _ _ _ goff _ _ => h.okArc && h.noPort && e0.toNat + n1.toNat + 1 ≤ 64 && okMode rm && aligned4 goff
  | .steer h ioff _ => h.okArc && aligned4 ioff
  | .ringMember h _ _ e0 m1 _ => h.okArc && h.noPort && e0.toNat + m1.toNat + 1 ≤ 64
  | .ringSource h _ x0 nexp1 _ _ _ => h.okArc && h.noPort && x0.toNat + nexp1.toNat + 1 ≤ 64
  | .race h soff _ ooff e1 k1 coff _ => h.okArc && h.noPort && aligned4 soff && ooff.toNat % 8 == 0 && aligned4 coff && k1.toNat ≤ e1.toNat
  | .bnalloc h name cnt res _ => h.okArc && h.noPort && okBlocks name cnt && aligned4 res
  | .bnfree h name cnt => h.okArc && h.noPort && okBlocks name cnt
  | .bnshare h src dst cnt => h.okArc && h.noPort && okBlocks src cnt && okBlocks dst cnt && blocksDisjoint src dst cnt
  | .bnxl h name cnt res _ => h.okArc && h.noPort && okBlocks name cnt && aligned4 res
  | .pnevict h _ res _ => h.okArc && h.noPort && aligned4 res
  | .pnfill h _ _ res _ => h.okArc && h.noPort && aligned4 res
  | _ => true

end Sys2Proof
end

