-- ==== Sys2Proof/Decode.lean ====
section
/-! DEFINITION. Decoding and encoding, from the tables of R28-R45 (scalar words), R40-R43, R104, R105, R173, R217, R218,
R254, R256 (stream words) and R372, R379, R416 (command entries). Decoding is total: it answers an instruction or a
reason with the bit that R45-R47 report. -/

namespace Sys2Proof

/-- Why bytes are not a scalar instruction (R45): too few bytes, ILLEGAL or RESERVED_FIELD with the bit of R47. -/
inductive Reject where
  | short
  | illegal (bit : BitVec 5)
  | reserved (bit : BitVec 5)
  deriving DecidableEq, Repr

/-- Number of the lowest set bit of `v`, looking at `n` bits. -/
def lowBit : Nat → Nat → Nat
  | 0, _ => 0
  | n + 1, v => if v % 2 == 1 then 0 else lowBit n (v / 2) + 1

/-- The offending bit of a multi-bit field at `lo` that holds a reserved value (R47). -/
def fieldBit (v lo : Nat) : Nat := if v == 0 then lo else lo + lowBit 128 v

/-- The lowest of the offending bits that are flagged (R47). -/
def minBad : Option Nat → List (Bool × Nat) → Option Nat
  | acc, [] => acc
  | acc, (true, n) :: t => minBad (some (match acc with | some m => Nat.min m n | none => n)) t
  | acc, (false, _) :: t => minBad acc t

/-- The instruction `i` when no must-be-zero bit of `w` is set and no flagged value is reserved, else RESERVED_FIELD. -/
def chk (w zero : BitVec 32) (bads : List (Bool × Nat)) (i : Instr) : Except Reject Instr :=
  match minBad (if w &&& zero == 0 then none else some (lowBit 32 (w &&& zero).toNat)) bads with
  | none => .ok i
  | some b => .error (.reserved (BitVec.ofNat 5 b))

/-- Fields of the R and V forms (R28, R34). -/
def gD (w : BitVec 32) : GReg := w.extractLsb' 21 5
/-- Field a as a g register. -/
def gA (w : BitVec 32) : GReg := w.extractLsb' 16 5
/-- Field b as a g register. -/
def gB (w : BitVec 32) : GReg := w.extractLsb' 11 5
/-- Field d as a v register. -/
def vD (w : BitVec 32) : VNum := w.extractLsb' 21 4
/-- Field a as a v register. -/
def vA (w : BitVec 32) : VNum := w.extractLsb' 16 4
/-- Field b as a v register. -/
def vB (w : BitVec 32) : VNum := w.extractLsb' 11 4
/-- Field d as a q register. -/
def qD (w : BitVec 32) : QNum := w.extractLsb' 21 3
/-- Field a as a q register. -/
def qA (w : BitVec 32) : QNum := w.extractLsb' 16 3
/-- A 2-bit field. -/
def f2 (w : BitVec 32) (lo : Nat) : BitVec 2 := w.extractLsb' lo 2
/-- A 3-bit field. -/
def f3 (w : BitVec 32) (lo : Nat) : BitVec 3 := w.extractLsb' lo 3
/-- A 4-bit field. -/
def f4 (w : BitVec 32) (lo : Nat) : BitVec 4 := w.extractLsb' lo 4
/-- The selector of an R or V form. -/
def selNat (w : BitVec 32) : Nat := (w.extractLsb' 6 5).toNat
/-- Immediate shift amount (R32). -/
def immShift (w : BitVec 32) : BitVec 6 := w.extractLsb' 0 1 ++ w.extractLsb' 11 5
/-- Lane index of VBCAST, VEXT, VINS (R291, R302). -/
def laneIdx (w : BitVec 32) : BitVec 7 := w.extractLsb' 0 2 ++ w.extractLsb' 11 5
/-- Mask of FENCE (R331). -/
def fenceMask (w : BitVec 32) : BitVec 8 := w.extractLsb' 16 3 ++ w.extractLsb' 21 5
/-- Arc id of ARC (R335). -/
def arcId (w : BitVec 32) : BitVec 8 := w.extractLsb' 16 3 ++ w.extractLsb' 11 5
/-- Guidon, event or barrier index of the SYNC group (R363). -/
def guidonId (w : BitVec 32) : BitVec 8 := w.extractLsb' 11 5 ++ w.extractLsb' 0 3
/-- System register number (R33). -/
def sysNum (w : BitVec 32) : BitVec 12 := w.extractLsb' 16 1 ++ w.extractLsb' 11 5 ++ w.extractLsb' 0 6
/-- A reserved rounding mode in mod[2:0] (R61, R285). -/
def badMode (w : BitVec 32) : Bool × Nat := (6 ≤ (f3 w 0).toNat, fieldBit (f3 w 0).toNat 0)

/-- INT group (R39, R307): mod is zero. -/
def decodeInt (w : BitVec 32) : Except Reject Instr :=
  match selNat w with
  | 0 => chk w 0x0000003F [] (.add (gD w) (gA w) (gB w))
  | 1 => chk w 0x0000003F [] (.sub (gD w) (gA w) (gB w))
  | 2 => chk w 0x0000003F [] (.mul (gD w) (gA w) (gB w))
  | 3 => chk w 0x0000003F [] (.mulh (gD w) (gA w) (gB w))
  | 4 => chk w 0x0000003F [] (.mulhz (gD w) (gA w) (gB w))
  | 5 => chk w 0x0000003F [] (.div (gD w) (gA w) (gB w))
  | 6 => chk w 0x0000003F [] (.divz (gD w) (gA w) (gB w))
  | 7 => chk w 0x0000003F [] (.rem (gD w) (gA w) (gB w))
  | 8 => chk w 0x0000003F [] (.remz (gD w) (gA w) (gB w))
  | 9 => chk w 0x0000003F [] (.and (gD w) (gA w) (gB w))
  | 10 => chk w 0x0000003F [] (.or (gD w) (gA w) (gB w))
  | 11 => chk w 0x0000003F [] (.xor (gD w) (gA w) (gB w))
  | 12 => chk w 0x0000003F [] (.andn (gD w) (gA w) (gB w))
  | 13 => chk w 0x0000003F [] (.slt (gD w) (gA w) (gB w))
  | 14 => chk w 0x0000003F [] (.sltz (gD w) (gA w) (gB w))
  | 15 => chk w 0x0000003F [] (.min (gD w) (gA w) (gB w))
  | 16 => chk w 0x0000003F [] (.max (gD w) (gA w) (gB w))
  | 17 => chk w 0x0000003F [] (.minz (gD w) (gA w) (gB w))
  | 18 => chk w 0x0000003F [] (.maxz (gD w) (gA w) (gB w))
  | 19 => chk w 0x0000003F [] (.sel (gD w) (gA w) (gB w))
  | _ => .error (.illegal 6)

/-- SHIFT/BIT group (R32, R39, R311). -/
def decodeShift (w : BitVec 32) : Except Reject Instr :=
  match selNat w with
  | 0 => if w.getLsbD 5 then chk w 0x0000001E [] (.shlImm (gD w) (gA w) (immShift w)) else chk w 0x0000001F [] (.shl (gD w) (gA w) (gB w))
  | 1 => if w.getLsbD 5 then chk w 0x0000001E [] (.shrImm (gD w) (gA w) (immShift w)) else chk w 0x0000001F [] (.shr (gD w) (gA w) (gB w))
  | 2 => if w.getLsbD 5 then chk w 0x0000001E [] (.sarImm (gD w) (gA w) (immShift w)) else chk w 0x0000001F [] (.sar (gD w) (gA w) (gB w))
  | 3 => if w.getLsbD 5 then chk w 0x0000001E [] (.rolImm (gD w) (gA w) (immShift w)) else chk w 0x0000001F [] (.rol (gD w) (gA w) (gB w))
  | 4 => chk w 0x0000F83F [] (.clz (gD w) (gA w))
  | 5 => chk w 0x0000F83F [] (.ctz (gD w) (gA w))
  | 6 => chk w 0x0000F83F [] (.popc (gD w) (gA w))
  | 7 => chk w 0x0000F83F [] (.brev (gD w) (gA w))
  | 8 => chk w 0x0000003F [] (.bext (gD w) (gA w) (gB w))
  | 9 => chk w 0x0000003F [] (.bins (gD w) (gA w) (gB w))
  | _ => .error (.illegal 6)

/-- ADDRESS group (R39, R313). -/
def decodeAddr (w : BitVec 32) : Except Reject Instr :=
  match selNat w with
  | 0 => chk w 0x00000038 [] (.lea (gD w) (gA w) (gB w) (f3 w 0))
  | 1 => chk w 0x00000038 [] (.idx2 (gD w) (gA w) (gB w) (f3 w 0))
  | 2 => chk w 0x0000003F [] (.pack (gD w) (gA w) (gB w))
  | _ => .error (.illegal 6)

/-- CTRL group (R39, R318). -/
def decodeCtrl (w : BitVec 32) : Except Reject Instr :=
  match selNat w with
  | 0 => chk w 0x0000F83F [] (.jr (gD w) (gA w))
  | 1 => chk w 0x03FFF83F [] (.yield)
  | _ => .error (.illegal 6)

/-- FE group (R31, R192). -/
def decodeFe (w : BitVec 32) : Except Reject Instr :=
  match selNat w with
  | 0 => chk w 0x0000F830 [] (.ldfe (gD w) (gA w) (f3 w 1) (w.getLsbD 0))
  | 1 => chk w 0x03E00031 [] (.stfe (gA w) (gB w) (f3 w 1))
  | 2 => chk w 0x0000F831 [] (.feq (gD w) (gA w) (f3 w 1))
  | 3 => chk w 0x03E0F830 [] (.feset (gA w) (f3 w 1) (w.getLsbD 0))
  | _ => .error (.illegal 6)

/-- AMO group (R31, R196). -/
def decodeAmo (w : BitVec 32) : Except Reject Instr :=
  match selNat w with
  | 0 => chk w 0x00000000 [] (.amadd (gD w) (gA w) (gB w) (f2 w 4) (w.getLsbD 3) (f3 w 0))
  | 1 => chk w 0x00000000 [] (.ammin (gD w) (gA w) (gB w) (f2 w 4) (w.getLsbD 3) (f3 w 0))
  | 2 => chk w 0x00000000 [] (.ammax (gD w) (gA w) (gB w) (f2 w 4) (w.getLsbD 3) (f3 w 0))
  | 3 => chk w 0x00000000 [] (.amminz (gD w) (gA w) (gB w) (f2 w 4) (w.getLsbD 3) (f3 w 0))
  | 4 => chk w 0x00000000 [] (.ammaxz (gD w) (gA w) (gB w) (f2 w 4) (w.getLsbD 3) (f3 w 0))
  | 5 => chk w 0x00000000 [] (.amand (gD w) (gA w) (gB w) (f2 w 4) (w.getLsbD 3) (f3 w 0))
  | 6 => chk w 0x00000000 [] (.amor (gD w) (gA w) (gB w) (f2 w 4) (w.getLsbD 3) (f3 w 0))
  | 7 => chk w 0x00000000 [] (.amxor (gD w) (gA w) (gB w) (f2 w 4) (w.getLsbD 3) (f3 w 0))
  | 8 => chk w 0x00000000 [] (.amswp (gD w) (gA w) (gB w) (f2 w 4) (w.getLsbD 3) (f3 w 0))
  | 9 => chk w 0x00000000 [] (.amcas (gD w) (gA w) (gB w) (f2 w 4) (w.getLsbD 3) (f3 w 0))
  | 10 => chk w 0x00000000 [] (.amfadd (gD w) (gA w) (gB w) (f2 w 4) (w.getLsbD 3) (f3 w 0))
  | 11 => chk w 0x00000000 [] (.aminc (gD w) (gA w) (gB w) (f2 w 4) (w.getLsbD 3) (f3 w 0))
  | _ => .error (.illegal 6)

/-- RED group (R31, R200). -/
def decodeRed (w : BitVec 32) : Except Reject Instr :=
  match selNat w with
  | 0 => chk w 0x03E00010 [] (.redadd (gA w) (gB w) (w.getLsbD 5) (w.getLsbD 3) (f3 w 0))
  | 1 => chk w 0x03E00010 [] (.redmin (gA w) (gB w) (w.getLsbD 5) (w.getLsbD 3) (f3 w 0))
  | 2 => chk w 0x03E00010 [] (.redmax (gA w) (gB w) (w.getLsbD 5) (w.getLsbD 3) (f3 w 0))
  | 3 => chk w 0x03E00010 [] (.redfadd (gA w) (gB w) (w.getLsbD 5) (w.getLsbD 3) (f3 w 0))
  | 4 => chk w 0x03E00010 [] (.redor (gA w) (gB w) (w.getLsbD 5) (w.getLsbD 3) (f3 w 0))
  | _ => .error (.illegal 6)

/-- ORDER group (R331, R333, R335). Of an ARC with the reserved kind 3, mod[2:0] is not looked at (log 113). -/
def decodeOrder (w : BitVec 32) : Except Reject Instr :=
  match selNat w with
  | 0 => chk w 0x0018F800 [(f2 w 4 == 0, 4), (11 ≤ (f4 w 0).toNat, fieldBit (f4 w 0).toNat 0), (fenceMask w == 0, 21)] (.fence (fenceMask w) (f2 w 4) (f4 w 0))
  | 1 => if f2 w 4 == 0 then chk w 0x0018000F [(arcId w == 0, 11)] (.arc (gD w) (arcId w) (f2 w 4) (f3 w 0)) else chk w 0x03F80008 [(arcId w == 0, 11), (f2 w 4 == 3, 4)] (.arc (gD w) (arcId w) (f2 w 4) (f3 w 0))
  | _ => .error (.illegal 6)

/-- SYNC group (R363). -/
def decodeSync (w : BitVec 32) : Except Reject Instr :=
  match selNat w with
  | 0 => chk w 0x03E00038 [] (.evsig (gA w) (guidonId w))
  | 1 => chk w 0x001F0038 [] (.evwait (gD w) (guidonId w))
  | 2 => chk w 0x001F0038 [] (.barrive (gD w) (guidonId w))
  | 3 => chk w 0x001F0038 [] (.bwait (gD w) (guidonId w))
  | 4 => chk w 0x03E00038 [] (.bskip (gA w) (guidonId w))
  | 5 => chk w 0x03FFF83C [] (.prio (f2 w 0))
  | 6 => chk w 0x0000003F [] (.trigbind (gD w) (gA w) (gB w))
  | 7 => chk w 0x0000F83F [] (.trigdrop (gD w) (gA w))
  | 8 => chk w 0x0000F83F [] (.freeze (gD w) (gA w))
  | 9 => chk w 0x0000F83F [] (.thaw (gD w) (gA w))
  | _ => .error (.illegal 6)

/-- PENNANT group (R165). -/
def decodePennant (w : BitVec 32) : Except Reject Instr :=
  match selNat w with
  | 0 => chk w 0x0000F83F [] (.pndef (gD w) (gA w))
  | 1 => chk w 0x0000F83E [] (.pnatt (gD w) (gA w) (w.getLsbD 0))
  | 2 => chk w 0x0000F83F [] (.pndet (gD w) (gA w))
  | 3 => chk w 0x0000F83F [] (.pndrop (gD w) (gA w))
  | 4 => chk w 0x0000F83F [] (.pnrel (gD w) (gA w))
  | 5 => chk w 0x0000F838 [(5 ≤ (f3 w 0).toNat, fieldBit (f3 w 0).toNat 0)] (.pnq (gD w) (gA w) (f3 w 0))
  | _ => .error (.illegal 6)

/-- STREAM group (R201, R245). -/
def decodeStream (w : BitVec 32) : Except Reject Instr :=
  match selNat w with
  | 0 => chk w 0x0300003C [] (.sqset (qD w) (gA w) (gB w) (f2 w 0))
  | 1 => chk w 0x0300F838 [] (.sqld (qD w) (gA w) (f3 w 0))
  | 2 => chk w 0x0018F83F [] (.sqiss (gD w) (qA w))
  | 3 => chk w 0x03E0F83F [] (.sqwait (gA w))
  | 4 => chk w 0x0000F83F [] (.config (gD w) (gA w))
  | 5 => chk w 0x0000F83F [] (.arm (gD w) (gA w))
  | 6 => chk w 0x0000F83F [] (.disarm (gD w) (gA w))
  | _ => .error (.illegal 6)

/-- VFP group (R288): the mode field holds 0 to 5 (R285). -/
def decodeVfp (w : BitVec 32) : Except Reject Instr :=
  match selNat w with
  | 0 => chk w 0x02108038 [badMode w] (.vadd (vD w) (vA w) (vB w) (f3 w 0))
  | 1 => chk w 0x02108038 [badMode w] (.vsub (vD w) (vA w) (vB w) (f3 w 0))
  | 2 => chk w 0x02108038 [badMode w] (.vmul (vD w) (vA w) (vB w) (f3 w 0))
  | 3 => chk w 0x02108038 [badMode w] (.vfma (vD w) (vA w) (vB w) (f3 w 0))
  | 4 => chk w 0x02108038 [badMode w] (.vfms (vD w) (vA w) (vB w) (f3 w 0))
  | 5 => chk w 0x02108038 [badMode w] (.vdiv (vD w) (vA w) (vB w) (f3 w 0))
  | 6 => chk w 0x0210F838 [badMode w] (.vsqrt (vD w) (vA w) (f3 w 0))
  | 7 => chk w 0x0210F838 [badMode w] (.vrsq (vD w) (vA w) (f3 w 0))
  | 8 => chk w 0x0210F838 [badMode w] (.vrcp (vD w) (vA w) (f3 w 0))
  | 9 => chk w 0x02108038 [badMode w] (.vmin (vD w) (vA w) (vB w) (f3 w 0))
  | 10 => chk w 0x02108038 [badMode w] (.vmax (vD w) (vA w) (vB w) (f3 w 0))
  | 11 => chk w 0x0210F838 [badMode w] (.vabs (vD w) (vA w) (f3 w 0))
  | 12 => chk w 0x0210F838 [badMode w] (.vneg (vD w) (vA w) (f3 w 0))
  | 13 => chk w 0x0210F838 [badMode w] (.vexp2 (vD w) (vA w) (f3 w 0))
  | 14 => chk w 0x0210F838 [badMode w] (.vlog2 (vD w) (vA w) (f3 w 0))
  | 15 => chk w 0x02100038 [badMode w] (.vscale (vD w) (vA w) (gB w) (f3 w 0))
  | _ => .error (.illegal 6)

/-- VINT group (R290). -/
def decodeVint (w : BitVec 32) : Except Reject Instr :=
  match selNat w with
  | 0 => chk w 0x0210803F [] (.viadd (vD w) (vA w) (vB w))
  | 1 => chk w 0x0210803F [] (.visub (vD w) (vA w) (vB w))
  | 2 => chk w 0x0210803F [] (.vimul (vD w) (vA w) (vB w))
  | 3 => chk w 0x0210803F [] (.vimin (vD w) (vA w) (vB w))
  | 4 => chk w 0x0210803F [] (.vimax (vD w) (vA w) (vB w))
  | 5 => chk w 0x0210803F [] (.vand (vD w) (vA w) (vB w))
  | 6 => chk w 0x0210803F [] (.vor (vD w) (vA w) (vB w))
  | 7 => chk w 0x0210803F [] (.vxor (vD w) (vA w) (vB w))
  | 8 => if w.getLsbD 5 then chk w 0x0210001E [] (.vshlImm (vD w) (vA w) (immShift w)) else chk w 0x0210801F [] (.vshl (vD w) (vA w) (vB w))
  | 9 => if w.getLsbD 5 then chk w 0x0210001E [] (.vshrImm (vD w) (vA w) (immShift w)) else chk w 0x0210801F [] (.vshr (vD w) (vA w) (vB w))
  | 10 => if w.getLsbD 5 then chk w 0x0210001E [] (.vsarImm (vD w) (vA w) (immShift w)) else chk w 0x0210801F [] (.vsar (vD w) (vA w) (vB w))
  | _ => .error (.illegal 6)

/-- VHOR group (R291). -/
def decodeVhor (w : BitVec 32) : Except Reject Instr :=
  match selNat w with
  | 0 => chk w 0x0210F838 [badMode w] (.vsum (vD w) (vA w) (f3 w 0))
  | 1 => chk w 0x0210F83F [] (.vhmax (vD w) (vA w))
  | 2 => chk w 0x0210F83F [] (.vhmin (vD w) (vA w))
  | 3 => chk w 0x02108038 [(f3 w 0 == 7, 0)] (.vcmp (vD w) (vA w) (vB w) (f3 w 0))
  | 4 => chk w 0x0210803F [] (.vsel (vD w) (vA w) (vB w))
  | 5 => if w.getLsbD 0 then chk w 0x0210803E [] (.vval (vD w) (vA w) (vB w) true) else chk w 0x0210F83E [] (.vval (vD w) (vA w) (vB w) false)
  | 6 => chk w 0x0210803F [] (.vperm (vD w) (vA w) (vB w))
  | 7 => chk w 0x0210003C [] (.vbcast (vD w) (vA w) (laneIdx w))
  | 8 => chk w 0x02108000 [] (.vslide (vD w) (vA w) (vB w) (w.extractLsb' 0 6))
  | _ => .error (.illegal 6)

/-- VCVT group (R297). -/
def decodeVcvt (w : BitVec 32) : Except Reject Instr :=
  match selNat w with
  | 0 => chk w 0x0210F800 [badMode w] (.vcvt (vD w) (vA w) (f3 w 3) (f3 w 0))
  | 1 => chk w 0x02100000 [badMode w] (.vqnt (vD w) (vA w) (gB w) (f3 w 3) (f3 w 0))
  | 2 => chk w 0x02100000 [badMode w] (.vdqnt (vD w) (vA w) (gB w) (f3 w 3) (f3 w 0))
  | 3 => chk w 0x0200F83F [] (.vtag (vD w) (gA w))
  | 4 => chk w 0x0010F83F [] (.vtagrd (gD w) (vA w))
  | 5 => chk w 0x0210803F [] (.vpack (vD w) (vA w) (vB w))
  | 6 => chk w 0x0210803F [] (.vunpk (vD w) (vA w) (vB w))
  | _ => .error (.illegal 6)

/-- VMOVE group (R302). -/
def decodeVmove (w : BitVec 32) : Except Reject Instr :=
  match selNat w with
  | 0 => chk w 0x0210F83F [] (.vmov (vD w) (vA w))
  | 1 => chk w 0x0010003C [] (.vext (gD w) (vA w) (laneIdx w))
  | 2 => chk w 0x0200003C [] (.vins (vD w) (gA w) (laneIdx w))
  | 3 => chk w 0x021FF830 [(13 ≤ (f4 w 0).toNat, fieldBit (f4 w 0).toNat 0)] (.vzero (vD w) (f4 w 0))
  | _ => .error (.illegal 6)

/-- SYSTEM group (R33, R398). -/
def decodeSystem (w : BitVec 32) : Except Reject Instr :=
  match selNat w with
  | 0 => chk w 0x03FFF83F [] (.nop)
  | 1 => chk w 0x03FF0000 [] (.trap (w.extractLsb' 11 5 ++ w.extractLsb' 0 6))
  | 2 => chk w 0x03FFF83F [] (.eret)
  | 3 => chk w 0x001E0000 [] (.sysrd (gD w) (sysNum w))
  | 4 => chk w 0x001E0000 [] (.syswr (gD w) (sysNum w))
  | 5 => chk w 0x03E0F83F [] (.savec (gA w))
  | 6 => chk w 0x03E0F83F [] (.restc (gA w))
  | 7 => if f2 w 0 == 1 then chk w 0x03E0F83C [] (.tcinv (gA w) 1) else chk w 0x03FFF83C [(f2 w 0 == 3, 0)] (.tcinv (gA w) (f2 w 0))
  | 8 => chk w 0x03FFF83F [] (.icinv)
  | 9 => chk w 0x03E0F83F [] (.idle (gA w))
  | 10 => chk w 0x03FF0000 [] (.brk (w.extractLsb' 11 5 ++ w.extractLsb' 0 6))
  | _ => .error (.illegal 6)

/-- M forms (R28, R30). -/
def decodeM (w : BitVec 32) : Except Reject Instr :=
  match (w.extractLsb' 26 6).toNat with
  | 0x10 => chk w 0 [(f3 w 9 == 7, 9)] (.ld (gD w) (gA w) (f3 w 13) (w.getLsbD 12) (f3 w 9) (w.extractLsb' 0 9))
  | 0x11 => chk w 0 [(4 ≤ (f3 w 9).toNat, fieldBit (f3 w 9).toNat 9)]
      (.st (gD w) (gA w) (f3 w 13) (w.getLsbD 12) (f3 w 9) (w.extractLsb' 0 9))
  | 0x12 => chk w 0x02000000 [(13 ≤ (f4 w 9).toNat, fieldBit (f4 w 9).toNat 9)]
      (.ldv (vD w) (gA w) (f3 w 13) (f4 w 9) (w.extractLsb' 0 9))
  | 0x13 => chk w 0x02000000 [(13 ≤ (f4 w 9).toNat, fieldBit (f4 w 9).toNat 9)]
      (.stv (vD w) (gA w) (f3 w 13) (f4 w 9) (w.extractLsb' 0 9))
  | _ => chk w 0x00001E00 [(3 ≤ (gD w).toNat, fieldBit (gD w).toNat 21)] (.prf (gD w) (gA w) (f3 w 13) (w.extractLsb' 0 9))

/-- B forms (R28): compare branches and validity branches. -/
def decodeB (w : BitVec 32) : Except Reject Instr :=
  match (w.extractLsb' 26 6).toNat with
  | 0x04 => .ok (.beq (gD w) (gA w) (w.extractLsb' 0 16))
  | 0x05 => .ok (.bne (gD w) (gA w) (w.extractLsb' 0 16))
  | 0x06 => .ok (.blt (gD w) (gA w) (w.extractLsb' 0 16))
  | 0x07 => .ok (.bge (gD w) (gA w) (w.extractLsb' 0 16))
  | 0x08 => .ok (.blo (gD w) (gA w) (w.extractLsb' 0 16))
  | 0x09 => .ok (.bhs (gD w) (gA w) (w.extractLsb' 0 16))
  | 0x0A => chk w 0x001F0000 [] (.bval (gD w) (w.extractLsb' 0 16))
  | _ => chk w 0x001F0000 [] (.binv (gD w) (w.extractLsb' 0 16))

/-- I forms (R28, R39). LOOP's body length is at least 1 (R320). -/
def decodeI (w : BitVec 32) : Except Reject Instr :=
  match (w.extractLsb' 26 6).toNat with
  | 0x0E => chk w 0x03E00000 [((w.extractLsb' 0 16).toInt ≤ 0, 15)] (.loop (gA w) (w.extractLsb' 0 16))
  | 0x20 => .ok (.addImm (gD w) (gA w) (w.extractLsb' 0 16))
  | 0x21 => .ok (.mulImm (gD w) (gA w) (w.extractLsb' 0 16))
  | 0x22 => .ok (.andImm (gD w) (gA w) (w.extractLsb' 0 16))
  | 0x23 => .ok (.orImm (gD w) (gA w) (w.extractLsb' 0 16))
  | 0x24 => .ok (.xorImm (gD w) (gA w) (w.extractLsb' 0 16))
  | 0x25 => .ok (.sltImm (gD w) (gA w) (w.extractLsb' 0 16))
  | 0x26 => .ok (.sltzImm (gD w) (gA w) (w.extractLsb' 0 16))
  | _ => chk w 0x001F0000 [] (.lih (gD w) (w.extractLsb' 0 16))

/-- Register fields of the L form (R35). -/
def lD (w : BitVec 32) : GReg := w.extractLsb' 15 5
/-- Field a of the L form. -/
def lA (w : BitVec 32) : GReg := w.extractLsb' 10 5

/-- L forms (R35, R36). -/
def decodeL (w i : BitVec 32) : Except Reject Instr :=
  match (w.extractLsb' 20 6).toNat with
  | 0x02 => chk w 0x000003FF [] (.leaLong (lD w) (lA w) i)
  | 0x0C => chk w 0x00007FFF [] (.jalLong (lD w) i)
  | 0x10 => chk w 0x00000007 [(f3 w 3 == 7, 3)] (.ldLong (lD w) (lA w) (f3 w 7) (w.getLsbD 6) (f3 w 3) i)
  | 0x11 => chk w 0x00000007 [(4 ≤ (f3 w 3).toNat, fieldBit (f3 w 3).toNat 3)]
      (.stLong (lD w) (lA w) (f3 w 7) (w.getLsbD 6) (f3 w 3) i)
  | 0x12 => chk w 0x00080007 [(13 ≤ (f4 w 3).toNat, fieldBit (f4 w 3).toNat 3)]
      (.ldvLong (w.extractLsb' 15 4) (lA w) (f3 w 7) (f4 w 3) i)
  | 0x13 => chk w 0x00080007 [(13 ≤ (f4 w 3).toNat, fieldBit (f4 w 3).toNat 3)]
      (.stvLong (w.extractLsb' 15 4) (lA w) (f3 w 7) (f4 w 3) i)
  | 0x15 => chk w 0x0000007F [(3 ≤ (lD w).toNat, fieldBit (lD w).toNat 15)] (.prfLong (lD w) (lA w) (f3 w 7) i)
  | 0x20 => chk w 0x000003FF [] (.addLong (lD w) (lA w) i)
  | 0x21 => chk w 0x000003FF [] (.mulLong (lD w) (lA w) i)
  | 0x22 => chk w 0x000003FF [] (.andLong (lD w) (lA w) i)
  | 0x23 => chk w 0x000003FF [] (.orLong (lD w) (lA w) i)
  | 0x24 => chk w 0x000003FF [] (.xorLong (lD w) (lA w) i)
  | 0x25 => chk w 0x000003FF [] (.sltLong (lD w) (lA w) i)
  | 0x26 => chk w 0x000003FF [] (.sltzLong (lD w) (lA w) i)
  | 0x27 => if w.getLsbD 0 then chk w 0x00007FFE [] (.liH (lD w) i) else chk w 0x00007FFE [] (.li (lD w) i)
  | _ => .error (.illegal 20)

/-- WAIT (R28). -/
def decodeWait (w : BitVec 32) : Except Reject Instr :=
  chk w 0x000003FF [] (.wait (f4 w 22) (f4 w 18) (f4 w 14) (f4 w 10))

/-- A word opens an L form (R35). -/
def isLong (w : BitVec 32) : Bool := w.extractLsb' 26 6 == 0x3F

/-- The instruction of one word, or of two for an L form (R39, R45). -/
def decodeWords (w : BitVec 32) (w1 : Option (BitVec 32)) : Except Reject Instr :=
  match (w.extractLsb' 26 6).toNat with
  | 0x00 => decodeInt w
  | 0x01 => decodeShift w
  | 0x02 => decodeAddr w
  | 0x04 | 0x05 | 0x06 | 0x07 | 0x08 | 0x09 | 0x0A | 0x0B => decodeB w
  | 0x0C => .ok (.jal (gD w) (w.extractLsb' 0 21))
  | 0x0D => decodeCtrl w
  | 0x0E => decodeI w
  | 0x10 | 0x11 | 0x12 | 0x13 | 0x15 => decodeM w
  | 0x14 => decodeFe w
  | 0x16 => decodeAmo w
  | 0x17 => decodeRed w
  | 0x18 => decodeOrder w
  | 0x19 => decodeSync w
  | 0x1A => decodePennant w
  | 0x1B => decodeStream w
  | 0x1C => decodeVfp w
  | 0x1D => decodeVint w
  | 0x1E => decodeVhor w
  | 0x1F => decodeVcvt w
  | 0x20 | 0x21 | 0x22 | 0x23 | 0x24 | 0x25 | 0x26 | 0x27 => decodeI w
  | 0x28 => decodeVmove w
  | 0x29 => decodeWait w
  | 0x30 => decodeSystem w
  | 0x3F => match w1 with
    | some i => decodeL w i
    | none => .error .short
  | _ => .error (.illegal 26)

/-- Four bytes, the lowest address first, as a word (R11). -/
def wordOf (b0 b1 b2 b3 : Byte) : BitVec 32 := b3 ++ b2 ++ b1 ++ b0

/-- The first instruction of a list of bytes and the bytes after it (R11, R12). -/
def decode : List Byte → Except Reject (Instr × List Byte)
  | b0 :: b1 :: b2 :: b3 :: rest =>
    if isLong (wordOf b0 b1 b2 b3) then
      match rest with
      | c0 :: c1 :: c2 :: c3 :: rest' => (decodeWords (wordOf b0 b1 b2 b3) (some (wordOf c0 c1 c2 c3))).map (·, rest')
      | _ => .error .short
    else (decodeWords (wordOf b0 b1 b2 b3) none).map (·, rest)
  | _ => .error .short

/-- Bytes that an instruction occupies (R12): 8 for an L form, 4 for every other. -/
def Instr.size : Instr → Nat
  | .li .. | .liH .. | .leaLong .. | .addLong .. | .mulLong .. | .andLong .. | .orLong .. | .xorLong .. | .sltLong ..
  | .sltzLong .. | .jalLong .. | .ldLong .. | .stLong .. | .ldvLong .. | .stvLong .. | .prfLong .. => 8
  | _ => 4

/-! Stream words (R40-R44). -/

/-- Field of `n` bits at bit `lo` of a stream word. -/
def fw (w : BitVec 128) (lo n : Nat) : BitVec n := w.extractLsb' lo n

/-- The header fields of a stream word (R40). -/
def swHdr (w : BitVec 128) : SwHdr :=
  ⟨fw w 112 8, fw w 109 3, w.getLsbD 107, w.getLsbD 106, fw w 96 8⟩

/-- The arc case of R40, which falls on the await bit when both bits are set (R204). -/
def swArcBad (w : BitVec 128) : Bool × Nat :=
  ((w.getLsbD 107 || w.getLsbD 106) && fw w 96 8 == 0, if w.getLsbD 107 then 107 else 106)

/-- A field of `n` bits at `lo` that must be a multiple of `2 ^ k`. -/
def swAlign (w : BitVec 128) (lo k : Nat) : Bool × Nat := (fw w lo k != 0, fieldBit (fw w lo k).toNat lo)

/-- A field of `n` bits at `lo` that must be zero when `c` holds. -/
def swZero (c : Bool) (w : BitVec 128) (lo n : Nat) : Bool × Nat := (c && fw w lo n != 0, fieldBit (fw w lo n).toNat lo)

/-- The word `i` when no bit of `zero` and no flagged rule offends (R43), else the lowest offending bit (R204). -/
def chkSw (w zero : BitVec 128) (bads : List (Bool × Nat)) (i : Instr) : Except Nat Instr :=
  match minBad (if w &&& zero == 0 then none else some (lowBit 128 (w &&& zero).toNat)) (swArcBad w :: bads) with
  | none => .ok i
  | some b => .error b

/-- A word that names no port has a zero port field (R209). -/
def swNoPort (w : BitVec 128) : Bool × Nat := swZero true w 112 8

/-- Block number + cnt of a name at `lo` exceeds 0xFFFF (R105). -/
def swBlk (w : BitVec 128) (lo : Nat) (cnt : BitVec 6) : Bool × Nat := (!okBlocks (fw w lo 44) cnt, lo)

/-- The stream word `w`, or the lowest-numbered offending bit (R43, R105, R173, R204, R209, R218, R256). In the masks,
bit 108, undefined wflags and the reserved payload bits of each word are set. -/
def decodeSw (w : BitVec 128) : Except Nat Instr :=
  let h := swHdr w
  match (fw w 120 8).toNat with
  | 0x01 => chkSw w 0x00001200FFFFFFFFFFFFFFFFFFFFE000 [(w.getLsbD 115, 115)] (.bindr h (fw w 0 13) (w.getLsbD 104))
  | 0x02 => chkSw w 0x00001300FFFFFFFFFFFFFFFFFFFFE000 [(!w.getLsbD 115, 115)] (.bindw h (fw w 0 13))
  | 0x03 => chkSw w 0x00001200FFFFFFFFFFFFFFFFFFFFFFFF [] (.unbind h (w.getLsbD 104))
  | 0x08 => chkSw w 0x00001200000000000000000000000000
      [swNoPort w, (fw w 75 21 == 0, 75), swAlign w 0 4, swAlign w 56 4] (.cpy h (fw w 0 56) (fw w 56 19) (fw w 75 21) (w.getLsbD 104))
  | 0x09 => chkSw w 0x00001300FFFFFFFFFFFFFFFFE000E000 [swNoPort w] (.cpyp h (fw w 0 13) (fw w 16 13))
  | 0x0A => chkSw w 0x00001300FFFFFFFFFFFFFFFFE000E000 [swNoPort w] (.gath h (fw w 0 13) (fw w 16 13))
  | 0x0B => chkSw w 0x00001300FFFFFFFFFFFFFFFFE000E000 [swNoPort w] (.scat h (fw w 0 13) (fw w 16 13))
  | 0x0C => chkSw w 0x00001000FFFFFFFFFFFFFFFFE000E000 [swZero (!w.getLsbD 105) w 16 13]
      (.mcst h (fw w 0 13) (fw w 16 13) (w.getLsbD 104) (w.getLsbD 105))
  | 0x10 => chkSw w 0x00001300FFFFFFFFFFFFFF80FE000000
      [swNoPort w, (128 < (fw w 4 7).toNat + (fw w 11 7).toNat + 1, 4), swZero (!w.getLsbD 38) w 32 6]
      (.wld h (w.getLsbD 0) (fw w 1 3) (fw w 4 7) (fw w 11 7) (fw w 18 7) (fw w 32 6) (w.getLsbD 38))
  | 0x11 => chkSw w 0x00001300FFFFFFFFFFFFFFFFFE000000 [swNoPort w, (128 < (fw w 4 7).toNat + (fw w 11 7).toNat + 1, 4)]
      (.wstr h (w.getLsbD 0) (fw w 1 3) (fw w 4 7) (fw w 11 7) (fw w 18 7))
  | 0x12 => chkSw w 0x000013000000FF80FFFC0000FE000000
      [swNoPort w, (w.getLsbD 106 && fw w 96 8 == 255, 106), (fw w 0 2 == 3, 0), (64 < (fw w 6 6).toNat + (fw w 12 6).toNat + 1, 6),
        (fw w 0 2 == 2 && fw w 18 2 != 3, 18), swZero (fw w 0 2 != 2) w 32 18, swZero (fw w 0 2 != 2) w 80 16]
      (.mtok h (fw w 0 2) (w.getLsbD 2) (fw w 3 3) (fw w 6 6) (fw w 12 6) (fw w 18 7) (fw w 32 18) (fw w 64 7) (fw w 80 16))
  | 0x13 => chkSw w 0x00001000FFF80000FFFF0000FFFFE000
      [swNoPort w, (64 < (fw w 1 6).toNat + (fw w 7 6).toNat + 1, 1), swAlign w 64 2]
      (.accz h (w.getLsbD 0) (fw w 1 6) (fw w 7 6) (fw w 32 16) (fw w 64 19) (w.getLsbD 104) (w.getLsbD 105))
  | 0x14 => chkSw w 0x00001000FFF80000FFFFFF80FF000000
      [swNoPort w, (64 < (fw w 1 6).toNat + (fw w 7 6).toNat + 1, 1), (6 ≤ (fw w 19 3).toNat, fieldBit (fw w 19 3).toNat 19), swAlign w 64 2]
      (.drn h (w.getLsbD 0) (fw w 1 6) (fw w 7 6) (fw w 13 5) (w.getLsbD 18) (fw w 19 3) (w.getLsbD 22) (w.getLsbD 23)
        (fw w 32 7) (fw w 64 19) (w.getLsbD 104) (w.getLsbD 105))
  | 0x15 => chkSw w 0x00001300FFFFFFFFFFFFFF00FFF80000 [swAlign w 0 2] (.steer h (fw w 0 19) (fw w 32 8))
  | 0x16 =>
    if w.getLsbD 104 then chkSw w 0x00001200FFFFFF00FE000000FFFFE000 [swNoPort w, (64 < (fw w 32 6).toNat + (fw w 38 6).toNat + 1, 32)]
      (.ringSource h (fw w 0 13) (fw w 32 6) (fw w 38 6) (fw w 44 6) (fw w 50 7) (fw w 64 8))
    else chkSw w 0x00001200FFFF00000000000000000000 [swNoPort w, (64 < (fw w 67 6).toNat + (fw w 73 6).toNat + 1, 67)]
      (.ringMember h (fw w 0 64) (fw w 64 3) (fw w 67 6) (fw w 73 6) (w.getLsbD 79))
  | 0x17 => chkSw w 0x00001200FFF80000F000000000000000
      [swNoPort w, swAlign w 0 2, swAlign w 32 3, swAlign w 64 2, ((fw w 51 6).toNat < (fw w 57 3).toNat, 57)]
      (.race h (fw w 0 19) (fw w 19 13) (fw w 32 19) (fw w 51 6) (fw w 57 3) (fw w 64 19) (w.getLsbD 104))
  | 0x20 => chkSw w 0x00001300FFFFFFFFFFFFFFFFFFFFE000 [] (.phase h (fw w 0 13))
  | 0x21 => chkSw w 0x00001300FFFFFFFFF0000000FFF0E000 [swNoPort w, (64 < (fw w 48 6).toNat + (fw w 54 6).toNat + 1, 48)]
      (.arrv h (fw w 0 13) (fw w 16 4) (fw w 32 16) (fw w 48 6) (fw w 54 6))
  | 0x22 => chkSw w 0x00001200FFF80000000000000000FC00
      [swNoPort w, swZero (w.getLsbD 104) w 32 32, swZero (!w.getLsbD 104) w 64 19, swAlign w 64 2]
      (.patch h (fw w 0 8) (fw w 8 2) (fw w 16 16) (fw w 32 32) (fw w 64 19) (w.getLsbD 104))
  | 0x23 => chkSw w 0x00001300FFFFFFFFFFFF0000FFFFFF00 [swNoPort w, (fw w 32 16 == 0, 32)] (.evt h (fw w 0 8) (fw w 32 16))
  | 0x28 => chkSw w 0x00001200FFF80000FFFC000000000000 [swNoPort w, swAlign w 64 2, swBlk w 0 (fw w 44 6)]
      (.bnalloc h (fw w 0 44) (fw w 44 6) (fw w 64 19) (w.getLsbD 104))
  | 0x29 => chkSw w 0x00001300FFFFFFFFFFFC000000000000 [swNoPort w, swBlk w 0 (fw w 44 6)] (.bnfree h (fw w 0 44) (fw w 44 6))
  | 0x2A => chkSw w 0x00001300C00000000000000000000000
      [swNoPort w, swBlk w 0 (fw w 88 6), swBlk w 44 (fw w 88 6), (!blocksDisjoint (fw w 0 44) (fw w 44 44) (fw w 88 6), 0)]
      (.bnshare h (fw w 0 44) (fw w 44 44) (fw w 88 6))
  | 0x2B => chkSw w 0x00001200FFF80000FFFC000000000000 [swNoPort w, swAlign w 64 2, swBlk w 0 (fw w 44 6)]
      (.bnxl h (fw w 0 44) (fw w 44 6) (fw w 64 19) (w.getLsbD 104))
  | 0x30 => chkSw w 0x0000120000001FFF0000000000000000 [swNoPort w, swAlign w 77 2] (.pnevict h (fw w 0 64) (fw w 77 19) (w.getLsbD 104))
  | 0x31 => chkSw w 0x00001200000000000000000000000000 [swNoPort w, swAlign w 77 2]
      (.pnfill h (fw w 0 64) (fw w 64 13) (fw w 77 19) (w.getLsbD 104))
  | op => .error ((minBad none [(true, fieldBit op 120), (w.getLsbD 108, 108), swArcBad w]).getD 120)

/-! Command entries (R372, R379, R414, R416). -/

/-- Field of `n` bits at `lo` of a quadword. -/
def qf (q : Word) (lo n : Nat) : BitVec n := q.extractLsb' lo n

/-- Quadword `k` of a list. -/
def qAt (l : List Word) (k : Nat) : Word := l.getD k 0

/-- The instruction when no reserved bit of the quadwords is set. -/
def chkCmd (bad : Bool) (i : Instr) : Option Instr := if bad then none else some i

/-- The body quadwords 0x18-0x38 of entry 0 have set bits only in the given masks (R416). -/
def bodyOnly (b : List Word) (masks : List Word) : Bool :=
  (List.range 5).all fun k => qAt b k &&& ~~~(masks.getD k 0) == 0

/-- The PARTITION_SET values (R80, R416), or none when a reserved bit is set. -/
def decodePartition (q : List Word) : Option PartitionVal :=
  if qAt q 0 &&& 0xFFFF0000001FFFFE != 0 || qAt q 1 &&& 0xFFFF0000001FFFFF != 0 || (q.drop 13).any (· != 0)
      || (List.range 10).any (fun k => qAt q (2 + k) &&& 0xFFFF00000000007F != 0) || qAt q 12 &&& 0xFFFFFFFFFF000000 != 0 then none
  else some ⟨(qAt q 0).getLsbD 0, qf (qAt q 0) 21 27, qf (qAt q 1) 21 27, (List.range 10).map (fun k => qf (qAt q (2 + k)) 0 48),
    (List.range 8).map (fun i => qf (qAt q 12) (3 * i) 3)⟩

/-- The command that entry 0 and its extension entries carry (R414, R416), or none when the opcode is unknown, ext does
not fit or a reserved bit is set (R373). `b` is the body, `exts` the extension entries of eight quadwords. -/
def decodeCommand (op : BitVec 8) (b : List Word) (exts : List (List Word)) : Option Instr :=
  let n := exts.length
  let e1 := exts.getD 0 []
  let e2 := exts.getD 1 []
  match op.toNat with
  | 0x01 => chkCmd (n != 0 || !bodyOnly b [0x0003FFFFFF001FFF, 0x0000FFFFFFFFFFFF])
      (.queueOpen (qf (qAt b 0) 0 8) (qf (qAt b 0) 8 5) (qf (qAt b 0) 24 24) (qf (qAt b 0) 48 2) (qf (qAt b 1) 0 48))
  | 0x02 => chkCmd (n != 0 || !bodyOnly b [0xFF]) (.queueClose (qf (qAt b 0) 0 8))
  | 0x03 => chkCmd (n != 0 || !bodyOnly b [0xFF]) (.queueReset (qf (qAt b 0) 0 8))
  | 0x04 => chkCmd (n != 0 || !bodyOnly b [0xFFFF03FF]) (.linkCreate (qf (qAt b 0) 0 10) (qf (qAt b 0) 16 8) (qf (qAt b 0) 24 8))
  | 0x05 => chkCmd (n != 0 || !bodyOnly b [0x3FF]) (.linkDestroy (qf (qAt b 0) 0 10))
  | 0x08 =>
    let gang := (qAt b 2).getLsbD 8
    let k := (qf (qAt b 2) 0 5).toNat
    let m1 := (qf (qAt b 2) 9 2).toNat
    let need := if gang then (if m1 == 0 then 0 else 1) else if k ≤ 1 then 0 else if k ≤ 9 then 1 else 2
    let extOk := if gang then (List.range 8).all fun i => qAt e1 i &&& (if i < 3 then 0xFFFF00000000003F else 0xFFFFFFFFFFFFFFFF) == 0
      else (e1 ++ e2).all fun q => q &&& 0xFFFFFFFFFF000000 == 0
    chkCmd (n != need || !bodyOnly b [0x0000FFFFFFFFFFC0, 0x0000FFFFFFFFF000, 0x71F, 0x00FFFFFF] || !extOk || (n == 2 && qAt e2 7 != 0))
      (.imageInstall (qf (qAt b 0) 0 48) (qf (qAt b 1) 0 48) (qf (qAt b 2) 0 5) gang (qf (qAt b 2) 9 2)
        (qf (qAt b 3) 0 24 :: (if gang then [] else (e1 ++ e2).map (fun q => qf q 0 24)))
        (if gang then (List.range m1).map (fun i => qf (qAt e1 i) 0 48) else []))
  | 0x09 => chkCmd (n != 0 || !bodyOnly b [0xFFFF]) (.imageRemove (qf (qAt b 0) 0 16))
  | 0x10 => chkCmd (n == 0 || !bodyOnly b [0xFFFFFFFFFFFFFFFF, 0xFF, 0xFFFFFFFFFFFFFFFF, 0xFFFFFFFFFFFFFFFF, 0]
        || exts.any (fun e => qAt e 7 &&& 0xFFFFFFFFFFFFFF00 != 0))
      (.bindStreams (qAt b 0) (qf (qAt b 1) 0 8) (qAt b 2) (qAt b 3) exts)
  | 0x18 => chkCmd (n != 0 || !bodyOnly b [0xFFFF]) (.preempt (qf (qAt b 0) 0 16))
  | 0x19 => chkCmd (n != 0 || !bodyOnly b [0xFFFF]) (.restore (qf (qAt b 0) 0 16))
  | 0x1A => chkCmd (n != 0 || !bodyOnly b [0x000000071FFFFFFF]) (.slotResume (qf (qAt b 0) 0 16) (qf (qAt b 0) 16 13) (qf (qAt b 0) 32 3))
  | 0x1B => chkCmd (n != 0 || !bodyOnly b [0x000000071FFFFFFF]) (.slotKill (qf (qAt b 0) 0 16) (qf (qAt b 0) 16 13) (qf (qAt b 0) 32 3))
  | 0x20 =>
    let bad := n != 0 || !bodyOnly b [0xFFFFFFFFFFFFFFFF, 0x1FFF0003, 0x0000FFFFFFFFFFFF, 0xFFFFFFFF]
    match (qf (qAt b 1) 0 2).toNat with
    | 0 => chkCmd bad (.pnAdminDrop (qAt b 0))
    | 1 => chkCmd bad (.pnAdminEvict (qAt b 0))
    | 2 => chkCmd bad (.pnAdminFill (qAt b 0) (qf (qAt b 1) 16 13))
    | _ => chkCmd (bad || qAt b 0 != 0 || qf (qAt b 2) 0 3 != 0) (.pnAdminList (qf (qAt b 2) 0 48) (qf (qAt b 3) 0 32))
  | 0x28 => chkCmd (n != 0 || !bodyOnly b [0x0000FFFFFFE00000, 0x1FFFF])
      (.regionDeclare (qf (qAt b 0) 0 48) (qf (qAt b 1) 0 16) ((qAt b 1).getLsbD 16))
  | 0x29 => chkCmd (n != 0 || !bodyOnly b [0x0000FFFFFFE00000]) (.regionUndeclare (qf (qAt b 0) 0 48))
  | 0x30 => chkCmd (n != 0 || !bodyOnly b [0xFFFFFFFF]) (.faultReplay (qf (qAt b 0) 0 32))
  | 0x31 => chkCmd (n != 0 || !bodyOnly b [0xFFFFFFFF]) (.faultDecline (qf (qAt b 0) 0 32))
  | 0x32 =>
    let bad := n != 0 || !bodyOnly b [0x3FFFF, 0xFFFFFFFFFFFFFFFF]
    match (qf (qAt b 0) 16 2).toNat with
    | 0 => chkCmd bad (.shootdownAsid (qf (qAt b 0) 0 16))
    | 1 => chkCmd bad (.shootdownPage (qf (qAt b 0) 0 16) (qAt b 1))
    | 2 => chkCmd bad (.shootdownAll (qf (qAt b 0) 0 16))
    | _ => none
  | 0x38 => chkCmd (n != 0 || !bodyOnly b [7]) (.dieFence (qf (qAt b 0) 0 3))
  | 0x39 => match decodePartition (e1 ++ e2) with
    | some v => chkCmd (n != 2 || !bodyOnly b [7]) (.partitionSet (qf (qAt b 0) 0 3) v)
    | none => none
  | 0x40 => chkCmd (n != 0 || !bodyOnly b [0x0000FFFFFFFFFFFF, 0xFFFFFFFFFFFFFFFF, 0xFFFFFFFFFF, 0xFFFF0003])
      (.hostCopy (qf (qAt b 0) 0 48) (qAt b 1) (qf (qAt b 2) 0 40) ((qAt b 3).getLsbD 0) ((qAt b 3).getLsbD 1) (qf (qAt b 3) 16 16))
  | 0x50 => chkCmd (n != 0 || !bodyOnly b [0x0000FFFFFFFFFFFF, 0xFFFFFFFF] || qf (qAt b 0) 0 5 != 0) (.logRead (qf (qAt b 0) 0 48) (qf (qAt b 1) 0 32))
  | _ => none

/-! Encoding (R28-R36, R40, R104, R173, R217, R254): the words of a well-formed instruction. -/

/-- R and V forms (R28). -/
def encR (maj : BitVec 6) (d a b sel : BitVec 5) (mod : BitVec 6) : BitVec 32 := maj ++ d ++ a ++ b ++ sel ++ mod
/-- I and B forms (R28). -/
def encI (maj : BitVec 6) (d a : BitVec 5) (imm : BitVec 16) : BitVec 32 := maj ++ d ++ a ++ imm
/-- M forms (R28). -/
def encM (maj : BitVec 6) (d a : BitVec 5) (oc : BitVec 3) (t : BitVec 4) (imm : BitVec 9) : BitVec 32 := maj ++ d ++ a ++ oc ++ t ++ imm
/-- Word 0 of an L form (R35). -/
def encL (inner : BitVec 6) (d a : BitVec 5) (mod : BitVec 10) : BitVec 32 := 0x3F#6 ++ inner ++ d ++ a ++ mod
/-- A stream word from its header and payload (R40). -/
def encSw (sop : BitVec 8) (h : SwHdr) (wf : BitVec 2) (payload : BitVec 96) : BitVec 128 :=
  sop ++ h.port ++ h.oc ++ 0#1 ++ BitVec.ofBool h.await ++ BitVec.ofBool h.post ++ wf ++ h.arc ++ payload

/-- The 128 bits of a stream word; none for any other instruction. -/
def encodeSw : Instr → Option (BitVec 128)
  | .bindr h r o => some (encSw 0x01 h (0#1 ++ BitVec.ofBool o) (0#83 ++ r))
  | .bindw h r => some (encSw 0x02 h 0 (0#83 ++ r))
  | .unbind h a => some (encSw 0x03 h (0#1 ++ BitVec.ofBool a) (0#96))
  | .cpy h va off l o => some (encSw 0x08 h (0#1 ++ BitVec.ofBool o) (l ++ off ++ va))
  | .cpyp h x y => some (encSw 0x09 h 0 (0#67 ++ y ++ 0#3 ++ x))
  | .gath h x y => some (encSw 0x0A h 0 (0#67 ++ y ++ 0#3 ++ x))
  | .scat h x y => some (encSw 0x0B h 0 (0#67 ++ y ++ 0#3 ++ x))
  | .mcst h x y e t => some (encSw 0x0C h (BitVec.ofBool t ++ BitVec.ofBool e) (0#67 ++ y ++ 0#3 ++ x))
  | .phase h r => some (encSw 0x20 h 0 (0#83 ++ r))
  | .arrv h p c b r n => some (encSw 0x21 h 0 (0#32 ++ (0#4 ++ n ++ r ++ b) ++ (0#12 ++ c ++ 0#3 ++ p)))
  | .patch h q sl t v vo i => some (encSw 0x22 h (0#1 ++ BitVec.ofBool i) (0#13 ++ vo ++ v ++ (t ++ 0#6 ++ sl ++ q)))
  | .evt h e a => some (encSw 0x23 h 0 (0#48 ++ a ++ 0#24 ++ e))
  | .wld h r w f n l x xv => some (encSw 0x10 h 0 (0#32 ++ (0#25 ++ BitVec.ofBool xv ++ x) ++ (0#7 ++ l ++ n ++ f ++ w ++ BitVec.ofBool r)))
  | .wstr h r w f n l => some (encSw 0x11 h 0 (0#64 ++ (0#7 ++ l ++ n ++ f ++ w ++ BitVec.ofBool r)))
  | .mtok h m c w e m1 k wo nl g => some (encSw 0x12 h 0 ((g ++ 0#9 ++ nl) ++ (0#14 ++ wo) ++ (0#7 ++ k ++ m1 ++ e ++ w ++ BitVec.ofBool c ++ m)))
  | .accz h sd e n t r cs rs => some (encSw 0x13 h (BitVec.ofBool rs ++ BitVec.ofBool cs) ((0#13 ++ r) ++ (0#16 ++ t) ++ (0#19 ++ n ++ e ++ BitVec.ofBool sd)))
  | .drn h sd e n sh rl rm te cl l g ga ro => some (encSw 0x14 h (BitVec.ofBool ro ++ BitVec.ofBool ga) ((0#13 ++ g) ++ (0#25 ++ l) ++ (0#8 ++ BitVec.ofBool cl ++ BitVec.ofBool te ++ rm ++ BitVec.ofBool rl ++ sh ++ n ++ e ++ BitVec.ofBool sd)))
  | .steer h i n => some (encSw 0x15 h 0 (0#32 ++ (0#24 ++ n) ++ (0#13 ++ i)))
  | .ringMember h k w e m c => some (encSw 0x16 h 0 ((0#16 ++ BitVec.ofBool c ++ m ++ e ++ w) ++ k))
  | .ringSource h r x n m l p => some (encSw 0x16 h 1 ((0#24 ++ p) ++ (0#7 ++ l ++ m ++ n ++ x) ++ (0#19 ++ r)))
  | .race h so t oo e k co wc => some (encSw 0x17 h (0#1 ++ BitVec.ofBool wc) ((0#13 ++ co) ++ (0#4 ++ k ++ e ++ oo) ++ (t ++ so)))
  | .bnalloc h nm c r wr => some (encSw 0x28 h (0#1 ++ BitVec.ofBool wr) ((0#13 ++ r) ++ (0#14 ++ c ++ nm)))
  | .bnfree h nm c => some (encSw 0x29 h 0 (0#46 ++ c ++ nm))
  | .bnshare h sr ds c => some (encSw 0x2A h 0 (0#2 ++ c ++ ds ++ sr))
  | .bnxl h nm c r wi => some (encSw 0x2B h (0#1 ++ BitVec.ofBool wi) ((0#13 ++ r) ++ (0#14 ++ c ++ nm)))
  | .pnevict h nm r wr => some (encSw 0x30 h (0#1 ++ BitVec.ofBool wr) (r ++ 0#13 ++ nm))
  | .pnfill h nm o r wr => some (encSw 0x31 h (0#1 ++ BitVec.ofBool wr) (r ++ o ++ nm))
  | _ => none

/-- The words of a scalar instruction, the lowest address first; the four words of a stream word; none for a step that
has no words of its own (a command's words are its queue entry's, R372). -/
def encode : Instr → List (BitVec 32)
  | .add d a b => [encR 0x00 d a b 0 0]
  | .sub d a b => [encR 0x00 d a b 1 0]
  | .mul d a b => [encR 0x00 d a b 2 0]
  | .mulh d a b => [encR 0x00 d a b 3 0]
  | .mulhz d a b => [encR 0x00 d a b 4 0]
  | .div d a b => [encR 0x00 d a b 5 0]
  | .divz d a b => [encR 0x00 d a b 6 0]
  | .rem d a b => [encR 0x00 d a b 7 0]
  | .remz d a b => [encR 0x00 d a b 8 0]
  | .and d a b => [encR 0x00 d a b 9 0]
  | .or d a b => [encR 0x00 d a b 10 0]
  | .xor d a b => [encR 0x00 d a b 11 0]
  | .andn d a b => [encR 0x00 d a b 12 0]
  | .slt d a b => [encR 0x00 d a b 13 0]
  | .sltz d a b => [encR 0x00 d a b 14 0]
  | .min d a b => [encR 0x00 d a b 15 0]
  | .max d a b => [encR 0x00 d a b 16 0]
  | .minz d a b => [encR 0x00 d a b 17 0]
  | .maxz d a b => [encR 0x00 d a b 18 0]
  | .sel d a b => [encR 0x00 d a b 19 0]
  | .addImm d a i => [encI 0x20 d a i]
  | .mulImm d a i => [encI 0x21 d a i]
  | .andImm d a i => [encI 0x22 d a i]
  | .orImm d a i => [encI 0x23 d a i]
  | .xorImm d a i => [encI 0x24 d a i]
  | .sltImm d a i => [encI 0x25 d a i]
  | .sltzImm d a i => [encI 0x26 d a i]
  | .lih d i => [encI 0x27 d 0 i]
  | .li d i => [encL 0x27 d 0 0, i]
  | .liH d i => [encL 0x27 d 0 1, i]
  | .leaLong d a i => [encL 0x02 d a 0, i]
  | .addLong d a i => [encL 0x20 d a 0, i]
  | .mulLong d a i => [encL 0x21 d a 0, i]
  | .andLong d a i => [encL 0x22 d a 0, i]
  | .orLong d a i => [encL 0x23 d a 0, i]
  | .xorLong d a i => [encL 0x24 d a 0, i]
  | .sltLong d a i => [encL 0x25 d a 0, i]
  | .sltzLong d a i => [encL 0x26 d a 0, i]
  | .shl d a b => [encR 0x01 d a b 0 0]
  | .shlImm d a n => [encR 0x01 d a (n.extractLsb' 0 5) 0 (1#1 ++ 0#4 ++ n.extractLsb' 5 1)]
  | .shr d a b => [encR 0x01 d a b 1 0]
  | .shrImm d a n => [encR 0x01 d a (n.extractLsb' 0 5) 1 (1#1 ++ 0#4 ++ n.extractLsb' 5 1)]
  | .sar d a b => [encR 0x01 d a b 2 0]
  | .sarImm d a n => [encR 0x01 d a (n.extractLsb' 0 5) 2 (1#1 ++ 0#4 ++ n.extractLsb' 5 1)]
  | .rol d a b => [encR 0x01 d a b 3 0]
  | .rolImm d a n => [encR 0x01 d a (n.extractLsb' 0 5) 3 (1#1 ++ 0#4 ++ n.extractLsb' 5 1)]
  | .clz d a => [encR 0x01 d a 0 4 0]
  | .ctz d a => [encR 0x01 d a 0 5 0]
  | .popc d a => [encR 0x01 d a 0 6 0]
  | .brev d a => [encR 0x01 d a 0 7 0]
  | .bext d a b => [encR 0x01 d a b 8 0]
  | .bins d a b => [encR 0x01 d a b 9 0]
  | .lea d a b s => [encR 0x02 d a b 0 (0#3 ++ s)]
  | .idx2 d a b s => [encR 0x02 d a b 1 (0#3 ++ s)]
  | .pack d a b => [encR 0x02 d a b 2 0]
  | .beq a b i => [encI 0x04 a b i]
  | .bne a b i => [encI 0x05 a b i]
  | .blt a b i => [encI 0x06 a b i]
  | .bge a b i => [encI 0x07 a b i]
  | .blo a b i => [encI 0x08 a b i]
  | .bhs a b i => [encI 0x09 a b i]
  | .bval a i => [encI 0x0A a 0 i]
  | .binv a i => [encI 0x0B a 0 i]
  | .jal d i => [0x0C#6 ++ d ++ i]
  | .jalLong d i => [encL 0x0C d 0 0, i]
  | .jr d a => [encR 0x0D d a 0 0 0]
  | .yield => [encR 0x0D 0 0 0 1 0]
  | .loop a n => [encI 0x0E 0 a n]
  | .ld d a oc q t i => [encM 0x10 d a oc (BitVec.ofBool q ++ t) i]
  | .ldLong d a oc q t i => [encL 0x10 d a (oc ++ (BitVec.ofBool q ++ t) ++ 0#3), i]
  | .st d a oc q t i => [encM 0x11 d a oc (BitVec.ofBool q ++ t) i]
  | .stLong d a oc q t i => [encL 0x11 d a (oc ++ (BitVec.ofBool q ++ t) ++ 0#3), i]
  | .ldv d a oc f i => [encM 0x12 (0#1 ++ d) a oc f i]
  | .ldvLong d a oc f i => [encL 0x12 (0#1 ++ d) a (oc ++ f ++ 0#3), i]
  | .stv d a oc f i => [encM 0x13 (0#1 ++ d) a oc f i]
  | .stvLong d a oc f i => [encL 0x13 (0#1 ++ d) a (oc ++ f ++ 0#3), i]
  | .prf t a oc i => [encM 0x15 t a oc 0 i]
  | .prfLong t a oc i => [encL 0x15 t a (oc ++ 0#7), i]
  | .ldfe d a oc c => [encR 0x14 d a 0 0 (0#2 ++ oc ++ BitVec.ofBool c)]
  | .stfe a b oc => [encR 0x14 0 a b 1 (0#2 ++ oc ++ 0#1)]
  | .feq d a oc => [encR 0x14 d a 0 2 (0#2 ++ oc ++ 0#1)]
  | .feset a oc f => [encR 0x14 0 a 0 3 (0#2 ++ oc ++ BitVec.ofBool f)]
  | .amadd d a b k w oc => [encR 0x16 d a b 0 (k ++ BitVec.ofBool w ++ oc)]
  | .ammin d a b k w oc => [encR 0x16 d a b 1 (k ++ BitVec.ofBool w ++ oc)]
  | .ammax d a b k w oc => [encR 0x16 d a b 2 (k ++ BitVec.ofBool w ++ oc)]
  | .amminz d a b k w oc => [encR 0x16 d a b 3 (k ++ BitVec.ofBool w ++ oc)]
  | .ammaxz d a b k w oc => [encR 0x16 d a b 4 (k ++ BitVec.ofBool w ++ oc)]
  | .amand d a b k w oc => [encR 0x16 d a b 5 (k ++ BitVec.ofBool w ++ oc)]
  | .amor d a b k w oc => [encR 0x16 d a b 6 (k ++ BitVec.ofBool w ++ oc)]
  | .amxor d a b k w oc => [encR 0x16 d a b 7 (k ++ BitVec.ofBool w ++ oc)]
  | .amswp d a b k w oc => [encR 0x16 d a b 8 (k ++ BitVec.ofBool w ++ oc)]
  | .amcas d a b k w oc => [encR 0x16 d a b 9 (k ++ BitVec.ofBool w ++ oc)]
  | .amfadd d a b k w oc => [encR 0x16 d a b 10 (k ++ BitVec.ofBool w ++ oc)]
  | .aminc d a b k w oc => [encR 0x16 d a b 11 (k ++ BitVec.ofBool w ++ oc)]
  | .redadd a b r w oc => [encR 0x17 0 a b 0 (BitVec.ofBool r ++ 0#1 ++ BitVec.ofBool w ++ oc)]
  | .redmin a b r w oc => [encR 0x17 0 a b 1 (BitVec.ofBool r ++ 0#1 ++ BitVec.ofBool w ++ oc)]
  | .redmax a b r w oc => [encR 0x17 0 a b 2 (BitVec.ofBool r ++ 0#1 ++ BitVec.ofBool w ++ oc)]
  | .redfadd a b r w oc => [encR 0x17 0 a b 3 (BitVec.ofBool r ++ 0#1 ++ BitVec.ofBool w ++ oc)]
  | .redor a b r w oc => [encR 0x17 0 a b 4 (BitVec.ofBool r ++ 0#1 ++ BitVec.ofBool w ++ oc)]
  | .fence m k s => [encR 0x18 (m.extractLsb' 0 5) (0#2 ++ m.extractLsb' 5 3) 0 0 (k ++ s)]
  | .arc d id k oc => [encR 0x18 d (0#2 ++ id.extractLsb' 5 3) (id.extractLsb' 0 5) 1 (k ++ 0#1 ++ oc)]
  | .evsig a e => [encR 0x19 0 a (e.extractLsb' 3 5) 0 (0#3 ++ e.extractLsb' 0 3)]
  | .evwait d e => [encR 0x19 d 0 (e.extractLsb' 3 5) 1 (0#3 ++ e.extractLsb' 0 3)]
  | .barrive d e => [encR 0x19 d 0 (e.extractLsb' 3 5) 2 (0#3 ++ e.extractLsb' 0 3)]
  | .bwait d e => [encR 0x19 d 0 (e.extractLsb' 3 5) 3 (0#3 ++ e.extractLsb' 0 3)]
  | .bskip a e => [encR 0x19 0 a (e.extractLsb' 3 5) 4 (0#3 ++ e.extractLsb' 0 3)]
  | .prio c => [encR 0x19 0 0 0 5 (0#4 ++ c)]
  | .trigbind d a b => [encR 0x19 d a b 6 0]
  | .trigdrop d a => [encR 0x19 d a 0 7 0]
  | .freeze d a => [encR 0x19 d a 0 8 0]
  | .thaw d a => [encR 0x19 d a 0 9 0]
  | .pndef d a => [encR 0x1A d a 0 0 0]
  | .pnatt d a f => [encR 0x1A d a 0 1 (0#5 ++ BitVec.ofBool f)]
  | .pndet d a => [encR 0x1A d a 0 2 0]
  | .pndrop d a => [encR 0x1A d a 0 3 0]
  | .pnrel d a => [encR 0x1A d a 0 4 0]
  | .pnq d a n => [encR 0x1A d a 0 5 (0#3 ++ n)]
  | .sqset q a b k => [encR 0x1B (0#2 ++ q) a b 0 (0#4 ++ k)]
  | .sqld q a oc => [encR 0x1B (0#2 ++ q) a 0 1 (0#3 ++ oc)]
  | .sqiss d q => [encR 0x1B d (0#2 ++ q) 0 2 0]
  | .sqwait a => [encR 0x1B 0 a 0 3 0]
  | .config d a => [encR 0x1B d a 0 4 0]
  | .arm d a => [encR 0x1B d a 0 5 0]
  | .disarm d a => [encR 0x1B d a 0 6 0]
  | .vadd d a b m => [encR 0x1C (0#1 ++ d) (0#1 ++ a) (0#1 ++ b) 0 (0#3 ++ m)]
  | .vsub d a b m => [encR 0x1C (0#1 ++ d) (0#1 ++ a) (0#1 ++ b) 1 (0#3 ++ m)]
  | .vmul d a b m => [encR 0x1C (0#1 ++ d) (0#1 ++ a) (0#1 ++ b) 2 (0#3 ++ m)]
  | .vfma d a b m => [encR 0x1C (0#1 ++ d) (0#1 ++ a) (0#1 ++ b) 3 (0#3 ++ m)]
  | .vfms d a b m => [encR 0x1C (0#1 ++ d) (0#1 ++ a) (0#1 ++ b) 4 (0#3 ++ m)]
  | .vdiv d a b m => [encR 0x1C (0#1 ++ d) (0#1 ++ a) (0#1 ++ b) 5 (0#3 ++ m)]
  | .vsqrt d a m => [encR 0x1C (0#1 ++ d) (0#1 ++ a) 0 6 (0#3 ++ m)]
  | .vrsq d a m => [encR 0x1C (0#1 ++ d) (0#1 ++ a) 0 7 (0#3 ++ m)]
  | .vrcp d a m => [encR 0x1C (0#1 ++ d) (0#1 ++ a) 0 8 (0#3 ++ m)]
  | .vmin d a b m => [encR 0x1C (0#1 ++ d) (0#1 ++ a) (0#1 ++ b) 9 (0#3 ++ m)]
  | .vmax d a b m => [encR 0x1C (0#1 ++ d) (0#1 ++ a) (0#1 ++ b) 10 (0#3 ++ m)]
  | .vabs d a m => [encR 0x1C (0#1 ++ d) (0#1 ++ a) 0 11 (0#3 ++ m)]
  | .vneg d a m => [encR 0x1C (0#1 ++ d) (0#1 ++ a) 0 12 (0#3 ++ m)]
  | .vexp2 d a m => [encR 0x1C (0#1 ++ d) (0#1 ++ a) 0 13 (0#3 ++ m)]
  | .vlog2 d a m => [encR 0x1C (0#1 ++ d) (0#1 ++ a) 0 14 (0#3 ++ m)]
  | .vscale d a b m => [encR 0x1C (0#1 ++ d) (0#1 ++ a) b 15 (0#3 ++ m)]
  | .viadd d a b => [encR 0x1D (0#1 ++ d) (0#1 ++ a) (0#1 ++ b) 0 0]
  | .visub d a b => [encR 0x1D (0#1 ++ d) (0#1 ++ a) (0#1 ++ b) 1 0]
  | .vimul d a b => [encR 0x1D (0#1 ++ d) (0#1 ++ a) (0#1 ++ b) 2 0]
  | .vimin d a b => [encR 0x1D (0#1 ++ d) (0#1 ++ a) (0#1 ++ b) 3 0]
  | .vimax d a b => [encR 0x1D (0#1 ++ d) (0#1 ++ a) (0#1 ++ b) 4 0]
  | .vand d a b => [encR 0x1D (0#1 ++ d) (0#1 ++ a) (0#1 ++ b) 5 0]
  | .vor d a b => [encR 0x1D (0#1 ++ d) (0#1 ++ a) (0#1 ++ b) 6 0]
  | .vxor d a b => [encR 0x1D (0#1 ++ d) (0#1 ++ a) (0#1 ++ b) 7 0]
  | .vshl d a b => [encR 0x1D (0#1 ++ d) (0#1 ++ a) (0#1 ++ b) 8 0]
  | .vshlImm d a n => [encR 0x1D (0#1 ++ d) (0#1 ++ a) (n.extractLsb' 0 5) 8 (1#1 ++ 0#4 ++ n.extractLsb' 5 1)]
  | .vshr d a b => [encR 0x1D (0#1 ++ d) (0#1 ++ a) (0#1 ++ b) 9 0]
  | .vshrImm d a n => [encR 0x1D (0#1 ++ d) (0#1 ++ a) (n.extractLsb' 0 5) 9 (1#1 ++ 0#4 ++ n.extractLsb' 5 1)]
  | .vsar d a b => [encR 0x1D (0#1 ++ d) (0#1 ++ a) (0#1 ++ b) 10 0]
  | .vsarImm d a n => [encR 0x1D (0#1 ++ d) (0#1 ++ a) (n.extractLsb' 0 5) 10 (1#1 ++ 0#4 ++ n.extractLsb' 5 1)]
  | .vsum d a m => [encR 0x1E (0#1 ++ d) (0#1 ++ a) 0 0 (0#3 ++ m)]
  | .vhmax d a => [encR 0x1E (0#1 ++ d) (0#1 ++ a) 0 1 0]
  | .vhmin d a => [encR 0x1E (0#1 ++ d) (0#1 ++ a) 0 2 0]
  | .vcmp d a b c => [encR 0x1E (0#1 ++ d) (0#1 ++ a) (0#1 ++ b) 3 (0#3 ++ c)]
  | .vsel d a b => [encR 0x1E (0#1 ++ d) (0#1 ++ a) (0#1 ++ b) 4 0]
  | .vval d a b p => [encR 0x1E (0#1 ++ d) (0#1 ++ a) (0#1 ++ b) 5 (0#5 ++ BitVec.ofBool p)]
  | .vperm d a b => [encR 0x1E (0#1 ++ d) (0#1 ++ a) (0#1 ++ b) 6 0]
  | .vbcast d a i => [encR 0x1E (0#1 ++ d) (0#1 ++ a) (i.extractLsb' 0 5) 7 (0#4 ++ i.extractLsb' 5 2)]
  | .vslide d a b n => [encR 0x1E (0#1 ++ d) (0#1 ++ a) (0#1 ++ b) 8 n]
  | .vcvt d a p m => [encR 0x1F (0#1 ++ d) (0#1 ++ a) 0 0 (p ++ m)]
  | .vqnt d a b p m => [encR 0x1F (0#1 ++ d) (0#1 ++ a) b 1 (p ++ m)]
  | .vdqnt d a b p m => [encR 0x1F (0#1 ++ d) (0#1 ++ a) b 2 (p ++ m)]
  | .vtag d a => [encR 0x1F (0#1 ++ d) a 0 3 0]
  | .vtagrd d a => [encR 0x1F d (0#1 ++ a) 0 4 0]
  | .vpack d a b => [encR 0x1F (0#1 ++ d) (0#1 ++ a) (0#1 ++ b) 5 0]
  | .vunpk d a b => [encR 0x1F (0#1 ++ d) (0#1 ++ a) (0#1 ++ b) 6 0]
  | .vmov d a => [encR 0x28 (0#1 ++ d) (0#1 ++ a) 0 0 0]
  | .vext d a i => [encR 0x28 d (0#1 ++ a) (i.extractLsb' 0 5) 1 (0#4 ++ i.extractLsb' 5 2)]
  | .vins d a i => [encR 0x28 (0#1 ++ d) a (i.extractLsb' 0 5) 2 (0#4 ++ i.extractLsb' 5 2)]
  | .vzero d f => [encR 0x28 (0#1 ++ d) 0 0 3 (0#2 ++ f)]
  | .wait l s c t => [0x29#6 ++ l ++ s ++ c ++ t ++ 0#10]
  | .nop => [encR 0x30 0 0 0 0 0]
  | .trap c => [encR 0x30 0 0 (c.extractLsb' 6 5) 1 (c.extractLsb' 0 6)]
  | .eret => [encR 0x30 0 0 0 2 0]
  | .sysrd d n => [encR 0x30 d (0#4 ++ n.extractLsb' 11 1) (n.extractLsb' 6 5) 3 (n.extractLsb' 0 6)]
  | .syswr d n => [encR 0x30 d (0#4 ++ n.extractLsb' 11 1) (n.extractLsb' 6 5) 4 (n.extractLsb' 0 6)]
  | .savec a => [encR 0x30 0 a 0 5 0]
  | .restc a => [encR 0x30 0 a 0 6 0]
  | .tcinv a k => [encR 0x30 0 a 0 7 (0#4 ++ k)]
  | .icinv => [encR 0x30 0 0 0 8 0]
  | .idle a => [encR 0x30 0 a 0 9 0]
  | .brk c => [encR 0x30 0 0 (c.extractLsb' 6 5) 10 (c.extractLsb' 0 6)]
  | i => match encodeSw i with
    | some w => [w.extractLsb' 0 32, w.extractLsb' 32 32, w.extractLsb' 64 32, w.extractLsb' 96 32]
    | none => []

/-- A scalar instruction's bytes as memory holds them (R11). -/
def wordBytes (w : BitVec 32) : List Byte := [w.extractLsb' 0 8, w.extractLsb' 8 8, w.extractLsb' 16 8, w.extractLsb' 24 8]

/-- The bytes of the words of an instruction (R11). -/
def encodeBytes (i : Instr) : List Byte := (encode i).flatMap wordBytes

/-- The decoder on a word of the opcode table: `w` holds the first word in bits 31:0 and the second above it, zero above
`nbits`; 128-bit words are stream words. -/
def decodeTableWord (nbits w : Nat) : Option Instr :=
  if nbits == 128 then (decodeSw (BitVec.ofNat 128 w)).toOption
  else ((decode (wordBytes (BitVec.ofNat 32 w) ++ wordBytes (BitVec.ofNat 32 (w / 4294967296)))).toOption).map (·.1)

end Sys2Proof
end

