-- ==== Sys2Proof/Machine/Tab.lean ====
section
/-! DEFINITION. Tables by number and sets of numbers, kept in ascending order: how the state holds registers, plots,
requests and memory as plain data. -/

namespace Sys2Proof.Machine

/-- A table: number and entry, ascending. -/
abbrev Tab (α : Type) := List (Nat × α)

/-- Entry `k`, or `d` when the table lists none. -/
def tget {α : Type} (d : α) : Tab α → Nat → α
  | [], _ => d
  | (j, x) :: t, k => if j = k then x else tget d t k

/-- Entry `k` if the table lists it. -/
def tfind {α : Type} : Tab α → Nat → Option α
  | [], _ => none
  | (j, x) :: t, k => if j = k then some x else tfind t k

/-- The table with entry `k` set. -/
def tset {α : Type} : Tab α → Nat → α → Tab α
  | [], k, v => [(k, v)]
  | (j, x) :: t, k, v => if k < j then (k, v) :: (j, x) :: t else if j = k then (k, v) :: t else (j, x) :: tset t k v

/-- The table without entry `k`. -/
def tdel {α : Type} : Tab α → Nat → Tab α
  | [], _ => []
  | (j, x) :: t, k => if j = k then tdel t k else (j, x) :: tdel t k

/-- The table with entry `k` changed by `f`, from `d` when it lists none. -/
def tmod {α : Type} (d : α) (t : Tab α) (k : Nat) (f : α → α) : Tab α := tset t k (f (tget d t k))

/-- Entries whose number and value meet `p`. -/
def tfilter {α : Type} (t : Tab α) (p : Nat → α → Bool) : Tab α := t.filter fun e => p e.1 e.2

/-- The table with every entry changed. -/
def tmap {α : Type} (t : Tab α) (f : Nat → α → α) : Tab α := t.map fun e => (e.1, f e.1 e.2)

/-- A set of numbers, ascending. -/
abbrev NSet := List Nat

/-- `k` is in the set. -/
def nmem : NSet → Nat → Bool
  | [], _ => false
  | j :: t, k => j == k || nmem t k

/-- The set with `k`. -/
def nins : NSet → Nat → NSet
  | [], k => [k]
  | j :: t, k => if k < j then k :: j :: t else if j = k then j :: t else j :: nins t k

/-- The set without `k`. -/
def ndel : NSet → Nat → NSet
  | [], _ => []
  | j :: t, k => if j = k then ndel t k else j :: ndel t k

end Sys2Proof.Machine
end

