-- ==== Sys2Proof/Machine/State.lean ====
section
/-! DEFINITION. The state of an LZX-8 module: everything the spec names, as plain data. Tables are keyed by the numbers
the spec gives: a plot by its global id (R6), a slot by 8 x plot + slot, a port by 16 x plot + port, a region by
256 x instance + index, a queue by 256 x session + queue. -/

namespace Sys2Proof.Machine

/-- Memory under its physical addresses (R10, R76): the bytes that differ from what nobody has written (log 1), the 32-bit words by
address / 4 whose validity (R69) does, full granules of scratchpad (R157) by address / 16. -/
structure Memory where
  cells : List Host.Cell
  odd : NSet
  full : NSet
  deriving DecidableEq, Repr

/-- A trap's cause, TVAL and TINFO (R388, R391). -/
structure Trap where
  cause : BitVec 8
  tval : Word
  tinfo : Word
  deriving DecidableEq, Repr

/-- A pending asynchronous trap, in the order of R387. -/
inductive PendKind where
  | watchdog | config | die | drn | word
  deriving DecidableEq, Repr

/-- A pending asynchronous trap. -/
structure Pend where
  kind : PendKind
  trap : Trap
  deriving DecidableEq, Repr

/-- One entry of the loop stack (R320). -/
structure LoopEnt where
  first : Word
  last : Word
  remaining : BitVec 32
  deriving DecidableEq, Repr

/-- An actor slot (R22, R27, R344, R396). `arrGen` holds the generations of its arrivals at barriers, `bwait` the barrier and the generation it
waits for in BWAIT (R366), `barAbort` the one whose abort it is to take there (R353), `loading` the container whose regions its CONFIG is writing, the variant chosen and whether it is adapted (R248), `resumed` the SLOT_RESUME
that waits for it to issue (R417). -/
structure Slot where
  g : Tab Val
  a : Tab Val
  v : Tab VReg
  q : Tab (BitVec 128)
  pc : Word
  firing : Bool
  held : Bool
  loops : List LoopEnt
  cntld : BitVec 16
  cntst : BitVec 16
  cntcp : BitVec 16
  cnttl : BitVec 16
  permits : BitVec 8
  credits : BitVec 16
  fcount : Word
  fpctl : Word
  fpstat : Word
  mqdst : Word
  prioFloor : BitVec 2
  prioEff : BitVec 2
  prioBase : BitVec 2
  firewd : Word
  barwd : Word
  vprog : Word
  tcause : Word
  tepc : Word
  tval : Word
  tinfo : Word
  tvec : Word
  fxsel : Word
  ticket : BitVec 16
  passed : Nat
  waited : Nat
  pend : List Pend
  fstart : Nat
  wdFired : Bool
  arrGen : Tab (BitVec 32)
  idleEnd : Option Nat
  wait : Option Nat
  bwait : Option (BitVec 8 × BitVec 32)
  barAbort : Option (BitVec 8 × BitVec 32)
  bad : List (BitVec 3 × BitVec 5 × BitVec 4)
  actor : Option (Nat × Nat)
  doneOwed : List (Nat × Nat)
  qsrc : Tab (BitVec 12)
  loading : Option (List Word × Nat × Bool)
  resumed : Option Nat
  deriving DecidableEq, Repr

/-- An entry of a plot's translation cache (R91). `page` is the address without its offset, `big` a 32-MiB page. -/
structure Tlb where
  asid : BitVec 12
  glob : Bool
  big : Bool
  page : Nat
  pa : BitVec 48
  host : Bool
  atm : Bool
  x : Bool
  w : Bool
  r : Bool
  deriving DecidableEq, Repr

/-- A trigger table entry (R354): owner, condition, handler and pending count. -/
structure Trigger where
  inst : Nat
  kind : BitVec 2
  off : BitVec 19
  threshold : BitVec 16
  ctr : BitVec 4
  event : BitVec 8
  handler : Option (BitVec 3)
  pending : BitVec 16
  deriving DecidableEq, Repr

/-- An arrival counter (R225). -/
structure Arrival where
  count : BitVec 16
  batch : BitVec 16
  seen : Word
  deriving DecidableEq, Repr

/-- A message flit (R151, R152): its destination plot and slot, its value, the plot and slot that sent it and its QoS class (R146). -/
structure Flit where
  plot : Nat
  slot : Nat
  val : Val
  src : Nat
  sender : Nat
  cls : BitVec 2
  deriving DecidableEq, Repr

/-- A cell plot: L1 lines, instruction cache words, translation cache, receive FIFO, stream queue tickets, arcs with those who
wait for them (a slot, or 8 + a word) and the increments that wait for their counter to fall below 255 (R206), arrival counters, triggers, guidon nodes, service mode. -/
structure Plot where
  inst : Option Nat
  asid : BitVec 12
  root : BitVec 48
  l1size : Nat
  l1 : Tab (List W32)
  icache : Tab W32
  tlb : List Tlb
  fifo : List Flit
  queue : List Nat
  arcs : Tab (BitVec 8)
  arcq : Tab (List Nat)
  owed : List Nat
  arrivals : Tab Arrival
  triggers : Tab Trigger
  nodes : Tab (Nat × Nat)
  region : Option Nat
  awake : Bool
  service : Bool
  deriving DecidableEq, Repr

/-- What a request does at its home (R188, R190, R193, R197, R200, R203). `n` counts bytes; `k` is the selector. -/
inductive Op where
  | ld (n : Nat) (signed : Bool)
  | ldv (fmt : BitVec 4)
  | sqld
  | ldfe (clr : Bool)
  | feq
  | st (n : Nat)
  | stv
  | stfe
  | feset (full : Bool)
  | amo (k : BitVec 4) (wide : Bool)
  | red (k : BitVec 4) (wide : Bool)
  deriving DecidableEq, Repr

/-- Where a request's result goes. -/
inductive Dest where
  | none
  | g (n : GReg)
  | v (n : VNum)
  | q (n : QNum)
  deriving DecidableEq, Repr

/-- How far a request has come (R324): at its issuer, left as a counted packet, parked at its home (fault id), performed
at its home with the answer under way, answered. -/
inductive Stage where
  | issued
  | sent
  | parked (fid : Nat)
  | answering (stamp : List (BitVec 10))
  | served
  deriving DecidableEq, Repr

/-- An outstanding memory request (R180). `unit` is its home: a die, or 16 for the command front end. `stamp` and `reb` are its causal
stamp (R110), `cls` its QoS class (R146). `arr` numbers the arrival of an LDFE that waits at its granule (R194; 0 before), `refill`
tells that its line entered the plot's L1 while it was outstanding, `replayed` that it was parked and sent again (R97), `since` when it was issued. -/
structure Req where
  plot : Nat
  slot : Nat
  op : Op
  dest : Dest
  oc : BitVec 3
  acq : Bool
  rel : Bool
  va : Word
  pa : BitVec 48
  unit : Nat
  val : Val
  cmp : Val
  vec : List W32
  stamp : List (BitVec 10)
  stage : Stage
  resp : List W32
  retained : Bool
  sig : BitVec 12
  cls : BitVec 2
  reb : BitVec 2
  arr : Nat
  refill : Bool
  replayed : Bool
  since : Nat
  deriving DecidableEq, Repr

/-- A translation walk under way or parked (R90, R94, R96). kind: 0 load, 1 store, 2 fetch, 3 atomic, 4 RED; parked on a host page, 10 and 11 an
engine's read and write, 12 a fetch; 13 a prefetch (R191). `oc` is the order class of what needs it, `stamp` the causal stamp of its reads
(R91, R116); `lost` names the removed die that was to serve a table (R121). `data` is the word that a parked write brings or that a replayed
read has brought (R94, R95), for a prefetch its target and signature, `pa` its offset in the host's memory; `done` tells that the queue has performed it, `orphan` that nobody waits
for it any more (R96). -/
structure Walk where
  plot : Nat
  slot : Nat
  va : Word
  kind : Nat
  parked : Option Nat
  declined : Bool
  ticket : Option Nat
  oc : BitVec 3
  stamp : List (BitVec 10)
  lost : Option Nat
  data : W32
  pa : Nat
  done : Bool
  orphan : Bool
  deriving DecidableEq, Repr

/-- What a token or counted packet brings (R111); `sig` is the predictor signature of an engine's writes (R133). -/
inductive Payload where
  | req (id : Nat)
  | writes (word : Nat) (sig : BitVec 12) (ws : List (BitVec 48 × W32))
  | flit (f : Flit)
  | event (inst : Nat) (e : BitVec 8) (amount : BitVec 32)
  | raised (inst : Nat) (e : BitVec 8)
  | released (inst : Nat) (e : BitVec 8) (gen : BitVec 32) (abort : Bool)
  | permit (inst : Nat) (guidon : Bool) (idx : Nat)
  | done (inst : Nat) (parent : Nat) (guidon : Bool) (idx : Nat)
  | arrv (word : Nat) (plot : Nat) (ctr : BitVec 4) (batch : BitVec 16) (row n1 : BitVec 6)
  | bunt (word : Nat)
  | pennant (key id : Nat)
  | pnWord (word : Nat)
  | granted (key id : Nat) (w : Word)
  deriving DecidableEq, Repr

/-- Something that is to leave its die as a counted packet, or to arrive within the die (R113, R351): source die, unit of
destination, the issuing slot, the requests it waits for, its QoS class (R146). -/
structure Out where
  src : Nat
  dst : Nat
  plot : Nat
  slot : Nat
  waits : List Nat
  payload : Payload
  cls : BitVec 2
  deriving DecidableEq, Repr

/-- A counted packet (R110): in flight, in an early-packet buffer in the order `arrived` (R119; 0 before), or delivered and not
yet acknowledged (R118), `ack` then being the stamp of its acknowledgement (R110). `plot` and `slot` issued it, in QoS class `cls` (R146). -/
structure Packet where
  src : Nat
  dst : Nat
  seq : BitVec 10
  pair : BitVec 10
  rebase : BitVec 2
  stamp : List (BitVec 10)
  arrived : Nat
  delivered : Bool
  payload : Payload
  plot : Nat
  slot : Nat
  cls : BitVec 2
  ack : List (BitVec 10)
  deriving DecidableEq, Repr

/-- A frontier request on its way (R115): the stamp and rebase number that it carries (R110). -/
structure Asking where
  stamp : List (BitVec 10)
  reb : BitVec 2
  deriving DecidableEq, Repr

/-- A frontier flit on its way (R115) with its stamp and rebase number (R110). -/
structure Frontier where
  die : Nat
  unit : Nat
  seq : BitVec 10
  pair : BitVec 10
  stamp : List (BitVec 10)
  reb : BitVec 2
  deriving DecidableEq, Repr

/-- Causal state of a die or a logic base (R110, R112, R115, R118). A logic base uses only cv and pd. -/
structure Causal where
  seq : BitVec 10
  dv : List (BitVec 10)
  cv : List (BitVec 10)
  pd : List (BitVec 10)
  pairs : Tab (BitVec 10)
  last : Tab (BitVec 10)
  undeliv : Tab Nat
  deriving DecidableEq, Repr

/-- A line of a slice (R78, R128, R133): its number (address / 128), its fetched and its dirty 64-B sectors, the signature that filled
it, whether it was hit since. -/
structure SliceLine where
  line : Nat
  held : BitVec 2
  dirty : BitVec 2
  sig : BitVec 12
  hit : Bool
  deriving DecidableEq, Repr

/-- A compute die: presence (R425, R426), removal (R120), carving (R131), defect map (R239), dead-block counters by 4,096 x slice +
signature (R133), sets of the near arrays by 512 x slice + set and of the cache ways by 65,536 x slice + set, least recently used line
first (R128, R130), vertical bus (R139): a retraining under way and its end, since when one is deferred, when the next falls due;
temperature (R430). -/
structure Die where
  installed : Bool
  fenced : Bool
  removedAt : Option (BitVec 10)
  cways : BitVec 4
  backing : Nat
  backUsed : List (Nat × Nat)
  defects : List (BitVec 32)
  dead : Tab (BitVec 2)
  near : Tab (List SliceLine)
  ways : Tab (List SliceLine)
  retraining : Option Nat
  deferred : Option Nat
  due : Nat
  hot : Bool
  deriving DecidableEq, Repr

/-- Waveguides of a stack (R126): spares in use by group, reassignments under way, retired waveguides. -/
structure Optics where
  spares : NSet
  busy : Tab Nat
  retired : NSet
  deriving DecidableEq, Repr

/-- A transient region (R83, R84); `wrote` is the CLOCK of the last write, before which the same clock's reads are served. -/
structure Transient where
  deadline : Nat
  life : Nat
  trapFlag : Bool
  bits : NSet
  wrote : Option Nat
  deriving DecidableEq, Repr

/-- State of a pennant (R162). -/
inductive PnState where
  | resident | evicted | filling | evicting
  deriving DecidableEq, Repr

/-- A pennant's directory entry (R158-R163): attachers by instance and slot, when its count fell to 0, the idle time of its
session; who moves it (none: the residency manager), bytes moved, and who waits for the move, in order of arrival (R159, R175); whether it is dropped when its move ends (R160), origins at which instances attached to it (R162). -/
structure Pennant where
  name : Word
  life : BitVec 2
  w : Nat
  h : Nat
  off : Nat
  len : Nat
  origin : Nat
  state : PnState
  gen : BitVec 32
  backing : BitVec 48
  home : Nat
  sess : Nat
  attachers : List (Nat × Nat)
  idleFrom : Option Nat
  idle : BitVec 32
  mover : Option Nat
  moved : Nat
  queue : List Nat
  dropping : Bool
  places : Tab Nat
  deriving DecidableEq, Repr

/-- An operation that an instruction asks of a home: one on pennants (R165), or, of a node on another die (R351), the arrival or skip of a
position of a barrier with the BARWD of the slot (R353, R366), or a raise of an event (R365). -/
inductive PnOp where
  | define (desc : List W32)
  | attach (fill : Bool)
  | detach
  | drop
  | release
  | query (n : BitVec 3)
  | arrive (inst : Nat) (e : BitVec 8) (pos : Nat) (barwd : Word)
  | skip (inst : Nat) (e : BitVec 8) (pos : Nat) (barwd : Word)
  | take (inst : Nat) (e : BitVec 8)
  deriving DecidableEq, Repr

/-- A home's answer to such a request: a value for g[d], or the trap it raises (R166-R172). `acquire` tells that the
plot's L1 is invalidated (R168). -/
inductive PnAnswer where
  | value (w : Word) (acquire : Bool)
  | trap (t : Trap)
  deriving DecidableEq, Repr

/-- A request of a slot to a pennant's home or a node on another die, by the slot's key: its number, whether it has reached its home, whether the
home has sent a raise as a counted packet (R351), its answer when it is there, and the stamp and rebase number of that answer (R110, R159). -/
structure PnReq where
  op : PnOp
  name : Word
  id : Nat
  arrived : Bool
  granted : Bool
  answer : Option PnAnswer
  stamp : List (BitVec 10)
  reb : BitVec 2
  deriving DecidableEq, Repr

/-- A pattern record as read (R210): sixteen 32-bit words' values and the index words of a GATHER record. -/
structure Pattern where
  base : Word
  kind : Nat
  tag : BitVec 16
  chunk : Nat
  n0 : Nat
  s0 : Int
  n1 : Nat
  s1 : Int
  n2 : Nat
  s2 : Int
  limit : Nat
  name : BitVec 44
  boff : Nat
  ixoff : Nat
  idx : List W32
  deriving DecidableEq, Repr

/-- A binding of a port to a stream (R220). `ticket` names its word, `cmd` is the launch it belongs to, `unbind` the UNBINDs
that wait for its end, `pos` counts bytes of the pattern moved, `words` the 32-bit words of all its beats, `data` the elements
and `bad` the invalid words other than MASKED written for a completion record, `outs` its writes not yet performed, `sig` the
predictor signature of its accesses (R133), which each PHASE in `phases` brings with it. -/
structure Binding where
  read : Bool
  ticket : BitVec 16
  plot : Nat
  slot : Option Nat
  oc : BitVec 3
  arc : BitVec 8
  cmd : Option Nat
  sink : Bool
  pat : Pattern
  pos : Nat
  phases : List (BitVec 12 × Pattern)
  hold : Bool
  tag : BitVec 16
  words : Nat
  data : Nat
  bad : Nat
  cur : List W32
  discard : Bool
  unbind : List Nat
  outs : List Nat
  sig : BitVec 12
  deriving DecidableEq, Repr

/-- A port of an edge plot (R214, R232): edge buffer, binding, stream tag, steering queue, words that have passed an index
switch, words that have left a drain port since the region was armed (R271), whether its write binding has ended at an EOS (R445), write bindings that
have ended while writes of theirs are still to perform (R219), beats that have left by its channel (R144), records whose beats a binding has
delivered and the buffer may still hold (R268). -/
structure Port where
  buf : List Beat
  bind : Option Binding
  tag : BitVec 16
  steer : List W32
  passed : Nat
  drained : Nat
  closed : Bool
  ending : List Binding
  moved : Nat
  past : List Pattern
  deriving DecidableEq, Repr

/-- A lane: its bits, or the payload of an invalid one (R282). -/
inductive Lane where
  | ok (bits : Nat)
  | bad (payload : BitVec 32)
  deriving DecidableEq, Repr

/-- How far a stream word has come: entered, started, done but for its writes. -/
inductive WStage where
  | queued | running | finishing
  deriving DecidableEq, Repr

/-- A stream word accepted and not yet completed (R204, R206-R208): the requests of R207, its writes not yet performed, bytes
done, its pattern records as read at its start (R210), whether its beats are consumed (R268), bits [17:6] of the address it was
loaded from (R133), how many requests to bunting engines are still to come there, whether its request has reached the home (R106, R159), and the engines, by
die, that its requests have reached, with the number of each arrival. -/
structure SWord where
  plot : Nat
  slot : Nat
  ticket : BitVec 16
  instr : Instr
  stage : WStage
  waits : List Nat
  outs : List Nat
  progress : Nat
  pats : List Pattern
  consumed : Bool
  src : BitVec 12
  asks : Nat
  homed : Bool
  came : List (Nat × Nat)
  deriving DecidableEq, Repr

/-- A matrix word in its region's queue (R257): whether it has started, in what order it started (R232), operand tags,
next beat, whether it holds after its trap (R272), gates read at its start (R270), whether it is a token whose register W[w] may be loaded
again (R455), the results with their status bits of the waves of beats that a token has taken and not yet written (R266-R268). -/
structure MWord where
  word : Nat
  instr : Instr
  plot : Nat
  slot : Nat
  started : Bool
  order : Nat
  afmt : BitVec 16
  bfmt : BitVec 16
  next : Nat
  hold : Bool
  gates : List W32
  freed : Bool
  flight : List (List (Lane × BitVec 4))
  deriving DecidableEq, Repr

/-- A DRN's trap whose beat has not yet left the drain port (R272, R393): the port, the beats that leave it up to that one, the word, the slot to
trap and its trap. -/
structure DrnTrap where
  port : Nat
  left : Nat
  word : Nat
  plot : Nat
  slot : Nat
  ticket : BitVec 16
  cause : BitVec 8
  tval : Word
  deriving DecidableEq, Repr

/-- A port-map record (R242). -/
structure PortMap where
  region : Nat
  idx : Nat
  port : Nat
  conn : Nat
  tag : BitVec 16
  line0 : Nat
  dly0 : Nat
  line1 : Nat
  dly1 : Nat
  recIdx : Nat
  deriving DecidableEq, Repr

/-- A route record (R242). -/
structure Route where
  sreg : Nat
  sport : Nat
  sidx : Nat
  dreg : Nat
  dport : Nat
  didx : Nat
  lanes : Nat
  kind : Nat
  lat : Nat
  segs : List (BitVec 8)
  recIdx : Nat
  deriving DecidableEq, Repr

/-- A ring member word in force (R276). -/
structure Member where
  mask : Word
  w : BitVec 3
  e0 : Nat
  m : Nat
  acc : Bool
  plot : Nat
  slot : Nat
  word : BitVec 16
  deriving DecidableEq, Repr

/-- Beats of one expert group on a ring, waiting at a member (R277, R278). -/
structure RingGroup where
  word : Nat
  id : Nat
  m : Nat
  lines : Nat
  tag : BitVec 16
  beats : List Beat
  last : Bool
  deriving DecidableEq, Repr

/-- An installed region (R233, R242) with its cells and banks in logical coordinates (R236). `wreg` is keyed by
(8 x row + register) x 128 + column, `bank` by (128 x side + line) x 64 + word; `disarming` lists the slots whose DISARM waits (R249). -/
structure Region where
  index : Nat
  die : Nat
  y0 : Nat
  x0 : Nat
  w : Nat
  h : Nat
  modes : BitVec 3
  l1 : Nat
  discard : Bool
  east : BitVec 16
  south : BitVec 16
  north : BitVec 16
  west : BitVec 16
  sig : BitVec 32
  rows : List Nat
  cols : List Nat
  ports : List PortMap
  routes : List Route
  armed : Bool
  disarming : List Nat
  frozenProg : Bool
  frozenTrap : Bool
  frozenLoad : Bool
  frozenPre : Bool
  trapDue : List DrnTrap
  errors : Nat
  lost : Bool
  wtag : Tab (BitVec 16)
  wreg : Tab Beat
  xid : Tab (BitVec 8)
  btag : Tab (BitVec 16)
  bank : Tab W32
  status : BitVec 4
  mq : List MWord
  member : Option Member
  ring : List RingGroup
  deriving DecidableEq, Repr

/-- A beat on a circuit channel (R144, R145): source port, destination ports, the beat where MCST sends it (else it is the
oldest of the source port's buffer), and the word that sends it. -/
structure ChanBeat where
  src : Nat
  dsts : List Nat
  beat : Option Beat
  word : Option Nat
  deriving DecidableEq, Repr

/-- An actor record with its rates (R342, R343). -/
structure Actor where
  plot : Nat
  slot : Nat
  cls : BitVec 2
  region : Nat
  entry : Word
  args : Word
  parent : Nat
  ins : List (Nat × Nat)
  outs : List (Nat × Nat)
  trig : Bool
  deriving DecidableEq, Repr

/-- A guidon record (R347) and its state (R349, R350, R352, R353); `seen` holds, by die, the generation that a barrier's releases have brought to
another die (R351). -/
structure Guidon where
  plot : Nat
  node : Nat
  kind : Nat
  parent : Nat
  depth : Nat
  trip : Nat
  stop : Nat
  children : List (Bool × Nat)
  mask : BitVec 16
  threshold : BitVec 32
  term0 : List Nat
  term1 : List Nat
  running : Nat
  active : Bool
  sentP : List Nat
  doneD : List Nat
  stopped : Bool
  count : BitVec 32
  raises : BitVec 16
  evq : List Nat
  gen : BitVec 32
  arrived : BitVec 16
  skipped : BitVec 16
  deadline : Option Nat
  seen : Tab (BitVec 32)
  deriving DecidableEq, Repr

/-- Whether an instance runs, is being halted, is saved, or is being restored (R405-R409). -/
inductive Saved where
  | running | halting | saved | restoring
  deriving DecidableEq, Repr

/-- A plot's saved context (R406-R408): its area, the inbound queue, the size of its scratchpad image, whether that is discarded,
the CLOCK at its save, whether RESTC has read it back. The rest of the context stays in the fields that hold it. -/
structure Ctx where
  plot : Nat
  area : Nat
  inbound : Tab Payload
  size : Nat
  discard : Bool
  savedAt : Nat
  restored : Bool
  deriving DecidableEq, Repr

/-- An installed image instance (R341, R414, R416): when its pre-emption began, its context areas by plot with their lengths (R406). -/
structure Inst where
  sess : Nat
  image : Word
  gang : Option Nat
  variant : Nat
  adapted : Bool
  remap : List (BitVec 3)
  asid : BitVec 12
  root : BitVec 48
  plots : List Nat
  actors : Tab Actor
  guidons : Tab Guidon
  launch : Option Nat
  rootDone : Bool
  saved : Saved
  haltAt : Nat
  areas : Tab (Nat × Nat)
  ctx : List Ctx
  deriving DecidableEq, Repr

/-- An open session (R413, R415). -/
structure Session where
  key : Word
  hbase : Word
  hlen : Nat
  rkey : BitVec 32
  idle : BitVec 32
  signed : Bool
  keys : List (Nat × Nat)
  host : Tab Byte
  errSince : Option Nat
  deriving DecidableEq, Repr

/-- A written patch slot (R378): its value, the clock in which it arrived, and the value that a rewrite of that clock has not yet replaced. -/
structure Patch where
  val : BitVec 32
  since : Nat
  prev : Option (BitVec 32)
  deriving DecidableEq, Repr

/-- A command queue (R371). Slots and enqueue times are keyed by position mod 64; `patches` by 4 x ptag + slot; `checked` lists the undispatched
positions whose checks at the head have passed (R373), `closing` the tail up to which a queue that closes is drained (R414); `refusing` tells that
the next command belongs to a gang that has been refused (R384). -/
structure CQueue where
  halted : Bool
  qpn : Nat
  port : Nat
  ring : Nat
  n : Nat
  head : BitVec 16
  tail : BitVec 16
  completed : BitVec 32
  records : Nat
  entries : Tab (List Word)
  tenq : Tab Nat
  patches : Tab Patch
  live : List Nat
  late : NSet
  checked : List Nat
  closing : Option (BitVec 16)
  refusing : Bool
  deriving DecidableEq, Repr

/-- A queue link (R376). -/
structure Link where
  producer : Nat
  consumer : Nat
  tokens : BitVec 16
  overflow : Bool
  deriving DecidableEq, Repr

/-- A dispatched command that has not completed (R375): the links it releases and those whose tokens it took. Then what its record
will say (R385, R417), and how far a command of several stages has come. -/
structure Cmd where
  sess : Nat
  queue : Nat
  seq : BitVec 16
  opcode : BitVec 8
  crec : Bool
  releases : List Nat
  takes : List Nat
  instr : Option Instr
  tenq : Nat
  served : Bool
  ready : Bool
  waits : List Nat
  insts : List Nat
  status : BitVec 8
  inst : BitVec 16
  cause : BitVec 8
  elems : Nat
  bad : Nat
  stage : Nat
  deriving DecidableEq, Repr

/-- A PATCH on its way to the front end (R226). -/
structure PatchMsg where
  sess : Nat
  queue : Nat
  slot : BitVec 2
  tag : BitVec 16
  value : BitVec 32
  word : Nat
  deriving DecidableEq, Repr

/-- A record of the firmware's log (R424). -/
structure LogRec where
  clock : Word
  seq : BitVec 32
  kind : BitVec 16
  d0 : Word
  d1 : Word
  deriving DecidableEq, Repr

/-- A message sent to a host (R415, R423): its session or none, the queue pair and port that carry it, its quadwords and the bytes after them. -/
structure Message where
  sess : Option Nat
  via : Option (Nat × Nat)
  quads : List Word
  body : List Byte
  deriving DecidableEq, Repr

/-- Name entries, counts and free lists of the bunting engines (R99-R101): pool base and blocks, the stacks present at bring-up,
block by 44-bit name, count by block; by part, how many of its blocks were ever taken from the head, and the blocks freed since. -/
structure Bunting where
  base : Nat
  blocks : Nat
  parts : List Nat
  names : Tab Nat
  refs : Tab (BitVec 8)
  taken : Tab Nat
  freed : Tab (List Nat)
  deriving DecidableEq, Repr

/-- Stages of a rebase (R122). -/
inductive Rebase where
  | none | draining | retransmitting
  deriving DecidableEq, Repr

/-- What happens next, as the list of pending happenings says: the model's own (log 2). `message` is one that comes by a port (R415, log 89). -/
inductive Sched where
  | advance (n : Nat)
  | event (i : Instr)
  | message (port : BitVec 2) (i : Instr)
  | issue (plot slot : Nat)
  | word (id : Nat)
  | command (id : Nat)
  deriving DecidableEq, Repr

/-- The part number (R4, R425). -/
inductive Part where
  | lzx8 | lzx6 | lzx8n
  deriving DecidableEq, Repr

/-- Whom the next scalar instruction, stream word or command belongs to, and the port by which a management message came: the model's own (log 5). -/
structure Focus where
  plot : Nat
  slot : Nat
  word : Nat
  cmd : Nat
  port : BitVec 2
  deriving DecidableEq, Repr

/-- The module. `lastDelivery` is when a counted packet was last delivered (R122); `qpDown` lists the ports whose queue pairs are in error, `naks`
the queue pairs and ports on which an RDMA atomic was refused (R411). -/
structure State where
  part : Part
  powered : Bool
  halted : Bool
  clock : Nat
  mem : Memory
  slots : Tab Slot
  plots : Tab Plot
  reqs : Tab Req
  walks : Tab Walk
  pnreqs : Tab PnReq
  outs : Tab Out
  packets : Tab Packet
  frontiers : Tab Frontier
  asked : Tab Asking
  tokens : Tab Payload
  causal : Tab Causal
  removed : BitVec 8
  rebase : BitVec 2
  rebasing : Rebase
  rebaseAt : Nat
  lastDelivery : Nat
  partitions : Tab PartitionVal
  pendingParts : Tab PartitionVal
  dies : Tab Die
  optics : Tab Optics
  recovery : Tab Nat
  transients : Tab Transient
  bunting : Bunting
  pennants : Tab Pennant
  words : Tab SWord
  ports : Tab Port
  regions : Tab Region
  chans : Tab ChanBeat
  insts : Tab Inst
  nextInst : Nat
  peers : BitVec 8
  peerOut : Tab Flit
  hostAcks : Tab Nat
  sessions : Tab Session
  qpDown : List Nat
  naks : List (BitVec 24 × BitVec 2)
  queues : Tab CQueue
  links : Tab Link
  cmds : Tab Cmd
  patchMsgs : Tab PatchMsg
  lastQueue : Nat
  parkIds : Nat
  log : List LogRec
  logSeq : Nat
  logRead : Nat
  logLost : Nat
  sent : List Message
  nextId : Nat
  sched : List Sched
  choices : List Bool
  focus : Focus
  free : Nat
  deriving DecidableEq, Repr

/-- Why a step stops the machine. -/
inductive Fault where
  /-- The module halted at the critical trip (R430): raised by every step after CRITICAL_TRIP. Safe: the module does
  nothing more. -/
  | moduleHalted
  deriving DecidableEq, Repr

/-- Why the model has no next state. -/
inductive Refusal where
  /-- An instruction whose meaning is not written. Raised by no arm of the finished model. Safe. -/
  | notModelled (mnemonic : String)
  deriving DecidableEq, Repr

/-- Payload of an invalid word (R70). -/
def payloadBits (reason : BitVec 8) (origin : Nat) (offset : Nat) : BitVec 32 :=
  BitVec.ofNat 11 offset ++ BitVec.ofNat 13 origin ++ reason
/-- An invalid ABSENT register with origin the plot and offset 0 (R22). -/
def absentVal (plot : Nat) : Val := ⟨false, (payloadBits 0x06 plot 0).zeroExtend 64⟩
/-- A v register of invalid ABSENT words with tag NONE (R22). -/
def absentVec (plot : Nat) : VReg := ⟨0, 0, (List.range 16).foldl (fun b _ => b <<< 32 ||| (payloadBits 0x06 plot 0).zeroExtend 512) 0⟩

/-- A slot as an install leaves it (R22, R204, R344, R359, R389, R396): nothing listed in a register table reads as the
install value. -/
def Slot.init : Slot :=
  { g := [], a := [], v := [], q := [], pc := 0, firing := false, held := false, loops := [], cntld := 0, cntst := 0, cntcp := 0,
    cnttl := 0, permits := 0, credits := 0, fcount := 0, fpctl := 0, fpstat := 0, mqdst := 0, prioFloor := 0, prioEff := 0,
    prioBase := 0, firewd := 1000, barwd := 1000, vprog := 0, tcause := 0, tepc := 0, tval := 0, tinfo := 0, tvec := 0, fxsel := 0,
    ticket := 0, passed := 0, waited := 0, pend := [], fstart := 0, wdFired := false, arrGen := [], idleEnd := none, wait := none, bwait := none, barAbort := none, bad := [], actor := none,
    doneOwed := [], qsrc := [], loading := none, resumed := none }

/-- A plot with no image: nothing cached, queues empty, scratchpad of the full 512 KiB. -/
def Plot.init : Plot :=
  { inst := none, asid := 0, root := 0, l1size := 0, l1 := [], icache := [], tlb := [], fifo := [], queue := [], arcs := [], arcq := [], owed := [],
    arrivals := [], triggers := [], nodes := [], region := none, awake := false, service := false }

/-- A port with an empty edge buffer. -/
def Port.init : Port := { buf := [], bind := none, tag := 0, steer := [], passed := 0, drained := 0, closed := false, ending := [], moved := 0, past := [] }

/-- Causal state after reset (R112). -/
def Causal.init : Causal :=
  { seq := 0, dv := List.replicate 8 0, cv := List.replicate 8 0, pd := List.replicate 8 0, pairs := [], last := [], undeliv := [] }

/-- A compute die after reset: 12 cache ways (R131), no defects, the first retraining due after 2 ms (R139, log 93). -/
def Die.init : Die :=
  { installed := true, fenced := false, removedAt := none, cways := 12, backing := 0, backUsed := [], defects := [], dead := [],
    near := [], ways := [], retraining := none, deferred := none, due := 3800000, hot := false }

/-- Optics of a stack with no ring reassigned. -/
def Optics.init : Optics := ⟨[], [], []⟩

/-- An address partition after reset (R80). -/
def partitionInit : PartitionVal := ⟨false, 0, 0, List.replicate 10 0, [0, 1, 2, 3, 4, 5, 6, 7]⟩

/-- The module right after reset: not yet brought up (R429), nothing installed, every register at its reset value. -/
def State.reset : State :=
  { part := .lzx8, powered := false, halted := false, clock := 0, mem := ⟨[], [], []⟩, slots := [], plots := [], reqs := [], walks := [],
    pnreqs := [], outs := [], packets := [], frontiers := [], asked := [], tokens := [], causal := [], removed := 0, rebase := 0, rebasing := .none,
    rebaseAt := 0, lastDelivery := 0, partitions := [], pendingParts := [], dies := [], optics := [], recovery := [], transients := [],
    bunting := ⟨0, 0, [], [], [], [], []⟩, pennants := [], words := [], ports := [], regions := [], chans := [], insts := [], nextInst := 0,
    peers := 0, peerOut := [], hostAcks := [], sessions := [], qpDown := [], naks := [], queues := [], links := [], cmds := [], patchMsgs := [],
    lastQueue := 0, parkIds := 0, log := [], logSeq := 0, logRead := 0, logLost := 0, sent := [], nextId := 0, sched := [], choices := [],
    focus := ⟨0, 0, 0, 0, 0⟩, free := 0 }

end Sys2Proof.Machine
end

