-- ==== Sys2Proof/Machine/Ops.lean ====
section
/-! DEFINITION. The shared operations: slots and registers (R22-R24), taking a trap and returning (R387-R389, R399), the
program counter and the loop stack (R320, R321), memory words (R69, R183), windows and homes (R10, R76, R79), requests. -/

namespace Sys2Proof.Machine

/-- What a meaning answers. -/
abbrev Result := Host.Outcome State Fault Refusal

/-! ## Slots, plots, dies -/

/-- Slot `k` of plot `p`. -/
def State.slotAt (s : State) (p k : Nat) : Slot := tget Slot.init s.slots (8 * p + k)
/-- Slot `k` of plot `p` replaced. -/
def State.setSlot (s : State) (p k : Nat) (x : Slot) : State := { s with slots := tset s.slots (8 * p + k) x }
/-- Slot `k` of plot `p` changed. -/
def State.modSlot (s : State) (p k : Nat) (f : Slot → Slot) : State := s.setSlot p k (f (s.slotAt p k))
/-- The slot that issues (log 5). -/
def State.cur (s : State) : Slot := s.slotAt s.focus.plot s.focus.slot
/-- The issuing slot replaced. -/
def State.setCur (s : State) (x : Slot) : State := s.setSlot s.focus.plot s.focus.slot x
/-- The issuing slot changed. -/
def State.modCur (s : State) (f : Slot → Slot) : State := s.setCur (f s.cur)
/-- Plot `p`. -/
def State.plotAt (s : State) (p : Nat) : Plot := tget Plot.init s.plots p
/-- Plot `p` changed. -/
def State.modPlot (s : State) (p : Nat) (f : Plot → Plot) : State := { s with plots := tset s.plots p (f (s.plotAt p)) }
/-- Die `d`. -/
def State.dieAt (s : State) (d : Nat) : Die := tget Die.init s.dies d
/-- Die `d` changed. -/
def State.modDie (s : State) (d : Nat) (f : Die → Die) : State := { s with dies := tset s.dies d (f (s.dieAt d)) }
/-- Port `q` of plot `p` has the key 16 p + q. -/
def State.portAt (s : State) (k : Nat) : Port := tget Port.init s.ports k
/-- The port of key `k` changed. -/
def State.modPort (s : State) (k : Nat) (f : Port → Port) : State := { s with ports := tset s.ports k (f (s.portAt k)) }
/-- A fresh number for a request, packet, token, word or command. -/
def State.fresh (s : State) : Nat × State := (s.nextId, { s with nextId := s.nextId + 1 })
/-- Die of a plot (R6). -/
def dieOf (plot : Nat) : Nat := plot / 1024
/-- Plot column (R6). -/
def plotX (plot : Nat) : Nat := plot % 32
/-- Plot row (R6). -/
def plotY (plot : Nat) : Nat := plot / 32 % 32
/-- A cell plot: its column is not 7, 15, 23 or 31 (R6). -/
def isCellPlot (plot : Nat) : Bool := plot % 8 != 7
/-- The plot of a slice number (R7). -/
def slicePlot (slice : Nat) : Nat := slice / 128 * 1024 + slice % 128 / 4 * 32 + slice % 4 * 8 + 7
/-- Dies of the part (R4, R425). -/
def Part.dies : Part → BitVec 8
  | .lzx6 => 0x3F
  | _ => 0xFF
/-- The die is one of the part's. -/
def State.present (s : State) (d : Nat) : Bool := s.part.dies.getLsbD d
/-- STAMPBASE.removed (R124): removed, or absent on the part. -/
def State.removedMask (s : State) : BitVec 8 := s.removed ||| ~~~s.part.dies
/-- The die is removed or absent. -/
def State.isRemoved (s : State) (d : Nat) : Bool := s.removedMask.getLsbD d

/-! ## Causal stamps -/

/-- Serial comparison of 10-bit sequence values (R114). -/
def serialLe (a b : BitVec 10) : Bool := (b - a).toNat < 512
/-- The later of two sequence values. -/
def serialMax (a b : BitVec 10) : BitVec 10 := if serialLe a b then b else a
/-- Causal state of a unit: a die 0-7, or the logic base of stack `unit - 8`. -/
def State.causalAt (s : State) (unit : Nat) : Causal := tget Causal.init s.causal unit
/-- Causal state changed. -/
def State.modCausal (s : State) (unit : Nat) (f : Causal → Causal) : State :=
  { s with causal := tset s.causal unit (f (s.causalAt unit)) }
/-- Entry `j` of a vector. -/
def vecAt (v : List (BitVec 10)) (j : Nat) : BitVec 10 := v.getD j 0
/-- The die whose own entry a unit has (R112). -/
def unitDie (unit : Nat) : Nat := unit % 8
/-- CV[j] of a unit; its own entry reads as the die's SEQ (R112). -/
def State.cvOf (s : State) (unit j : Nat) : BitVec 10 :=
  if j = unitDie unit then (s.causalAt (unitDie unit)).seq else vecAt (s.causalAt unit).cv j
/-- Every entry of a stamp but the unit's own, `skip` and removed dies is covered (R114, R116). -/
def State.covers (s : State) (unit : Nat) (stamp : List (BitVec 10)) (skip : Nat) : Bool :=
  (List.range 8).all fun j => j == unitDie unit || j == skip || s.isRemoved j || serialLe (vecAt stamp j) (vecAt (s.causalAt unit).cv j)
/-- A stamp merged into a die's vector (R114, R116). -/
def State.mergeDv (s : State) (die : Nat) (stamp : List (BitVec 10)) : State :=
  s.modCausal die fun c => { c with dv := (List.range 8).map fun j => serialMax (vecAt c.dv j) (serialMax (vecAt stamp j) (s.cvOf die j)) }
/-- The stamp of a response (R116): the home die's DV, or for a logic base the larger of its CV and that die's DV. -/
def State.respStamp (s : State) (unit : Nat) : List (BitVec 10) :=
  if unit < 8 then (s.causalAt unit).dv
  else (List.range 8).map fun j => serialMax (s.cvOf unit j) (vecAt (s.causalAt (unitDie unit)).dv j)

/-! ## Log, reports -/

/-- A firmware report (R423) to a session, on the queue pair of its queue 0 (R414): kind and the quadwords 0x10-0x38. -/
def State.report (s : State) (sess : Nat) (kind : Nat) (q : List Nat) : State :=
  let quads := (0x4C5A5250 * 4294967296 + sess * 256 + kind) :: s.clock :: (q ++ List.replicate (6 - q.length) 0)
  { s with sent := s.sent ++ [⟨some sess, (tfind s.queues (256 * sess)).map fun q => (q.qpn, q.port), quads.map (BitVec.ofNat 64), []⟩] }

/-- A record appended to the firmware's log of 65,536 records (R424), reported to every session when it becomes three-quarters full of unread ones (R423). -/
def State.logRec (s : State) (kind : Nat) (d0 d1 : Nat) : State :=
  let r : LogRec := ⟨BitVec.ofNat 64 s.clock, BitVec.ofNat 32 s.logSeq, BitVec.ofNat 16 kind, BitVec.ofNat 64 d0, BitVec.ofNat 64 d1⟩
  let full := s.log.length == 65536
  let drop := full && s.logRead == s.logSeq - 65536
  let s1 := { s with log := (if full then s.log.drop 1 else s.log) ++ [r], logSeq := s.logSeq + 1,
                     logLost := if drop then s.logLost + 1 else s.logLost, logRead := if drop then s.logRead + 1 else s.logRead }
  if s1.logSeq - s1.logRead = 49152 ∧ s.logSeq - s.logRead ≠ 49152 then s1.sessions.foldl (fun x e => x.report e.1 7 [49152]) s1 else s1

/-- The plot's instance, if it has one, runs: it is neither halted for a pre-emption nor saved (R98, R405). -/
def State.plotRuns (s : State) (p : Nat) : Bool :=
  match (s.plotAt p).inst with
  | some i => (match tfind s.insts i with
    | some x => x.saved == .running
    | none => true)
  | none => true
/-- The session of the instance that holds a plot. -/
def State.sessOf (s : State) (plot : Nat) : Option Nat := do (← tfind s.insts (← (s.plotAt plot).inst)).sess

/-! ## Registers -/

/-- A g register but g30 and g31: g0 reads zero (R22), one not written since firing start is ABSENT. -/
def Slot.gReg (x : Slot) (plot : Nat) (n : GReg) : Val :=
  if n = 0 ∨ n = 30 then Val.zero else tget (absentVal plot) x.g n.toNat
/-- A v register. -/
def Slot.vReg (x : Slot) (plot : Nat) (n : VNum) : VReg := tget (absentVec plot) x.v n.toNat
/-- A q register. -/
def Slot.qReg (x : Slot) (n : QNum) : BitVec 128 := tget 0 x.q n.toNat
/-- An a register. -/
def Slot.aReg (x : Slot) (plot : Nat) (n : Nat) : Val := tget (absentVal plot) x.a n
/-- A v register of the issuing slot. -/
def State.vGet (s : State) (n : VNum) : VReg := s.cur.vReg s.focus.plot n
/-- A register that is written holds no uncorrectable error (R395): file 0 g, 1 a, 2 v with 4 its tag, 3 q. -/
def Slot.mend (x : Slot) (file : BitVec 3) (n : BitVec 5) : Slot :=
  { x with bad := x.bad.filter fun b => !(b.2.1 == n && (b.1 == file || (file == 2 && b.1 == 4))) }
/-- A g register but g0, g30 and g31 written. -/
def Slot.putG (x : Slot) (n : GReg) (v : Val) : Slot := { x.mend 0 n with g := tset x.g n.toNat v }
/-- A v register written. -/
def Slot.putV (x : Slot) (n : VNum) (v : VReg) : Slot := { x.mend 2 (n.zeroExtend 5) with v := tset x.v n.toNat v }
/-- A q register written. -/
def Slot.putQ (x : Slot) (n : QNum) (v : BitVec 128) : Slot := { x.mend 3 (n.zeroExtend 5) with q := tset x.q n.toNat v }
/-- A v register of the issuing slot written. -/
def State.vSet (s : State) (n : VNum) (v : VReg) : State := s.modCur fun x => x.putV n v
/-- A q register of the issuing slot written. -/
def State.qSet (s : State) (n : QNum) (v : BitVec 128) : State := s.modCur fun x => x.putQ n v

/-- Flits waiting for a slot, oldest first (R152). -/
def State.flits (s : State) (p k : Nat) : List Flit := (s.plotAt p).fifo.filter (·.slot == k)
/-- The FIFO without the `n` oldest flits of slot `k`. -/
def popFlits (k : Nat) : Nat → List Flit → List Flit
  | _, [] => []
  | 0, l => l
  | n + 1, f :: l => if f.slot == k then popFlits k n l else f :: popFlits k (n + 1) l
/-- Occurrences of g31 among sources. -/
def g31Count (srcs : List GReg) : Nat := srcs.countP (· == 31)
/-- Values of the sources in order; each g31 takes the next flit (R24, R304). -/
def srcVals (x : Slot) (plot : Nat) : List Flit → List GReg → List Val
  | _, [] => []
  | fl, n :: t => if n = 31 then (match fl with
      | f :: fl' => f.val :: srcVals x plot fl' t
      | [] => Val.zero :: srcVals x plot [] t)
    else x.gReg plot n :: srcVals x plot fl t
/-- Values of source registers of the issuing slot. -/
def State.reads (s : State) (srcs : List GReg) : List Val :=
  srcVals s.cur s.focus.plot (s.flits s.focus.plot s.focus.slot) srcs
/-- The plot's L1 emptied (R156). -/
def State.flushL1 (s : State) (p : Nat) : State := s.modPlot p fun x => { x with l1 := [] }
/-- The state after the sources were read: flits popped; a flit of another die empties the L1 (R117), and every g31 read is an
acquire of oc7 (R153). -/
def State.afterReads (s : State) (srcs : List GReg) : State :=
  if g31Count srcs = 0 then s
  else
    let fl := (s.flits s.focus.plot s.focus.slot).take (g31Count srcs)
    let s' := s.modPlot s.focus.plot fun x => { x with fifo := popFlits s.focus.slot (g31Count srcs) x.fifo }
    if fl.any (fun f => f.src != s.focus.plot) then s'.flushL1 s.focus.plot else s'

/-- Payload of an invalid register (R181), a reason outside R71 read as POISON_MEM. -/
def normPayload (b : BitVec 32) : BitVec 32 :=
  let r := (b.extractLsb' 0 8).toNat
  if r ≤ 7 || r == 15 then b else (b &&& 0xFFFFFF00) ||| 3
/-- The invalid value that an operand's invalidity makes (R303). -/
def poisonOf (v : Val) : Val := ⟨false, (normPayload (v.bits.extractLsb' 0 32)).zeroExtend 64⟩
/-- Payload of a register, zero-extended (R181). -/
def payloadOf (v : Val) : Word := (normPayload (v.bits.extractLsb' 0 32)).zeroExtend 64
/-- An invalid register value with a reason, this plot as origin, offset 0 (R21, R72). -/
def invVal (reason : BitVec 8) (plot : Nat) : Val := ⟨false, (payloadBits reason plot 0).zeroExtend 64⟩
/-- The word that an operation makes of an invalid register operand (R71, R303). -/
def poisonedWord (v : Val) : W32 := ⟨false, normPayload (v.bits.extractLsb' 0 32)⟩
/-- An invalid register's payload in memory, whole (R72, R183). -/
def invWord (v : Val) : W32 := ⟨false, v.bits.extractLsb' 0 32⟩

/-! ## Outstanding requests -/

/-- The request reads memory (R324). -/
def Op.reads : Op → Bool
  | .ld .. | .ldv .. | .sqld | .ldfe .. | .feq | .amo .. => true
  | _ => false
/-- The request writes memory. -/
def Op.writes : Op → Bool
  | .st .. | .stv | .stfe | .feset .. | .red .. | .amo .. => true
  | _ => false
/-- Requests of slot `k` of plot `p`, in program order. -/
def State.reqsOf (s : State) (p k : Nat) : Tab Req := s.reqs.filter fun e => e.2.plot == p && e.2.slot == k
/-- The read of the request is performed, its write released (R324). -/
def Req.released (r : Req) : Bool :=
  if r.op.reads then r.stage == .served else r.stage == .sent
/-- The request is performed: a read that is served; a write that has performed is gone (R324). -/
def Req.performed (r : Req) : Bool := r.op.reads && r.stage == .served
/-- The request's result goes to g30: its completion sends a flit under the request's own number, an access of class 7 (R24, R180, R323). -/
def Req.sends (r : Req) : Bool := r.dest == .g 30
/-- Request or flit `id` is released or gone: a flit is released when it has left (R324). -/
def State.relOk (s : State) (id : Nat) : Bool :=
  match tfind s.reqs id with
  | some r => r.released && !r.sends
  | none => (tfind s.outs id).isNone
/-- Request or flit `id` is performed: gone, or a read that is served. -/
def State.perfOk (s : State) (id : Nat) : Bool :=
  match tfind s.reqs id with
  | some r => r.performed && !r.sends
  | none => (tfind s.outs id).isNone
/-- What is sent is a message flit, an access of class 7; an event and a token are none (R323). -/
def Payload.isFlit : Payload → Bool
  | .flit _ => true
  | _ => false
/-- Flits of slot `k` of plot `p` that have not left. -/
def State.flitsOut (s : State) (p k : Nat) : Tab Out := s.outs.filter fun e => e.2.plot == p && e.2.slot == k && e.2.payload.isFlit
/-- Ids of the slot's accesses in a class: all for 7; flits, sent or still to be sent by a load, are of class 7, which every class
includes (R207, R326, R327). -/
def State.classIds (s : State) (p k : Nat) (oc : BitVec 3) : List Nat :=
  ((s.reqsOf p k).filter fun e => oc == 7 || e.2.oc == oc || e.2.oc == 7 || e.2.sends).map (·.1) ++ (s.flitsOut p k).map (·.1)
/-- Every earlier access of the issuing slot in the class is released. -/
def State.allReleased (s : State) (oc : BitVec 3) : Bool := (s.classIds s.focus.plot s.focus.slot oc).all s.relOk

/-- Registers that outstanding loads and atomics write (R180). -/
def State.pendDest (s : State) (d : Dest) : Bool := (s.reqsOf s.focus.plot s.focus.slot).any fun e => e.2.dest == d
/-- A flit that an earlier write of the plot sent to the core that a slot's MQDST names stays in the packet plane, since the FIFO
there is full (R152): the plot's flits to that core wait behind it. -/
def State.flitStalled (s : State) (p k : Nat) : Bool :=
  let dst := ((s.slotAt p k).mqdst.extractLsb' 0 13).toNat
  !(s.slotAt p k).mqdst.getLsbD 31 && decide (32 ≤ (s.plotAt dst).fifo.length) && s.tokens.any fun e => match e.2 with
    | .flit f => f.src == p && f.plot == dst
    | _ => false
/-- The instruction must wait (R180, R24): a source or destination is still to be written, g30 when a load is still to send from it or
an earlier flit is stalled (R152), a g31 finds no flit, or a g31, which acquires in class 7 (R153), waits for the earlier accesses
(R327). -/
def State.blocked (s : State) (srcs dsts : List GReg) : Bool :=
  srcs.any (fun n => s.pendDest (.g n)) || dsts.any (fun n => n != 0 && n != 31 && s.pendDest (.g n))
    || (dsts.contains 30 && s.flitStalled s.focus.plot s.focus.slot)
    || decide ((s.flits s.focus.plot s.focus.slot).length < g31Count srcs)
    || (g31Count srcs != 0 && !s.allReleased 7)
/-- As `blocked` for v registers (R286). -/
def State.blockedV (s : State) (vs : List VNum) : Bool := vs.any fun n => s.pendDest (.v n)
/-- As `blocked` for q registers. -/
def State.blockedQ (s : State) (qs : List QNum) : Bool := qs.any fun n => s.pendDest (.q n)
/-- UNCORRECTABLE_DATA of the first register read that holds an uncorrectable error (R395): files 0 g, 2 v, 3 q, 4 tag. -/
def State.badReg (s : State) (regs : List (BitVec 3 × BitVec 5)) : Option Trap :=
  (regs.find? fun r => s.cur.bad.any fun b => b.1 == r.1 && b.2.1 == r.2).map fun r => ⟨0x0C, (r.1 ++ r.2).zeroExtend 64, 0⟩

/-! ## Traps -/

/-- ih of TCAUSE (R389). -/
def Slot.ih (x : Slot) : Bool := x.tcause.getLsbD 8
/-- The slot held and reported (R388, R423); its firing's time stops, and `fstart` holds it. -/
def State.hold (s : State) (c : Word) (pc tval tinfo : Word) : State :=
  let s' := s.modCur fun x => { x with held := true, fstart := s.clock - x.fstart }
  match s.sessOf s.focus.plot with
  | some se => s'.report se 2 [((s.plotAt s.focus.plot).inst.getD 0) + s.focus.plot * 65536 + s.focus.slot * 4294967296,
      c.toNat, pc.toNat, tval.toNat, tinfo.toNat]
  | none => s'
/-- Taking a trap in the issuing slot with return address `pc` (R388, R389): a double trap holds the slot and leaves the trap
registers; TVEC = 0 holds it too; else the handler runs. -/
def State.takeTrap (s : State) (t : Trap) (pc : Word) : State :=
  if s.cur.ih then s.hold (0x100 ||| t.cause.zeroExtend 64) pc t.tval t.tinfo
  else
    let x := s.cur
    let h : Word := if x.tvec = 0 then x.pc else x.tvec
    let s1 := s.setCur { x with tcause := 0x100 ||| t.cause.zeroExtend 64, tepc := pc, tval := t.tval, tinfo := t.tinfo, pc := h }
    if x.tvec = 0 then s1.hold (0x100 ||| t.cause.zeroExtend 64) pc t.tval t.tinfo else s1
/-- A precise fault: the trap with TEPC at the instruction (R387, R389). -/
def State.trapNow (s : State) (t : Trap) : State := s.takeTrap t s.cur.pc
/-- POISON_CONSUMED with a register's payload. -/
def poisonTrap (v : Val) : Trap := ⟨0x18, payloadOf v, 0⟩
/-- A trap by its cause and TVAL, TINFO zero. -/
def mkTrap (cause : BitVec 8) (tval : Word) : Trap := ⟨cause, tval, 0⟩
/-- ERET's return (R399): the pc from TEPC, ih cleared, FIREWD time restarted. -/
def State.eretReturn (s : State) : State :=
  s.modCur fun x => { x with pc := x.tepc, tcause := x.tcause &&& ~~~0x100#64, fstart := s.clock, wdFired := false }
/-- An asynchronous trap made pending in a slot (R387), which ends its IDLE (R403). -/
def State.pendTrap (s : State) (p k : Nat) (kind : PendKind) (t : Trap) : State :=
  s.modSlot p k fun x => { x with pend := x.pend ++ [⟨kind, t⟩], idleEnd := none }

/-! ## Rebase and partitions -/

/-- A rebase begins, unless one is under way (R122). -/
def State.startRebase (s : State) : State := if s.rebasing == .none then { s with rebasing := .draining, rebaseAt := s.clock } else s
/-- A partition change, in force from the next rebase, which begins (R82, R122). -/
def State.setPartition (s : State) (n : Nat) (p : PartitionVal) : State := { s with pendingParts := tset s.pendingParts n p }.startRebase

/-! ## The program counter and the loop stack -/

/-- A completion that counts for the bodies `hit` holds of, innermost first (R321): an entry that pops gives the completion to the outer
bodies that end at the same word, and control goes on behind that word. -/
def loopEnds (hit : Word → Bool) (next : Word) : List LoopEnt → Word × List LoopEnt
  | [] => (next, [])
  | e :: t =>
    if hit e.last then
      if e.remaining = 1 then loopEnds (· == e.last) (e.last + 4) t else (e.first, { e with remaining := e.remaining - 1 } :: t)
    else ((loopEnds hit next t).1, e :: (loopEnds hit next t).2)
/-- Sequential completion of the instruction at `pc` (R321): it contains the last word of a body. -/
def loopSeq (pc : Word) (size : Nat) (l : List LoopEnt) : Word × List LoopEnt :=
  loopEnds (fun last => last == pc || (size == 8 && last == pc + 4)) (pc + BitVec.ofNat 64 size) l
/-- The target lies in a body. -/
def LoopEnt.holds (e : LoopEnt) (target : Word) : Bool := decide (e.first ≤ target) && decide (target ≤ e.last)
/-- A taken transfer pops each body its target lies outside, and every body inside that (R321). -/
def loopJump (target : Word) : List LoopEnt → List LoopEnt
  | [] => []
  | e :: t => if (e :: t).all (·.holds target) then e :: t else loopJump target t
/-- The issuing slot falls through after an instruction of `size` bytes; in a handler the loop stack is frozen (R388). -/
def State.advance (s : State) (size : Nat) : State :=
  s.modCur fun x =>
    if x.ih then { x with pc := x.pc + BitVec.ofNat 64 size }
    else let r := loopSeq x.pc size x.loops
      { x with pc := r.1, loops := r.2 }
/-- The issuing slot continues at `target` by a taken branch, JAL or JR. -/
def State.jump (s : State) (target : Word) : State :=
  s.modCur fun x => { x with pc := target, loops := if x.ih then x.loops else loopJump target x.loops }

/-! ## Tokens and counted packets -/

/-- Something sent from a plot's slot towards a unit, leaving when the named requests are released (R113, R348, R351). -/
def State.post (s : State) (plot slot dst : Nat) (waits : List Nat) (p : Payload) : State :=
  { s with outs := tset s.outs s.nextId ⟨dieOf plot, dst, plot, slot, waits, p, (s.slotAt plot slot).prioEff⟩, nextId := s.nextId + 1 }

/-- A unit that takes counted packets is removed: a die, or 8 + the die of a logic base. -/
def State.unitRemoved (s : State) (unit : Nat) : Bool := s.isRemoved (unitDie unit)
/-- A die may assign its next sequence number towards a unit (R118, R122): no rebase stops it, fewer than 512 packets are
undelivered there, and every present die has covered all but the last 511 numbers. -/
def State.maySend (s : State) (src dst : Nat) : Bool :=
  let c := s.causalAt src
  s.rebasing == .none && decide (tget 0 c.undeliv dst < 512)
    && (List.range 8).all fun d => d == src || s.isRemoved d || decide ((c.seq + 1 - vecAt (s.causalAt d).cv src).toNat < 512)
/-- What is to leave its die waits at its source port, since no sequence number can be assigned (R118, R122): its issuer stalls. -/
def State.outStalls (s : State) (o : Out) : Bool :=
  o.dst != o.src && decide (o.dst < 16) && o.waits.all s.relOk && !s.unitRemoved o.dst && !s.maySend o.src o.dst
/-- A stream word or binding stalls behind its own write (R118). -/
def State.engineStalls (s : State) (id : Nat) : Bool :=
  s.outs.any fun e => (match e.2.payload with
    | .writes w _ _ => w == id
    | _ => false) && s.outStalls e.2

/-- Reserved bits of MQDST (R150), pmod among them when peer is 0. -/
def mqdstBad (m : Word) : Bool :=
  m &&& 0xFFFFFFFF0FF8E000 != 0 || (!m.getLsbD 31 && m.extractLsb' 28 3 != 0)
/-- Units from 24 on are the peer modules of R127. -/
def peerUnit : Nat := 24
/-- Where a flit of slot `k` of plot `p` to MQDST goes, or the trap of R151. -/
def State.flitUnit (s : State) (p k : Nat) : Except Trap Nat :=
  let m := (s.slotAt p k).mqdst
  let dst := (m.extractLsb' 0 13).toNat
  if mqdstBad m || !isCellPlot dst || (m.getLsbD 31 && !s.peers.getLsbD (m.extractLsb' 28 3).toNat) then .error (mkTrap 0x0A m)
  else if m.getLsbD 31 then .ok (peerUnit + (m.extractLsb' 28 3).toNat)
  else if s.isRemoved (dieOf dst) then .error ⟨0x48, m, BitVec.ofNat 64 (dieOf dst)⟩
  else .ok (dieOf dst)
/-- The flit with a value that slot `k` of plot `p` sends to MQDST (R150, R151). -/
def State.flitOf (s : State) (p k : Nat) (v : Val) : Payload :=
  let m := (s.slotAt p k).mqdst
  .flit ⟨(m.extractLsb' 0 13).toNat, (m.extractLsb' 16 3).toNat, v, p, k, (s.slotAt p k).prioEff⟩
/-- A flit sent by the issuing slot: it leaves when the slot's earlier accesses are released (R153). -/
def State.sendFlit (s : State) (v : Val) : Except Trap State :=
  let p := s.focus.plot
  let k := s.focus.slot
  match s.flitUnit p k with
  | .error t => .error t
  | .ok u => .ok (s.post p k u (s.classIds p k 7) (s.flitOf p k v))
/-- The flit that the completion of load or atomic `id` sends, in that instruction's place in program order (R180, R327). -/
def State.sendLoaded (s : State) (id p k : Nat) (v : Val) : Except Trap State :=
  match s.flitUnit p k with
  | .error t => .error t
  | .ok u => .ok { s with outs := tset s.outs id ⟨dieOf p, u, p, k, (s.classIds p k 7).filter (· < id), s.flitOf p k v, (s.slotAt p k).prioEff⟩ }

/-- A value written to a g register of the issuing slot (R22-R24): g0 and g31 discard it, g30 sends it. -/
def State.writeG (s : State) (d : GReg) (v : Val) : Except Trap State :=
  if d = 0 ∨ d = 31 then .ok s
  else if d = 30 then s.sendFlit v
  else .ok (s.modCur fun x => x.putG d v)

/-- An instruction that reads `srcs` and writes what `f` makes of them to g[d] (R304, R305): it waits under R180, and a trap
leaves everything as it was but for the trap's own entry. -/
def scalar (size : Nat) (srcs : List GReg) (d : GReg) (f : List Val → Except Trap Val) (s : State) : Result :=
  if s.blocked srcs [d] then .next s
  else match s.badReg (srcs.map fun n => (0, n)) with
    | some t => .next (s.trapNow t)
    | none => match f (s.reads srcs) with
      | .error t => .next (s.trapNow t)
      | .ok v => match (s.afterReads srcs).writeG d v with
        | .error t => .next (s.trapNow t)
        | .ok s' => .next (s'.advance size)

/-- An instruction that reads `srcs` and acts on the state: `f` gives a trap, a wait (none), or the state before the pc moves on
by `size`. -/
def control (size : Nat) (srcs dsts : List GReg) (f : List Val → State → Except Trap (Option State)) (s : State) : Result :=
  if s.blocked srcs dsts then .next s
  else match s.badReg (srcs.map fun n => (0, n)) with
    | some t => .next (s.trapNow t)
    | none => match f (s.reads srcs) (s.afterReads srcs) with
      | .error t => .next (s.trapNow t)
      | .ok none => .next s
      | .ok (some s') => .next (s'.advance size)

/-! ## Memory -/

/-- The window of a physical address. -/
inductive Window where
  | dram
  | deep (die off : Nat)
  | weight (die off : Nat)
  | plot (p off : Nat)
  | control
  | nowhere
  deriving DecidableEq, Repr

/-- The window that holds a physical address (R10). -/
def window (a : Nat) : Window :=
  if a < 0x8000000000 then .dram
  else if 0x10000000000 ≤ a ∧ a < 0x12000000000 then .deep ((a - 0x10000000000) / 0x400000000) ((a - 0x10000000000) % 0x400000000)
  else if 0x20000000000 ≤ a ∧ a < 0x20800000000 then .weight ((a - 0x20000000000) / 0x100000000) ((a - 0x20000000000) % 0x100000000)
  else if 0x30000000000 ≤ a ∧ a < 0x30100000000 then .plot ((a - 0x30000000000) / 0x80000) ((a - 0x30000000000) % 0x80000)
  else if 0xF0000000000 ≤ a then .control
  else .nowhere
/-- The slice plot that a deep SRAM offset has as home (R76). -/
def deepPlot (d off : Nat) : Nat := slicePlot (d * 128 + off / 128 % 128)
/-- What a word that nobody has written reads as: ABSENT in deep SRAM (R132), else zero (log 1). -/
def freshWord (a : Nat) : W32 :=
  match window a with
  | .deep d off => ⟨false, payloadBits 6 (deepPlot d off) 0⟩
  | _ => W32.zero
/-- A byte of that word. -/
def freshByte (a : Nat) : Byte := (freshWord a).bits.extractLsb' (8 * (a % 4)) 8
/-- A byte of memory. -/
def Memory.byte (m : Memory) (a : Nat) : Byte := tget (freshByte a) m.cells a
/-- A byte of memory written; what an unlisted address reads as is not listed. -/
def Memory.setByte (m : Memory) (a : Nat) (b : Byte) : Memory :=
  { m with cells := if b = freshByte a then tdel m.cells a else tset m.cells a b }
/-- `n` bytes from `a`, little-endian (R11). -/
def Memory.bytes (m : Memory) (a : Nat) : (n : Nat) → List Byte
  | 0 => []
  | n + 1 => m.byte a :: m.bytes (a + 1) n
/-- Bytes written from `a`. -/
def Memory.setBytes (m : Memory) (a : Nat) : List Byte → Memory
  | [] => m
  | b :: t => (m.setByte a b).setBytes (a + 1) t
/-- A 32-bit word at a multiple of 4 with its validity bit (R69). -/
def Memory.word (m : Memory) (a : Nat) : W32 :=
  ⟨(freshWord a).valid != nmem m.odd (a / 4), m.byte (a + 3) ++ m.byte (a + 2) ++ m.byte (a + 1) ++ m.byte a⟩
/-- A word's validity bit set. -/
def Memory.setValid (m : Memory) (a : Nat) (v : Bool) : Memory :=
  { m with odd := if v = (freshWord a).valid then ndel m.odd (a / 4) else nins m.odd (a / 4) }
/-- A 32-bit word written with its validity. -/
def Memory.setWord (m : Memory) (a : Nat) (w : W32) : Memory :=
  (m.setBytes a [w.bits.extractLsb' 0 8, w.bits.extractLsb' 8 8, w.bits.extractLsb' 16 8, w.bits.extractLsb' 24 8]).setValid a w.valid
/-- `n` words from `a`. -/
def Memory.words (m : Memory) (a : Nat) : (n : Nat) → List W32
  | 0 => []
  | n + 1 => m.word a :: m.words (a + 4) n
/-- Words written from `a`. -/
def Memory.setWords (m : Memory) (a : Nat) : List W32 → Memory
  | [] => m
  | w :: t => (m.setWord a w).setWords (a + 4) t
/-- The bytes of words from `a` that an unlisted address would not read as. -/
def newCells (a : Nat) : List W32 → List Host.Cell
  | [] => []
  | w :: t => (([0, 1, 2, 3].map fun i => (a + i, w.bits.extractLsb' (8 * i) 8)).filter fun e => e.2 != freshByte e.1) ++ newCells (a + 4) t
/-- The words of a list at `a` whose validity an unlisted word would not have. -/
def newOdd (a : Nat) : List W32 → NSet
  | [] => []
  | w :: t => if w.valid = (freshWord a).valid then newOdd (a + 4) t else a / 4 :: newOdd (a + 4) t
/-- A long list of words written from a multiple of 4 at once. -/
def Memory.setBulk (m : Memory) (a : Nat) (ws : List W32) : Memory :=
  let z := a + 4 * ws.length
  { m with cells := m.cells.filter (fun e => decide (e.1 < a)) ++ newCells a ws ++ m.cells.filter (fun e => decide (z ≤ e.1)),
           odd := m.odd.filter (fun k => decide (k < a / 4)) ++ newOdd a ws ++ m.odd.filter (fun k => decide (z / 4 ≤ k)) }
/-- Full/empty bit of the granule that holds `a` (R157). -/
def Memory.fe (m : Memory) (a : Nat) : Bool := nmem m.full (a / 16)
/-- That bit set. -/
def Memory.setFe (m : Memory) (a : Nat) (full : Bool) : Memory :=
  { m with full := if full then nins m.full (a / 16) else ndel m.full (a / 16) }

/-! ## Windows, homes, backing (R10, R76, R79, R131, R154) -/

/-- Parity of the set bits. -/
def parityBit (v : BitVec 48) : Bool := (List.range 48).foldl (fun b i => b != v.getLsbD i) false
/-- The address partition that selects a DRAM address (R79). -/
def State.partitionOf (s : State) (a : Nat) : Option PartitionVal :=
  ((List.range 8).map (tget partitionInit s.partitions)).find? fun p => p.en && p.base.toNat ≤ a / 0x200000 && a / 0x200000 ≤ p.limit.toNat
/-- The home slice of a DRAM address under a partition (R79). -/
def homeSlice (p : PartitionVal) (a : Nat) : Nat :=
  let i := (List.range 10).foldl (fun n k => n + if parityBit (BitVec.ofNat 48 a &&& p.masks.getD k 0) then 2 ^ k else 0) 0
  (p.remap.getD (i / 128) 0).toNat * 128 + i % 128
/-- The saved context that holds a plot, if its instance is saved and RESTC has not read it back (R408). -/
def State.ctxOf (s : State) (p : Nat) : Option Ctx := s.insts.findSome? fun i => i.2.ctx.find? fun c => c.plot == p && !c.restored
/-- Scratchpad size of a plot (R154). -/
def State.spad (s : State) (p : Nat) : Nat := 0x80000 - (s.plotAt p).l1size * 0x10000
/-- The address is backed storage that exposes words (R76, R77, R131, R154). The partitions cover DRAM; what a stack holds is no bound of its own
(log 112). -/
def State.backed (s : State) (a : Nat) : Bool :=
  match window a with
  | .dram => match s.partitionOf a with
    | some p => s.present (homeSlice p a / 128)
    | none => false
  | .deep d off => s.present d && decide (off < (12 - (s.dieAt d).cways.toNat) * 0x40000000)
  | .weight d _ => s.present d
  | .plot p off => s.present (dieOf p) && isCellPlot p && (match s.ctxOf p with
    | some c => !c.discard && decide (off < c.size)
    | none => decide (off < s.spad p))
  | .control | .nowhere => false
/-- Home die of a backed address. -/
def State.homeDie (s : State) (a : Nat) : Nat :=
  match window a with
  | .dram => match s.partitionOf a with
    | some p => homeSlice p a / 128
    | none => 0
  | .deep d _ | .weight d _ => d
  | .plot p _ => dieOf p
  | .control | .nowhere => 0
/-- The plot to which a word that storage made invalid is attributed (R72, R136). -/
def State.homePlot (s : State) (a : Nat) : Nat :=
  match window a with
  | .dram => match s.partitionOf a with
    | some p => slicePlot (homeSlice p a)
    | none => 0
  | .deep d off => deepPlot d off
  | .weight d off =>
    if 0xFC000000 ≤ off then slicePlot (d * 128 + off / 128 % 128)
    else let c := off / 0x1200000 / 8
      d * 1024 + c + c / 7
  | .plot p _ => p
  | .control | .nowhere => 0
/-- Where the words of an address lie: a plot's scratchpad while its instance is saved lies in its context area (R408). Of one that is discarded
only the ranges of pennants are kept, and stay where they are (R162, R406, R407). -/
def State.place (s : State) (a : Nat) : Nat :=
  match window a with
  | .plot p off => match s.ctxOf p with
    | some c => if c.discard then a else c.area + 0x10000 + off
    | none => a
  | _ => a
/-- A word of memory where it lies. -/
def State.memWord (s : State) (a : Nat) : W32 := s.mem.word (s.place a)

/-- The transient region of a DRAM address, with its key, the 2-MiB unit (R83). -/
def State.transientOf (s : State) (a : Nat) : Option (Nat × Transient) :=
  if a < 0x8000000000 then (tfind s.transients (a / 0x200000)).map fun t => (a / 0x200000, t) else none
/-- The region's deadline has come (R84). -/
def State.expired (s : State) (a : Nat) : Bool :=
  match s.transientOf a with
  | some t => decide (t.2.deadline ≤ s.clock)
  | none => false
/-- The transient region was written in this clk: reads of this clk come before (R84), so later ones wait for the next. -/
def State.justWritten (s : State) (a : Nat) : Bool :=
  match s.transientOf a with
  | some t => t.2.wrote == some s.clock
  | none => false
/-- Words read at their home: ABSENT when unbacked, attributed to the issuing plot (R77) or above a scratchpad to its plot (R154),
RETENTION when expired (R84). -/
def State.readWord (s : State) (issuer a : Nat) : W32 :=
  if !s.backed a then ⟨false, payloadBits 6 (match window a with
    | .plot p _ => if s.present (dieOf p) && isCellPlot p then p else issuer
    | _ => issuer) 0⟩
  else if s.expired a then ⟨false, payloadBits 5 (s.homePlot a) 0⟩
  else s.memWord a
/-- `n` words read at their homes. -/
def State.readWords (s : State) (issuer a : Nat) : (n : Nat) → List W32
  | 0 => []
  | n + 1 => s.readWord issuer a :: s.readWords issuer (a + 4) n

/-- A line written in a transient region (R84): its bit, and the new deadline when every line has one. -/
def State.touch (s : State) (a : Nat) : State :=
  match s.transientOf a with
  | some (k, t) =>
    let bits := nins t.bits (a % 0x200000 / 64)
    if bits.length = 32768 then
      { s with transients := tset s.transients k { t with bits := [], deadline := s.clock + t.life * 1900, wrote := some s.clock } }
    else { s with transients := tset s.transients k { t with bits, wrote := some s.clock } }
  | none => s

/-- A trigger entry fires (R355). -/
def State.fireTrigger (s : State) (p e : Nat) : State :=
  match tfind (s.plotAt p).triggers e with
  | none => s
  | some t => match t.handler with
    | some k => if (s.slotAt p k.toNat).credits = 0xFFFF then s.logRec 0x0B (p + e * 65536) 0
      else s.modSlot p k.toNat fun x => { x with credits := x.credits + 1 }
    | none => if t.pending = 0xFFFF then s.logRec 0x0B (p + e * 65536) 0
      else s.modPlot p fun x => { x with triggers := tset x.triggers e { t with pending := t.pending + 1 } }
/-- Trigger entries of a plot that meet a condition. -/
def State.trigEntries (s : State) (p : Nat) (f : Trigger → Bool) : List Nat := ((s.plotAt p).triggers.filter fun e => f e.2).map (·.1)
/-- A request changed. -/
def State.setReq (s : State) (id : Nat) (r : Req) : State := { s with reqs := tset s.reqs id r }
/-- The later requests of a slot that an acquire orders carry the vector merged by its response (R116, R184, R329). -/
def State.raiseStamps (s : State) (id : Nat) (r : Req) : State :=
  let dv := (s.causalAt (dieOf r.plot)).dv
  { s with reqs := tmap s.reqs fun j y =>
      if id < j ∧ y.plot = r.plot ∧ y.slot = r.slot ∧ y.stage = .issued ∧ (r.oc = 7 ∨ y.oc = 7 ∨ y.oc = r.oc) then { y with stamp := dv } else y }
/-- A read performed at its home with words `ws`: same-die data is back at once, and an acquire invalidates the plot's L1 and orders
what was issued behind it (R184, R329); another die's response carries its stamp (R116). -/
def State.respond (s : State) (id : Nat) (r : Req) (ws : List W32) : State :=
  if r.unit = dieOf r.plot || r.unit = 16 then
    let s2 := s.setReq id { r with stage := .served, resp := ws }
    if r.acq then (s2.flushL1 r.plot).raiseStamps id r else s2
  else s.setReq id { r with stage := .answering (s.respStamp r.unit), resp := ws }
/-- The LDFE that has waited longest on a granule (R194). -/
def State.feWaiter (s : State) (g : Nat) : Option (Nat × Req) :=
  s.reqs.foldl (fun best e =>
    let waits := (match e.2.op with
      | .ldfe _ => true
      | _ => false) && e.2.stage == .issued && e.2.arr != 0 && e.2.pa.toNat / 16 == g
    if !waits then best else match best with
      | some b => if b.2.arr ≤ e.2.arr then best else some e
      | none => some e) none
/-- The granule that holds `a` has become full: the waiting LDFEs, at most `n`, are served in arrival order up to and including the first
LDFE.clr, which empties it (R193, R194). -/
def State.serveFill (s : State) (a : Nat) : (n : Nat) → State
  | 0 => s
  | n + 1 => match s.feWaiter (a / 16) with
    | none => s
    | some (id, r) =>
      let s1 := s.respond id r (s.readWords r.plot r.pa.toNat 2)
      if r.op == .ldfe true then { s1 with mem := s1.mem.setFe (s1.place a) false } else s1.serveFill a n
/-- A granule's bit set, with the triggers of its change from empty to full (R157, R354) and the LDFEs that waited for it (R194). -/
def State.setFe (s : State) (a : Nat) (full : Bool) : State :=
  let was := s.mem.fe (s.place a)
  let s1 := { s with mem := s.mem.setFe (s.place a) full }
  match window a with
  | .plot p off => if full && !was then
      ((s.trigEntries p fun t => t.kind == 0 && t.off.toNat / 16 == off / 16).foldl (fun s e => s.fireTrigger p e) s1).serveFill a s.reqs.length
    else s1
  | _ => s1

/-- A word written at its home by an engine: transient bookkeeping, the word, and its granule full when it is the granule's
highest word (R157). Unbacked addresses take nothing. -/
def State.engineWrite (s : State) (a : Nat) (w : W32) : State :=
  if !s.backed a then s
  else
    let s1 := { (s.touch a) with mem := s.mem.setWord (s.place a) w }
    match window a with
    | .plot _ _ => if a % 16 = 12 then s1.setFe a true else s1
    | _ => s1
/-- Engine writes of a list of words. -/
def State.engineWrites (s : State) (ws : List (BitVec 48 × W32)) : State := ws.foldl (fun s x => s.engineWrite x.1.toNat x.2) s

/-- Physical base of a plot's scratchpad (R10). -/
def plotBase (p : Nat) : Nat := 0x30000000000 + p * 0x80000
/-- A scratchpad word of a plot as its engine reads it: ABSENT at S and above (R154). -/
def State.spadWord (s : State) (p off : Nat) : W32 :=
  if off < 0x80000 then s.readWord p (plotBase p + off) else ⟨false, payloadBits 6 p 0⟩

end Sys2Proof.Machine
end

