-- ==== Sys2Proof/Machine/Scalar.lean ====
section
/-! DEFINITION. Integer, shift, bit and address instructions (R303-R314). -/

namespace Sys2Proof.Machine

/-- Scalar arithmetic on the operands in order: the first invalid one makes the result invalid with its payload (R303). -/
def arithVal (f : List Word → Word) (vs : List Val) : Val :=
  match vs.find? (!·.valid) with
  | some v => poisonOf v
  | none => .ofWord (f (vs.map (·.bits)))
/-- A two-operand instruction of the R form (R307). -/
def intRR (f : Word → Word → Word) (d a b : GReg) (s : State) : Result :=
  scalar 4 [a, b] d (fun vs => .ok (arithVal (fun w => f (w.getD 0 0) (w.getD 1 0)) vs)) s
/-- A one-operand instruction, or one with an immediate (R309, R311). -/
def intR (size : Nat) (f : Word → Word) (d a : GReg) (s : State) : Result :=
  scalar size [a] d (fun vs => .ok (arithVal (fun w => f (w.getD 0 0)) vs)) s
/-- A division: a valid zero divisor with a valid dividend raises INT_DIVZERO (R308). -/
def intDiv (f : Word → Word → Word) (d a b : GReg) (s : State) : Result :=
  scalar 4 [a, b] d (fun vs =>
    let x := vs.getD 0 .zero
    let y := vs.getD 1 .zero
    if x.valid && y.valid && y.bits == 0 then .error (mkTrap 0x14 x.bits)
    else .ok (arithVal (fun w => f (w.getD 0 0) (w.getD 1 0)) vs)) s

/-- High word of the signed product. -/
def mulHigh (x y : Word) : Word := BitVec.ofInt 64 (x.toInt * y.toInt / 18446744073709551616)
/-- High word of the unsigned product. -/
def mulHighZ (x y : Word) : Word := BitVec.ofNat 64 (x.toNat * y.toNat / 18446744073709551616)
/-- Signed quotient truncated toward zero; −2^63 by −1 wraps to −2^63 (R307). -/
def divS (x y : Word) : Word := BitVec.ofInt 64 (x.toInt.tdiv y.toInt)
/-- Unsigned quotient. -/
def divU (x y : Word) : Word := BitVec.ofNat 64 (x.toNat / y.toNat)
/-- Signed remainder with the sign of x. -/
def remS (x y : Word) : Word := BitVec.ofInt 64 (x.toInt.tmod y.toInt)
/-- Unsigned remainder. -/
def remU (x y : Word) : Word := BitVec.ofNat 64 (x.toNat % y.toNat)
/-- 1 for true, 0 for false. -/
def boolWord (b : Bool) : Word := if b then 1 else 0
/-- Signed less than. -/
def ltS (x y : Word) : Bool := x.toInt < y.toInt
/-- Unsigned less than. -/
def ltU (x y : Word) : Bool := x.toNat < y.toNat

/-- ADD (R307). -/
def execAdd (d a b : GReg) (s : State) : Result := intRR (· + ·) d a b s
/-- SUB (R307). -/
def execSub (d a b : GReg) (s : State) : Result := intRR (· - ·) d a b s
/-- MUL (R307). -/
def execMul (d a b : GReg) (s : State) : Result := intRR (· * ·) d a b s
/-- MULH (R307). -/
def execMulh (d a b : GReg) (s : State) : Result := intRR mulHigh d a b s
/-- MULHZ (R307). -/
def execMulhz (d a b : GReg) (s : State) : Result := intRR mulHighZ d a b s
/-- DIV (R307, R308). -/
def execDiv (d a b : GReg) (s : State) : Result := intDiv divS d a b s
/-- DIVZ (R307, R308). -/
def execDivz (d a b : GReg) (s : State) : Result := intDiv divU d a b s
/-- REM (R307, R308). -/
def execRem (d a b : GReg) (s : State) : Result := intDiv remS d a b s
/-- REMZ (R307, R308). -/
def execRemz (d a b : GReg) (s : State) : Result := intDiv remU d a b s
/-- AND (R307). -/
def execAnd (d a b : GReg) (s : State) : Result := intRR (· &&& ·) d a b s
/-- OR (R307). -/
def execOr (d a b : GReg) (s : State) : Result := intRR (· ||| ·) d a b s
/-- XOR (R307). -/
def execXor (d a b : GReg) (s : State) : Result := intRR (· ^^^ ·) d a b s
/-- ANDN (R307). -/
def execAndn (d a b : GReg) (s : State) : Result := intRR (fun x y => x &&& ~~~y) d a b s
/-- SLT (R307). -/
def execSlt (d a b : GReg) (s : State) : Result := intRR (fun x y => boolWord (ltS x y)) d a b s
/-- SLTZ (R307). -/
def execSltz (d a b : GReg) (s : State) : Result := intRR (fun x y => boolWord (ltU x y)) d a b s
/-- MIN (R307). -/
def execMin (d a b : GReg) (s : State) : Result := intRR (fun x y => if ltS y x then y else x) d a b s
/-- MAX (R307). -/
def execMax (d a b : GReg) (s : State) : Result := intRR (fun x y => if ltS x y then y else x) d a b s
/-- MINZ (R307). -/
def execMinz (d a b : GReg) (s : State) : Result := intRR (fun x y => if ltU y x then y else x) d a b s
/-- MAXZ (R307). -/
def execMaxz (d a b : GReg) (s : State) : Result := intRR (fun x y => if ltU x y then y else x) d a b s
/-- SEL's value (R308): an invalid condition gives its payload, else the selected source with its validity. -/
def selVal (vs : List Val) : Val :=
  let c := vs.getD 2 .zero
  let v := if c.bits = 0 then vs.getD 1 .zero else vs.getD 0 .zero
  if !c.valid then poisonOf c else if v.valid then v else poisonOf v
/-- SEL (R307, R308). -/
def execSel (d a b : GReg) (s : State) : Result := scalar 4 [a, b, d] d (fun vs => .ok (selVal vs)) s

/-- ADD with a 16-bit immediate (R309). -/
def execAddImm (d a : GReg) (imm : BitVec 16) (s : State) : Result := intR 4 (· + imm.signExtend 64) d a s
/-- MUL with a 16-bit immediate (R309). -/
def execMulImm (d a : GReg) (imm : BitVec 16) (s : State) : Result := intR 4 (· * imm.signExtend 64) d a s
/-- AND with a 16-bit immediate (R309). -/
def execAndImm (d a : GReg) (imm : BitVec 16) (s : State) : Result := intR 4 (· &&& imm.signExtend 64) d a s
/-- OR with a 16-bit immediate (R309). -/
def execOrImm (d a : GReg) (imm : BitVec 16) (s : State) : Result := intR 4 (· ||| imm.signExtend 64) d a s
/-- XOR with a 16-bit immediate (R309). -/
def execXorImm (d a : GReg) (imm : BitVec 16) (s : State) : Result := intR 4 (· ^^^ imm.signExtend 64) d a s
/-- SLT with a 16-bit immediate (R309). -/
def execSltImm (d a : GReg) (imm : BitVec 16) (s : State) : Result := intR 4 (fun x => boolWord (ltS x (imm.signExtend 64))) d a s
/-- SLTZ with a 16-bit immediate (R309). -/
def execSltzImm (d a : GReg) (imm : BitVec 16) (s : State) : Result := intR 4 (fun x => boolWord (ltU x (imm.signExtend 64))) d a s
/-- LIH (R310). -/
def execLih (d : GReg) (imm : BitVec 16) (s : State) : Result :=
  scalar 4 [] d (fun _ => .ok (.ofWord ((imm ++ (0 : BitVec 16)).signExtend 64))) s
/-- LI (R36, R310). -/
def execLi (d : GReg) (imm : BitVec 32) (s : State) : Result := scalar 8 [] d (fun _ => .ok (.ofWord (imm.signExtend 64))) s
/-- LI.H (R36, R310): an invalid register stays as it is. -/
def execLiH (d : GReg) (imm : BitVec 32) (s : State) : Result :=
  scalar 8 [d] d (fun vs =>
    let v := vs.getD 0 .zero
    .ok (if v.valid then .ofWord (imm ++ v.bits.extractLsb' 0 32) else v)) s
/-- LEA in its long form (R36, R313). -/
def execLeaLong (d a : GReg) (imm : BitVec 32) (s : State) : Result := intR 8 (· + imm.signExtend 64) d a s
/-- ADD with a 32-bit immediate (R309). -/
def execAddLong (d a : GReg) (imm : BitVec 32) (s : State) : Result := intR 8 (· + imm.signExtend 64) d a s
/-- MUL with a 32-bit immediate (R309). -/
def execMulLong (d a : GReg) (imm : BitVec 32) (s : State) : Result := intR 8 (· * imm.signExtend 64) d a s
/-- AND with a 32-bit immediate (R309). -/
def execAndLong (d a : GReg) (imm : BitVec 32) (s : State) : Result := intR 8 (· &&& imm.signExtend 64) d a s
/-- OR with a 32-bit immediate (R309). -/
def execOrLong (d a : GReg) (imm : BitVec 32) (s : State) : Result := intR 8 (· ||| imm.signExtend 64) d a s
/-- XOR with a 32-bit immediate (R309). -/
def execXorLong (d a : GReg) (imm : BitVec 32) (s : State) : Result := intR 8 (· ^^^ imm.signExtend 64) d a s
/-- SLT with a 32-bit immediate (R309). -/
def execSltLong (d a : GReg) (imm : BitVec 32) (s : State) : Result := intR 8 (fun x => boolWord (ltS x (imm.signExtend 64))) d a s
/-- SLTZ with a 32-bit immediate (R309). -/
def execSltzLong (d a : GReg) (imm : BitVec 32) (s : State) : Result := intR 8 (fun x => boolWord (ltU x (imm.signExtend 64))) d a s

/-! Shift and bit instructions (R311, R312). -/

/-- x << n, zero from 64 on. -/
def shlN (x : Word) (n : Nat) : Word := if n < 64 then x <<< n else 0
/-- x >> n, zero from 64 on. -/
def shrN (x : Word) (n : Nat) : Word := if n < 64 then x >>> n else 0
/-- x >> n with sign fill. -/
def sarN (x : Word) (n : Nat) : Word := x.sshiftRight (min n 63)
/-- x rotated left by n mod 64. -/
def rolN (x : Word) (n : Nat) : Word := x <<< (n % 64) ||| (if n % 64 = 0 then 0 else x >>> (64 - n % 64))
/-- Leading zero bits of the low n bits of x. -/
def clzN (x : Nat) : Nat → Nat
  | 0 => 0
  | n + 1 => if x / 2 ^ n % 2 = 1 then 0 else clzN x n + 1
/-- Trailing zero bits, at most n. -/
def ctzN : Nat → Nat → Nat
  | _, 0 => 0
  | x, n + 1 => if x % 2 = 1 then 0 else ctzN (x / 2) n + 1
/-- One bits among the low n. -/
def popcN : Nat → Nat → Nat
  | _, 0 => 0
  | x, n + 1 => x % 2 + popcN (x / 2) n
/-- The low n bits in reverse order. -/
def brevN : Nat → Nat → Nat → Nat
  | _, 0, acc => acc
  | x, n + 1, acc => brevN (x / 2) n (2 * acc + x % 2)
/-- 2^n − 1 with n = min(g[b][14:8], 64) (R312). -/
def fieldMask (b : Word) : Word := BitVec.ofNat 64 (2 ^ min (b.extractLsb' 8 7).toNat 64 - 1)
/-- The field's position (R312). -/
def fieldPos (b : Word) : Nat := (b.extractLsb' 0 6).toNat
/-- BEXT's value. -/
def bextVal (x y : Word) : Word := (x >>> fieldPos y) &&& fieldMask y
/-- BINS's value. -/
def binsVal (x y old : Word) : Word :=
  let m := fieldMask y <<< fieldPos y
  (old &&& ~~~m) ||| ((x <<< fieldPos y) &&& m)

/-- SHL by a register (R311). -/
def execShl (d a b : GReg) (s : State) : Result := intRR (fun x y => shlN x y.toNat) d a b s
/-- SHL by an immediate. -/
def execShlImm (d a : GReg) (n : BitVec 6) (s : State) : Result := intR 4 (fun x => shlN x n.toNat) d a s
/-- SHR by a register. -/
def execShr (d a b : GReg) (s : State) : Result := intRR (fun x y => shrN x y.toNat) d a b s
/-- SHR by an immediate. -/
def execShrImm (d a : GReg) (n : BitVec 6) (s : State) : Result := intR 4 (fun x => shrN x n.toNat) d a s
/-- SAR by a register. -/
def execSar (d a b : GReg) (s : State) : Result := intRR (fun x y => sarN x y.toNat) d a b s
/-- SAR by an immediate. -/
def execSarImm (d a : GReg) (n : BitVec 6) (s : State) : Result := intR 4 (fun x => sarN x n.toNat) d a s
/-- ROL by a register. -/
def execRol (d a b : GReg) (s : State) : Result := intRR (fun x y => rolN x y.toNat) d a b s
/-- ROL by an immediate. -/
def execRolImm (d a : GReg) (n : BitVec 6) (s : State) : Result := intR 4 (fun x => rolN x n.toNat) d a s
/-- CLZ (R311). -/
def execClz (d a : GReg) (s : State) : Result := intR 4 (fun x => BitVec.ofNat 64 (clzN x.toNat 64)) d a s
/-- CTZ (R311). -/
def execCtz (d a : GReg) (s : State) : Result := intR 4 (fun x => BitVec.ofNat 64 (ctzN x.toNat 64)) d a s
/-- POPC (R311). -/
def execPopc (d a : GReg) (s : State) : Result := intR 4 (fun x => BitVec.ofNat 64 (popcN x.toNat 64)) d a s
/-- BREV (R311). -/
def execBrev (d a : GReg) (s : State) : Result := intR 4 (fun x => BitVec.ofNat 64 (brevN x.toNat 64 0)) d a s
/-- BEXT (R312). -/
def execBext (d a b : GReg) (s : State) : Result := intRR bextVal d a b s
/-- BINS (R312). -/
def execBins (d a b : GReg) (s : State) : Result :=
  scalar 4 [a, b, d] d (fun vs => .ok (arithVal (fun w => binsVal (w.getD 0 0) (w.getD 1 0) (w.getD 2 0)) vs)) s

/-! Address instructions (R313, R314). -/

/-- LEA (R313). -/
def execLea (d a b : GReg) (sc : BitVec 3) (s : State) : Result := intRR (fun x y => x + y <<< sc.toNat) d a b s
/-- IDX2's value (R314). -/
def idx2Val (plot : Nat) (sc : BitVec 3) (vs : List Val) : Val :=
  match vs.find? (!·.valid) with
  | some v => poisonOf v
  | none =>
    let x := (vs.getD 0 .zero).bits
    let y := (vs.getD 1 .zero).bits
    let row := (x.extractLsb' 0 32).toNat
    let col := (x.extractLsb' 32 32).toNat
    let pitch := (y.extractLsb' 0 32).toNat
    if (y.extractLsb' 32 32).toNat ≤ row || pitch ≤ col then invVal 0x04 plot
    else .ofWord (BitVec.ofNat 64 ((row * pitch + col) * 2 ^ sc.toNat))
/-- IDX2 (R314). -/
def execIdx2 (d a b : GReg) (sc : BitVec 3) (s : State) : Result :=
  scalar 4 [a, b] d (fun vs => .ok (idx2Val s.focus.plot sc vs)) s
/-- PACK (R313). -/
def execPack (d a b : GReg) (s : State) : Result := intRR (fun x y => y.extractLsb' 0 32 ++ x.extractLsb' 0 32) d a b s

end Sys2Proof.Machine
end

