-- ==== Sys2Proof/Machine/Control.lean ====
section
/-! DEFINITION. Branches, jumps and LOOP (R315-R317, R320, R321). YIELD is with the actors. -/

namespace Sys2Proof.Machine

/-- The first invalid operand's trap, if any (R303). -/
def consume (vs : List Val) : Option Trap := (vs.find? (!·.valid)).map poisonTrap

/-- An instruction that reads operands and decides where control goes: `f` gives a trap, a target, or falling through (none). -/
def transfer (srcs : List GReg) (f : List Val → Except Trap (Option Word)) (s : State) : Result :=
  if s.blocked srcs [] then .next s
  else match s.badReg (srcs.map fun n => (0, n)) with
    | some t => .next (s.trapNow t)
    | none => match f (s.reads srcs) with
      | .error t => .next (s.trapNow t)
      | .ok none => .next ((s.afterReads srcs).advance 4)
      | .ok (some t) => .next ((s.afterReads srcs).jump t)

/-- PC + 4 × an offset (R29). -/
def pcRel (pc off : Word) : Word := pc + (off <<< 2)

/-- A compare branch (R315). -/
def branch (f : Word → Word → Bool) (a b : GReg) (imm : BitVec 16) (s : State) : Result :=
  transfer [a, b] (fun vs => match consume vs with
    | some t => .error t
    | none => .ok (if f (vs.getD 0 .zero).bits (vs.getD 1 .zero).bits then some (pcRel s.cur.pc (imm.signExtend 64)) else none)) s

/-- BEQ (R315). -/
def execBeq (a b : GReg) (imm : BitVec 16) (s : State) : Result := branch (· == ·) a b imm s
/-- BNE (R315). -/
def execBne (a b : GReg) (imm : BitVec 16) (s : State) : Result := branch (· != ·) a b imm s
/-- BLT (R315). -/
def execBlt (a b : GReg) (imm : BitVec 16) (s : State) : Result := branch ltS a b imm s
/-- BGE (R315). -/
def execBge (a b : GReg) (imm : BitVec 16) (s : State) : Result := branch (fun x y => !ltS x y) a b imm s
/-- BLO (R315). -/
def execBlo (a b : GReg) (imm : BitVec 16) (s : State) : Result := branch ltU a b imm s
/-- BHS (R315). -/
def execBhs (a b : GReg) (imm : BitVec 16) (s : State) : Result := branch (fun x y => !ltU x y) a b imm s
/-- A validity branch (R316). -/
def branchVal (want : Bool) (a : GReg) (imm : BitVec 16) (s : State) : Result :=
  transfer [a] (fun vs => .ok (if (vs.getD 0 .zero).valid == want then some (pcRel s.cur.pc (imm.signExtend 64)) else none)) s
/-- BVAL (R316). -/
def execBval (a : GReg) (imm : BitVec 16) (s : State) : Result := branchVal true a imm s
/-- BINV (R316). -/
def execBinv (a : GReg) (imm : BitVec 16) (s : State) : Result := branchVal false a imm s

/-- A link written and a jump taken. A link in g30 is a flit (R24). -/
def linkJump (srcs : List GReg) (d : GReg) (link target : Word) (s : State) : Result :=
  match (s.afterReads srcs).writeG d (.ofWord link) with
  | .error t => .next (s.trapNow t)
  | .ok s' => .next (s'.jump target)
/-- JAL (R317). -/
def execJal (d : GReg) (imm : BitVec 21) (s : State) : Result :=
  if s.blocked [] [d] then .next s else linkJump [] d (s.cur.pc + 4) (pcRel s.cur.pc (imm.signExtend 64)) s
/-- JAL in its long form: the link is PC + 8 (R317). -/
def execJalLong (d : GReg) (imm : BitVec 32) (s : State) : Result :=
  if s.blocked [] [d] then .next s else linkJump [] d (s.cur.pc + 8) (pcRel s.cur.pc (imm.signExtend 64)) s
/-- JR (R318). -/
def execJr (d a : GReg) (s : State) : Result :=
  if s.blocked [a] [d] then .next s
  else match s.badReg [(0, a)] with
    | some t => .next (s.trapNow t)
    | none =>
      let v := (s.reads [a]).getD 0 .zero
      if !v.valid then .next (s.trapNow (poisonTrap v))
      else if v.bits &&& 3 != 0 then .next (s.trapNow (mkTrap 0x0B v.bits))
      else linkJump [a] d (s.cur.pc + 4) v.bits s

/-- The first word of LOOP, which ILLEGAL reports (R320). -/
def loopWord (a : GReg) (n : BitVec 16) : Word := ((0x0E#6 ++ (0 : BitVec 5) ++ a ++ n).zeroExtend 64)
/-- LOOP (R320); in a handler it is ILLEGAL (R388). -/
def execLoop (a : GReg) (n : BitVec 16) (s : State) : Result :=
  if s.blocked [a] [] then .next s
  else match s.badReg [(0, a)] with
    | some t => .next (s.trapNow t)
    | none =>
      let x := s.cur
      let v := (s.reads [a]).getD 0 .zero
      let first := x.pc + 4
      let last := x.pc + n.signExtend 64 <<< 2
      let count := v.bits.extractLsb' 0 32
      let deep := 4 ≤ x.loops.length || (match x.loops with
        | e :: _ => decide (e.last < last)
        | [] => false)
      if x.ih then .next (s.trapNow ⟨0x01, loopWord a n, 31⟩)
      else if !v.valid then .next (s.trapNow (poisonTrap v))
      else if count = 0 then .next ((s.afterReads [a]).modCur fun x => { x with pc := last + 4 })
      else if deep then .next (s.trapNow ⟨0x01, loopWord a n, 31⟩)
      else .next ((s.afterReads [a]).modCur fun x => { x with pc := first, loops := ⟨first, last, count⟩ :: x.loops })

end Sys2Proof.Machine
end

