-- ==== Sys2Proof/Machine/Numeric.lean ====
section
/-! DEFINITION. Exact numbers and rounding (R48-R64): floats, integers and LG6 codes decoded to exact dyadic values, exact
arithmetic on them, one rounding at the end with the flags of R62. -/

namespace Sys2Proof.Machine

/-- Flags as FPSTAT holds them (R397): [0] invalid, [1] divzero, [2] overflow, [3] underflow, [4] inexact, [5] sat. -/
abbrev Flags := BitVec 6
/-- invalid -/
def fInvalid : Flags := 1
/-- divzero -/
def fDivzero : Flags := 2
/-- overflow -/
def fOverflow : Flags := 4
/-- underflow -/
def fUnderflow : Flags := 8
/-- inexact -/
def fInexact : Flags := 16
/-- sat -/
def fSat : Flags := 32

/-- A decoded number: a NaN (quiet or signalling), an infinity, or ±m x 2^e. -/
inductive Num where
  | nan (signalling : Bool)
  | inf (neg : Bool)
  | fin (neg : Bool) (m : Nat) (e : Int)
  deriving DecidableEq, Repr

/-- Width in bits of a format's lanes (R48); NONE is read as 32-bit words. -/
def fmtWidth (f : Nat) : Nat :=
  match f with
  | 1 | 10 => 64
  | 0 | 2 | 9 => 32
  | 3 | 4 | 8 => 16
  | 5 | 6 | 7 | 12 => 8
  | 11 => 6
  | _ => 32
/-- A floating-point format. -/
def isFloat (f : Nat) : Bool := 1 ≤ f && f ≤ 6
/-- An integer format. -/
def isInt (f : Nat) : Bool := (7 ≤ f && f ≤ 10) || f == 12
/-- A format that takes a scale (R52). -/
def takesScale (f : Nat) : Bool := f == 5 || f == 6 || f == 7 || f == 12 || f == 11
/-- Exponent bits of a float format (R53). -/
def expBits (f : Nat) : Nat :=
  match f with
  | 1 => 11 | 2 | 3 => 8 | 4 | 6 => 5 | _ => 4
/-- Stored fraction bits of a float format (R53). -/
def fracBits (f : Nat) : Nat :=
  match f with
  | 1 => 52 | 2 => 23 | 3 => 7 | 4 => 10 | 6 => 2 | _ => 3
/-- Exponent bias (R53). -/
def fBias (f : Nat) : Int := 2 ^ (expBits f - 1) - 1
/-- Canonical NaN (R53, R54). -/
def canonNaN (f : Nat) : Nat :=
  if f == 5 then 0x7F else (2 ^ expBits f - 1) * 2 ^ fracBits f + 2 ^ (fracBits f - 1)
/-- Infinity's bits; E4M3 has none and gives its NaN, of sign 0 (R64). -/
def infBits (f : Nat) (neg : Bool) : Nat :=
  if f == 5 then 0x7F else (2 ^ expBits f - 1) * 2 ^ fracBits f + if neg then 2 ^ (expBits f + fracBits f) else 0
/-- The largest finite magnitude's bits (R53). -/
def maxBits (f : Nat) : Nat := if f == 5 then 0x7E else (2 ^ expBits f - 1) * 2 ^ fracBits f - 1

/-- A float's value (R53, R54). -/
def decodeFloat (f bits : Nat) : Num :=
  let mb := fracBits f
  let neg := bits / 2 ^ (expBits f + mb) % 2 == 1
  let ex := bits / 2 ^ mb % 2 ^ expBits f
  let fr := bits % 2 ^ mb
  if f == 5 && ex == 15 && fr == 7 then .nan false
  else if f != 5 && ex == 2 ^ expBits f - 1 then (if fr == 0 then .inf neg else .nan (fr / 2 ^ (mb - 1) == 0))
  else if ex == 0 then .fin neg fr (1 - fBias f - mb)
  else .fin neg (fr + 2 ^ mb) (ex - fBias f - mb)

/-- A two's-complement or unsigned integer's value (R55). -/
def intValue (f bits : Nat) : Int :=
  if f == 12 then bits else if bits < 2 ^ (fmtWidth f - 1) then bits else (bits : Int) - 2 ^ fmtWidth f

/-- Magnitudes of LG6 within an octave (R56). -/
def lgTable (i : Nat) : Nat := [128, 152, 181, 215].getD i 0
/-- l of an LG6 code. -/
def lgL (c : Nat) : Int := if c % 32 < 16 then (c % 32 : Int) else (c % 32 : Int) - 32
/-- An LG6 code's value (R56). -/
def decodeLg (c : Nat) : Num :=
  if c == 0x30 then .fin false 0 0
  else .fin (c / 32 % 2 == 1) (lgTable ((lgL c) % 4).toNat) (lgL c / 4 - 7)

/-- The value of the bits of a lane in a format. -/
def decodeNum (f bits : Nat) : Num :=
  if isFloat f then decodeFloat f bits
  else if f == 11 then decodeLg bits
  else .fin (intValue f bits < 0) (intValue f bits).natAbs 0

/-- A number times 2^k, exactly (R52). -/
def Num.scale (x : Num) (k : Int) : Num :=
  match x with
  | .fin n m e => .fin n m (e + k)
  | x => x
/-- The number's sign is minus. -/
def Num.neg (x : Num) : Bool :=
  match x with
  | .nan _ => false
  | .inf n => n
  | .fin n _ _ => n
/-- The number negated; NaN stays. -/
def Num.negate (x : Num) : Num :=
  match x with
  | .nan s => .nan s
  | .inf n => .inf !n
  | .fin n m e => .fin (!n) m e
/-- It is a NaN. -/
def Num.isNaN (x : Num) : Bool :=
  match x with
  | .nan _ => true
  | _ => false
/-- It is a signalling NaN. -/
def Num.isSig (x : Num) : Bool :=
  match x with
  | .nan s => s
  | _ => false
/-- It is zero. -/
def Num.isZero (x : Num) : Bool :=
  match x with
  | .fin _ m _ => m == 0
  | _ => false

/-- An integer a times 2^e as an exact value at exponent `lo` ≤ e. -/
def alignTo (neg : Bool) (m : Nat) (e lo : Int) : Int :=
  (if neg then -1 else 1) * ((m <<< (e - lo).toNat : Nat) : Int)

/-- Does rounding go up in magnitude? `n` kept units, `rem` of 2^k units dropped, `sticky` more below (R61). -/
def roundsUp (mode : Nat) (neg : Bool) (n rem k : Nat) (sticky : Bool) : Bool :=
  let any := rem != 0 || sticky
  let half := if k == 0 then 1 else 2 ^ (k - 1)
  let hi := k != 0 && (half < rem || (rem == half && sticky))
  let tie := k != 0 && rem == half && !sticky
  match mode with
  | 0 => hi || (tie && n % 2 == 1)
  | 1 => false
  | 2 => any && !neg
  | 3 => any && neg
  | _ => hi || tie

/-- A magnitude m x 2^e (a little more when `sticky`) rounded to a multiple of 2^q. -/
def roundAt (mode : Nat) (neg : Bool) (m : Nat) (e q : Int) (sticky : Bool) : Nat × Bool :=
  if q ≤ e then
    let n := m <<< (e - q).toNat
    (n + (if roundsUp mode neg (2 * n) 0 1 sticky then 1 else 0), sticky)
  else
    let k := (q - e).toNat
    let n := m / 2 ^ k
    let r := m % 2 ^ k
    (n + (if roundsUp mode neg n r k sticky then 1 else 0), r != 0 || sticky)

/-- A finite value rounded once into a float format with overflow as R64 says; bits and flags (R62, R63). -/
def roundFloat (f mode : Nat) (sat : Bool) (neg : Bool) (m : Nat) (e : Int) (sticky : Bool) : Nat × Flags :=
  let mb : Int := fracBits f
  let sign := if neg then 2 ^ (expBits f + fracBits f) else 0
  if m == 0 && !sticky then (sign, 0)
  else
    let emin := 1 - fBias f
    let l := (if m == 0 then 0 else (Nat.log2 m : Int)) + e
    let q := max (l - mb) (emin - mb)
    let (n, inex) := roundAt mode neg m e q sticky
    let maxQ := (if f == 5 then 8 else fBias f) - mb
    let maxN := if f == 5 then 2 ^ (fracBits f + 1) - 2 else 2 ^ (fracBits f + 1) - 1
    if maxQ < q || (q == maxQ && maxN < n) then
      if sat then (sign + maxBits f, fSat ||| fInexact)
      else
        let toInf := mode == 0 || 4 ≤ mode || (mode == 2 && !neg) || (mode == 3 && neg)
        ((if toInf then infBits f neg else sign + maxBits f), fOverflow ||| fInexact)
    else
      let (nu, _) := roundAt mode neg m e (l - mb) sticky
      let tiny := l - mb < emin - mb && nu < 2 ^ ((emin - (l - mb)).toNat)
      (sign + (q - (emin - mb)).toNat * 2 ^ fracBits f + n,
        (if inex then fInexact else 0) ||| (if tiny && inex then fUnderflow else 0))

/-- A value encoded into a float format by a conversion (R63, R64): NaN canonical, an infinity as the sat bit says. -/
def encodeFloat (f mode : Nat) (sat : Bool) (x : Num) : Nat × Flags :=
  match x with
  | .nan s => (canonNaN f, if s then fInvalid else 0)
  | .inf n =>
    if sat then (maxBits f + (if n then 2 ^ (expBits f + fracBits f) else 0), fSat)
    else (infBits f n, if f == 5 then fInvalid else 0)
  | .fin n m e => roundFloat f mode sat n m e false

/-- A value rounded and saturated into an integer format (R63); none for a NaN, which makes the word invalid. -/
def encodeInt (f mode : Nat) (x : Num) : Option Nat × Flags :=
  let w := fmtWidth f
  let hi : Int := if f == 12 then 255 else 2 ^ (w - 1) - 1
  let lo : Int := if f == 12 then 0 else -(2 ^ (w - 1))
  let out (v : Int) : Nat := (if v < 0 then v + 2 ^ w else v).toNat
  match x with
  | .nan _ => (none, fInvalid)
  | .inf n => (some (out (if n then lo else hi)), fSat)
  | .fin n m e =>
    let (r, inex) := roundAt mode n m e 0 false
    let v : Int := if n then -(r : Int) else r
    let fi : Flags := if inex then fInexact else 0
    if hi < v then (some (out hi), fSat ||| fi) else if v < lo then (some (out lo), fSat ||| fi) else (some (out v), fi)

/-- A value encoded into LG6 (R60); none for a NaN. -/
def encodeLg (x : Num) : Option Nat × Flags :=
  match x with
  | .nan _ => (none, fInvalid)
  | .inf n => (some (if n then 32 + 15 else 15), fSat)
  | .fin n m e =>
    if m == 0 then (some 0x30, 0)
    else
      let cmp (num : Nat) (ex : Int) : Ordering := -- compares m * 2^e with num * 2^ex
        let lo := min e ex
        compare (m <<< (e - lo).toNat) (num <<< (ex - lo).toNat)
      let s := if n then 32 else 0
      let le (num : Nat) (ex : Int) : Bool := cmp num ex != .gt
      let lt (num : Nat) (ex : Int) : Bool := cmp num ex == .lt
      if n && le 19 (-9) then (some 0x30, 0)                 -- |x| ≤ 0.037109375
      else if n && lt 333 (-12) then (some (32 + 17), 0)      -- |x| < 0.081298828125: l = -15
      else if !n && le 1 (-5) then (some 0x30, 0)             -- x ≤ 0.03125
      else if !n && lt 1 (-4) then (some 16, 0)               -- x < 0.0625: l = -16
      else if !le 215 (-4) then (some (s + 15), fSat)         -- |x| > 13.4375
      else
        let k : Int := (Nat.log2 m : Int) + e
        let c (t : Nat) : Ordering := cmp t (k - 8)
        let l : Int :=
          if c 280 != .gt then 4 * k
          else if c 333 == .lt then 4 * k + 1
          else if c 396 != .gt then 4 * k + 2
          else if k == 3 then 15
          else if c 471 == .lt then 4 * k + 3
          else 4 * (k + 1)
        (some (s + (if l < 0 then l + 32 else l).toNat), 0)

/-- A value converted into any format (R63): bits, or none for an invalid word with reason POISON_FP, and flags. -/
def encodeNum (f mode : Nat) (sat : Bool) (x : Num) : Option Nat × Flags :=
  if isFloat f then let r := encodeFloat f mode sat x
    (some r.1, r.2)
  else if f == 11 then encodeLg x
  else encodeInt f mode x

/-! Exact arithmetic with the special values of IEEE 754-2019. A result carries flags and a sticky bit. -/

/-- The exact sum of two numbers; an exact zero is plus, minus under RDN or when both terms are −0 (R289). -/
def addNum (mode : Nat) (x y : Num) : Num × Flags :=
  match x, y with
  | .nan a, .nan b => (.nan false, if a || b then fInvalid else 0)
  | .nan a, _ => (.nan false, if a then fInvalid else 0)
  | _, .nan b => (.nan false, if b then fInvalid else 0)
  | .inf a, .inf b => if a == b then (.inf a, 0) else (.nan false, fInvalid)
  | .inf a, _ => (.inf a, 0)
  | _, .inf b => (.inf b, 0)
  | .fin a m e, .fin b n g =>
    let lo := min e g
    let v := alignTo a m e lo + alignTo b n g lo
    if v == 0 then
      let both := m == 0 && n == 0 && a && b
      (.fin (both || mode == 3) 0 0, 0)
    else (.fin (v < 0) v.natAbs lo, 0)

/-- The exact product. -/
def mulNum (x y : Num) : Num × Flags :=
  match x, y with
  | .nan a, .nan b => (.nan false, if a || b then fInvalid else 0)
  | .nan a, _ => (.nan false, if a then fInvalid else 0)
  | _, .nan b => (.nan false, if b then fInvalid else 0)
  | .inf a, y => if y.isZero then (.nan false, fInvalid) else (.inf (a != y.neg), 0)
  | x, .inf b => if x.isZero then (.nan false, fInvalid) else (.inf (x.neg != b), 0)
  | .fin a m e, .fin b n g => (.fin (a != b) (m * n) (e + g), 0)

/-- Integer square root, floor, bit by bit over `k` bits. -/
def isqrt : (k : Nat) → (v r : Nat) → Nat
  | 0, _, r => r
  | k + 1, v, r => let t := r + 2 ^ k
    isqrt k v (if t * t ≤ v then t else r)

/-- A positive result known to many bits: m x 2^e, and more below when sticky. -/
structure Approx where
  m : Nat
  e : Int
  sticky : Bool

/-- m1 / m2 to at least 120 bits. -/
def divApprox (m : Nat) (e : Int) (n : Nat) (g : Int) : Approx :=
  let k := 120 + Nat.log2 n
  ⟨(m <<< k) / n, e - g - k, (m <<< k) % n != 0⟩
/-- √(m x 2^e) to at least 64 bits. -/
def sqrtApprox (m : Nat) (e : Int) : Approx :=
  let odd := e % 2 != 0
  let v := (if odd then 2 * m else m) <<< 160
  let r := isqrt (Nat.log2 v / 2 + 1) v 0
  ⟨r, (if odd then e - 1 else e) / 2 - 80, r * r != v⟩
/-- 1 / √(m x 2^e) to at least 100 bits. -/
def rsqrtApprox (m : Nat) (e : Int) : Approx :=
  let odd := e % 2 != 0
  let m' := if odd then 2 * m else m
  let k := 128 + Nat.log2 m'
  let v := 2 ^ (2 * k) / m'
  let r := isqrt (k + 1) v 0
  ⟨r, -((if odd then e - 1 else e) / 2) - k, r * r * m' != 2 ^ (2 * k)⟩

/-- Bits of precision kept for 2^x and log2 (log 7). -/
def exPrec : Nat := 256
/-- Product of the 2^(2^-i) of the set bits of a fraction, in units of 2^-exPrec, rounded down; `root` is 2^(2^-(i-1)). -/
def exp2Frac : (n : Nat) → (bits : Nat) → (root acc : Nat) → Nat
  | 0, _, _, acc => acc
  | n + 1, bits, root, acc =>
    let r := isqrt (exPrec + 1) (root <<< exPrec) 0
    exp2Frac n bits r (if bits / 2 ^ n % 2 == 1 then acc * r / 2 ^ exPrec else acc)
/-- 2^x for a finite non-zero x whose magnitude does not exceed 2^20 (R289). -/
def exp2Approx (neg : Bool) (m : Nat) (e : Int) : Approx :=
  let p : Int := exPrec
  let v : Int := alignTo neg m (max e (-2000 - p)) (-2000 - p)   -- units of 2^-(2000+p)
  let v := if e < -2000 - p then (if neg then -1 else 0) else v
  let unit : Int := 2 ^ (2000 + exPrec)
  let i := v / unit
  let fr := (v % unit).toNat
  let top := fr / 2 ^ 2000
  ⟨exp2Frac exPrec top (2 ^ (exPrec + 1)) (2 ^ exPrec), i - p, fr != 0 || e < -2000 - p⟩
/-- Fraction bits of log2 of a number in [1, 2), in units of 2^-`prec`. -/
def log2Bits : (n : Nat) → (prec x acc : Nat) → Nat
  | 0, _, _, acc => acc
  | n + 1, prec, x, acc =>
    let y := x * x / 2 ^ prec
    if 2 ^ (prec + 1) ≤ y then log2Bits n prec (y / 2) (2 * acc + 1) else log2Bits n prec y (2 * acc)
/-- log2 of a positive m x 2^e: sign and approximation (R289). -/
def log2Approx (m : Nat) (e : Int) : Bool × Approx :=
  let k := Nat.log2 m
  let i : Int := (k : Int) + e
  if m == 2 ^ k then (i < 0, ⟨i.natAbs, 0, false⟩)
  else
    let v : Int := i * 2 ^ exPrec + log2Bits exPrec 640 (m <<< 640 / 2 ^ k) 0
    if v < 0 then (true, ⟨v.natAbs - 1, -(exPrec : Int), true⟩) else (false, ⟨v.natAbs, -(exPrec : Int), true⟩)

/-- Does x come before y? NaN excluded; −0 before +0 when `signed` (R289, R293). -/
def ltNum (signedZero : Bool) (x y : Num) : Bool :=
  match x, y with
  | .inf a, .inf b => a && !b
  | .inf a, _ => a
  | _, .inf b => !b
  | .fin a m e, .fin b n g =>
    let lo := min e g
    let u := alignTo a m e lo
    let v := alignTo b n g lo
    u < v || (signedZero && u == 0 && v == 0 && a && !b)
  | _, _ => false

end Sys2Proof.Machine
end

