-- ==== Sys2Proof/Machine/Pattern.lean ====
section
/-! DEFINITION. Pattern records (R210-R213) and format tags (R49, R50). -/

namespace Sys2Proof.Machine

/-- Format code of a tag (R49). -/
def tagFmt (t : BitVec 16) : Nat := (t.extractLsb' 0 4).toNat
/-- Scale of a tag. -/
def tagScale (t : BitVec 16) : Int := (t.extractLsb' 4 8).toInt
/-- The sat bit of a tag. -/
def tagSat (t : BitVec 16) : Bool := t.getLsbD 12
/-- Formats that take a scale (R52). -/
def fmtScaled (f : Nat) : Bool := f == 5 || f == 6 || f == 7 || f == 11 || f == 12
/-- A malformed tag (R50). -/
def tagMalformed (t : BitVec 16) : Bool :=
  12 < tagFmt t || t.extractLsb' 13 3 != 0 || (t.extractLsb' 4 8 != 0 && !fmtScaled (tagFmt t))
/-- Equal in format and in scale (R283). -/
def tagEq (a b : BitVec 16) : Bool := a.extractLsb' 0 12 == b.extractLsb' 0 12
/-- A tag of a format with scale 0. -/
def fmtTag (f : Nat) : BitVec 16 := BitVec.ofNat 16 f
/-- Elements in a 32-bit word of a format: a 64-bit element takes two words (R214). -/
def elemsOfWords (f words : Nat) : Nat :=
  match f with
  | 1 | 10 => words / 2
  | 3 | 4 | 8 => words * 2
  | 5 | 6 | 7 | 12 => words * 4
  | 11 => words * 5
  | _ => words
/-- Ordinal, counted from 1, of the first element of word `w` of a stream (R214). -/
def firstOrdinal (f w : Nat) : Nat := elemsOfWords f w + 1

/-- Quadword `i` of a list of 32-bit words. -/
def quadAt (ws : List W32) (i : Nat) : Word := ((ws.getD (2 * i + 1) W32.zero).bits ++ (ws.getD (2 * i) W32.zero).bits)
/-- Signed value of 32 bits. -/
def sInt32 (q : Word) (lo : Nat) : Int := (q.extractLsb' lo 32).toInt
/-- Unsigned value of `n` bits. -/
def uAt (q : Word) (lo n : Nat) : Nat := (q.extractLsb' lo n).toNat

/-- What chunk `k` of a pattern is. -/
inductive Chunk where
  | va (a : Word)
  | lost (payload : BitVec 32)
  | block (name : BitVec 44) (boff : Nat) (base : Word)
  deriving DecidableEq, Repr

/-- Number of chunks (R211). -/
def Pattern.chunks (p : Pattern) : Nat := p.n0 * p.n1 * p.n2
/-- Bytes of the stream. -/
def Pattern.bytes (p : Pattern) : Nat := p.chunks * p.chunk
/-- Chunk `k` of a pattern, read or written by the engine of a plot (R211, R212). A BUNTING record whose names are translated
holds their blocks in `idx`. -/
def Pattern.chunkAt (p : Pattern) (engine k : Nat) : Chunk :=
  if p.kind = 2 then
    let w := p.idx.getD k W32.zero
    if !w.valid then .lost (normPayload w.bits)
    else if p.limit ≤ w.bits.toNat then .lost (payloadBits 4 engine ((k + 1) % 2048))
    else .va (p.base + BitVec.ofInt 64 (w.bits.toNat * p.s0))
  else if p.kind = 3 then
    match p.idx[k]? with
    | some b => .va (p.base + BitVec.ofNat 64 (b.bits.toNat * 32768 + p.boff))
    | none => .block (p.name + BitVec.ofNat 44 k) p.boff p.base
  else
    let i0 := k % p.n0
    let i1 := k / p.n0 % p.n1
    let i2 := k / p.n0 / p.n1
    .va (p.base + BitVec.ofInt 64 (i0 * p.s0 + i1 * p.s1 + i2 * p.s2))

/-- A count of 1 where the record's kind has none. -/
def countOf (n : Nat) : Nat := if n = 0 then 1 else n
/-- The record's fields (R210). -/
def patternOf (ws idx : List W32) : Pattern :=
  let q (i : Nat) := quadAt ws i
  let kind := uAt (q 1) 60 4
  { base := q 0, kind, tag := (q 1).extractLsb' 32 16, chunk := uAt (q 1) 0 32, n0 := countOf (uAt (q 2) 0 32), s0 := sInt32 (q 2) 32,
    n1 := countOf (uAt (q 3) 0 32), s1 := sInt32 (q 3) 32, n2 := countOf (uAt (q 4) 0 32), s2 := sInt32 (q 4) 32, limit := uAt (q 5) 32 32,
    name := (q 5).extractLsb' 0 44, boff := uAt (q 6) 0 15,
    ixoff := uAt (q 5) 0 19, idx }
/-- A count times a stride keeps chunks on 4-byte boundaries. -/
def strideOk (n : Nat) (st : Int) : Bool := n == 1 || st % 4 == 0
/-- The record keeps the rules of R210 and R211. -/
def patternOk (ws : List W32) (p : Pattern) : Bool :=
  let q (i : Nat) := quadAt ws i
  (q 1).extractLsb' 48 12 == 0 && p.chunk != 0 && p.chunk % 4 == 0 && q 7 == 0 && decide (p.bytes < 2 ^ 40)
  && (match p.kind with
    | 0 => q 2 == 0 && q 3 == 0 && q 4 == 0 && q 5 == 0 && q 6 == 0 && p.base.toNat % 4 == 0
    | 1 => uAt (q 2) 0 32 != 0 && uAt (q 3) 0 32 != 0 && uAt (q 4) 0 32 != 0 && q 5 == 0 && q 6 == 0 && p.base.toNat % 4 == 0
        && strideOk p.n0 p.s0 && strideOk p.n1 p.s1 && strideOk p.n2 p.s2
    | 2 => uAt (q 2) 0 32 != 0 && q 3 == 1 && q 4 == 1 && (q 5).extractLsb' 19 13 == 0 && uAt (q 5) 0 2 == 0 && q 6 == 0
        && p.idx.all fun w => !w.valid || decide (p.limit ≤ w.bits.toNat) || (p.base + BitVec.ofInt 64 (w.bits.toNat * p.s0)).toNat % 4 == 0
    | 3 => uAt (q 2) 0 32 != 0 && p.s0 == 0 && q 3 == 0 && q 4 == 0 && (q 5).extractLsb' 44 20 == 0 && (q 6).extractLsb' 15 49 == 0
        && p.boff % 4 == 0 && p.base.toNat % 4 == 0 && decide (p.name.toNat % 65536 + p.n0 - 1 ≤ 0xFFFF) && decide (p.boff + p.chunk ≤ 32768)
    | _ => false)
/-- Reading words of a plot's scratchpad from an offset. -/
def State.spadWords (s : State) (p off : Nat) : (n : Nat) → List W32
  | 0 => []
  | n + 1 => s.spadWord p off :: s.spadWords p (off + 4) n
/-- Record `r` of a plot's scratchpad (R210), or the cause that its word faults with. A GATHER's index list is read with it (log 97). -/
def State.patternAt (s : State) (plot : Nat) (r : BitVec 13) : Except (BitVec 8) Pattern :=
  let ws := s.spadWords plot (r.toNat * 64) 16
  if ws.any (!·.valid) then .error 0x18
  else
    let isGather := uAt (quadAt ws 1) 60 4 == 2
    let n := uAt (quadAt ws 2) 0 32
    let idx := if isGather then s.spadWords plot (uAt (quadAt ws 5) 0 19) n else []
    let p := patternOf ws idx
    if patternOk ws p then .ok p else .error 0x30

/-- Block of a bunting name (R100). -/
def State.blockOf (s : State) (name : BitVec 44) : Option Nat := tfind s.bunting.names name.toNat
/-- Bytes of memory, by virtual address, that a chunk reaches. -/
def State.chunkVa (s : State) (c : Chunk) : Option Word :=
  match c with
  | .va a => some a
  | .lost _ => none
  | .block n boff base => (s.blockOf n).map fun b => base + BitVec.ofNat 64 (b * 32768 + boff)
/-- The virtual ranges of a pattern. -/
def State.patternSpans (s : State) (p : Pattern) (engine : Nat) : List (Nat × Nat) :=
  (List.range p.chunks).filterMap fun k => (s.chunkVa (p.chunkAt engine k)).map fun a => (a.toNat, p.chunk)
/-- Spans that the stream of a record covers, with the index list of a GATHER record (R210). -/
def State.recSpans (s : State) (plot : Nat) (p : Pattern) : List (Nat × Nat) :=
  (if p.kind = 2 then [(plotBase plot + p.ixoff, 4 * p.n0)] else []) ++ s.patternSpans p plot
/-- The pattern records that a stream word names. -/
def wordRecs (i : Instr) : List (BitVec 13) :=
  match i with
  | .cpyp _ a b | .gath _ a b | .scat _ a b => [a, b]
  | .mcst _ a b _ st => if st then [a, b] else [a]
  | .bindr _ r _ | .bindw _ r | .phase _ r | .ringSource _ r _ _ _ _ _ => [r]
  | _ => []
/-- A word's patterns: as read at its start (R210), or before that as its records stand. -/
def State.wordPatterns (s : State) (w : SWord) : List Pattern :=
  if w.stage == .queued then (wordRecs w.instr).filterMap fun r => (s.patternAt w.plot r).toOption else w.pats
/-- Spans of the streams that feed a region, those whose beats wait in its edge buffers included (R268). -/
def State.feedSpans (s : State) (plot : Nat) : List (Nat × Nat) :=
  match (s.plotAt plot).region with
  | some r => s.ports.flatMap fun p => if (s.plotAt (p.1 / 16)).region != some r then [] else (p.2.past ++ match p.2.bind with
    | some b => if b.read then b.pat :: b.phases.map (·.2) else []
    | none => []).flatMap fun q => s.patternSpans q plot
  | none => []
/-- Columns of a region's plots: `w` cell-plot columns from x0 (R233). -/
def regionCols (x0 w : Nat) : List Nat := ((List.range 32).filter fun x => decide (x0 ≤ x) && x % 8 != 7).take w
/-- Plots of the rectangle at an origin, row-major; none when it leaves the die or begins at a slice plot (R158). -/
def rectPlots (origin w h : Nat) : Option (List Nat) :=
  let cols := regionCols (plotX origin) w
  if !isCellPlot origin || cols.length != w || 32 < plotY origin + h then none
  else some ((List.range h).flatMap fun i => cols.map fun x => dieOf origin * 1024 + (plotY origin + i) * 32 + x)
/-- The entry that actors of a session see under a name (R160): the session's own before a HELD one (log 48). -/
def State.visible (s : State) (sess : Option Nat) (name : Word) : Option (Nat × Pennant) :=
  match s.pennants.find? fun e => e.2.name == name && e.2.life == 0 && some e.2.sess == sess && !e.2.dropping with
  | some e => some e
  | none => s.pennants.find? fun e => e.2.name == name && e.2.life == 1
/-- Spans of a pennant's range at an origin. -/
def Pennant.spansAt (p : Pennant) (origin : Nat) : List (Nat × Nat) :=
  ((rectPlots origin p.w p.h).getD []).map fun q => (plotBase q + p.off, p.len)
/-- Spans that a PNEVICT or a PNFILL at an origin reads or writes: the pennant's ranges and its result. -/
def State.pnSpans (s : State) (plot : Nat) (name : Word) (res : BitVec 19) (origin : Option Nat) : List (Nat × Nat) :=
  (plotBase plot + res.toNat, 4) :: (match s.visible (s.sessOf plot) name with
    | some (_, p) => p.spansAt p.origin ++ (match origin with
      | some o => p.spansAt o
      | none => [])
    | none => [])
/-- Spans, by virtual address, that a stream word reads or writes (R207). -/
def State.wordSpans (s : State) (w : SWord) : List (Nat × Nat) :=
  let plot := w.plot
  (wordRecs w.instr).map (fun r => (plotBase plot + r.toNat * 64, 64)) ++ (s.wordPatterns w).flatMap (s.recSpans plot) ++ (match w.instr with
  | .cpy _ va off len16 _ => [((va.signExtend 64).toNat, len16.toNat * 16), (plotBase plot + off.toNat, len16.toNat * 16)]
  | .patch _ _ _ _ _ voff ind => if ind then [(plotBase plot + voff.toNat, 4)] else []
  | .mtok _ mode _ _ _ _ _ _ _ _ => if mode = 2 then [] else s.feedSpans plot
  | .wld _ _ _ _ _ _ _ _ => s.feedSpans plot
  | .accz _ _ _ _ _ res _ rd => if rd then [(plotBase plot + res.toNat, 4)] else []
  | .bnalloc _ _ cnt res wres => if wres then [(plotBase plot + res.toNat, 4 * (cnt.toNat + 1))] else []
  | .bnxl _ _ cnt res _ => [(plotBase plot + res.toNat, 4 * (cnt.toNat + 1))]
  | .pnevict _ name res _ => s.pnSpans plot name res none
  | .pnfill _ name origin res _ => s.pnSpans plot name res (some origin.toNat)
  | .drn _ _ _ _ _ _ _ _ _ lines1 goff gate _ => if gate then [(plotBase plot + goff.toNat, 4 * (lines1.toNat + 1))] else []
  | .steer _ ioff n1 => [(plotBase plot + ioff.toNat, n1.toNat + 1)]
  | .race _ soff t1 ooff e1 k1 coff wcnt => [(plotBase plot + soff.toNat, 4 * (e1.toNat + 1) * (t1.toNat + 1)),
      (plotBase plot + ooff.toNat, 8 * (k1.toNat + 1) * (t1.toNat + 1)), (plotBase plot + coff.toNat, if wcnt then 4 * (e1.toNat + 1) else 0)]
  | _ => [])
/-- First address of the weight-layer slice of a region's logical column (R137, R264). -/
def Region.gvColumn (r : Region) (col : Nat) : Nat :=
  let pc := r.cols.getD col 0
  let x := (regionCols r.x0 r.w).getD (pc / 8) 0
  0x20000000000 + r.die * 0x100000000 + ((x - x / 8) * 8 + pc % 8) * 0x1200000
/-- Spans, by physical address, that a stream word reads or writes without a virtual one (R207): the weight-layer lines of a GV token (R268)
and a pennant's backing (R161). -/
def State.wordPhys (s : State) (w : SWord) : List (Nat × Nat) :=
  match w.instr with
  | .mtok _ mode _ _ _ m1 kr1 woff nl1 _ =>
    if mode != 2 then [] else match (s.plotAt w.plot).region with
    | some k => match tfind s.regions k with
      | some r => (List.range (nl1.toNat + 1)).map fun c => (r.gvColumn c + woff.toNat * 128, (m1.toNat + 1) * ((kr1.toNat + 1) / 4) * 128)
      | none => []
    | none => []
  | .pnevict _ name _ _ | .pnfill _ name _ _ _ => match s.visible (s.sessOf w.plot) name with
    | some (_, p) => [(p.backing.toNat, p.w * p.h * p.len)]
    | none => []
  | _ => []
/-- Order class of a stream word's header. -/
def wordHdr (i : Instr) : Option SwHdr :=
  match i with
  | .bindr h _ _ | .bindw h _ | .unbind h _ | .cpy h _ _ _ _ | .cpyp h _ _ | .gath h _ _ | .scat h _ _ | .mcst h _ _ _ _ | .phase h _
  | .arrv h _ _ _ _ _ | .patch h _ _ _ _ _ _ | .evt h _ _ | .wld h _ _ _ _ _ _ _ | .wstr h _ _ _ _ _ | .mtok h _ _ _ _ _ _ _ _ _
  | .accz h _ _ _ _ _ _ _ | .drn h _ _ _ _ _ _ _ _ _ _ _ _ | .steer h _ _ | .ringMember h _ _ _ _ _ | .ringSource h _ _ _ _ _ _
  | .race h _ _ _ _ _ _ _ | .bnalloc h _ _ _ _ | .bnfree h _ _ | .bnshare h _ _ _ | .bnxl h _ _ _ _ | .pnevict h _ _ _
  | .pnfill h _ _ _ _ => some h
  | _ => none
/-- Ranges of bytes share one. -/
def rangesMeet (l : List (Nat × Nat)) (a len : Nat) : Bool := l.any fun r => decide (r.1 < a + len) && decide (a < r.1 + r.2)
/-- The address that a pattern reaches at a byte of its stream. -/
def State.streamVa (s : State) (p : Pattern) (engine pos : Nat) : Option Nat :=
  if p.bytes ≤ pos then none
  else (s.chunkVa (p.chunkAt engine (pos / p.chunk))).map fun a => (a + BitVec.ofNat 64 (pos % p.chunk)).toNat
/-- The 16-byte granules that a running copy or MCST has moved in part (R207, log 99). -/
def State.splitSpans (s : State) (w : SWord) : List (Nat × Nat) :=
  if w.stage != .running || w.progress = 0 then []
  else
    let at_ := match w.instr with
      | .cpy _ va off len16 _ => if len16.toNat * 16 ≤ w.progress then [] else [(va.signExtend 64).toNat + w.progress, plotBase w.plot + off.toNat + w.progress]
      | .cpyp .. | .gath .. | .scat .. | .mcst .. => w.pats.filterMap fun p => s.streamVa p w.plot w.progress
      | _ => []
    (at_.filter fun a => a % 16 != 0).map fun a => (a / 16 * 16, 16)

end Sys2Proof.Machine
end

