-- ==== Sys2Proof/Machine/Slice.lean ====
section
/-! DEFINITION. Where a line lies in its home slice (R128-R135): the near array, the cache ways behind it, the dead-block predictor.
It never changes a value (R135): the words of a line, wherever it lies, are those of memory, and a write-back clears its dirty
bits. The sets of a line and the least-recently-used order stand for what the spec leaves open (log 94). -/

namespace Sys2Proof.Machine

/-- What a request does to a line (R130, R134): `whole` tells that a write covers its 64-B sector. -/
inductive SliceUse where
  | read
  | write (whole : Bool)
  | near
  | ways
  deriving DecidableEq, Repr

/-- Key of a line's set in the near array of a slice: 512 sets. -/
def nearKey (slice line : Nat) : Nat := slice % 128 * 512 + line % 512
/-- Key of a line's set in the ways of a slice: 65,536 sets. -/
def wayKey (slice line : Nat) : Nat := slice % 128 * 65536 + line % 65536
/-- Key of a signature's counter in a slice (R133). -/
def deadKey (slice : Nat) (sig : BitVec 12) : Nat := slice % 128 * 4096 + sig.toNat
/-- A signature is predicted dead (R134). -/
def Die.predictedDead (x : Die) (slice : Nat) (sig : BitVec 12) : Bool := tget 0 x.dead (deadKey slice sig) == 3
/-- A line evicted without a hit raises its signature's counter, which saturates at 3 (R133). -/
def Die.countDead (x : Die) (slice : Nat) (l : SliceLine) : Die :=
  let k := deadKey slice l.sig
  if l.hit || tget 0 x.dead k == 3 then x else { x with dead := tset x.dead k (tget 0 x.dead k + 1) }
/-- A hit lowers the counter of the signature that the line records (R133). -/
def Die.countHit (x : Die) (slice : Nat) (l : SliceLine) : Die :=
  let k := deadKey slice l.sig
  if tget 0 x.dead k == 0 then x else { x with dead := tset x.dead k (tget 0 x.dead k - 1) }
/-- The line in a set. -/
def inSet (set : List SliceLine) (line : Nat) : Option SliceLine := set.find? fun l => l.line == line
/-- The set with a line as its most recently used. -/
def touchSet (set : List SliceLine) (l : SliceLine) : List SliceLine := set.filter (fun m => m.line != l.line) ++ [l]
/-- A line put into the ways; when the set is full its least recently used line leaves, its dirty sectors going to DRAM (R130). -/
def Die.toWays (x : Die) (slice : Nat) (l : SliceLine) : Die :=
  let k := wayKey slice l.line
  let set := touchSet (tget [] x.ways k) l
  if x.cways = 0 then x
  else { x with ways := tset x.ways k (if x.cways.toNat < set.length then set.drop 1 else set) }
/-- A line put into the near array of 16 lines a set: the least recently used line leaves, a DRAM line into the ways (R130, R133). -/
def Die.toNear (x : Die) (slice : Nat) (l : SliceLine) : Die :=
  let k := nearKey slice l.line
  let set := touchSet (tget [] x.near k) l
  if set.length ≤ 16 then { x with near := tset x.near k set }
  else match set with
    | [] => x
    | v :: rest =>
      let x1 := ({ x with near := tset x.near k rest } : Die).countDead slice v
      if v.line < 0x100000000 then x1.toWays slice v else x1
/-- A line removed from the ways. -/
def Die.fromWays (x : Die) (slice line : Nat) : Die :=
  { x with ways := tset x.ways (wayKey slice line) ((tget [] x.ways (wayKey slice line)).filter fun l => l.line != line) }
/-- A line with a sector fetched, and dirty after a write. -/
def SliceLine.useSector (l : SliceLine) (sector : BitVec 2) (u : SliceUse) : SliceLine :=
  { l with held := l.held ||| sector, dirty := match u with
    | .write _ => l.dirty ||| sector
    | _ => l.dirty }
/-- A request's effect on where its line lies in its home slice (R130, R133, R134, R191): `a` is its address, `sig` its signature. -/
def Die.useLine (x : Die) (slice a : Nat) (sig : BitVec 12) (u : SliceUse) : Die :=
  let line := a / 128
  let sector : BitVec 2 := if a % 128 < 64 then 1 else 2
  let dead := x.predictedDead slice sig
  match inSet (tget [] x.near (nearKey slice line)) line with
  | some l =>
    if u = .ways then x
    else
      let x1 := x.countHit slice l
      { x1 with near := tset x1.near (nearKey slice line) (touchSet (tget [] x1.near (nearKey slice line)) { l.useSector sector u with hit := true }) }
  | none => match inSet (tget [] x.ways (wayKey slice line)) line, u with
    | some l, .ways => { x with ways := tset x.ways (wayKey slice line) (touchSet (tget [] x.ways (wayKey slice line)) (l.useSector sector u)) }
    | some l, .near => (x.fromWays slice line).toNear slice { l.useSector sector u with sig, hit := false }
    | some l, .read =>
      if dead then { x with ways := tset x.ways (wayKey slice line) (touchSet (tget [] x.ways (wayKey slice line)) (l.useSector sector u)) }
      else (x.fromWays slice line).toNear slice { l.useSector sector u with sig, hit := false }
    | some l, .write whole =>
      if dead && whole then
        { x with ways := tset x.ways (wayKey slice line) (touchSet (tget [] x.ways (wayKey slice line)) { l with dirty := l.dirty &&& ~~~sector }) }
      else (x.fromWays slice line).toNear slice { l.useSector sector u with sig, hit := false }
    | none, .ways => if a < 0x8000000000 then x.toWays slice ⟨line, sector, 0, sig, false⟩ else x
    | none, .near => x.toNear slice ⟨line, sector, 0, sig, false⟩
    | none, .read => if dead then x else x.toNear slice ⟨line, sector, 0, sig, false⟩
    | none, .write whole => if dead && whole then x else x.toNear slice ⟨line, sector, sector, sig, false⟩

/-- The slice that may cache the line of an address: a DRAM line's home slice, a deep SRAM line's (R128-R130). -/
def State.cacheSlice (s : State) (a : Nat) : Option Nat :=
  match window a with
  | .dram => (s.partitionOf a).map fun p => homeSlice p a
  | .deep d off => some (d * 128 + off / 128 % 128)
  | _ => none
/-- A request with a signature reaches the line of an address at its home slice (R130, R134). -/
def State.sliceUse (s : State) (a : Nat) (sig : BitVec 12) (u : SliceUse) : State :=
  match s.cacheSlice a with
  | some slice => s.modDie (slice / 128) fun x => x.useLine slice a sig u
  | none => s

/-- 64-B sectors of a list of words by address, with how many of its words lie in each. -/
def sectorsOf (ws : List (BitVec 48 × W32)) : List (Nat × Nat) :=
  ws.foldr (fun x l => match l with
    | (k, n) :: t => if k = x.1.toNat / 64 then (k, n + 1) :: t else (x.1.toNat / 64, 1) :: l
    | [] => [(x.1.toNat / 64, 1)]) []
/-- An engine's writes with a signature reach their home slices (R130, R134) and are performed. -/
def State.engineStores (s : State) (sig : BitVec 12) (ws : List (BitVec 48 × W32)) : State :=
  ((sectorsOf ws).foldl (fun s k => s.sliceUse (64 * k.1) sig (.write (k.2 == 16))) s).engineWrites ws

/-- Carving (R131, R132): shrinking the ways writes the lines of the removed ways to DRAM; deep SRAM that becomes cache leaves the near
array; the counters start at 0. -/
def Die.recarve (x : Die) (c : BitVec 4) : Die :=
  let keep (e : SliceLine) : Bool := decide (e.line < 0x100000000) || decide (e.line * 128 % 0x400000000 < (12 - c.toNat) * 0x40000000)
  { x with cways := c, dead := [], ways := (tmap x.ways fun _ set => set.drop (set.length - c.toNat)).filter fun e => e.2 != [],
           near := (tmap x.near fun _ set => set.filter keep).filter fun e => e.2 != [] }

end Sys2Proof.Machine
end

