-- ==== Sys2Proof/Machine/Access.lean ====
section
/-! DEFINITION. What every memory access shares: translation (R87-R92), target checks (R178), order
(R184, R185, R327), the plot L1 (R156), atomic arithmetic (R196-R200), control registers (R80, R131). -/

namespace Sys2Proof.Machine

/-! ## Control registers -/

/-- Bits `lo` and up of a field value. -/
def fieldAt (w lo : Nat) (v : BitVec w) : Word := v.zeroExtend 64 <<< lo
/-- Address of partition register 0 (R80). -/
def partBase : Nat := 0xF0000001000
/-- Address of DCARVE of die 0 (R131). -/
def dcarveBase : Nat := 0xF0000002000
/-- PREMAP's value. -/
def premapWord (l : List (BitVec 3)) : Word := (List.range 8).foldl (fun w i => w ||| fieldAt 3 (3 * i) (l.getD i 0)) 0
/-- A control register is listed at the 8-byte unit of an address (R76, R80, R131). -/
def ctrlListed (a : Nat) : Bool :=
  (decide (partBase ≤ a) && decide (a < partBase + 0x400) && decide ((a - partBase) % 0x80 < 0x68))
    || (decide (dcarveBase ≤ a) && decide (a < dcarveBase + 0x40))
/-- The control register at an 8-byte boundary; zero where none is listed. -/
def State.ctrlRead (s : State) (a : Nat) : Word :=
  if partBase ≤ a ∧ a < partBase + 0x400 then
    let p := tget partitionInit s.partitions ((a - partBase) / 0x80)
    let r := (a - partBase) % 0x80
    if r = 0 then fieldAt 27 21 p.base ||| (if p.en then 1 else 0)
    else if r = 8 then fieldAt 27 21 p.limit
    else if r < 0x60 then (p.masks.getD ((r - 0x10) / 8) 0).zeroExtend 64
    else if r = 0x60 then premapWord p.remap
    else 0
  else if dcarveBase ≤ a ∧ a < dcarveBase + 0x40 then (s.dieAt ((a - dcarveBase) / 8)).cways.zeroExtend 64
  else 0
/-- A partition with one of its registers written (R80): reserved bits stay zero. -/
def partWrite (p : PartitionVal) (r : Nat) (v : Word) : PartitionVal :=
  if r = 0 then { p with base := v.extractLsb' 21 27, en := v.getLsbD 0 }
  else if r = 8 then { p with limit := v.extractLsb' 21 27 }
  else if r < 0x10 then p
  else if r < 0x60 then { p with masks := p.masks.set ((r - 0x10) / 8) ((v.extractLsb' 0 48) &&& 0xFFFFFFFFFF80) }
  else if r = 0x60 then { p with remap := (List.range 8).map fun i => v.extractLsb' (3 * i) 3 }
  else p
/-- `n` words from `a`, which lie together, written invalid with a reason, attributed to the home of each (R72). -/
def State.fillInvalid (s : State) (reason : BitVec 8) (a : Nat) (n : Nat) : State :=
  { s with mem := s.mem.setBulk (s.place a) ((List.range n).map fun (i : Nat) => (⟨false, payloadBits reason (s.homePlot (a + 4 * i)) 0⟩ : W32)) }
/-- DCARVE written (R131, R132): values 13-15 are ignored; space that becomes addressable is ABSENT, as unlisted, since space that
becomes cache loses its contents; the dead-block counters start at 0. -/
def State.dcarve (s : State) (d : Nat) (c : BitVec 4) : State :=
  if 12 < c.toNat then s
  else
    let old := (s.dieAt d).cways.toNat
    let base := 0x10000000000 + d * 0x400000000
    let lo := base + (12 - max old c.toNat) * 0x40000000
    let hi := base + (12 - min old c.toNat) * 0x40000000
    let cells := s.mem.cells.filter fun e => e.1 < lo || hi ≤ e.1
    let odd := s.mem.odd.filter fun e => e * 4 < lo || hi ≤ e * 4
    { (s.modDie d fun x => x.recarve c) with mem := { s.mem with cells, odd } }
/-- A partition with the changes that wait for the next rebase. -/
def State.nextPartition (s : State) (n : Nat) : PartitionVal := (tfind s.pendingParts n).getD (tget partitionInit s.partitions n)
/-- A control register written; a partition register changes at the rebase that the write begins (R82). -/
def State.ctrlWrite (s : State) (a : Nat) (v : Word) : State :=
  if partBase ≤ a ∧ a < partBase + 0x400 then
    let n := (a - partBase) / 0x80
    s.setPartition n (partWrite (s.nextPartition n) ((a - partBase) % 0x80) v)
  else if dcarveBase ≤ a ∧ a < dcarveBase + 0x40 then s.dcarve ((a - dcarveBase) / 8) (v.extractLsb' 0 4)
  else s
/-- A 32-bit word as any access reads it: a listed control register's half, or memory; elsewhere in the control window it is ABSENT (R77). -/
def State.loadWord (s : State) (issuer a : Nat) : W32 :=
  if ctrlListed a then ⟨true, (s.ctrlRead (a / 8 * 8)).extractLsb' (a % 8 / 4 * 32) 32⟩ else s.readWord issuer a
/-- Words as an access reads them. -/
def State.loadWords (s : State) (issuer a : Nat) : (n : Nat) → List W32
  | 0 => []
  | n + 1 => s.loadWord issuer a :: s.loadWords issuer (a + 4) n

/-! ## Translation -/

/-- The address is canonical: bits [63:55] are equal (R87). -/
def canonical (va : Word) : Bool := va.extractLsb' 55 9 == 0 || va.extractLsb' 55 9 == 0x1FF
/-- The 56 bits that translate. -/
def vaNat (va : Word) : Nat := (va.extractLsb' 0 56).toNat
/-- What a page table entry says (R89). -/
inductive Pte where
  | fault
  | next (table : Nat)
  | leaf (e : BitVec 64)
  deriving DecidableEq, Repr
/-- An entry read at a level (R89, R90): an invalid word of it ends the walk in a fault. -/
def pteOf (level : Nat) (lo hi : W32) : Pte :=
  let e : BitVec 64 := hi.bits ++ lo.bits
  if !lo.valid || !hi.valid || !e.getLsbD 0 || e &&& 0xFFFF000000000E40 != 0 then .fault
  else if e.getLsbD 1 then
    if level = 3 then (if e.extractLsb' 12 4 = 0 then .leaf e else .fault)
    else if level = 2 then (if e.extractLsb' 12 13 = 0 then .leaf e else .fault)
    else .fault
  else if level = 3 then .fault
  else .next (e.extractLsb' 12 36).toNat
/-- Index of a table's entry at a level (R88). -/
def pteIndex (level va : Nat) : Nat :=
  match level with
  | 0 => va / 2 ^ 47 % 512
  | 1 => va / 2 ^ 38 % 512
  | 2 => va / 2 ^ 25 % 8192
  | _ => va / 2 ^ 16 % 512
/-- The walk from a level (R88-R90), at most `fuel` levels: a translation cache entry, or none for a fault. -/
def State.walkFrom (s : State) (plot va : Nat) : (fuel : Nat) → (level table : Nat) → Option Tlb
  | 0, _, _ => none
  | n + 1, level, table =>
    let a := table + 8 * pteIndex level va
    match pteOf level (s.readWord plot a) (s.readWord plot (a + 4)) with
    | .fault => none
    | .next t => s.walkFrom plot va n (level + 1) (t * 4096)
    | .leaf e =>
      let big := level == 2
      some ⟨(s.plotAt plot).asid, e.getLsbD 8, big, (if big then va / 2 ^ 25 else va / 2 ^ 16), (e.extractLsb' 12 36) ++ (0 : BitVec 12),
        e.getLsbD 7, e.getLsbD 5, e.getLsbD 4, e.getLsbD 3, e.getLsbD 2⟩
/-- The addresses of the entries that a walk reads (R88). -/
def State.walkReads (s : State) (plot va : Nat) : (fuel : Nat) → (level table : Nat) → List Nat
  | 0, _, _ => []
  | n + 1, level, table =>
    let a := table + 8 * pteIndex level va
    a :: match pteOf level (s.readWord plot a) (s.readWord plot (a + 4)) with
      | .next t => s.walkReads plot va n (level + 1) (t * 4096)
      | _ => []
/-- The walk of an address for a plot. -/
def State.walkVa (s : State) (plot : Nat) (va : Word) : Option Tlb :=
  s.walkFrom plot (vaNat va) 4 0 (s.plotAt plot).root.toNat
/-- What becomes of a walk's reads of the tables (R91, R116, R121): a table homed on a removed die ends it, a home that does not cover the
stamp or whose bus is under retraining (R139) holds it, or they are done. -/
inductive WalkReads where
  | lost (die : Nat)
  | wait
  | done (s : State)
  deriving DecidableEq, Repr
/-- The deep SRAM that an address lies in is behind a vertical bus under retraining (R139). -/
def State.busHeldAt (s : State) (a : Nat) : Bool :=
  match window a with
  | .deep d _ => (s.dieAt d).retraining.isSome
  | _ => false
/-- A read of an engine, a walker or a fetch can be served at its home now: the stamp is covered (R116), no bus is retrained (R139), and a
transient region was not written in this clk (R84). -/
def State.mayRead (s : State) (stamp : List (BitVec 10)) (a : Nat) : Bool :=
  !s.backed a || (s.covers (s.homeDie a) stamp 8 && !s.busHeldAt a && !s.justWritten a)
/-- The response of a read at a home on another die merged (R116), which empties the plot's L1 (R117). -/
def State.mergeRead (s : State) (plot a : Nat) : State :=
  if !s.backed a || s.homeDie a = dieOf plot then s
  else (s.mergeDv (dieOf plot) (s.respStamp (s.homeDie a))).flushL1 plot
/-- A walk's reads, in order, ordinary reads at MODULE scope that leave their lines in slices (R91, log 94). -/
def State.readTables (s : State) (plot : Nat) (stamp : List (BitVec 10)) : List Nat → WalkReads
  | [] => .done s
  | a :: t =>
    if s.backed a && s.isRemoved (s.homeDie a) then .lost (s.homeDie a)
    else if !s.mayRead stamp a then .wait
    else ((s.mergeRead plot a).sliceUse a 0 .read).readTables plot stamp t
/-- A plot's page-table walk of an address under a stamp. -/
def State.walkTables (s : State) (plot : Nat) (stamp : List (BitVec 10)) (va : Word) : WalkReads :=
  s.readTables plot stamp (s.walkReads plot (vaNat va) 4 0 (s.plotAt plot).root.toNat)
/-- An entry kept in the 128-entry translation cache (R91), in which the entry longest unused comes first and leaves (log 95). -/
def State.fillTlb (s : State) (plot : Nat) (e : Tlb) : State :=
  s.modPlot plot fun x => { x with tlb := (if 128 ≤ x.tlb.length then x.tlb.drop 1 else x.tlb) ++ [e] }
/-- The entry serves an address of the plot's address space. -/
def Tlb.hits (t : Tlb) (asid : BitVec 12) (va : Nat) : Bool :=
  (t.glob || t.asid == asid) && t.page == (if t.big then va / 2 ^ 25 else va / 2 ^ 16)
/-- The entry that serves an address becomes the plot's most recently used (R91, log 95). -/
def State.touchTlb (s : State) (plot : Nat) (va : Word) : State :=
  let x := s.plotAt plot
  match x.tlb.find? fun t => t.hits x.asid (vaNat va) with
  | some e => if x.tlb.getLast? = some e then s else s.modPlot plot fun y => { y with tlb := y.tlb.filter (· != e) ++ [e] }
  | none => s
/-- The identity mapping of the plot SRAM windows (R155). -/
def windowEntry (va : Nat) : Option Tlb :=
  if 0x30000000000 ≤ va ∧ va < 0x30100000000 then
    some ⟨0, true, false, va / 2 ^ 16, BitVec.ofNat 48 (va / 2 ^ 16 * 2 ^ 16), false, true, false, true, true⟩
  else none
/-- The translation that a plot holds for an address. -/
def State.lookup (s : State) (plot : Nat) (va : Word) : Option Tlb :=
  match windowEntry (vaNat va) with
  | some e => some e
  | none => (s.plotAt plot).tlb.find? fun t => t.hits (s.plotAt plot).asid (vaNat va)
/-- Physical address, or offset into host memory, of an address under an entry. -/
def Tlb.addr (t : Tlb) (va : Word) : BitVec 48 :=
  t.pa + (if t.big then (va.extractLsb' 0 25).zeroExtend 48 else (va.extractLsb' 0 16).zeroExtend 48)
/-- Kinds of access: 0 load, 1 store, 2 fetch, 3 atomic or RED. The translation fault of a kind (R90). -/
def translationCause (kind : Nat) : BitVec 8 :=
  if kind = 0 then 0x08 else if kind = 2 then 0x03 else 0x09
/-- The leaf permits the kind (R90, R179). -/
def Tlb.permits (t : Tlb) (kind : Nat) : Bool :=
  match kind with
  | 0 => t.r
  | 1 => t.w
  | 2 => t.x
  | _ => t.r && t.w && t.atm
/-- What translating answers: an entry, a fault with the state in which it is taken, or a wait for the walker. -/
inductive Translation where
  | hit (e : Tlb)
  | trap (t : Trap) (s : State)
  | miss (s : State)
  deriving DecidableEq, Repr
/-- Translation for a slot, or for a stream word `ticket` (R87, R90, R91, R94, R96); a table on a removed die ends it (R121). -/
def State.translate (s : State) (plot slot : Nat) (ticket : Option Nat) (oc : BitVec 3) (va : Word) (kind : Nat) : Translation :=
  if !canonical va then .trap ⟨translationCause kind, va, 0x400000000⟩ s
  else match s.lookup plot va with
    | some e => if e.permits kind then .hit e else .trap ⟨(if kind = 2 then 0x04 else 0x0A), va, 0⟩ s
    | none =>
      match s.walks.find? fun w => w.2.plot == plot && w.2.slot == slot && w.2.va == va && w.2.kind == kind && w.2.ticket == ticket && !w.2.orphan with
      | some (id, w) =>
        if w.declined then .trap ⟨translationCause kind, va, 0x100000000⟩ { s with walks := tdel s.walks id }
        else match w.lost with
          | some d => .trap ⟨0x48, va, BitVec.ofNat 64 d⟩ { s with walks := tdel s.walks id }
          | none => .miss s
      | none => .miss { s with walks := tset s.walks s.nextId ⟨plot, slot, va, kind, none, false, ticket, oc, (s.causalAt (dieOf plot)).dv, none, W32.zero, 0, false, false⟩,
                               nextId := s.nextId + 1 }

/-! ## Targets -/

/-- Kinds of target check (R178). -/
inductive Target where
  | read | write | granule | atomic
  deriving DecidableEq, Repr
/-- Target check of an operation. -/
def Op.target : Op → Target
  | .ld .. | .ldv .. | .sqld => .read
  | .st .. | .stv => .write
  | .ldfe .. | .feq | .stfe | .feset .. => .granule
  | .amo .. | .red .. => .atomic
/-- The trap of the target check on a physical address, if it fails (R77, R121, R154, R178). A home on a removed die comes before what the
table of R178 refuses (log 115). -/
def State.targetTrap (s : State) (t : Target) (host : Bool) (pa : Nat) (va : Word) : Option Trap :=
  if host then (if t = .granule then some (mkTrap 0x0A va) else none)
  else if s.backed pa && s.isRemoved (s.homeDie pa) then some ⟨0x48, va, BitVec.ofNat 64 (s.homeDie pa)⟩
  else match t with
    | .read => none
    | .write => if s.backed pa || ctrlListed pa then none else some (mkTrap 0x0A va)
    | .granule => match window pa with
      | .plot _ _ => if s.backed pa then none else some (mkTrap 0x0A va)
      | _ => some (mkTrap 0x0A va)
    | .atomic => match window pa with
      | .weight _ _ => some (mkTrap 0x0A va)
      | _ => if s.backed pa then none else some (mkTrap 0x0A va)
/-- Home of an access: the front end (16) for a host page, else a die; what is not backed stays at its plot (R77). -/
def State.unitOf (s : State) (plot : Nat) (host : Bool) (pa : Nat) : Nat :=
  if host then 16 else if s.backed pa then s.homeDie pa else dieOf plot

/-! ## Order -/

/-- Bytes of an access at an address: a granule for the full/empty group. -/
def Op.span (o : Op) (pa : Nat) : Nat × Nat :=
  match o with
  | .ld n _ | .st n => (pa, n)
  | .ldv _ | .stv => (pa, 64)
  | .sqld => (pa, 16)
  | .ldfe _ | .feq | .stfe | .feset _ => (pa / 16 * 16, 16)
  | .amo _ w | .red _ w => (pa, if w then 8 else 4)
/-- Two requests touch a common byte. -/
def Req.overlaps (e y : Req) : Bool :=
  let a := e.op.span e.pa.toNat
  let b := y.op.span y.pa.toNat
  (e.unit == 16) == (y.unit == 16) && decide (a.1 < b.1 + b.2) && decide (b.1 < a.1 + a.2)
/-- An earlier request must be released before a later one performs (R184, R327). -/
def Req.before (e y : Req) : Bool :=
  e.oc == 7 || y.oc == 7 || (e.oc == y.oc && (e.acq || y.rel || e.op.writes || y.op.writes))
/-- Plain stores, which the issuing plot's L1 takes at issue (R156). -/
def Op.plainStore : Op → Bool
  | .st _ | .stv => true
  | _ => false
/-- Two requests are packets of one stream (R147): the same source plot, destination and QoS class; the front end is one destination. -/
def State.sameStream (s : State) (e y : Req) : Bool :=
  e.plot == y.plot && e.cls == y.cls && e.unit == y.unit && (e.unit == 16 || s.homePlot e.pa.toNat == s.homePlot y.pa.toNat)
/-- Writes of a slot to host pages in a class, or all for 7, are acknowledged as written (R326). -/
def State.hostAcked (s : State) (p k : Nat) (oc : BitVec 3) : Bool :=
  s.hostAcks.all fun e => e.2 / 8 != 8 * p + k || !(oc == 7 || e.2 % 8 == 7 || e.2 % 8 == oc.toNat)
/-- The request's deep SRAM is behind a vertical bus under retraining (R139). -/
def State.busWaits (s : State) (r : Req) : Bool := r.unit != 16 && s.busHeldAt r.pa.toNat
/-- Where an address lies for a plot: in host memory or not, and its physical address or offset. -/
def State.vaPlace (s : State) (plot va : Nat) : Option (Bool × Nat) :=
  let v := BitVec.ofNat 64 va
  (s.lookup plot v <|> s.walkVa plot v).map fun e => (e.host, (e.addr v).toNat)
/-- A span of virtual addresses reaches bytes of a physical range, by whatever name (R207): page by page. -/
def State.spanReaches (s : State) (plot : Nat) (r : Nat × Nat) (host : Bool) (pa len : Nat) : Bool :=
  (List.range (r.2 / 65536 + 2)).any fun i =>
    let lo := max r.1 ((r.1 / 65536 + i) * 65536)
    let hi := min (r.1 + r.2) ((r.1 / 65536 + i + 1) * 65536)
    decide (lo < hi) && (match s.vaPlace plot lo with
      | some (h, p) => h == host && decide (p < pa + len) && decide (pa < p + (hi - lo))
      | none => false)
/-- An earlier stream word of the slot, not yet complete (an MTOK not yet CONSUMED, R268), holds an access to a place (R207): a word of the
same class that reads or writes its bytes, or one that has moved its granule in part (log 99). -/
def State.wordHolds (s : State) (plot slot id : Nat) (oc : BitVec 3) (host : Bool) (pa len : Nat) : Bool :=
  s.words.any fun w => decide (w.1 < id) && w.2.plot == plot && w.2.slot == slot && !w.2.consumed &&
    (((match wordHdr w.2.instr with
      | some h => h.oc == oc
      | none => false)
      && ((s.wordSpans w.2).any (fun r => s.spanReaches plot r host pa len) || (!host && rangesMeet (s.wordPhys w.2) pa len)))
    || (s.splitSpans w.2).any fun r => s.spanReaches plot r host pa len)
/-- A request may leave its issuer: the slot's earlier accesses are as R185 and R327 ask. With `l1`, a plain store that the L1
took at issue and still holds need not have performed (R185, R338). A release on a host page waits for performance, not only release (R184, R326). A
stream word of the class that touches its bytes comes first (R207). -/
def State.mayLeave (s : State) (id : Nat) (r : Req) (l1 : Bool) : Bool :=
  ((s.reqsOf r.plot r.slot).all fun e => decide (id ≤ e.1) ||
    ((!e.2.overlaps r || (l1 && e.2.op.plainStore && !e.2.refill) || s.perfOk e.1)
      && (!(e.2.before r || e.2.sends) || (if r.rel && r.unit == 16 then s.perfOk e.1 else s.relOk e.1))))
  && (s.flitsOut r.plot r.slot).all (fun e => decide (id ≤ e.1))
  && !s.wordHolds r.plot r.slot id r.oc (r.unit == 16) r.pa.toNat (r.op.span 0).2
/-- A request may leave, and the bus behind which its home lies is not under retraining (R139). -/
def State.mayGo (s : State) (id : Nat) (r : Req) (l1 : Bool) : Bool := s.mayLeave id r l1 && !s.busWaits r
/-- A request that has come to its home waits there: a read for the entries of its stamp (R116), a granule (R194), a bus (R139). -/
def State.waitsAtHome (s : State) (r : Req) : Bool :=
  r.arr != 0 || s.busWaits r || (r.unit != 16 && (s.justWritten r.pa.toNat || (r.op.reads && !s.covers r.unit r.stamp 8)))
/-- The request is the next of its stream (R147, R199): every earlier request of the stream is still held by its issuer or has come to the
home; one that waits there holds back what touches its bytes, and an atomic any atomic. A counted packet under way comes before a read. -/
def State.firstInStream (s : State) (id : Nat) (r : Req) : Bool :=
  s.reqs.all fun e => decide (id ≤ e.1) || !s.sameStream e.2 r || (match e.2.stage with
    | .issued => !s.mayLeave e.1 e.2 false || (s.waitsAtHome e.2 && (e.2.arr != 0 || !(e.2.overlaps r || (match e.2.op, r.op with
        | .amo .., .amo .. => true
        | _, _ => false))))
    | .sent => r.op.writes || !s.packets.any fun p => p.2.arrived == 0 && !p.2.delivered && (match p.2.payload with
        | .req j => j == e.1
        | _ => false)
    | _ => true)

/-! ## The plot L1 -/

/-- The L1 may hold the line (R156): DRAM or addressable deep SRAM homed on the plot's die, and L is not 0. -/
def State.l1May (s : State) (plot : Nat) (host : Bool) (pa : Nat) : Bool :=
  !host && (s.plotAt plot).l1size != 0 && s.backed pa && s.homeDie pa == dieOf plot && (match window pa with
    | .dram | .deep _ _ => true
    | _ => false)
/-- Words of a list replaced from index `i`. -/
def setFrom {α : Type} (l : List α) (i : Nat) : List α → List α
  | [] => l
  | x :: t => setFrom (l.set i x) (i + 1) t
/-- A sub-word store merged into a word (R183). -/
def mergeSub (w : W32) (off n : Nat) (data : Word) : W32 :=
  let old : BitVec 32 := if w.valid then w.bits else 0
  let m : BitVec 32 := BitVec.ofNat 32 ((2 ^ (8 * n) - 1) * 2 ^ (8 * off))
  ⟨true, (old &&& ~~~m) ||| ((data.extractLsb' 0 32 <<< (8 * off)) &&& m)⟩
/-- The words at `pa / 4 * 4` and up after a store of a register of size n, from the words before (R183). -/
def storeWords (pa n : Nat) (v : Val) (old : List W32) : List W32 :=
  if n = 8 then
    (if v.valid then [⟨true, v.bits.extractLsb' 0 32⟩, ⟨true, v.bits.extractLsb' 32 32⟩] else [invWord v, invWord v])
  else if !v.valid then [invWord v]
  else if n = 4 then [⟨true, v.bits.extractLsb' 0 32⟩]
  else [mergeSub (old.getD 0 W32.zero) (pa % 4) n v.bits]
/-- A plain store merged into the 16 words of its line. -/
def mergeLine (line : List W32) (r : Req) : List W32 :=
  let i := r.pa.toNat % 64 / 4
  match r.op with
  | .st n => setFrom line i (storeWords r.pa.toNat n r.val (line.drop i))
  | .stv => r.vec
  | _ => line
/-- What an own-die line holds is all that the die's vector covers, so that it may enter an L1 that a cross-die response has emptied (R117). -/
def State.l1Fresh (s : State) (plot : Nat) : Bool := s.covers (dieOf plot) (s.causalAt (dieOf plot)).dv 8
/-- A line allocated in a plot's L1 (R156). The plot's writes to it that are under way are marked: the line lacks their bytes, so it
leaves when they perform, and until then a slot's own load does not take it for its store (R185, R338). -/
def State.allocL1 (s : State) (plot pa : Nat) : State :=
  let k := pa / 64
  let line := s.readWords plot (k * 64) 16
  let s1 := { s with reqs := tmap s.reqs fun _ y =>
    if y.plot = plot ∧ y.unit ≠ 16 ∧ y.pa.toNat / 64 = k ∧ y.op.writes then { y with refill := true } else y }
  s1.modPlot plot fun x => { x with l1 := tset x.l1 k line }
/-- A write has performed: a line that entered its plot's L1 meanwhile leaves it (R156, R185). -/
def State.performL1 (s : State) (r : Req) : State :=
  if r.refill then s.modPlot r.plot fun x => { x with l1 := tdel x.l1 (r.pa.toNat / 64) } else s
/-- What issuing a request does to its plot's L1 (R156): a store updates the line, a RED or atomic drops it. -/
def State.issueL1 (s : State) (r : Req) : State :=
  if r.unit = 16 then s
  else match tfind (s.plotAt r.plot).l1 (r.pa.toNat / 64) with
    | none => s
    | some line =>
      if r.op.plainStore then s.modPlot r.plot fun x => { x with l1 := tset x.l1 (r.pa.toNat / 64) (mergeLine line r) }
      else if r.op.writes then s.modPlot r.plot fun x => { x with l1 := tdel x.l1 (r.pa.toNat / 64) }
      else s
/-- The next answer to a choice that the spec leaves to the part (log 8): no, when none is listed. -/
def State.choose (s : State) : Bool × State :=
  match s.choices with
  | [] => (false, s)
  | b :: t => (b, { s with choices := t })

/-! ## Atomic arithmetic -/

/-- A sum of two floats under RNE with no flags (R198): format 2 for FP32, 1 for FP64. -/
def fpAdd (f a b : Nat) : Nat :=
  match (addNum 0 (decodeFloat f a) (decodeFloat f b)).1 with
  | .nan _ => canonNaN f
  | .inf n => infBits f n
  | .fin n m e => (roundFloat f 0 false n m e false).1
/-- New value of an atomic or reduction by its selector in the AMO table (R196), on `w` bits. -/
def amoNew (k w old x : Nat) : Nat :=
  let sg (v : Nat) : Int := if v < 2 ^ (w - 1) then v else (v : Int) - 2 ^ w
  match k with
  | 0 => (old + x) % 2 ^ w
  | 1 => if sg x < sg old then x else old
  | 2 => if sg old < sg x then x else old
  | 3 => min old x
  | 4 => max old x
  | 5 => old &&& x
  | 6 => old ||| x
  | 7 => old ^^^ x
  | 8 | 9 => x
  | 10 => fpAdd (if w = 64 then 1 else 2) old x
  | _ => if x ≤ old then 0 else old + 1
/-- The words of a number at a width. -/
def wordsOfNat (wide : Bool) (n : Nat) : List W32 :=
  if wide then [⟨true, BitVec.ofNat 32 n⟩, ⟨true, BitVec.ofNat 32 (n / 2 ^ 32)⟩] else [⟨true, BitVec.ofNat 32 n⟩]
/-- The number that valid words hold. -/
def natOfWords : List W32 → Nat
  | [] => 0
  | w :: t => w.bits.toNat + 2 ^ 32 * natOfWords t
/-- The words that an atomic writes, none when it writes nothing (R197). -/
def amoWords (k : Nat) (wide : Bool) (old : List W32) (x cmp : Val) : Option (List W32) :=
  let w := if wide then 64 else 32
  let xs := x.bits.toNat % 2 ^ w
  let poison := if wide then [invWord x, invWord x] else [invWord x]
  let xw := if x.valid then wordsOfNat wide xs else poison
  if old.any (!·.valid) then (if k = 8 then some xw else none)
  else if k = 9 && (!cmp.valid || natOfWords old != cmp.bits.toNat % 2 ^ w) then none
  else if x.valid then some (wordsOfNat wide (amoNew k w (natOfWords old) xs))
  else some poison
/-- The register value of a list of loaded words (R182, R188, R196): `n` bytes at offset `off` of the first word; an invalid word passes with
its whole payload (R72). -/
def loadVal (ws : List W32) (off n : Nat) (signed : Bool) : Val :=
  match ws.find? (!·.valid) with
  | some w => ⟨false, w.bits.zeroExtend 64⟩
  | none =>
    let v := natOfWords ws / 2 ^ (8 * off) % 2 ^ (8 * n)
    .ofWord (if signed && decide (2 ^ (8 * n - 1) ≤ v) then BitVec.ofInt 64 ((v : Int) - 2 ^ (8 * n)) else BitVec.ofNat 64 v)
/-- Words that an access of `n` bytes at `a` touches: their first address and number. -/
def wordSpan (a n : Nat) : Nat × Nat := (a / 4 * 4, if n = 8 then 2 else 1)

end Sys2Proof.Machine
end

