-- ==== Sys2Proof/Machine/Memory.lean ====
section
/-! DEFINITION. Loads, stores, full/empty operations, atomics and reductions (R176-R200), and how their requests are served
(R93, R116, R180, R324). -/

namespace Sys2Proof.Machine

/-- What a memory instruction asks for once its operands are read. -/
structure Access where
  op : Op
  dest : Dest
  oc : BitVec 3
  acq : Bool
  rel : Bool
  disp : Word
  val : Val
  cmp : Val
  vec : List W32
  pre : Option Trap
  deriving DecidableEq, Repr

/-- Kind of translation of an operation (R179). -/
def Op.kind : Op → Nat
  | .ld .. | .ldv .. | .sqld | .ldfe .. | .feq => 0
  | .st .. | .stv | .stfe | .feset .. => 1
  | .amo .. => 3
  | .red .. => 4
/-- Required alignment (R177, R203). -/
def Op.align : Op → Nat
  | .ld n _ | .st n => n
  | .ldv _ | .stv => 64
  | .ldfe _ | .stfe => 8
  | .feq | .feset _ | .sqld => 16
  | .amo _ w | .red _ w => if w then 8 else 4
/-- The operation counts in CNTLD, else in CNTST (R180). -/
def Op.counts (o : Op) : Bool := o.reads
/-- A read that stays at its instruction until it is served: LDFE, which waits there (R195, R362), SQLD, whose own fault must be
precise (R203), and a read of a transient region with trap-on-expiry (R85). -/
def State.retains (s : State) (o : Op) (host : Bool) (pa : Nat) : Bool :=
  o.reads && (o == .sqld || o == .ldfe true || o == .ldfe false || (!host && (match s.transientOf pa with
    | some t => t.2.trapFlag
    | none => false)))
/-- A counter of a slot raised. -/
def Slot.countUp (x : Slot) (load : Bool) : Slot :=
  if load then { x with cntld := x.cntld + 1 } else { x with cntst := x.cntst + 1 }
/-- A counter of a slot lowered. What a removed image left outstanding lowers no counter of the slot's next actor below 0. -/
def Slot.countDown (x : Slot) (load : Bool) : Slot :=
  if load then { x with cntld := if x.cntld = 0 then 0 else x.cntld - 1 } else { x with cntst := if x.cntst = 0 then 0 else x.cntst - 1 }
/-- Predictor signature of an access (R133): `bits` are PC[13:2] or bits of a record's or word's address. -/
def accessSig (bits : BitVec 12) (plot slot : Nat) (oc : BitVec 3) : BitVec 12 :=
  bits ^^^ BitVec.ofNat 12 plot ^^^ ((BitVec.ofNat 3 slot ++ oc ++ (0 : BitVec 6)))
/-- Predictor signature of a hoist-core access (R133). -/
def coreSig (pc : Word) (plot slot : Nat) (oc : BitVec 3) : BitVec 12 := accessSig (pc.extractLsb' 2 12) plot slot oc
/-- The request of an access at a physical address. -/
def State.request (s : State) (a : Access) (va : Word) (pa : BitVec 48) (host : Bool) (keep : List W32) : Req :=
  let plot := s.focus.plot
  { plot, slot := s.focus.slot, op := a.op, dest := a.dest, oc := a.oc, acq := a.acq, rel := a.rel, va, pa,
    unit := s.unitOf plot host pa.toNat, val := a.val, cmp := a.cmp, vec := if keep = [] then a.vec else keep,
    stamp := (s.causalAt (dieOf plot)).dv, stage := .issued, resp := [], retained := keep != [],
    sig := coreSig s.cur.pc plot s.focus.slot a.oc, cls := s.cur.prioEff, reb := s.rebase, arr := 0, refill := false, replayed := false, since := s.clock }
/-- A request issued (R156, R180): counted, with its effect on the L1 and on the order of the translation cache. -/
def State.issue (s : State) (r : Req) : State :=
  let s1 := ((s.modSlot r.plot r.slot fun x => { x.countUp r.op.counts with wait := if r.retained then some s.nextId else x.wait }).issueL1 r).touchTlb r.plot r.va
  { s1 with reqs := s1.reqs ++ [(s1.nextId, r)], nextId := s1.nextId + 1 }

/-- A memory instruction of `size` bytes with base register first among its sources (R179): checks in order, then the
request. `vs` and `qs` are the v and q registers it names, `rv` what it reads of them (R395). -/
def memAccess (size : Nat) (srcs dsts : List GReg) (vs : List VNum) (qs : List QNum) (rv : List (BitVec 3 × BitVec 5)) (build : List Val → Access) (s : State) : Result :=
  if s.cur.wait.isSome || s.blocked srcs dsts || s.blockedV vs || s.blockedQ qs then .next s
  else match s.badReg (srcs.map (fun n => (0, n)) ++ rv) with
    | some t => .next (s.trapNow t)
    | none =>
      let vals := s.reads srcs
      let base := vals.getD 0 .zero
      let a := build vals
      let ea := base.bits + a.disp
      if !base.valid then .next (s.trapNow (poisonTrap base))
      else if ea.toNat % a.op.align != 0 then .next (s.trapNow (mkTrap 0x0B ea))
      else match s.translate s.focus.plot s.focus.slot none a.oc ea a.op.kind with
        | .trap t s' => .next (s'.trapNow t)
        | .miss s' => .next s'
        | .hit e =>
          let pa := e.addr ea
          match s.targetTrap a.op.target e.host pa.toNat ea with
          | some t => .next (s.trapNow t)
          | none => match a.pre with
            | some t => .next (s.trapNow t)
            | none =>
              if s.retains a.op e.host pa.toNat then
                .next (s.issue (s.request a ea pa e.host [⟨true, BitVec.ofNat 32 size⟩, ⟨true, BitVec.ofNat 32 (g31Count srcs)⟩]))
              else .next (((s.afterReads srcs).issue (s.request a ea pa e.host [])).advance size)

/-- Bytes of an LD type code (R30). -/
def ldBytes (t : BitVec 3) : Nat := 2 ^ (t.toNat / 2)
/-- An LD type code sign-extends. -/
def ldSigned (t : BitVec 3) : Bool := t == 0 || t == 2 || t == 4
/-- LD with a byte displacement (R187, R188). -/
def loadOp (size : Nat) (d a : GReg) (oc : BitVec 3) (acq : Bool) (t : BitVec 3) (disp : Word) (s : State) : Result :=
  memAccess size [a] [d] [] [] [] (fun _ => ⟨.ld (ldBytes t) (ldSigned t), .g d, oc, acq, false, disp, .zero, .zero, [], none⟩) s
/-- ST with a byte displacement (R187, R188). -/
def storeOp (size : Nat) (x a : GReg) (oc : BitVec 3) (rel : Bool) (t : BitVec 3) (disp : Word) (s : State) : Result :=
  memAccess size [a, x] [] [] [] [] (fun vs => ⟨.st (2 ^ t.toNat), .none, oc, false, rel, disp, vs.getD 1 .zero, .zero, [], none⟩) s
/-- The 16 words of a v register. -/
def vregWords (v : VReg) : List W32 := (List.range 16).map fun m => ⟨v.ok.getLsbD m, v.bits.extractLsb' (32 * m) 32⟩
/-- A v register from its words and tag. -/
def vregOf (tag : BitVec 16) (ws : List W32) : VReg :=
  { tag, ok := (List.range 16).foldl (fun o m => if (ws.getD m W32.zero).valid then o ||| (1 <<< m) else o) 0,
    bits := (List.range 16).foldl (fun b m => b ||| ((ws.getD m W32.zero).bits.zeroExtend 512 <<< (32 * m))) 0 }
/-- LDV with a byte displacement (R189, R190). -/
def loadV (size : Nat) (d : VNum) (a : GReg) (oc : BitVec 3) (fmt : BitVec 4) (disp : Word) (s : State) : Result :=
  memAccess size [a] [] [d] [] [] (fun _ => ⟨.ldv fmt, .v d, oc, false, false, disp, .zero, .zero, [], none⟩) s
/-- STV with a byte displacement (R189, R190): a non-zero code must be the tag's format. -/
def storeV (size : Nat) (x : VNum) (a : GReg) (oc : BitVec 3) (fmt : BitVec 4) (disp : Word) (s : State) : Result :=
  let v := s.vGet x
  memAccess size [a] [] [x] [] ((2, x.zeroExtend 5) :: if fmt != 0 then [(4, x.zeroExtend 5)] else []) (fun _ => ⟨.stv, .none, oc, false, false, disp, .zero, .zero, vregWords v,
    if fmt != 0 && v.tag.extractLsb' 0 4 != fmt then some (mkTrap 0x32 (v.tag.zeroExtend 64)) else none⟩) s

/-- LD (R187, R188). -/
def execLd (d a : GReg) (oc : BitVec 3) (acq : Bool) (t : BitVec 3) (imm : BitVec 9) (s : State) : Result :=
  loadOp 4 d a oc acq t (imm.signExtend 64 <<< (t.toNat / 2)) s
/-- LD in its long form (R36). -/
def execLdLong (d a : GReg) (oc : BitVec 3) (acq : Bool) (t : BitVec 3) (imm : BitVec 32) (s : State) : Result :=
  loadOp 8 d a oc acq t (imm.signExtend 64) s
/-- ST (R187, R188). -/
def execSt (x a : GReg) (oc : BitVec 3) (rel : Bool) (t : BitVec 3) (imm : BitVec 9) (s : State) : Result :=
  storeOp 4 x a oc rel t (imm.signExtend 64 <<< t.toNat) s
/-- ST in its long form (R36). -/
def execStLong (x a : GReg) (oc : BitVec 3) (rel : Bool) (t : BitVec 3) (imm : BitVec 32) (s : State) : Result :=
  storeOp 8 x a oc rel t (imm.signExtend 64) s
/-- LDV (R189, R190). -/
def execLdv (d : VNum) (a : GReg) (oc : BitVec 3) (fmt : BitVec 4) (imm : BitVec 9) (s : State) : Result :=
  loadV 4 d a oc fmt (imm.signExtend 64 <<< 6) s
/-- LDV in its long form. -/
def execLdvLong (d : VNum) (a : GReg) (oc : BitVec 3) (fmt : BitVec 4) (imm : BitVec 32) (s : State) : Result :=
  loadV 8 d a oc fmt (imm.signExtend 64) s
/-- STV (R189, R190). -/
def execStv (x : VNum) (a : GReg) (oc : BitVec 3) (fmt : BitVec 4) (imm : BitVec 9) (s : State) : Result :=
  storeV 4 x a oc fmt (imm.signExtend 64 <<< 6) s
/-- STV in its long form. -/
def execStvLong (x : VNum) (a : GReg) (oc : BitVec 3) (fmt : BitVec 4) (imm : BitVec 32) (s : State) : Result :=
  storeV 8 x a oc fmt (imm.signExtend 64) s

/-- The line of an address, translated by an entry, fetched into a target (R178, R191): target 0 fills the L1 where it may hold the line, target
1 the near array of a DRAM or deep SRAM line's home slice, target 2 its cache ways for a DRAM line. None while the line must wait (R116, R139). -/
def State.prefetchLine (s : State) (t : BitVec 5) (plot : Nat) (sig : BitVec 12) (stamp : List (BitVec 10)) (e : Tlb) (va : Word) : Option State :=
  let pa := (e.addr va).toNat / 64 * 64
  if !e.permits 0 || e.host || !s.backed pa || s.isRemoved (s.homeDie pa) then some s
  else if !s.mayRead stamp pa then none
  else some (if t = 0 then (if s.l1May plot e.host pa && s.l1Fresh plot then (s.allocL1 plot pa).sliceUse pa sig .read else s)
    else if t = 1 then s.sliceUse pa sig .near
    else if decide (pa < 0x8000000000) && (s.dieAt (s.homeDie pa)).cways != 0 then s.sliceUse pa sig .ways
    else s)
/-- A prefetch with the stamp of its issue (R191): none while its walk or its line must wait; a walk that would fault ends it. -/
def State.prefetchNow (s : State) (t : BitVec 5) (plot : Nat) (sig : BitVec 12) (stamp : List (BitVec 10)) (va : Word) : Option State :=
  if !canonical va then some s
  else match s.lookup plot va with
    | some e => (s.touchTlb plot va).prefetchLine t plot sig stamp e va
    | none => match s.walkTables plot stamp va with
      | .wait => none
      | .lost _ => some s
      | .done s' => match s.walkVa plot va with
        | none => some s'
        | some e => (s'.fillTlb plot e).prefetchLine t plot sig stamp e va
/-- A prefetch begun (R191): done at once, or under way as a walk of its own kind, which PAGE_WALK carries on. -/
def State.prefetch (s : State) (t : BitVec 5) (plot slot : Nat) (oc : BitVec 3) (sig : BitVec 12) (va : Word) : State :=
  let stamp := (s.causalAt (dieOf plot)).dv
  match s.prefetchNow t plot sig stamp va with
  | some s' => s'
  | none => { s with walks := tset s.walks s.nextId ⟨plot, slot, va, 13, none, false, none, oc, stamp, none, ⟨true, (t ++ sig).zeroExtend 32⟩, 0, false, false⟩,
                     nextId := s.nextId + 1 }
/-- PRF: no fault, no counter (R191); an invalid or uncorrectable base makes it do nothing. -/
def prefetchOp (size : Nat) (t : BitVec 5) (a : GReg) (oc : BitVec 3) (disp : Word) (s : State) : Result :=
  if s.blocked [a] [] then .next s
  else
    let b := (s.reads [a]).getD 0 .zero
    let s' := s.afterReads [a]
    .next ((if b.valid && (s.badReg [(0, a)]).isNone
      then s'.prefetch t s.focus.plot s.focus.slot oc (coreSig s.cur.pc s.focus.plot s.focus.slot oc) (b.bits + disp) else s').advance size)
/-- PRF (R191). -/
def execPrf (t : BitVec 5) (a : GReg) (oc : BitVec 3) (imm : BitVec 9) (s : State) : Result :=
  prefetchOp 4 t a oc (imm.signExtend 64 <<< 6) s
/-- PRF in its long form. -/
def execPrfLong (t : BitVec 5) (a : GReg) (oc : BitVec 3) (imm : BitVec 32) (s : State) : Result :=
  prefetchOp 8 t a oc (imm.signExtend 64) s

/-- LDFE: an acquire of its class (R192, R193). -/
def execLdfe (d a : GReg) (oc : BitVec 3) (clr : Bool) (s : State) : Result :=
  memAccess 4 [a] [d] [] [] [] (fun _ => ⟨.ldfe clr, .g d, oc, true, false, 0, .zero, .zero, [], none⟩) s
/-- STFE: a release of its class. -/
def execStfe (a b : GReg) (oc : BitVec 3) (s : State) : Result :=
  memAccess 4 [a, b] [] [] [] [] (fun vs => ⟨.stfe, .none, oc, false, true, 0, vs.getD 1 .zero, .zero, [], none⟩) s
/-- FEQ. -/
def execFeq (d a : GReg) (oc : BitVec 3) (s : State) : Result :=
  memAccess 4 [a] [d] [] [] [] (fun _ => ⟨.feq, .g d, oc, false, false, 0, .zero, .zero, [], none⟩) s
/-- FESET. -/
def execFeset (a : GReg) (oc : BitVec 3) (full : Bool) (s : State) : Result :=
  memAccess 4 [a] [] [] [] [] (fun _ => ⟨.feset full, .none, oc, false, false, 0, .zero, .zero, [], none⟩) s

/-- An AMO by its selector (R196, R197); AMCAS reads its expected value from g[d]. -/
def amoOp (sel : BitVec 4) (d a b : GReg) (k : BitVec 2) (w : Bool) (oc : BitVec 3) (s : State) : Result :=
  memAccess 4 (if sel = 9 then [a, b, d] else [a, b]) [d] [] [] []
    (fun vs => ⟨.amo sel w, .g d, oc, k.getLsbD 0, k.getLsbD 1, 0, vs.getD 1 .zero, vs.getD 2 .zero, [], none⟩) s
/-- AMADD. -/
def execAmadd (d a b : GReg) (k : BitVec 2) (w : Bool) (oc : BitVec 3) (s : State) : Result := amoOp 0 d a b k w oc s
/-- AMMIN. -/
def execAmmin (d a b : GReg) (k : BitVec 2) (w : Bool) (oc : BitVec 3) (s : State) : Result := amoOp 1 d a b k w oc s
/-- AMMAX. -/
def execAmmax (d a b : GReg) (k : BitVec 2) (w : Bool) (oc : BitVec 3) (s : State) : Result := amoOp 2 d a b k w oc s
/-- AMMINZ. -/
def execAmminz (d a b : GReg) (k : BitVec 2) (w : Bool) (oc : BitVec 3) (s : State) : Result := amoOp 3 d a b k w oc s
/-- AMMAXZ. -/
def execAmmaxz (d a b : GReg) (k : BitVec 2) (w : Bool) (oc : BitVec 3) (s : State) : Result := amoOp 4 d a b k w oc s
/-- AMAND. -/
def execAmand (d a b : GReg) (k : BitVec 2) (w : Bool) (oc : BitVec 3) (s : State) : Result := amoOp 5 d a b k w oc s
/-- AMOR. -/
def execAmor (d a b : GReg) (k : BitVec 2) (w : Bool) (oc : BitVec 3) (s : State) : Result := amoOp 6 d a b k w oc s
/-- AMXOR. -/
def execAmxor (d a b : GReg) (k : BitVec 2) (w : Bool) (oc : BitVec 3) (s : State) : Result := amoOp 7 d a b k w oc s
/-- AMSWP. -/
def execAmswp (d a b : GReg) (k : BitVec 2) (w : Bool) (oc : BitVec 3) (s : State) : Result := amoOp 8 d a b k w oc s
/-- AMCAS. -/
def execAmcas (d a b : GReg) (k : BitVec 2) (w : Bool) (oc : BitVec 3) (s : State) : Result := amoOp 9 d a b k w oc s
/-- AMFADD (R198). -/
def execAmfadd (d a b : GReg) (k : BitVec 2) (w : Bool) (oc : BitVec 3) (s : State) : Result := amoOp 10 d a b k w oc s
/-- AMINC. -/
def execAminc (d a b : GReg) (k : BitVec 2) (w : Bool) (oc : BitVec 3) (s : State) : Result := amoOp 11 d a b k w oc s
/-- A RED by the AMO selector of the same operation (R200). -/
def redOp (sel : BitVec 4) (a b : GReg) (rel w : Bool) (oc : BitVec 3) (s : State) : Result :=
  memAccess 4 [a, b] [] [] [] [] (fun vs => ⟨.red sel w, .none, oc, false, rel, 0, vs.getD 1 .zero, .zero, [], none⟩) s
/-- REDADD. -/
def execRedadd (a b : GReg) (rel w : Bool) (oc : BitVec 3) (s : State) : Result := redOp 0 a b rel w oc s
/-- REDMIN. -/
def execRedmin (a b : GReg) (rel w : Bool) (oc : BitVec 3) (s : State) : Result := redOp 1 a b rel w oc s
/-- REDMAX. -/
def execRedmax (a b : GReg) (rel w : Bool) (oc : BitVec 3) (s : State) : Result := redOp 2 a b rel w oc s
/-- REDFADD (R198, R200). -/
def execRedfadd (a b : GReg) (rel w : Bool) (oc : BitVec 3) (s : State) : Result := redOp 10 a b rel w oc s
/-- REDOR. -/
def execRedor (a b : GReg) (rel w : Bool) (oc : BitVec 3) (s : State) : Result := redOp 6 a b rel w oc s

/-- SQLD: an LD of 16 bytes into a q register (R203). -/
def execSqld (q : QNum) (a : GReg) (oc : BitVec 3) (s : State) : Result :=
  memAccess 4 [a] [] [] [q] [] (fun _ => ⟨.sqld, .q q, oc, false, false, 0, .zero, .zero, [], none⟩) s

/-! ## Service at the home -/

/-- Words that a request reads at its home. -/
def Req.readSpan (r : Req) : Nat × Nat :=
  let a := r.pa.toNat
  match r.op with
  | .ldv _ => (a, 16)
  | .sqld => (a, 4)
  | .ldfe _ | .feq => (a, 2)
  | .ld n _ => wordSpan a n
  | .amo _ w | .red _ w => (a, if w then 2 else 1)
  | _ => (a, 0)
/-- Words written from an address at their home (R84, R157). -/
def State.storeAt (s : State) (a : Nat) (ws : List W32) : State :=
  if 0xF0000000000 ≤ a then s else { (s.touch a) with mem := s.mem.setWords (s.place a) ws }
/-- Pairs of valid words stored to control registers from an address (R80, R131). -/
def State.ctrlWords (s : State) (a : Nat) : List W32 → State
  | lo :: hi :: t => (if lo.valid && hi.valid then s.ctrlWrite a (hi.bits ++ lo.bits) else s).ctrlWords (a + 8) t
  | _ => s
/-- A store to a control register: the bytes of the store replace those of the register (R80, R131); invalid data changes nothing, since a
control register holds no validity (log 17). -/
def State.ctrlStore (s : State) (a n : Nat) (v : Val) : State :=
  if !v.valid then s
  else
    let m : Word := BitVec.ofNat 64 ((2 ^ (8 * n) - 1) * 2 ^ (8 * (a % 8)))
    let k := a / 8 * 8
    s.ctrlWrite k ((s.ctrlRead k &&& ~~~m) ||| ((v.bits <<< (8 * (a % 8))) &&& m))
/-- A write performed at its home (R183, R190, R193, R197, R200), in one step of all its words (log 96). -/
def State.performWrite (s0 : State) (r : Req) : State :=
  let a := r.pa.toNat
  let s := s0.sliceUse a r.sig (.write (r.op == .stv))
  match r.op with
  | .st n =>
    if 0xF0000000000 ≤ a then s.ctrlStore a n r.val
    else s.storeAt (a / 4 * 4) (storeWords a n r.val [s.loadWord r.plot (a / 4 * 4)])
  | .stv => if 0xF0000000000 ≤ a then s.ctrlWords a r.vec else s.storeAt a r.vec
  | .stfe => (s.storeAt a (storeWords a 8 r.val [])).setFe a true
  | .feset full => s.setFe a full
  | .red k w | .amo k w =>
    if s.expired a then s.touch a
    else match amoWords k.toNat w (s.loadWords r.plot a (if w then 2 else 1)) r.val r.cmp with
      | some ws => s.storeAt a ws
      | none => s.touch a
  | _ => s
/-- Whether a full/empty load may be served (R193). -/
def State.feReady (s : State) (r : Req) : Bool :=
  match r.op with
  | .ldfe _ => s.mem.fe (s.place r.pa.toNat)
  | _ => true
/-- What a read leaves at its home: LDFE.clr empties the granule; an atomic writes. -/
def State.readEffect (s : State) (r : Req) : State :=
  match r.op with
  | .ldfe true => s.setFe r.pa.toNat false
  | .amo _ _ => s.performWrite r
  | _ => s
/-- The words a read returns; FEQ returns the granule's bit (R193). -/
def State.readResult (s : State) (r : Req) : List W32 :=
  match r.op with
  | .feq => [⟨true, if s.mem.fe (s.place r.pa.toNat) then 1 else 0⟩, W32.zero]
  | _ => s.loadWords r.plot r.readSpan.1 r.readSpan.2
/-- A retained read ends in its precise trap: nothing of it remains (R85, R203). A held slot takes no trap (R388); its instruction executes
again when it is resumed. -/
def State.dropRetained (s : State) (id : Nat) (r : Req) (t : Trap) : State :=
  let s1 := { (s.modSlot r.plot r.slot fun x => { x.countDown true with wait := none }) with reqs := tdel s.reqs id }
  if (s.slotAt r.plot r.slot).held then s1
  else
    let f := s1.focus
    let s2 := { s1 with focus := { f with plot := r.plot, slot := r.slot } }
    { (s2.trapNow t) with focus := f }
/-- An expired read in a region with trap-on-expiry (R85). -/
def State.expiryTrap (s : State) (r : Req) : Bool :=
  r.retained && r.unit != 16 && s.expired r.pa.toNat && (match s.transientOf r.pa.toNat with
    | some t => t.2.trapFlag
    | none => false)
/-- A read performed at its home (R116). -/
def State.answer (s : State) (id : Nat) (r : Req) : State :=
  if s.expiryTrap r then s.dropRetained id r (mkTrap 0x3A r.va)
  else (s.readEffect r).respond id r (s.readResult r)
/-- Another slot of the plot has a store to bytes of a load under way, which its L1 line holds already: the load takes the home's value, since
only the writer sees a write before it has performed (R338). -/
def State.l1Early (s : State) (r : Req) : Bool :=
  s.reqs.any fun e => e.2.plot == r.plot && e.2.slot != r.slot && e.2.op.plainStore && e.2.overlaps r
/-- A load or LDV whose line the L1 may hold (R156). -/
def State.l1Line (s : State) (r : Req) : Option (List W32) :=
  match r.op with
  | .ld _ _ | .ldv _ =>
    if !r.acq && r.unit != 16 && s.l1May r.plot false r.pa.toNat && !s.l1Early r then tfind (s.plotAt r.plot).l1 (r.pa.toNat / 64) else none
  | _ => none
/-- The pure reads that READ_SERVE serves. -/
def Op.pureRead : Op → Bool
  | .ld .. | .ldv .. | .sqld | .ldfe .. | .feq => true
  | _ => false
/-- READ_SERVE (R116, R156, R194): a read is served by its plot's L1, if it holds the line and the part chooses so (log 8), or at
its home once the home's vector covers its stamp, the slot's order and its stream (R199) let it, and its transient region was not written
in this clk (R84). An LDFE whose granule is empty waits there in order of arrival (R194). -/
def execReadServe (id : Nat) (s : State) : Result :=
  match tfind s.reqs id with
  | none => .next s
  | some r =>
    if r.stage != .issued || !r.op.pureRead || r.unit == 16 then .next s
    else
      let hit := match s.l1Line r with
        | some line => if s.mayGo id r true then (match s.choose with
            | (true, s') => some (s'.setReq id { r with stage := .served, resp := (line.drop (r.readSpan.1 % 64 / 4)).take r.readSpan.2 }, true)
            | (false, s') => some (s', false)) else none
        | none => none
      match hit with
      | some (s', true) => .next s'
      | _ =>
        let s0 := match hit with
          | some (s', _) => s'
          | none => s
        if !s0.mayGo id r false || !s0.firstInStream id r || !s0.covers r.unit r.stamp 8 || s0.isRemoved r.unit || s0.justWritten r.pa.toNat then .next s
        else if !s0.feReady r then
          .next (if r.arr = 0 then { (s0.setReq id { r with arr := s0.nextId + 1 }) with nextId := s0.nextId + 1 } else s)
        else
          let s1 := s0.sliceUse r.pa.toNat r.sig .read
          let s2 := match r.op with
            | .ld _ _ | .ldv _ => if s1.l1May r.plot false r.pa.toNat && !r.acq && s1.l1Fresh r.plot then s1.allocL1 r.plot r.pa.toNat else s1
            | _ => s1
          .next (s2.answer id r)
/-- READ_RESPONSE_MERGE (R116, R117): the response reaches the reading die; its vector grows and the plot's L1 is emptied. While the
plot's context is saved the response is held (R98). -/
def execReadResponseMerge (id : Nat) (s : State) : Result :=
  match tfind s.reqs id with
  | none => .next s
  | some r => match r.stage with
    | .answering stamp =>
      if !s.plotRuns r.plot then .next s else
      let s1 := ((s.mergeDv (dieOf r.plot) stamp).flushL1 r.plot).setReq id { r with stage := .served }
      .next (if r.acq then s1.raiseStamps id r else s1)
    | _ => .next s
/-- A write leaves the table: performed at its home (R180). -/
def State.finishWrite (s : State) (id : Nat) (r : Req) : State :=
  { (s.modSlot r.plot r.slot fun x => x.countDown false) with reqs := tdel s.reqs id }
/-- A request may perform at its home on the issuing die. -/
def State.homeReady (s : State) (id : Nat) (r : Req) : Bool :=
  r.stage == .issued && r.unit == dieOf r.plot && s.mayGo id r false && s.firstInStream id r && !s.isRemoved r.unit
/-- Plain and full/empty stores. -/
def Op.pureStore : Op → Bool
  | .st .. | .stv | .stfe | .feset .. => true
  | _ => false
/-- STORE_PERFORM at a home on the issuing die (R324); across dies a store performs when its packet is delivered (R114). -/
def execStorePerform (id : Nat) (s : State) : Result :=
  match tfind s.reqs id with
  | none => .next s
  | some r => if s.homeReady id r && r.op.pureStore then .next (((s.performWrite r).performL1 r).finishWrite id r) else .next s
/-- AMO_PERFORM at a home on the issuing die (R197, R116); its read comes before the writes of its clk (R84). -/
def execAmoPerform (id : Nat) (s : State) : Result :=
  match tfind s.reqs id with
  | none => .next s
  | some r => match r.op with
    | .amo _ _ => if s.homeReady id r && s.covers r.unit r.stamp 8 && !s.justWritten r.pa.toNat then .next ((s.performL1 r).answer id r) else .next s
    | _ => .next s
/-- RED_PERFORM at a home on the issuing die (R200), which reads too (R84). -/
def execRedPerform (id : Nat) (s : State) : Result :=
  match tfind s.reqs id with
  | none => .next s
  | some r => match r.op with
    | .red _ _ => if s.homeReady id r && !s.justWritten r.pa.toNat then .next (((s.performWrite r).performL1 r).finishWrite id r) else .next s
    | _ => .next s

/-- The register a request's words make (R182, R188, R190, R196). -/
def Req.result (r : Req) (plot : Nat) : Val × VReg × BitVec 128 :=
  let q : BitVec 128 := (r.resp.getD 3 W32.zero).bits ++ (r.resp.getD 2 W32.zero).bits ++ (r.resp.getD 1 W32.zero).bits ++ (r.resp.getD 0 W32.zero).bits
  match r.op with
  | .ld n sg => (loadVal r.resp (if n < 4 then r.pa.toNat % 4 else 0) n sg, ⟨0, 0, 0⟩, q)
  | .amo k w => (loadVal r.resp 0 (if w then 8 else 4) (!(k == 3 || k == 4 || k == 10 || k == 11)), ⟨0, 0, 0⟩, q)
  | .ldv f =>
    let ws := r.resp.map fun w => if f == 11 && w.valid && w.bits.extractLsb' 30 2 != 0 then ⟨false, payloadBits 7 plot 0⟩ else w
    (.zero, vregOf (f.zeroExtend 16) ws, q)
  | _ => (loadVal r.resp 0 8 false, ⟨0, 0, 0⟩, q)
/-- A result written to its destination (R180, R24): a flit's own fault is taken at a later boundary (log 13). -/
def State.writeDest (s : State) (id : Nat) (r : Req) : State :=
  let v := r.result r.plot
  match r.dest with
  | .none => s
  | .v n => s.modSlot r.plot r.slot fun x => x.putV n v.2.1
  | .q n => s.modSlot r.plot r.slot fun x => { x.putQ n v.2.2 with qsrc := tset x.qsrc n.toNat (r.va.extractLsb' 6 12) }
  | .g n =>
    if n = 0 ∨ n = 31 then s
    else if n = 30 then (match s.sendLoaded id r.plot r.slot v.1 with
      | .ok s' => s'
      | .error t => s.pendTrap r.plot r.slot (if t.cause = 0x48 then .die else .word) t)
    else s.modSlot r.plot r.slot fun x => x.putG n v.1
/-- An instruction whose read was retained goes on: its flits are popped and the pc moves. -/
def State.resumeRetained (s : State) (r : Req) : State :=
  let f := s.focus
  let size := (r.vec.getD 0 W32.zero).bits.toNat
  let pops := (r.vec.getD 1 W32.zero).bits.toNat
  let s1 := { (s.modSlot r.plot r.slot fun x => { x with wait := none }) with focus := { f with plot := r.plot, slot := r.slot } }
  { ((s1.afterReads (List.replicate pops 31)).advance size) with focus := f }
/-- LOAD_COMPLETE (R180): the data of a load or atomic is written to its destination; SQLD refuses an invalid word (R203). What is
served while the plot's context is saved is delivered after it is restored (R98, R195). -/
def execLoadComplete (id : Nat) (s : State) : Result :=
  match tfind s.reqs id with
  | none => .next s
  | some r =>
    if !r.op.reads || r.stage != .served || !s.plotRuns r.plot then .next s
    else
      match (if r.op == .sqld && r.retained then r.resp.find? (!·.valid) else none) with
      | some w => .next (s.dropRetained id r ⟨0x18, (normPayload w.bits).zeroExtend 64, 0⟩)
      | none =>
        let s1 := { (s.modSlot r.plot r.slot fun x => x.countDown true) with reqs := tdel s.reqs id }
        let s2 := s1.writeDest id r
        .next (if r.retained then s2.resumeRetained r else s2)

/-! ## Host pages and walks -/

/-- Session of the instance that holds a plot. -/
def State.hostSession (s : State) (plot : Nat) : Option (Nat × Session) :=
  match s.sessOf plot with
  | some k => (tfind s.sessions k).map fun x => (k, x)
  | none => none
/-- `n` bytes of a session's registered memory. -/
def hostBytes (x : Session) (a : Nat) : (n : Nat) → List Byte
  | 0 => []
  | n + 1 => tget 0 x.host a :: hostBytes x (a + 1) n
/-- A word of registered memory, which arrives valid (R69). -/
def hostWord (x : Session) (a : Nat) : W32 :=
  ⟨true, tget 0 x.host (a + 3) ++ tget 0 x.host (a + 2) ++ tget 0 x.host (a + 1) ++ tget 0 x.host a⟩
/-- Bytes written to registered memory. -/
def hostPut (x : Session) (a : Nat) : List Byte → Session
  | [] => x
  | b :: t => hostPut { x with host := if b = 0 then tdel x.host a else tset x.host a b } (a + 1) t
/-- The four bytes of a word. -/
def wordBytesOf (w : BitVec 32) : List Byte := [w.extractLsb' 0 8, w.extractLsb' 8 8, w.extractLsb' 16 8, w.extractLsb' 24 8]
/-- A store's words at registered memory: host memory holds no validity, so the bytes of an invalid word are its payload's. -/
def hostStore (x : Session) (r : Req) : Session :=
  let a := r.pa.toNat
  match r.op with
  | .st n =>
    if r.val.valid then hostPut x a ((List.range n).map fun i => r.val.bits.extractLsb' (8 * i) 8)
    else hostPut x (a / 4 * 4) ((storeWords a n r.val []).flatMap fun w => wordBytesOf w.bits)
  | .stv => hostPut x a (r.vec.flatMap fun w => wordBytesOf w.bits)
  | .red k w | .amo k w => match amoWords k.toNat w ((List.range (if w then 2 else 1)).map fun i => hostWord x (a + 4 * i)) r.val r.cmp with
    | some ws => hostPut x a (ws.flatMap fun w => wordBytesOf w.bits)
    | none => x
  | _ => x
/-- The access lies within the session's registered memory (R94). -/
def State.hostInside (s : State) (r : Req) : Bool :=
  match s.hostSession r.plot with
  | some (_, x) => decide ((r.op.span r.pa.toNat).1 + (r.op.span r.pa.toNat).2 ≤ x.hlen)
  | none => false
/-- Request kind of an operation in a report (R423). -/
def Op.reportKind : Op → Nat
  | .red .. => 3
  | .amo .. => 2
  | o => if o.writes then 1 else 0
/-- Request kind of a walk in a report (R423). -/
def Walk.reportKind (w : Walk) : Nat :=
  if w.kind = 12 then 0 else if 10 ≤ w.kind then w.kind - 6 else if w.ticket.isSome then (if w.kind = 0 then 4 else 5) else if w.kind = 3 then 2 else if w.kind = 4 then 3 else if w.kind = 1 then 1 else 0
/-- First detail quadword of a report of a parked request (R423). -/
def parkWord (id : Nat) (cause : BitVec 8) (plot slot : Nat) (oc : BitVec 3) (walker : Bool) (kind : Nat) : Nat :=
  id + cause.toNat * 2 ^ 32 + plot * 2 ^ 40 + slot * 2 ^ 53 + oc.toNat * 2 ^ 56 + (if walker then 2 ^ 59 else 0) + kind * 2 ^ 60
/-- A fault id and the report of a parked request (R94, R95, R423): `place` is the parking slice plot or stack. -/
def State.parkReport (s : State) (plot slot : Nat) (oc : BitVec 3) (va : Word) (cause : BitVec 8) (walker : Bool) (kind place pa : Nat) : Nat × State :=
  let id := s.parkIds + 1
  let s1 := { s with parkIds := id }
  let q := parkWord id cause plot slot oc walker kind
  (id, match s.sessOf plot with
    | some se => s1.report se 1 [q, va.toNat, place, pa]
    | none => s1)
/-- An earlier request of the same source, slot and order class, to the same slice line is parked, or was replayed and has not performed:
the later one comes behind it (R97). -/
def State.parkedBefore (s : State) (id : Nat) (r : Req) : Bool :=
  (s.reqsOf r.plot r.slot).any fun e => decide (e.1 < id) && e.2.oc == r.oc && e.2.unit == r.unit && e.2.pa.toNat / 128 == r.pa.toNat / 128
    && (match e.2.stage with
      | .parked _ => true
      | .issued => e.2.replayed
      | _ => false)
/-- An engine's access to a host page of the same source and slice line was parked before (R97). -/
def State.engineBefore (s : State) (id : Nat) (r : Req) : Bool :=
  s.walks.any fun w => decide (w.1 < id) && w.2.plot == r.plot && w.2.slot == r.slot && w.2.oc == r.oc && (w.2.kind == 10 || w.2.kind == 11)
    && w.2.parked.isSome && !w.2.declined && !w.2.done && w.2.va.toNat / 128 == r.va.toNat / 128
/-- The slice plot whose walker serves a plot's miss (R91), where its requests to host pages park too. -/
def walkerSlice (plot : Nat) (va : Word) : Nat := dieOf plot * 128 + (va.extractLsb' 25 7 ^^^ va.extractLsb' 32 7).toNat
/-- Requests parked in a slice's fault queue (R94): walks, fetches and engine accesses, and requests to host pages. -/
def State.parkedAt (s : State) (slice : Nat) : Nat :=
  (s.walks.filter fun w => w.2.parked.isSome && !w.2.declined && !w.2.done && walkerSlice w.2.plot w.2.va == slice).length
    + (s.reqs.filter fun e => walkerSlice e.2.plot e.2.va == slice && (match e.2.stage with
      | .parked _ => true
      | _ => false)).length
/-- HOST_PAGE_ACCESS (R93, R94): the front end serves a request to a host page, or parks it when it lies outside the registered
memory, in a queue of 64 entries that is not full. A write is performed when it is accepted, and acknowledged later (R326). -/
def execHostPageAccess (id : Nat) (s : State) : Result :=
  match tfind s.reqs id with
  | none => .next s
  | some r =>
    if r.unit != 16 || r.stage != .issued || !s.mayGo id r false || !s.firstInStream id r || s.parkedBefore id r || s.engineBefore id r || (r.rel && !s.hostAcked r.plot r.slot r.oc) then .next s
    else if !s.hostInside r then
      if 64 ≤ s.parkedAt (walkerSlice r.plot r.va) then .next s else
      let p := s.parkReport r.plot r.slot r.oc r.va (if r.op.kind = 0 then 0x08 else 0x09) false r.op.reportKind
        (slicePlot (walkerSlice r.plot r.va)) r.pa.toNat
      .next (p.2.setReq id { r with stage := .parked p.1 })
    else match s.hostSession r.plot with
      | none => .next s
      | some (k, x) =>
        let ws := (List.range r.readSpan.2).map fun i => hostWord x (r.readSpan.1 + 4 * i)
        let x' := if r.op.writes then hostStore x r else x
        let s1 := { s with sessions := tset s.sessions k x', hostAcks := if r.op.writes then tset s.hostAcks id ((8 * r.plot + r.slot) * 8 + r.oc.toNat) else s.hostAcks }
        if r.op.reads then
          let s2 := s1.setReq id { r with stage := .served, resp := ws }
          .next (if r.acq then s2.flushL1 r.plot else s2)
        else .next (s1.finishWrite id r)

/-- Two walks are of one source, slot and order class, for one slice line (R97). -/
def Walk.sameLine (e w : Walk) : Bool :=
  decide (e.kind < 10) && e.plot == w.plot && e.slot == w.slot && e.oc == w.oc && e.va.toNat / 128 == w.va.toNat / 128
/-- The fault id under which an earlier walk of the source to the line is parked (R97). -/
def State.walkAhead (s : State) (id : Nat) (w : Walk) : Option Nat :=
  s.walks.findSome? fun e => if decide (e.1 < id) && e.2.sameLine w && !e.2.declined then e.2.parked else none
/-- An earlier walk of the source to the line has not ended: it was replayed, or is on its way (R97). -/
def State.walkBefore (s : State) (id : Nat) (w : Walk) : Bool :=
  s.walks.any fun e => decide (e.1 < id) && e.2.sameLine w && !e.2.declined && e.2.lost.isNone
/-- PAGE_WALK (R90, R91, R94): a walk whose reads of the tables are served (R116) fills the translation cache, or parks in its slice's queue
of 64 entries; a table on a removed die ends it (R121). Behind an earlier one of its source and line that is parked it parks too, under that
one's fault id (R97). A prefetch goes on to its line, and parks never (R191). -/
def execPageWalk (id : Nat) (s : State) : Result :=
  match tfind s.walks id with
  | none => .next s
  | some w =>
    if w.parked.isSome || w.declined || w.lost.isSome then .next s
    else if w.kind = 13 then .next (match s.prefetchNow (w.data.bits.extractLsb' 12 5) w.plot (w.data.bits.extractLsb' 0 12) w.stamp w.va with
      | some s' => { s' with walks := tdel s'.walks id }
      | none => s)
    else match s.walkAhead id w with
    | some f => .next (if 64 ≤ s.parkedAt (walkerSlice w.plot w.va) then s else { s with walks := tset s.walks id { w with parked := some f } })
    | none =>
    if s.walkBefore id w then .next s
    else match s.walkTables w.plot w.stamp w.va with
      | .wait => .next s
      | .lost d => .next { s with walks := tset s.walks id { w with lost := some d } }
      | .done s1 => match s.walkVa w.plot w.va with
        | some e => .next { (s1.fillTlb w.plot e) with walks := tdel s1.walks id }
        | none =>
          if 64 ≤ s1.parkedAt (walkerSlice w.plot w.va) then .next s
          else
            let p := s1.parkReport w.plot w.slot w.oc w.va (translationCause w.kind) true w.reportKind
              (slicePlot (walkerSlice w.plot w.va)) 0
            .next { p.2 with walks := tset p.2.walks id { w with parked := some p.1 } }

end Sys2Proof.Machine
end

