-- ==== Sys2Proof/Machine/Order.lean ====
section
/-! DEFINITION. FENCE and WAIT (R325-R337); ARC stands with the stream words, which share its counters. -/

namespace Sys2Proof.Machine

/-- A class is covered by a FENCE mask (R332). -/
def maskCovers (mask : BitVec 8) (oc : BitVec 3) : Bool := mask.getLsbD 7 || mask.getLsbD oc.toNat
/-- Reads of covered classes are performed, with their responses merged (R332, R327). -/
def State.readsDone (s : State) (p k : Nat) (mask : BitVec 8) : Bool :=
  (s.reqsOf p k).all fun e => !(e.2.op.reads && maskCovers mask e.2.oc) || e.2.released
/-- Writes and flits of covered classes, with the flits that earlier loads are still to send, are released, or performed, at a scope (R326). -/
def State.writesDone (s : State) (p k : Nat) (mask : BitVec 8) (scope : Nat) (full : Bool) : Bool :=
  ((s.reqsOf p k).all fun e => (!(e.2.op.writes && maskCovers mask e.2.oc) || (if full || 9 ≤ scope then e.2.performed else e.2.released))
    && !(mask.getLsbD 7 && e.2.sends))
  && (!mask.getLsbD 7 || (s.flitsOut p k).isEmpty)
  && (!(scope == 8 || scope == 10) || !mask.getLsbD 7 || s.peerOut.all fun e => !(e.2.src == p && e.2.sender == k))
  && (!(9 ≤ scope) || s.hostAcks.all fun e => e.2 / 8 != 8 * p + k || !maskCovers mask (BitVec.ofNat 3 (e.2 % 8)))
/-- FENCE (R331, R332): kind 1 acquire, 2 release, 3 full. -/
def execFence (mask : BitVec 8) (k : BitVec 2) (scope : BitVec 4) (s : State) : Result :=
  let p := s.focus.plot
  let n := s.focus.slot
  let acq := k.getLsbD 0
  let ok := (!acq || s.readsDone p n mask) && (!k.getLsbD 1 || s.writesDone p n mask scope.toNat (k == 3))
  if !ok then .next s
  else .next ((if acq && decide (2 ≤ scope.toNat) then s.flushL1 p else s).advance 4)

/-- A counter is within its bound; 15 sets none (R337). -/
def withinBound (f : BitVec 4) (n : BitVec 16) : Bool := f == 15 || decide (n.toNat ≤ f.toNat)
/-- WAIT (R337). -/
def execWait (loads stores copies tiles : BitVec 4) (s : State) : Result :=
  let x := s.cur
  if withinBound loads x.cntld && withinBound stores x.cntst && withinBound copies x.cntcp && withinBound tiles x.cnttl
  then .next (s.advance 4) else .next s

end Sys2Proof.Machine
end

