-- ==== Sys2Proof/Machine/Regions.lean ====
section
/-! DEFINITION. Regions, their ports and channels (R209, R232-R237, R242, R251, R273, R393). -/

namespace Sys2Proof.Machine

/-- Key of region `idx` of an instance. -/
def regionKey (inst idx : Nat) : Nat := 256 * inst + idx
/-- The plot in plot row `i` and plot column `j` of a region. -/
def Region.plotAtRC (r : Region) (i j : Nat) : Nat := r.die * 1024 + (r.y0 + i) * 32 + (regionCols r.x0 r.w).getD j 0
/-- Distance in clk of a physical row of a region from its first (R237). -/
def rowDistance (y0 pr : Nat) : Nat := pr + if y0 ≤ 15 ∧ 16 ≤ y0 + pr / 8 then 1 else 0
/-- Distance in clk of a physical column of a region from its first (R237). -/
def colDistance (x0 w pc : Nat) : Nat := pc + 2 * ((regionCols x0 w).getD (pc / 8) x0 / 8 - x0 / 8)
/-- The region's plots, row by row. -/
def Region.plotIds (r : Region) : List Nat := (List.range r.h).flatMap fun i => (List.range r.w).map fun j => r.plotAtRC i j
/-- Ports p0-p3 and p12-p15 lie on a row edge, p4-p11 on a column edge (R209). -/
def rowSide (port : Nat) : Bool := port / 4 == 0 || port / 4 == 3
/-- Plots along the edge of a port (R209). -/
def Region.edgeLen (r : Region) (port : Nat) : Nat := if rowSide port then r.h else r.w
/-- The edge plot that holds port `port` of edge index `idx`. -/
def Region.edgePlot (r : Region) (idx port : Nat) : Nat :=
  match port / 4 with
  | 0 => r.plotAtRC idx 0
  | 1 => r.plotAtRC 0 idx
  | 2 => r.plotAtRC (r.h - 1) idx
  | _ => r.plotAtRC idx (r.w - 1)
/-- Key of a port of a region. -/
def Region.portKey (r : Region) (idx port : Nat) : Nat := 16 * r.edgePlot idx port + port
/-- The port-map record of a port, if it connects it (R242): of several the first (log 117). -/
def Region.map (r : Region) (idx port : Nat) : Option PortMap := r.ports.find? fun m => m.idx == idx && m.port == port && m.conn != 0
/-- The edge index of an edge plot of the region along a port's edge. -/
def Region.edgeIndex (r : Region) (plot port : Nat) : Option Nat :=
  (List.range (r.edgeLen port)).find? fun i => r.edgePlot i port == plot
/-- The region that holds a plot, with its key. -/
def State.regionOf (s : State) (plot : Nat) : Option (Nat × Region) :=
  match (s.plotAt plot).region with
  | some k => (tfind s.regions k).map fun r => (k, r)
  | none => none
/-- The port-map record of a port by its key. -/
def State.portMap (s : State) (key : Nat) : Option PortMap :=
  match s.regionOf (key / 16) with
  | some (_, r) => match r.edgeIndex (key / 16) (key % 16) with
    | some i => r.map i (key % 16)
    | none => none
  | none => none
/-- The port-map record that serves logical line `l` of a side: 0 west feed, 1 north feed, 2 south drain, 3 east drain. -/
def Region.lineMap (r : Region) (side l : Nat) : Option PortMap :=
  r.ports.find? fun m => m.conn != 0 && m.port / 4 == side && (m.line0 == l || m.line1 == l)
/-- Key of the port of a record. -/
def Region.mapKey (r : Region) (m : PortMap) : Nat := r.portKey m.idx m.port
/-- Logical lines of a side: rows on the west and east, columns on the north and south (R236). -/
def Region.lineCount (r : Region) (side : Nat) : Nat := if side == 0 || side == 3 then r.rows.length else r.cols.length
/-- Region changed. -/
def State.modRegion (s : State) (k : Nat) (f : Region → Region) : State :=
  match tfind s.regions k with
  | some r => { s with regions := tset s.regions k (f r) }
  | none => s

/-! ## Freezing -/

/-- A route put in its place in record order. -/
def insRoute (r : Route) : List Route → List Route
  | [] => [r]
  | x :: t => if x.recIdx ≤ r.recIdx then x :: insRoute r t else r :: x :: t
/-- Routes of an instance's installed regions (R242), in record order (R273). -/
def State.routesOf (s : State) (inst : Nat) : List Route :=
  ((s.regions.filter fun e => e.1 / 256 == inst).flatMap fun e => e.2.routes).foldl (fun l r => insRoute r l) []
/-- Regions reached from some by following routes, `n` times. -/
def reachN (routes : List Route) : (n : Nat) → List Nat → List Nat
  | 0, l => l
  | n + 1, l =>
    let l' := routes.foldl (fun a t => if a.contains t.sreg && !a.contains t.dreg then t.dreg :: a else a) l
    if l'.length == l.length then l else reachN routes n l'
/-- A region downstream, or the region itself, is frozen by a trap (R393). -/
def State.trapFrozen (s : State) (k : Nat) : Bool :=
  (reachN (s.routesOf (k / 256)) 256 [k % 256]).any fun i => match tfind s.regions (regionKey (k / 256) i) with
    | some r => r.frozenTrap
    | none => false
/-- The region's handshakes have stopped (R251, R369, R393, R405). -/
def State.regionFrozen (s : State) (k : Nat) : Bool :=
  match tfind s.regions k with
  | some r => r.frozenProg || r.frozenLoad || r.frozenPre || s.trapFrozen k
  | none => false
/-- The port's handshakes have stopped. -/
def State.portFrozen (s : State) (key : Nat) : Bool :=
  match (s.plotAt (key / 16)).region with
  | some k => s.regionFrozen k
  | none => false
/-- The instance of a plot runs, or is being halted. -/
def State.instRuns (s : State) (plot : Nat) : Bool :=
  match (s.plotAt plot).inst with
  | some i => match tfind s.insts i with
    | some x => x.saved == .running || x.saved == .halting
    | none => false
  | none => false
/-- The instance of a plot runs and no pre-emption has stopped it (R405). -/
def State.instLive (s : State) (plot : Nat) : Bool :=
  match (s.plotAt plot).inst with
  | some i => match tfind s.insts i with
    | some x => x.saved == .running
    | none => false
  | none => false

/-! ## Ports -/

/-- Place of a port along its edge (R209, R242). -/
def edgePos (idx port : Nat) : Nat := 4 * idx + port % 4
/-- The destination port of a route for the port at place `pos` of its source edge. -/
def routeDst (s : State) (inst : Nat) (t : Route) (pos : Nat) : Option Nat :=
  match tfind s.regions (regionKey inst t.dreg) with
  | some r =>
    let q := edgePos t.didx t.dport + (pos - edgePos t.sidx t.sport)
    some (r.portKey (q / 4) (t.dport / 4 * 4 + q % 4))
  | none => none
/-- A route's lanes take in the port (R242). -/
def laneOf (idx0 port0 lanes idx port : Nat) : Bool :=
  port / 4 == port0 / 4 && decide (edgePos idx0 port0 ≤ edgePos idx port) && decide (edgePos idx port ≤ edgePos idx0 port0 + lanes)
/-- Destinations of a port's routes, in record order; ring routes carry no port beats (R275). -/
def State.routeDsts (s : State) (key : Nat) : List Nat :=
  match s.regionOf (key / 16), s.portMap key with
  | some (k, r), some m =>
    ((s.routesOf (k / 256)).filter fun t => t.sreg == r.index && t.kind != 2 && laneOf t.sidx t.sport t.lanes m.idx m.port).filterMap
      fun t => routeDst s (k / 256) t (edgePos m.idx m.port)
  | _, _ => []
/-- Routes that name a port as destination, of every kind, in record order. -/
def State.routesInto (s : State) (k : Nat) (r : Region) (m : PortMap) : List Route :=
  (s.routesOf (k / 256)).filter fun t => t.dreg == r.index && laneOf t.didx t.dport t.lanes m.idx m.port
/-- Source ports of the routes into a port, in record order. -/
def State.routeSrcs (s : State) (key : Nat) : List Nat :=
  match s.regionOf (key / 16), s.portMap key with
  | some (k, r), some m =>
    ((s.routesInto k r m).filter fun t => t.kind != 2).filterMap
      fun t => (tfind s.regions (regionKey (k / 256) t.sreg)).map fun sr =>
        let q := edgePos t.sidx t.sport + (edgePos m.idx m.port - edgePos t.didx t.dport)
        sr.portKey (q / 4) (t.sport / 4 * 4 + q % 4)
  | _, _ => []
/-- A beat of one invalid word (R273). -/
def badBeat (payload : BitVec 32) : Beat := ⟨0, (List.range 8).foldl (fun b i => b ||| (payload.zeroExtend 256 <<< (32 * i))) 0⟩
/-- Words of a beat. -/
def beatWords (b : Beat) : List W32 := (List.range 8).map fun i => ⟨b.ok.getLsbD i, b.bits.extractLsb' (32 * i) 32⟩
/-- A beat from its words. -/
def beatOf (ws : List W32) : Beat :=
  ⟨(List.range 8).foldl (fun o i => if (ws.getD i W32.zero).valid then o ||| (1 <<< i) else o) 0,
   (List.range 8).foldl (fun b i => b ||| ((ws.getD i W32.zero).bits.zeroExtend 256 <<< (32 * i))) 0⟩
/-- Word `i` of a beat replaced. -/
def beatSetWord (b : Beat) (i : Nat) (w : W32) : Beat :=
  beatOf ((List.range 8).map fun j => if j = i then w else ⟨b.ok.getLsbD j, b.bits.extractLsb' (32 * j) 32⟩)
/-- An index of a steering queue read against `n` outputs: an output, or the payload its beat carries (R273). -/
def steerIndex (w : W32) (n plot ordinal : Nat) : Nat × Option (BitVec 32) :=
  if !w.valid then (0, some (normPayload w.bits))
  else if n ≤ w.bits.toNat then (0, some (payloadBits 4 plot (ordinal % 2048)))
  else (w.bits.toNat, none)
/-- The edge buffer takes a beat. -/
def State.bufAdd (s : State) (key : Nat) (b : Beat) : State := s.modPort key fun p => { p with buf := p.buf ++ [b] }
/-- A feed-side index switch whose next index has no route puts a beat of invalid words in place of a beat (R273), at most
`n` times. -/
def State.steerFeed (s : State) (key : Nat) : (n : Nat) → State
  | 0 => s
  | n + 1 =>
    let p := s.portAt key
    match s.portMap key, p.steer with
    | some m, w :: t =>
      if m.conn != 4 || 8 ≤ m.port || 16 ≤ p.buf.length then s
      else match steerIndex w (s.routeSrcs key).length (key / 16) (firstOrdinal (tagFmt m.tag) p.passed) with
        | (_, some pay) =>
          ((s.modPort key fun p => { p with steer := t, passed := p.passed + 8 }).bufAdd key (badBeat pay)).steerFeed key n
        | _ => s
    | _, _ => s
/-- A drain port can take a beat: its buffer has space or the beat is discarded (R445), and an index switch has an index. -/
def State.drainReady (s : State) (key : Nat) : Bool :=
  let p := s.portAt key
  (decide (p.buf.length < 16) || p.closed) && (match s.portMap key with
    | some m => m.conn != 4 || p.steer != []
    | none => false)
/-- A beat leaves by a drain port (R144, R271, R273): its words count, and a channel carries it on. Behind an ended binding it is
discarded (R445). -/
def State.drainPush (s : State) (key : Nat) (b : Beat) : State :=
  let s1 := s.modPort key fun p => { p with drained := p.drained + 8 }
  match s.portMap key with
  | none => s1.bufAdd key b
  | some m =>
    if m.conn = 1 && (s1.portAt key).closed then s1 else
    let outs := s.routeDsts key
    if m.conn = 4 then
      match (s1.portAt key).steer with
      | [] => s1.bufAdd key b
      | w :: t =>
        let r := steerIndex w outs.length (key / 16) (firstOrdinal (tagFmt m.tag) (s1.portAt key).passed)
        let b' := match r.2 with
          | some pay => badBeat pay
          | none => b
        let s2 := (s1.modPort key fun p => { p with steer := t, passed := p.passed + 8 }).bufAdd key b'
        { s2 with chans := tset s2.chans s2.nextId ⟨key, (outs.drop r.1).take 1, none, none⟩, nextId := s2.nextId + 1 }
    else if m.conn = 2 then
      let s2 := s1.bufAdd key b
      { s2 with chans := tset s2.chans s2.nextId ⟨key, outs.take 1, none, none⟩, nextId := s2.nextId + 1 }
    else s1.bufAdd key b
/-! ## Element ordinals -/

/-- Ordinal, counted from 1 modulo 2,048, of the first element of word `w` of a stream (R214). -/
def ordinalAt (f w : Nat) : Nat := firstOrdinal f w % 2048
/-- The end-of-stream word (R214) and the masked words after it, from word `w` of the stream to the end of its beat. -/
def eosWords (f plot w : Nat) : List W32 :=
  ⟨false, payloadBits 0x0F plot (ordinalAt f w)⟩ ::
    ((List.range (7 - w % 8)).map fun i => ⟨false, payloadBits 0 plot (ordinalAt f (w + 1 + i))⟩)
/-- The word ends a stream. -/
def isEos (w : W32) : Bool := !w.valid && w.bits.extractLsb' 0 8 == 0x0F

end Sys2Proof.Machine
end

