-- ==== Sys2Proof/Machine/Sync.lean ====
section
/-! DEFINITION. Guidons, events, barriers and triggers (R347-R357), and the SYNC instructions but FREEZE and THAW (R363-R368). -/

namespace Sys2Proof.Machine

/-- The instance of the issuing slot's plot, with its number. -/
def State.instAt (s : State) (plot : Nat) : Option (Nat × Inst) :=
  match (s.plotAt plot).inst with
  | some i => (tfind s.insts i).map fun x => (i, x)
  | none => none
/-- An instance changed. -/
def State.modInst (s : State) (i : Nat) (f : Inst → Inst) : State :=
  match tfind s.insts i with
  | some x => { s with insts := tset s.insts i (f x) }
  | none => s
/-- A guidon of an instance. -/
def State.guidonAt (s : State) (i e : Nat) : Option Guidon :=
  match tfind s.insts i with
  | some x => tfind x.guidons e
  | none => none
/-- A guidon changed. -/
def State.modGuidon (s : State) (i e : Nat) (f : Guidon → Guidon) : State :=
  s.modInst i fun x => match tfind x.guidons e with
    | some g => { x with guidons := tset x.guidons e (f g) }
    | none => x

/-! ## Tokens (R348-R351) -/

/-- A token or event from a plot of one die to a unit: it arrives within the die, or leaves as a counted packet (R351). -/
def State.sendToken (s : State) (plot die : Nat) (p : Payload) : State := s.post plot 8 die [] p
/-- A PERMIT from a guidon to a child. -/
def State.sendPermit (s : State) (i : Nat) (from_ : Guidon) (child : Bool × Nat) : State :=
  match tfind s.insts i with
  | none => s
  | some x =>
    let plot := if child.1 then (tfind x.guidons child.2).map (·.plot) else (tfind x.actors child.2).map (·.plot)
    match plot with
    | some p => s.sendToken from_.plot (dieOf p) (.permit i child.1 child.2)
    | none => s
/-- Permits and DONEs of a child. -/
def countAt (l : List Nat) (j : Nat) : Nat := l.getD j 0
/-- The run begins no new iteration at child `j` (R349, R350). -/
def Guidon.closed (g : Guidon) (j : Nat) : Bool :=
  (g.stopped && (j == 0 || g.kind == 2)) || (g.trip != 0 && decide (g.trip ≤ countAt g.sentP j))
/-- Child `j` is to receive its next PERMIT (R349). -/
def Guidon.permitDue (g : Guidon) (j : Nat) : Bool :=
  let i := countAt g.sentP j
  let last := countAt g.doneD (g.children.length - 1)
  g.active && !g.closed j && (match g.kind with
    | 0 => if j = 0 then decide (i ≤ last) else decide (i < countAt g.doneD (j - 1))
    | 1 => decide (i ≤ countAt g.doneD j) && (if j = 0 then decide (i < last + g.depth) else decide (i < countAt g.doneD (j - 1)))
    | _ => decide (i - countAt g.doneD j < 2))
/-- The run has ended (R349, R350). -/
def Guidon.runOver (g : Guidon) : Bool :=
  g.active && (if g.kind = 2 then
      (List.range g.children.length).all (fun j => countAt g.doneD j == countAt g.sentP j && (g.stopped || countAt g.doneD j == g.trip && g.trip != 0))
    else countAt g.doneD (g.children.length - 1) == countAt g.sentP 0 && (g.stopped || (g.trip != 0 && countAt g.sentP 0 == g.trip)))
/-- PERMITs that are due leave, child by child, at most `n`. -/
def State.sendDue (s : State) (i e : Nat) : (n : Nat) → State
  | 0 => s
  | n + 1 => match s.guidonAt i e with
    | none => s
    | some g => match (List.range g.children.length).find? g.permitDue with
      | none => s
      | some j =>
        let s1 := s.sendPermit i g (g.children.getD j (false, 0))
        (s1.modGuidon i e fun g => { g with sentP := g.sentP.set j (countAt g.sentP j + 1) }).sendDue i e n
/-- A guidon's DONE goes to its parent, or, for a root, to the front end (R349). -/
def State.sendDone (s : State) (i e : Nat) (g : Guidon) : State :=
  if g.parent = 0xFF then s.modInst i fun x => { x with rootDone := true }
  else match s.guidonAt i g.parent with
    | some p => s.sendToken g.plot (dieOf p.plot) (.done i g.parent true e)
    | none => s
/-- The guidon goes on: permits leave, a run that is over ends, and a queued run starts (at most `n` runs). -/
def State.advanceGuidon (s : State) (i e : Nat) : (n : Nat) → State
  | 0 => s
  | n + 1 =>
    let s1 := s.sendDue i e 64
    match s1.guidonAt i e with
    | none => s1
    | some g =>
      if !g.runOver then s1
      else
        let again := g.running != 0
        let zero := List.replicate g.children.length 0
        let s2 := (s1.modGuidon i e fun g =>
          { g with active := again, stopped := false, running := g.running - 1, sentP := zero, doneD := zero }).sendDone i e g
        if again then s2.advanceGuidon i e n else s2
/-- A PERMIT reaches a guidon: a whole run (R348). -/
def State.permitGuidon (s : State) (i e : Nat) : State :=
  match s.guidonAt i e with
  | none => s
  | some g =>
    if g.active then s.modGuidon i e fun g => { g with running := g.running + 1 }
    else
      let zero := List.replicate g.children.length 0
      (s.modGuidon i e fun g => { g with active := true, sentP := zero, doneD := zero }).advanceGuidon i e 256
/-- A DONE reaches a guidon. -/
def State.doneGuidon (s : State) (i e : Nat) (child : Bool × Nat) : State :=
  match s.guidonAt i e with
  | none => s
  | some g => match (List.range g.children.length).find? fun j => g.children.getD j (false, 0) == child with
    | none => s
    | some j => (s.modGuidon i e fun g => { g with doneD := g.doneD.set j (countAt g.doneD j + 1) }).advanceGuidon i e 256

/-! ## Events (R350, R352) -/

/-- A term holds (R352). -/
def Inst.termHolds (x : Inst) (t : List Nat) : Bool :=
  t != [] && t.all fun e => match tfind x.guidons e with
    | some g => decide (g.threshold ≤ g.count)
    | none => false
/-- The term that raises a node now: none when it does not raise. -/
def Inst.raiseTerm (x : Inst) (g : Guidon) : Option (List Nat) :=
  if g.kind != 4 || g.count < g.threshold then none
  else if g.term0 == [] && g.term1 == [] then some []
  else if x.termHolds g.term0 then some g.term0
  else if x.termHolds g.term1 then some g.term1
  else none
/-- Triggers of an event fire and stops latch on one die (R350, R354). -/
def State.eventEffects (s : State) (i e die : Nat) : State :=
  let s1 := s.plots.foldl (fun s p => if dieOf p.1 == die && p.2.inst == some i then
    (s.trigEntries p.1 fun t => t.kind == 2 && t.inst == i && t.event.toNat == e).foldl (fun s k => s.fireTrigger p.1 k) s else s) s
  match tfind s1.insts i with
  | none => s1
  | some x => x.guidons.foldl (fun s g => if g.2.stop == e && g.2.kind < 3 && dieOf g.2.plot == die then
      (s.modGuidon i g.1 fun g => { g with stopped := true }).advanceGuidon i g.1 256 else s) s1
/-- The other dies of an instance learn from a node's die of what happened there by counted packets (R351). -/
def State.tellDies (s : State) (i plot : Nat) (p : Payload) : State :=
  match tfind s.insts i with
  | none => s
  | some x => ((x.plots.map dieOf).eraseDups.filter (· != dieOf plot)).foldl (fun s d => s.sendToken plot d p) s
/-- Raises of an event node that wait for slots of other dies leave as counted packets, in the order in which the slots began to wait, as
long as the longest-waiting is one of them (R351, R365), at most `n`. -/
def State.grantRaises (s : State) (i e : Nat) : (n : Nat) → State
  | 0 => s
  | n + 1 => match s.guidonAt i e with
    | none => s
    | some g => match g.evq with
      | [] => s
      | key :: t =>
        if g.raises = 0 || dieOf (key / 8) = dieOf g.plot then s
        else match tfind s.pnreqs key with
          | none => s
          | some r =>
            let s1 := s.modGuidon i e fun g => { g with raises := g.raises - 1, evq := t }
            (({ s1 with pnreqs := tset s1.pnreqs key { r with granted := true } } : State).sendToken g.plot (dieOf (key / 8))
              (.granted key r.id ((g.raises - 1).zeroExtend 64))).grantRaises i e n
/-- One raise of event node `e` by term `t` (R352). Other dies learn of it by counted packets (R351). -/
def State.raiseOnce (s : State) (i e : Nat) (g : Guidon) (t : List Nat) : State :=
  let s1 := s.modGuidon i e fun g => { g with count := g.count - g.threshold, raises := if g.raises = 0xFFFF then g.raises else g.raises + 1 }
  let s2 := (t.filter (· != e)).foldl (fun s x => s.modGuidon i x fun g => { g with count := g.count - g.threshold }) s1
  ((s2.eventEffects i e (dieOf g.plot)).grantRaises i e g.evq.length).tellDies i g.plot (.raised i e)
/-- Raises of the event nodes of a die, lowest index first, at most `n`. -/
def State.applyEvents (s : State) (i die : Nat) : (n : Nat) → State
  | 0 => s
  | n + 1 => match tfind s.insts i with
    | none => s
    | some x => match x.guidons.find? fun g => dieOf g.2.plot == die && (x.raiseTerm g.2).isSome with
      | none => s
      | some (e, g) => (s.raiseOnce i e g ((x.raiseTerm g).getD [])).applyEvents i die n
/-- How many raises the counts of an instance can bring. -/
def Inst.raiseBound (x : Inst) : Nat :=
  x.guidons.foldl (fun n g => n + if g.2.kind == 4 then g.2.count.toNat / max 1 g.2.threshold.toNat else 0) 1
/-- An amount is added to an event's count, which saturates (R352, R365). -/
def State.addEvent (s : State) (i e : Nat) (n : BitVec 32) : State :=
  match s.guidonAt i e with
  | none => s
  | some g =>
    let s1 := s.modGuidon i e fun g => { g with count := BitVec.ofNat 32 (min (g.count.toNat + n.toNat) 0xFFFFFFFF) }
    match tfind s1.insts i with
    | none => s1
    | some x => s1.applyEvents i (dieOf g.plot) x.raiseBound

/-! ## Priority loans (R357) -/

/-- The slot that runs an actor. -/
def actorKey (a : Actor) : Nat := 8 * a.plot + a.slot
/-- The generation of a barrier as a die knows it: the node's, or what its releases have brought to another die (R351). -/
def Guidon.known (g : Guidon) (die : Nat) : BitVec 32 := if die = dieOf g.plot then g.gen else tget 0 g.seen die
/-- The generation a slot of a die waits for at a barrier (R366, log 23): the one it waits for already, else that of its arrival, else the
current. -/
def Slot.awaited (x : Slot) (e : BitVec 8) (g : Guidon) (die : Nat) : BitVec 32 :=
  match x.bwait with
  | some (f, w) => if f = e then w else tget (g.known die) x.arrGen e.toNat
  | none => tget (g.known die) x.arrGen e.toNat
/-- A generation is over as a die knows it (R353, R366); to another die the news of an earlier one may still be on its way. -/
def Guidon.over (g : Guidon) (die : Nat) (w : BitVec 32) : Bool :=
  g.known die != w && (die == dieOf g.plot || decide ((g.known die - w).toNat < 2 ^ 31))
/-- Participants of a barrier that have neither arrived nor been skipped, by slot key. -/
def Inst.laggards (x : Inst) (g : Guidon) : List Nat :=
  (List.range g.children.length).filterMap fun k =>
    if g.mask.getLsbD k && !g.arrived.getLsbD k && !g.skipped.getLsbD k then
      (tfind x.actors (g.children.getD k (false, 0)).2).map actorKey
    else none
/-- Loans of the waiting slots given once. -/
def State.lendOnce (s : State) (x : Inst) : State :=
  x.actors.foldl (fun s a => let w := tget Slot.init s.slots (actorKey a.2)
    match w.bwait with
    | none => s
    | some (e, n) => match tfind x.guidons e.toNat with
      | none => s
      | some g => if n != g.gen then s
        else (x.laggards g).foldl (fun s k => let p := tget Slot.init s.slots k
          if w.prioEff < p.prioEff then { s with slots := tset s.slots k { p with prioEff := w.prioEff } } else s) s) s
/-- Loans given until they reach everyone. -/
def State.lendN (s : State) (x : Inst) : (n : Nat) → State
  | 0 => s
  | n + 1 => (s.lendOnce x).lendN x n
/-- eff of every slot of an instance anew: base, then loans (R356, R357). -/
def State.relend (s : State) (i : Nat) : State :=
  match tfind s.insts i with
  | none => s
  | some x =>
    let s1 := x.actors.foldl (fun s a => let k := actorKey a.2
      let w := tget Slot.init s.slots k
      { s with slots := tset s.slots k { w with prioEff := w.prioBase } }) s
    if x.actors.any fun a => (tget Slot.init s.slots (actorKey a.2)).bwait.isSome then s1.lendN x x.actors.length else s1

/-! ## Barriers (R353) -/

/-- A slot learns that the generation `w` of barrier `e` is aborted (R353): its arrival there is lost, and one that waits in BWAIT is to take
BARRIER_TIMEOUT. -/
def Slot.loseArrival (x : Slot) (e : BitVec 8) (w : BitVec 32) : Slot :=
  { x with barAbort := if x.bwait = some (e, w) then some (e, w) else x.barAbort,
           arrGen := if tfind x.arrGen e.toNat = some w then tdel x.arrGen e.toNat else x.arrGen }
/-- An answer under way to a BARRIVE of the aborted generation brings no arrival any more. -/
def PnReq.loseArrival (r : PnReq) (i : Nat) (e : BitVec 8) (w : BitVec 32) : PnReq :=
  match r.op, r.answer with
  | .arrive j f p b, some (.value n _) => if j = i ∧ f = e ∧ n = w.zeroExtend 64 then { r with op := .skip j f p b } else r
  | _, _ => r
/-- The slots of an instance on a die learn that a generation is aborted. -/
def State.loseArrivals (s : State) (i : Nat) (e : BitVec 8) (w : BitVec 32) (die : Nat) : State :=
  match tfind s.insts i with
  | none => s
  | some x =>
    let s1 := x.actors.foldl (fun s a => if dieOf a.2.plot == die then s.modSlot a.2.plot a.2.slot fun y => y.loseArrival e w else s) s
    { s1 with pnreqs := tmap s1.pnreqs fun key r => if dieOf (key / 8) = die then r.loseArrival i e w else r }
/-- The end of a barrier's generation reaches another die (R351, R353): `gen` is the next. -/
def State.seeBarrier (s : State) (i : Nat) (e : BitVec 8) (die : Nat) (gen : BitVec 32) (abort : Bool) : State :=
  let s1 := s.modGuidon i e.toNat fun g => { g with seen := tset g.seen die gen }
  if abort then s1.loseArrivals i e (gen - 1) die else s1
/-- A generation releases when everyone has arrived or been skipped. -/
def State.applyBarrier (s : State) (i e : Nat) : State :=
  match s.guidonAt i e with
  | none => s
  | some g =>
    if (g.arrived ||| g.skipped) = g.mask then
      ((s.modGuidon i e fun g => { g with gen := g.gen + 1, arrived := 0, skipped := 0, deadline := none }).tellDies i g.plot
        (.released i (BitVec.ofNat 8 e) (g.gen + 1) false)).relend i
    else s.relend i
/-- The timer that the first arrival or skip of a generation starts with its slot's BARWD. -/
def barDeadline (g : Guidon) (clock : Nat) (barwd : Word) : Option Nat :=
  if g.arrived ||| g.skipped != 0 then g.deadline
  else if barwd.extractLsb' 0 32 = 0 then none
  else some (clock + (barwd.extractLsb' 0 32).toNat * 1900)
/-- Position of an actor among a BAR's children. -/
def Guidon.position (g : Guidon) (actor : Nat) : Option Nat :=
  (List.range g.children.length).find? fun k => g.children.getD k (false, 0) == (false, actor)

/-! ## The instructions -/

/-- The guidon of kind `k` that an instruction names, with its instance: PERMISSION otherwise (R364). -/
def State.named (s : State) (e : BitVec 8) (k : Nat) : Except Trap (Nat × Guidon) :=
  match s.instAt s.focus.plot with
  | none => .error (mkTrap 0x0A (e.zeroExtend 64))
  | some (i, x) => match tfind x.guidons e.toNat with
    | none => .error (mkTrap 0x0A (e.zeroExtend 64))
    | some g => if g.kind = k then .ok (i, g) else .error (mkTrap 0x0A (e.zeroExtend 64))
/-- A valid value is written to g[d]. -/
def State.answerG (s : State) (d : GReg) (v : Word) : Except Trap (Option State) :=
  match s.writeG d (.ofWord v) with
  | .error t => .error t
  | .ok s' => .ok (some s')
/-- EVSIG (R365): a release of oc7. -/
def execEvsig (a : GReg) (e : BitVec 8) (s : State) : Result :=
  control 4 (if a = 0 then [] else [a]) [] (fun vs s' =>
    match consume vs with
    | some t => .error t
    | none => match s.named e 4 with
      | .error t => .error t
      | .ok (i, g) =>
        let n : BitVec 32 := if a = 0 then 1 else (vs.getD 0 .zero).bits.extractLsb' 0 32
        if !s.allReleased 7 then .ok none
        else if dieOf g.plot = dieOf s.focus.plot then .ok (some (s'.addEvent i e.toNat n))
        else .ok (some (s'.post s.focus.plot s.focus.slot (dieOf g.plot) [] (.event i e n)))) s
/-- An arrival or a skip of a position reaches its barrier (R353, R366): BARRIER_OVERRUN, or the mark and what it releases. -/
def State.meetBarrier (s : State) (i : Nat) (e : BitVec 8) (p : Nat) (barwd : Word) (skip : Bool) : Except Trap (State × BitVec 32) :=
  match s.guidonAt i e.toNat with
  | none => .error (mkTrap 0x0A (e.zeroExtend 64))
  | some g =>
    if !g.mask.getLsbD p || g.arrived.getLsbD p || g.skipped.getLsbD p then .error ⟨0x28, e.zeroExtend 64, BitVec.ofNat 64 p⟩
    else
      let dl := barDeadline g s.clock barwd
      .ok ((s.modGuidon i e.toNat fun g => if skip then { g with skipped := g.skipped ||| (1 <<< p), deadline := dl }
        else { g with arrived := g.arrived ||| (1 <<< p), deadline := dl }).applyBarrier i e.toNat, g.gen)
/-- The issuing slot's request leaves for a home on another die as a counted packet (R111, R159, R351). -/
def State.askHome (s : State) (op : PnOp) (name : Word) (home : Nat) : State :=
  let key := 8 * s.focus.plot + s.focus.slot
  { s with pnreqs := tset s.pnreqs key ⟨op, name, s.nextId, false, false, none, [], s.rebase⟩, nextId := s.nextId + 1 }.post
    s.focus.plot s.focus.slot home [] (.pennant key s.nextId)
/-- A BARRIVE, BSKIP or EVWAIT whose request to a node on another die is out goes on with its answer, whose stamp is merged (R116, R117), or waits. -/
def State.nodeFinish (s : State) (srcs : List GReg) (d : GReg) (arrival : Option (BitVec 8)) : Result :=
  let key := 8 * s.focus.plot + s.focus.slot
  match tfind s.pnreqs key with
  | none => .next s
  | some r => match r.answer with
    | none => .next s
    | some ans =>
      let s1 := ({ s with pnreqs := tdel s.pnreqs key }.mergeDv (dieOf s.focus.plot) r.stamp).flushL1 s.focus.plot
      match ans with
      | .trap t => .next (s1.trapNow t)
      | .value w _ =>
        let s2 := match arrival, r.op with
          | some e, .arrive .. => s1.modCur fun x => { x with arrGen := tset x.arrGen e.toNat (w.extractLsb' 0 32) }
          | _, _ => s1
        match (s2.afterReads srcs).writeG d (.ofWord w) with
        | .error t => .next (s1.trapNow t)
        | .ok s3 => .next (s3.advance 4)
/-- EVWAIT (R365): an acquire; those who wait are served in the order in which they began. A node on another die is asked by a counted packet,
and sends the raise as one (R351). -/
def execEvwait (d : GReg) (e : BitVec 8) (s : State) : Result :=
  let me := 8 * s.focus.plot + s.focus.slot
  if (tfind s.pnreqs me).isSome then s.nodeFinish [] d none
  else if s.blocked [] [d] then .next s
  else match s.named e 4 with
    | .error t => .next (s.trapNow t)
    | .ok (i, g) =>
      let first := match g.evq with
        | [] => true
        | h :: _ => h == me
      if dieOf g.plot != dieOf s.focus.plot then .next (s.askHome (.take i e) (e.zeroExtend 64) (dieOf g.plot))
      else if g.raises = 0 || !first then
        .next (if g.evq.contains me then s else s.modGuidon i e.toNat fun g => { g with evq := g.evq ++ [me] })
      else
        let s1 := (s.modGuidon i e.toNat fun g => { g with raises := g.raises - 1, evq := g.evq.filter (· != me) }).grantRaises i e.toNat g.evq.length
        match (s1.flushL1 s.focus.plot).writeG d (.ofWord ((g.raises - 1).zeroExtend 64)) with
        | .error t => .next ((s.modGuidon i e.toNat fun g => { g with evq := g.evq.filter (· != me) }).trapNow t)
        | .ok s2 => .next (s2.advance 4)
/-- The instance and node of a barrier on another die. -/
def State.farBarrier (s : State) (e : BitVec 8) : Option (Nat × Guidon) :=
  match s.named e 3 with
  | .ok (i, g) => if dieOf g.plot = dieOf s.focus.plot then none else some (i, g)
  | .error _ => none
/-- Position of the issuing slot's actor among a BAR's children. -/
def State.myPosition (s : State) (g : Guidon) : Option Nat :=
  match s.cur.actor with
  | some (_, a) => g.position a
  | none => none
/-- BARRIVE (R366); a node on another die is asked by a counted packet, and the slot waits for its answer (R351). -/
def execBarrive (d : GReg) (e : BitVec 8) (s : State) : Result :=
  if (tfind s.pnreqs (8 * s.focus.plot + s.focus.slot)).isSome then s.nodeFinish [] d (some e)
  else match s.farBarrier e with
    | some (i, g) =>
      if s.blocked [] [d] then .next s
      else match s.myPosition g with
        | none => .next (s.trapNow (mkTrap 0x28 (e.zeroExtend 64)))
        | some p => if !s.allReleased 7 then .next s else .next (s.askHome (.arrive i e p s.cur.barwd) (e.zeroExtend 64) (dieOf g.plot))
    | none => control 4 [] [d] (fun _ s' =>
        match s.named e 3 with
        | .error t => .error t
        | .ok (i, g) => match s.myPosition g with
          | none => .error (mkTrap 0x28 (e.zeroExtend 64))
          | some p => match s'.meetBarrier i e p s.cur.barwd false with
            | .error t => .error t
            | .ok (s1, n) =>
              if !s.allReleased 7 then .ok none
              else (s1.modCur fun x => { x with arrGen := tset x.arrGen e.toNat n }).answerG d (n.zeroExtend 64)) s
/-- The aborted generation of a barrier for which a slot is to take BARRIER_TIMEOUT (R353). -/
def Slot.abortOf (x : Slot) (e : BitVec 8) : Option (BitVec 32) :=
  match x.barAbort with
  | some (f, w) => if f = e then some w else none
  | none => none
/-- BWAIT (R366, log 23): waits for the release of the generation in which its slot arrived, or of the current one, as the slot's die knows
it (R351). -/
def execBwait (d : GReg) (e : BitVec 8) (s : State) : Result :=
  if s.blocked [] [d] then .next s
  else match s.named e 3 with
    | .error t => .next (s.trapNow t)
    | .ok (i, g) =>
      let die := dieOf s.focus.plot
      let w := s.cur.awaited e g die
      let off := s.modCur fun x => { x with bwait := none, barAbort := none, arrGen := tdel x.arrGen e.toNat }
      match s.cur.abortOf e with
      | some n => .next ((off.trapNow ⟨0x29, n.zeroExtend 64, e.zeroExtend 64⟩).relend i)
      | none =>
        if !g.over die w then .next ((s.modCur fun x => { x with bwait := some (e, w) }).relend i)
        else match ((off.relend i).flushL1 s.focus.plot).writeG d (.ofWord ((g.known die).zeroExtend 64)) with
          | .error t => .next (s.trapNow t)
          | .ok s2 => .next (s2.advance 4)
/-- The position that BSKIP names (R366). -/
def skipPosition (vs : List Val) : Except Trap Nat :=
  match consume vs with
  | some t => .error t
  | none => if 15 < (vs.getD 0 .zero).bits.toNat then .error (mkTrap 0x33 (vs.getD 0 .zero).bits) else .ok (vs.getD 0 .zero).bits.toNat
/-- BSKIP (R366); a node on another die is asked by a counted packet, and the slot waits for its answer (R351). -/
def execBskip (a : GReg) (e : BitVec 8) (s : State) : Result :=
  if (tfind s.pnreqs (8 * s.focus.plot + s.focus.slot)).isSome then s.nodeFinish [a] 0 none
  else match s.farBarrier e with
    | some (i, g) =>
      if s.blocked [a] [] then .next s
      else match s.badReg [(0, a)] with
        | some t => .next (s.trapNow t)
        | none => match skipPosition (s.reads [a]) with
          | .error t => .next (s.trapNow t)
          | .ok q => if !s.allReleased 7 then .next s else .next (s.askHome (.skip i e q s.cur.barwd) (e.zeroExtend 64) (dieOf g.plot))
    | none => control 4 [a] [] (fun vs s' =>
        match consume vs with
        | some t => .error t
        | none => match s.named e 3 with
          | .error t => .error t
          | .ok (i, _) => match skipPosition vs with
            | .error t => .error t
            | .ok q => match s'.meetBarrier i e q s.cur.barwd true with
              | .error t => .error t
              | .ok (s1, _) => if !s.allReleased 7 then .ok none else .ok (some s1)) s
/-- No packet of a slot is under way (R147): its accesses have performed, and what it sent has been accepted where it goes. -/
def State.arrived (s : State) (p k : Nat) : Bool :=
  (s.classIds p k 7).all s.perfOk && s.packets.all (fun e => e.2.delivered || !(e.2.plot == p && e.2.slot == k))
    && s.peerOut.all (fun e => !(e.2.src == p && e.2.sender == k))
    && s.tokens.all fun e => match e.2 with
      | .flit f => !(f.src == p && f.sender == k)
      | _ => true
/-- PRIO (R147, R367): waits until the slot's packets have been accepted. -/
def execPrio (c : BitVec 2) (s : State) : Result :=
  if !s.arrived s.focus.plot s.focus.slot then .next s
  else
    let s1 := s.modCur fun x => { x with prioBase := if c < x.prioFloor then x.prioFloor else c }
    match (s.plotAt s.focus.plot).inst with
    | some i => .next ((s1.relend i).advance 4)
    | none => .next (s1.advance 4)
/-- The trigger of the issuing instance that an instruction names by its table entry (R368). -/
def State.ownTrigger (s : State) (t : Word) : Except Trap Trigger :=
  if 31 < t.toNat then .error (mkTrap 0x33 t)
  else match tfind (s.plotAt s.focus.plot).triggers t.toNat with
    | none => .error (mkTrap 0x0A t)
    | some x => if (s.plotAt s.focus.plot).inst = some x.inst then .ok x else .error (mkTrap 0x0A t)
/-- A handler as TRIGBIND and TRIGDROP report it. -/
def handlerWord (h : Option (BitVec 3)) : Word :=
  match h with
  | some k => k.zeroExtend 64
  | none => 15
/-- Slot `k` of the issuing plot holds an actor of its instance. -/
def State.hasActor (s : State) (k : Nat) : Bool :=
  match (s.slotAt s.focus.plot k).actor with
  | some (i, _) => (s.plotAt s.focus.plot).inst == some i
  | none => false
/-- TRIGBIND (R355, R368). -/
def execTrigbind (d a b : GReg) (s : State) : Result :=
  control 4 [a, b] [d] (fun vs s' =>
    match consume vs with
    | some t => .error t
    | none =>
      let t := (vs.getD 0 .zero).bits
      let k := (vs.getD 1 .zero).bits
      match s.ownTrigger t with
      | .error e => .error e
      | .ok x =>
        if 7 < k.toNat then .error (mkTrap 0x33 k)
        else if !s.hasActor k.toNat then .error (mkTrap 0x0A k)
        else
          let s1 := s'.modPlot s.focus.plot fun p => { p with triggers := tset p.triggers t.toNat { x with handler := some (k.extractLsb' 0 3), pending := 0 } }
          let s2 := s1.modSlot s.focus.plot k.toNat fun y => { y with credits := BitVec.ofNat 16 (min (y.credits.toNat + x.pending.toNat) 0xFFFF) }
          s2.answerG d (handlerWord x.handler)) s
/-- TRIGDROP (R368). -/
def execTrigdrop (d a : GReg) (s : State) : Result :=
  control 4 [a] [d] (fun vs s' =>
    match consume vs with
    | some t => .error t
    | none =>
      let t := (vs.getD 0 .zero).bits
      match s.ownTrigger t with
      | .error e => .error e
      | .ok x =>
        (s'.modPlot s.focus.plot fun p => { p with triggers := tset p.triggers t.toNat { x with handler := none } }).answerG d (handlerWord x.handler)) s
/-- BARRIER_TIMEOUT (R353): the generation is aborted, its arrivals lost, and those who wait for it are to trap. -/
def execBarrierTimeout (inst : Nat) (e : BitVec 8) (s : State) : Result :=
  match s.guidonAt inst e.toNat with
  | none => .next s
  | some g => match g.deadline with
    | none => .next s
    | some t =>
      if s.clock < t || !((tfind s.insts inst).any (·.saved == .running)) then .next s
      else .next ((((s.modGuidon inst e.toNat fun g => { g with gen := g.gen + 1, arrived := 0, skipped := 0, deadline := none }).loseArrivals
        inst e g.gen (dieOf g.plot)).tellDies inst g.plot (.released inst e (g.gen + 1) true)).relend inst)

end Sys2Proof.Machine
end

