-- ==== Sys2Proof/Machine/Actors.lean ====
section
/-! DEFINITION. Firings and tokens (R319, R342-R349, R358), arrival counters (R225), flits (R151, R152), watchdogs (R360) and
asynchronous traps (R387). -/

namespace Sys2Proof.Machine

/-- What arrives for a plot whose instance is saved goes to the inbound queue of its context area (R408), until its instance runs again; none when the plot is not saved. -/
def State.inbound (s : State) (id plot : Nat) (p : Payload) : Option State :=
  match s.insts.find? fun i => i.2.ctx.any fun c => c.plot == plot with
  | none => none
  | some (i, _) => some (s.modInst i fun x => { x with ctx := x.ctx.map fun c => if c.plot = plot then { c with inbound := c.inbound ++ [(id, p)] } else c })
/-- The inbound queue of a saved plot holds 4,096 entries and takes no more (R408). -/
def State.inboundFull (s : State) (plot : Nat) : Bool := s.insts.any fun i => i.2.ctx.any fun c => c.plot == plot && decide (4096 ≤ c.inbound.length)
/-- A token for a saved plot: it enters the inbound queue, or waits while that is full (R408). -/
def State.intoSaved (s : State) (id plot : Nat) (p : Payload) : Option State :=
  (s.inbound id plot p).map fun s1 => if s.inboundFull plot then s else { s1 with tokens := tdel s1.tokens id }
/-- The plot in whose context area an event of an instance is queued when it arrives at a die (R408, log 120). -/
def State.eventPlot (s : State) (die : Nat) (p : Payload) : Option Nat :=
  match p with
  | .event i e _ => (s.guidonAt i e.toNat).map (·.plot)
  | .raised i _ | .released i _ _ _ => (tfind s.insts i).bind fun x => x.plots.find? fun q => dieOf q == die
  | .granted key _ _ => some (key / 8)
  | _ => none
/-- An event of an instance acts at a die (R350, R351, R353, R365). -/
def State.actEvent (s : State) (die : Nat) (p : Payload) : State :=
  match p with
  | .event i e n => s.addEvent i e.toNat n
  | .raised i e => s.eventEffects i e.toNat die
  | .released i e gen abort => s.seeBarrier i e die gen abort
  | .granted key id w => match tfind s.pnreqs key with
    | some r => if r.id = id then { s with pnreqs := tset s.pnreqs key { r with answer := some (.value w true), stamp := (s.causalAt die).dv, reb := s.rebase } } else s
    | none => s
  | _ => s
/-- An event reaches a die: that of a saved instance enters the inbound queue (R408). -/
def State.takeEvent (s : State) (id die : Nat) (p : Payload) : State :=
  ((s.eventPlot die p).bind fun q => s.inbound id q p).getD (s.actEvent die p)
/-- An event for a saved instance finds the inbound queue full, and waits (R152, R408). -/
def State.eventHeld (s : State) (die : Nat) (p : Payload) : Bool :=
  (s.eventPlot die p).any s.inboundFull
/-- A token consumed. -/
def State.dropToken (s : State) (id : Nat) : State := { s with tokens := tdel s.tokens id }

/-! ## Firings -/

/-- The actor of a slot with its instance. -/
def State.actorOf (s : State) (p k : Nat) : Option (Nat × Inst × Actor) :=
  match (s.slotAt p k).actor with
  | none => none
  | some (i, a) => match tfind s.insts i with
    | none => none
    | some x => (tfind x.actors a).map fun y => (i, x, y)
/-- Beats in the edge buffer of a port in the form of the stream-word port field; none when there is no such port. -/
def State.beatsAt (s : State) (i region field : Nat) : Option Nat :=
  match tfind s.regions (regionKey i region) with
  | none => none
  | some r => if field / 16 < r.edgeLen (field % 16) then some (s.portAt (r.portKey (field / 16) (field % 16))).buf.length else none
/-- The slot is ready (R344). -/
def State.ready (s : State) (p k : Nat) : Bool :=
  match s.actorOf p k with
  | none => false
  | some (i, x, a) =>
    let y := s.slotAt p k
    x.saved == .running && !y.firing && !y.held && (a.parent == 0xFF || y.permits != 0) && (!a.trig || y.credits != 0)
      && a.ins.all (fun e => match s.beatsAt i a.region e.2 with
        | some n => decide (e.1 ≤ n)
        | none => false)
      && a.outs.all (fun e => match s.beatsAt i a.region e.2 with
        | some n => decide (e.1 + n ≤ 16)
        | none => false)
/-- How often a slot may be passed over in its class (R358). -/
def passLimit (eff : BitVec 2) : Nat := 8 * 2 ^ eff.toNat - 1
/-- A better choice by R358: a slot passed over too often, the longest-waiting first; else the lowest class; within it the one
that has waited longest. -/
def better (effA effB : BitVec 2) (passA passB : Nat) : Bool :=
  let a := passLimit effA ≤ passA
  let b := passLimit effB ≤ passB
  if a != b then a else if a then decide (passB < passA) else decide (effA < effB) || (effA == effB && decide (passB < passA))
/-- The best of some slots of a plot by R358, with the counter `f` of times passed over. -/
def State.bestSlot (s : State) (p : Nat) (f : Slot → Nat) (l : List Nat) : Option Nat :=
  l.foldl (fun b k => match b with
    | none => some k
    | some j => if better (s.slotAt p k).prioEff (s.slotAt p j).prioEff (f (s.slotAt p k)) (f (s.slotAt p j)) then some k else some j) none
/-- Ready slots of a core. -/
def State.readySlots (s : State) (p : Nat) : List Nat := (List.range 8).filter (s.ready p)
/-- FIRING_START (R345, R358): the firing scheduler starts the slot it chooses. -/
def execFiringStart (plot : BitVec 13) (slot : BitVec 3) (s : State) : Result :=
  let p := plot.toNat
  let k := slot.toNat
  if s.bestSlot p (·.passed) (s.readySlots p) != some k then .next s
  else match s.actorOf p k with
    | none => .next s
    | some (_, _, a) =>
      let s1 := (s.readySlots p).foldl (fun s j => s.modSlot p j fun x => { x with passed := x.passed + 1 }) s
      let s2 := s1.modSlot p k fun x =>
        { x with
          g := [(1, .ofWord x.fcount), (2, .ofWord a.args)], v := x.v.filter (fun e => e.1 < 4), pc := a.entry, firing := true, loops := [],
          permits := if a.parent = 0xFF then x.permits else x.permits - 1, credits := if a.trig then x.credits - 1 else x.credits,
          fcount := x.fcount + 1, passed := 0, waited := 0, fstart := s.clock, wdFired := false, idleEnd := none, barAbort := none,
          bad := x.bad.filter fun b => b.1 == 1 || b.1 == 3 || ((b.1 == 2 || b.1 == 4) && decide (b.2.1.toNat < 4)) }
      .next (s2.flushL1 p)
/-- YIELD (R319): the firing ends once CNTLD is 0; its DONE is owed (R348). -/
def execYield (s : State) : Result :=
  let x := s.cur
  if x.cntld != 0 then .next s
  else
    let owed := match s.actorOf s.focus.plot s.focus.slot with
      | some (i, _, a) => if a.parent = 0xFF then [] else [(s.nextId, i)]
      | none => []
    .next (s.setCur { x with firing := false, loops := [], pc := 0, g := [], v := x.v.filter (fun e => e.1 < 4), doneOwed := x.doneOwed ++ owed })
/-- Every access and stream word of the slot numbered below a bound has completed (R348). -/
def State.settled (s : State) (p k bound : Nat) : Bool :=
  (s.reqsOf p k).all (fun e => decide (bound ≤ e.1)) && (s.outs.all fun e => decide (bound ≤ e.1) || !(e.2.plot == p && e.2.slot == k))
    && s.words.all fun e => decide (bound ≤ e.1) || !(e.2.plot == p && e.2.slot == k)
/-- ACTOR_DONE (R348): a slot, by its key 8 x plot + slot, sends the DONE of its oldest firing that is settled. -/
def execActorDone (id : Nat) (s : State) : Result :=
  let p := id / 8
  let k := id % 8
  match (s.slotAt p k).doneOwed with
  | [] => .next s
  | (bound, i) :: t =>
    if !s.settled p k bound then .next s
    else
      let s1 := s.modSlot p k fun x => { x with doneOwed := t }
      match s.actorOf p k with
      | none => .next s1
      | some (_, _, a) => match s.guidonAt i a.parent with
        | none => .next s1
        | some g => match (s.slotAt p k).actor with
          | some (_, n) => .next (s1.sendToken p (dieOf g.plot) (.done i a.parent false n))
          | none => .next s1
/-- PERMIT_RECEIVE (R348): a PERMIT reaches an actor's slot or starts a run of a guidon. -/
def execPermitReceive (id : Nat) (s : State) : Result :=
  match tfind s.tokens id with
  | some (.permit i isGuidon n) =>
    let plot := match tfind s.insts i with
      | none => none
      | some x => if isGuidon then (tfind x.guidons n).map (·.plot) else (tfind x.actors n).map (·.plot)
    match plot with
    | none => .next (s.dropToken id)
    | some p => match s.intoSaved id p (.permit i isGuidon n) with
      | some s' => .next s'
      | none =>
        if isGuidon then .next ((s.dropToken id).permitGuidon i n)
        else match tfind s.insts i with
          | none => .next (s.dropToken id)
          | some x => match tfind x.actors n with
            | none => .next (s.dropToken id)
            | some a => .next ((s.dropToken id).modSlot a.plot a.slot fun y => { y with permits := if y.permits = 255 then y.permits else y.permits + 1 })
  | _ => .next s
/-- GUIDON_DONE_RECEIVE (R349). -/
def execGuidonDoneReceive (id : Nat) (s : State) : Result :=
  match tfind s.tokens id with
  | some (.done i parent isGuidon n) =>
    match s.guidonAt i parent with
    | none => .next (s.dropToken id)
    | some g => match s.intoSaved id g.plot (.done i parent isGuidon n) with
      | some s' => .next s'
      | none => .next ((s.dropToken id).doneGuidon i parent (isGuidon, n))
  | _ => .next s

/-! ## Arrival counters -/

/-- Rows counted once each (R225), the count saturating. -/
def countRows (a : Arrival) : (rows : List Nat) → Arrival
  | [] => a
  | r :: t => countRows (if a.seen.getLsbD r then a else
      { a with seen := a.seen ||| (1#64 <<< r), count := if a.count = 0xFFFF then a.count else a.count + 1 }) t
/-- An ARRV applied to a counter (R225). -/
def Arrival.apply (a : Arrival) (batch : BitVec 16) (row n1 : BitVec 6) : Arrival :=
  let d := batch - a.batch
  if 32768 ≤ d.toNat then a
  else
    let a1 := if d = 0 then a else { a with batch, seen := 0 }
    countRows a1 ((List.range (n1.toNat + 1)).map (row.toNat + ·))
/-- Triggers of an arrival counter fire while its count reaches a threshold (R354), lowest entry first, at most `n` times. -/
def State.arrivalFires (s : State) (p c : Nat) : (n : Nat) → State
  | 0 => s
  | n + 1 =>
    let a := tget ⟨0, 0, 0⟩ (s.plotAt p).arrivals c
    match (s.plotAt p).triggers.find? fun e => e.2.kind == 1 && e.2.ctr.toNat == c && decide (e.2.threshold ≤ a.count) && e.2.threshold != 0 with
    | none => s
    | some (k, t) =>
      ((s.modPlot p fun x => { x with arrivals := tset x.arrivals c { a with count := a.count - t.threshold } }).fireTrigger p k).arrivalFires p c n
/-- ARRV_APPLY (R225). -/
def execArrvApply (id : Nat) (s : State) : Result :=
  match tfind s.tokens id with
  | some (.arrv word plot ctr batch row n1) =>
    let done (s : State) : State := match tfind s.words word with
      | some w => { s with words := tset s.words word { w with stage := .finishing } }
      | none => s
    match s.intoSaved id plot (.arrv word plot ctr batch row n1) with
    | some s' => .next (if (tfind s'.tokens id).isNone then done s' else s')
    | none =>
      let a := (tget ⟨0, 0, 0⟩ (s.plotAt plot).arrivals ctr.toNat).apply batch row n1
      let s1 := (s.dropToken id).modPlot plot fun x => { x with arrivals := tset x.arrivals ctr.toNat a }
      .next (done (s1.arrivalFires plot ctr.toNat 65536))
  | _ => .next s

/-! ## Flits -/

/-- G30_WRITE (R151): the flit that an instruction writing g30 sends. -/
def execG30Write (v : Val) (s : State) : Result :=
  match s.sendFlit v with
  | .ok s' => .next s'
  | .error t => .next (s.trapNow t)
/-- G31_READ (R152, R153): the read of g31 by an instruction that writes g[d]; it blocks while there is no flit. -/
def execG31Read (d : GReg) (s : State) : Result :=
  if s.blocked [31] [d] then .next s
  else match (s.afterReads [31]).writeG d ((s.reads [31]).getD 0 .zero) with
    | .ok s' => .next s'
    | .error t => .next (s.trapNow t)
/-- An earlier flit from the same source to the same core has not arrived (R152). -/
def State.flitBefore (s : State) (id : Nat) (f : Flit) : Bool :=
  s.tokens.any fun e => decide (e.1 < id) && (match e.2 with
    | .flit y => y.src == f.src && y.plot == f.plot
    | _ => false)
/-- FLIT_ARRIVE (R152, R403): a flit enters its core's FIFO of 32 and ends the IDLE of its slot. -/
def execFlitArrive (id : Nat) (s : State) : Result :=
  match tfind s.tokens id with
  | some (.flit f) =>
    if s.flitBefore id f then .next s
    else match s.intoSaved id f.plot (.flit f) with
      | some s' => .next s'
      | none =>
        if 32 ≤ (s.plotAt f.plot).fifo.length then .next s
        else .next (((s.dropToken id).modPlot f.plot fun x => { x with fifo := x.fifo ++ [f] }).modSlot f.plot f.slot fun x => { x with idleEnd := none })
  | _ => .next s

/-! ## Watchdogs and asynchronous traps -/

/-- Elapsed time of a firing in clk (R360). -/
def State.elapsed (s : State) (x : Slot) : Nat := s.clock - x.fstart
/-- WATCHDOG (R360): the firing's time passes FIREWD; 0 disables it. -/
def execWatchdog (plot : BitVec 13) (slot : BitVec 3) (s : State) : Result :=
  let x := s.slotAt plot.toNat slot.toNat
  let limit := (x.firewd.extractLsb' 0 32).toNat
  if !x.firing || x.held || x.wdFired || limit = 0 || s.elapsed x ≤ limit * 1900 || !s.instLive plot.toNat then .next s
  else .next ((s.pendTrap plot.toNat slot.toNat .watchdog (mkTrap 0x58 (BitVec.ofNat 64 (s.elapsed x / 1900)))).modSlot plot.toNat slot.toNat
    fun x => { x with wdFired := true, idleEnd := none })
/-- IDLE_TIMEOUT (R403). -/
def execIdleTimeout (plot : BitVec 13) (slot : BitVec 3) (s : State) : Result :=
  match (s.slotAt plot.toNat slot.toNat).idleEnd with
  | none => .next s
  | some t => if s.clock < t then .next s else .next (s.modSlot plot.toNat slot.toNat fun x => { x with idleEnd := none })
/-- Number by which a slot's pennant request is known at the home. -/
def pnWaiter (key : Nat) : Nat := 10 ^ 13 + key
/-- A slot's request can no longer be taken back: its home has answered it, has sent it a raise, or moves the pennant for it. -/
def State.pnHeld (s : State) (key : Nat) : Bool :=
  match tfind s.pnreqs key with
  | none => false
  | some r => r.answer.isSome || r.granted || s.pennants.any fun e => e.2.mover == some (pnWaiter key)
/-- A slot's pennant request taken back before its home has begun it. -/
def State.dropPnReq (s : State) (key : Nat) : State :=
  if s.pnHeld key then s
  else { s with pnreqs := tdel s.pnreqs key, pennants := tmap s.pennants fun _ e => { e with queue := e.queue.filter (· != pnWaiter key) } }
/-- What a slot's instruction has under way in the walkers' queues and at the front end's pages: its own accesses and its container. -/
def Walk.ofSlot (w : Walk) (p k : Nat) : Bool := w.plot == p && w.slot == k && (w.ticket == none || w.ticket == some (10 ^ 13 + (8 * p + k)))
/-- A slot waits for no event any more; those behind it may be next (R364, R365). -/
def State.leaveEvents (s : State) (i key : Nat) : State :=
  match tfind s.insts i with
  | none => s
  | some x =>
    let waits := x.guidons.filter fun g => g.2.evq.contains key
    waits.foldl (fun s g => (s.modGuidon i g.1 fun y => { y with evq := y.evq.filter (· != key) }).grantRaises i g.1 g.2.evq.length) s
/-- The waiting instruction of a slot withdrawn (R98, R248, R249, R335, R360, R364): it is no longer among those who wait, its walk is
cancelled but not what is parked at its home (R96), a CONFIG stands between two regions, and a read held at its instruction that its home has
not served is taken back (R195). -/
def State.withdraw (s : State) (p k : Nat) : State :=
  let key := 8 * p + k
  let s1 := match (s.plotAt p).inst with
    | some i => s.leaveEvents i key
    | none => s
  let s2 := s1.modPlot p fun x => { x with arcq := tmap x.arcq fun _ l => l.filter (· != k) }
  let s3 := { s2 with walks := s2.walks.filter (fun w => !(w.2.ofSlot p k && decide (w.2.kind < 10))),
                      regions := tmap s2.regions fun _ r => { r with disarming := r.disarming.filter (· != key) } }
  let s4 := match (s3.slotAt p k).wait with
    | none => s3
    | some id => match tfind s3.reqs id with
      | some r => if r.stage == Stage.issued then
          { (s3.modSlot p k fun x => { x.countDown true with wait := none }) with reqs := tdel s3.reqs id }
        else s3
      | none => s3
  let s5 := (s4.modSlot p k fun x => { x with bwait := none, loading := none }).dropPnReq key
  match (s.plotAt p).inst with
  | some i => s5.relend i
  | none => s5
/-- Order of pending traps (R387). -/
def PendKind.rank : PendKind → Nat
  | .watchdog => 0 | .config => 1 | .die => 2 | .drn => 3 | .word => 4
/-- The trap a slot takes next: in a handler only WATCHDOG (R387). -/
def Slot.nextPend (x : Slot) : Option Pend :=
  x.pend.foldl (fun b p => if x.ih && p.kind != .watchdog then b else match b with
    | none => some p
    | some q => if p.kind.rank < q.kind.rank then some p else b) none
/-- The list without the first entry equal to one. -/
def dropFirst (p : Pend) : List Pend → List Pend
  | [] => []
  | q :: t => if q = p then t else q :: dropFirst p t
/-- A read that waits at its home's fault queue stays there when its instruction is withdrawn by a trap (R96), as does a fetch or a container's
read: the instruction will execute again, and the read's result goes nowhere (log 104). -/
def State.orphan (s : State) (p k : Nat) : State :=
  let s1 := { s with walks := tmap s.walks fun _ w => if w.ofSlot p k && decide (w.kind < 13) then { w with orphan := true } else w }
  match (s1.slotAt p k).wait with
  | none => s1
  | some id => match tfind s1.reqs id with
    | none => s1
    | some r => match r.stage with
      | .parked _ => (s1.modSlot p k fun x => { x with wait := none }).setReq id { r with dest := .none, retained := false }
      | _ => s1
/-- ASYNC_TRAP (R387-R389): the pending trap is taken at the boundary, before the instruction there is decoded, while the slot's instance runs
(R410); what the instruction there cannot give back, an answer under way or a read already served, comes first. -/
def execAsyncTrap (plot : BitVec 13) (slot : BitVec 3) (s : State) : Result :=
  let p := plot.toNat
  let k := slot.toNat
  let x := s.slotAt p k
  if !x.firing || x.held || !s.plotRuns p then .next s
  else match x.nextPend with
    | none => .next s
    | some e =>
      let s1 := (s.withdraw p k).orphan p k
      if (s1.slotAt p k).wait.isSome || s1.pnHeld (8 * p + k) then .next s
      else
        let f := s.focus
        let s2 := { (s1.modSlot p k fun x => { x with pend := dropFirst e x.pend, idleEnd := none }) with focus := { f with plot := p, slot := k } }
        .next { (s2.trapNow e.trap) with focus := f }

end Sys2Proof.Machine
end

