-- ==== Sys2Proof/Machine/Stream.lean ====
section
/-! DEFINITION. Stream words: building, issue and completion (R201-R209), their faults (R228, R229), and the copy engine's reads
and writes (R77, R84, R95, R116, R178, R212). -/

namespace Sys2Proof.Machine

/-! ## Faults -/

/-- A matrix word, which counts in CNTTL (R253). -/
def isTileWord (i : Instr) : Bool :=
  match i with
  | .wld .. | .wstr .. | .mtok .. | .accz .. | .drn .. | .steer .. | .ringMember .. | .ringSource .. | .race .. => true
  | _ => false
/-- What a fault's number says (R229, R389): the index of a bunting name, modulo 64 as its field has it (log 121), with 64 that the address was not canonical, with 128 that a
parked request was declined. -/
def faultInfo (n : Nat) : Word :=
  BitVec.ofNat 64 (n % 64 * 65536) ||| (if n / 64 % 2 = 1 then 0x400000000 else 0) ||| (if n / 128 % 2 = 1 then 0x100000000 else 0)
/-- The removed die of such a number, for a trap that is no stream word's (R391). -/
def dieInfo (n : Nat) : Word := if n / 2048 % 2 = 1 then BitVec.ofNat 64 (n / 256 % 8) else 0
/-- The number that stands for a trap's ncan and park bits and, with 2048, for the removed die that it names. -/
def trapInfo (t : Trap) : Nat :=
  (if t.tinfo.getLsbD 34 then 64 else 0) + (if t.tinfo.getLsbD 32 then 128 else 0) + (if t.cause = 0x48 then 2048 + t.tinfo.toNat % 8 * 256 else 0)
/-- What an engine's translations left behind: its requests that were declined or have been performed by their queue, or with `all` every walk. -/
def State.dropWalks (s : State) (id : Nat) (all : Bool) : State :=
  { s with walks := s.walks.filter fun w => !(w.2.ticket == some id && (all || w.2.declined || w.2.done)) }
/-- A word leaves: its counter falls (R204). -/
def State.endWord (s : State) (id : Nat) : State :=
  match tfind s.words id with
  | none => s
  | some w =>
    let s1 := (s.dropWalks id true).modSlot w.plot w.slot fun x => if isTileWord w.instr then { x with cnttl := x.cnttl - 1 } else { x with cntcp := x.cntcp - 1 }
    { (s1.modPlot w.plot fun x => { x with queue := x.queue.filter (· != id) }) with words := tdel s1.words id }
/-- A stream-word trap made pending: an earlier one of its kind still pending, which bit 23 of TINFO tells from a flit's, is logged instead
(R229). -/
def State.pendWord (s : State) (p k : Nat) (ticket : BitVec 16) (kind : PendKind) (cause : BitVec 8) (tval : Word) (tinfo : Word) : State :=
  let x := s.slotAt p k
  match x.pend.find? fun e => e.kind == kind && e.trap.tinfo.getLsbD 23 with
  | none => s.pendTrap p k kind ⟨cause, tval, tinfo ||| ticket.zeroExtend 64 ||| 0x800000⟩
  | some e =>
    let s1 := s.logRec 0x0F (p + k * 8192) ((e.trap.tinfo.extractLsb' 0 16).toNat + e.trap.cause.toNat * 65536)
    s1.modSlot p k fun x => { x with pend := dropFirst e x.pend ++ [⟨kind, ⟨cause, tval, tinfo ||| ticket.zeroExtend 64 ||| 0xC00000⟩⟩], idleEnd := none }
/-- A word faults (R228, R229): it ends without posting, its trap pending; `idx` is what `faultInfo` reads. -/
def State.wordFault (s : State) (id : Nat) (cause : BitVec 8) (tval : Word) (idx : Nat) : State :=
  match tfind s.words id with
  | none => s
  | some w =>
    let s1 := s.pendWord w.plot w.slot w.ticket .word cause tval (faultInfo idx)
    (s1.modSlot w.plot w.slot fun x => { x with idleEnd := none }).endWord id

/-! ## The copy engine's accesses -/

/-- An address that an engine may use: host offset or physical address; or a host access that its queue has declined, or performed with a word;
or a wait; or a fault. -/
inductive EngAddr where
  | at (host : Bool) (pa : Nat)
  | declined
  | performed (w : W32)
  | wait (s : State)
  | fault (t : Trap) (s : State)
  deriving DecidableEq, Repr
/-- Order class of what an engine serves: a word's, a binding's, else 7. -/
def State.engineOc (s : State) (id : Nat) : BitVec 3 :=
  match tfind s.words id with
  | some w => ((wordHdr w.instr).map (·.oc)).getD 7
  | none => match (s.portAt (id - 10 ^ 12)).bind with
    | some b => b.oc
    | none => 7
/-- The fault id under which an earlier request of a source to the slice line of an address on a host page is parked (R97). -/
def State.parkAhead (s : State) (plot slot : Nat) (oc : BitVec 3) (va : Word) : Option Nat :=
  match s.walks.find? fun w => w.2.plot == plot && w.2.slot == slot && w.2.oc == oc && (w.2.kind == 10 || w.2.kind == 11)
      && w.2.parked.isSome && !w.2.declined && !w.2.done && w.2.va.toNat / 128 == va.toNat / 128 with
  | some (_, w) => w.parked
  | none => s.reqs.findSome? fun e => if e.2.plot == plot && e.2.slot == slot && e.2.oc == oc && e.2.unit == 16 && e.2.va.toNat / 128 == va.toNat / 128
    then (match e.2.stage with
      | .parked f => some f
      | _ => none) else none
/-- An engine's access to a host page outside the registered memory (R94, R97): parked, behind an earlier request of its source to the line
under that one's fault id, or anew, with the word `write` that it brings; it waits while the queue of its slice plot is full, and until the
queue has performed it. -/
def State.engineParks (s : State) (plot slot id : Nat) (va : Word) (data : Option W32) (pa : Nat) : EngAddr :=
  let write := data.isSome
  let kind := if write then 11 else 10
  let oc := s.engineOc id
  match s.walks.find? fun w => w.2.plot == plot && w.2.va == va && w.2.kind == kind && w.2.ticket == some id && !w.2.orphan with
  | some (_, w) => if w.declined then .declined else if w.done then .performed w.data else .wait s
  | none =>
    if 64 ≤ s.parkedAt (walkerSlice plot va) then .wait s
    else
      let p := match s.parkAhead plot slot oc va with
        | some f => (f, s)
        | none => s.parkReport plot slot oc va (if write then 0x09 else 0x08) false (if write then 5 else 4) (slicePlot (walkerSlice plot va)) pa
      .wait { p.2 with walks := tset p.2.walks p.2.nextId ⟨plot, slot, va, kind, some p.1, false, some id, oc, (s.causalAt (dieOf plot)).dv, none,
                         data.getD W32.zero, pa, false, false⟩,
                       nextId := p.2.nextId + 1 }
/-- Translation and target check for a word of an engine (R87, R94, R178), read or, with its data, written; `id` is the stream word, or a port's
key for a binding. -/
def State.engineAddr (s : State) (plot slot id : Nat) (va : Word) (data : Option W32) : EngAddr :=
  let write := data.isSome
  match s.translate plot slot (some id) (s.engineOc id) va (if write then 1 else 0) with
  | .trap t s' => .fault t s'
  | .miss s' => .wait s'
  | .hit e =>
    let pa := (e.addr va).toNat
    match s.targetTrap (if write then .write else .read) e.host pa va with
    | some t => .fault t s
    | none =>
      if !e.host then .at false pa
      else
        let inside := match s.hostSession plot with
          | some (_, x) => decide (pa + 4 ≤ x.hlen)
          | none => false
        if inside then .at true pa else s.engineParks plot slot id va data pa
/-- A word that a stream reads or writes: at an address, lost with a payload, or of an unmapped name. -/
inductive Src where
  | va (a : Word)
  | bad (payload : BitVec 32)
  | unmapped (idx : Nat)
  deriving DecidableEq, Repr
/-- Word at byte `pos` of a pattern's stream. -/
def Pattern.src (p : Pattern) (engine pos : Nat) : Src :=
  match p.chunkAt engine (pos / p.chunk) with
  | .va a => .va (a + BitVec.ofNat 64 (pos % p.chunk))
  | .lost b => .bad b
  | .block _ _ _ => .unmapped (pos / p.chunk)
/-- `n` words of a pattern's stream from a byte position. -/
def Pattern.srcs (p : Pattern) (engine pos n : Nat) : List Src := (List.range n).map fun i => p.src engine (pos + 4 * i)
/-- What an engine's reads or writes come to: done (with words read, or numbers of writes under way), waiting, or a fault with
what was done before it. -/
inductive EngOut (α : Type) where
  | done (x : α) (s : State)
  | wait (s : State)
  | fault (cause : BitVec 8) (tval : Word) (idx : Nat) (x : α) (s : State)
/-- Words read by an engine in order: each when its home may serve it (R84, R116, R139), with what it tells the predictor of its slice, once
for each 64-B sector in turn (R133, R134); `prev` is the address of the word before. -/
def State.engineRead (s : State) (plot slot id : Nat) (sig : BitVec 12) (prev : Option Word) : (l : List Src) → (acc : List W32) → EngOut (List W32)
  | [], acc => .done acc.reverse s
  | x :: t, acc =>
    match x with
    | .bad b => s.engineRead plot slot id sig none t (⟨false, b⟩ :: acc)
    | .unmapped k => .fault 0x39 0 (k % 64) acc.reverse s
    | .va a => match s.engineAddr plot slot id a none with
      | .performed w => s.engineRead plot slot id sig none t (w :: acc)
      | .fault e s' => .fault e.cause a (trapInfo e) acc.reverse s'
      | .wait s' => .wait s'
      | .declined => s.engineRead plot slot id sig none t (⟨false, payloadBits 3 (slicePlot (walkerSlice plot a)) 0⟩ :: acc)
      | .at true off => match s.hostSession plot with
        | some (_, h) => s.engineRead plot slot id sig none t (hostWord h off :: acc)
        | none => .wait s
      | .at false pa =>
        if !s.mayRead (s.causalAt (dieOf plot)).dv pa then .wait s
        else if s.expired pa && (match s.transientOf pa with
          | some r => r.2.trapFlag
          | none => false) then .fault 0x3A a 0 acc.reverse s
        else
          let s1 := if prev = some (a - 4) && pa % 64 != 0 then s else (s.sliceUse pa sig .read).touchTlb plot a
          (s1.mergeRead plot pa).engineRead plot slot id sig (some a) t (s.loadWord plot pa :: acc)
/-- Addresses of the words that an engine writes, up to the first that cannot be resolved; a bus under retraining holds them (R139). -/
def State.resolveAll (s : State) (plot slot id : Nat) : (l : List (Src × W32)) → (acc : List (Bool × Nat × W32)) → EngOut (List (Bool × Nat × W32))
  | [], acc => .done acc.reverse s
  | (x, w) :: t, acc =>
    match x with
    | .bad _ => s.resolveAll plot slot id t acc
    | .unmapped k => .fault 0x39 0 (k % 64) acc.reverse s
    | .va a => match s.engineAddr plot slot id a (some w) with
      | .performed _ => s.resolveAll plot slot id t acc
      | .fault e s' => .fault e.cause a (trapInfo e) acc.reverse s'
      | .wait s' => .wait s'
      | .declined => s.resolveAll plot slot id t acc
      | .at host pa => if !host && s.busHeldAt pa then .wait s else s.resolveAll plot slot id t ((host, pa, w) :: acc)
/-- How a write of an engine to host memory stands among those not yet acknowledged: no access of its slot (R332, R333), but of its plot. -/
def engineAck (plot slot : Nat) : Nat := (8 * (plot + 16384) + slot) * 8 + 7
/-- Resolved words written, which leave the plot's L1 (R156): on this die at once, on others as counted packets, to host memory through the front end. The
numbers of the writes under way are answered. -/
def State.writeResolved (s : State) (plot slot id : Nat) (sig : BitVec 12) (l : List (Bool × Nat × W32)) : List Nat × State :=
  let die := dieOf plot
  let hosts := l.filter (·.1)
  let mine := l.filter fun x => !x.1 && s.unitOf plot false x.2.1 == die
  let far := l.filter fun x => !x.1 && s.unitOf plot false x.2.1 != die
  let lines := (l.filter fun x => !x.1).map fun x => x.2.1 / 64
  let s0 := s.modPlot plot fun x => { x with l1 := x.l1.filter fun e => !lines.contains e.1 }
  let s1 := s0.engineStores sig (mine.map fun x => (BitVec.ofNat 48 x.2.1, x.2.2))
  let s2 := if hosts == [] then s1 else match s1.hostSession plot with
    | some (k, h) =>
      let h' := hosts.foldl (fun h x => hostPut h x.2.1 (wordBytesOf x.2.2.bits)) h
      { s1 with sessions := tset s1.sessions k h', hostAcks := tset s1.hostAcks s1.nextId (engineAck plot slot), nextId := s1.nextId + 1 }
    | none => s1
  (List.range 8).foldl (fun (r : List Nat × State) d =>
    let ws := far.filter fun x => s.unitOf plot false x.2.1 == d
    if ws == [] then r
    else (r.1 ++ [r.2.nextId], r.2.post plot 8 d [] (.writes id sig (ws.map fun x => (BitVec.ofNat 48 x.2.1, x.2.2))))) ([], s2)
/-- Words written by an engine, with the numbers of the writes under way (R157, R228: writes before a fault stay). -/
def State.engineStore (s : State) (plot slot id : Nat) (sig : BitVec 12) (l : List (Src × W32)) : EngOut (List Nat × List W32) :=
  match s.resolveAll plot slot id l [] with
  | .wait s' => .wait s'
  | .done r s' => let o := s'.writeResolved plot slot id sig r
    .done (o.1, r.map (·.2.2)) o.2
  | .fault c v k r s' => let o := s'.writeResolved plot slot id sig r
    .fault c v k (o.1, r.map (·.2.2)) o.2
/-- Predictor signature of a word's accesses by a pattern record, or without one (R133, log 98). -/
def SWord.recSig (w : SWord) (r : Option (BitVec 13)) : BitVec 12 :=
  accessSig (match r with
    | some r => r.extractLsb' 0 12
    | none => w.src) w.plot w.slot (((wordHdr w.instr).map (·.oc)).getD 7)
/-- A write under way has performed: it is neither waiting to leave nor undelivered. -/
def State.outDone (s : State) (id : Nat) : Bool :=
  (tfind s.outs id).isNone && (match tfind s.packets id with
    | some p => p.delivered
    | none => true)

/-! ## Starting a word (R206-R209) -/

/-- The port of the issuing plot's region that a word's port field names, with its record: none for PORT_UNBOUND (R209). -/
def State.wordPort (s : State) (plot : Nat) (port : BitVec 8) : Option (Nat × PortMap) :=
  match s.regionOf plot with
  | none => none
  | some (_, r) =>
    if r.edgeLen (port.toNat % 16) ≤ port.toNat / 16 then none
    else (r.map (port.toNat / 16) (port.toNat % 16)).map fun m => (r.portKey (port.toNat / 16) (port.toNat % 16), m)
/-- The word names a port (R217, R254). -/
def namesPort (i : Instr) : Bool :=
  match i with
  | .bindr .. | .bindw .. | .unbind .. | .mcst .. | .phase .. | .steer .. => true
  | _ => false
/-- The plot whose engine executes a word (R209). -/
def State.enginePlot (s : State) (w : SWord) : Nat :=
  match wordHdr w.instr with
  | some h => if namesPort w.instr then (match s.wordPort w.plot h.port with
    | some (k, _) => k / 16
    | none => w.plot) else w.plot
  | none => w.plot
/-- The trap of a DRN is taken and its region freezes: the beat with its poison has left (R272, R393). -/
def State.drnTrapped (s : State) (k : Nat) (d : DrnTrap) : State :=
  (s.pendWord d.plot d.slot d.ticket .drn d.cause d.tval 0x800000000).modRegion k fun r => { r with frozenTrap := true }
/-- Beats have left a drain port: the traps of DRNs whose beat was among them are taken (R272, R393). -/
def State.beatsLeft (s : State) (key n : Nat) : State :=
  match s.regionOf (key / 16) with
  | some (k, r) =>
    let due (d : DrnTrap) : Bool := d.port == key && decide (d.left ≤ n)
    (r.trapDue.filter due).foldl (fun s d => s.drnTrapped k d) (s.modRegion k fun r =>
      { r with trapDue := (r.trapDue.filter fun d => !due d).map fun d => if d.port = key then { d with left := d.left - n } else d })
  | none => s
/-- The oldest beat leaves a buffer; a feed-side index switch may put the beat of a wrong index in its place (R273). -/
def State.bufPop (s : State) (key : Nat) : State :=
  ((s.modPort key fun p => { p with buf := p.buf.drop 1, past := if p.buf.length ≤ 1 then [] else p.past }).beatsLeft key 1).steerFeed key 256
/-- The engine itself executes the word (R208). -/
def onEngine (i : Instr) : Bool :=
  match i with
  | .bindr .. | .bindw .. | .unbind .. | .cpy .. | .cpyp .. | .gath .. | .scat .. | .mcst .. | .phase .. | .arrv .. | .patch .. | .evt ..
  | .steer .. | .race .. => true
  | _ => false
/-- A word that binds or extends a binding and still waits for the names of its record (R107). -/
def SWord.namesDue (w : SWord) : Bool :=
  w.asks != 0 && (match w.instr with
    | .bindr .. | .bindw .. | .phase .. => true
    | _ => false)
/-- An earlier word that names the same port of the same region has not started (R208). -/
def State.portBusy (s : State) (id : Nat) (w : SWord) (port : BitVec 8) : Bool :=
  s.words.any fun e => decide (e.1 < id) && (e.2.stage == .queued || e.2.namesDue) && namesPort e.2.instr
    && (s.plotAt e.2.plot).region == (s.plotAt w.plot).region && (e.2.plot == w.plot || (s.plotAt w.plot).region.isSome)
    && (match wordHdr e.2.instr with
      | some h => h.port == port
      | none => false)
/-- The previous binding of a port has not ended (R208, R220), or four PHASEs are queued on it (R221). -/
def State.bindingBusy (s : State) (w : SWord) (port : BitVec 8) : Bool :=
  match s.wordPort w.plot port with
  | none => false
  | some (k, m) => match w.instr with
    | .bindr .. | .bindw .. => m.conn == 1 && (s.portAt k).bind.isSome
    | .phase .. => match (s.portAt k).bind with
      | some b => decide (4 ≤ b.phases.length)
      | none => false
    | _ => false
/-- A matrix word but ACCZ, STEER and RACE waits while its region is disarmed or frozen (R253), a word on a port while
plots of its region wake (R250). -/
def State.regionHolds (s : State) (w : SWord) : Bool :=
  match w.instr with
  | .wld .. | .wstr .. | .mtok .. | .drn .. | .ringMember .. | .ringSource .. => (match s.regionOf w.plot with
    | some (k, r) => !r.armed || r.disarming != [] || s.regionFrozen k
    | none => false)
  | _ => namesPort w.instr && (match s.regionOf w.plot with
    | some (_, r) => r.plotIds.any fun p => !(s.plotAt p).awake
    | none => false)
/-- The word waits for its port (R208) or for its region. -/
def State.heldAside (s : State) (id : Nat) (w : SWord) : Bool :=
  match wordHdr w.instr with
  | none => false
  | some h => s.regionHolds w || (namesPort w.instr && (s.portBusy id w h.port || s.bindingBusy w h.port))

/-! ## Arcs (R206, R208, R335) -/

/-- Those who wait on an arc (R335): a slot 0-7, or 8 + a word's number. -/
def State.arcWaiters (s : State) (p : Nat) (id : BitVec 8) : List Nat := tget [] (s.plotAt p).arcq id.toNat
/-- The waiters of an arc changed. -/
def State.setWaiters (s : State) (p : Nat) (id : BitVec 8) (l : List Nat) : State :=
  s.modPlot p fun x => { x with arcq := if l = [] then tdel x.arcq id.toNat else tset x.arcq id.toNat l }
/-- An arc counter (R206). -/
def State.arcCount (s : State) (p : Nat) (id : BitVec 8) : BitVec 8 := tget 0 (s.plotAt p).arcs id.toNat
/-- An arc counter set. -/
def State.setArc (s : State) (p : Nat) (id : BitVec 8) (n : BitVec 8) : State :=
  s.modPlot p fun x => { x with arcs := tset x.arcs id.toNat n }
/-- One who waits on an arc would go on with a count: a slot, or a queued word that nothing else holds aside (R208). -/
def State.arcLive (s : State) (w : Nat) : Bool :=
  decide (w < 8) || (match tfind s.words (w - 8) with
    | some e => e.stage == .queued && !s.heldAside (w - 8) e
    | none => false)
/-- A waiter may take one count: the counter is not 0 and nobody who would go on with it began to wait before (R208, R335). -/
def State.arcReady (s : State) (p : Nat) (id : BitVec 8) (w : Nat) : Bool :=
  s.arcCount p id != 0 && (match (s.arcWaiters p id).filter s.arcLive with
    | [] => true
    | h :: _ => h == w)
/-- A counter falls by one, or an increment that waited for that takes its place (R206). -/
def State.lowerArc (s : State) (p : Nat) (id : BitVec 8) : State :=
  if (s.plotAt p).owed.contains id.toNat then s.modPlot p fun x => { x with owed := x.owed.erase id.toNat }
  else s.setArc p id (s.arcCount p id - 1)
/-- The waiter takes its count. -/
def State.takeArc (s : State) (p : Nat) (id : BitVec 8) (w : Nat) : State :=
  (s.lowerArc p id).setWaiters p id ((s.arcWaiters p id).filter (· != w))
/-- An arc counter raised (R206). -/
def State.postArc (s : State) (p : Nat) (arc : BitVec 8) : State := s.setArc p arc (s.arcCount p arc + 1)
/-- The end of a binding posts its arc: an increment of a counter at 255 waits (R206, R219). -/
def State.postEnd (s : State) (p : Nat) (arc : BitVec 8) : State :=
  if arc = 0 then s
  else if s.arcCount p arc = 255 then s.modPlot p fun x => { x with owed := x.owed ++ [arc.toNat] }
  else s.postArc p arc
/-- The waiter joins those who wait. -/
def State.joinArc (s : State) (p : Nat) (id : BitVec 8) (w : Nat) : State :=
  if (s.arcWaiters p id).contains w then s else s.setWaiters p id (s.arcWaiters p id ++ [w])
/-- ARC (R335): 0 read, 1 acquire, 2 release; kind 3 is no instruction. -/
def execArc (d : GReg) (id : BitVec 8) (k : BitVec 2) (oc : BitVec 3) (s : State) : Result :=
  let p := s.focus.plot
  if k = 0 then scalar 4 [] d (fun _ => .ok (.ofWord ((s.arcCount p id).zeroExtend 64))) s
  else if k = 1 then
    if s.arcReady p id s.focus.slot then .next (((s.takeArc p id s.focus.slot).flushL1 p).advance 4)
    else .next (s.joinArc p id s.focus.slot)
  else if s.allReleased oc && s.arcCount p id != 255 then .next ((s.setArc p id (s.arcCount p id + 1)).advance 4)
  else .next s


/-! ## The queue -/

/-- The word stands aside in its queue: it waits for its arc or for its port (R208), or for its region. -/
def State.standsAside (s : State) (id : Nat) (w : SWord) : Bool :=
  match wordHdr w.instr with
  | none => false
  | some h => s.heldAside id w || (h.await && !s.arcReady w.plot h.arc (8 + id))
/-- The accesses of R207, or for PATCH those of R226, have come far enough. -/
def State.waitsOver (s : State) (w : SWord) : Bool :=
  match w.instr with
  | .patch .. => w.waits.all s.perfOk
  | _ => w.waits.all s.relOk
/-- The word reads its plot's scratchpad when it starts: its records, a value, an index list, scores (R210, R226, R273, R279). -/
def readsSpad (i : Instr) : Bool :=
  wordRecs i != [] || (match i with
    | .patch _ _ _ _ _ _ ind => ind
    | .steer .. | .race .. => true
    | _ => false)
/-- Reads of a plot's own engine in its scratchpad are served now: what its die's vector has met is delivered (R116). -/
def State.spadReady (s : State) (plot : Nat) : Bool := s.covers (dieOf plot) (s.causalAt (dieOf plot)).dv 8
/-- A queued word may start (R206-R208); a pre-emption lets none start (R405). -/
def State.canStart (s : State) (id : Nat) (w : SWord) : Bool :=
  w.stage == .queued && s.instLive w.plot && !s.standsAside id w && s.waitsOver w && (!readsSpad w.instr || s.spadReady w.plot)
    && (s.plotAt w.plot).queue.all (fun j => decide (id ≤ j) || (match tfind s.words j with
      | some e => s.standsAside j e
      | none => true))
    && (!onEngine w.instr || decide ((s.words.filter fun e => e.2.stage != .queued && onEngine e.2.instr
      && s.enginePlot e.2 == s.enginePlot w).length < 4))
/-- A word changed. -/
def State.setWord (s : State) (id : Nat) (w : SWord) : State := { s with words := tset s.words id w }
/-- The word is done but for its writes (R219). -/
def State.finishing (s : State) (id : Nat) (outs : List Nat) : State :=
  match tfind s.words id with
  | some w => s.setWord id { w with stage := .finishing, outs := w.outs ++ outs }
  | none => s
/-- What starting a word comes to. -/
inductive Started where
  | yes (s : State)
  | no (s : State)
/-- A stream word acts as the word that the focus names: nothing happens when that is another one (log 5). -/
def asWord (i : Instr) (s : State) (r : Result) : Result :=
  match tfind s.words s.focus.word with
  | some w => if w.instr = i then r else .next s
  | none => .next s
/-- The word that the focus names is started by `run`, given its number and header; it leaves the queue and takes its arc. -/
def startWord (run : Nat → SWord → SwHdr → State → Started) (s : State) : Result :=
  let id := s.focus.word
  match tfind s.words id with
  | none => .next s
  | some w => match wordHdr w.instr with
    | none => .next s
    | some h =>
      if !s.canStart id w then .next s
      else match run id { w with stage := .running } h (s.setWord id { w with stage := .running }) with
        | .yes s1 =>
          let s2 := if h.await then s1.takeArc w.plot h.arc (8 + id) else s1
          .next (s2.modPlot w.plot fun x => { x with queue := x.queue.filter (· != id) })
        | .no s1 => .next (match tfind s1.words id with
          | some w' => s1.setWord id { w' with stage := .queued }
          | none => s1)
/-- Offset of a pattern record (R210). -/
def recOff (r : BitVec 13) : Word := BitVec.ofNat 64 (r.toNat * 64)
/-- The VA of an offset of a plot's scratchpad (R155). -/
def spadVa (plot off : Nat) : Word := BitVec.ofNat 64 (plotBase plot + off)

/-! ## The issue instructions -/

/-- SQSET (R202). -/
def execSqset (q : QNum) (a b : GReg) (k : BitVec 2) (s : State) : Result :=
  if s.blockedQ [q] then .next s
  else control 4 (if b = 0 then [a] else [a, b]) [] (fun vs s' =>
    match consume vs with
    | some t => .error t
    | none =>
      let lo := 32 * k.toNat
      let old := s'.cur.qReg q
      let new : BitVec 32 := (vs.getD 0 .zero).bits.extractLsb' 0 32
      let m : BitVec 32 := if b = 0 then 0xFFFFFFFF else (vs.getD 1 .zero).bits.extractLsb' 0 32
      let w := (old.extractLsb' lo 32 &&& ~~~m) ||| (new &&& m)
      .ok (some (s'.qSet q ((old &&& ~~~((0xFFFFFFFF#128) <<< lo)) ||| (w.zeroExtend 128 <<< lo))))) s
/-- The ticket after another (R204): it wraps from 0xFFFF to 1. -/
def nextTicket (t : BitVec 16) : BitVec 16 := if t = 0xFFFF then 1 else t + 1
/-- SQISS (R43, R204): the word is checked and enters the plot's stream queue of 16, and with await the line of those who wait on its arc. -/
def execSqiss (d : GReg) (q : QNum) (s : State) : Result :=
  if s.blockedQ [q] then .next s
  else match s.badReg [(3, q.zeroExtend 5)] with
  | some t => .next (s.trapNow t)
  | none => control 4 [] [d] (fun _ s' =>
    let w := s.cur.qReg q
    match decodeSw w with
    | .error bit => .error ⟨0x30, w.extractLsb' 64 64, BitVec.ofNat 64 bit⟩
    | .ok i =>
      if 16 ≤ (s.plotAt s.focus.plot).queue.length then .ok none
      else
        let t := nextTicket s.cur.ticket
        let oc := match wordHdr i with
          | some h => h.oc
          | none => 7
        let id := s'.nextId
        let word : SWord := ⟨s.focus.plot, s.focus.slot, t, i, .queued, s.classIds s.focus.plot s.focus.slot oc, [], 0, [], false,
          tget 0 s.cur.qsrc q.toNat, 0, false, []⟩
        let s0 := { s' with words := s'.words ++ [(id, word)], nextId := id + 1 }
        let s1 := match wordHdr i with
          | some h => if h.await then s0.joinArc s.focus.plot h.arc (8 + id) else s0
          | none => s0
        let s2 := s1.modPlot s.focus.plot fun x => { x with queue := x.queue ++ [id] }
        let s3 := s2.modCur fun x => if isTileWord i then { x with ticket := t, cnttl := x.cnttl + 1 } else { x with ticket := t, cntcp := x.cntcp + 1 }
        s3.answerG d (t.zeroExtend 64)) s
/-- SQWAIT (R205). -/
def execSqwait (a : GReg) (s : State) : Result :=
  control 4 [a] [] (fun vs s' =>
    match consume vs with
    | some t => .error t
    | none =>
      let v := (vs.getD 0 .zero).bits
      if s.words.any fun e => e.2.plot == s.focus.plot && e.2.slot == s.focus.slot && (a == 0 || e.2.ticket.toNat == v.toNat)
      then .ok none else .ok (some s')) s
/-- An MTOK. -/
def isMtok (i : Instr) : Bool :=
  match i with
  | .mtok .. => true
  | _ => false
/-- STREAM_WORD_COMPLETE (R206, R219): a word whose writes have performed posts its arc, waiting while the counter is 255, and
its counter falls. A binding posts when it ends; MTOK has events of its own. -/
def execStreamWordComplete (plot : BitVec 13) (slot : BitVec 3) (ticket : BitVec 16) (s : State) : Result :=
  match s.words.find? fun e => e.2.plot == plot.toNat && e.2.slot == slot.toNat && e.2.ticket == ticket with
  | none => .next s
  | some (id, w) => match wordHdr w.instr with
    | none => .next s
    | some h =>
      let posts := h.post && (match w.instr with
        | .bindr .. | .bindw .. => false
        | _ => true)
      if isMtok w.instr || w.stage != .finishing || !w.outs.all s.outDone || (posts && s.arcCount w.plot h.arc == 255) || !s.instLive w.plot then .next s
      else .next ((if posts then s.postArc w.plot h.arc else s).endWord id)

end Sys2Proof.Machine
end

