-- ==== Sys2Proof/Machine/Bunting.lean ====
section
/-! DEFINITION. The bunting store (R99-R108): names, blocks, counts, and the BN stream words. -/

namespace Sys2Proof.Machine

/-- Sequence of a name (R100). -/
def nameSeq (name : Nat) : Nat := name / 2 ^ 24
/-- A stack may give and take blocks: its die is not fenced and not absent (R101, R426). -/
def State.partOpen (s : State) (m : Nat) : Bool :=
  let d := s.bunting.parts.getD m 0
  s.present d && !(s.dieAt d).fenced && !s.isRemoved d
/-- Blocks of one part. -/
def Bunting.partSize (b : Bunting) : Nat := b.blocks / max 1 b.parts.length
/-- The part that holds a block (R99). -/
def Bunting.partOf (b : Bunting) (block : Nat) : Nat := block / max 1 b.partSize
/-- Parts from a first one on, in ascending order, wrapping. -/
def Bunting.order (b : Bunting) (m : Nat) : List Nat := (List.range b.parts.length).map fun j => (m + j) % max 1 b.parts.length
/-- The part that owns a name: that of its sequence, or past fenced stacks the next (R100, R426). -/
def State.ownerPart (s : State) (name : Nat) : Nat :=
  let n := max 1 s.bunting.parts.length
  ((s.bunting.order (nameSeq name % n)).find? s.partOpen).getD (nameSeq name % n)
/-- Free blocks of a part. -/
def Bunting.freeOf (b : Bunting) (m : Nat) : Nat := b.partSize - tget 0 b.taken m + (tget [] b.freed m).length
/-- Free blocks of the unfenced parts. -/
def State.freeBlocks (s : State) : Nat := ((List.range s.bunting.parts.length).filter s.partOpen).foldl (fun n m => n + s.bunting.freeOf m) 0
/-- A block taken from the head of a part's list. -/
def Bunting.takeHead (b : Bunting) (m : Nat) : Nat × Bunting :=
  let t := tget 0 b.taken m
  if t < b.partSize then (m * b.partSize + t, { b with taken := tset b.taken m (t + 1) })
  else match tget [] b.freed m with
    | [] => (0, b)
    | x :: l => (x, { b with freed := tset b.freed m l })
/-- A block allocated for a name (R101), with count 1 and no contents yet; none when the pool is exhausted. -/
def State.allocBlock (s : State) (name : Nat) : Option (Nat × State) :=
  let first := nameSeq name % max 1 s.bunting.parts.length
  match (s.bunting.order first).find? fun m => s.partOpen m && s.bunting.freeOf m != 0 with
  | none => none
  | some m =>
    let r := s.bunting.takeHead m
    some (r.1, { s with bunting := { r.2 with refs := tset r.2.refs r.1 1 } })
/-- A block whose count falls to 0 joins the tail of its stack's list; a fenced stack's is not freed again (R100, R101, R426). -/
def State.dropRef (s : State) (block : Nat) : State :=
  let c := tget 0 s.bunting.refs block
  if c ≤ 1 then
    let m := s.bunting.partOf block
    let b := { s.bunting with refs := tdel s.bunting.refs block }
    { s with bunting := if s.partOpen m then { b with freed := tset b.freed m (tget [] b.freed m ++ [block]) } else b }
  else { s with bunting := { s.bunting with refs := tset s.bunting.refs block (c - 1) } }
/-- Physical address of a block (R99). -/
def State.blockPa (s : State) (block : Nat) : Nat := s.bunting.base + block * 32768
/-- Every line of a block written in a transient region is marked (R84). -/
def State.touchBlock (s : State) (block : Nat) : State :=
  if (s.transientOf (s.blockPa block)).isNone && (s.transientOf (s.blockPa block + 32767)).isNone then s
  else (List.range 512).foldl (fun s i => s.touch (s.blockPa block + 64 * i)) s
/-- A newly allocated block's words: invalid, ABSENT (R102). -/
def State.blankBlock (s : State) (block : Nat) : State := (s.fillInvalid 6 (s.blockPa block) 8192).touchBlock block
/-- 32 KiB copied from block to block with validity and payload (R107), RETENTION where a region has expired (R84). -/
def State.copyBlock (s : State) (src dst : Nat) : State :=
  let ws := s.readWords (s.homePlot (s.blockPa src)) (s.blockPa src) 8192
  { s with mem := s.mem.setBulk (s.blockPa dst) ws }.touchBlock dst
/-- The stack that holds a block is removed (R121). -/
def State.blockLost (s : State) (block : Nat) : Bool := s.isRemoved (s.bunting.parts.getD (s.bunting.partOf block) 0)
/-- A name mapped to a block. -/
def State.setName (s : State) (name block : Nat) : State := { s with bunting := { s.bunting with names := tset s.bunting.names name block } }
/-- What a BN operation comes to: result words and the state, or a fault with the first offending name's index (R106). -/
abbrev BnOut := Except (BitVec 8 × Nat) (List (BitVec 32) × State)
/-- BNALLOC over names (R107, R108), after the count of blocks needed was found to suffice. -/
def bnAlloc : (names : List Nat) → (i : Nat) → (res : List (BitVec 32)) → State → BnOut
  | [], _, res, s => .ok (res.reverse, s)
  | n :: t, i, res, s => match tfind s.bunting.names n with
    | some b => bnAlloc t (i + 1) (BitVec.ofNat 32 b :: res) s
    | none => match s.allocBlock n with
      | none => .error (0x38, i)
      | some (b, s1) => bnAlloc t (i + 1) (BitVec.ofNat 32 b :: res) ((s1.blankBlock b).setName n b)
/-- The first name without an entry. -/
def State.unmapped (s : State) (names : List Nat) : Option Nat :=
  (List.range names.length).find? fun i => (tfind s.bunting.names (names.getD i 0)).isNone
/-- A name's entry removed, its block's count lowered. -/
def State.freeName (s : State) (n : Nat) : State :=
  match tfind s.bunting.names n with
  | some b => let s1 := s.dropRef b
    { s1 with bunting := { s1.bunting with names := tdel s1.bunting.names n } }
  | none => s
/-- BNSHARE over pairs of names (R107, R108); a block on a removed stack cannot be copied (R121). A block that only a later pair releases is not
free yet (log 123). -/
def bnShare : (pairs : List (Nat × Nat)) → (i : Nat) → State → BnOut
  | [], _, s => .ok ([], s)
  | (a, d) :: t, i, s =>
    let s1 := s.freeName d
    match tfind s1.bunting.names a with
    | none => .error (0x39, i)
    | some b =>
      let c := tget 0 s1.bunting.refs b
      if c < 255 then bnShare t (i + 1) ({ s1 with bunting := { s1.bunting with refs := tset s1.bunting.refs b (c + 1) } }.setName d b)
      else if s1.blockLost b then .error (0x48, i)
      else match s1.allocBlock d with
        | none => .error (0x38, i)
        | some (nb, s2) => bnShare t (i + 1) ((s2.copyBlock b nb).setName d nb)
/-- BNXL over names (R107); with write intent a shared block is copied first, unless its stack is removed (R121). -/
def bnXl (write : Bool) : (names : List Nat) → (i : Nat) → (res : List (BitVec 32)) → State → BnOut
  | [], _, res, s => .ok (res.reverse, s)
  | n :: t, i, res, s => match tfind s.bunting.names n with
    | none => .error (0x39, i)
    | some b =>
      if write && decide (1 < tget 0 s.bunting.refs b) then if s.blockLost b then .error (0x48, i) else match s.allocBlock n with
        | none => .error (0x38, i)
        | some (nb, s1) => bnXl write t (i + 1) ((BitVec.ofNat 32 nb ||| 0x80000000) :: res) (((s1.copyBlock b nb).dropRef b).setName n nb)
      else bnXl write t (i + 1) (BitVec.ofNat 32 b :: res) s
/-- Names first .. first + cnt. -/
def nameRange (first : BitVec 44) (cnt : BitVec 6) : List Nat := (List.range (cnt.toNat + 1)).map fun i => first.toNat + i
/-- The operation of a BN word (R107). -/
def State.bnOp (s : State) (i : Instr) : BnOut :=
  match i with
  | .bnalloc _ name cnt _ _ => bnAlloc (nameRange name cnt) 0 [] s
  | .bnfree _ name cnt => match s.unmapped (nameRange name cnt) with
    | some k => .error (0x39, k)
    | none => .ok ([], (nameRange name cnt).foldl State.freeName s)
  | .bnshare _ src dst cnt => match s.unmapped (nameRange src cnt) with
    | some k => .error (0x39, k)
    | none => bnShare ((nameRange src cnt).zip (nameRange dst cnt)) 0 s
  | .bnxl _ name cnt _ wi => match s.unmapped (nameRange name cnt) with
    | some k => .error (0x39, k)
    | none => bnXl wi (nameRange name cnt) 0 [] s
  | _ => .ok ([], s)
/-- Result words at a scratchpad offset: the granule of each becomes full once the word's last result in it is written (R107). -/
def State.putResults (s : State) (plot off : Nat) : (ws : List (BitVec 32)) → State
  | [] => s
  | w :: t =>
    let a := plotBase plot + off
    let s1 := if s.backed a then { (s.touch a) with mem := s.mem.setWord (s.place a) ⟨true, w⟩ } else s
    let s2 := if (t == [] || a % 16 == 12) && s.backed a then s1.setFe a true else s1
    s2.putResults plot (off + 4) t
/-- Where a BN word's result words go, if it writes any. -/
def bnResult (i : Instr) : Option Nat :=
  match i with
  | .bnalloc _ _ _ res w => if w then some res.toNat else none
  | .bnxl _ _ _ res _ => some res.toNat
  | _ => none
/-- The ranges of names of a BN word: the first and how many. -/
def bnRanges (i : Instr) : List (Nat × Nat) :=
  match i with
  | .bnalloc _ n c _ _ | .bnfree _ n c | .bnxl _ n c _ _ => [(n.toNat, c.toNat + 1)]
  | .bnshare _ n d c => [(n.toNat, c.toNat + 1), (d.toNat, c.toNat + 1)]
  | _ => []
/-- A BN word performed at the engines (R106): result words beyond the scratchpad fault it first (R178). -/
def State.buntPerform (s : State) (id : Nat) : State :=
  match tfind s.words id with
  | none => s
  | some w =>
    match s.bnOp w.instr with
    | .error (c, k) => s.wordFault id c 0 k
    | .ok (res, s1) => match bnResult w.instr with
      | none => s1.finishing id []
      | some off =>
        match (List.range res.length).find? fun i => decide (s.spad w.plot ≤ off + 4 * i) with
        | some i => s.wordFault id 0x0A (spadVa w.plot (off + 4 * i)) 0
        | none => (s1.putResults w.plot off res).finishing id []
/-- The dies whose stacks' engines own the names of a BN word. -/
def State.bnOwners (s : State) (plot : Nat) (i : Instr) : List Nat :=
  ((bnRanges i).map fun n => s.bunting.parts.getD (s.ownerPart n.1) (dieOf plot)).eraseDups
/-- A BN word (R104). -/
def isBnWord (i : Instr) : Bool :=
  match i with
  | .bnalloc .. | .bnfree .. | .bnshare .. | .bnxl .. => true
  | _ => false
/-- Requests of a word leave for the logic bases of some stacks as counted packets (R106, R111). -/
def State.askEngines (s : State) (id : Nat) (w : SWord) (far : List Nat) : State :=
  far.foldl (fun s die => s.post w.plot 8 (8 + die) [] (.bunt id)) (s.setWord id { w with asks := far.length, homed := true })
/-- A BN word has asked and is not performed. -/
def SWord.bnPending (w : SWord) : Bool := w.stage == .running && isBnWord w.instr && w.homed
/-- When the request of a word for a name reached the name's engine. -/
def State.cameAt (s : State) (w : SWord) (name : Nat) : Option Nat :=
  (w.came.find? fun c => c.1 == s.bunting.parts.getD (s.ownerPart name) (dieOf w.plot)).map (·.2)
/-- A word shares a name with another whose request came to the name's engine before (R106). -/
def State.bnAfter (s : State) (x y : SWord) : Bool :=
  (bnRanges x.instr).any fun r => (bnRanges y.instr).any fun q => decide (r.1 < q.1 + q.2) && decide (q.1 < r.1 + r.2)
    && (match s.cameAt y q.1, s.cameAt x r.1 with
      | some a, some b => decide (a < b)
      | _, _ => false)
/-- Copies of the blocks of some ranges of names must wait: reads of a transient region come before the writes of a clk, so a block written in
this clk is read in the next (R84). -/
def State.blocksHeld (s : State) (l : List (Nat × Nat)) : Bool :=
  l.any fun r => (List.range r.2).any fun i => (tfind s.bunting.names (r.1 + i)).any fun b => s.justWritten (s.blockPa b)
/-- The word to be performed next at the engines: all its requests have come, and no other's came before it for a name that both have (R106);
where some wait for each other in a ring and no request is on its way, the oldest. -/
def State.buntNext (s : State) : Option Nat :=
  let ready := s.words.filter fun e => e.2.bnPending && e.2.asks == 0 && !s.blocksHeld (bnRanges e.2.instr)
  match ready.find? fun e => s.words.all fun y => y.1 == e.1 || !y.2.bnPending || !s.bnAfter e.2 y.2 with
  | some e => some e.1
  | none => if s.words.any fun y => y.2.bnPending && y.2.asks != 0 then none else ready.head?.map (·.1)
/-- BN words performed in their turn, at most `n`. -/
def State.buntDrain (s : State) : (n : Nat) → State
  | 0 => s
  | n + 1 => match s.buntNext with
    | none => s
    | some id => (s.buntPerform id).buntDrain n
/-- A request of a word reaches an owning engine: with the last, a BN word's turn may come, and another word may go on with its names. -/
def State.buntArrive (s : State) (id die : Nat) : State :=
  match tfind s.words id with
  | none => s
  | some w => ({ (s.setWord id { w with asks := w.asks - 1, came := w.came ++ [(die, s.nextId)] }) with nextId := s.nextId + 1 } : State).buntDrain s.words.length
/-- A BN word starts: the own stack's engine has its request at once, and others cross to the owners' logic bases (R106, R111, R452). -/
def startBn (s : State) : Result :=
  let go := startWord (fun id w _ s =>
    let owners := s.bnOwners w.plot w.instr
    let far := owners.filter (· != dieOf w.plot)
    let here := if owners.contains (dieOf w.plot) then [(dieOf w.plot, s.nextId)] else []
    if far.any s.isRemoved then .yes (s.wordFault id 0x48 0 0)
    else .yes ((({ s with nextId := s.nextId + 1 } : State).askEngines id { w with came := here } far).buntDrain s.words.length)) s
  match tfind s.words s.focus.word with
  | some w => if w.bnPending then .next (s.buntDrain s.words.length) else go
  | none => go
/-- BNALLOC (R107, R108). -/
def execBnalloc (h : SwHdr) (name : BitVec 44) (cnt : BitVec 6) (res : BitVec 19) (wres : Bool) (s : State) : Result :=
  asWord (.bnalloc h name cnt res wres) s <|
    startBn s
/-- BNFREE (R107). -/
def execBnfree (h : SwHdr) (name : BitVec 44) (cnt : BitVec 6) (s : State) : Result :=
  asWord (.bnfree h name cnt) s <|
    startBn s
/-- BNSHARE (R107, R108). -/
def execBnshare (h : SwHdr) (src dst : BitVec 44) (cnt : BitVec 6) (s : State) : Result :=
  asWord (.bnshare h src dst cnt) s <|
    startBn s
/-- BNXL (R107). -/
def execBnxl (h : SwHdr) (name : BitVec 44) (cnt : BitVec 6) (res : BitVec 19) (wi : Bool) (s : State) : Result :=
  asWord (.bnxl h name cnt res wi) s <|
    startBn s

/-- The names of a BUNTING record are still to be translated. -/
def Pattern.unopened (p : Pattern) : Bool := p.kind == 3 && p.idx == []
/-- The names of a BUNTING record translated as BNXL does, with write intent for a stream that is written (R107); other records
stay as they are. -/
def State.openPattern (s : State) (p : Pattern) (write : Bool) : Except (BitVec 8 × Nat) (Pattern × State) :=
  if !p.unopened then .ok (p, s)
  else
    let names := (List.range p.n0).map fun i => p.name.toNat + i
    match s.unmapped names with
    | some k => .error (0x39, k)
    | none => match bnXl write names 0 [] s with
      | .error e => .error e
      | .ok (ws, s1) => .ok ({ p with idx := ws.map fun w => ⟨true, w &&& 0x7FFFFF⟩ }, s1)
/-- Records opened in order, each with whether its stream is written: the patterns, or a fault with the record it comes from. -/
def State.openAll (s : State) : (l : List (Pattern × BitVec 13 × Bool)) → (acc : List Pattern) → Except (BitVec 8 × Nat × BitVec 13) (List Pattern × State)
  | [], acc => .ok (acc.reverse, s)
  | (p, r, wr) :: t, acc => match s.openPattern p wr with
    | .error (c, k) => .error (c, k, r)
    | .ok (p', s1) => s1.openAll t (p' :: acc)
/-- A started word, whose records `recs` are read, goes on once the names of its BUNTING records are translated: by requests to the engines
of other stacks that own them, then all at once (R107, R111). `lose` is what a fault does to its port. -/
def State.withNames (s : State) (id : Nat) (w : SWord) (recs : List (BitVec 13 × Bool)) (lose : State → State) (go : SWord → State → State) : State :=
  if !w.pats.any (·.unopened) then go w s
  else if w.asks != 0 then s
  else
    let owners := ((w.pats.filter (·.unopened)).map fun p => s.bunting.parts.getD (s.ownerPart p.name.toNat) (dieOf w.plot)).eraseDups
    let far := owners.filter (· != dieOf w.plot)
    if far != [] && !w.homed then (if far.any s.isRemoved then (lose s).wordFault id 0x48 0 0 else s.askEngines id w far)
    else if s.blocksHeld ((w.pats.filter (·.unopened)).map fun p => (p.name.toNat, p.n0)) then s
    else match s.openAll (w.pats.zip recs) [] with
      | .error (c, k, r) => (lose s).wordFault id c (spadVa w.plot (r.toNat * 64)) (k % 64)
      | .ok (ps, s1) => go { w with pats := ps } (s1.setWord id { w with pats := ps })

end Sys2Proof.Machine
end

