-- ==== Sys2Proof/Machine/Engine.lean ====
section
/-! DEFINITION. The stream words on memory, ports and signals (R216-R227). A word that faults without an address or a record
reports TVAL 0 (log 30). -/

namespace Sys2Proof.Machine

/-! ## Copies (R223) -/

/-- Bytes a copy word moves, and the word it reads and writes at a byte of its stream. -/
structure CopyPlan where
  total : Nat
  src : Nat → Src
  dst : Nat → Src
/-- The plan of a started copy word. -/
def State.copyPlan (_s : State) (w : SWord) : CopyPlan :=
  match w.instr with
  | .cpy _ va off len16 out =>
    let mem (i : Nat) : Src := .va (va.signExtend 64 + BitVec.ofNat 64 i)
    let spad (i : Nat) : Src := .va (spadVa w.plot (off.toNat + i))
    ⟨len16.toNat * 16, if out then spad else mem, if out then mem else spad⟩
  | _ => match w.pats with
    | [a, b] => ⟨a.bytes, a.src w.plot, b.src w.plot⟩
    | _ => ⟨0, fun _ => .bad 0, fun _ => .bad 0⟩
/-- The die whose addressable deep SRAM an address lies in (R138). -/
def State.deepDie (s : State) (plot : Nat) (va : Word) : Option Nat :=
  match s.lookup plot va <|> s.walkVa plot va with
  | some e => if e.host then none else match window (e.addr va).toNat with
    | .deep d _ => some d
    | _ => none
  | none => none
/-- The dies whose deep SRAM a span of addresses touches, page by page. -/
def State.spanDies (s : State) (plot : Nat) (r : Nat × Nat) : List Nat :=
  (List.range (r.2 / 65536 + 2)).filterMap fun i => if r.2 = 0 then none else s.deepDie plot (BitVec.ofNat 64 (min (r.1 + 65536 * i) (r.1 + r.2 - 1)))
/-- The dies of a bulk vertical transfer by a copy engine (R138): addressable deep SRAM is its source or destination. A binding is none
(log 122). -/
def State.verticalDies (s : State) (w : SWord) : List Nat :=
  match w.instr with
  | .cpy .. | .cpyp .. | .gath .. | .scat .. | .mcst .. => ((s.wordSpans w).flatMap (s.spanDies w.plot)).eraseDups
  | _ => []
/-- The bus that a transfer needs is being retrained (R139). -/
def State.busHeld (s : State) (w : SWord) : Bool := (s.verticalDies w).any fun d => (s.dieAt d).retraining.isSome
/-- Signatures of a copy word's reads and writes (R133). -/
def copySigs (w : SWord) : BitVec 12 × BitVec 12 :=
  match wordRecs w.instr with
  | [a, b] => (w.recSig (some a), w.recSig (some b))
  | [a] => (w.recSig (some a), w.recSig (some a))
  | _ => (w.recSig none, w.recSig none)
/-- A copy word goes on by up to 4 KiB, which it reads whole before it writes it (R230, log 99). -/
def State.copyStep (s : State) (id : Nat) (w : SWord) : State :=
  let p := s.copyPlan w
  let n := min 1024 ((p.total - w.progress) / 4)
  if s.busHeld w || s.engineStalls id then s
  else match s.engineRead w.plot w.slot id (copySigs w).1 none ((List.range n).map fun i => p.src (w.progress + 4 * i)) [] with
    | .wait s1 => s1
    | .fault c v k _ s1 => s1.wordFault id c v k
    | .done ws s1 => match s1.engineStore w.plot w.slot id (copySigs w).2 (((List.range n).map fun i => p.dst (w.progress + 4 * i)).zip ws) with
      | .wait s2 => s2
      | .fault c v k _ s2 => s2.wordFault id c v k
      | .done outs s2 =>
        let w' := { w with progress := w.progress + 4 * n, outs := w.outs ++ outs.1 }
        (s2.dropWalks id false).setWord id { w' with stage := if p.total ≤ w'.progress then .finishing else .running }
/-- A started transfer goes on: at a pre-emption it stops at a 4-KiB boundary of its destination stream, a bulk vertical transfer at a 64-KiB one
(R230). -/
def State.copyGoes (s : State) (w : SWord) : Bool :=
  s.instLive w.plot || (s.instRuns w.plot && (w.progress % 4096 != 0 || (w.progress % 65536 != 0 && s.verticalDies w != [])))
/-- A started copy word goes on, once its names are translated. -/
def State.copyOn (s : State) (id : Nat) (w : SWord) : State :=
  s.withNames id w ((wordRecs w.instr).zip [false, true]) (fun s => s) (fun w s => s.copyStep id w)
/-- A copy word: started, or carried on. -/
def copyWord (prepare : Nat → SWord → State → State) (s : State) : Result :=
  let id := s.focus.word
  match tfind s.words id with
  | none => .next s
  | some w =>
    if w.stage == .running then .next (if s.copyGoes w then s.copyOn id w else s)
    else startWord (fun id w _ s => .yes (prepare id w s)) s
/-- CPY (R223). -/
def execCpy (h : SwHdr) (va : BitVec 56) (off : BitVec 19) (len16 : BitVec 21) (out : Bool) (s : State) : Result :=
  asWord (.cpy h va off len16 out) s <|
  copyWord (fun id w s => s.copyStep id w) s
/-- Two records of a copy word: each read, its kind accepted, their lengths equal (R211, R223). An invalid record word faults with the
record's offset (log 100). -/
def State.copyRecords (s : State) (id : Nat) (w : SWord) (src dst : BitVec 13) (srcKind dstKind : Nat → Bool) : State :=
  match s.patternAt w.plot src with
  | .error c => s.wordFault id c (recOff src) 0
  | .ok a => match s.patternAt w.plot dst with
    | .error c => if srcKind a.kind then s.wordFault id c (recOff dst) 0 else s.wordFault id 0x30 (recOff src) 0
    | .ok b =>
      if !srcKind a.kind then s.wordFault id 0x30 (recOff src) 0
      else if !dstKind b.kind then s.wordFault id 0x30 (recOff dst) 0
      else if a.bytes != b.bytes then s.wordFault id 0x30 (recOff dst) 0
      else (s.setWord id { w with pats := [a, b] }).copyOn id { w with pats := [a, b] }
/-- CPYP (R223): neither record GATHER. -/
def execCpyp (h : SwHdr) (src dst : BitVec 13) (s : State) : Result :=
  asWord (.cpyp h src dst) s <|
  copyWord (fun id w s => s.copyRecords id w src dst (· != 2) (· != 2)) s
/-- GATH (R212, R223). -/
def execGath (h : SwHdr) (src dst : BitVec 13) (s : State) : Result :=
  asWord (.gath h src dst) s <|
  copyWord (fun id w s => s.copyRecords id w src dst (· == 2) (· != 2)) s
/-- SCAT (R212, R223). -/
def execScat (h : SwHdr) (src dst : BitVec 13) (s : State) : Result :=
  asWord (.scat h src dst) s <|
  copyWord (fun id w s => s.copyRecords id w src dst (· != 2) (· == 2)) s

/-! ## Multicast (R224) -/

/-- Length in bytes of what MCST streams, padding and EOS included (R214). -/
def mcstEnd (total : Nat) (eos : Bool) : Nat := if eos then (total / 32 + 1) * 32 else (total + 31) / 32 * 32
/-- The words after the data in the last beat: EOS and MASKED words, or MASKED words alone (log 31). -/
def mcstTail (f plot w : Nat) (eos : Bool) : List W32 :=
  if eos then eosWords f plot w
  else (List.range ((8 - w % 8) % 8)).map fun i => ⟨false, payloadBits 0 plot (ordinalAt f (w + i))⟩
/-- MCST sends its next beat to every leaf and through its store record. -/
def State.mcstStep (s : State) (id : Nat) (w : SWord) (key : Nat) (eos : Bool) : State :=
  match w.pats with
  | [] => s
  | a :: rest =>
    let total := a.bytes
    let fin := mcstEnd total eos
    let n := min 8 ((total - w.progress) / 4)
    if fin ≤ w.progress || 16 ≤ (s.chans.filter fun c => c.2.word == some id).length || s.busHeld w || s.engineStalls id then s
    else match s.engineRead w.plot w.slot id (copySigs w).1 none (a.srcs (key / 16) w.progress n) [] with
      | .wait s1 => s1
      | .fault c v k _ s1 => s1.wordFault id c v k
      | .done ws s1 =>
        let stored := match rest with
          | b :: _ => s1.engineStore w.plot w.slot id (copySigs w).2 ((b.srcs (key / 16) w.progress n).zip ws)
          | [] => .done ([], []) s1
        match stored with
        | .wait s2 => s2
        | .fault c v k _ s2 => s2.wordFault id c v k
        | .done outs s2 =>
          let beat := beatOf (ws ++ (if n < 8 then mcstTail (tagFmt a.tag) (key / 16) ((w.progress + 4 * n) / 4) eos else []))
          let s3 := (s2.dropWalks id false).setWord id { w with progress := w.progress + 32, outs := w.outs ++ outs.1 }
          { s3 with chans := tset s3.chans s3.nextId ⟨key, s3.routeDsts key, some beat, some id⟩, nextId := s3.nextId + 1 }
/-- A started MCST goes on, once its names are translated. -/
def State.mcstOn (s : State) (id : Nat) (w : SWord) (key : Nat) (eos : Bool) : State :=
  s.withNames id w ((wordRecs w.instr).zip [false, true]) (fun s => s) (fun w s => s.mcstStep id w key eos)
/-- Records of a starting MCST (R224): the tag is the root's, and a store record is as long as the source; the store record's own tag is not
looked at (log 124). -/
def State.mcstStart (s : State) (id : Nat) (w : SWord) (key : Nat) (m : PortMap) (src : BitVec 13) (store : Option (BitVec 13)) (eos : Bool) : State :=
  let go (ps : List Pattern) : State := (s.setWord id { w with pats := ps }).mcstOn id { w with pats := ps } key eos
  if m.conn != 3 then s.wordFault id 0x31 0 0
  else match s.patternAt w.plot src with
    | .error c => s.wordFault id c (recOff src) 0
    | .ok a =>
      if !tagEq a.tag m.tag || tagMalformed a.tag then s.wordFault id 0x32 (recOff src) 0
      else match store with
        | none => go [a]
        | some r => match s.patternAt w.plot r with
          | .error c => s.wordFault id c (recOff r) 0
          | .ok b => if b.bytes != a.bytes then s.wordFault id 0x30 (recOff r) 0 else go [a, b]
/-- MCST (R145, R224): started, or carried on; at a pre-emption it stops as copies do (R230). -/
def execMcst (h : SwHdr) (src store : BitVec 13) (eos hasStore : Bool) (s : State) : Result :=
  asWord (.mcst h src store eos hasStore) s <|
  let id := s.focus.word
  match tfind s.words id with
  | none => .next s
  | some w => match s.wordPort w.plot h.port with
    | none => startWord (fun id _ _ s => .yes (s.wordFault id 0x31 0 0)) s
    | some (key, m) =>
      if w.stage == .running then .next (if s.copyGoes w then s.mcstOn id w key eos else s)
      else startWord (fun id w _ s => .yes (s.mcstStart id w key m src (if hasStore then some store else none) eos)) s

/-! ## Bindings (R216, R220-R222) -/

/-- A binding installed at a port with its stream tag. -/
def State.installBinding (s : State) (key : Nat) (b : Binding) : State := s.modPort key fun p => { p with bind := some b, tag := b.tag, closed := false }
/-- A pattern of no bytes. -/
def noPattern : Pattern := ⟨0, 0, 0, 0, 0, 0, 0, 0, 0, 0, 0, 0, 0, 0, []⟩
/-- The binding that a started BINDR or BINDW makes of a pattern (R220). -/
def bindingOf (read : Bool) (h : SwHdr) (w : SWord) (rc : BitVec 13) (hold : Bool) (a : Pattern) : Binding :=
  ⟨read, w.ticket, w.plot, some w.slot, h.oc, if h.post then h.arc else 0, none, false, a, 0, [], hold, a.tag, 0, 0, 0, [], false, [], [],
    w.recSig (some rc)⟩
/-- A BINDR or BINDW that faults at its record leaves its port a binding that carries R228 out: it pushes a beat of POISON_MEM words
and the EOS, or discards its beats up to the EOS. -/
def failedBinding (read : Bool) (h : SwHdr) (w : SWord) (m : PortMap) : Binding :=
  { bindingOf read h w 0 false { noPattern with tag := m.tag } with arc := 0, discard := true }
/-- A BINDR or BINDW whose record is read installs its binding, once its names are translated. -/
def State.bindOn (s : State) (id : Nat) (w : SWord) (h : SwHdr) (read : Bool) (rc : BitVec 13) (hold : Bool) (key : Nat) (m : PortMap) : State :=
  s.withNames id w [(rc, !read)] (fun s => s.installBinding key (failedBinding read h w m)) fun w s => match w.pats with
    | a :: _ => (s.installBinding key (bindingOf read h w rc hold a)).finishing id []
    | [] => s
/-- A BINDR or BINDW starts: the port must be a stream port, the record's tag the port's (R216, R220). -/
def State.bindStart (s : State) (id : Nat) (w : SWord) (h : SwHdr) (read : Bool) (rc : BitVec 13) (hold : Bool) : State :=
  match s.wordPort w.plot h.port with
  | none => s.wordFault id 0x31 0 0
  | some (key, m) =>
    let fail (c : BitVec 8) : State := (s.installBinding key (failedBinding read h w m)).wordFault id c (recOff rc) 0
    if m.conn != 1 then s.wordFault id 0x31 0 0
    else match s.patternAt w.plot rc with
      | .error c => fail c
      | .ok a =>
        if tagMalformed a.tag || !tagEq a.tag m.tag then fail 0x32
        else (s.setWord id { w with pats := [a] }).bindOn id { w with pats := [a] } h read rc hold key m
/-- A BINDR or BINDW: started, or carried on. -/
def bindWord (h : SwHdr) (read : Bool) (rc : BitVec 13) (hold : Bool) (s : State) : Result :=
  let id := s.focus.word
  match tfind s.words id with
  | none => .next s
  | some w =>
    if w.stage == .running then .next (match s.wordPort w.plot h.port with
      | some (key, m) => if s.instLive w.plot then s.bindOn id w h read rc hold key m else s
      | none => s.wordFault id 0x31 0 0)
    else startWord (fun id w h s => .yes (s.bindStart id w h read rc hold)) s
/-- BINDR (R220). -/
def execBindr (h : SwHdr) (rc : BitVec 13) (hold : Bool) (s : State) : Result :=
  asWord (.bindr h rc hold) s <|
    bindWord h true rc hold s
/-- BINDW (R220). -/
def execBindw (h : SwHdr) (rc : BitVec 13) (s : State) : Result :=
  asWord (.bindw h rc) s <|
    bindWord h false rc false s
/-- The binding that a PHASE may extend (R221): active, which a read binding that has faulted is not. -/
def State.phaseBinding (s : State) (w : SWord) (port : BitVec 8) : Option (Nat × Binding) :=
  match s.wordPort w.plot port with
  | none => none
  | some (key, m) => match (s.portAt key).bind with
    | none => none
    | some b => if m.conn != 1 || (b.read && b.discard) then none else some (key, b)
/-- A PHASE whose record is read is appended, once its names are translated. -/
def State.phaseOn (s : State) (id : Nat) (w : SWord) (h : SwHdr) (rc : BitVec 13) : State :=
  match s.phaseBinding w h.port with
  | none => s.wordFault id 0x31 0 0
  | some (key, b) => s.withNames id w [(rc, !b.read)] (fun s => s) fun w s => match w.pats with
    | a :: _ => (s.modPort key fun p => { p with bind := some { b with phases := b.phases ++ [(w.recSig (some rc), a)] } }).finishing id []
    | [] => s
/-- A PHASE starts (R221): its record's tag is the stream tag. -/
def State.phaseStart (s : State) (id : Nat) (w : SWord) (h : SwHdr) (rc : BitVec 13) : State :=
  match s.phaseBinding w h.port with
  | none => s.wordFault id 0x31 0 0
  | some (_, b) => match s.patternAt w.plot rc with
    | .error c => s.wordFault id c (recOff rc) 0
    | .ok a =>
      if tagMalformed a.tag || !tagEq a.tag b.tag then s.wordFault id 0x32 (recOff rc) 0
      else (s.setWord id { w with pats := [a] }).phaseOn id { w with pats := [a] } h rc
/-- PHASE (R221): started, or carried on. -/
def execPhase (h : SwHdr) (rc : BitVec 13) (s : State) : Result :=
  asWord (.phase h rc) s <|
  let id := s.focus.word
  match tfind s.words id with
  | none => .next s
  | some w =>
    if w.stage == .running then .next (if s.instLive w.plot then s.phaseOn id w h rc else s)
    else startWord (fun id w h s => .yes (s.phaseStart id w h rc)) s
/-- UNBIND (R222): it ends the binding, beside any UNBIND that waits for that already. -/
def execUnbind (h : SwHdr) (abort : Bool) (s : State) : Result :=
  asWord (.unbind h abort) s <|
  startWord (fun id w h s =>
    match s.wordPort w.plot h.port with
    | none => .yes (s.wordFault id 0x31 0 0)
    | some (key, _) => match (s.portAt key).bind with
      | none => .yes (s.finishing id [])
      | some b =>
        let b' := { b with unbind := b.unbind ++ [id] }
        .yes (s.modPort key fun p => { p with bind := some (if b.read then { b' with phases := [] } else { b' with discard := b.discard || abort }) })) s

/-! ## Signals (R225-R227) -/

/-- ARRV (R225): the rows go to the counter's plot; the word completes when they are applied. -/
def execArrv (h : SwHdr) (plot : BitVec 13) (ctr : BitVec 4) (batch : BitVec 16) (row n1 : BitVec 6) (s : State) : Result :=
  asWord (.arrv h plot ctr batch row n1) s <|
  startWord (fun id w _ s =>
    if !isCellPlot plot.toNat then .yes (s.wordFault id 0x0A 0 0)
    else if s.isRemoved (dieOf plot.toNat) then .yes (s.wordFault id 0x48 0 0)
    else .yes (s.sendToken w.plot (dieOf plot.toNat) (.arrv id plot.toNat ctr batch row n1))) s
/-- PATCH (R226): its value is on its way to the front end. -/
def execPatch (h : SwHdr) (queue : BitVec 8) (slot : BitVec 2) (tag : BitVec 16) (value : BitVec 32) (voff : BitVec 19)
    (indirect : Bool) (s : State) : Result :=
  asWord (.patch h queue slot tag value voff indirect) s <|
  startWord (fun id w _ s =>
    let v : W32 := if indirect then s.spadWord w.plot voff.toNat else ⟨true, value⟩
    if !v.valid then .yes (s.wordFault id 0x18 ((normPayload v.bits).zeroExtend 64) 0)
    else match s.sessOf w.plot with
      | none => .yes (s.finishing id [])
      | some se => .yes { s with patchMsgs := tset s.patchMsgs s.nextId ⟨se, queue.toNat, slot, tag, v.bits, id⟩, nextId := s.nextId + 1 }) s
/-- EVT (R227). -/
def execEvt (h : SwHdr) (event : BitVec 8) (amount : BitVec 16) (s : State) : Result :=
  asWord (.evt h event amount) s <|
  startWord (fun id w _ s =>
    match s.instAt w.plot with
    | none => .yes (s.wordFault id 0x30 0 0)
    | some (i, x) => match tfind x.guidons event.toNat with
      | none => .yes (s.wordFault id 0x30 0 0)
      | some g =>
        if g.kind != 4 then .yes (s.wordFault id 0x30 0 0)
        else if dieOf g.plot = dieOf w.plot then
          let p : Payload := .event i event (amount.zeroExtend 32)
          if s.eventHeld (dieOf g.plot) p then .no s else .yes ((s.takeEvent id (dieOf g.plot) p).finishing id [])
        else .yes ((s.sendToken w.plot (dieOf g.plot) (.event i event (amount.zeroExtend 32))).finishing id [s.nextId])) s

end Sys2Proof.Machine
end

