-- ==== Sys2Proof/Machine/Crypto.lean ====
section
/-! DEFINITION. The functions of the images, sessions and attestation: CRC-32C (R240, R243), SHA-384 (R239, R240) and the check of
an ECDSA P-384 signature (R240, R418). -/

namespace Sys2Proof.Machine

/-- One bit of CRC-32C, reflected, on the register as a number. -/
def crcBit (c : Nat) : Nat := if c % 2 = 1 then (c / 2) ^^^ 0x82F63B78 else c / 2
/-- `n` bits; a zero register is told apart so that the register is evaluated at each bit. -/
def crcBits : (n : Nat) → Nat → Nat
  | 0, c => c
  | n + 1, 0 => crcBits n (crcBit 0)
  | n + 1, c + 1 => crcBits n (crcBit (c + 1))
/-- The register after the bytes. -/
def crcBytes : List Byte → Nat → Nat
  | [], c => c
  | b :: t, 0 => crcBytes t (crcBits 8 (0 ^^^ b.toNat))
  | b :: t, c + 1 => crcBytes t (crcBits 8 ((c + 1) ^^^ b.toNat))
/-- CRC-32C of a list of bytes (R240, R243). -/
def crc32c (l : List Byte) : BitVec 32 := ~~~(BitVec.ofNat 32 (crcBytes l 0xFFFFFFFF))

/-- The largest number whose power of a degree does not exceed `v`, by its bits; a zero start is told apart so that the root is evaluated at each bit. -/
def rootBits (deg v : Nat) : (k : Nat) → Nat → Nat
  | 0, r => r
  | k + 1, 0 => rootBits deg v k (if (2 ^ k) ^ deg ≤ v then 2 ^ k else 0)
  | k + 1, r + 1 => rootBits deg v k (if (r + 1 + 2 ^ k) ^ deg ≤ v then r + 1 + 2 ^ k else r + 1)
/-- The first 64 bits of the fraction of a root of a small number. -/
def rootFraction (deg n : Nat) : BitVec 64 := BitVec.ofNat 64 (rootBits deg (n * 2 ^ (64 * deg)) 68 0)
/-- The primes below 410: eighty of them. -/
def smallPrimes : List Nat := (List.range 410).filter fun n => decide (1 < n) && (List.range 19).all fun d => n % (d + 2) != 0 || n == d + 2
/-- The constants of the eighty rounds of SHA-384: from the cube roots of the first eighty primes. -/
def shaK : List (BitVec 64) := smallPrimes.map (rootFraction 3)
/-- The hash value that SHA-384 starts with: from the square roots of the ninth to the sixteenth prime. -/
def shaH : List (BitVec 64) := ((smallPrimes.drop 8).take 8).map (rootFraction 2)
/-- The XOR of a word's right rotations by some amounts. -/
def rotations (x : BitVec 64) (l : List Nat) : BitVec 64 := l.foldl (fun y n => y ^^^ x.rotateRight n) 0
/-- The next word of the message schedule, whose last sixteen words stand newest first. -/
def shaNext (l : List (BitVec 64)) : BitVec 64 :=
  let x := l.getD 14 0
  let y := l.getD 1 0
  l.getD 15 0 + l.getD 6 0 + (rotations x [1, 8] ^^^ x >>> 7) + (rotations y [19, 61] ^^^ y >>> 6)
/-- `n` more words of the schedule. -/
def shaSchedule : (n : Nat) → List (BitVec 64) → List (BitVec 64)
  | 0, l => l
  | n + 1, l => shaSchedule n (shaNext l :: l)
/-- A round on the eight working words: all move one place, the first and the fifth taking new values. -/
def shaRound (v : List (BitVec 64)) (kw : BitVec 64) : List (BitVec 64) :=
  let w (i : Nat) := v.getD i 0
  let pick := (w 4 &&& w 5) ^^^ (~~~(w 4) &&& w 6)
  let most := (w 0 &&& w 1) ^^^ (w 0 &&& w 2) ^^^ (w 1 &&& w 2)
  let new := w 7 + kw + pick + rotations (w 4) [14, 18, 41]
  (new + most + rotations (w 0) [28, 34, 39]) :: (v.take 3 ++ (w 3 + new) :: (v.drop 4).take 3)
/-- One block of sixteen words. -/
def shaBlock (h : List (BitVec 64)) (block : List (BitVec 64)) : List (BitVec 64) :=
  let w := (shaSchedule 64 block.reverse).reverse
  List.zipWith (· + ·) h ((List.zipWith (· + ·) shaK w).foldl shaRound h)
/-- Bytes, most significant first, as a number. -/
def natBE (l : List Byte) : Nat := l.foldl (fun n b => n * 256 + b.toNat) 0
/-- `n` bytes of a number, most significant first. -/
def bytesBE : (n : Nat) → Nat → List Byte
  | 0, _ => []
  | n + 1, v => BitVec.ofNat 8 (v / 256 ^ n) :: bytesBE n v
/-- The 64-bit words of a block. -/
def beWords : (n : Nat) → List Byte → List (BitVec 64)
  | 0, _ => []
  | n + 1, l => BitVec.ofNat 64 (natBE (l.take 8)) :: beWords n (l.drop 8)
/-- All blocks of a padded message. -/
def shaBlocks : (n : Nat) → List (BitVec 64) → List Byte → List (BitVec 64)
  | 0, h, _ => h
  | n + 1, h, l => shaBlocks n (shaBlock h (beWords 16 (l.take 128))) (l.drop 128)
/-- SHA-384. -/
def sha384 (l : List Byte) : BitVec 384 :=
  let pad := (128 - (l.length + 17) % 128) % 128
  let m := l ++ [0x80] ++ List.replicate pad 0 ++ bytesBE 16 (l.length * 8)
  BitVec.ofNat 384 (((shaBlocks (m.length / 128) shaH m).take 6).foldl (fun n w => n * 2 ^ 64 + w.toNat) 0)

/-- The field of P-384. -/
def p384 : Nat := 2 ^ 384 - 2 ^ 128 - 2 ^ 96 + 2 ^ 32 - 1
/-- The order of its group. -/
def n384 : Nat := 0xffffffffffffffffffffffffffffffffffffffffffffffffc7634d81f4372ddf581a0db248b0a77aecec196accc52973
/-- The constant b of its curve. -/
def b384 : Nat := 0xb3312fa7e23ee7e4988e056be3f82d19181d9c6efe8141120314088f5013875ac656398d8a2ed19d2a85c8edd3ec2aef
/-- Its base point. -/
def g384 : Nat × Nat := (0xaa87ca22be8b05378eb1c71ef320ad746e1d3b628ba79b9859f741e082542a385502f25dbf55296c3a545e3872760ab7,
  0x3617de4a96262c6f5d9e98bf9292dc29f8f41dbd289a147ce9da3113b5f0b8c00a60b1ce1d7e819d7a431d7c90ea0e5f)
/-- A power in a field, by the bits of the exponent. -/
def powMod (m : Nat) : (bits : Nat) → (base e acc : Nat) → Nat
  | 0, _, _, acc => acc
  | n + 1, b, e, acc => powMod m n (b * b % m) (e / 2) (if e % 2 = 1 then acc * b % m else acc)
/-- An inverse modulo a prime of 384 bits. -/
def invMod (m a : Nat) : Nat := powMod m 384 (a % m) (m - 2) 1
/-- A difference in a field. -/
def subMod (m a b : Nat) : Nat := (a + m - b % m) % m
/-- Doubling in Jacobian coordinates (a = -3); z = 0 is the point at infinity. -/
def jDouble (q : Nat × Nat × Nat) : Nat × Nat × Nat :=
  let (x, y, z) := q
  if z = 0 ∨ y = 0 then (1, 1, 0)
  else
    let yy := y * y % p384
    let s := 4 * x * yy % p384
    let zz := z * z % p384
    let m := 3 * subMod p384 x zz * (x + zz) % p384
    let x' := subMod p384 (m * m) (2 * s)
    (x', subMod p384 (m * subMod p384 s x') (8 * yy * yy), 2 * y * z % p384)
/-- A sum of points in Jacobian coordinates. -/
def jAdd (q r : Nat × Nat × Nat) : Nat × Nat × Nat :=
  let (x1, y1, z1) := q
  let (x2, y2, z2) := r
  if z1 = 0 then r
  else if z2 = 0 then q
  else
    let z11 := z1 * z1 % p384
    let z22 := z2 * z2 % p384
    let u1 := x1 * z22 % p384
    let u2 := x2 * z11 % p384
    let s1 := y1 * z2 % p384 * z22 % p384
    let s2 := y2 * z1 % p384 * z11 % p384
    if u1 = u2 then (if s1 = s2 then jDouble q else (1, 1, 0))
    else
      let h := subMod p384 u2 u1
      let r := subMod p384 s2 s1
      let hh := h * h % p384
      let hhh := h * hh % p384
      let v := u1 * hh % p384
      let x3 := subMod p384 (r * r) (hhh + 2 * v)
      (x3, subMod p384 (r * subMod p384 v x3) (s1 * hhh), h * z1 % p384 * z2 % p384)
/-- A multiple of a point, by the bits of the factor. -/
def jMul : (bits : Nat) → (k : Nat) → (q acc : Nat × Nat × Nat) → Nat × Nat × Nat
  | 0, _, _, acc => acc
  | n + 1, k, q, acc => jMul n (k / 2) (jDouble q) (if k % 2 = 1 then jAdd acc q else acc)
/-- The point lies on the curve. -/
def onCurve (x y : Nat) : Bool :=
  decide (x < p384) && decide (y < p384) && y * y % p384 == (x * x % p384 * x + (p384 - 3) * x + b384) % p384
/-- The signature (r, s) of a digest verifies under a public key. -/
def ecdsaVerify (key : Nat × Nat) (digest : BitVec 384) (sig : Nat × Nat) : Bool :=
  if sig.1 = 0 ∨ n384 ≤ sig.1 ∨ sig.2 = 0 ∨ n384 ≤ sig.2 ∨ !onCurve key.1 key.2 then false
  else
    let w := invMod n384 sig.2
    let u1 := digest.toNat * w % n384
    let u2 := sig.1 * w % n384
    let (x, _, z) := jAdd (jMul 384 u1 (g384.1, g384.2, 1) (1, 1, 0)) (jMul 384 u2 (key.1, key.2, 1) (1, 1, 0))
    if z = 0 then false
    else
      let zi := invMod p384 z
      x * (zi * zi % p384) % p384 % n384 == sig.1

end Sys2Proof.Machine
end

