-- ==== Sys2Proof/Machine/Flags.lean ====
section
/-! DEFINITION. Rounding modes, exception flags and their traps (R61, R62, R285, R397). -/

namespace Sys2Proof.Machine

/-- The rounding mode of an instruction (R61, R285): 5 reads FPCTL, whose values above 4 act as RNE. -/
def resolveMode (fpctl : Word) (m : BitVec 3) : Nat :=
  if m = 5 then (if (fpctl.extractLsb' 0 3).toNat ≤ 4 then (fpctl.extractLsb' 0 3).toNat else 0) else m.toNat
/-- The trap that a lane's flags raise under FPCTL's enables, in the ranks of R285, or none; inexact never traps (R62). -/
def flagTrap (fpctl : Word) (f : Flags) : Option (BitVec 8) :=
  if f.getLsbD 0 && fpctl.getLsbD 4 then some 0x11
  else if f.getLsbD 1 && fpctl.getLsbD 5 then some 0x12
  else if f.getLsbD 2 && fpctl.getLsbD 6 then some 0x10
  else if f.getLsbD 3 && fpctl.getLsbD 7 then some 0x13
  else if f.getLsbD 5 && fpctl.getLsbD 8 then some 0x15
  else none
/-- The trap of the lowest-numbered lane that sets an enabled flag (R285). Each lane comes with its number. -/
def laneTrap (fpctl : Word) : List (Nat × Flags) → Option Trap
  | [] => none
  | (i, f) :: t => match flagTrap fpctl f with
    | some c => some (mkTrap c (BitVec.ofNat 64 i))
    | none => laneTrap fpctl t
/-- All flags of the lanes together. -/
def allFlags (l : List (Nat × Flags)) : Flags := l.foldl (fun a e => a ||| e.2) 0

end Sys2Proof.Machine
end

