-- ==== Sys2Proof/Machine/Operands.lean ====
section
/-! DEFINITION. Vector operands (R26, R282-R286): lanes of a register under its tag, tag checks, result words. -/

namespace Sys2Proof.Machine

/-- Lanes of a register in a format (R282); NONE is read as 32-bit words. -/
def laneCount (f : Nat) : Nat :=
  match f with
  | 1 | 10 => 8
  | 3 | 4 | 8 => 32
  | 5 | 6 | 7 | 12 => 64
  | 11 => 80
  | _ => 16
/-- Payload of word `m` as a consumer reads it (R71). -/
def wordPayload (v : VReg) (m : Nat) : BitVec 32 := normPayload (v.bits.extractLsb' (32 * m) 32)
/-- Word `m` of a register. -/
def vWord (v : VReg) (m : Nat) : Nat := (v.bits.extractLsb' (32 * m) 32).toNat
/-- Lane `i` of a register read in a format by an instruction of a plot (R282). -/
def laneAt (plot : Nat) (f : Nat) (v : VReg) (i : Nat) : Lane :=
  if fmtWidth f = 64 then
    if !v.ok.getLsbD (2 * i) then .bad (wordPayload v (2 * i))
    else if !v.ok.getLsbD (2 * i + 1) then .bad (wordPayload v (2 * i + 1))
    else .ok (vWord v (2 * i) + vWord v (2 * i + 1) * 2 ^ 32)
  else if f = 11 then
    let m := i / 5
    if !v.ok.getLsbD m then .bad (wordPayload v m)
    else if vWord v m / 2 ^ 30 ≠ 0 then .bad (payloadBits 7 plot 0)
    else .ok (vWord v m / 2 ^ (6 * (i % 5)) % 64)
  else
    let w := fmtWidth f
    let m := i * w / 32
    if v.ok.getLsbD m then .ok (vWord v m / 2 ^ (i * w % 32) % 2 ^ w) else .bad (wordPayload v m)
/-- All lanes of a register. -/
def lanes (plot f : Nat) (v : VReg) : List Lane := (List.range (laneCount f)).map (laneAt plot f v)
/-- Payload of the lowest-numbered invalid lane. -/
def firstBad : List Lane → Option (BitVec 32)
  | [] => none
  | .bad p :: _ => some p
  | .ok _ :: t => firstBad t
/-- Bits of lanes packed from the low end, each `w` bits wide. -/
def packBits (w : Nat) : List Lane → Nat
  | [] => 0
  | .ok b :: t => b % 2 ^ w + 2 ^ w * packBits w t
  | .bad _ :: t => 2 ^ w * packBits w t
/-- Word `m` of a result whose lanes are given (R284). -/
def wordOfLanes (f : Nat) (l : List Lane) (m : Nat) : W32 :=
  if fmtWidth f = 64 then
    match l.getD (m / 2) (.ok 0) with
    | .ok b => ⟨true, BitVec.ofNat 32 (b / 2 ^ (32 * (m % 2)))⟩
    | .bad p => ⟨false, p⟩
  else
    let k := if f = 11 then 5 else 32 / fmtWidth f
    let part := (l.drop (k * m)).take k
    match firstBad part with
    | some p => ⟨false, p⟩
    | none => ⟨true, BitVec.ofNat 32 (packBits (fmtWidth f) part)⟩
/-- A result register from its lanes and tag. -/
def vregOfLanes (tag : BitVec 16) (l : List Lane) : VReg :=
  vregOf tag ((List.range 16).map (wordOfLanes (tagFmt tag) l))
/-- An element-wise operation: the first invalid operand in the order given makes the lane invalid with its payload (R73). -/
def mapLane (ops : List Lane) (f : List Nat → Lane × Flags) : Lane × Flags :=
  match firstBad ops with
  | some p => (.bad p, 0)
  | none => f (ops.map fun
    | .ok b => b
    | .bad _ => 0)
/-- Result lanes of operands, lane by lane, with each lane's flags. -/
def mapLanes (n : Nat) (ops : List (List Lane)) (f : List Nat → Lane × Flags) : List (Lane × Flags) :=
  (List.range n).map fun i => mapLane (ops.map fun l => l.getD i (.ok 0)) f
/-- Flags by lane number. -/
def numbered (l : List (Lane × Flags)) : List (Nat × Flags) := (List.range l.length).zip (l.map (·.2))

/-- The mask format of a lane width (R283). -/
def maskFmt (f : Nat) : Nat :=
  match fmtWidth f with
  | 64 => 10
  | 16 => 8
  | 8 => 7
  | _ => 9
/-- FORMAT_MISMATCH with the offending tag (R283). -/
def tagTrap (t : BitVec 16) : Trap := mkTrap 0x32 (t.zeroExtend 64)
/-- The first tag that fails its test. -/
def checkTags : List (Bool × BitVec 16) → Except Trap Unit
  | [] => .ok ()
  | (true, _) :: t => checkTags t
  | (false, g) :: _ => .error (tagTrap g)
/-- A well-formed tag of FP64, FP32, BF16 or FP16. -/
def vfpTag (t : BitVec 16) : Bool := !tagMalformed t && 1 ≤ tagFmt t && tagFmt t ≤ 4
/-- A well-formed tag of an integer format. -/
def intTag (t : BitVec 16) : Bool := !tagMalformed t && isInt (tagFmt t)
/-- A well-formed tag of an integer format with the lane width of `f`. -/
def maskTag (f : Nat) (t : BitVec 16) : Bool := intTag t && fmtWidth (tagFmt t) == fmtWidth f
/-- A well-formed tag of any format but LG6. -/
def moveTag (t : BitVec 16) : Bool := !tagMalformed t && tagFmt t != 11
/-- A well-formed tag of a number format but LG6. -/
def numTag (t : BitVec 16) : Bool := moveTag t && tagFmt t != 0

/-- What a vector instruction computes: a register to write, and flags by lane. -/
abbrev VOut := VReg × List (Nat × Flags)
/-- A vector instruction (R285, R286): it reads v and g registers, `f` gives a trap or the result; a lane's enabled flag traps in
place of the result, else the flags join FPSTAT. -/
def vectorOp (vs : List VNum) (gs : List GReg) (d : VNum) (f : List Val → Except Trap VOut) (s : State) : Result :=
  if s.blocked gs [] || s.blockedV (d :: vs) then .next s
  else match s.badReg (vs.flatMap (fun n => [(2, n.zeroExtend 5), (4, n.zeroExtend 5)]) ++ gs.map fun n => (0, n)) with
    | some t => .next (s.trapNow t)
    | none => match f (s.reads gs) with
      | .error t => .next (s.trapNow t)
      | .ok (v, fl) => match laneTrap s.cur.fpctl fl with
        | some t => .next (s.trapNow t)
        | none => .next ((((s.afterReads gs).vSet d v).modCur fun x =>
            { x with fpstat := x.fpstat ||| (allFlags fl).zeroExtend 64 }).advance 4)

end Sys2Proof.Machine
end

