-- ==== Sys2Proof/Machine/Cell.lean ====
section
/-! DEFINITION. What a cell computes (R57-R59, R65-R68, R73, R74), and the fly-edge banks and weight registers of a region
(R250, R259, R261, R264, R266). -/

namespace Sys2Proof.Machine

/-! ## Cells -/

/-- Accumulation format of an operand pair, if the pair is allowed (R65). -/
def accFmt (a b : Nat) : Option Nat :=
  let f8 (f : Nat) := f == 5 || f == 6
  let i8 (f : Nat) := f == 7 || f == 12
  if f8 a && f8 b then some 2
  else if a == b && (a == 2 || a == 3 || a == 4) then some 2
  else if a == 1 && b == 1 then some 1
  else if i8 a && i8 b then some 9
  else if a == 11 && b == 11 then some 11
  else none
/-- Elements of a beat that a pair uses (R264). -/
def pairLanes (a : Nat) : Nat :=
  match a with
  | 1 => 1
  | 2 => 4
  | 3 | 4 => 16
  | 11 => 40
  | _ => 32
/-- Tag of a bank filled from a pair (R50, R52, R265): none when the pair is not allowed or the scale sum is out of range. -/
def bankTag (ta tb : BitVec 16) : Option (BitVec 16) :=
  let sc := tagScale ta + tagScale tb
  if tagMalformed ta || tagMalformed tb || sc < -128 || 127 < sc then none
  else (accFmt (tagFmt ta) (tagFmt tb)).map fun f => BitVec.ofNat 16 f ||| ((BitVec.ofInt 8 sc).zeroExtend 16 <<< 4)
/-- A tag whose entries take pairs of bank words (R261). -/
def wideTag (t : BitVec 16) : Bool := tagFmt t == 1 || tagFmt t == 11
/-- A tag that a bank can have (R50, R263). -/
def bankTagOk (t : BitVec 16) : Bool := (tagFmt t == 1 || tagFmt t == 2 || tagFmt t == 9 || tagFmt t == 11) && t.extractLsb' 13 3 == 0
/-- A beat as a register, so that its lanes can be read. -/
def beatReg (b : Beat) : VReg := ⟨0, b.ok.zeroExtend 16, b.bits.zeroExtend 512⟩
/-- Lane `i` of a beat in a cell of a plot: of two invalid words one that is not MASKED makes a 64-bit lane poison (R73, R74). The FORMAT
word of an LG6 word with bits [31:30] set (R57) has offset 0, where the spec leaves 0 or a stream ordinal open (log 101). -/
def cellLane (plot f : Nat) (b : Beat) (i : Nat) : Lane :=
  match laneAt plot f (beatReg b) i with
  | .bad p =>
    if fmtWidth f = 64 ∧ p &&& 0xFF = 0 ∧ !b.ok.getLsbD (2 * i + 1) then .bad (wordPayload (beatReg b) (2 * i + 1)) else .bad p
  | .ok v => .ok v
/-- An LG6 product in units of 2^-15 (R58). -/
def lgProduct (a b : Nat) : Int :=
  if a = 0x30 ∨ b = 0x30 then 0
  else
    let l := lgL a + lgL b
    let p : Int := (lgTable (l % 4).toNat : Int) * 2 ^ (l / 4 + 8).toNat
    if a / 32 = b / 32 then p else -p
/-- Products of two beats added in lane order: MASKED products contribute nothing, another invalid one is the result (R73, R74). -/
def sumProducts {α : Type} (mul : Nat → Nat → α) (add : α → α → α) : List (Lane × Lane) → α → Except (BitVec 32) α
  | [], t => .ok t
  | (.ok x, .ok y) :: l, t => sumProducts mul add l (add t (mul x y))
  | (x, y) :: l, t => match firstBad [x, y] with
    | some p => if p &&& 0xFF = 0 then sumProducts mul add l t else .error p
    | none => sumProducts mul add l t
/-- Two's complement of `w` bits. -/
def toTwos (w : Nat) (v : Int) : Nat := (if v < 0 then v + 2 ^ w else v).toNat
/-- Value of `w` bits in two's complement. -/
def fromTwos (w n : Nat) : Int := if n < 2 ^ (w - 1) then n else (n : Int) - 2 ^ w
/-- An exact total as a bank entry or partial sum of a format, with status bits (R59, R66, R68): bit 0 overflow, 1 invalid, 2 sat. -/
def satSum (bits store : Nat) (v : Int) : Lane × BitVec 4 :=
  if 2 ^ (bits - 1) - 1 < v then (.ok (toTwos store (2 ^ (bits - 1) - 1)), 4)
  else if v < -(2 ^ (bits - 1)) then (.ok (toTwos store (-(2 ^ (bits - 1)))), 4)
  else (.ok (toTwos store v), 0)
/-- An exact float total rounded once to nearest even. -/
def roundSum (acc : Nat) (x : Num) : Lane × BitVec 4 :=
  let r := encodeFloat acc 0 false x
  (.ok r.1, (if r.2.getLsbD 2 then 1 else 0) ||| (if x.isNaN then 2 else 0))
/-- The sum of a partial sum and an exact total, in the accumulation format; LG6 sums are held in 64 bits. -/
def cellStep (acc fa fb plot : Nat) (p : Lane) (a b : Beat) : Lane × BitVec 4 :=
  match p with
  | .bad q => (.bad q, 0)
  | .ok bits =>
    let pairs := (List.range (pairLanes fa)).map fun i => (cellLane plot fa a i, cellLane plot fb b i)
    if acc = 9 then match sumProducts (fun x y => intValue fa x * intValue fb y) (· + ·) pairs (fromTwos 32 bits) with
      | .error q => (.bad q, 0)
      | .ok v => satSum 32 32 v
    else if acc = 11 then match sumProducts lgProduct (· + ·) pairs (fromTwos 64 bits) with
      | .error q => (.bad q, 0)
      | .ok v => satSum 48 64 v
    else match sumProducts (fun x y => (mulNum (decodeFloat fa x) (decodeFloat fb y)).1) (fun x y => (addNum 0 x y).1) pairs (decodeFloat acc bits) with
      | .error q => (.bad q, 0)
      | .ok v => roundSum acc v
/-- A line's result over its cells in logical order (R66, R67), each with its plot and its two beats. -/
def lineSum (acc fa fb : Nat) : List (Nat × Beat × Beat) → Lane × BitVec 4 → Lane × BitVec 4
  | [], r => r
  | (plot, a, b) :: t, r => let q := cellStep acc fa fb plot r.1 a b
    lineSum acc fa fb t (q.1, r.2 ||| q.2)
/-- An entry and a result under acc = 1 (R266). -/
def accumulate (acc : Nat) (e x : Lane) : Lane × BitVec 4 :=
  match e, x with
  | .bad p, _ => (.bad p, 0)
  | .ok _, .bad p => (.bad p, 0)
  | .ok u, .ok v =>
    if acc = 9 then satSum 32 32 (fromTwos 32 u + fromTwos 32 v)
    else if acc = 11 then satSum 48 64 (fromTwos 64 u + fromTwos 64 v)
    else roundSum acc (addNum 0 (decodeFloat acc u) (decodeFloat acc v)).1

/-! ## Weight registers and banks -/

/-- The plot that holds a logical row and column. -/
def Region.cellPlot (r : Region) (row col : Nat) : Nat := r.plotAtRC (r.rows.getD row 0 / 8) (r.cols.getD col 0 / 8)
/-- Register W[w] of a cell: ABSENT until written (R250). -/
def Region.weight (r : Region) (w row col : Nat) : Beat :=
  tget (badBeat (payloadBits 6 (r.cellPlot row col) 0)) r.wreg ((8 * row + w) * 128 + col)
/-- A register written. -/
def Region.setWeight (r : Region) (w row col : Nat) (b : Beat) : Region := { r with wreg := tset r.wreg ((8 * row + w) * 128 + col) b }
/-- Tag of W[w]. -/
def Region.wTag (r : Region) (w : Nat) : BitVec 16 := tget 0 r.wtag w
/-- The edge plot of a logical drain line: side 0 south, 1 east. -/
def Region.bankPlot (r : Region) (side line : Nat) : Nat :=
  if side = 0 then r.plotAtRC (r.h - 1) (r.cols.getD line 0 / 8) else r.plotAtRC (r.rows.getD line 0 / 8) (r.w - 1)
/-- Tag of a bank (R261). -/
def Region.bTag (r : Region) (side line : Nat) : BitVec 16 := tget 0 r.btag (128 * side + line)
/-- A bank's tag set. -/
def Region.setBTag (r : Region) (side line : Nat) (t : BitVec 16) : Region := { r with btag := tset r.btag (128 * side + line) t }
/-- Word F of a bank: ABSENT until written (R250). -/
def Region.bankWord (r : Region) (side line f : Nat) : W32 :=
  tget ⟨false, payloadBits 6 (r.bankPlot side line) 0⟩ r.bank ((128 * side + line) * 64 + f)
/-- A word of a bank written. -/
def Region.setBankWord (r : Region) (side line f : Nat) (w : W32) : Region := { r with bank := tset r.bank ((128 * side + line) * 64 + f) w }
/-- Entry `e` of a bank (R261). -/
def Region.entry (r : Region) (side line e : Nat) : Lane :=
  if wideTag (r.bTag side line) then
    let lo := r.bankWord side line (2 * e)
    let hi := r.bankWord side line (2 * e + 1)
    if !lo.valid then .bad (normPayload lo.bits) else if !hi.valid then .bad (normPayload hi.bits) else .ok (lo.bits.toNat + hi.bits.toNat * 2 ^ 32)
  else
    let w := r.bankWord side line e
    if w.valid then .ok w.bits.toNat else .bad (normPayload w.bits)
/-- Word `i` of an entry's value. -/
def entryWord (x : Lane) (i : Nat) : W32 :=
  match x with
  | .ok v => ⟨true, BitVec.ofNat 32 (v / 2 ^ (32 * i))⟩
  | .bad p => ⟨false, p⟩
/-- Entry `e` of a bank written. -/
def Region.setEntry (r : Region) (side line e : Nat) (x : Lane) : Region :=
  if wideTag (r.bTag side line) then (r.setBankWord side line (2 * e) (entryWord x 0)).setBankWord side line (2 * e + 1) (entryWord x 1)
  else r.setBankWord side line e (entryWord x 0)
/-- A result written to an entry under acc, with the region status (R262, R266). -/
def Region.putResult (r : Region) (side line e : Nat) (acc : Bool) (x : Lane × BitVec 4) : Region :=
  let q := if acc then accumulate (tagFmt (r.bTag side line)) (r.entry side line e) x.1 else (x.1, 0)
  { (r.setEntry side line e q.1) with status := r.status ||| x.2 ||| q.2 }
/-- The word's entries lie in range for a tag (R261). -/
def entriesOk (t : BitVec 16) (e0 n : Nat) : Bool := decide (e0 + n ≤ if wideTag t then 32 else 64)

/-! ## The beats of a token -/

/-- The waves of beats of a token that a region holds between its edges (R237, R267): a later one is not taken while the first is not written. A
GV token's output takes a quarter of its rows in clk (log 114). -/
def Region.tokenDepth (r : Region) (mode : BitVec 2) (kr : Nat) : Nat :=
  let hmax := r.rows.foldl (fun a p => max a (rowDistance r.y0 p)) 0
  let emax := r.cols.foldl (fun a p => max a (colDistance r.x0 r.w p)) 0
  let height := rowDistance r.y0 (8 * r.h - 1) + 1
  let width := colDistance r.x0 r.w (8 * r.w - 1) + 1
  max 1 (if mode = 0 then emax + height - hmax else if mode = 1 then hmax + width - emax else (emax + height) / max 1 (kr / 4))

/-- A segment of the weight layer that a cell column reads for a line number (R137, R264): row `row` takes a quarter of a line. -/
def State.sliceBeat (s : State) (r : Region) (col line row : Nat) : Beat :=
  let a := r.gvColumn col + line * 128 + row % 4 * 32
  beatOf (s.readWords (r.cellPlot row col) a 8)
/-- Result of a column (side 0): row beats against W[w], over rows that `use` admits. -/
def Region.columnSum (r : Region) (acc fa fb w col : Nat) (beats : List (Nat × Beat)) : Lane × BitVec 4 :=
  lineSum acc fa fb (beats.map fun e => (r.cellPlot e.1 col, e.2, r.weight w e.1 col)) (.ok 0, 0)
/-- Result of a row (side 1): column beats against W[w]. -/
def Region.rowSum (r : Region) (acc fa fb w row : Nat) (beats : List (Nat × Beat)) : Lane × BitVec 4 :=
  lineSum acc fa fb (beats.map fun e => (r.cellPlot row e.1, e.2, r.weight w row e.1)) (.ok 0, 0)

end Sys2Proof.Machine
end

