-- ==== Sys2Proof/Machine/Matrix.lean ====
section
/-! DEFINITION. The region's matrix queue and the words WLD, WSTR, MTOK, ACCZ and DRN (R253-R272, R281, R435, R445, R455). A wave of
beats that the region takes together is one move; skew inside a region shows only in time (log 3). -/

namespace Sys2Proof.Machine

/-! ## Ports of lines -/

/-- Keys of the ports of the first `n` logical lines of a side (0 west, 1 north, 2 south, 3 east), if all are connected. -/
def Region.lineKeys (r : Region) (side n : Nat) : Option (List Nat) :=
  (List.range n).mapM fun l => (r.lineMap side l).map r.mapKey
/-- Tag of the first `n` lines' port maps when they agree in format and scale (R259, R265, R270). -/
def Region.lineTag (r : Region) (side n : Nat) : Option (BitVec 16) :=
  match r.lineMap side 0 with
  | none => none
  | some m => if (List.range n).all fun l => (match r.lineMap side l with
      | some q => tagEq q.tag m.tag
      | none => false) then some m.tag else none
/-- Every port holds a beat for each of its lines. -/
def State.beatsReady (s : State) (keys : List Nat) : Bool := keys.all fun k => decide (keys.count k ≤ (s.portAt k).buf.length)
/-- Every port can take a beat for each of its lines. -/
def State.roomFor (s : State) (keys : List Nat) : Bool :=
  keys.all fun k => s.drainReady k && (decide ((s.portAt k).buf.length + keys.count k ≤ 16) || (s.portAt k).closed)
/-- One beat for each line in ascending order (R232). -/
def State.takeBeats (s : State) : List Nat → List Beat × State
  | [] => ([], s)
  | k :: t =>
    let b := (s.portAt k).buf.headD (badBeat 0)
    let r := (s.bufPop k).takeBeats t
    (b :: r.1, r.2)
/-- The line tag of a drain port as a conversion reads it: the stream tag of the port's binding, else its port map's (R270). -/
def State.drainTag (s : State) (key : Nat) (m : PortMap) : BitVec 16 :=
  match (s.portAt key).bind with
  | some b => b.tag
  | none => m.tag

/-! ## Words in the queue -/

/-- Side fed by a word, or none. -/
def feedSide (x : MWord) : Option Nat :=
  match x.instr with
  | .wld _ row .. => some (if row then 0 else 1)
  | .mtok _ mode .. => if mode = 0 then some 0 else if mode = 1 then some 1 else none
  | _ => none
/-- Register W[w] that a word reads by multiplying. -/
def readsW (x : MWord) : Option (BitVec 3) :=
  match x.instr with
  | .mtok _ _ _ w .. => some w
  | _ => none
/-- A token that has written its last entry: it stays in the queue until its DONE (R257, R268). -/
def tokenDone (x : MWord) : Bool :=
  match x.instr with
  | .mtok _ _ _ _ _ m1 .. => decide (m1.toNat < x.next)
  | _ => false
/-- A token that has taken its last wave of beats. -/
def tokenTaken (x : MWord) : Bool :=
  match x.instr with
  | .mtok _ _ _ _ _ m1 .. => decide (m1.toNat < x.next + x.flight.length)
  | _ => false
/-- A token of a mode waits for the word: for one of its own mode until the last beat has entered, for one of another until its DONE (R257). -/
def tokenAhead (mode : BitVec 2) (y : MWord) : Bool :=
  match y.instr with
  | .mtok _ md .. => md != mode || !tokenTaken y
  | _ => false
/-- A word that still multiplies by W[w]: a GV token until its last entry is written, another until its CONSUMED is posted (R257, R455). -/
def holdsW (w : BitVec 3) (y : MWord) : Bool :=
  match y.instr with
  | .mtok _ mode _ u .. => u == w && !(y.freed || (mode = 2 && tokenDone y))
  | _ => false
/-- Register W[w] that a word loads. -/
def loadsW (x : MWord) : Option (BitVec 3) :=
  match x.instr with
  | .wld _ _ w .. => some w
  | _ => none
/-- Banks and entries that an MTOK writes: side, lines, first entry, count. -/
def tokenWrites (x : MWord) : Option (Nat × Nat × Nat × Nat) :=
  match x.instr with
  | .mtok _ mode _ _ e0 m1 kr1 _ nl1 _ => some (if mode = 1 then (1, kr1.toNat + 1, e0.toNat, m1.toNat + 1) else (0, nl1.toNat + 1, e0.toNat, m1.toNat + 1))
  | _ => none
/-- Outputs per beat of a DRN (R271). -/
def perBeat (x : MWord) : Nat := max 1 (elemsOfWords (tagFmt x.afmt) 8)
/-- Beats of a DRN: column packing goes beat by beat over the lines, row packing entry by entry. -/
def drnBeats (x : MWord) : Nat :=
  match x.instr with
  | .drn _ _ _ n1 _ _ _ _ _ lines1 _ _ rows =>
    let n := n1.toNat + 1
    let l := lines1.toNat + 1
    if rows then n * ((l + perBeat x - 1) / perBeat x) else (n + perBeat x - 1) / perBeat x * l
  | _ => 0
/-- Outputs of beat `t` of a DRN: line and entry of each, and the line by whose port it leaves. -/
def drnOutputs (x : MWord) (t : Nat) : Nat × List (Nat × Nat) :=
  match x.instr with
  | .drn _ _ e0 n1 _ _ _ _ _ lines1 _ _ rows =>
    let n := n1.toNat + 1
    let l := lines1.toNat + 1
    let p := perBeat x
    if rows then
      let nb := (l + p - 1) / p
      (t % nb, (List.range (min p (l - t % nb * p))).map fun i => (t % nb * p + i, e0.toNat + t / nb))
    else (t % l, (List.range (min p (n - t / l * p))).map fun i => (t % l, e0.toNat + t / l * p + i))
  | _ => (0, [])
/-- A DRN drains the entry of the bank and has not yet read it. An unstarted one has read nothing. -/
def drnHolds (x : MWord) (side line e : Nat) : Bool :=
  match x.instr with
  | .drn _ east e0 n1 _ _ _ _ _ lines1 _ _ rows =>
    side == (if east then 1 else 0) && decide (line ≤ lines1.toNat) && decide (e0.toNat ≤ e) && decide (e ≤ e0.toNat + n1.toNat)
      && (!x.started ||
        let p := perBeat x
        let l := lines1.toNat + 1
        decide (x.next ≤ if rows then (e - e0.toNat) * ((l + p - 1) / p) + line / p else (e - e0.toNat) / p * l + line))
  | _ => false
/-- A token writes the entry of the bank and has not yet written it. -/
def tokHolds (x : MWord) (side line e : Nat) : Bool :=
  match tokenWrites x with
  | some (sd, l, e0, m) => sd == side && decide (line < l) && decide (e0 ≤ e) && decide (e < e0 + m) && decide (x.next ≤ e - e0)
  | none => false
/-- An ACCZ resets the entry. -/
def acczHolds (x : MWord) (side e : Nat) : Bool :=
  match x.instr with
  | .accz _ east e0 n1 .. => side == (if east then 1 else 0) && decide (e0.toNat ≤ e) && decide (e ≤ e0.toNat + n1.toNat)
  | _ => false
/-- Entries of a range. -/
def entryRange (e0 n : Nat) : List Nat := (List.range n).map (e0 + ·)
/-- A token or a DRN uses an entry of the ACCZ's range and has not finished with it. -/
def usesEntries (r : Region) (x : MWord) (side e0 n : Nat) : Bool :=
  (List.range (r.lineCount (side + 2))).any fun l => (entryRange e0 n).any fun e => drnHolds x side l e || tokHolds x side l e

/-- The tag that the token's pair gives its banks: none when the pair is not allowed. -/
def Region.tokenTag (r : Region) (i : Instr) : Option (BitVec 16) :=
  match i with
  | .mtok _ mode _ w _ _ kr1 _ nl1 gtag =>
    let ta := if mode = 2 then some gtag else if mode = 0 then r.lineTag 0 (kr1.toNat + 1) else r.lineTag 1 (nl1.toNat + 1)
    match ta with
    | some t => bankTag t (r.wTag w.toNat)
    | none => none
  | _ => none
/-- Some bank that the token uses has another tag than the one it sets, and an earlier DRN still reads that bank (R257). -/
def Region.tagHeld (r : Region) (earlier : List MWord) (x : MWord) : Bool :=
  match tokenWrites x, r.tokenTag x.instr with
  | some (side, l, _, _), some t => (List.range l).any fun line => r.bTag side line != t && (earlier.any fun y =>
      (List.range 64).any fun e => drnHolds y side line e)
  | _, _ => false
/-- An earlier token that has not started will give a bank of the side's first lines another tag: a DRN reads it after that (R50, R257, R265). Its
tag is not known while a WLD of its register has not started. -/
def Region.retags (r : Region) (earlier : List MWord) (side lines : Nat) (y : MWord) : Bool :=
  match y.instr, tokenWrites y with
  | .mtok _ _ acc w .., some (sd, l, _, _) =>
    !y.started && !acc && sd == side && ((earlier.any fun z => !z.started && loadsW z == some w) || (match r.tokenTag y.instr with
      | some t => (List.range (min l lines)).any fun line => r.bTag side line != t
      | none => true))
  | _, _ => false
/-- The start hazards of R257 with the earlier words of the region have cleared. -/
def Region.hazardFree (r : Region) (earlier : List MWord) (x : MWord) : Bool :=
  match x.instr with
  | .mtok _ mode acc w _ _ _ _ _ _ =>
    earlier.all (fun y => !tokenAhead mode y && loadsW y != some w) && (acc || !r.tagHeld earlier x)
      && (match tokenWrites x with
        | some (side, _, e0, m) => !(earlier.any fun y => (entryRange e0 m).any fun e => acczHolds y side e)
        | none => true)
  | .wld _ _ w .. => earlier.all fun y => !holdsW w y
  | .wstr _ _ w .. => earlier.all fun y => loadsW y != some w
  | .accz _ east e0 n1 .. => !(earlier.any fun y => usesEntries r y (if east then 1 else 0) e0.toNat (n1.toNat + 1))
  | .drn _ east e0 n1 _ _ _ _ _ lines1 .. =>
    let side := if east then 1 else 0
    !(earlier.any fun y => r.retags earlier side (lines1.toNat + 1) y || (entryRange e0.toNat (n1.toNat + 1)).any fun e => acczHolds y side e)
  | _ => true
/-- The word `y` started before `x` on the same feed lines and is not done with them (R232). -/
def feedsBefore (y x : MWord) : Bool :=
  y.started && decide (y.order < x.order) && !tokenTaken y && (feedSide x).isSome && feedSide y == feedSide x
/-- A word on the same feed lines that started before is not done with them (R232). Beats of two words that drain by one port leave as each
has them, the earlier word's first (R257, log 102). -/
def portsBusy (mq : List MWord) (x : MWord) : Bool := mq.any fun y => feedsBefore y x

/-! ## Starting -/

/-- FP64 on a part without it (R253). -/
def State.noFp64 (s : State) (f : Nat) : Bool := s.part == .lzx8n && f == 1
/-- The checks of WLD and its tag (R259), or a cause. -/
def State.wldCheck (s : State) (r : Region) (row : Bool) (first n lines : Nat) : Except (BitVec 8) (BitVec 16) :=
  let side := if row then 0 else 1
  if r.lineCount side < lines || (if row then r.cols.length else r.rows.length) < first + n then .error 0x30
  else if (r.lineKeys side lines).isNone then .error 0x31
  else match r.lineTag side lines with
    | none => .error 0x32
    | some t => if s.noFp64 (tagFmt t) then .error 0x43 else .ok t
/-- The checks of WSTR (R260). -/
def State.wstrCheck (s : State) (r : Region) (row : Bool) (w first n lines : Nat) : Option (BitVec 8) :=
  let side := if row then 3 else 2
  if s.noFp64 (tagFmt (r.wTag w)) then some 0x43
  else if r.lineCount side < lines || (if row then r.cols.length else r.rows.length) < first + n then some 0x30
  else if (List.range lines).all fun l => (match r.lineMap side l with
    | some m => tagEq m.tag (r.wTag w)
    | none => false) then none else some 0x32
/-- The checks of MTOK in the order of R265: the tags of its pair and of its banks, or a cause. -/
def State.mtokCheck (s : State) (r : Region) (i : Instr) : Except (BitVec 8) (BitVec 16 × BitVec 16) :=
  match i with
  | .mtok _ mode acc w e0 m1 kr1 woff nl1 gtag =>
    let kr := kr1.toNat + 1
    let nl := nl1.toNat + 1
    let ta := if mode = 2 then some gtag else if mode = 0 then r.lineTag 0 kr else r.lineTag 1 nl
    let fmts := tagFmt (ta.getD 0) == 1 || tagFmt (r.wTag w.toNat) == 1
    if s.part == .lzx8n && fmts then .error 0x43
    else if !r.modes.getLsbD mode.toNat || r.rows.length < kr || r.cols.length < nl
      || (mode = 2 && 147456 < woff.toNat + (m1.toNat + 1) * (kr / 4)) then .error 0x30
    else if mode = 0 && (r.lineKeys 0 kr).isNone || mode = 1 && (r.lineKeys 1 nl).isNone then .error 0x31
    else match ta, r.tokenTag i with
      | some a, some t =>
        let side := if mode = 1 then 1 else 0
        if acc && !((List.range (if mode = 1 then kr else nl)).all fun l => tagEq (r.bTag side l) t) then .error 0x32
        else if !entriesOk t e0.toNat (m1.toNat + 1) then .error 0x30
        else .ok (a, t)
      | _, _ => .error 0x32
  | _ => .error 0x30
/-- The checks of ACCZ (R261, R263). -/
def State.acczCheck (s : State) (e0 n : Nat) (tag : BitVec 16) : Option (BitVec 8) :=
  if s.noFp64 (tagFmt tag) then some 0x43
  else if !bankTagOk tag then some 0x32
  else if !entriesOk tag e0 n then some 0x30
  else none
/-- The checks of DRN (R270): its output tag, or a cause; a bank without a format cannot be read as numbers (R50). -/
def State.drnCheck (s : State) (r : Region) (side lines e0 n : Nat) (rows : Bool) : Except (BitVec 8) (BitVec 16) :=
  let out := match r.lineMap (side + 2) 0 with
    | some m => s.drainTag (r.mapKey m) m
    | none => 0
  let p := max 1 (elemsOfWords (tagFmt out) 8)
  let used := if rows then (lines + p - 1) / p else lines
  if s.noFp64 (tagFmt out) || (List.range lines).any fun l => s.noFp64 (tagFmt (r.bTag side l)) then .error 0x43
  else if r.lineCount (side + 2) < lines || (List.range lines).any fun l => !entriesOk (r.bTag side l) e0 n then .error 0x30
  else if (r.lineKeys (side + 2) used).isNone then .error 0x31
  else if (r.lineTag (side + 2) used).isNone || tagMalformed out || tagFmt out = 0
    || (List.range lines).any (fun l => tagFmt (r.bTag side l) == 0) then .error 0x32
  else .ok out
/-- A word of the queue changed. -/
def Region.setMWord (r : Region) (x : MWord) : Region := { r with mq := r.mq.map fun y => if y.word = x.word then x else y }
/-- A word leaves the queue. -/
def Region.dropMWord (r : Region) (word : Nat) : Region := { r with mq := r.mq.filter fun y => y.word != word }
/-- The word faults at its start (R281). -/
def State.matrixFault (s : State) (k : Nat) (x : MWord) (cause : BitVec 8) (tval : Word) : State :=
  (s.modRegion k fun r => r.dropMWord x.word).wordFault x.word cause tval 0
/-- The word is done: it completes by its event (R258). -/
def State.matrixDone (s : State) (k : Nat) (x : MWord) : State := (s.modRegion k fun r => r.dropMWord x.word).finishing x.word []
/-- Entries of every bank of a side reset, with the tag (R263). -/
def Region.clearBanks (r : Region) (side e0 n : Nat) (tag : BitVec 16) : Region :=
  (List.range (r.lineCount (side + 2))).foldl (fun r l =>
    (entryRange e0 n).foldl (fun r e => r.setEntry side l e (.ok 0)) (r.setBTag side l tag)) r
/-- The word starts: its checks, then its tags and its place in the order of starts. ACCZ acts at once; a result word that no storage backs
(R178) faults it after the banks are reset (R228, R263). -/
def State.matrixStart (s : State) (k : Nat) (r : Region) (x : MWord) : State :=
  let go (y : MWord) (f : Region → Region) : State :=
    ({ s with nextId := s.nextId + 1 }).modRegion k fun r => (f r).setMWord { y with started := true, order := s.nextId }
  match x.instr with
  | .wld _ row w first n1 lines1 _ _ => (match s.wldCheck r row first.toNat (n1.toNat + 1) (lines1.toNat + 1) with
    | .error c => s.matrixFault k x c 0
    | .ok t => go { x with afmt := t } fun r => { r with wtag := tset r.wtag w.toNat t })
  | .wstr _ row w first n1 lines1 => (match s.wstrCheck r row w.toNat first.toNat (n1.toNat + 1) (lines1.toNat + 1) with
    | some c => s.matrixFault k x c 0
    | none => go x id)
  | .mtok _ mode acc _ _ _ kr1 _ nl1 _ => (match s.mtokCheck r x.instr with
    | .error c => s.matrixFault k x c 0
    | .ok (a, t) => go { x with afmt := a, bfmt := r.wTag ((readsW x).getD 0).toNat } fun r =>
      if acc then r
      else (List.range (if mode = 1 then kr1.toNat + 1 else nl1.toNat + 1)).foldl (fun r l => r.setBTag (if mode = 1 then 1 else 0) l t) r)
  | .accz _ east e0 n1 tag res clr rd => (match s.acczCheck e0.toNat (n1.toNat + 1) tag with
    | some c => s.matrixFault k x c 0
    | none =>
      let s1 := s.modRegion k fun r => r.clearBanks (if east then 1 else 0) e0.toNat (n1.toNat + 1) tag
      let a := plotBase x.plot + res.toNat
      if rd && !s.backed a then s1.matrixFault k x 0x0A (spadVa x.plot res.toNat)
      else
        let s2 := if rd then (s1.engineWrite a ⟨true, r.status.zeroExtend 32⟩).setFe a true else s1
        (s2.modRegion k fun r => { r with status := if clr then 0 else r.status }).matrixDone k x)
  | .drn _ east e0 n1 _ _ rm _ _ lines1 goff gate rows =>
    (match s.drnCheck r (if east then 1 else 0) (lines1.toNat + 1) e0.toNat (n1.toNat + 1) rows with
    | .error c => s.matrixFault k x c 0
    | .ok t =>
      let md := BitVec.ofNat 16 (resolveMode (s.slotAt x.plot x.slot).fpctl rm)
      go { x with afmt := t, bfmt := md, gates := if gate then s.spadWords x.plot goff.toNat (lines1.toNat + 1) else [] } id)
  | _ => s

/-! ## Moving on -/

/-- The feed ports of a token's lines: none when one is not connected; a GV token has none (R264). -/
def Region.tokenKeys (r : Region) (i : Instr) : Option (List Nat) :=
  match i with
  | .mtok _ mode _ _ _ _ kr1 _ nl1 _ =>
    if mode = 0 then r.lineKeys 0 (kr1.toNat + 1) else if mode = 1 then r.lineKeys 1 (nl1.toNat + 1) else some []
  | _ => none
/-- Words of the region that came before a word. -/
def Region.before (r : Region) (x : MWord) : List MWord := r.mq.takeWhile (·.word != x.word)
/-- The entry that a token is to write next is still to be read by an earlier DRN (R257). -/
def Region.writeHeld (r : Region) (x : MWord) : Bool :=
  match tokenWrites x with
  | some (side, l, e0, _) => (List.range l).any fun line => (r.before x).any fun y => drnHolds y side line (e0 + x.next)
  | none => false
/-- Waves that a token may hold before it writes the first. -/
def Region.waveRoom (r : Region) (x : MWord) : Nat :=
  match x.instr with
  | .mtok _ mode _ _ _ _ kr1 .. => r.tokenDepth mode (kr1.toNat + 1)
  | _ => 1
/-- A started token finds no beat for a line, or the entry whose write falls due is still to be read by an earlier DRN: the region stalls (R257, R267). -/
def State.starved (s : State) (r : Region) (x : MWord) : Bool :=
  x.started && !tokenDone x && (match r.tokenKeys x.instr with
    | some keys => (!tokenTaken x && !s.beatsReady keys)
        || (x.flight != [] && (tokenTaken x || decide (r.waveRoom x ≤ x.flight.length)) && r.writeHeld x)
    | none => false)
/-- A started DRN or WSTR whose next beat is there finds the steering queue of its port empty (R273). -/
def State.steerWaits (s : State) (r : Region) (x : MWord) : Bool :=
  let dry (side l : Nat) : Bool := match r.lineMap (side + 2) l with
    | some m => m.conn == 4 && (s.portAt (r.mapKey m)).steer == []
    | none => false
  x.started && (match x.instr with
    | .drn _ east .. =>
      let side := if east then 1 else 0
      let o := drnOutputs x x.next
      !x.hold && decide (x.next < drnBeats x) && dry side o.1 && !(o.2.any fun p => (r.before x).any fun y => tokHolds y side p.1 p.2)
    | .wstr _ row _ _ _ lines1 => dry (if row then 1 else 0) (x.next % (lines1.toNat + 1))
    | _ => false)
/-- The region stalls for a word (R267, R273): with a started token that waits, with a word whose beat an earlier one on its port holds back, with a
beat that finds no index. The word for which another waits on their feed lines goes on. -/
def State.stalled (s : State) (r : Region) (x : MWord) : Bool :=
  r.mq.any fun y => y.word != x.word && !feedsBefore x y && (s.starved r y || s.steerWaits r y
    || (y.started && !tokenTaken y && (feedSide y).isSome && portsBusy r.mq y))
/-- WLD latches the next beat of every line (R259). -/
def State.wldMove (s : State) (k : Nat) (r : Region) (x : MWord) : Option State :=
  match x.instr with
  | .wld _ row w first n1 lines1 xid xv => match r.lineKeys (if row then 0 else 1) (lines1.toNat + 1) with
    | none => none
    | some keys =>
      if !s.beatsReady keys || s.stalled r x then none
      else
        let t := s.takeBeats keys
        let pos := first.toNat + x.next
        let put (r : Region) : Region := t.1.zipIdx.foldl (fun r e => if row then r.setWeight w.toNat e.2 pos e.1 else r.setWeight w.toNat pos e.2 e.1) r
        let s1 := t.2.modRegion k fun r => (put r).setMWord { x with next := x.next + 1 }
        if x.next < n1.toNat then some s1
        else
          let tag (r : Region) : Region := if xv && row then { r with xid := (List.range (lines1.toNat + 1)).foldl (fun t l => tset t l (xid.zeroExtend 8)) r.xid } else r
          some ((s1.modRegion k tag).matrixDone k x)
  | _ => none
/-- WSTR sends its next beat (R260). -/
def State.wstrMove (s : State) (k : Nat) (r : Region) (x : MWord) : Option State :=
  match x.instr with
  | .wstr _ row w first n1 lines1 =>
    let lines := lines1.toNat + 1
    let l := x.next % lines
    let pos := first.toNat + x.next / lines
    match r.lineMap (if row then 3 else 2) l with
    | none => none
    | some m =>
      if !s.drainReady (r.mapKey m) || s.stalled r x then none
      else
        let b := if row then r.weight w.toNat l pos else r.weight w.toNat pos l
        let s1 := (s.drainPush (r.mapKey m) b).modRegion k fun r => r.setMWord { x with next := x.next + 1 }
        some (if x.next + 1 = lines * (n1.toNat + 1) then s1.matrixDone k x else s1)
  | _ => none
/-- Drain ports by which a WS region passes the A beats of its rows on, with the row (R435). -/
def Region.passKeys (r : Region) (rows : Nat) : List (Nat × Nat) :=
  (List.range rows).filterMap fun l => match r.lineMap 3 l with
    | some m => if m.conn = 2 then some (l, r.mapKey m) else none
    | none => none
/-- Results of wave `j` of a token, by line: in WS and TS of the beats taken, in GV of the weight layer's lines (R264-R266). -/
def State.waveResults (s : State) (r : Region) (x : MWord) (j : Nat) (beats : List Beat) : List (Lane × BitVec 4) :=
  match x.instr with
  | .mtok _ mode _ w _ _ kr1 woff nl1 _ =>
    let kr := kr1.toNat + 1
    let nl := nl1.toNat + 1
    let fa := tagFmt x.afmt
    let fb := tagFmt x.bfmt
    match accFmt fa fb with
    | none => []
    | some af =>
      if mode = 1 then (List.range kr).map fun l => r.rowSum af fa fb w.toNat l ((List.range nl).zip beats)
      else if mode = 0 then (List.range nl).map fun l => r.columnSum af fa fb w.toNat l ((List.range kr).zip beats)
      else (List.range nl).map fun l => r.columnSum af fa fb w.toNat l ((List.range kr).map fun row =>
        (row, s.sliceBeat r l (woff.toNat + j * (kr / 4) + row / 4) row))
  | _ => []
/-- The oldest wave of a token is written to an entry of every used line (R266). -/
def Region.writeWave (r : Region) (x : MWord) : Region :=
  match x.instr, tokenWrites x, x.flight with
  | .mtok _ _ acc .., some (side, _, e0, _), q :: t =>
    (q.zipIdx.foldl (fun r o => r.putResult side o.2 (e0 + x.next) acc o.1) r).setMWord { x with next := x.next + 1, flight := t }
  | _, _, _ => r
/-- MTOK takes its next wave of beats (R264, R265, R435). -/
def State.takeWave (s : State) (k : Nat) (r : Region) (x : MWord) : Option State :=
  match x.instr, r.tokenKeys x.instr with
  | .mtok _ mode _ _ _ _ kr1 _ _ _, some keys =>
    let pass := if mode = 0 then r.passKeys (kr1.toNat + 1) else []
    if tokenTaken x || decide (r.waveRoom x ≤ x.flight.length) || !s.beatsReady keys || s.stalled r x || !s.roomFor (pass.map (·.2))
      || (mode == 2 && !s.spadReady x.plot) then none
    else
      let t := s.takeBeats keys
      let s1 := pass.foldl (fun s p => s.drainPush p.2 (t.1.getD p.1 (badBeat 0))) t.2
      let x' := { x with flight := x.flight ++ [s.waveResults r x (x.next + x.flight.length) t.1] }
      let s2 := s1.modRegion k fun r => r.setMWord x'
      some (if tokenTaken x' then s2.finishing x.word [] else s2)
  | _, _ => none
/-- MTOK writes the oldest wave that it holds when no earlier DRN is still to read an entry of it, else takes the next (R257, R264-R268). After the
last it stays in the queue until its DONE. -/
def State.mtokMove (s : State) (k : Nat) (r : Region) (x : MWord) : Option State :=
  if x.flight != [] && !r.writeHeld x then some (s.modRegion k fun r => r.writeWave x) else s.takeWave k r x
/-- A bank entry as an exact number with its scale (R270). -/
def entryNum (tag : BitVec 16) (v : Nat) (sh : Int) : Num :=
  let sc := tagScale tag - sh
  match tagFmt tag with
  | 9 => let i := fromTwos 32 v
    .fin (i < 0) i.natAbs sc
  | 11 => let i := fromTwos 64 v
    .fin (i < 0) i.natAbs (sc - 15)
  | f => (decodeFloat f v).scale sc
/-- One output of a DRN, the flags of its conversion, and the NaN that arises in its gating, which the region status tells (R54, R68, R270); `gate` is
the line's gate word. -/
def drnOutput (bank out : BitVec 16) (e : Lane) (gate : Option W32) (sh : Int) (relu : Bool) (mode : Nat) (bad : BitVec 32) : Lane × Flags × Flags :=
  match e with
  | .bad p => (.bad p, 0, 0)
  | .ok v =>
    let x := entryNum bank v sh
    let finish (x : Num) : Lane × Flags :=
      let neg := match x with
        | .fin n _ _ => n
        | .inf n => n
        | .nan _ => false
      let y := if relu && neg then .fin false 0 0 else x
      let r := encodeNum (tagFmt out) mode (tagSat out) (y.scale (-(tagScale out)))
      match r.1 with
      | some b => (.ok b, r.2)
      | none => (.bad bad, r.2)
    match gate with
    | none => let o := finish x
      (o.1, o.2, 0)
    | some g =>
      if g.valid then
        let v := mulNum x (decodeFloat 2 g.bits.toNat)
        let o := finish v.1
        (o.1, v.2 ||| o.2, if v.1.isNaN then fInvalid else 0)
      else (.bad (normPayload g.bits), 0, 0)
/-- A DRN's output stops before its entry is reset: the entry or its gate word is invalid (R270). -/
def drnStops (e : Lane) (gate : Option W32) : Bool :=
  (match e with
    | .bad _ => true
    | .ok _ => false) || (match gate with
    | some g => !g.valid
    | none => false)
/-- Words of a beat of outputs with its padding (R271); `w0` counts the words that left the port before. -/
def drnWords (f plot w0 : Nat) (outs : List Lane) : List W32 :=
  let per := if fmtWidth f = 64 then 1 else if f = 11 then 5 else 32 / fmtWidth f
  let used := (outs.length + per - 1) / per * (if fmtWidth f = 64 then 2 else 1)
  let padded := outs ++ List.replicate per (.ok (if f = 11 then 0x30 else 0))
  (List.range 8).map fun m => if m < used then wordOfLanes f padded m else ⟨false, payloadBits 0 plot (ordinalAt f (w0 + m))⟩
/-- Flags of a drain conversion as region status (R262, R270). -/
def drnStatus (f : Flags) : BitVec 4 :=
  (if f.getLsbD 2 then 1 else 0) ||| (if f.getLsbD 0 then 2 else 0) ||| (if f.getLsbD 5 then 4 else 0)
/-- Cause of a DRN's trap: overflow before invalid before sat (R272). -/
def drnCause (f : Flags) : BitVec 8 := if f.getLsbD 2 then 0x10 else if f.getLsbD 0 then 0x11 else 0x15
/-- DRN sends its next beat (R270-R272). Behind an ended binding that beat is discarded: it has left at once. -/
def State.drnMove (s : State) (k : Nat) (r : Region) (earlier : List MWord) (x : MWord) : Option State :=
  match x.instr with
  | .drn _ east _ _ sh relu _ te clr _ _ _ _ =>
    let side := if east then 1 else 0
    let o := drnOutputs x x.next
    match r.lineMap (side + 2) o.1 with
    | none => none
    | some m =>
      let key := r.mapKey m
      if x.hold || !s.drainReady key || o.2.any (fun p => earlier.any fun y => tokHolds y side p.1 p.2) then none
      else
        let f := tagFmt x.afmt
        let w0 := (s.portAt key).drained
        let out (i : Nat) (p : Nat × Nat) : Lane × Flags × Flags :=
          drnOutput (r.bTag side p.1) x.afmt (r.entry side p.1 p.2) (x.gates[p.1]?) sh.toInt relu x.bfmt.toNat
            (payloadBits 1 x.plot ((elemsOfWords f w0 + 1 + i) % 2048))
        let outs := o.2.zipIdx.map fun p => out p.2 p.1
        let first := if te then outs.findIdx? fun q => q.2.1 &&& (fInvalid ||| fOverflow ||| fSat) != 0 else none
        let ord (i : Nat) := (elemsOfWords f w0 + 1 + i) % 2048
        let lanes := outs.zipIdx.map fun q =>
          if first = some q.2 then Lane.bad (payloadBits (if isInt f then 2 else 1) x.plot (ord q.2)) else q.1.1
        let status := outs.foldl (fun b q => b ||| drnStatus (q.2.1 ||| q.2.2)) (if first.isSome then 8 else 0)
        let clear (r : Region) : Region := if clr then o.2.foldl (fun r p =>
          if drnStops (r.entry side p.1 p.2) (x.gates[p.1]?) then r else r.setEntry side p.1 p.2 (.ok 0)) r else r
        let x' := { x with next := x.next + 1, hold := first.isSome }
        let s1 := s.modRegion k fun r => { (clear r).setMWord x' with status := r.status ||| status }
        let s2 := s1.drainPush key (beatOf (drnWords f x.plot w0 lanes))
        let s3 := match first, tfind s2.words x.word with
          | some i, some wd =>
            let d : DrnTrap := ⟨key, (s2.portAt key).buf.length, x.word, x.plot, x.slot, wd.ticket, drnCause (outs.getD i (.ok 0, 0, 0)).2.1,
              BitVec.ofNat 64 (ord i)⟩
            if (s2.portAt key).closed then s2.drnTrapped k d else s2.modRegion k fun r => { r with trapDue := r.trapDue ++ [d] }
          | _, _ => s2
        some (if x'.next = drnBeats x ∧ !x'.hold then s3.matrixDone k x else s3)
  | _ => none
/-- A DRN held after its last beat completes once it is thawed (R272). -/
def State.drnEnd (s : State) (k : Nat) (x : MWord) : Option State :=
  match x.instr with
  | .drn .. => if x.next = drnBeats x ∧ !x.hold then some (s.matrixDone k x) else none
  | _ => none
/-- The word reads gates from the scratchpad when it starts (R270). -/
def readsGates (i : Instr) : Bool :=
  match i with
  | .drn _ _ _ _ _ _ _ _ _ _ _ gate _ => gate
  | _ => false
/-- The word starts or makes one move, if it can. -/
def State.matrixMove (s : State) (k : Nat) (r : Region) (earlier : List MWord) (x : MWord) : Option State :=
  let zero := match x.instr with
    | .accz .. => true
    | _ => false
  if !x.started then
    if (zero || (r.armed && r.disarming == [] && !s.regionFrozen k)) && s.instLive x.plot && r.hazardFree earlier x
      && (!readsGates x.instr || s.spadReady x.plot) then some (s.matrixStart k r x) else none
  else if s.regionFrozen k || portsBusy r.mq x || !s.instRuns x.plot then none
  else match s.drnEnd k x with
    | some s' => some s'
    | none => match x.instr with
      | .wld .. => s.wldMove k r x
      | .wstr .. => s.wstrMove k r x
      | .mtok .. => s.mtokMove k r x
      | .drn .. => s.drnMove k r earlier x
      | _ => none
/-- The first word of the queue, from place `i` on, that can move. -/
def State.firstMove (s : State) (k : Nat) (r : Region) : (earlier : List MWord) → List MWord → Option State
  | _, [] => none
  | earlier, x :: t => match s.matrixMove k r earlier x with
    | some s' => some s'
    | none => s.firstMove k r (earlier ++ [x]) t
/-- Moves of the region's words, at most `n`. -/
def State.pumpN (k : Nat) : (n : Nat) → State → State
  | 0, s => s
  | n + 1, s => match tfind s.regions k with
    | none => s
    | some r => match s.firstMove k r [] r.mq with
      | none => s
      | some s' => State.pumpN k n s'
/-- The region's words move as far as they can (R257, R267); the bound is beyond what full buffers and drains allow. -/
def State.pump (s : State) (k : Nat) : State := s.pumpN k 100000
/-- The region that holds a port moves. -/
def State.pumpPort (s : State) (key : Nat) : State :=
  match (s.plotAt (key / 16)).region with
  | some k => s.pump k
  | none => s

/-! ## The words -/

/-- A matrix word enters its region's queue (R253, R257). -/
def matrixWord (s : State) : Result :=
  startWord (fun id w _ s =>
    match s.regionOf w.plot with
    | none => .yes (s.wordFault id 0x31 0 0)
    | some (k, _) =>
      .yes ((s.modRegion k fun r => { r with mq := r.mq ++ [⟨id, w.instr, w.plot, w.slot, false, 0, 0, 0, 0, false, [], false, []⟩] }).pump k)) s
/-- WLD (R259). -/
def execWld (h : SwHdr) (row : Bool) (w : BitVec 3) (first n1 lines1 : BitVec 7) (xid : BitVec 6) (xv : Bool) (s : State) : Result :=
  asWord (.wld h row w first n1 lines1 xid xv) s <|
    matrixWord s
/-- WSTR (R260). -/
def execWstr (h : SwHdr) (row : Bool) (w : BitVec 3) (first n1 lines1 : BitVec 7) (s : State) : Result :=
  asWord (.wstr h row w first n1 lines1) s <|
    matrixWord s
/-- MTOK (R264-R269). -/
def execMtok (h : SwHdr) (mode : BitVec 2) (acc : Bool) (w : BitVec 3) (e0 m1 : BitVec 6) (kr1 : BitVec 7) (woff : BitVec 18) (nl1 : BitVec 7)
    (gtag : BitVec 16) (s : State) : Result :=
  asWord (.mtok h mode acc w e0 m1 kr1 woff nl1 gtag) s <|
    matrixWord s
/-- ACCZ (R263). -/
def execAccz (h : SwHdr) (east : Bool) (e0 n1 : BitVec 6) (tag : BitVec 16) (res : BitVec 19) (clrstat rdstat : Bool) (s : State) : Result :=
  asWord (.accz h east e0 n1 tag res clrstat rdstat) s <|
  matrixWord s
/-- DRN (R270-R272). -/
def execDrn (h : SwHdr) (east : Bool) (e0 n1 : BitVec 6) (sh : BitVec 5) (relu : Bool) (rm : BitVec 3) (te clr : Bool) (lines1 : BitVec 7) (goff : BitVec 19)
    (gate rows : Bool) (s : State) : Result :=
  asWord (.drn h east e0 n1 sh relu rm te clr lines1 goff gate rows) s <|
    matrixWord s
/-- The token of a region's queue changed, or dropped; the region's words go on. -/
def State.modToken (s : State) (w : SWord) (f : Region → Region) : State :=
  match (s.plotAt w.plot).region with
  | some k => (s.modRegion k f).pump k
  | none => s
/-- MTOK_CONSUMED (R268): every beat has left its edge buffer; the token posts its arc, and its register may be loaded again (R455). -/
def execMtokConsumed (plot : BitVec 13) (slot : BitVec 3) (ticket : BitVec 16) (s : State) : Result :=
  match s.words.find? fun e => e.2.plot == plot.toNat && e.2.slot == slot.toNat && e.2.ticket == ticket && isMtok e.2.instr with
  | none => .next s
  | some (id, w) => match wordHdr w.instr with
    | none => .next s
    | some h =>
      if w.stage != .finishing || w.consumed || (h.post && s.arcCount w.plot h.arc == 255) then .next s
      else .next (((if h.post then s.postArc w.plot h.arc else s).setWord id { w with consumed := true }).modToken w fun r =>
        { r with mq := r.mq.map fun y => if y.word = id then { y with freed := true } else y })
/-- The token of a plot's region has written every entry, or is no longer in the queue. -/
def State.tokenWritten (s : State) (plot id : Nat) : Bool :=
  match s.regionOf plot with
  | some (_, r) => r.mq.all fun y => y.word != id || tokenDone y
  | none => true
/-- MTOK_DONE (R268): every entry is written; the token posts the next arc and completes. -/
def execMtokDone (plot : BitVec 13) (slot : BitVec 3) (ticket : BitVec 16) (s : State) : Result :=
  match s.words.find? fun e => e.2.plot == plot.toNat && e.2.slot == slot.toNat && e.2.ticket == ticket && isMtok e.2.instr with
  | none => .next s
  | some (id, w) => match wordHdr w.instr with
    | none => .next s
    | some h =>
      if w.stage != .finishing || !w.consumed || !s.tokenWritten w.plot id || (h.post && s.arcCount w.plot (h.arc + 1) == 255) then .next s
      else .next (((if h.post then s.postArc w.plot (h.arc + 1) else s).endWord id).modToken w (·.dropMWord id))

end Sys2Proof.Machine
end

