-- ==== Sys2Proof/Machine/Vector.lean ====
section
/-! DEFINITION. Vector floating-point and integer arithmetic (R288-R290). -/

namespace Sys2Proof.Machine

/-! ## Floating point -/

/-- An infinite result: with the sat bit of the result tag it is clamped, which sets sat (R64, R289). -/
def infLane (f : Nat) (sat neg : Bool) (fl : Flags) : Lane × Flags :=
  let q := encodeFloat f 0 sat (.inf neg)
  (.ok q.1, fl ||| q.2)
/-- A number rounded once into a lane (R289): NaN canonical. -/
def roundLane (f mode : Nat) (sat : Bool) (r : Num × Flags) : Lane × Flags :=
  match r.1 with
  | .nan sg => (.ok (canonNaN f), if sg then r.2 ||| fInvalid else r.2)
  | .inf n => infLane f sat n r.2
  | .fin n m e => let q := roundFloat f mode sat n m e false
    (.ok q.1, r.2 ||| q.2)
/-- An approximation rounded once into a lane. -/
def roundApprox (f mode : Nat) (sat neg : Bool) (a : Approx) : Lane × Flags :=
  let q := roundFloat f mode sat neg a.m a.e a.sticky
  (.ok q.1, q.2)
/-- A NaN result, invalid when asked. -/
def nanLane (f : Nat) (invalid : Bool) : Lane × Flags := (.ok (canonNaN f), if invalid then fInvalid else 0)
/-- A zero lane. -/
def zeroLane (f : Nat) (neg : Bool) : Lane × Flags := (.ok (if neg then 2 ^ (fmtWidth f - 1) else 0), 0)
/-- a / b (R289). -/
def divLane (f mode : Nat) (sat : Bool) (x y : Num) : Lane × Flags :=
  match x, y with
  | .nan a, y => nanLane f (a || y.isSig)
  | _, .nan b => nanLane f b
  | .inf _, .inf _ => nanLane f true
  | .inf a, y => infLane f sat (a != y.neg) 0
  | .fin a _ _, .inf b => zeroLane f (a != b)
  | .fin a m e, .fin b n g =>
    if n = 0 then (if m = 0 then nanLane f true else infLane f sat (a != b) fDivzero)
    else if m = 0 then zeroLane f (a != b)
    else roundApprox f mode sat (a != b) (divApprox m e n g)
/-- √a. -/
def sqrtLane (f mode : Nat) (sat : Bool) (x : Num) : Lane × Flags :=
  match x with
  | .nan a => nanLane f a
  | .inf n => if n then nanLane f true else infLane f sat false 0
  | .fin n m e => if m = 0 then zeroLane f n else if n then nanLane f true else roundApprox f mode sat false (sqrtApprox m e)
/-- 1 / √a. -/
def rsqLane (f mode : Nat) (sat : Bool) (x : Num) : Lane × Flags :=
  match x with
  | .nan a => nanLane f a
  | .inf n => if n then nanLane f true else zeroLane f false
  | .fin n m e => if m = 0 then infLane f sat n fDivzero else if n then nanLane f true else roundApprox f mode sat false (rsqrtApprox m e)
/-- 2^a; beyond 2^20 in magnitude the result overflows or underflows as at 2^20. -/
def exp2Lane (f mode : Nat) (sat : Bool) (x : Num) : Lane × Flags :=
  match x with
  | .nan a => nanLane f a
  | .inf n => if n then zeroLane f false else infLane f sat false 0
  | .fin n m e =>
    if m = 0 then roundApprox f mode sat false ⟨1, 0, false⟩
    else if 21 ≤ (Nat.log2 m : Int) + e then roundApprox f mode sat false ⟨1, (if n then -1048576 else 1048576), true⟩
    else roundApprox f mode sat false (exp2Approx n m e)
/-- log2 a. -/
def log2Lane (f mode : Nat) (sat : Bool) (x : Num) : Lane × Flags :=
  match x with
  | .nan a => nanLane f a
  | .inf n => if n then nanLane f true else infLane f sat false 0
  | .fin n m e =>
    if m = 0 then infLane f sat true fDivzero
    else if n then nanLane f true
    else let r := log2Approx m e
      if r.2.m = 0 && !r.2.sticky then zeroLane f false else roundApprox f mode sat r.1 r.2
/-- Minimum or maximum of two lanes (R289): equal lanes give a's. -/
def minMaxLane (f : Nat) (isMax : Bool) (a b : Nat) : Lane × Flags :=
  let x := decodeFloat f a
  let y := decodeFloat f b
  if x.isNaN || y.isNaN then nanLane f (x.isSig || y.isSig)
  else if isMax then (.ok (if ltNum true x y then b else a), 0)
  else (.ok (if ltNum true y x then b else a), 0)
/-- A sign change (R289). -/
def signLane (f : Nat) (abs : Bool) (a : Nat) : Lane × Flags :=
  let x := decodeFloat f a
  let top := 2 ^ (fmtWidth f - 1)
  if x.isNaN then nanLane f x.isSig
  else if abs then (.ok (a % top), 0)
  else (.ok (if top ≤ a then a - top else a + top), 0)

/-- A VFP instruction of v operands (R283, R288): tags of one format, the operation by format, mode, sat and lane bits. -/
def vfpOp (vs : List VNum) (d : VNum) (m : BitVec 3) (f : Nat → Nat → Bool → List Nat → Lane × Flags) (s : State) : Result :=
  vectorOp vs [] d (fun _ => do
    let regs := vs.map s.vGet
    let ta := (regs.map (·.tag)).headD 0
    checkTags (regs.map fun r => (vfpTag r.tag && tagEq r.tag ta, r.tag))
    let fm := tagFmt ta
    let out := mapLanes (laneCount fm) (regs.map (lanes s.focus.plot fm)) (f fm (resolveMode s.cur.fpctl m) (tagSat ta))
    .ok (vregOfLanes ta (out.map (·.1)), numbered out)) s
/-- Operand `i` decoded. -/
def opNum (f : Nat) (l : List Nat) (i : Nat) : Num := decodeFloat f (l.getD i 0)

/-- VADD (R288). -/
def execVadd (d a b : VNum) (m : BitVec 3) (s : State) : Result :=
  vfpOp [a, b] d m (fun f mode sat l => roundLane f mode sat (addNum mode (opNum f l 0) (opNum f l 1))) s
/-- VSUB. -/
def execVsub (d a b : VNum) (m : BitVec 3) (s : State) : Result :=
  vfpOp [a, b] d m (fun f mode sat l => roundLane f mode sat (addNum mode (opNum f l 0) (opNum f l 1).negate)) s
/-- VMUL. -/
def execVmul (d a b : VNum) (m : BitVec 3) (s : State) : Result :=
  vfpOp [a, b] d m (fun f mode sat l => roundLane f mode sat (mulNum (opNum f l 0) (opNum f l 1))) s
/-- a × b ± d with one rounding. -/
def fmaLane (f mode : Nat) (sat neg : Bool) (l : List Nat) : Lane × Flags :=
  let p := mulNum (opNum f l 0) (opNum f l 1)
  let z := opNum f l 2
  let r := addNum mode p.1 (if neg then z.negate else z)
  roundLane f mode sat (r.1, p.2 ||| r.2)
/-- VFMA. -/
def execVfma (d a b : VNum) (m : BitVec 3) (s : State) : Result := vfpOp [a, b, d] d m (fun f mode sat l => fmaLane f mode sat false l) s
/-- VFMS. -/
def execVfms (d a b : VNum) (m : BitVec 3) (s : State) : Result := vfpOp [a, b, d] d m (fun f mode sat l => fmaLane f mode sat true l) s
/-- VDIV. -/
def execVdiv (d a b : VNum) (m : BitVec 3) (s : State) : Result :=
  vfpOp [a, b] d m (fun f mode sat l => divLane f mode sat (opNum f l 0) (opNum f l 1)) s
/-- VSQRT. -/
def execVsqrt (d a : VNum) (m : BitVec 3) (s : State) : Result := vfpOp [a] d m (fun f mode sat l => sqrtLane f mode sat (opNum f l 0)) s
/-- VRSQ. -/
def execVrsq (d a : VNum) (m : BitVec 3) (s : State) : Result := vfpOp [a] d m (fun f mode sat l => rsqLane f mode sat (opNum f l 0)) s
/-- VRCP. -/
def execVrcp (d a : VNum) (m : BitVec 3) (s : State) : Result :=
  vfpOp [a] d m (fun f mode sat l => divLane f mode sat (.fin false 1 0) (opNum f l 0)) s
/-- VMIN. -/
def execVmin (d a b : VNum) (m : BitVec 3) (s : State) : Result := vfpOp [a, b] d m (fun f _ _ l => minMaxLane f false (l.getD 0 0) (l.getD 1 0)) s
/-- VMAX. -/
def execVmax (d a b : VNum) (m : BitVec 3) (s : State) : Result := vfpOp [a, b] d m (fun f _ _ l => minMaxLane f true (l.getD 0 0) (l.getD 1 0)) s
/-- VABS. -/
def execVabs (d a : VNum) (m : BitVec 3) (s : State) : Result := vfpOp [a] d m (fun f _ _ l => signLane f true (l.getD 0 0)) s
/-- VNEG. -/
def execVneg (d a : VNum) (m : BitVec 3) (s : State) : Result := vfpOp [a] d m (fun f _ _ l => signLane f false (l.getD 0 0)) s
/-- VEXP2. -/
def execVexp2 (d a : VNum) (m : BitVec 3) (s : State) : Result := vfpOp [a] d m (fun f mode sat l => exp2Lane f mode sat (opNum f l 0)) s
/-- VLOG2. -/
def execVlog2 (d a : VNum) (m : BitVec 3) (s : State) : Result := vfpOp [a] d m (fun f mode sat l => log2Lane f mode sat (opNum f l 0)) s
/-- g[b] of VSCALE clamped to ±4096 (R289). -/
def scaleN (b : Word) : Int := max (-4096) (min 4096 b.toInt)
/-- VSCALE (R288, R289): an invalid g[b] makes every word invalid with its payload. -/
def execVscale (d a : VNum) (b : GReg) (m : BitVec 3) (s : State) : Result :=
  vectorOp [a] [b] d (fun vals => do
    let v := s.vGet a
    let g := vals.getD 0 .zero
    checkTags [(vfpTag v.tag, v.tag)]
    let f := tagFmt v.tag
    if !g.valid then .ok (vregOf v.tag (List.replicate 16 (poisonedWord g)), [])
    else
      let out := mapLanes (laneCount f) [lanes s.focus.plot f v] fun l =>
        let x := decodeFloat f (l.getD 0 0)
        roundLane f (resolveMode s.cur.fpctl m) (tagSat v.tag) (x.scale (scaleN g.bits), 0)
      .ok (vregOfLanes v.tag (out.map (·.1)), numbered out)) s

/-! ## Integer and bitwise -/

/-- Signed value of a lane. -/
def laneInt (w v : Nat) : Int := if v < 2 ^ (w - 1) then v else (v : Int) - 2 ^ w
/-- A VINT instruction on two v registers (R283, R290). `plain` asks for scale 0. -/
def vintOp (a b d : VNum) (plain : Bool) (f : Nat → Nat → Nat → Nat) (s : State) : Result :=
  vectorOp [a, b] [] d (fun _ => do
    let x := s.vGet a
    let y := s.vGet b
    checkTags [(intTag x.tag && (!plain || tagScale x.tag == 0), x.tag), (intTag y.tag && tagEq x.tag y.tag, y.tag)]
    let fm := tagFmt x.tag
    let out := mapLanes (laneCount fm) [lanes s.focus.plot fm x, lanes s.focus.plot fm y] fun l => (.ok (f fm (l.getD 0 0) (l.getD 1 0)), 0)
    .ok (vregOfLanes x.tag (out.map (·.1)), [])) s
/-- VIADD. -/
def execViadd (d a b : VNum) (s : State) : Result := vintOp a b d false (fun f x y => (x + y) % 2 ^ fmtWidth f) s
/-- VISUB. -/
def execVisub (d a b : VNum) (s : State) : Result := vintOp a b d false (fun f x y => (x + 2 ^ fmtWidth f - y) % 2 ^ fmtWidth f) s
/-- VIMUL. -/
def execVimul (d a b : VNum) (s : State) : Result := vintOp a b d true (fun f x y => (x * y) % 2 ^ fmtWidth f) s
/-- VIMIN: signed, or unsigned for ZINT8. -/
def execVimin (d a b : VNum) (s : State) : Result := vintOp a b d false (fun f x y => if intValue f y < intValue f x then y else x) s
/-- VIMAX. -/
def execVimax (d a b : VNum) (s : State) : Result := vintOp a b d false (fun f x y => if intValue f x < intValue f y then y else x) s
/-- A bitwise instruction over all 512 bits, validity word by word (R283, R290). -/
def vbitOp (a b d : VNum) (f : BitVec 32 → BitVec 32 → BitVec 32) (s : State) : Result :=
  vectorOp [a, b] [] d (fun _ => do
    let x := s.vGet a
    let y := s.vGet b
    checkTags [(!tagMalformed x.tag, x.tag), (!tagMalformed y.tag && tagFmt x.tag == tagFmt y.tag, y.tag)]
    .ok (vregOf x.tag ((List.range 16).map fun m =>
      if !x.ok.getLsbD m then ⟨false, wordPayload x m⟩
      else if !y.ok.getLsbD m then ⟨false, wordPayload y m⟩
      else ⟨true, f (x.bits.extractLsb' (32 * m) 32) (y.bits.extractLsb' (32 * m) 32)⟩), [])) s
/-- VAND. -/
def execVand (d a b : VNum) (s : State) : Result := vbitOp a b d (· &&& ·) s
/-- VOR. -/
def execVor (d a b : VNum) (s : State) : Result := vbitOp a b d (· ||| ·) s
/-- VXOR. -/
def execVxor (d a b : VNum) (s : State) : Result := vbitOp a b d (· ^^^ ·) s
/-- x << n on w bits. -/
def laneShl (w x n : Nat) : Nat := if n < w then x * 2 ^ n % 2 ^ w else 0
/-- x >> n. -/
def laneShr (w x n : Nat) : Nat := if n < w then x / 2 ^ n else 0
/-- x >> n filled with the lane's top bit. -/
def laneSar (w x n : Nat) : Nat := ((laneInt w x / 2 ^ min n (w - 1)) % 2 ^ w).toNat
/-- A shift by a register's lanes (R290). -/
def vshiftR (a b d : VNum) (f : Nat → Nat → Nat → Nat) (s : State) : Result :=
  vectorOp [a, b] [] d (fun _ => do
    let x := s.vGet a
    let y := s.vGet b
    let fm := tagFmt x.tag
    checkTags [(intTag x.tag, x.tag), (maskTag fm y.tag, y.tag)]
    let out := mapLanes (laneCount fm) [lanes s.focus.plot fm x, lanes s.focus.plot (tagFmt y.tag) y] fun l =>
      (.ok (f (fmtWidth fm) (l.getD 0 0) (l.getD 1 0)), 0)
    .ok (vregOfLanes x.tag (out.map (·.1)), [])) s
/-- A shift by an immediate. -/
def vshiftI (a d : VNum) (n : BitVec 6) (f : Nat → Nat → Nat → Nat) (s : State) : Result :=
  vectorOp [a] [] d (fun _ => do
    let x := s.vGet a
    let fm := tagFmt x.tag
    checkTags [(intTag x.tag, x.tag)]
    let out := mapLanes (laneCount fm) [lanes s.focus.plot fm x] fun l => (.ok (f (fmtWidth fm) (l.getD 0 0) n.toNat), 0)
    .ok (vregOfLanes x.tag (out.map (·.1)), [])) s
/-- VSHL by a register. -/
def execVshl (d a b : VNum) (s : State) : Result := vshiftR a b d laneShl s
/-- VSHL by an immediate. -/
def execVshlImm (d a : VNum) (n : BitVec 6) (s : State) : Result := vshiftI a d n laneShl s
/-- VSHR by a register. -/
def execVshr (d a b : VNum) (s : State) : Result := vshiftR a b d laneShr s
/-- VSHR by an immediate. -/
def execVshrImm (d a : VNum) (n : BitVec 6) (s : State) : Result := vshiftI a d n laneShr s
/-- VSAR by a register. -/
def execVsar (d a b : VNum) (s : State) : Result := vshiftR a b d laneSar s
/-- VSAR by an immediate. -/
def execVsarImm (d a : VNum) (n : BitVec 6) (s : State) : Result := vshiftI a d n laneSar s

end Sys2Proof.Machine
end

