-- ==== Sys2Proof/Machine/Route.lean ====
section
/-! DEFINITION. Steering, rings and expert choice: STEER, RING and RACE (R273-R280, R446). -/

namespace Sys2Proof.Machine

/-! ## STEER (R273, R274) -/

/-- Byte `i` of the scratchpad with the validity of its word: an index of a steering queue. -/
def State.steerByte (s : State) (plot off : Nat) : W32 :=
  let w := s.spadWord plot (off / 4 * 4)
  if w.valid then ⟨true, (w.bits.extractLsb' (off % 4 * 8) 8).zeroExtend 32⟩ else w
/-- STEER's indices enter the queue when it has space; earlier STEERs of the port come first. -/
def State.steerMove (s : State) (id : Nat) (w : SWord) (key off n : Nat) : State :=
  let earlier := s.words.any fun e => decide (e.1 < id) && e.2.stage == .running && (match e.2.instr with
    | .steer h _ _ => (match s.wordPort e.2.plot h.port with
      | some (k, _) => k == key
      | none => false)
    | _ => false)
  if earlier || decide (256 < (s.portAt key).steer.length + n) then s
  else
    let s1 := s.modPort key fun p => { p with steer := p.steer ++ (List.range n).map fun i => s.steerByte w.plot (off + i) }
    ((s1.finishing id []).steerFeed key 256).pumpPort key
/-- STEER: started, or carried on. -/
def execSteer (h : SwHdr) (ioff : BitVec 19) (n1 : BitVec 8) (s : State) : Result :=
  asWord (.steer h ioff n1) s <|
  let id := s.focus.word
  match tfind s.words id with
  | none => .next s
  | some w => match s.wordPort w.plot h.port with
    | none => startWord (fun id _ _ s => .yes (s.wordFault id 0x31 0 0)) s
    | some (key, m) =>
      if w.stage == .running then .next (if s.instLive w.plot && s.spadReady w.plot then s.steerMove id w key ioff.toNat (n1.toNat + 1) else s)
      else startWord (fun id w _ s =>
        if m.conn != 4 then .yes (s.wordFault id 0x31 0 0) else .yes (s.steerMove id w key ioff.toNat (n1.toNat + 1))) s

/-! ## RING (R275-R279, R446) -/

/-- The member after a region on its ring: the destination of its route of kind 2. -/
def State.ringNext (s : State) (k : Nat) (r : Region) : Option Nat :=
  ((s.routesOf (k / 256)).find? fun t => t.kind == 2 && t.sreg == r.index).map fun t => regionKey (k / 256) t.dreg
/-- RING member (R276): installed at once. -/
def execRingMember (h : SwHdr) (mask : Word) (w : BitVec 3) (e0 m1 : BitVec 6) (acc : Bool) (s : State) : Result :=
  asWord (.ringMember h mask w e0 m1 acc) s <|
  startWord (fun id wd _ s =>
    match s.regionOf wd.plot with
    | none => .yes (s.wordFault id 0x31 0 0)
    | some (k, r) =>
      if !r.modes.getLsbD 1 then .yes (s.wordFault id 0x30 0 0)
      else .yes ((s.modRegion k fun r =>
        { r with member := some ⟨mask, w, e0.toNat, m1.toNat + 1, acc, wd.plot, wd.slot, wd.ticket⟩ }).finishing id [])) s
/-- The next expert group of a source enters the first member's ring, if that is empty (R277). -/
def State.ringEmit (s : State) (id : Nat) (w : SWord) (k : Nat) (r : Region) (x0 nexp m lines passes : Nat) : State :=
  match w.pats with
  | [] => s
  | a :: _ =>
    let total := passes * nexp
    let busy := s.words.any fun e => decide (e.1 < id) && e.2.stage == .running && (match e.2.instr with
      | .ringSource .. => (s.plotAt e.2.plot).region == some k
      | _ => false)
    if total ≤ w.progress || r.ring != [] || busy || s.regionFrozen k then s
    else
      let ex := w.progress % nexp
      match s.engineRead w.plot w.slot id (w.recSig ((wordRecs w.instr)[0]?)) none (a.srcs w.plot (ex * m * lines * 32) (m * lines * 8)) [] with
      | .wait s1 => s1
      | .fault c v i _ s1 => s1.wordFault id c v i
      | .done ws s1 =>
        let beats := (List.range (m * lines)).map fun i => beatOf ((ws.drop (8 * i)).take 8)
        let g : RingGroup := ⟨id, x0 + ex, m, lines, a.tag, beats, w.progress + 1 == total⟩
        ((s1.dropWalks id false).setWord id { w with progress := w.progress + 1 }).modRegion k fun r => { r with ring := r.ring ++ [g] }
/-- The first member's feed ports are the ring source's own: no route of any kind names them (R446). -/
def State.ringFed (s : State) (k : Nat) (r : Region) (lines : Nat) : Bool :=
  (List.range lines).all fun l => match r.lineMap 1 l with
    | some m => m.conn == 2 && s.routesInto k r m == []
    | none => false
/-- A started source goes on, once the names of its record are translated. -/
def State.ringOn (s : State) (id : Nat) (w : SWord) (rc : BitVec 13) (x0 nexp m lines passes : Nat) : State :=
  s.withNames id w [(rc, false)] (fun s => s) fun w s => match s.regionOf w.plot with
    | some (k, r) => s.ringEmit id w k r x0 nexp m lines passes
    | none => s
/-- RING source (R277): started, or carried on. -/
def execRingSource (h : SwHdr) (rc : BitVec 13) (x0 nexp1 m1 : BitVec 6) (lines1 : BitVec 7) (passes1 : BitVec 8) (s : State) : Result :=
  asWord (.ringSource h rc x0 nexp1 m1 lines1 passes1) s <|
  let id := s.focus.word
  let nexp := nexp1.toNat + 1
  let m := m1.toNat + 1
  let lines := lines1.toNat + 1
  match tfind s.words id with
  | none => .next s
  | some w =>
    if w.stage == .running then .next (if s.instLive w.plot then s.ringOn id w rc x0.toNat nexp m lines (passes1.toNat + 1) else s)
    else startWord (fun id w _ s =>
      match s.regionOf w.plot with
      | none => .yes (s.wordFault id 0x31 0 0)
      | some (k, r) =>
        if !s.ringFed k r lines then .yes (s.wordFault id 0x31 0 0)
        else match s.patternAt w.plot rc with
          | .error c => .yes (s.wordFault id c (recOff rc) 0)
          | .ok a =>
            if tagMalformed a.tag then .yes (s.wordFault id 0x32 (recOff rc) 0)
            else if s.noFp64 (tagFmt a.tag) then .yes (s.wordFault id 0x43 0 0)
            else if a.bytes != nexp * m * lines * 32 then .yes (s.wordFault id 0x30 (recOff rc) 0)
            else .yes ((s.setWord id { w with pats := [a] }).ringOn id { w with pats := [a] } rc x0.toNat nexp m lines (passes1.toNat + 1))) s
/-- Cause for which a member does not multiply a group (R276, R277), by steps 3-5 of R265. A member holds the lines that it has as logical
columns (log 60). -/
def memberCause (r : Region) (mb : Member) (g : RingGroup) : Option (BitVec 8) :=
  match bankTag g.tag (r.wTag mb.w.toNat) with
  | none => some 0x32
  | some t =>
    if mb.m != g.m || r.cols.length < g.lines then some 0x32
    else if mb.acc && (List.range r.rows.length).any fun l => (tget 0xFF r.xid l).toNat == g.id && !tagEq (r.bTag 1 l) t then some 0x32
    else if !entriesOk t mb.e0 mb.m then some 0x30
    else none
/-- The product of a group at a member (R278): only rows whose expert tag is the group's. -/
def Region.ringProduct (r : Region) (mb : Member) (g : RingGroup) : Region :=
  match bankTag g.tag (r.wTag mb.w.toNat), accFmt (tagFmt g.tag) (tagFmt (r.wTag mb.w.toNat)) with
  | some t, some af =>
    let rows := (List.range r.rows.length).filter fun l => (tget 0xFF r.xid l).toNat == g.id
    let r0 := if mb.acc then r else rows.foldl (fun q l => q.setBTag 1 l t) r
    (List.range mb.m).foldl (fun q j => rows.foldl (fun q l =>
      let beats := (List.range g.lines).map fun c => (c, g.beats.getD (j * g.lines + c) (badBeat 0))
      q.putResult 1 l (mb.e0 + j) mb.acc (r.rowSum af (tagFmt g.tag) (tagFmt (r.wTag mb.w.toNat)) mb.w.toNat l beats)) q) r0
  | _, _ => r
/-- The ring stalls at a member behind a WLD to its register (R279). -/
def ringLoads (r : Region) (mb : Member) : Bool := r.mq.any fun y => loadsW y == some mb.w
/-- A group must wait at its member (R257): a token, an ACCZ or a DRN of its entries comes first. -/
def ringHeld (r : Region) (mb : Member) (g : RingGroup) : Bool :=
  let es := entryRange mb.e0 mb.m
  let tagged := match bankTag g.tag (r.wTag mb.w.toNat) with
    | some t => !mb.acc && (List.range r.rows.length).any fun l => r.bTag 1 l != t && (r.mq.any fun y => (List.range 64).any fun e => drnHolds y 1 l e)
    | none => false
  tagged || r.mq.any fun y => tokenAhead 1 y || es.any fun e =>
    acczHolds y 1 e || (List.range r.rows.length).any fun l => drnHolds y 1 l e
/-- The group leaves its member for the next, or, at the last, is discarded and may end its source (R275). -/
def State.ringPass (s : State) (k : Nat) (r : Region) (g : RingGroup) : State :=
  let s1 := s.modRegion k fun r => { r with ring := r.ring.drop 1 }
  match s.ringNext k r with
  | some k2 => s1.modRegion k2 fun r => { r with ring := r.ring ++ [g] }
  | none => if g.last then s1.finishing g.word [] else s1
/-- RING_GROUP_PRODUCT (R278): a group at a member that fails its checks faults the member word's slot and passes unmultiplied (R276, R277);
another is multiplied if the mask names it. It goes on when the next member has room. -/
def execRingGroupProduct (inst region : Nat) (s : State) : Result :=
  let k := regionKey inst region
  match tfind s.regions k with
  | none => .next s
  | some r => match r.ring with
    | [] => .next s
    | g :: _ =>
      let full := match s.ringNext k r with
        | some k2 => (match tfind s.regions k2 with
          | some q => q.ring != []
          | none => false)
        | none => false
      if full || s.regionFrozen k then .next s
      else match r.member with
        | none => .next (s.ringPass k r g)
        | some mb =>
          if ringLoads r mb then .next s
          else match memberCause r mb g with
            | some c => .next ((s.pendWord mb.plot mb.slot mb.word .word c 0 0).ringPass k r g)
            | none =>
              if !mb.mask.getLsbD g.id then .next (s.ringPass k r g)
              else if ringHeld r mb g then .next s
              else .next (((s.modRegion k fun r => r.ringProduct mb g).ringPass k r g).pump k)

/-! ## RACE (R280) -/

/-- Score `x` ranks before `y`, the earlier expert first on a tie. -/
def raceBefore (x y : Num) : Bool := if x.isNaN then false else y.isNaN || ltNum false y x
/-- An expert put in rank order behind those that are not after it. -/
def raceInsert (e : Nat × Num) : List (Nat × Num) → List (Nat × Num)
  | [] => [e]
  | f :: t => if raceBefore e.2 f.2 then e :: f :: t else f :: raceInsert e t
/-- Bits of an FP32 value rounded to nearest even. -/
def fp32Of (x : Num) : Nat := (encodeFloat 2 0 false x).1
/-- Winners of a token with their output words; or all words of a payload. -/
def raceToken (scores : List W32) (k : Nat) : List Nat × List (W32 × W32) :=
  match scores.find? (!·.valid) with
  | some w => ([], List.replicate k (⟨false, normPayload w.bits⟩, ⟨false, normPayload w.bits⟩))
  | none =>
    let ranked := scores.zipIdx.foldl (fun l e => raceInsert (e.2, decodeFloat 2 e.1.bits.toNat) l) []
    let win := ranked.take k
    let sum := win.foldl (fun b e => fp32Of (addNum 0 (decodeFloat 2 b) e.2).1) 0
    let z := (decodeFloat 2 sum).isZero
    let share (x : Num) : Nat := (laneNat32 (if z then divLane 2 0 false (.fin false 1 0) (.fin false k 0) else divLane 2 0 false x (decodeFloat 2 sum)))
    (win.map (·.1), win.map fun e => (⟨true, BitVec.ofNat 32 (e.1 + if z then 256 else 0)⟩, ⟨true, BitVec.ofNat 32 (share e.2)⟩))
where
  /-- Bits of a lane. -/
  laneNat32 (r : Lane × Flags) : Nat := match r.1 with
    | .ok b => b
    | .bad _ => 0
/-- Words written in order up to the first beyond the scratchpad, which faults the word (R178, R228): the word's fault, or the state after the writes. -/
def State.raceStore (s : State) (id plot : Nat) : List (Nat × W32) → Except State State
  | [] => .ok s
  | (off, w) :: t =>
    if decide (off < 0x80000) && s.backed (plotBase plot + off) then (s.engineWrite (plotBase plot + off) w).raceStore id plot t
    else .error (s.wordFault id 0x0A (spadVa plot off) 0)
/-- Tokens of `e` scores in turn, each read after the outputs of those before it (R280), with the winners so far. -/
def State.raceTokens (s : State) (id plot soff ooff e k : Nat) : (toks : List Nat) → (wins : List Nat) → Except State (List Nat × State)
  | [], wins => .ok (wins, s)
  | i :: t, wins =>
    let r := raceToken (s.spadWords plot (soff + 4 * e * i) e) k
    match s.raceStore id plot (r.2.zipIdx.flatMap fun q => [(ooff + 8 * (i * k + q.2), q.1.1), (ooff + 8 * (i * k + q.2) + 4, q.1.2)]) with
    | .error s1 => .error s1
    | .ok s1 => s1.raceTokens id plot soff ooff e k t (wins ++ r.1)
/-- RACE on the issuing plot's engine: the tokens, then the counts of winners (R280). -/
def State.race (s : State) (id plot soff ntok ooff e k coff : Nat) (wcnt : Bool) : State :=
  match s.raceTokens id plot soff ooff e k (List.range ntok) [] with
  | .error s1 => s1
  | .ok (wins, s1) =>
    match s1.raceStore id plot (if wcnt then (List.range e).map fun x => (coff + 4 * x, W32.ofBits (BitVec.ofNat 32 (wins.count x))) else []) with
    | .error s2 => s2
    | .ok s2 => s2.finishing id []
/-- RACE (R280). -/
def execRace (h : SwHdr) (soff : BitVec 19) (t1 : BitVec 13) (ooff : BitVec 19) (e1 : BitVec 6) (k1 : BitVec 3) (coff : BitVec 19)
    (wcnt : Bool) (s : State) : Result :=
  asWord (.race h soff t1 ooff e1 k1 coff wcnt) s <|
  startWord (fun id w _ s =>
    .yes (s.race id w.plot soff.toNat (t1.toNat + 1) ooff.toNat (e1.toNat + 1) (k1.toNat + 1) coff.toNat wcnt)) s

end Sys2Proof.Machine
end

