-- ==== Sys2Proof/Machine/Ports.lean ====
section
/-! DEFINITION. What ports and channels do by themselves: bindings moving beats (R214, R215, R219-R222, R228) and channel beats
arriving (R144, R145, R273). -/

namespace Sys2Proof.Machine

/-- The number under which a port's binding asks for translations. -/
def portTicket (key : Nat) : Nat := 10 ^ 12 + key
/-- The words that end a binding complete (R219). -/
def State.endUnbind (s : State) (b : Binding) : State := b.unbind.foldl (fun s id => s.finishing id []) s
/-- The binding's trap in its issuing slot, `idx` being what `faultInfo` reads; a launch's binding raises none (R380). -/
def State.bindTrap (s : State) (b : Binding) (cause : BitVec 8) (tval : Word) (idx : Nat) : State :=
  match b.slot with
  | some k => s.pendWord b.plot k b.ticket .word cause tval (faultInfo idx)
  | none => s
/-- The binding of a port changed. -/
def State.setBinding (s : State) (key : Nat) (b : Binding) : State := s.modPort key fun p => { p with bind := some b }

/-! ## Read bindings -/

/-- A beat of a read binding enters the edge buffer. -/
def State.pushBeat (s : State) (key : Nat) (b : Binding) (ws : List W32) : State :=
  (s.setBinding key { b with cur := [], words := b.words + 8 }).bufAdd key (beatOf ws)
/-- The EOS word leaves and the binding ends (R214, R219). -/
def State.pushEos (s : State) (key : Nat) (b : Binding) : State :=
  let s1 := (s.dropWalks (portTicket key) true).bufAdd key (beatOf (b.cur ++ eosWords (tagFmt b.tag) (key / 16) (b.words + b.cur.length)))
  ((s1.modPort key fun p => { p with bind := none, past := p.past ++ [b.pat] }).endUnbind b).postEnd b.plot b.arc
/-- A beat of POISON_MEM words enters the edge buffer (R228). -/
def State.pushPoison (s : State) (key : Nat) (b : Binding) : State :=
  s.pushBeat key { b with discard := true, arc := 0 }
    ((List.range 8).map fun j => ⟨false, payloadBits 3 (key / 16) (ordinalAt (tagFmt b.tag) (b.words + j))⟩)
/-- A read binding goes on: words join its beat, at most `n` records in turn; a full beat enters the buffer. -/
def State.readBeat (s : State) (key : Nat) (b : Binding) : (n : Nat) → State
  | 0 => s.setBinding key b
  | n + 1 =>
    let k := min (8 - b.cur.length) ((b.pat.bytes - b.pos) / 4)
    if k = 0 then
      match b.phases with
      | (g, p) :: t => if b.unbind != [] then s.pushEos key b
        else (s.modPort key fun q => { q with past := q.past ++ [b.pat] }).readBeat key { b with pat := p, pos := 0, sig := g, phases := t } n
      | [] => if b.hold && b.unbind == [] then s.setBinding key b else s.pushEos key b
    else match s.engineRead (key / 16) (b.slot.getD 0) (portTicket key) b.sig none (b.pat.srcs (key / 16) b.pos k) [] with
      | .wait s1 => s1.setBinding key b
      | .fault c v i ws s1 =>
        let got := b.cur ++ ws
        let bad := (List.range (8 - got.length)).map fun j => (⟨false, payloadBits 3 (key / 16) (ordinalAt (tagFmt b.tag) (b.words + got.length + j))⟩ : W32)
        ((s1.dropWalks (portTicket key) true).bindTrap b c v i).pushBeat key { b with discard := true, arc := 0 } (got ++ bad)
      | .done ws s1 =>
        let b' := { b with cur := b.cur ++ ws, pos := b.pos + 4 * k }
        let s2 := s1.dropWalks (portTicket key) false
        if b'.cur.length = 8 then s2.pushBeat key b' b'.cur else s2.readBeat key b' n
/-- BINDR_BEAT (R214, R220, R222, R228): the next beat enters the edge buffer when that has space and nothing is frozen; an UNBIND takes effect
at a beat boundary. -/
def execBindrBeat (plot : BitVec 13) (port : BitVec 4) (s : State) : Result :=
  let key := 16 * plot.toNat + port.toNat
  match (s.portAt key).bind with
  | none => .next s
  | some b =>
    if !b.read || 16 ≤ (s.portAt key).buf.length || s.portFrozen key || !s.instRuns plot.toNat then .next s
    else if b.discard && b.words == 0 then .next ((s.pushPoison key b).pumpPort key)
    else if b.discard || (b.unbind != [] && b.cur == []) then .next ((s.pushEos key b).pumpPort key)
    else .next ((s.readBeat key b 8).pumpPort key)

/-! ## Write bindings -/

/-- The beats behind an EOS are discarded, those in the buffer and those still to come (R445). -/
def State.closePort (s : State) (key : Nat) : State :=
  (s.modPort key fun p => { p with buf := [], closed := true }).beatsLeft key (s.portAt key).buf.length
/-- The binding has taken its EOS and ends; its arc and its completion record wait for its writes (R219, R222). -/
def State.endWrite (s : State) (key : Nat) (b : Binding) : State :=
  ((s.dropWalks (portTicket key) true).modPort key fun p => { p with bind := none, ending := p.ending ++ [{ b with cur := [] }] }).endUnbind b
/-- Every write of an ended binding has performed: it posts its arc (R219); a sink tells its command what it wrote (R381, R385). -/
def State.settleWrite (s : State) (b : Binding) : State :=
  let s1 := s.postEnd b.plot b.arc
  match b.cmd with
  | some c => if !b.sink then s1 else match tfind s1.cmds c with
    | some x => { s1 with cmds := tset s1.cmds c { x with ready := true, elems := elemsOfWords (tagFmt b.tag) b.data, bad := b.bad } }
    | none => s1
  | none => s1
/-- The ended bindings of a port whose writes have performed. -/
def State.settlePort (s : State) (key : Nat) : State :=
  let settled (b : Binding) : Bool := b.outs.all s.outDone
  ((s.portAt key).ending.filter settled).foldl State.settleWrite (s.modPort key fun p => { p with ending := p.ending.filter fun b => !settled b })
/-- An invalid word other than MASKED. -/
def isBad (w : W32) : Bool := !w.valid && w.bits.extractLsb' 0 8 != 0
/-- Writes of a binding counted: those under way, and the words written (R385). -/
def Binding.wrote (b : Binding) (o : List Nat × List W32) : Binding :=
  { b with outs := b.outs ++ o.1, data := b.data + o.2.length, bad := b.bad + o.2.countP isBad }
/-- A write binding takes the words of its beat, in at most `n` parts (R215). -/
def State.writeBeat (s : State) (key : Nat) (b : Binding) : (n : Nat) → State
  | 0 => s.setBinding key b
  | n + 1 => match b.cur with
    | [] => s.setBinding key b
    | w :: t =>
      if isEos w then ((s.closePort key).endWrite key b).settlePort key
      else if b.discard then s.writeBeat key { b with cur := t } n
      else
        let room := (b.pat.bytes - b.pos) / 4
        if room = 0 then
          match b.phases with
          | (g, p) :: ps => s.writeBeat key { b with pat := p, pos := 0, sig := g, phases := ps } n
          | [] => if b.unbind != [] then s.writeBeat key { b with discard := true } n else s.setBinding key b
        else
          let ws := (b.cur.take room).takeWhile (!isEos ·)
          match s.engineStore (key / 16) (b.slot.getD 0) (portTicket key) b.sig ((b.pat.srcs (key / 16) b.pos ws.length).zip ws) with
          | .wait s1 => s1.setBinding key b
          | .fault c v i o s1 => ((s1.dropWalks (portTicket key) true).bindTrap b c v i).writeBeat key
              { b.wrote o with discard := true, arc := 0 } n
          | .done o s1 => (s1.dropWalks (portTicket key) false).writeBeat key
              { b.wrote o with cur := b.cur.drop ws.length, pos := b.pos + 4 * ws.length } n
/-- BINDW_BEAT (R215, R219, R222, R228): what writes of ended bindings have performed is settled; then the binding takes the oldest beat of
its port, or goes on with the one it holds. -/
def execBindwBeat (plot : BitVec 13) (port : BitVec 4) (s : State) : Result :=
  let key := 16 * plot.toNat + port.toNat
  let s := if s.instRuns plot.toNat then s.settlePort key else s
  match (s.portAt key).bind with
  | none => .next s
  | some b =>
    if b.read || s.portFrozen key || !s.instRuns plot.toNat || s.engineStalls (portTicket key) then .next s
    else if b.cur != [] then .next (s.writeBeat key b 24)
    else match (s.portAt key).buf with
      | [] => .next s
      | beat :: _ => .next (((s.bufPop key).writeBeat key { b with cur := beatWords beat, words := b.words + 8 } 24).pumpPort key)

/-! ## Channels -/

/-- A destination can take a beat from a source: room, no freeze, and at an index switch the next index names the source. -/
def State.canTake (s : State) (src dst : Nat) : Bool :=
  let p := s.portAt dst
  decide (p.buf.length < 16) && !s.portFrozen dst && (match s.portMap dst with
    | some m => m.conn != 4 || (match p.steer with
      | w :: _ => let q := steerIndex w (s.routeSrcs dst).length 0 0
        q.2.isNone && (s.routeSrcs dst)[q.1]? == some src
      | [] => false)
    | none => false)
/-- Source and destination ports of the lanes of the channel that joins two ports (R144). -/
def State.channelLanes (s : State) (src dst : Nat) : List (Nat × Nat) :=
  match s.regionOf (src / 16), s.portMap src with
  | some (k, r), some m => match (s.routesOf (k / 256)).find? fun t => t.sreg == r.index && t.kind != 2 && laneOf t.sidx t.sport t.lanes m.idx m.port
      && routeDst s (k / 256) t (edgePos m.idx m.port) == some dst with
    | some t => (List.range (t.lanes + 1)).filterMap fun i =>
        let pos := edgePos t.sidx t.sport + i
        (routeDst s (k / 256) t pos).map fun d => (r.portKey (pos / 4) (t.sport / 4 * 4 + pos % 4), d)
    | none => []
  | _, _ => []
/-- Another lane of the channel has no credit and stalls this one, unless it is ahead by what it has moved (R144, log 103). -/
def State.laneStalls (s : State) (src dst : Nat) : Bool :=
  (s.channelLanes src dst).any fun l => l.1 != src && decide (16 ≤ (s.portAt l.2).buf.length) && decide ((s.portAt l.1).moved ≤ (s.portAt src).moved)
/-- A beat enters a destination's buffer; an index switch takes its index (R273). -/
def State.takeIn (s : State) (dst : Nat) (b : Beat) : State :=
  let s1 := s.bufAdd dst b
  match s.portMap dst with
  | some m => if m.conn = 4 then (s1.modPort dst fun p => { p with steer := p.steer.drop 1, passed := p.passed + 8 }).steerFeed dst 256 else s1
  | none => s1
/-- MCST has sent everything, and every leaf has it (R219). -/
def State.mcstDone (s : State) (id : Nat) : State :=
  match tfind s.words id with
  | some w => match w.instr, w.pats with
    | .mcst _ _ _ eos _, a :: _ =>
      if mcstEnd a.bytes eos ≤ w.progress && !(s.chans.any fun c => c.2.word == some id) then s.finishing id [] else s
    | _, _ => s
  | none => s
/-- CHANNEL_BEAT_ARRIVE (R144, R145): the oldest beat of a source reaches every destination when all have room, and every lane has credit. -/
def execChannelBeatArrive (id : Nat) (s : State) : Result :=
  match tfind s.chans id with
  | none => .next s
  | some c =>
    let first := s.chans.all fun e => decide (id ≤ e.1) || e.2.src != c.src
    if !first || s.portFrozen c.src || !c.dsts.all (fun d => s.canTake c.src d && !s.laneStalls c.src d) then .next s
    else
      let b := match c.beat with
        | some b => b
        | none => (s.portAt c.src).buf.headD (badBeat 0)
      let s1 := { s with chans := tdel s.chans id }.modPort c.src fun p => { p with moved := p.moved + 1 }
      let s2 := if c.beat.isNone then s1.bufPop c.src else s1
      let s3 := c.dsts.foldl (fun s d => s.takeIn d b) s2
      let s4 := match c.word with
        | some w => s3.mcstDone w
        | none => s3
      .next (c.dsts.foldl (fun s d => s.pumpPort d) (s4.pumpPort c.src))

end Sys2Proof.Machine
end

