-- ==== Sys2Proof/Machine/Image.lean ====
section
/-! DEFINITION. Image containers (R233-R244, R342, R343, R347, R354, R446): reading their records, their checks, defect maps and
signatures, variants. -/

namespace Sys2Proof.Machine

/-! ## Defect maps (R239) -/

/-- Bytes of a quadword, little-endian. -/
def quadBytes (q : Word) : List Byte := (List.range 8).map fun i => q.extractLsb' (8 * i) 8
/-- Bytes of a defect map record. -/
def defectBytes (die : Nat) (l : List (BitVec 32)) : List Byte :=
  quadBytes (BitVec.ofNat 64 (l.length * 2 ^ 32 + 256 + die)) ++ quadBytes 0
    ++ l.flatMap fun e => (List.range 4).map fun i => e.extractLsb' (8 * i) 8
/-- A signature: the last eight bytes of SHA-384 over the record, big-endian. -/
def defectSig (die : Nat) (l : List (BitVec 32)) : Word := (sha384 (defectBytes die l)).extractLsb' 0 64
/-- The signature of a die. -/
def State.dieSig (s : State) (d : Nat) : Word := defectSig d (s.dieAt d).defects
/-- The coarse signature of a die: without entries of kind 1. -/
def State.coarseSig (s : State) (d : Nat) : Word := defectSig d ((s.dieAt d).defects.filter fun e => e.extractLsb' 28 4 != 1)
/-- The entry marks cell (row, col) of its die. -/
def cellDefect (e : BitVec 32) (row col : Nat → Bool) : Bool :=
  e.extractLsb' 28 4 == 1 && row (e.extractLsb' 8 8).toNat && col (e.extractLsb' 0 8).toNat
/-- The map marks a cell plot of its die defective. -/
def plotDefect (l : List (BitVec 32)) (n : Nat) : Bool := l.any fun e => e.extractLsb' 28 4 == 2 && (e.extractLsb' 0 10).toNat == n

/-! ## Records -/

/-- A region record (R242). -/
structure RegionRec where
  recIdx : Nat
  index : Nat
  die : Nat
  y0 : Nat
  x0 : Nat
  w : Nat
  h : Nat
  modes : BitVec 3
  l1 : Nat
  discard : Bool
  east : BitVec 16
  south : BitVec 16
  north : BitVec 16
  west : BitVec 16
  minRows : Nat
  minCols : Nat
  crc : BitVec 32
  quads : List Word
  deriving DecidableEq, Repr
/-- An actor record with its rates (R342, R343). -/
structure ActorRec where
  recIdx : Nat
  index : Nat
  actor : Actor
  deriving DecidableEq, Repr
/-- A guidon record (R347). -/
structure GuidonRec where
  recIdx : Nat
  index : Nat
  guidon : Guidon
  deriving DecidableEq, Repr
/-- A trigger record (R354). -/
structure TriggerRec where
  recIdx : Nat
  plot : Nat
  entry : Nat
  trigger : Trigger
  deriving DecidableEq, Repr
/-- A variant with its records. -/
structure Variant where
  idx : Nat
  dies : BitVec 8
  adapt : Bool
  sigs : List Word
  csigs : List Word
  recs : List (List Word)
  regions : List RegionRec
  routes : List (Route × List Word)
  ports : List (PortMap × List Word)
  actors : List ActorRec
  guidons : List GuidonRec
  triggers : List TriggerRec
  deriving DecidableEq, Repr
/-- A container. -/
structure Container where
  id : Word
  signed : Bool
  body : List Byte
  sig : Nat × Nat
  variants : List Variant
  deriving DecidableEq, Repr

/-- Quadword `i` of a record. -/
def rq (l : List Word) (i : Nat) : Word := l.getD i 0
/-- Quadwords `i` to `j` of a record are zero. -/
def zeroQ (l : List Word) (i j : Nat) : Bool := (List.range (j + 1 - i)).all fun k => rq l (i + k) == 0

/-- The region record of a list of quadwords. -/
def regionRec (i : Nat) (l : List Word) : RegionRec :=
  let q := rq l 0
  let e := rq l 1
  ⟨i, uAt q 8 8, uAt q 31 3, uAt q 34 5, uAt q 39 5, uAt q 44 4 + 1, uAt q 48 4 + 1, q.extractLsb' 53 3, uAt q 56 4, q.getLsbD 52,
    e.extractLsb' 48 16, e.extractLsb' 32 16, e.extractLsb' 16 16, e.extractLsb' 0 16, uAt (rq l 2) 0 8, uAt (rq l 2) 8 8,
    (rq l 7).extractLsb' 0 32, l⟩
/-- Plots of a region record on its die, as plot numbers. -/
def RegionRec.plots (r : RegionRec) : List Nat :=
  (List.range r.h).flatMap fun i => (regionCols r.x0 r.w).map fun x => r.die * 1024 + (r.y0 + i) * 32 + x
/-- A region record keeps R233 and R242. -/
def RegionRec.ok (r : RegionRec) : Bool :=
  let l := r.quads
  uAt (rq l 0) 16 15 == 0 && uAt (rq l 0) 60 4 == 0 && uAt (rq l 2) 16 48 == 0 && zeroQ l 3 6 && uAt (rq l 7) 32 32 == 0
    && r.x0 % 8 != 7 && decide (r.y0 + r.h ≤ 32) && (regionCols r.x0 r.w).length == r.w && decide (r.l1 ≤ 8)
    && decide (1 ≤ r.minRows) && decide (r.minRows ≤ 128) && decide (1 ≤ r.minCols) && decide (r.minCols ≤ 128)
/-- Bytes of segments before the end byte. -/
def segsOf (l : List Word) : List (BitVec 8) := ((quadBytes (rq l 1)) ++ quadBytes (rq l 2)).takeWhile fun b => b.extractLsb' 6 2 != 3
/-- A segment's track number exists (R142). -/
def segOk (b : BitVec 8) : Bool := decide (uAt (b.zeroExtend 64) 0 4 < (match (b.extractLsb' 6 2).toNat with
  | 0 => 8
  | 1 => 4
  | _ => 2))
/-- The route record of a list of quadwords. -/
def routeRec (i : Nat) (l : List Word) : Route :=
  let q := rq l 0
  { sreg := uAt q 8 8, sport := uAt q 16 4, sidx := uAt q 20 4, dreg := uAt q 24 8, dport := uAt q 32 4, didx := uAt q 36 4,
    lanes := uAt q 40 7, kind := uAt q 48 3, lat := uAt q 56 8, segs := segsOf l, recIdx := i }
/-- Length of the edge of a port of a region record. -/
def RegionRec.edgeLen (r : RegionRec) (port : Nat) : Nat := if rowSide port then r.h else r.w
/-- A route record keeps R242 and R275, its regions among those of its variant; where its segments lead is not looked at (log 119). -/
def routeOk (regions : List RegionRec) (l : List Word) (t : Route) : Bool :=
  let q := rq l 0
  let all := quadBytes (rq l 1) ++ quadBytes (rq l 2)
  let tail := all.drop t.segs.length
  !q.getLsbD 47 && uAt q 51 5 == 0 && zeroQ l 3 7 && decide (t.kind ≤ 2) && decide (t.lanes ≤ 63) && decide (8 ≤ t.sport) && decide (t.dport < 8)
    && t.segs.all segOk && (tail.drop 1).all (· == 0)
    && (t.kind != 2 || (t.sport / 4 == 2 && t.dport / 4 == 1))
    && (match regions.find? (·.index == t.sreg), regions.find? (·.index == t.dreg) with
      | some a, some b => decide (edgePos t.sidx t.sport + t.lanes < 4 * a.edgeLen t.sport) && decide (edgePos t.didx t.dport + t.lanes < 4 * b.edgeLen t.dport)
      | _, _ => false)
/-- The port-map record of a list of quadwords. -/
def portRec (i : Nat) (l : List Word) : PortMap :=
  let q := rq l 0
  let e := rq l 1
  { region := uAt q 8 8, idx := uAt q 16 4, port := uAt q 20 4, conn := uAt q 24 3, tag := q.extractLsb' 32 16,
    line0 := uAt e 0 8, dly0 := uAt e 8 8, line1 := uAt e 16 8, dly1 := uAt e 24 8, recIdx := i }
/-- A route names the port as destination. -/
def routeInto (t : Route) (m : PortMap) : Bool := t.dreg == m.region && laneOf t.didx t.dport t.lanes m.idx m.port
/-- A region may be the first member of a ring: no ring route leads into it (R275, R446). -/
def ringFirst (routes : List Route) (region : Nat) : Bool := routes.all fun t => t.kind != 2 || t.dreg != region
/-- Leaves of a multicast root: the routes from its port (R145). -/
def leavesOf (routes : List Route) (m : PortMap) : Nat := (routes.filter fun t => t.sreg == m.region && laneOf t.sidx t.sport t.lanes m.idx m.port).length
/-- A port-map record keeps R145, R242 and R446. -/
def portOk (regions : List RegionRec) (routes : List Route) (l : List Word) (m : PortMap) : Bool :=
  let lineOk (n : Nat) := decide (n ≤ 127) || n == 0xFF
  uAt (rq l 0) 27 5 == 0 && uAt (rq l 0) 48 16 == 0 && uAt (rq l 1) 32 32 == 0 && zeroQ l 2 7 && decide (m.conn ≤ 4)
    && lineOk m.line0 && lineOk m.line1
    && (match regions.find? (·.index == m.region) with
      | some r => decide (m.idx < r.edgeLen m.port)
        && (m.conn != 2 || 8 ≤ m.port || routes.any (routeInto · m) || (m.port / 4 == 1 && r.modes.getLsbD 1 && ringFirst routes m.region))
        && (m.conn != 3 || decide (leavesOf routes m ≤ 16))
      | none => false)
/-- A rate's four entries: beats and port, for used entries. -/
def ratesOf (q : Word) : List (Nat × Nat) :=
  (List.range 4).filterMap fun k => let e := q >>> (16 * k)
    if uAt e 8 5 = 0 then none else some (uAt e 8 5, uAt e 0 8)
/-- The entries keep R343. -/
def ratesOk (q : Word) (drain : Bool) : Bool :=
  (List.range 4).all fun k => let e := q >>> (16 * k)
    uAt e 13 3 == 0 && decide (uAt e 8 5 ≤ 16) && (uAt e 8 5 == 0 || (decide (8 ≤ uAt e 0 4) == drain))
/-- The actor record of a list of quadwords, with its rates record if it has one. -/
def actorRec (i : Nat) (l : List Word) (rates : Option (List Word)) : ActorRec :=
  let q := rq l 0
  let r := rates.getD []
  let a : Actor :=
    { plot := uAt q 24 13, slot := uAt q 37 3, cls := q.extractLsb' 40 2, region := uAt q 16 8, entry := rq l 1, args := rq l 2,
      parent := uAt (rq l 3) 0 8, ins := ratesOf (rq r 1), outs := ratesOf (rq r 2), trig := (rq r 3).getLsbD 0 }
  ⟨i, uAt q 8 8, a⟩
/-- An actor record keeps its layout (R342). -/
def actorOk (l : List Word) : Bool :=
  uAt (rq l 0) 42 22 == 0 && uAt (rq l 0) 8 8 != 255 && isCellPlot (uAt (rq l 0) 24 13) && uAt (rq l 1) 0 2 == 0 && uAt (rq l 2) 0 3 == 0
    && uAt (rq l 3) 8 56 == 0 && zeroQ l 4 7
/-- A rates record keeps its layout and follows its actor record (R343). -/
def ratesRecOk (prev : Option (List Word)) (l : List Word) : Bool :=
  uAt (rq l 0) 16 48 == 0 && ratesOk (rq l 1) false && ratesOk (rq l 2) true && uAt (rq l 3) 1 63 == 0 && zeroQ l 4 7
    && (match prev with
      | some p => uAt (rq p 0) 0 8 == 4 && uAt (rq p 0) 8 8 == uAt (rq l 0) 8 8
      | none => false)
/-- Child entries of a guidon record. -/
def childWords (l : List Word) : List (BitVec 16) := (List.range 16).map fun k => (rq l (2 + k / 4)).extractLsb' (16 * (k % 4)) 16
/-- Used bytes of a term. -/
def termOf (q : Word) (lo : Nat) : List Nat := ((List.range 4).map fun k => uAt q (lo + 8 * k) 8).filter (· != 255)
/-- The guidon record of a list of quadwords. -/
def guidonRec (i : Nat) (l : List Word) : GuidonRec :=
  let q := rq l 0
  let ch := ((childWords l).takeWhile (· != 0xFFFF)).map fun c => (c.getLsbD 15, (c.extractLsb' 0 8).toNat)
  let ev := uAt q 16 3 == 4
  let zero := List.replicate ch.length 0
  let g : Guidon :=
    { plot := uAt q 32 13, node := uAt q 45 2, kind := uAt q 16 3, parent := uAt q 24 8, depth := uAt q 48 8, trip := uAt (rq l 1) 0 32,
      stop := uAt (rq l 1) 32 8, children := ch, mask := (rq l 6).extractLsb' 0 16, threshold := (rq l 6).extractLsb' 0 32,
      term0 := if ev then termOf (rq l 7) 0 else [], term1 := if ev then termOf (rq l 7) 32 else [], running := 0, active := false, sentP := zero,
      doneD := zero, stopped := false, count := 0, raises := 0, evq := [], gen := 0, arrived := 0, skipped := 0, deadline := none, seen := [] }
  ⟨i, uAt q 8 8, g⟩
/-- A guidon record keeps its layout (R347). -/
def guidonOk (l : List Word) : Bool :=
  let q := rq l 0
  let g := (guidonRec 0 l).guidon
  let ch := childWords l
  uAt q 19 5 == 0 && uAt q 47 1 == 0 && uAt q 56 8 == 0 && uAt q 8 8 != 255 && decide (g.kind ≤ 4) && uAt (rq l 1) 40 24 == 0 && isCellPlot g.plot
    && (if g.kind = 1 then g.depth != 0 else g.depth == 0) && (g.kind < 3 || g.parent == 255)
    && (ch.drop g.children.length).all (· == 0xFFFF) && (ch.take g.children.length).all (fun c => c.extractLsb' 8 7 == 0)
    && uAt (rq l 6) 32 32 == 0
    && (match g.kind with
      | 4 => g.threshold != 0 && g.children == []
      | 3 => uAt (rq l 6) 16 16 == 0 && g.children.all (!·.1)
      | _ => true)
/-- The trigger record of a list of quadwords. -/
def triggerRec (i : Nat) (l : List Word) : TriggerRec :=
  let q := rq l 0
  let e := rq l 1
  let g : Trigger :=
    { inst := 0, kind := q.extractLsb' 32 2, off := e.extractLsb' 0 19, threshold := e.extractLsb' 16 16, ctr := e.extractLsb' 0 4,
      event := e.extractLsb' 0 8, handler := if q.getLsbD 34 then some (q.extractLsb' 35 3) else none, pending := 0 }
  ⟨i, uAt q 16 13, uAt q 8 5, g⟩
/-- A trigger record keeps its layout (R354). -/
def triggerOk (l : List Word) : Bool :=
  let q := rq l 0
  let e := rq l 1
  uAt q 13 3 == 0 && uAt q 29 3 == 0 && uAt q 38 26 == 0 && uAt q 32 2 != 3 && isCellPlot (uAt q 16 13) && zeroQ l 2 7
    && (match uAt q 32 2 with
      | 0 => uAt e 0 4 == 0 && uAt e 19 45 == 0
      | 1 => uAt e 4 12 == 0 && uAt e 32 32 == 0 && uAt e 16 16 != 0
      | _ => uAt e 8 56 == 0)
/-- A record keeps the rules of its own type; types beyond 7 and 0 keep none. Two regions of one variant share neither plots (R233) nor an
index (log 47). -/
def recOk (regions : List RegionRec) (routes : List Route) (prev : Option (List Word)) (i : Nat) (l : List Word) : Bool :=
  match uAt (rq l 0) 0 8 with
  | 1 => (regionRec i l).ok && (regions.all fun r => r.recIdx == i || (r.index != (regionRec i l).index && !(r.plots.any ((regionRec i l).plots.contains ·))))
  | 2 => routeOk regions l (routeRec i l)
  | 3 => portOk regions routes l (portRec i l)
  | 4 => actorOk l
  | 5 => ratesRecOk prev l
  | 6 => guidonOk l
  | 7 => triggerOk l
  | _ => false

/-! ## Containers (R240) -/

/-- Records numbered. -/
def numbered0 {α : Type} (l : List α) : List (Nat × α) := (List.range l.length).zip l
/-- Records of a type, numbered. -/
def recsOf (t : Nat) (l : List (List Word)) : List (Nat × List Word) := (numbered0 l).filter fun e => uAt (rq e.2 0) 0 8 == t
/-- Variant `v` of a container's quadwords, from records of 8 quadwords each. -/
def variantOf (qs : List Word) (v : Nat) : Variant :=
  let e := (qs.drop (8 + 24 * v)).take 24
  let recs := (List.range (uAt (rq e 1) 0 32)).map fun i => (qs.drop (uAt (rq e 0) 32 32 / 8 + 8 * i)).take 8
  { idx := v, dies := (rq e 0).extractLsb' 0 8, adapt := (rq e 0).getLsbD 8, sigs := (e.drop 2).take 8, csigs := (e.drop 10).take 8, recs,
    regions := (recsOf 1 recs).map fun r => regionRec r.1 r.2, routes := (recsOf 2 recs).map fun r => (routeRec r.1 r.2, r.2),
    ports := (recsOf 3 recs).map fun r => (portRec r.1 r.2, r.2),
    actors := (recsOf 4 recs).map fun r => actorRec r.1 r.2 (match recs[r.1 + 1]? with
      | some n => if uAt (rq n 0) 0 8 = 5 then some n else none
      | none => none),
    guidons := (recsOf 6 recs).map fun r => guidonRec r.1 r.2, triggers := (recsOf 7 recs).map fun r => triggerRec r.1 r.2 }
/-- A variant entry keeps R240; `limit` is where its records must end, in a signed container the signature (log 118). -/
def variantEntryOk (e : List Word) (limit : Nat) : Bool :=
  uAt (rq e 0) 9 23 == 0 && uAt (rq e 0) 32 6 == 0 && uAt (rq e 1) 32 32 == 0 && decide (uAt (rq e 0) 32 32 + 64 * uAt (rq e 1) 0 32 ≤ limit)
    && zeroQ e 18 23 && (List.range 8).all fun d => (rq e 0).getLsbD d || (rq e (2 + d) == 0 && rq e (10 + d) == 0)
/-- The first eight quadwords begin a container of this version, of a length that is one (R240). -/
def isContainer (q : List Word) : Bool :=
  uAt (rq q 0) 0 32 == 0x4C5A5849 && uAt (rq q 0) 32 16 == 1 && uAt (rq q 1) 0 32 % 64 == 0 && decide (64 ≤ uAt (rq q 1) 0 32)
/-- Length of a container whose first eight quadwords are given: none when the header already breaks R240. -/
def headerLength (q : List Word) : Option Nat :=
  let len := uAt (rq q 1) 0 32
  let nvar := uAt (rq q 3) 0 8
  if isContainer q ∧ uAt (rq q 0) 49 15 = 0 ∧ 1 ≤ nvar ∧ nvar ≤ 16 ∧ 64 + 192 * nvar ≤ len
  then some len else none
/-- The container of its quadwords, or the index of the record that breaks R233, R240-R243 or R446. -/
def parseContainer (qs : List Word) : Except Nat Container :=
  let len := 8 * qs.length
  let nvar := uAt (rq qs 3) 0 8
  let signed := (rq qs 0).getLsbD 48
  let sigoff := uAt (rq qs 3) 8 32
  let limit := if signed then sigoff else len
  let bytes := qs.flatMap quadBytes
  let body := bytes.take limit
  let crcBody := (body.take 12) ++ [0, 0, 0, 0] ++ body.drop 16
  let headOk := headerLength qs == some len && uAt (rq qs 3) 40 24 == 0 && zeroQ qs 4 7
    && (if signed then decide (64 + 192 * nvar ≤ sigoff) && decide (sigoff + 96 ≤ len) else sigoff == 0)
    && crc32c crcBody == (rq qs 1).extractLsb' 32 32
    && (List.range nvar).all fun v => variantEntryOk ((qs.drop (8 + 24 * v)).take 24) limit
  if !headOk then .error 0
  else
    let vs := (List.range nvar).map (variantOf qs)
    let bad := vs.findSome? fun v => (numbered0 v.recs).findSome? fun e =>
      let prev := if e.1 = 0 then none else v.recs[e.1 - 1]?
      if recOk v.regions (v.routes.map (·.1)) prev e.1 e.2 then none else some e.1
    match bad with
    | some i => .error i
    | none => .ok ⟨rq qs 2, signed, body, (natBE ((bytes.drop sigoff).take 48), natBE ((bytes.drop (sigoff + 48)).take 48)), vs⟩
/-- The session accepts the container's signature (R246). -/
def Session.accepts (x : Session) (c : Container) : Bool :=
  !x.signed || (c.signed && x.keys.any fun k => ecdsaVerify k (sha384 c.body) c.sig)
/-- A plot id through a die remap (R416). -/
def remapPlot (m : List (BitVec 3)) (p : Nat) : Nat := (m.getD (p / 1024) 0).toNat * 1024 + p % 1024
/-- A variant's records through a die remap. -/
def Variant.remap (v : Variant) (m : List (BitVec 3)) : Variant :=
  { v with regions := v.regions.map fun r => { r with die := (m.getD r.die 0).toNat },
           actors := v.actors.map fun a => { a with actor := { a.actor with plot := remapPlot m a.actor.plot } },
           guidons := v.guidons.map fun g => { g with guidon := { g.guidon with plot := remapPlot m g.guidon.plot } },
           triggers := v.triggers.map fun t => { t with plot := remapPlot m t.plot } }

/-! ## Live lines and distances (R235-R238) -/

/-- Live physical rows and columns of a region record under its die's defect map. -/
def RegionRec.live (r : RegionRec) (l : List (BitVec 32)) : List Nat × List Nat :=
  let base := (r.x0 - r.x0 / 8) * 8
  let inR (n : Nat) := decide (8 * r.y0 ≤ n) && decide (n < 8 * r.y0 + 8 * r.h)
  let inC (n : Nat) := decide (base ≤ n) && decide (n < base + 8 * r.w)
  ((List.range (8 * r.h)).filter fun p => !(l.any fun e => cellDefect e (· == 8 * r.y0 + p) inC),
   (List.range (8 * r.w)).filter fun p => !(l.any fun e => cellDefect e inR (· == base + p)))
/-- Distance of a physical row from the first (R237). -/
def RegionRec.rowDist (r : RegionRec) (pr : Nat) : Nat := rowDistance r.y0 pr
/-- Distance of a physical column from the first. -/
def RegionRec.colDist (r : RegionRec) (pc : Nat) : Nat := colDistance r.x0 r.w pc
/-- The port-map record of a port under a defect map: lines of R236, counters of R238. -/
def RegionRec.adaptPort (r : RegionRec) (l : List (BitVec 32)) (m : PortMap) : PortMap :=
  let (rows, cols) := r.live l
  let row := rowSide m.port
  let hmax := rows.foldl (fun a p => max a (r.rowDist p)) 0
  let emax := cols.foldl (fun a p => max a (r.colDist p)) 0
  let dly (p : Nat) : Nat := match m.port / 4 with
    | 0 => r.rowDist p
    | 1 => r.colDist p
    | 2 => emax - r.colDist p
    | _ => hmax - r.rowDist p
  let line (p : Nat) : Nat × Nat := match (if row then rows else cols).findIdx? (· == p) with
    | some i => (i, dly p)
    | none => (0xFF, 0)
  let a := line (8 * m.idx + 2 * (m.port % 4))
  let b := line (8 * m.idx + 2 * (m.port % 4) + 1)
  { m with line0 := a.1, dly0 := a.2, line1 := b.1, dly1 := b.2 }
/-- Quadwords of a port-map record with its lines and counters. -/
def portQuads (m : PortMap) (l : List Word) : List Word :=
  l.set 1 (BitVec.ofNat 64 (m.line0 + m.dly0 * 256 + m.line1 * 65536 + m.dly1 * 16777216))
/-- A region's signature (R243). -/
def regionSig (r : RegionRec) (v : Variant) : BitVec 32 :=
  let own := (r.quads.set 7 0).flatMap quadBytes
  let rest := ((v.routes.filter fun t => t.1.sreg == r.index).map fun t => (t.1.recIdx, t.2))
    ++ (v.ports.filter fun m => m.1.region == r.index).map fun m => (m.1.recIdx, m.2)
  let sorted := (List.range v.recs.length).flatMap fun i => (rest.filter (·.1 == i)).flatMap (·.2)
  crc32c (own ++ sorted.flatMap quadBytes)
/-- Every region of a variant keeps its minimum lines and covers no defective plot (R233, R236, R241). -/
def State.variantFits (s : State) (v : Variant) : Bool :=
  v.regions.all fun r =>
    let l := (s.dieAt r.die).defects
    let lv := r.live l
    decide (r.minRows ≤ lv.1.length) && decide (r.minCols ≤ lv.2.length) && r.plots.all fun p => !plotDefect l (p % 1024)
/-- The dies a variant uses are installed and not fenced, with the signatures that `f` reads (R241). -/
def State.diesMatch (s : State) (m : List (BitVec 3)) (v : Variant) (sigs : List Word) (f : Nat → Word) : Bool :=
  (List.range 8).all fun d => !v.dies.getLsbD d ||
    (let e := (m.getD d 0).toNat
     s.present e && !(s.dieAt e).fenced && sigs.getD d 0 == f e)
/-- The variant that the loader selects, remapped, and whether it adapts it (R241). -/
def State.selectVariant (s : State) (m : List (BitVec 3)) (c : Container) : Option (Variant × Bool) :=
  let vs := c.variants.map (·.remap m)
  match vs.find? fun v => s.diesMatch m v v.sigs s.dieSig && s.variantFits v with
  | some v => some (v, false)
  | none => (vs.find? fun v => v.adapt && s.diesMatch m v v.csigs s.coarseSig && s.variantFits v).map fun v => (v, true)
/-- A variant adapted to the current maps: lines, counters and signatures recomputed. -/
def State.adaptVariant (s : State) (v : Variant) : Variant :=
  let ports := v.ports.map fun m => match v.regions.find? (·.index == m.1.region) with
    | some r => let n := r.adaptPort (s.dieAt r.die).defects m.1
      (n, portQuads n m.2)
    | none => m
  let v1 := { v with ports }
  { v1 with regions := v.regions.map fun r => { r with crc := regionSig r v1 } }

/-! ## Checks of the loader (R246, R247) -/

/-- The tag of the edge of a port. -/
def RegionRec.edgeTag (r : RegionRec) (port : Nat) : BitVec 16 :=
  match port / 4 with
  | 0 => r.west
  | 1 => r.north
  | 2 => r.south
  | _ => r.east
/-- Two tags agree on a used edge (R247). -/
def edgeAgrees (a b : BitVec 16) : Bool := !tagMalformed a && !tagMalformed b && tagFmt a != 0 && tagFmt b != 0 && tagEq a b
/-- The lowest record that an edge check of R247 finds wrong. -/
def Variant.badEdge (v : Variant) : Option Nat :=
  let reg (i : Nat) := v.regions.find? (·.index == i)
  let rt := v.routes.filterMap fun t => match reg t.1.sreg, reg t.1.dreg with
    | some a, some b => if edgeAgrees (a.edgeTag t.1.sport) (b.edgeTag t.1.dport) then none else some t.1.recIdx
    | _, _ => some t.1.recIdx
  let pt := v.ports.filterMap fun m => match reg m.1.region with
    | some r => if m.1.conn = 0 || edgeAgrees m.1.tag (r.edgeTag m.1.port) then none else some m.1.recIdx
    | none => some m.1.recIdx
  (rt ++ pt).min?
/-- A record with an FP64 tag (R246). -/
def Variant.fp64Rec (v : Variant) : Option Nat :=
  let f (t : BitVec 16) := tagFmt t == 1
  match v.regions.find? fun r => f r.east || f r.south || f r.north || f r.west with
  | some r => some r.recIdx
  | none => (v.ports.find? fun m => f m.1.tag).map (·.1.recIdx)
/-- Steps of a segment's track: 1, 4 or 16 positions (R142). -/
def segSpan (b : BitVec 8) : Nat :=
  match (b.extractLsb' 6 2).toNat with
  | 0 => 1
  | 1 => 4
  | _ => 16
/-- The position one step on in a direction: 0 east, 1 south, 2 west, 3 north. -/
def stepPos (dir : Nat) (p : Int × Int) : Int × Int :=
  match dir with
  | 0 => (p.1 + 1, p.2)
  | 1 => (p.1, p.2 + 1)
  | 2 => (p.1 - 1, p.2)
  | _ => (p.1, p.2 - 1)
/-- Positions left along a segment. -/
def segCells : (n : Nat) → (dir : Nat) → Int × Int → List (Int × Int)
  | 0, _, _ => []
  | n + 1, d, p => p :: segCells n d (stepPos d p)
/-- The segment's end. -/
def segEnd : (n : Nat) → (dir : Nat) → Int × Int → Int × Int
  | 0, _, p => p
  | n + 1, d, p => segEnd n d (stepPos d p)
/-- Latency of a channel from a position (R143). -/
def segsLatency : List (BitVec 8) → Int × Int → Nat
  | [], _ => 0
  | b :: t, p =>
    let d := (b.extractLsb' 4 2).toNat
    let q := segEnd (segSpan b) d p
    let base := if segSpan b = 1 then 1 else if segSpan b = 4 then 2 else 5
    let slice (x : Int) : Bool := x % 8 == 7
    let xs := if d = 0 then (segCells (segSpan b) d p).map (·.1 + 1) else if d = 2 then (segCells (segSpan b) d p).map (·.1) else []
    let stitch := if d % 2 = 1 ∧ decide (p.2 ≤ 15) ≠ decide (q.2 ≤ 15) then 1 else 0
    base + 2 * xs.countP slice + stitch + segsLatency t q
/-- Tracks held by a lane whose port is p`port` of its plot (R209, R242): die, direction, kind, number and the position left. -/
def laneTracks (die port : Nat) : List (BitVec 8) → Int × Int → List (Nat × Nat × Nat × Int × Int)
  | [], _ => []
  | b :: t, p =>
    let d := (b.extractLsb' 4 2).toNat
    let k := (b.extractLsb' 6 2).toNat
    let n := ((b.extractLsb' 0 4).toNat + port) % (if k = 0 then 8 else if k = 1 then 4 else 2)
    (segCells (segSpan b) d p).map (fun q => (die, 16 * k + 4 * n + d, k, q.1, q.2)) ++ laneTracks die port t (segEnd (segSpan b) d p)
/-- Position of a plot on its die. -/
def plotPos (p : Nat) : Int × Int := ((plotX p : Int), (plotY p : Int))
/-- Tracks that lane `k` of a route holds (R242). -/
def routeLane (edge : Nat → Nat → Nat) (t : Route) (k : Nat) : List (Nat × Nat × Nat × Int × Int) :=
  let q := edgePos t.sidx t.sport + k
  let p := edge (q / 4) t.sport
  laneTracks (dieOf p) (t.sport / 4 * 4 + q % 4) t.segs (plotPos p)
/-- Tracks that a route of a region holds: one path for each lane (R242). -/
def routeTracks (edge : Nat → Nat → Nat) (t : Route) : List (Nat × Nat × Nat × Int × Int) :=
  (List.range (t.lanes + 1)).flatMap (routeLane edge t)
/-- Two routes are branches of one multicast tree, which is one channel (R145): lane by lane they may share tracks (log 61). -/
def sameTree (t u : Route) (a b : Nat) : Bool := t.kind == 1 && u.kind == 1 && a == b && t.sidx == u.sidx && t.sport == u.sport
/-- Two routes hold a common track that is not their own tree's. -/
def routesMeet (edge edge' : Nat → Nat → Nat) (tree : Bool) (t u : Route) : Bool :=
  (List.range (t.lanes + 1)).any fun k => (List.range (u.lanes + 1)).any fun j =>
    !(tree && k == j) && (routeLane edge t k).any (routeLane edge' u j).contains
/-- Edge plot of a region record. -/
def RegionRec.edgePlot (r : RegionRec) (idx port : Nat) : Nat :=
  let at' (i j : Nat) := r.die * 1024 + (r.y0 + i) * 32 + (regionCols r.x0 r.w).getD j 0
  match port / 4 with
  | 0 => at' idx 0
  | 1 => at' 0 idx
  | 2 => at' (r.h - 1) idx
  | _ => at' idx (r.w - 1)
/-- Some element stands twice. -/
def hasDup {α : Type} [BEq α] : List α → Bool
  | [] => false
  | x :: t => t.contains x || hasDup t
/-- The lowest record that names a plot outside `plots`, holds a track twice, states another latency than R143, or leaves a stream
port's edge plot less than 1 KiB (R246). `held` are tracks of other installed regions. -/
def Variant.badPlace (v : Variant) (plots : List Nat) (held : List (Nat × Nat × Nat × Int × Int)) : Option Nat :=
  let rg := v.regions.filterMap fun r => if r.plots.all plots.contains then none else some r.recIdx
  let rt := v.routes.filterMap fun t => match v.regions.find? (·.index == t.1.sreg) with
    | some r =>
      let own := routeTracks r.edgePlot t.1
      let clash := v.routes.any fun u => decide (u.1.recIdx < t.1.recIdx) && (match v.regions.find? (·.index == u.1.sreg) with
        | some q => routesMeet r.edgePlot q.edgePlot (sameTree t.1 u.1 t.1.sreg u.1.sreg) t.1 u.1
        | none => false)
      if segsLatency t.1.segs (plotPos (r.edgePlot t.1.sidx t.1.sport)) != t.1.lat || hasDup own || clash || own.any held.contains
      then some t.1.recIdx else none
    | none => some t.1.recIdx
  let pt := v.ports.filterMap fun m => match v.regions.find? (·.index == m.1.region) with
    | some r => if m.1.conn = 1 ∧ r.l1 = 8 then some m.1.recIdx else none
    | none => some m.1.recIdx
  (rg ++ rt ++ pt).min?

end Sys2Proof.Machine
end

