-- ==== Sys2Proof/Machine/Loader.lean ====
section
/-! DEFINITION. The loader and the region controllers: CONFIG, ARM, DISARM, FREEZE, THAW (R245-R252, R369), waking, scrubbing and
reloading. -/

namespace Sys2Proof.Machine

/-! ## Reading a container -/

/-- What reading a container comes to: its quadwords, a wait, or a cause with what `faultInfo` reads. -/
inductive ReadOut where
  | done (quads : List Word) (s : State)
  | wait (s : State)
  | bad (cause : BitVec 8) (info : Nat) (s : State)
  deriving DecidableEq, Repr
/-- Quadwords of valid words, or none. -/
def quadsOf (ws : List W32) : Option (List Word) :=
  if ws.all (·.valid) then some ((List.range (ws.length / 2)).map (quadAt ws)) else none
/-- Words of a container after its header, as many as its length field says: none of what is no container of this version, or of a length that
is none, whose length means nothing (log 105). -/
def restWords (q : List Word) : Nat := if isContainer q then uAt (rq q 1) 0 32 / 4 - 16 else 0
/-- A container read at a virtual address by a slot (R179, R246): an invalid word of it comes before anything its header says. -/
def State.readContainer (s : State) (plot slot : Nat) (va : Word) : ReadOut :=
  let id := 10 ^ 13 + 8 * plot + slot
  let sig := coreSig (s.slotAt plot slot).pc plot slot 7
  let srcs (i n : Nat) := (List.range n).map fun j => Src.va (va + BitVec.ofNat 64 (4 * (i + j)))
  match s.engineRead plot slot id sig none (srcs 0 16) [] with
  | .wait s1 => .wait s1
  | .fault c _ k _ s1 => .bad c k (s1.dropWalks id false)
  | .done head s1 => match quadsOf head with
    | none => .bad 0x0C 0 s1
    | some q => match s1.engineRead plot slot id sig none (srcs 16 (restWords q)) [] with
      | .wait s2 => .wait s2
      | .fault c _ k _ s2 => .bad c k (s2.dropWalks id false)
      | .done rest s2 => match quadsOf rest with
        | none => .bad 0x0C 0 (s2.dropWalks id false)
        | some r => .done (q ++ r) (s2.dropWalks id false)

/-! ## Installing regions -/

/-- The variant to install, or cause and record index: the checks of R246 after the container is read, in its order. -/
def State.loaderChecks (s : State) (inst : Nat) (x : Inst) (qs : List Word) : Except (BitVec 8 × Nat) (Variant × Bool × Container) :=
  match parseContainer qs with
  | .error i => .error (0x02, i)
  | .ok c =>
    let signedOk := match tfind s.sessions x.sess with
      | some se => se.accepts c
      | none => true
    if !signedOk then .error (0x0A, 0)
    else match s.selectVariant x.remap c with
      | none => .error (0x42, 0)
      | some (v, adapt) => match v.regions.find? fun r => regionSig r v != r.crc with
        | some r => .error (0x0C, r.recIdx)
        | none =>
          match (if s.part == .lzx8n then v.fp64Rec else none), v.badEdge with
          | some i, _ => .error (0x43, i)
          | none, some i => .error (0x41, i)
          | none, none =>
            let mine := v.regions.map fun r => regionKey inst r.index
            let named := v.regions.flatMap (·.plots)
            let held := (s.regions.filter fun e => !mine.contains e.1 && !(e.1 / 256 == inst && e.2.plotIds.any named.contains)).flatMap
              fun e => e.2.routes.flatMap (routeTracks e.2.edgePlot)
            match v.badPlace x.plots held with
            | some i => .error (0x0A, i)
            | none => .ok ((if adapt then s.adaptVariant v else v), adapt, c)
/-- A region of the instance is installed as the record says. -/
def State.sameRegion (s : State) (inst : Nat) (r : RegionRec) : Bool :=
  match tfind s.regions (regionKey inst r.index) with
  | some q => q.sig == r.crc
  | none => false
/-- Installed regions of an instance that a record replaces: its index or a plot of it. -/
def State.replaced (s : State) (inst : Nat) (r : RegionRec) : List Nat :=
  (s.regions.filter fun e => e.1 / 256 == inst && (e.2.index == r.index || e.2.plotIds.any r.plots.contains)).map (·.1)
/-- CONFIG answers BUSY: a named plot lies in an armed region, or a region to be replaced has a bound port or
a queued stream word, in its plots' queues or in its own (R257). -/
def State.configBusy (s : State) (inst : Nat) (v : Variant) : Bool :=
  let named := v.regions.flatMap (·.plots)
  (s.regions.any fun e => e.2.armed && e.2.plotIds.any named.contains)
    || v.regions.any fun r => !s.sameRegion inst r && (s.replaced inst r).any fun k => match tfind s.regions k with
      | some q => (q.plotIds.any fun p => (List.range 16).any (fun n => (s.portAt (16 * p + n)).bind.isSome) || s.words.any fun w => w.2.plot == p && w.2.stage == .queued)
          || q.mq.any fun x => !x.started || (tfind s.words x.word).any (·.stage == .running)
      | none => false
/-- A region leaves: its plots have no region, its ports and channels lose their state (R250). L stays until an install changes it (R154). -/
def State.removeRegion (s : State) (k : Nat) : State :=
  match tfind s.regions k with
  | none => s
  | some r =>
    let ps := r.plotIds
    let s1 := ps.foldl (fun s p => s.modPlot p fun x => { x with region := none, l1 := [], awake := false }) s
    { s1 with regions := tdel s1.regions k, ports := s1.ports.filter fun e => !ps.contains (e.1 / 16),
              chans := s1.chans.filter fun c => !ps.contains (c.2.src / 16) && !(c.2.dsts.any fun d => ps.contains (d / 16)) }
/-- A region is written, its plots beginning to wake (R246, R250), its records' lines and delays as they stand, whatever R232, R236 and R238 would
make of them (log 116); plots of a region it replaces lie in no region, with L = 0 (R244). -/
def State.writeRegion (s : State) (inst : Nat) (v : Variant) (r : RegionRec) : State :=
  let lv := r.live (s.dieAt r.die).defects
  let k := regionKey inst r.index
  let q : Region :=
    { index := r.index, die := r.die, y0 := r.y0, x0 := r.x0, w := r.w, h := r.h, modes := r.modes, l1 := r.l1, discard := r.discard,
      east := r.east, south := r.south, north := r.north, west := r.west, sig := r.crc, rows := lv.1, cols := lv.2,
      ports := (v.ports.filter fun m => m.1.region == r.index).map (·.1), routes := (v.routes.filter fun t => t.1.sreg == r.index).map (·.1),
      armed := false, disarming := [], frozenProg := false, frozenTrap := false, frozenLoad := false, frozenPre := false, trapDue := [],
      errors := 0, lost := false, wtag := [], wreg := [], xid := [], btag := [], bank := [], status := 0, mq := [], member := none, ring := [] }
  let gone := (s.replaced inst r).flatMap fun k => ((tfind s.regions k).map (·.plotIds)).getD []
  let s0 := (s.replaced inst r).foldl (fun s k => s.removeRegion k) s
  let s1 := gone.foldl (fun s p => s.modPlot p fun x => { x with l1size := 0 }) s0
  r.plots.foldl (fun s p => s.modPlot p fun x => { x with region := some k, l1size := r.l1, l1 := [], awake := false })
    { s1 with regions := tset s1.regions k q }
/-- Every region of the variant that is not installed already (R246). -/
def State.writeRegions (s : State) (inst : Nat) (v : Variant) : State :=
  v.regions.foldl (fun s r => if s.sameRegion inst r then s else s.writeRegion inst v r) s

/-! ## The instructions -/

/-- The accesses and flits of the slot that an acquire of oc7 comes after are over (R327, R339). -/
def State.slotSettled (s : State) (p k : Nat) : Bool :=
  (s.reqsOf p k).all (fun e => s.perfOk e.1) && s.outs.all fun e => !(e.2.plot == p && e.2.slot == k)
/-- The loader serves another slot's CONFIG for the same instance (R248). -/
def State.loaderTaken (s : State) (inst p k : Nat) : Bool :=
  s.slots.any fun e => e.1 != 8 * p + k && e.2.loading.isSome && (s.plotAt (e.1 / 8)).inst == some inst
/-- The variant that a CONFIG under way writes. -/
def State.loadingVariant (s : State) (x : Inst) (l : List Word × Nat × Bool) : Option Variant :=
  match parseContainer l.1 with
  | .error _ => none
  | .ok c => ((c.variants.map (·.remap x.remap)).find? fun v => v.idx == l.2.1).map fun v => if l.2.2 then s.adaptVariant v else v
/-- CONFIG ends with a status: its reads come before what follows it (R246). -/
def State.configEnd (s : State) (d a : GReg) (status : Word) : Result :=
  let s0 := s.modCur fun x => { x with loading := none }
  match ((s0.afterReads [a]).flushL1 s.focus.plot).writeG d (.ofWord status) with
  | .error t => .next (s0.trapNow t)
  | .ok s1 => .next (s1.advance 4)
/-- CONFIG goes on by one region (R248): the next that is not installed already; after the last it ends. -/
def State.configGoes (s : State) (d a : GReg) (i : Nat) (x : Inst) (l : List Word × Nat × Bool) : Result :=
  match s.loadingVariant x l with
  | none => s.configEnd d a 0
  | some v => match v.regions.find? fun r => !s.sameRegion i r with
    | some r => .next (s.writeRegion i v r)
    | none => s.configEnd d a 0
/-- CONFIG (R246, R248): the container is read and checked before any region is written, then the regions one by one. -/
def execConfig (d a : GReg) (s : State) : Result :=
  let p := s.focus.plot
  let k := s.focus.slot
  match s.instAt p with
  | none => .next (s.trapNow (mkTrap 0x0A 0))
  | some (i, x) => match s.cur.loading with
    | some l => s.configGoes d a i x l
    | none =>
      if s.blocked [a] [d] || !s.slotSettled p k || s.loaderTaken i p k then .next s
      else match s.badReg [(0, a)] with
        | some t => .next (s.trapNow t)
        | none =>
          let v := (s.reads [a]).getD 0 .zero
          let tr (c : BitVec 8) (n : Nat) (info : Word) : Trap := ⟨c, v.bits, BitVec.ofNat 64 (0x1000000 + n % 65536) ||| info⟩
          if !v.valid then .next (s.trapNow (poisonTrap v))
          else if v.bits.toNat % 64 != 0 then .next (s.trapNow (tr 0x0B 0 0))
          else match s.readContainer p k v.bits with
            | .wait s1 => .next s1
            | .bad c n s1 => .next (s1.trapNow (tr c 0 (faultInfo n ||| dieInfo n)))
            | .done qs s1 => match s1.loaderChecks i x qs with
              | .error (c, n) => .next (s1.trapNow (tr c n 0))
              | .ok (vr, adapt, c) =>
                if s1.configBusy i vr then s1.configEnd d a 1
                else .next ((if adapt then s1.logRec 0x03 c.id.toNat vr.idx else s1).modCur fun y => { y with loading := some (qs, vr.idx, adapt) })
/-- An instruction on a region index of the issuing instance: the key of the region, if there is one, and the operand's check. -/
def regionOp (d a : GReg) (f : Option (Nat × Region) → State → Except Trap (Option State)) (s : State) : Result :=
  control 4 [a] [d] (fun vs s' =>
    match consume vs with
    | some t => .error t
    | none =>
      let i := (vs.getD 0 .zero).bits.toNat
      match s.instAt s.focus.plot with
      | none => f none s'
      | some (n, _) => if 255 < i then f none s' else f ((tfind s.regions (regionKey n i)).map fun r => (regionKey n i, r)) s') s
/-- ARM (R249): waits while plots wake or a DISARM is under way. -/
def execArm (d a : GReg) (s : State) : Result :=
  regionOp d a (fun o s' => match o with
    | none => s'.answerG d 3
    | some (k, r) =>
      if s.regionFrozen k then s'.answerG d 4
      else if r.armed && r.disarming == [] then s'.answerG d 0
      else if r.disarming != [] || r.plotIds.any (fun p => !(s.plotAt p).awake) then .ok none
      else
        let s1 := s'.modRegion k fun r => { r with armed := true, errors := 0 }
        let s2 := { s1 with ports := tmap s1.ports fun key p => if r.plotIds.contains (key / 16) then { p with drained := 0, passed := 0 } else p }
        (s2.pump k).answerG d 0) s
/-- A token of the region has started and has not written its last entry. -/
def Region.running (r : Region) : Bool := r.mq.any fun x => x.started && isMtok x.instr && !tokenDone x
/-- The region that a DISARM about to act names. -/
def State.disarmKey (s : State) (d a : GReg) : Option Nat :=
  if s.blocked [a] [d] || (s.badReg [(0, a)]).isSome then none
  else match s.instAt s.focus.plot, s.reads [a] with
    | some (n, _), v :: _ => if v.valid && decide (v.bits.toNat ≤ 255) then some (regionKey n v.bits.toNat) else none
    | _, _ => none
/-- A DISARM of slot `key` waits while tokens of the region run (R249). -/
def Region.joinDisarm (r : Region) (key : Nat) : Region :=
  { r with disarming := if r.running && !r.disarming.contains key then r.disarming ++ [key] else r.disarming }
/-- DISARM (R249): no more tokens start; it completes when those started have delivered. One that a trap or a pre-emption withdraws leaves
nothing behind (R98, R360). -/
def execDisarm (d a : GReg) (s : State) : Result :=
  let s0 := match s.disarmKey d a with
    | some k => s.modRegion k fun r => r.joinDisarm (8 * s.focus.plot + s.focus.slot)
    | none => s
  regionOp d a (fun o s' => match o with
    | none => s'.answerG d 3
    | some (k, r) => if r.running then .ok none
      else (s'.modRegion k fun r => { r with armed := false, disarming := r.disarming.filter (· != 8 * s.focus.plot + s.focus.slot), member := none }).answerG d 0) s0
/-- FREEZE (R369). -/
def execFreeze (d a : GReg) (s : State) : Result :=
  regionOp d a (fun o s' => match o with
    | none => s'.answerG d 3
    | some (k, _) => (s'.modRegion k fun r => { r with frozenProg := true }).answerG d 0) s
/-- Every region of an instance moves on. -/
def State.pumpInst (s : State) (inst : Nat) : State :=
  (s.regions.filter fun e => e.1 / 256 == inst).foldl (fun s e => s.pump e.1) s
/-- THAW (R369): waits for a reload; the trap freeze, the holds of DRNs and the program freeze end. A DRN whose trap is still to come (R272) stays held. -/
def execThaw (d a : GReg) (s : State) : Result :=
  regionOp d a (fun o s' => match o with
    | none => s'.answerG d 3
    | some (k, r) =>
      if r.lost then s'.answerG d 4
      else if r.frozenLoad then .ok none
      else
        let s1 := s'.modRegion k fun r => { r with frozenProg := false, frozenTrap := false, mq := r.mq.map fun x => { x with hold := x.hold && r.trapDue.any (·.word == x.word) } }
        (s1.pumpInst (k / 256)).answerG d 0) s

/-! ## What the region controllers do -/

/-- PLOT_WAKE (R250): a plot of an installed region has woken. -/
def execPlotWake (plot : BitVec 13) (s : State) : Result :=
  let p := s.plotAt plot.toNat
  .next (if p.region.isSome && !p.awake then s.modPlot plot.toNat fun x => { x with awake := true } else s)
/-- The region's configuration is lost (R252): it stays frozen and disarmed, its actors' slots trap, firmware reports. -/
def State.configLost (s : State) (inst idx : Nat) : State :=
  let s1 := s.modRegion (regionKey inst idx) fun r => { r with frozenLoad := true, lost := true, armed := false, disarming := [] }
  match tfind s1.insts inst with
  | none => s1
  | some x =>
    let s2 := x.actors.foldl (fun s e => if e.2.region = idx then s.pendTrap e.2.plot e.2.slot .config ⟨0x40, BitVec.ofNat 64 idx, 0⟩ else s) s1
    s2.report x.sess 4 [inst + idx * 65536]
/-- CONFIG_SCRUB (R251, R252). -/
def execConfigScrub (inst region : Nat) (err : SoftError) (s : State) : Result :=
  match tfind s.regions (regionKey inst region) with
  | none => .next s
  | some r =>
    if !r.armed || r.lost then .next s
    else match err with
      | .clean => .next s
      | .correctable => .next (s.logRec 0x01 (4 + 256 * r.plotAtRC 0 0) 0)
      | .uncorrectable =>
        if r.errors = 0 then .next (s.modRegion (regionKey inst region) fun r => { r with errors := 1, frozenLoad := true })
        else .next (s.configLost inst region)
/-- REGION_RELOAD_DONE (R251, R252): a good copy thaws the region, a bad one loses it. -/
def execRegionReloadDone (inst region : Nat) (good : Bool) (s : State) : Result :=
  match tfind s.regions (regionKey inst region) with
  | none => .next s
  | some r =>
    if !r.frozenLoad || r.lost then .next s
    else if good then
      .next (((s.modRegion (regionKey inst region) fun r => { r with frozenLoad := false }).logRec 0x10 (inst + region * 65536) 0).pumpInst inst)
    else .next (s.configLost inst region)
/-- PREEMPT_REGION_FREEZE (R405): a region still running 2.4 us after step 2 of a pre-emption freezes. -/
def execPreemptRegionFreeze (inst region : Nat) (s : State) : Result :=
  match tfind s.insts inst, tfind s.regions (regionKey inst region) with
  | some x, some r =>
    if x.saved == .halting && decide (x.haltAt + 4560 ≤ s.clock) && (r.running || r.ring != []) then .next (s.modRegion (regionKey inst region) fun r => { r with frozenPre := true }) else .next s
  | _, _ => .next s

end Sys2Proof.Machine
end

