-- ==== Sys2Proof/Machine/Pennants.lean ====
section
/-! DEFINITION. Pennants (R158-R175): the directory and its requests, evictions and fills, the PENNANT group and the PN stream
words. -/

namespace Sys2Proof.Machine

/-! ## The directory -/

/-- F, the XOR of a name's bytes (R159). -/
def nameFold (name : Word) : Nat := ((List.range 8).foldl (fun (b : BitVec 8) i => b ^^^ name.extractLsb' (8 * i) 8) 0).toNat
/-- Dies present at bring-up, ascending (R159, R426). -/
def State.presentDies (s : State) : List Nat := (List.range 8).filter s.present
/-- The first die from `d` on, wrapping, that is present and not fenced (R426). -/
def State.unfencedFrom (s : State) (d : Nat) : Nat :=
  (((List.range 8).map fun i => (d + i) % 8).find? fun e => s.present e && !(s.dieAt e).fenced).getD d
/-- Home slice of a name (R159, R426). -/
def State.nameHome (s : State) (name : Word) : Nat :=
  let l := s.presentDies
  let d := l.getD (nameFold name % max 1 l.length) 0
  s.unfencedFrom d * 128 + nameFold name % 128
/-- A pennant changed. -/
def State.modPennant (s : State) (k : Nat) (f : Pennant → Pennant) : State :=
  match tfind s.pennants k with
  | some p => { s with pennants := tset s.pennants k (f p) }
  | none => s
/-- Plots of a pennant at its origin. -/
def Pennant.plots (p : Pennant) : List Nat := (rectPlots p.origin p.w p.h).getD []
/-- Its size in bytes. -/
def Pennant.total (p : Pennant) : Nat := p.w * p.h * p.len
/-- Its backing's size (R161). -/
def Pennant.backLen (p : Pennant) : Nat := (p.total + 65535) / 65536 * 65536
/-- Physical address of byte `k` at the current placement (R158). -/
def Pennant.byteAt (p : Pennant) (k : Nat) : Nat := plotBase (p.plots.getD (k / p.len) 0) + p.off + k % p.len
/-- The pennant is being filled or evicted. -/
def Pennant.moving (p : Pennant) : Bool := p.state == .filling || p.state == .evicting
/-- The pennant holds a range of scratchpads. -/
def Pennant.placed (p : Pennant) : Bool := p.state != .evicted
/-- A range on some plots overlaps another placed pennant. -/
def State.rangeTaken (s : State) (except : Option Nat) (plots : List Nat) (off len : Nat) : Bool :=
  s.pennants.any fun e => some e.1 != except && e.2.placed && decide (off < e.2.off + e.2.len) && decide (e.2.off < off + len)
    && e.2.plots.any plots.contains
/-- The placement keeps the rules of R167 for actors of the plots of an image: cell plots of the image, within their scratchpads. -/
def State.placeOk (s : State) (mine : List Nat) (origin w h off len : Nat) : Bool :=
  match rectPlots origin w h with
  | none => false
  | some ps => ps.all fun p => mine.contains p && decide (off + len ≤ s.spad p)
/-- Plots of the image of a plot. -/
def State.minePlots (s : State) (plot : Nat) : List Nat :=
  match s.instAt plot with
  | some (_, x) => x.plots
  | none => []
/-- Pennant backing of a die: first address and end (R161). -/
def State.backRange (s : State) (d : Nat) : Nat × Nat :=
  let top := 0x10000000000 + d * 0x400000000 + (12 - (s.dieAt d).cways.toNat) * 0x40000000
  (top - min ((s.dieAt d).backing * 0x10000000) ((12 - (s.dieAt d).cways.toNat) * 0x40000000), top)
/-- Where `n` bytes of backing lie free on a die, the lowest address first. -/
def State.freeBacking (s : State) (d n : Nat) : Option Nat :=
  let r := s.backRange d
  let used := (s.dieAt d).backUsed
  let fits (a : Nat) : Bool := decide (r.1 ≤ a) && decide (a + n ≤ r.2) && used.all fun u => decide (a + n ≤ u.1) || decide (u.1 + u.2 ≤ a)
  ((r.1 :: used.map fun u => u.1 + u.2).filter fits).foldl (fun b a => match b with
    | none => some a
    | some c => some (min a c)) none
/-- A pennant's words written ABSENT; an eviction empties its granules too (R160, R174). -/
def State.blankRange (s : State) (p : Pennant) (empty : Bool) : State :=
  p.plots.foldl (fun s q =>
    let a := plotBase q + p.off
    let s1 := s.fillInvalid 6 a (p.len / 4)
    if empty then (List.range (p.len / 16)).foldl (fun s i => s.setFe (a + 16 * i) false) s1 else s1) s
/-- A pennant dropped (R160). -/
def State.dropPennant (s : State) (k : Nat) : State :=
  match tfind s.pennants k with
  | none => s
  | some p =>
    let s1 := if p.placed then s.blankRange p false else s
    let d := (p.backing.toNat - 0x10000000000) / 0x400000000
    { (s1.modDie d fun x => { x with backUsed := x.backUsed.filter fun u => u.1 != p.backing.toNat }) with pennants := tdel s1.pennants k }
/-- A slot's key among attachers: instance and slot. -/
def State.attKey (s : State) (key : Nat) : Nat × Nat := (((s.plotAt (key / 8)).inst).getD 0, key)
/-- Attachers that meet a condition end; a count that falls to 0 starts the idle time (R163). -/
def Pennant.detach (p : Pennant) (clock : Nat) (f : Nat × Nat → Bool) : Pennant :=
  let l := p.attachers.filter fun a => !f a
  { p with attachers := l, places := p.places.filter fun e => l.any (·.1 == e.1), idleFrom := if l == [] && p.attachers != [] then some clock else p.idleFrom }
/-- Attachments of an instance end (R168). -/
def State.endAttachments (s : State) (inst : Nat) : State :=
  { s with pennants := tmap s.pennants fun _ p => p.detach s.clock fun a => a.1 == inst }
/-- Every attacher is a pre-empted context, or there is none (R162). -/
def State.evictable (s : State) (p : Pennant) : Bool :=
  p.attachers.all fun a => match tfind s.insts a.1 with
    | some x => x.saved == .saved
    | none => true

/-! ## Moving a pennant (R162, R174) -/

/-- The die of a pennant's backing. -/
def Pennant.backDie (p : Pennant) : Nat := (p.backing.toNat - 0x10000000000) / 0x400000000
/-- A removed die that a move must reach (R121, R174). -/
def State.moveRemoved (s : State) (p : Pennant) (origin : Nat) : Option Nat :=
  [p.backDie, dieOf origin].find? s.isRemoved
/-- The die at which a move reads: the range's for an eviction, the backing's for a fill. -/
def Pennant.readDie (p : Pennant) (evict : Bool) : Nat := if evict then dieOf p.origin else p.backDie
/-- A move waits: the vertical bus that it uses is being retrained (R138, R139), or the die at which it reads has not met what that die and the
pennant's home know of (R116, R164). -/
def State.moveHeld (s : State) (p : Pennant) (evict : Bool) : Bool :=
  let d := p.readDie evict
  (s.dieAt p.backDie).retraining.isSome || !s.covers d (s.causalAt d).dv 8 || !s.covers d (s.causalAt (p.home / 128)).dv 8
/-- What the die that a move reads at knows goes with its words to the die they are written at, and with the answer to the home (R116, R164). -/
def State.moveStamp (s : State) (p : Pennant) (src dst : Nat) : State :=
  let st := s.respStamp src
  let s1 := if dst = src then s else s.mergeDv dst st
  if p.home / 128 = src then s1 else s1.mergeDv (p.home / 128) st
/-- An eviction begins: it captures the contents (R164). A move between dies is no counted packet: R111 lists none, and R452's numbers leave none
for it. -/
def State.beginEvict (s : State) (k : Nat) (mover : Option Nat) : State :=
  match tfind s.pennants k with
  | none => s
  | some p =>
    let ws := (List.range (p.total / 4)).map fun i => s.memWord (p.byteAt (4 * i))
    { ({ s with mem := s.mem.setBulk p.backing.toNat ws } : State).moveStamp p (dieOf p.origin) p.backDie with
      pennants := tset s.pennants k { p with state := .evicting, mover, moved := 0, idleFrom := none } }
/-- A fill begins at an origin. -/
def State.beginFill (s : State) (k : Nat) (mover : Option Nat) (origin : Nat) : State :=
  s.modPennant k fun p => { p with state := .filling, origin, mover, moved := 0, idleFrom := none }
/-- A word written to a pennant's range where it lies, a granule full with its highest word (R157, R174), also on a plot whose instance is saved. -/
def State.rangeWrite (s : State) (a : Nat) (w : W32) : State :=
  let s1 := { s with mem := s.mem.setWord (s.place a) w }
  if a % 16 = 12 then s1.setFe a true else s1
/-- Words of a fill written at its placement. -/
def State.fillWords (s : State) (p : Pennant) (n : Nat) : State :=
  ((List.range n).foldl (fun s i => s.rangeWrite (p.byteAt (p.moved + 4 * i)) (s.readWord p.origin (p.backing.toNat + p.moved + 4 * i))) s).moveStamp
    p p.backDie (dieOf p.origin)
/-- A move ends: an evicted range is left ABSENT and empty; an idle time starts anew only with a later fall of the count (R163, R174). -/
def State.endMove (s : State) (k : Nat) (p : Pennant) (st : PnState) : State :=
  let s1 := if st == .evicted && p.state == .evicting then s.blankRange p true else s
  let s2 := s1.modPennant k fun p => { p with state := st, mover := none, moved := 0, idleFrom := none }
  if p.dropping then s2.dropPennant k else s2
/-- The move goes on by 4 KiB unless it must wait. A die removed on its way ends it (R121). -/
def State.movePennant (s : State) (k : Nat) : State :=
  match tfind s.pennants k with
  | none => s
  | some p =>
    if !p.moving then s
    else if (s.moveRemoved p p.origin).isSome then s.endMove k p (if p.state == .evicting && s.isRemoved p.backDie then .resident else .evicted)
    else if s.moveHeld p (p.state == .evicting) then s
    else
      let n := min 1024 ((p.total - p.moved) / 4)
      let s1 := if p.state == .filling then s.fillWords p n else s
      let p' := { p with moved := p.moved + 4 * n }
      if p'.moved < p.total then { s1 with pennants := tset s1.pennants k p' }
      else s1.endMove k p' (if p.state == .evicting then .evicted else .resident)
/-- One who waits for a pennant: those who came before it go first (R175). -/
def Pennant.mustWait (p : Pennant) (who : Nat) : Bool :=
  p.moving || (match p.queue with
    | [] => false
    | h :: _ => h != who)
/-- It joins those who wait. -/
def State.joinPennant (s : State) (k who : Nat) : State :=
  s.modPennant k fun p => if p.queue.contains who then p else { p with queue := p.queue ++ [who] }
/-- It waits no more. -/
def State.leavePennant (s : State) (k who : Nat) : State := s.modPennant k fun p => { p with queue := p.queue.filter (· != who) }

/-! ## Requests of slots at the home (R165-R172) -/

/-- Descriptor of PNDEF (R167): name, lifetime, h, w, origin, len, off, and whether its reserved bits are zero. -/
structure PnDesc where
  name : Word
  life : BitVec 2
  h : Nat
  w : Nat
  origin : Nat
  len : Nat
  off : Nat
  ok : Bool
/-- The descriptor of eight valid words. -/
def pnDesc (ws : List W32) : PnDesc :=
  let q := quadAt ws
  ⟨q 0, (q 1).extractLsb' 24 2, uAt (q 1) 20 4 + 1, uAt (q 1) 16 4 + 1, uAt (q 1) 0 13, uAt (q 2) 32 32, uAt (q 2) 0 32,
    uAt (q 1) 26 38 == 0 && uAt (q 1) 13 3 == 0 && q 3 == 0⟩
/-- PNDEF at the home (R167). -/
def State.pnDefine (s : State) (plot : Nat) (ws : List W32) : PnAnswer × State :=
  let d := pnDesc ws
  let sess := s.sessOf plot
  let shape := d.ok && d.name != 0 && d.off % 4096 == 0 && d.len % 4096 == 0 && decide (4096 ≤ d.len) && decide (d.off + d.len ≤ 0x80000)
  if 1 < d.life.toNat then (.trap (mkTrap 0x22 d.name), s)
  else if !shape || !s.placeOk (s.minePlots plot) d.origin d.w d.h d.off d.len then (.value 4 true, s)
  else match s.visible sess d.name with
    | some (_, p) =>
      if p.life == d.life && p.w == d.w && p.h == d.h && p.off == d.off && p.len == d.len then (.value 1 true, s)
      else (.trap (mkTrap 0x21 d.name), s)
    | none =>
      if s.rangeTaken none ((rectPlots d.origin d.w d.h).getD []) d.off d.len then (.value 4 true, s)
      else
        let home := s.nameHome d.name
        let n := (d.w * d.h * d.len + 65535) / 65536 * 65536
        if 32 ≤ (s.pennants.filter fun e => e.2.home == home).length then (.value 3 true, s)
        else match s.freeBacking (dieOf d.origin) n with
          | none => (.value 3 true, s)
          | some a =>
            let idle := match sess with
              | some i => ((tfind s.sessions i).map (·.idle)).getD 0xFFFFFFFF
              | none => 0xFFFFFFFF
            let p : Pennant := ⟨d.name, d.life, d.w, d.h, d.off, d.len, d.origin, .resident, 0, BitVec.ofNat 48 a, home, sess.getD 0, [], none, idle,
              none, 0, [], false, []⟩
            (.value 0 true, { (s.modDie (dieOf d.origin) fun x => { x with backUsed := x.backUsed ++ [(a, n)] }) with
              pennants := tset s.pennants s.nextId p, nextId := s.nextId + 1 })
/-- Base address of byte 0 (R168). -/
def Pennant.base (p : Pennant) : Word := BitVec.ofNat 64 (plotBase p.origin + p.off)
/-- A slot attaches to a resident pennant (R168). -/
def State.pnAttach (s : State) (k key : Nat) (p : Pennant) : PnAnswer × State :=
  let a := s.attKey key
  if p.attachers.contains a then (.value p.base true, s)
  else if 255 ≤ p.attachers.length then (.value 3 false, s)
  else (.value p.base true, s.modPennant k fun p => { p with attachers := p.attachers ++ [a], idleFrom := none, places := tset p.places a.1 p.origin })
/-- What PNQ answers (R172). -/
def State.pnQuery (s : State) (key : Nat) (p : Pennant) (n : BitVec 3) : Word :=
  let st := match p.state with
    | .resident => 0
    | .evicted => 1
    | .filling => 2
    | .evicting => 3
  match n.toNat with
  | 0 => BitVec.ofNat 64 (p.gen.toNat * 65536 + p.attachers.length * 256 + (if p.attachers.contains (s.attKey key) then 8 else 0)
      + p.life.toNat % 2 * 4 + st)
  | 1 => if p.state == .resident then p.base else 0
  | 2 => BitVec.ofNat 64 (p.life.toNat * 2 ^ 24 + (p.h - 1) * 2 ^ 20 + (p.w - 1) * 2 ^ 16 + p.origin)
  | 3 => BitVec.ofNat 64 (p.len * 2 ^ 32 + p.off)
  | _ => p.backing.zeroExtend 64
/-- A request acts at its home: its answer, or none while it waits (R166-R172, R175). -/
def State.pnAct (s : State) (key : Nat) (r : PnReq) : Option PnAnswer × State :=
  let who := pnWaiter key
  let plot := key / 8
  let ans (x : PnAnswer × State) : Option PnAnswer × State := (some x.1, x.2)
  match r.op with
  | .define ws => ans (s.pnDefine plot ws)
  | .query n => (some (.value (match s.visible (s.sessOf plot) r.name with
    | some (_, p) => s.pnQuery key p n
    | none => 0xFFFFFFFFFFFFFFFF) false), s)
  | .attach fill => match s.visible (s.sessOf plot) r.name with
    | none => (some (.value 2 false), s)
    | some (k, p) =>
      if p.mover == some who then
        let s1 := s.movePennant k
        match tfind s1.pennants k with
        | some p' =>
          if p'.moving then (none, s1)
          else match s1.moveRemoved p' p'.origin with
            | some d => (some (.trap ⟨0x48, r.name, BitVec.ofNat 64 d⟩), s1)
            | none => ans (s1.pnAttach k key p')
        | none => (none, s1)
      else if p.mustWait who then (none, s.joinPennant k who)
      else
        let s1 := s.leavePennant k who
        if p.state != .evicted then ans (s1.pnAttach k key p)
        else if !fill then (some (.trap (mkTrap 0x20 r.name)), s1)
        else if !s1.placeOk (s1.minePlots plot) plot p.w p.h p.off p.len || s1.rangeTaken (some k) ((rectPlots plot p.w p.h).getD []) p.off p.len then
          (some (.trap ⟨0x20, r.name, 1⟩), s1)
        else match s1.moveRemoved p plot with
          | some d => (some (.trap ⟨0x48, r.name, BitVec.ofNat 64 d⟩), s1)
          | none => (none, s1.beginFill k (some who) plot)
  | .detach => match s.visible (s.sessOf plot) r.name with
    | none => (some (.value 2 false), s)
    | some (k, p) =>
      if !p.attachers.contains (s.attKey key) then (some (.value 5 false), s)
      else (some (.value 0 false), s.modPennant k fun p => p.detach s.clock (· == s.attKey key))
  | .drop => match s.visible (s.sessOf plot) r.name with
    | none => (some (.value 2 false), s)
    | some (k, p) =>
      if p.attachers.any (· != s.attKey key) then (some (.trap (mkTrap 0x22 r.name)), s.leavePennant k who)
      else if p.mustWait who then (none, s.joinPennant k who)
      else (some (.value 0 false), s.dropPennant k)
  | .release => match s.visible (s.sessOf plot) r.name with
    | none => (some (.value 2 false), s)
    | some (k, p) =>
      if !p.attachers.contains (s.attKey key) then (some (.value 5 false), s)
      else (some (.value 0 false), s.modPennant k fun p => { p with gen := p.gen + 1 })
  | .arrive i e pos barwd => match s.meetBarrier i e pos barwd false with
    | .error t => (some (.trap t), s)
    | .ok (s1, n) => (some (.value (n.zeroExtend 64) false), s1)
  | .skip i e pos barwd => match s.meetBarrier i e pos barwd true with
    | .error t => (some (.trap t), s)
    | .ok (s1, n) => (some (.value (n.zeroExtend 64) false), s1)
  | .take i e => if r.granted then (none, s) else
    (none, (s.modGuidon i e.toNat fun g => if g.evq.contains key then g else { g with evq := g.evq ++ [key] }).grantRaises i e.toNat 65536)
/-- The die on which a request is served: a pennant's home, or a guidon's node (R159, R351). -/
def State.reqDie (s : State) (r : PnReq) : Nat :=
  match r.op with
  | .arrive i e _ _ | .skip i e _ _ | .take i e => ((s.guidonAt i e.toNat).map fun g => dieOf g.plot).getD 0
  | _ => s.nameHome r.name / 128
/-- A request that has reached its home goes on there; its answer carries the home's stamp (R116, R159). -/
def State.pnPerform (s : State) (key : Nat) : State :=
  match tfind s.pnreqs key with
  | none => s
  | some r =>
    if !r.arrived || r.answer.isSome then s
    else match s.pnAct key r with
      | (none, s1) => s1
      | (some a, s1) => { s1 with pnreqs := tset s1.pnreqs key { r with answer := some a, stamp := s1.respStamp (s1.reqDie r), reb := s1.rebase } }
/-- A request arrives at its home, by the number it was sent under. -/
def State.pnArrive (s : State) (key id : Nat) : State :=
  match tfind s.pnreqs key with
  | none => s
  | some r => if r.id = id then { s with pnreqs := tset s.pnreqs key { r with arrived := true } }.pnPerform key else s

/-! ## The PENNANT group -/

/-- A write of the issuing slot's stream words or bindings is still under way to an address of a list (R169). -/
def State.wordWrites (s : State) (key : Nat) (inside : Nat → Bool) : Bool :=
  let mine (p : Payload) : Bool := match p with
    | .writes w _ ws => (match tfind s.words w with
        | some x => 8 * x.plot + x.slot == key
        | none => match (s.portAt (w - 10 ^ 12)).bind with
          | some b => decide (10 ^ 12 ≤ w) && b.slot == some (key % 8) && b.plot == key / 8
          | none => false) && ws.any fun x => inside x.1.toNat
    | _ => false
  s.outs.any (fun e => mine e.2.payload) || s.packets.any fun e => !e.2.delivered && mine e.2.payload
/-- PNDET waits for the slot's writes to the range, PNREL for every access and word of the slot (R169, R171); the rest wait as
accesses of class 7 do (R165). -/
def State.pnReady (s : State) (op : PnOp) (name : Word) : Bool :=
  let key := 8 * s.focus.plot + s.focus.slot
  s.allReleased 7 && (match s.visible (s.sessOf s.focus.plot) name with
    | none => true
    | some (_, p) =>
      if !p.attachers.contains (s.attKey key) then true
      else
        let inside (a : Nat) : Bool := match window a with
          | .plot q off => p.plots.contains q && decide (p.off ≤ off) && decide (off < p.off + p.len)
          | _ => false
        match op with
        | .detach => (s.reqsOf s.focus.plot s.focus.slot).all (fun e => !(e.2.op.writes && inside e.2.pa.toNat) || s.perfOk e.1)
            && !s.wordWrites key inside
        | .release => s.cur.cntst == 0 && s.cur.cntcp == 0 && s.cur.cnttl == 0
            && (s.reqsOf s.focus.plot s.focus.slot).all fun e => !e.2.op.writes || s.perfOk e.1
        | _ => true)
/-- A request is made: at home on this die at once, else as a counted packet (R111, R159). -/
def State.pnSend (s : State) (op : PnOp) (name : Word) : State :=
  let key := 8 * s.focus.plot + s.focus.slot
  let home := s.nameHome name / 128
  if home = dieOf s.focus.plot then
    ({ s with pnreqs := tset s.pnreqs key ⟨op, name, s.nextId, false, false, none, [], s.rebase⟩, nextId := s.nextId + 1 } : State).pnArrive key s.nextId
  else s.askHome op name home
/-- A PENNANT instruction whose request is made or answered: it goes on with the answer, or waits. -/
def State.pnFinish (s : State) (d a : GReg) : Result :=
  let key := 8 * s.focus.plot + s.focus.slot
  match tfind s.pnreqs key with
  | none => .next s
  | some r => match r.answer with
    | none => .next s
    | some ans =>
      let far := s.nameHome r.name / 128 != dieOf s.focus.plot
      let s1 := { s with pnreqs := tdel s.pnreqs key }
      let s2 := if far then (s1.mergeDv (dieOf s.focus.plot) r.stamp).flushL1 s.focus.plot else s1
      match ans with
      | .trap t => .next (s2.trapNow t)
      | .value w acq =>
        let s3 := if acq then s2.flushL1 s.focus.plot else s2
        match (s3.afterReads [a]).writeG d (.ofWord w) with
        | .error t => .next (s2.trapNow t)
        | .ok s4 => .next (s4.advance 4)
/-- A PENNANT instruction: `prepare` makes the operation and the name from g[a], a trap, or a wait with its state. -/
def pnInstr (d a : GReg) (prepare : Word → State → Except (Trap × State) ((Option (PnOp × Word)) × State)) (s : State) : Result :=
  match tfind s.pnreqs (8 * s.focus.plot + s.focus.slot) with
  | some _ => (s.pnPerform (8 * s.focus.plot + s.focus.slot)).pnFinish d a
  | none =>
    if s.blocked [a] [d] || !s.allReleased 7 then .next s
    else match s.badReg [(0, a)] with
      | some t => .next (s.trapNow t)
      | none =>
        let v := (s.reads [a]).getD 0 .zero
        if !v.valid then .next (s.trapNow (poisonTrap v))
        else match prepare v.bits s with
          | .error (t, s1) => .next (s1.trapNow t)
          | .ok (none, s1) => .next s1
          | .ok (some (op, name), s1) => if s1.pnReady op name then (s1.pnSend op name).pnFinish d a else .next s1
/-- PNDEF (R167). -/
def execPndef (d a : GReg) (s : State) : Result :=
  pnInstr d a (fun va s =>
    if va.toNat % 8 != 0 then .error (mkTrap 0x0B va, s)
    else match s.engineRead s.focus.plot s.focus.slot (pnWaiter (8 * s.focus.plot + s.focus.slot)) (coreSig s.cur.pc s.focus.plot s.focus.slot 7) none
        ((List.range 8).map fun i => Src.va (va + BitVec.ofNat 64 (4 * i))) [] with
      | .wait s1 => .ok (none, s1)
      | .fault c v n _ s1 => .error (⟨c, v, faultInfo n ||| dieInfo n⟩, s1.dropWalks (pnWaiter (8 * s.focus.plot + s.focus.slot)) false)
      | .done ws s1 =>
        let s2 := s1.dropWalks (pnWaiter (8 * s.focus.plot + s.focus.slot)) false
        match ws.find? (!·.valid) with
        | some w => .error (mkTrap 0x18 ((normPayload w.bits).zeroExtend 64), s2)
        | none => .ok (some (.define ws, quadAt ws 0), s2)) s
/-- PNATT (R168). -/
def execPnatt (d a : GReg) (fill : Bool) (s : State) : Result := pnInstr d a (fun n s => .ok (some (.attach fill, n), s)) s
/-- PNDET (R169). -/
def execPndet (d a : GReg) (s : State) : Result := pnInstr d a (fun n s => .ok (some (.detach, n), s)) s
/-- PNDROP (R170). -/
def execPndrop (d a : GReg) (s : State) : Result := pnInstr d a (fun n s => .ok (some (.drop, n), s)) s
/-- PNREL (R171). -/
def execPnrel (d a : GReg) (s : State) : Result := pnInstr d a (fun n s => .ok (some (.release, n), s)) s
/-- PNQ (R172). -/
def execPnq (d a : GReg) (n : BitVec 3) (s : State) : Result := pnInstr d a (fun name s => .ok (some (.query n, name), s)) s

/-! ## PNEVICT and PNFILL (R173, R174) -/

/-- Name, result offset if a status is written, and origin of a fill. -/
def pnFields (i : Instr) : Word × Option Nat × Option Nat :=
  match i with
  | .pnevict _ n r w => (n, (if w then some r.toNat else none), none)
  | .pnfill _ n o r w => (n, (if w then some r.toNat else none), some o.toNat)
  | _ => (0, none, none)
/-- A PN word ends with a status; from a home on another die the answer's stamp is merged (R116, R159). -/
def State.pnWordEnd (s : State) (id : Nat) (w : SWord) (st : Nat) : State :=
  let home := s.nameHome (pnFields w.instr).1 / 128
  let s1 := if home = dieOf w.plot then s else s.mergeDv (dieOf w.plot) (s.respStamp home)
  match (pnFields w.instr).2.1 with
  | none => s1.finishing id []
  | some off => (s1.putResults w.plot off [BitVec.ofNat 32 st]).finishing id []
/-- A PN word that has reached its home goes on there. -/
def State.pnWordAct (s : State) (id : Nat) (w : SWord) : State :=
  let f := pnFields w.instr
  match s.visible (s.sessOf w.plot) f.1 with
  | none => s.pnWordEnd id w 2
  | some (k, p) =>
    if p.mover == some id then
      let s1 := s.movePennant k
      match tfind s1.pennants k with
      | some p' =>
        if p'.moving then s1.setWord id { w with progress := p'.moved }
        else if (s1.moveRemoved p' p'.origin).isSome then s1.wordFault id 0x48 0 0
        else s1.pnWordEnd id { w with progress := p.total } 0
      | none => s1
    else match f.2.2 with
      | none =>
        if p.state == .evicted then (s.leavePennant k id).pnWordEnd id w 0
        else if p.attachers != [] && !s.evictable p then (s.leavePennant k id).pnWordEnd id w 6
        else if p.mustWait id then s.joinPennant k id
        else match s.moveRemoved p p.origin with
          | some _ => (s.leavePennant k id).wordFault id 0x48 0 0
          | none => if s.moveHeld p true then s.joinPennant k id else (s.leavePennant k id).beginEvict k (some id)
      | some origin =>
        if p.state == .resident then (s.leavePennant k id).pnWordEnd id w 0
        else if p.mustWait id then s.joinPennant k id
        else if !s.placeOk (s.minePlots w.plot) origin p.w p.h p.off p.len || s.rangeTaken (some k) ((rectPlots origin p.w p.h).getD []) p.off p.len then
          (s.leavePennant k id).pnWordEnd id w 4
        else match s.moveRemoved p origin with
          | some _ => (s.leavePennant k id).wordFault id 0x48 0 0
          | none => (s.leavePennant k id).beginFill k (some id) origin
/-- A PN word's request reaches its home. -/
def State.pnWordArrive (s : State) (id : Nat) : State :=
  match tfind s.words id with
  | none => s
  | some w => let w' := { w with homed := true }
    (s.setWord id w').pnWordAct id w'
/-- A PN word: started, or carried on (R173): its result must lie in the scratchpad (R178). -/
def pnWord (s : State) : Result :=
  let id := s.focus.word
  match tfind s.words id with
  | none => .next s
  | some w =>
    if w.stage == .running then
      .next (if w.homed && (s.instLive w.plot || (s.instRuns w.plot && w.progress % 65536 != 0)) then s.pnWordAct id w else s)
    else startWord (fun id w _ s =>
      let f := pnFields w.instr
      let out := match f.2.1 with
        | some off => !s.backed (plotBase w.plot + off)
        | none => false
      let home := s.nameHome f.1 / 128
      if out then .yes (s.wordFault id 0x0A (spadVa w.plot (f.2.1.getD 0)) 0)
      else if home = dieOf w.plot then .yes (s.pnWordArrive id)
      else .yes (s.post w.plot 8 home [] (.pnWord id))) s
/-- PNEVICT (R174). -/
def execPnevict (h : SwHdr) (name : Word) (res : BitVec 19) (wres : Bool) (s : State) : Result :=
  asWord (.pnevict h name res wres) s <|
    pnWord s
/-- PNFILL (R174). -/
def execPnfill (h : SwHdr) (name : Word) (origin : BitVec 13) (res : BitVec 19) (wres : Bool) (s : State) : Result :=
  asWord (.pnfill h name origin res wres) s <|
    pnWord s

/-- An eviction by the residency manager begins, in a case of R163, for whoever asked for it, and is logged. The cases are counted from 0 in the
order of R163 (log 125). -/
def State.evictLogged (s : State) (k case : Nat) (mover : Option Nat) : State :=
  match tfind s.pennants k with
  | none => s
  | some p => (s.beginEvict k mover).logRec 0x0D p.name.toNat case
/-- The residency manager evicts a pennant behind those whose requests wait there (R159, R163). -/
def State.managerEvict (s : State) (k case : Nat) : State :=
  match tfind s.pennants k with
  | none => s
  | some p => if s.moveHeld p true || p.queue != [] || (s.moveRemoved p p.origin).isSome then s else s.evictLogged k case none
/-- PENNANT_IDLE_EVICT (R163): a pennant, HELD or of a session, whose count has been 0 for its idle time begins to be evicted; a
move of the residency manager, or one whose mover is gone, goes on. -/
def execPennantIdleEvict (sess : Option Nat) (name : Word) (s : State) : Result :=
  match s.pennants.find? fun e => e.2.name == name && (match sess with
    | some i => e.2.life == 0 && e.2.sess == i
    | none => e.2.life == 1) with
  | none => .next s
  | some (k, p) =>
    if p.moving then .next (if p.mover.isNone then s.movePennant k else s)
    else match p.idleFrom with
      | none => .next s
      | some t =>
        if p.state != .resident || p.attachers != [] || p.idle = 0xFFFFFFFF || s.clock < t + max 1 (p.idle.toNat * 1900) then .next s
        else .next (s.managerEvict k 3)

end Sys2Proof.Machine
end

