-- ==== Sys2Proof/Machine/Fabric.lean ====
section
/-! DEFINITION. The causal fabric across dies (R110-R123): counted packets, frontier flits, rebases, die removal; the optics
(R125, R126), the vertical bus (R138-R141), the packet plane's recovery (R149), control registers (R80, R131). -/

namespace Sys2Proof.Machine

/-! ## Sending -/

/-- A counted packet leaves (R110, R113): it takes the next sequence numbers, and its stamp is DV; `o` is what is sent. -/
def State.sendPacket (s : State) (id : Nat) (o : Out) : State :=
  let src := o.src
  let dst := o.dst
  let c := s.causalAt src
  let seq := c.seq + 1
  let pair := tget 0 c.pairs dst + 1
  let dv := c.dv.set src seq
  let s1 := s.modCausal src fun c => { c with seq, dv, pairs := tset c.pairs dst pair, last := tset c.last dst seq, undeliv := tset c.undeliv dst (tget 0 c.undeliv dst + 1) }
  { s1 with packets := tset s1.packets id ⟨src, dst, seq, pair, s.rebase, dv, 0, false, o.payload, o.plot, o.slot, o.cls, []⟩ }

/-! ## Delivering -/

/-- A packet may be delivered (R114). -/
def State.deliverable (s : State) (p : Packet) : Bool :=
  p.pair == vecAt (s.causalAt p.dst).pd p.src + 1 && s.covers p.dst p.stamp p.src
/-- The causal state of a unit after a delivery (R112, R114). -/
def State.noteDelivery (s : State) (p : Packet) : State :=
  let s1 := s.modCausal p.dst fun c =>
    { c with pd := c.pd.set p.src p.pair, cv := c.cv.set p.src (serialMax (vecAt c.cv p.src) (vecAt p.stamp p.src)) }
  if p.dst < 8 then s1.mergeDv p.dst p.stamp else s1
/-- A packet performed at its home (R111, R114). -/
def State.performPayload (s : State) (id dst : Nat) (p : Payload) : State :=
  match p with
  | .req k => match tfind s.reqs k with
    | none => s
    | some r => match r.op with
      | .amo _ _ => (s.performL1 r).answer k r
      | _ => ((s.performWrite r).performL1 r).finishWrite k r
  | .writes _ sig ws => s.engineStores sig ws
  | .event .. | .raised .. | .released .. | .granted .. => s.takeEvent id dst p
  | .bunt w => match tfind s.words w with
    | none => s
    | some x => (s.mergeDv (dieOf x.plot) (s.respStamp dst)).buntArrive w (unitDie dst)
  | .pennant key k => s.pnArrive key k
  | .pnWord w => s.pnWordArrive w
  | .flit _ | .permit .. | .done .. | .arrv .. => { s with tokens := tset s.tokens id p }
/-- The plots to which what is sent goes: each with its source and class names a stream (R147). -/
def State.streamTo (s : State) (dst : Nat) (p : Payload) : List Nat :=
  match p with
  | .flit f => [f.plot]
  | .writes _ _ ws => (ws.map fun x => s.homePlot x.1.toNat).eraseDups
  | .arrv _ q .. => [q]
  | .permit i g n => match tfind s.insts i with
    | some x => (if g then (tfind x.guidons n).map (·.plot) else (tfind x.actors n).map (·.plot)).toList
    | none => []
  | .done i q _ _ => ((s.guidonAt i q).map (·.plot)).toList
  | _ => (s.eventPlot dst p).toList
/-- Something sent earlier in the same stream has not left, though nothing that it waits for holds it back; a flit waits for an earlier one
whatever that waits for (R147, R152). -/
def State.outBefore (s : State) (id : Nat) (o : Out) : Bool :=
  let mine := s.streamTo o.dst o.payload
  s.outs.any fun e => decide (e.1 < id) && e.2.plot == o.plot && e.2.cls == o.cls && e.2.dst == o.dst
    && ((o.payload.isFlit && e.2.payload.isFlit) || e.2.waits.all s.relOk) && (s.streamTo e.2.dst e.2.payload).any mine.contains
/-- A flit of the slot to a peer module is not acknowledged (R326, R327). -/
def State.peerOwed (s : State) (p k : Nat) : Bool := s.peerOut.any fun e => e.2.src == p && e.2.sender == k
/-- The flit of a payload leaves for a peer module (R127). -/
def State.toPeer (s : State) (id : Nat) (p : Payload) : State :=
  match p with
  | .flit f => { s with peerOut := tset s.peerOut id f }
  | _ => s
/-- A slot stalls (R118, R122): a write or something it sent is ready to leave its die, and no sequence number can be assigned to it. -/
def State.sendStalled (s : State) (p k : Nat) : Bool :=
  s.outs.any (fun e => e.2.plot == p && e.2.slot == k && s.outStalls e.2)
    || (s.reqsOf p k).any fun e => e.2.stage == .issued && e.2.op.writes && decide (e.2.unit < 16) && e.2.unit != dieOf p && !s.isRemoved e.2.unit
      && !s.maySend (dieOf p) e.2.unit && s.mayLeave e.1 e.2 false
/-- What a packet does at its home must wait there: the deep SRAM that it acts on is behind a vertical bus under retraining (R139), an atomic or
RED reads a transient region after a write of the same clk (R84), an event finds a full inbound queue (R408). -/
def State.payloadHeld (s : State) (dst : Nat) (p : Payload) : Bool :=
  match p with
  | .req k => (tfind s.reqs k).any fun r => s.busWaits r || (match r.op with
    | .amo .. | .red .. => s.justWritten r.pa.toNat
    | _ => false)
  | .writes _ _ ws => ws.any fun x => s.busHeldAt x.1.toNat
  | _ => s.eventHeld dst p
/-- CAUSAL_DIE_REMOVED made pending in a slot. -/
def State.removedTrap (s : State) (plot slot die : Nat) (tval : Word) : State := s.pendTrap plot slot .die ⟨0x48, tval, BitVec.ofNat 64 die⟩
/-- Something under way to a removed die is lost: a stream word that needs it faults, and so does a flit's sender, with MQDST as it was (R121). -/
def State.losePayload (s : State) (die : Nat) (p : Payload) : State :=
  match p with
  | .writes w _ _ => if w < 10 ^ 12 then s.wordFault w 0x48 0 0 else match (s.portAt (w - 10 ^ 12)).bind with
    | some b => (s.bindTrap b 0x48 0 0).setBinding (w - 10 ^ 12) { b with discard := true, arc := 0 }
    | none => s
  | .bunt w | .pnWord w | .arrv w _ _ _ _ _ => s.wordFault w 0x48 0 0
  | .pennant key id => match tfind s.pnreqs key with
    | some r => if r.id = id then { s with pnreqs := tset s.pnreqs key { r with
        answer := some (.trap ⟨0x48, r.name, BitVec.ofNat 64 die⟩), stamp := (s.causalAt (dieOf (key / 8))).dv, reb := s.rebase } } else s
    | none => s
  | .flit f => s.removedTrap f.src f.sender die (BitVec.ofNat 64 (f.plot + f.slot * 65536))
  | .req _ | .event .. | .raised .. | .released .. | .granted .. | .permit .. | .done .. => s
/-- COUNTED_PACKET_SEND (R113, R118): a request to a home on another die, or something posted, leaves; within its die it acts, or
becomes a token; a flit for a peer leaves when the slot's earlier flits there are acknowledged, a release at PEER scope (R127, R153,
R326). What is addressed to a removed die is lost (R121). -/
def execCountedPacketSend (id : Nat) (s : State) : Result :=
  match tfind s.reqs id with
  | some r =>
    if r.stage == .issued && r.op.writes && decide (r.unit < 16) && r.unit != dieOf r.plot && !s.isRemoved r.unit && s.mayGo id r false
        && s.firstInStream id r && s.maySend (dieOf r.plot) r.unit then
      .next ((s.setReq id { r with stage := .sent }).sendPacket id ⟨dieOf r.plot, r.unit, r.plot, r.slot, [], .req id, r.cls⟩)
    else .next s
  | none => match tfind s.outs id with
    | none => .next s
    | some o =>
      let s1 := { s with outs := tdel s.outs id }
      if !o.waits.all s.relOk || s.outBefore id o then .next s
      else if peerUnit ≤ o.dst then .next (if s.peerOwed o.plot o.slot then s else s1.toPeer id o.payload)
      else if s.unitRemoved o.dst then .next (s1.losePayload (unitDie o.dst) o.payload)
      else if o.dst = o.src then .next (if s.payloadHeld o.dst o.payload then s else s1.performPayload id o.dst o.payload)
      else if s.maySend o.src o.dst then .next (s1.sendPacket id o)
      else .next s
/-- A packet stamped by a removed die beyond its removal point (R120). -/
def State.pastRemoval (s : State) (p : Packet) : Bool :=
  match (s.dieAt p.src).removedAt with
  | some n => !serialLe p.seq n
  | none => false
/-- An earlier packet in the same early-packet buffer can be delivered now (R119). -/
def State.earlierReady (s : State) (p : Packet) : Bool :=
  s.packets.any fun e => e.2.dst == p.dst && e.2.arrived != 0 && !e.2.delivered && (p.arrived == 0 || decide (e.2.arrived < p.arrived)) && s.deliverable e.2
/-- A packet is gone from its source's count. -/
def State.forgetPacket (s : State) (id : Nat) (p : Packet) : State :=
  let s1 := s.modCausal p.src fun c => { c with undeliv := tset c.undeliv p.dst (tget 0 c.undeliv p.dst - 1) }
  { s1 with packets := tdel s1.packets id }
/-- PACKET_ARRIVE (R114, R119, R120): a packet is delivered, or waits in the buffer of 2,048 entries. The acknowledgement of what it brings
carries its die's stamp (R110, R118). -/
def execPacketArrive (id : Nat) (s : State) : Result :=
  match tfind s.packets id with
  | none => .next s
  | some p =>
    if p.delivered || p.rebase != s.rebase then .next s
    else if s.pastRemoval p then .next ((s.forgetPacket id p).logRec 0x0A (p.src + p.seq.toNat * 1024) 0)
    else if s.deliverable p then
      if s.earlierReady p || s.payloadHeld p.dst p.payload then .next s
      else
        let s1 := ({ s with packets := tset s.packets id { p with delivered := true }, lastDelivery := s.clock }).noteDelivery p
        let s2 := { s1 with packets := tset s1.packets id { p with delivered := true, ack := s1.respStamp p.dst } }
        .next (s2.performPayload id p.dst p.payload)
    else if p.arrived = 0 && decide ((s.packets.filter fun e => e.2.dst == p.dst && e.2.arrived != 0 && !e.2.delivered).length < 2048) then
      .next { s with packets := tset s.packets id { p with arrived := s.nextId + 1 }, nextId := s.nextId + 1 }
    else .next s
/-- DELIVERY_ACK (R118). -/
def execDeliveryAck (id : Nat) (s : State) : Result :=
  match tfind s.packets id with
  | none => .next s
  | some p => if p.delivered then .next (s.forgetPacket id p) else .next s
/-- HOST_WRITE_ACKNOWLEDGED (R326): a write to host memory is acknowledged as written. -/
def execHostWriteAcknowledged (id : Nat) (s : State) : Result := .next { s with hostAcks := tdel s.hostAcks id }
/-- PEER_WRITE_ACKNOWLEDGED (R326). -/
def execPeerWriteAcknowledged (id : Nat) (s : State) : Result := .next { s with peerOut := tdel s.peerOut id }

/-! ## Frontier flits (R115) -/

/-- A packet, a read, a walk or a pennant's move waits at a unit on a die's entry. -/
def State.waitsOn (s : State) (unit die : Nat) : Bool :=
  let short (stamp : List (BitVec 10)) : Bool := !serialLe (vecAt stamp die) (s.cvOf unit die)
  s.packets.any (fun e => e.2.dst == unit && e.2.arrived != 0 && !e.2.delivered && e.2.src != die && short e.2.stamp)
    || s.reqs.any (fun e => e.2.stage == .issued && e.2.op.reads && e.2.unit == unit && short e.2.stamp)
    || (decide (unit < 8) && s.words.any fun e => short (s.causalAt (dieOf e.2.plot)).dv)
    || (decide (unit < 8) && s.walks.any fun e => short e.2.stamp)
    || (decide (unit < 8) && s.pennants.any fun e => (e.2.backDie == unit || dieOf e.2.origin == unit)
      && (short (s.causalAt unit).dv || short (s.causalAt (e.2.home / 128)).dv))
    || (decide (unit < 8) && s.ports.any fun e => e.2.bind.isSome && short (s.causalAt (dieOf (e.1 / 16))).dv)
/-- A firing's instruction that reads a descriptor or a container (R165, R246) may wait at a unit on a die's entry. -/
def State.slotWaitsOn (s : State) (unit die : Nat) : Bool :=
  decide (unit < 8) && s.slots.any fun e => e.2.firing && !e.2.held && !serialLe (vecAt (s.causalAt (dieOf (e.1 / 8))).dv die) (s.cvOf unit die)
/-- FRONTIER_REQUEST: a unit asks a die, with its stamp and the rebase number (R110). -/
def execFrontierRequest (unit : BitVec 4) (die : BitVec 3) (s : State) : Result :=
  if unitDie unit.toNat != die.toNat && !s.isRemoved die.toNat && (s.waitsOn unit.toNat die.toNat || s.slotWaitsOn unit.toNat die.toNat) then
    .next { s with asked := tset s.asked (16 * die.toNat + unit.toNat) ⟨s.respStamp unit.toNat, s.rebase⟩ }
  else .next s
/-- FRONTIER_FLIT_SEND: on request, or when SEQ has advanced by 128 since the last packet or frontier to that die. -/
def execFrontierFlitSend (die : BitVec 3) (unit : BitVec 4) (s : State) : Result :=
  let c := s.causalAt die.toNat
  let u := unit.toNat
  let due := decide (u < 8) && decide (128 ≤ (c.seq - tget 0 c.last u).toNat)
  let key := 16 * die.toNat + u
  if unitDie u = die.toNat || s.isRemoved die.toNat || s.unitRemoved u || !(due || (tfind s.asked key).any (·.reb == s.rebase)) then .next s
  else
    let s1 := s.modCausal die.toNat fun c => { c with last := tset c.last u c.seq }
    .next { s1 with frontiers := tset s1.frontiers s1.nextId ⟨die.toNat, u, c.seq, tget 0 c.pairs u, c.dv, s.rebase⟩, nextId := s1.nextId + 1, asked := tdel s1.asked key }
/-- FRONTIER_FLIT_RECEIVE: the cover entry rises once the pair sequence is delivered, at once for 0, be it that none was sent or that the
count has come round to it (log 26); a die's vector stays at least its cover vector (R112). -/
def execFrontierFlitReceive (id : Nat) (s : State) : Result :=
  match tfind s.frontiers id with
  | none => .next s
  | some f =>
    let c := s.causalAt f.unit
    if f.reb != s.rebase || (f.pair != 0 && !serialLe f.pair (vecAt c.pd f.die)) then .next s
    else
      let s1 := s.modCausal f.unit fun c => { c with cv := c.cv.set f.die (serialMax (vecAt c.cv f.die) f.seq) }
      let s2 := { s1 with frontiers := tdel s1.frontiers id }
      .next (if f.unit < 8 then s2.mergeDv f.unit c.dv else s2)

/-! ## Rebase (R122, R123) -/

/-- MAST_LINK_ERROR. -/
def execMastLinkError (s : State) : Result := .next s.startRebase
/-- REBASE_QUIET: nothing more can be delivered and nothing was for 4 us; senders retransmit. -/
def execRebaseQuiet (s : State) : Result :=
  if s.rebasing == .draining && decide (max s.rebaseAt s.lastDelivery + 7600 ≤ s.clock) && s.packets.all (fun e => e.2.delivered || !s.deliverable e.2) then .next { s with rebasing := .retransmitting }
  else .next s
/-- What goes to several dies is sent to each of them: the first part under the number given, the others under fresh ones, which are answered. -/
def State.splitWrites (s : State) (id : Nat) (o : Out) (w : Nat) (sig : BitVec 12) (ws : List (BitVec 48 × W32)) : State × List Nat :=
  let home (x : BitVec 48 × W32) := s.unitOf o.plot false x.1.toNat
  match (ws.map home).eraseDups with
  | [] => (s, [])
  | d :: t => t.foldl (fun (r : State × List Nat) e =>
      ({ r.1 with outs := tset r.1.outs r.1.nextId { o with dst := e, payload := .writes w sig (ws.filter fun x => home x == e) }, nextId := r.1.nextId + 1 },
        r.2 ++ [r.1.nextId])) ({ s with outs := tset s.outs id { o with dst := d, payload := .writes w sig (ws.filter fun x => home x == d) } }, [])
/-- Writes that have more than one part are all to perform. -/
def joinParts (id : Nat) (parts : List Nat) (l : List Nat) : List Nat := if l.contains id then l ++ parts else l
/-- Once another partition is in force (R82), what has not left goes to the homes that it gives: requests, and engines' writes. -/
def State.rehome (s : State) : State :=
  let s1 : State := { s with reqs := tmap s.reqs fun _ r => if r.stage == .issued && r.unit != 16 then { r with unit := s.unitOf r.plot false r.pa.toNat } else r }
  s1.outs.foldl (fun s e => match e.2.payload with
    | .writes w sig ws =>
      let q := s.splitWrites e.1 e.2 w sig ws
      let b (y : Binding) : Binding := { y with outs := joinParts e.1 q.2 y.outs }
      { q.1 with words := tmap q.1.words fun _ x => { x with outs := joinParts e.1 q.2 x.outs },
                 ports := tmap q.1.ports fun _ p => { p with bind := p.bind.map b, ending := p.ending.map b } }
    | _ => s) s1
/-- REBASE_RESET: every packet is delivered and acknowledged; the causal state starts anew, a partition change takes effect (R82),
and the rebase is logged. -/
def execRebaseReset (s : State) : Result :=
  if s.rebasing != .retransmitting || s.packets != [] then .next s
  else
    let zero : List (BitVec 10) := List.replicate 8 0
    let parts := s.pendingParts.foldl (fun t e => tset t e.1 e.2) s.partitions
    let s1 := { s with causal := [], frontiers := [], asked := [], rebase := s.rebase + 1, rebasing := .none, partitions := parts, pendingParts := [],
                       reqs := tmap s.reqs (fun _ r => { r with stamp := zero, reb := s.rebase + 1, stage := (match r.stage with
                         | .answering _ => .answering zero
                         | x => x) }),
                       pnreqs := tmap s.pnreqs (fun _ r => { r with stamp := zero, reb := s.rebase + 1 }), walks := tmap s.walks fun _ w => { w with stamp := zero } }
    let s2 := if s.pendingParts == [] then s1 else ({ s1 with plots := tmap s1.plots fun _ p => { p with l1 := [] } } : State).rehome
    .next (s2.logRec 0x04 (s.rebase + 1).toNat (s.clock - s.rebaseAt))

/-! ## Die removal (R120, R121) -/

/-- An outstanding request that a removed die was to serve ends. -/
def State.loseReq (s : State) (die id : Nat) (r : Req) : State :=
  if r.unit != die || r.stage == .served then s
  else if r.op.reads then
    let bad : W32 := ⟨false, payloadBits 3 r.plot 0⟩
    (s.setReq id { r with stage := .served, resp := List.replicate 16 bad }).removedTrap r.plot r.slot die r.va
  else (s.finishWrite id r).removedTrap r.plot r.slot die r.va
/-- The request of a slot that waits at a home on a removed die ends in CAUSAL_DIE_REMOVED (R121). -/
def State.losePnReqs (s : State) (die : Nat) : State :=
  { s with pnreqs := tmap s.pnreqs fun key r =>
      if r.arrived ∧ r.answer.isNone ∧ s.reqDie r = die ∧ dieOf (key / 8) ≠ die then { r with answer := some (.trap ⟨0x48, r.name, BitVec.ofNat 64 die⟩), stamp := (s.causalAt (dieOf (key / 8))).dv, reb := s.rebase } else r }
/-- A die removed (R120): its bit in the removal mask, its removal point, and the end of what it was to serve (R121). -/
def State.removeDie (s : State) (d : Nat) : State :=
  let s1 := { ((s.losePnReqs d).modDie d fun x => { x with removedAt := some (s.causalAt d).seq }) with removed := s.removed ||| (1 <<< d) }
  let s2 := s.reqs.foldl (fun s e => s.loseReq d e.1 e.2) s1
  let s3 := s.outs.foldl (fun s e => if e.2.dst < 16 && unitDie e.2.dst == d && e.2.src != d then { (s.losePayload d e.2.payload) with outs := tdel s.outs e.1 } else s) s2
  let s4 := s.packets.foldl (fun s e => if unitDie e.2.dst == d && !e.2.delivered then (s.losePayload d e.2.payload).forgetPacket e.1 e.2 else s) s3
  { s4 with frontiers := s4.frontiers.filter (fun f => f.2.die != d && unitDie f.2.unit != d),
            asked := s4.asked.filter fun e => e.1 / 16 != d && unitDie (e.1 % 16) != d }

/-! ## Optics -/

/-- Fields of report kind 3 (R423): stack, waveguide, wavelength, waveguides retired. -/
def ringWord (stack wg wl retired : Nat) : Nat := stack + wg * 16 + wl * 4096 + retired * 65536
/-- RING_RETUNE (R125): moves no data and is not visible. -/
def execRingRetune (_stack : BitVec 4) (s : State) : Result := .next s
/-- RING_HEATER_SATURATE (R126): the spare ring takes the wavelength over in 20 us, or the waveguide is retired. -/
def execRingHeaterSaturate (stack : BitVec 4) (wg : BitVec 5) (wl : BitVec 4) (s : State) : Result :=
  let o := tget Optics.init s.optics stack.toNat
  let g := wg.toNat
  if nmem o.retired g then .next s
  else if !nmem o.spares g then
    let o' := { o with spares := nins o.spares g, busy := tset o.busy g (s.clock + 38000) }
    .next ({ s with optics := tset s.optics stack.toNat o' }.logRec 0x07 (ringWord stack.toNat g wl.toNat o.retired.length) 0)
  else
    let o' := { o with retired := nins o.retired g, busy := tdel o.busy g }
    let w := ringWord stack.toNat g wl.toNat o'.retired.length
    let s1 := { s with optics := tset s.optics stack.toNat o' }.logRec 0x07 w 0
    .next (s.sessions.foldl (fun s e => s.report e.1 3 [w]) s1)
/-- RING_REASSIGN_DONE (R126). -/
def execRingReassignDone (stack : BitVec 4) (wg : BitVec 5) (s : State) : Result :=
  let o := tget Optics.init s.optics stack.toNat
  .next { s with optics := tset s.optics stack.toNat { o with busy := tdel o.busy wg.toNat } }

/-! ## The vertical bus -/

/-- The dies of a bulk vertical transfer under way (R138): a copy on deep SRAM, or a move of a pennant for a word. -/
def State.bulkDies (s : State) (id : Nat) (w : SWord) : List Nat :=
  if w.stage != .running then []
  else s.verticalDies w ++ (s.pennants.filter fun e => e.2.mover == some id && e.2.moving).map fun e => e.2.backDie
/-- Bytes at which a running transfer has nothing more to move. -/
def State.transferEnd (s : State) (id : Nat) (w : SWord) : Nat :=
  match w.instr, w.pats with
  | .mcst _ _ _ eos _, a :: _ => mcstEnd a.bytes eos
  | .pnevict .., _ | .pnfill .., _ => ((s.pennants.find? fun e => e.2.mover == some id).map (·.2.total)).getD 0
  | _, _ => (s.copyPlan w).total
/-- A transfer stands at a boundary of `n` bytes, or has moved everything. -/
def State.atBoundary (s : State) (id : Nat) (w : SWord) (n : Nat) : Bool := w.progress % n == 0 || decide (s.transferEnd id w ≤ w.progress)
/-- A retraining is deferred (R139): a BAR guidon of the die has an open generation that someone has reached, and a participant has a
bulk vertical transfer outstanding. -/
def State.deferRetrain (s : State) (d : Nat) : Bool :=
  s.insts.any fun i => i.2.guidons.any fun g => g.2.kind == 3 && dieOf g.2.plot == d && g.2.arrived != 0
    && g.2.children.any fun c => match tfind i.2.actors c.2 with
      | some a => s.words.any fun w => w.2.plot == a.plot && w.2.slot == a.slot && s.bulkDies w.1 w.2 != []
      | none => false
/-- A retraining starts: 1.5 us (R139), logged (R141). -/
def State.startRetrain (s : State) (d : Nat) (forced : Bool) : State :=
  (s.modDie d fun x => { x with retraining := some (s.clock + 2850), deferred := none }).logRec 0x05 (d + if forced then 256 else 0) 0
/-- VBUS_RETRAIN (R139): due 2 ms after the end of the last one, it runs or is deferred; deferred, it runs once nothing defers it. -/
def execVbusRetrain (die : BitVec 3) (s : State) : Result :=
  let d := die.toNat
  let x := s.dieAt d
  if !s.present d || x.retraining.isSome || decide (s.clock < x.due) then .next s
  else if s.deferRetrain d then .next (if x.deferred.isSome then s else s.modDie d fun x => { x with deferred := some s.clock })
  else .next (s.startRetrain d false)
/-- Arc field of a word, 0 if it had none (R140). -/
def wordArc (i : Instr) : BitVec 8 :=
  match wordHdr i with
  | some h => if h.post || h.await then h.arc else 0
  | none => 0
/-- VPROG of a stopped transfer (R140). -/
def vprogOf (arc : BitVec 8) (done : Nat) (act : Bool) : Word :=
  BitVec.ofNat 64 (arc.toNat * 2 ^ 40 + done / 4096 % 2 ^ 28 * 4096 + if act then 1 else 0)
/-- A slot's bulk transfer has stopped. -/
def State.stopBulk (s : State) (plot slot : Nat) (arc : BitVec 8) (done : Nat) : State :=
  s.modSlot plot slot fun x => { x with vprog := vprogOf arc done true }
/-- VBUS_RETRAIN_FORCED (R139, R140): deferred for 40 us; once every bulk transfer of the die stands at a 4-KiB boundary, they stop and record
their progress. -/
def execVbusRetrainForced (die : BitVec 3) (s : State) : Result :=
  let d := die.toNat
  let x := s.dieAt d
  match x.deferred with
  | none => .next s
  | some t =>
    if x.retraining.isSome || decide (s.clock < t + 76000)
        || s.words.any fun e => (s.bulkDies e.1 e.2).contains d && !s.atBoundary e.1 e.2 4096 then .next s
    else
      let s1 := s.words.foldl (fun s e => if (s.bulkDies e.1 e.2).contains d then s.stopBulk e.2.plot e.2.slot (wordArc e.2.instr) e.2.progress else s) s
      .next (s1.startRetrain d true)
/-- VBUS_RETRAIN_END: stopped transfers resume. -/
def execVbusRetrainEnd (die : BitVec 3) (s : State) : Result :=
  let d := die.toNat
  match (s.dieAt d).retraining with
  | none => .next s
  | some t =>
    if s.clock < t then .next s
    else
      let s1 := s.words.foldl (fun s e => if (s.bulkDies e.1 e.2).contains d then s.modSlot e.2.plot e.2.slot fun x => { x with vprog := x.vprog &&& ~~~1#64 } else s) s
      .next (s1.modDie d fun x => { x with retraining := none, due := s.clock + 3800000 })

/-! ## The packet plane and the control registers -/

/-- Something that could advance has stood in the packet plane of a die for `n` clk: a request since its issue, or a flit for a full FIFO. -/
def State.headBlocked (s : State) (die n : Nat) : Bool :=
  s.reqs.any (fun e => e.2.stage == .issued && decide (e.2.since + n ≤ s.clock) && s.mayLeave e.1 e.2 false && e.2.arr == 0
    && (dieOf e.2.plot == die || e.2.unit == die))
  || s.tokens.any fun e => match e.2 with
    | .flit f => dieOf f.plot == die && decide (32 ≤ (s.plotAt f.plot).fifo.length)
    | _ => false
/-- DEADLOCK_RECOVERY_START (R149): the switch of a plot position enters recovery, since a packet has not advanced for 4 us; no stream is reordered. -/
def execDeadlockRecoveryStart (plot : BitVec 13) (s : State) : Result :=
  .next (if (tfind s.recovery plot.toNat).isSome || !s.headBlocked (dieOf plot.toNat) 7600 then s
    else { s with recovery := tset s.recovery plot.toNat s.clock })
/-- A log record of an event that began at an earlier time (R424). -/
def State.logAt (s : State) (t kind d0 d1 : Nat) : State := { ({ s with clock := t } : State).logRec kind d0 d1 with clock := s.clock }
/-- DEADLOCK_RECOVERY_END (R149): no head has been blocked for 1 us; logged with its start and its duration. -/
def execDeadlockRecoveryEnd (plot : BitVec 13) (s : State) : Result :=
  match tfind s.recovery plot.toNat with
  | none => .next s
  | some t => .next (if s.clock < t + 1900 || s.headBlocked (dieOf plot.toNat) 1900 then s else { s with recovery := tdel s.recovery plot.toNat }.logAt t 0x06 plot.toNat (s.clock - t))
/-- An image holds plots of the die. -/
def State.dieUsed (s : State) (d : Nat) : Bool := s.insts.any fun i => i.2.plots.any fun p => dieOf p == d
/-- DCARVE_WRITE (R131, R132): only while no image is installed on the die. -/
def execDcarveWrite (die : BitVec 3) (value : Word) (s : State) : Result :=
  .next (if s.dieUsed die.toNat then s else s.dcarve die.toNat (value.extractLsb' 0 4))
/-- A PREMAP names only present dies, as firmware programs it (R81). -/
def State.remapPresent (s : State) (p : PartitionVal) : Bool := p.remap.all fun d => s.present d.toNat
/-- CONTROL_REGISTER_WRITE (R80-R82): firmware writes a partition register, in force from the rebase that this begins; it writes no PREMAP
that names an absent die. -/
def execControlRegisterWrite (pa : BitVec 48) (value : Word) (s : State) : Result :=
  let a := pa.toNat / 8 * 8
  if partBase ≤ a ∧ a < partBase + 0x400 then
    let n := (a - partBase) / 0x80
    let p := partWrite (s.nextPartition n) ((a - partBase) % 0x80) value
    .next (if (a - partBase) % 0x80 = 0x60 && !s.remapPresent p then s else s.setPartition n p)
  else .next s

end Sys2Proof.Machine
end

