-- ==== Sys2Proof/Machine/Install.lean ====
section
/-! DEFINITION. Installing and removing image instances (R341-R347, R354, R406, R414, R416, R449), ending launches, and the
commands IMAGE_INSTALL and IMAGE_REMOVE with what every command shares (R414, R417). -/

namespace Sys2Proof.Machine

/-! ## Commands -/

/-- A command changed. -/
def State.modCmd (s : State) (id : Nat) (f : Cmd → Cmd) : State :=
  match tfind s.cmds id with
  | some c => { s with cmds := tset s.cmds id (f c) }
  | none => s
/-- A command that the firmware serves, not a launch. -/
def Cmd.firmware (c : Cmd) : Bool := c.opcode != 0x10 && c.instr.isSome
/-- The firmware has done its own part of a command, which then waits for others: a QUEUE_CLOSE for its queue to drain, a SLOT_RESUME for the slot
to issue (R417, log 86). -/
def Cmd.waiting (c : Cmd) : Bool := c.served && (c.opcode == 0x02 || c.opcode == 0x1A)
/-- The firmware serves one command at a time in dispatch order (R414): it is this one's turn. -/
def State.serving (s : State) (id : Nat) : Bool := s.cmds.all fun e => decide (id ≤ e.1) || !e.2.firmware || e.2.ready || e.2.waiting
/-- The command's work is finished; `f` fills its record (R417). -/
def State.cmdDone (s : State) (id : Nat) (f : Cmd → Cmd) : State := s.modCmd id fun c => { f c with ready := true }
/-- A command refused with a cause (R417): it releases no link. -/
def State.cmdRefuse (s : State) (id : Nat) (cause : BitVec 8) : State := s.modCmd id fun c => { c with ready := true, status := 1, cause, releases := [] }
/-- The command that the focus names acts, when it is its turn: `check` refuses it with a cause before it begins. -/
def command (check : Cmd → State → Option (BitVec 8)) (run : Nat → Cmd → State → State) (s : State) : Result :=
  let id := s.focus.cmd
  match tfind s.cmds id with
  | none => .next s
  | some c =>
    if c.ready || !s.serving id then .next s
    else if c.served then .next (run id c s)
    else match check c s with
      | some cause => .next (s.cmdRefuse id cause)
      | none => .next (run id { c with served := true } (s.modCmd id fun c => { c with served := true }))
/-- A check that fails without a cause. -/
def refuseIf (b : Bool) : Option (BitVec 8) := if b then some 0 else none
/-- An instance of a session. -/
def State.instOf (s : State) (sess i : Nat) : Option Inst :=
  match tfind s.insts i with
  | some x => if x.sess = sess then some x else none
  | none => none
/-- Instances of a gang, or the instance alone (R384, R416). -/
def State.gangOf (s : State) (i : Nat) : List Nat :=
  match tfind s.insts i with
  | none => []
  | some x => match x.gang with
    | none => [i]
    | some g => (s.insts.filter fun e => e.2.gang == some g).map (·.1)
/-- Bytes lie within a session's registered memory. -/
def Session.inside (x : Session) (off len : Nat) : Bool := decide (off + len ≤ x.hlen)
/-- Quadwords written to a session's registered memory; the number under which the host will acknowledge them (R326). -/
def State.hostQuads (s : State) (sess off : Nat) (l : List Word) : Nat × State :=
  match tfind s.sessions sess with
  | none => (s.nextId, { s with nextId := s.nextId + 1 })
  | some x => (s.nextId, { s with sessions := tset s.sessions sess (hostPut x off (l.flatMap quadBytes)), nextId := s.nextId + 1,
                                  hostAcks := tset s.hostAcks s.nextId (8 * (8 * 8192) + 7) })
/-- The host has acknowledged what a command waits for. -/
def State.acked (s : State) (c : Cmd) : Bool := c.waits.all fun n => (tfind s.hostAcks n).isNone

/-! ## The records of an install (R341) -/

/-- Plots of an instance: those of its regions and those of its actors (R449). -/
def Variant.plots (v : Variant) : List Nat := (v.regions.flatMap (·.plots) ++ v.actors.map (·.actor.plot)).eraseDups
/-- A used rate entry names a port of the actor's region. -/
def Variant.rateOk (v : Variant) (a : Actor) (e : Nat × Nat) : Bool :=
  match v.regions.find? (·.index == a.region) with
  | some r => decide (e.2 / 16 < r.edgeLen (e.2 % 16))
  | none => false
/-- A guidon that may be a parent: SEQ, PIPE or STREAM, listing the child. -/
def Variant.parentOk (v : Variant) (parent : Nat) (child : Bool × Nat) : Bool :=
  parent == 255 || v.guidons.any fun g => g.index == parent && decide (g.guidon.kind < 3) && g.guidon.children.contains child
/-- An event of the variant. -/
def Variant.isEvent (v : Variant) (e : Nat) : Bool := v.guidons.any fun g => g.index == e && g.guidon.kind == 4
/-- An actor record keeps R342-R344. -/
def Variant.actorFits (v : Variant) (r : ActorRec) : Bool :=
  let a := r.actor
  v.parentOk a.parent (false, r.index) && (a.region == 255 || v.regions.any (·.index == a.region)) && (a.ins ++ a.outs).all (v.rateOk a)
    && (a.parent != 255 || a.trig || a.ins != [] || a.outs != [])
    && v.actors.all fun q => q.recIdx == r.recIdx || (q.index != r.index && !(q.actor.plot == a.plot && q.actor.slot == a.slot))
/-- A guidon record keeps R347, R350, R352. -/
def Variant.guidonFits (v : Variant) (r : GuidonRec) : Bool :=
  let g := r.guidon
  v.parentOk g.parent (true, r.index) && (g.stop == 255 || v.isEvent g.stop)
    && g.children.all (fun c => if c.1 then v.guidons.any (fun q => q.index == c.2 && q.guidon.parent == r.index)
        else v.actors.any fun q => q.index == c.2 && (g.kind == 3 || q.actor.parent == r.index))
    && (g.term0 ++ g.term1).all (fun e => v.guidons.any fun q => q.index == e && q.guidon.kind == 4 && dieOf q.guidon.plot == dieOf g.plot)
    && (g.kind != 3 || decide (g.mask.toNat < 2 ^ g.children.length))
    && v.guidons.all fun q => q.recIdx == r.recIdx || (q.index != r.index && !(q.guidon.plot == g.plot && q.guidon.node == g.node))
/-- A trigger record keeps R354. -/
def Variant.triggerFits (v : Variant) (r : TriggerRec) : Bool :=
  (r.trigger.kind != 2 || v.isEvent r.trigger.event.toNat)
    && (match r.trigger.handler with
      | some k => v.actors.any fun a => a.actor.plot == r.plot && a.actor.slot == k.toNat
      | none => true)
    && v.triggers.all fun q => q.recIdx == r.recIdx || !(q.plot == r.plot && q.entry == r.entry)
/-- The cause of a record that R341 refuses: RESERVED_FIELD, or PERMISSION for a plot not of the instance. -/
def Variant.recordCause (v : Variant) : Option (BitVec 8) :=
  if !(v.actors.all v.actorFits && v.guidons.all v.guidonFits && v.triggers.all v.triggerFits) then some 0x02
  else if !(v.guidons.all (fun g => v.plots.contains g.guidon.plot) && v.triggers.all fun t => v.plots.contains t.plot) then some 0x0A
  else none

/-! ## Installing -/

/-- Context area of a plot of a variant: 64 KiB and its scratchpad, unless its region is marked discard (R406). -/
def Variant.areaLen (v : Variant) (plot : Nat) : Nat :=
  match v.regions.find? fun r => r.plots.contains plot with
  | some r => 0x10000 + if r.discard then 0 else 0x80000 - r.l1 * 0x10000
  | none => 0x90000
/-- Context areas held on the module. -/
def State.areasHeld (s : State) : List (Nat × Nat) := s.insts.flatMap fun e => e.2.areas.map (·.2)
/-- The lowest free place for an area in the addressable deep SRAM of a die, below the pennant backing. -/
def State.freeArea (s : State) (held : List (Nat × Nat)) (d n : Nat) : Option Nat :=
  let lo := 0x10000000000 + d * 0x400000000
  let hi := (s.backRange d).1
  let fits (a : Nat) : Bool := decide (lo ≤ a) && decide (a + n ≤ hi) && held.all fun u => decide (a + n ≤ u.1) || decide (u.1 + u.2 ≤ a)
  ((lo :: held.map fun u => u.1 + u.2).filter fits).foldl (fun b a => match b with
    | none => some a
    | some c => some (min a c)) none
/-- Areas for a list of plots, or none when one finds no room. -/
def State.placeAreas (s : State) (v : Variant) : (plots : List Nat) → (held : List (Nat × Nat)) → Option (Tab (Nat × Nat))
  | [], _ => some []
  | p :: t, held => match s.freeArea held (dieOf p) (v.areaLen p) with
    | none => none
    | some a => (s.placeAreas v t ((a, v.areaLen p) :: held)).map fun r => tset r p (a, v.areaLen p)
/-- A plot as an install leaves it: no flits, words, counts or triggers, nothing cached, every granule empty (R157). A removal leaves L as it
is (R154). -/
def State.resetPlot (s : State) (inst : Option Nat) (asid : BitVec 12) (root : BitVec 48) (p : Nat) : State :=
  let base := plotBase p / 16
  { s with plots := tset s.plots p { Plot.init with inst, asid, root, l1size := if inst.isSome then 0 else (s.plotAt p).l1size }, slots := s.slots.filter fun e => e.1 / 8 != p,
           ports := s.ports.filter fun e => e.1 / 16 != p,
           mem := if inst.isSome then { s.mem with full := s.mem.full.filter fun g => g < base || base + 0x8000 ≤ g } else s.mem }
/-- The slot of an actor as an install leaves it (R22, R356, R396). -/
def actorSlot (inst idx : Nat) (a : Actor) : Slot := { Slot.init with prioFloor := a.cls, prioEff := a.cls, prioBase := a.cls, actor := some (inst, idx) }
/-- Records of a variant installed in an instance whose plots are reset. -/
def State.putRecords (s : State) (inst : Nat) (v : Variant) : State :=
  let s1 := v.actors.foldl (fun s a => s.setSlot a.actor.plot a.actor.slot (actorSlot inst a.index a.actor)) s
  let s2 := v.guidons.foldl (fun s g => s.modPlot g.guidon.plot fun p => { p with nodes := tset p.nodes g.guidon.node (inst, g.index) }) s1
  let s3 := v.triggers.foldl (fun s t => s.modPlot t.plot fun p => { p with triggers := tset p.triggers t.entry { t.trigger with inst } }) s2
  s3.writeRegions inst v
/-- An actor's slot or a guidon's node is held by an installed instance (R341). -/
def State.heldPlace (s : State) (v : Variant) : Bool :=
  (v.actors.any fun a => (s.slotAt a.actor.plot a.actor.slot).actor.isSome)
    || v.guidons.any fun g => (tfind (s.plotAt g.guidon.plot).nodes g.guidon.node).isSome
/-- One instance installed from a container's quadwords, or the cause of its refusal (R414, R416, R417). -/
def State.installOne (s : State) (sess : Nat) (root : BitVec 48) (gang : Option Nat) (remap : List (BitVec 3)) (qs : List Word) : Except (BitVec 8) State :=
  match parseContainer qs with
  | .error _ => .error 0x02
  | .ok c =>
    let x : Inst :=
      { sess, image := c.id, gang, variant := 0, adapted := false, remap, asid := BitVec.ofNat 12 s.nextInst, root, plots := [], actors := [],
        guidons := [], launch := none, rootDone := false, saved := .running, haltAt := 0, areas := [], ctx := [] }
    let plots := match s.selectVariant remap c with
      | some (v, _) => v.plots
      | none => []
    match s.loaderChecks s.nextInst { x with plots } qs with
    | .error (cause, _) => .error cause
    | .ok (v, adapted, _) =>
      match v.recordCause with
      | some cause => .error cause
      | none =>
          if s.heldPlace v then .error 0x0A
          else if plots.any fun p => (s.plotAt p).inst.isSome then .error 0
          else if s.pennants.any fun e => e.2.placed && !s.evictable e.2 && e.2.plots.any plots.contains then .error 0x0A
          else match s.placeAreas v plots s.areasHeld with
            | none => .error 0
            | some areas =>
              let i := s.nextInst
              let y := { x with variant := v.idx, adapted, plots, areas,
                                actors := v.actors.foldl (fun t a => tset t a.index a.actor) [],
                                guidons := v.guidons.foldl (fun t g => tset t g.index g.guidon) [] }
              let s1 := { s with insts := tset s.insts i y, nextInst := i + 1 }
              let s2 := plots.foldl (fun s p => s.resetPlot (some i) y.asid root p) s1
              let s3 := s2.putRecords i v
              .ok (if adapted then s3.logRec 0x03 c.id.toNat v.idx else s3)
/-- Containers installed in turn; the plots of a later one may not meet an earlier one's. -/
def State.installAll (s : State) (sess : Nat) (root : BitVec 48) (gang : Option Nat) : List (List (BitVec 3) × List Word) → Except (BitVec 8) State
  | [] => .ok s
  | (m, qs) :: t => match s.installOne sess root gang m qs with
    | .error c => .error c
    | .ok s1 => s1.installAll sess root gang t
/-- A container in DRAM (R416): its quadwords, or UNCORRECTABLE_DATA or RESERVED_FIELD. -/
def State.containerAt (s : State) (pa : Nat) : Except (BitVec 8) (List Word) :=
  match quadsOf (s.readWords 0 pa 16) with
  | none => .error 0x0C
  | some h => match quadsOf (s.readWords 0 (pa + 64) (restWords h)) with
    | none => .error 0x0C
    | some r => .ok (h ++ r)
/-- A die remap from its field. -/
def remapOf (m : BitVec 24) : List (BitVec 3) := (List.range 8).map fun i => m.extractLsb' (3 * i) 3
/-- A remap names only dies that are present and not fenced (R416). -/
def State.remapFits (s : State) (m : BitVec 24) : Bool := (remapOf m).all fun d => s.present d.toNat && !(s.dieAt d.toNat).fenced
/-- Remap and container address of every instance of an IMAGE_INSTALL. -/
def installList (pa : BitVec 48) (k : BitVec 5) (gang : Bool) (members1 : BitVec 2) (remaps : List (BitVec 24)) (others : List (BitVec 48)) :
    List (BitVec 24 × BitVec 48) :=
  if gang then (pa :: others).take (members1.toNat + 1) |>.map fun a => (remaps.getD 0 0, a)
  else (List.range k.toNat).map fun i => (remaps.getD i 0, pa)
/-- Quadwords of each container of a list, or the first cause. -/
def State.readAll (s : State) : List (BitVec 24 × BitVec 48) → Except (BitVec 8) (List (List (BitVec 3) × List Word))
  | [] => .ok []
  | (m, a) :: t => match s.containerAt a.toNat with
    | .error c => .error c
    | .ok q => match s.readAll t with
      | .error c => .error c
      | .ok l => .ok ((remapOf m, q) :: l)
/-- Everything of an IMAGE_INSTALL installed, or the cause of its refusal. -/
def State.installPlan (s : State) (sess : Nat) (pa root : BitVec 48) (k : BitVec 5) (gang : Bool) (members1 : BitVec 2) (remaps : List (BitVec 24))
    (others : List (BitVec 48)) : Except (BitVec 8) State :=
  let l := installList pa k gang members1 remaps others
  if k = 0 || 16 < k.toNat || !(l.all fun e => s.remapFits e.1 && decide (e.2.toNat < 0x8000000000)) then .error 0
  else match s.readAll l with
    | .error c => .error c
    | .ok qs => s.installAll sess root (if gang then some s.nextInst else none) qs
/-- The cause of an Except, for a check. -/
def causeOf {α : Type} : Except (BitVec 8) α → Option (BitVec 8)
  | .error c => some c
  | .ok _ => none
/-- Pennants that must leave some plots before an image is installed there, by key (R162, R163). -/
def State.pennantsOn (s : State) (plots : List Nat) : List Nat := (s.pennants.filter fun e => e.2.placed && e.2.plots.any plots.contains).map (·.1)
/-- The residency manager clears some pennants: an eviction begins, or its move goes on. One whose backing a removed die holds leaves without a
copy (log 125). -/
def State.clearPennants (s : State) (keys : List Nat) (case : Nat) : State :=
  keys.foldl (fun s k => match tfind s.pennants k with
    | none => s
    | some p =>
      if p.moving then (if p.mover.isNone then s.movePennant k else s)
      else if p.placed && s.evictable p && (s.moveRemoved p p.origin).isSome then s.endMove k { p with state := .evicting } .evicted
      else if p.placed && s.evictable p then s.managerEvict k (if case = 0 && p.attachers != [] then 4 else case) else s) s
/-- Check of IMAGE_INSTALL (R414, R416). -/
def checkImageInstall (pa root : BitVec 48) (k : BitVec 5) (gang : Bool) (members1 : BitVec 2) (remaps : List (BitVec 24)) (others : List (BitVec 48))
    (c : Cmd) (s : State) : Option (BitVec 8) := causeOf (s.installPlan c.sess pa root k gang members1 remaps others)
/-- IMAGE_INSTALL (R341, R414, R416): pennants leave the plots it needs, the instances are installed, their plots wake. -/
def execImageInstall (pa root : BitVec 48) (k : BitVec 5) (gang : Bool) (members1 : BitVec 2) (remaps : List (BitVec 24)) (others : List (BitVec 48))
    (s : State) : Result :=
  command (checkImageInstall pa root k gang members1 remaps others) (fun id c s =>
    if c.stage = 0 then
      match s.installPlan c.sess pa root k gang members1 remaps others with
      | .error cause => s.cmdRefuse id cause
      | .ok s1 =>
        let mine := (s1.insts.filter fun e => decide (s.nextInst ≤ e.1)).flatMap fun e => e.2.plots
        let keys := s.pennantsOn mine
        if keys != [] then s.clearPennants keys 0
        else s1.modCmd id fun c => { c with stage := 1, inst := BitVec.ofNat 16 s.nextInst, insts := (s1.insts.filter fun e => decide (s.nextInst ≤ e.1)).map (·.1) }
    else if c.insts.all fun i => match tfind s.insts i with
        | some x => x.plots.all fun p => (s.plotAt p).region.isNone || (s.plotAt p).awake
        | none => true
      then s.cmdDone id fun c => { c with elems := c.insts.length }
    else s) s

/-! ## Removing -/

/-- A request of a removed instance ends: a parked one is declined and logged (R96), a read is dropped, a write goes on. -/
def State.dropReq (s : State) (id : Nat) (r : Req) : State :=
  match r.stage with
  | .parked f => { s with reqs := tdel s.reqs id }.logRec 0x08 f 0
  | _ => if r.op.writes && !r.op.reads then s else { s with reqs := tdel s.reqs id }
/-- What is under way for an instance's guidons and actors (R111, R351). -/
def instPayload (inst : Nat) (p : Payload) : Bool :=
  match p with
  | .event i _ _ | .raised i _ | .released i _ _ _ | .permit i _ _ | .done i _ _ _ => i == inst
  | _ => false
/-- An instance removed (R414): disarmed, unbound, its attachments ended, its parked requests declined. -/
def State.removeInst (s : State) (i : Nat) : State :=
  match tfind s.insts i with
  | none => s
  | some x =>
    let mine (p : Nat) : Bool := x.plots.contains p
    let s1 := s.reqs.foldl (fun s e => if mine e.2.plot then s.dropReq e.1 e.2 else s) s
    let s2 := s1.walks.foldl (fun s e => if mine e.2.plot then (match e.2.parked with
        | some f => { s with walks := tdel s.walks e.1 }.logRec 0x08 f 0
        | none => { s with walks := tdel s.walks e.1 }) else s) s1
    let keys := (s2.regions.filter fun e => e.1 / 256 == i).map (·.1)
    let s3 := keys.foldl (fun s k => s.removeRegion k) s2
    let s4 := s3.endAttachments i
    let s5 := { s4 with
      insts := tdel s4.insts i, words := s4.words.filter fun e => !mine e.2.plot, pnreqs := s4.pnreqs.filter fun e => !mine (e.1 / 8),
      tokens := s4.tokens.filter fun e => !instPayload i e.2, outs := s4.outs.filter fun e => !instPayload i e.2.payload,
      patchMsgs := s4.patchMsgs.filter fun e => (tfind s4.words e.2.word).all fun w => !mine w.plot,
      pennants := tmap s4.pennants fun _ p => { p with
        mover := match p.mover with
          | some w => if x.plots.any (fun q => (List.range 8).any fun k => pnWaiter (8 * q + k) == w) || s4.words.any (fun e => e.1 == w && mine e.2.plot) then none else some w
          | none => none,
        queue := p.queue.filter fun w => !(x.plots.any (fun q => (List.range 8).any fun k => pnWaiter (8 * q + k) == w)
          || s4.words.any fun e => e.1 == w && mine e.2.plot) } }
    x.plots.foldl (fun s p => s.resetPlot none 0 0 p) s5
/-- Elements and invalid words that a launch's sink has written (R385). -/
def State.sinkCount (s : State) (cmd : Nat) : Nat × Nat :=
  match s.ports.findSome? fun e => (e.2.bind.toList ++ e.2.ending).find? fun b => b.cmd == some cmd && b.sink with
  | some b => (elemsOfWords (tagFmt b.tag) b.data, b.bad)
  | none => (0, 0)
/-- The launch of an instance ends with a status and what its sink has written; its record waits for the acknowledgements of that (R385, R414). -/
def State.endLaunch (s : State) (i : Nat) (status : BitVec 8) : State :=
  match tfind s.insts i with
  | none => s
  | some x => match x.launch with
    | none => s
    | some c =>
      let n := s.sinkCount c
      let acks := (s.hostAcks.filter fun e => decide (16384 ≤ e.2 / 64) && x.plots.contains (e.2 / 64 - 16384)).map (·.1)
      (s.modInst i fun x => { x with launch := none }).modCmd c fun c =>
        { c with status, ready := true, served := true, instr := none, elems := if c.ready then c.elems else n.1, bad := if c.ready then c.bad else n.2,
                 waits := c.waits ++ acks }
/-- An instance ended with ABORTED (R414, R426). -/
def State.killInst (s : State) (i : Nat) : State := (s.endLaunch i 4).removeInst i
/-- Check of IMAGE_REMOVE (R414). -/
def checkImageRemove (inst : BitVec 16) (c : Cmd) (s : State) : Option (BitVec 8) :=
  match s.instOf c.sess inst.toNat with
  | none => some 0
  | some x => refuseIf x.launch.isSome
/-- IMAGE_REMOVE (R163, R414): its attachments end, pennants on its plots are evicted, the instance is removed. -/
def execImageRemove (inst : BitVec 16) (s : State) : Result :=
  command (checkImageRemove inst) (fun id _ s =>
    match tfind s.insts inst.toNat with
    | none => s.cmdDone id fun c => { c with inst }
    | some x =>
      let s1 := s.endAttachments inst.toNat
      let keys := s1.pennantsOn x.plots
      if keys != [] then s1.clearPennants keys 1
      else (s1.removeInst inst.toNat).cmdDone id fun c => { c with inst }) s

end Sys2Proof.Machine
end

