-- ==== Sys2Proof/Machine/Service.lean ====
section
/-! DEFINITION. The firmware's commands on queues, links, held slots, pennants, transient regions, parked requests, translations,
dies, partitions, host memory and the log (R371-R378, R414-R417, R424, R426). -/

namespace Sys2Proof.Machine

/-! ## Queues and links -/

/-- Key of a queue. -/
def queueKey (sess queue : Nat) : Nat := 256 * sess + queue
/-- Key of a link. -/
def linkKey (sess link : Nat) : Nat := 1024 * sess + link
/-- A port has room for a queue pair (R411): one in use, or one more beside those that queues use and the management pairs, at most 1,024 on
a port and 2,048 in all. -/
def State.qpRoom (s : State) (qpn port : Nat) : Bool :=
  let used := ((s.queues.map fun e => (e.2.qpn, e.2.port)).eraseDups).filter fun e => e.1 != 1
  qpn == 1 || used.contains (qpn, port) || (decide ((used.filter fun e => e.2 == port).length < 1023) && decide (used.length < 2044))
/-- A queue pair is ready: its port carries it, and has not lost its link (R411). -/
def State.qpReady (s : State) (qpn port : Nat) : Bool := s.qpRoom qpn port && !s.qpDown.contains port
/-- Every queue pair that a session's queues use is in error; it has one. -/
def State.allDown (s : State) (k : Nat) : Bool :=
  let l := s.queues.filter fun e => e.1 / 256 == k
  l != [] && l.all fun e => !s.qpReady e.2.qpn e.2.port
/-- Sessions whose queue pairs are now all in error count their 10 s from here (R413). -/
def State.noteDown (s : State) : State :=
  { s with sessions := tmap s.sessions fun k x => if s.allDown k && x.errSince.isNone then { x with errSince := some s.clock } else x }
/-- A queue is gone. -/
def State.dropQueue (s : State) (k : Nat) : State := { s with queues := tdel s.queues k }.noteDown
/-- A queue as opening leaves it (R371). -/
def CQueue.opened (qpn port ring n : Nat) : CQueue :=
  { halted := false, qpn, port, ring, n, head := 0, tail := 0, completed := 0, records := 0, entries := [], tenq := [], patches := [],
    live := [], late := [], checked := [], closing := none, refusing := false }
/-- Ring and n of a queue keep R414-R416. -/
def ringOk (x : Session) (n ring : Nat) : Bool := decide (4 ≤ n) && decide (n ≤ 16) && ring % (32 * 2 ^ n) == 0 && x.inside ring (32 * 2 ^ n)
/-- Check of QUEUE_OPEN. -/
def checkQueueOpen (queue : BitVec 8) (n : BitVec 5) (qpn : BitVec 24) (port : BitVec 2) (ring : BitVec 48) (c : Cmd) (s : State) : Option (BitVec 8) :=
  match tfind s.sessions c.sess with
  | none => some 0
  | some x => refuseIf (queue = 0 || (tfind s.queues (queueKey c.sess queue.toNat)).isSome || !ringOk x n.toNat ring.toNat || !s.qpReady qpn.toNat port.toNat)
/-- QUEUE_OPEN (R414): the session has a ready queue pair (R413). -/
def execQueueOpen (queue : BitVec 8) (n : BitVec 5) (qpn : BitVec 24) (port : BitVec 2) (ring : BitVec 48) (s : State) : Result :=
  command (checkQueueOpen queue n qpn port ring) (fun id c s =>
    { s with queues := tset s.queues (queueKey c.sess queue.toNat) (CQueue.opened qpn.toNat port.toNat ring.toNat n.toNat),
             sessions := tmap s.sessions fun k x => if k = c.sess then { x with errSince := none } else x }.cmdDone id fun c => c) s
/-- A queue that closes has been drained up to the tail of its close: every command before that has been dispatched, or ended by a QUEUE_RESET
(R414). -/
def CQueue.drained (q : CQueue) : Bool :=
  match q.closing with
  | some t => t == q.head || decide (64 < (t - q.head).toNat)
  | none => false
/-- Dispatched commands of a queue are not complete: for a command of the queue itself, those before it. -/
def State.queueBusy (s : State) (sess queue id : Nat) (own : Bool) : Bool :=
  s.cmds.any fun e => e.2.sess == sess && e.2.queue == queue && e.1 != id && (!own || decide (e.1 < id))
/-- A link names a queue. -/
def State.linked (s : State) (sess queue : Nat) : Bool :=
  s.links.any fun e => e.1 / 1024 == sess && (e.2.producer == queue || e.2.consumer == queue)
/-- Check of QUEUE_CLOSE. -/
def checkQueueClose (queue : BitVec 8) (c : Cmd) (s : State) : Option (BitVec 8) :=
  refuseIf ((tfind s.queues (queueKey c.sess queue.toNat)).isNone || s.linked c.sess queue.toNat)
/-- QUEUE_CLOSE (R414, R417): the commands that the queue holds are dispatched, and it closes once they have completed; a queue that closes
itself goes when the record of this command is written (log 86). -/
def execQueueClose (queue : BitVec 8) (s : State) : Result :=
  command (checkQueueClose queue) (fun id c s =>
    let k := queueKey c.sess queue.toNat
    let own := c.queue == queue.toNat
    match tfind s.queues k with
    | none => s.cmdDone id fun c => c
    | some q =>
      let q' := if q.closing.isSome then q else { q with closing := some (if own then q.head else q.tail) }
      let s1 := { s with queues := tset s.queues k q' }
      if !q'.drained || s1.queueBusy c.sess queue.toNat id own then s1
      else (if own then s1 else s1.dropQueue k).cmdDone id fun c => c) s
/-- The bytes of a command entry at a position of a queue. -/
def CQueue.entryAt (q : CQueue) (pos : Nat) : List Word := tget (List.replicate 8 0) q.entries (pos % 64)
/-- An ended command's place: no instance, no result (R385). -/
def endedCmd (sess queue : Nat) (e0 : Word) (status cause : BitVec 8) (tenq : Nat) : Cmd :=
  { sess, queue, seq := e0.extractLsb' 16 16, opcode := e0.extractLsb' 0 8, crec := true, releases := [], takes := [], instr := none, tenq, served := true, ready := true,
    waits := [], insts := [], status, inst := 0xFFFF, cause, elems := 0, bad := 0, stage := 0 }
/-- The patch slots of a position's command are empty (R414). -/
def CQueue.unpatch (q : CQueue) (pos : Nat) : CQueue := { q with patches := q.patches.filter fun e => e.1 / 4 != uAt (qAt (q.entryAt pos) 0) 32 16 }
/-- Undispatched commands from a position ended with ABORTED, at most `n`, without their patches; how many. -/
def State.abortFrom (s : State) (sess queue k pos tail : Nat) : (n : Nat) → Nat × State
  | 0 => (0, s)
  | n + 1 => match tfind s.queues k with
    | none => (0, s)
    | some q =>
      if (tail + 65536 - pos % 65536) % 65536 = 0 then (0, s)
      else
        let e0 := qAt (q.entryAt pos) 0
        let len := 1 + uAt e0 8 3
        let c := endedCmd sess queue e0 4 0 (tget 0 q.tenq (pos % 64))
        let s1 := { s with cmds := tset s.cmds s.nextId c, nextId := s.nextId + 1,
                           queues := tset s.queues k { q.unpatch pos with live := q.live ++ [s.nextId] } }
        let left := (tail + 65536 - pos % 65536) % 65536
        if left ≤ len then (1, s1)
        else let r := s1.abortFrom sess queue k (pos + len) tail n
          (r.1 + 1, r.2)
/-- Launches of a queue that have not ended are aborted (R381); how many. -/
def State.abortLaunches (s : State) (sess queue : Nat) : Nat × State :=
  let l := s.insts.filter fun e => match e.2.launch with
    | some c => (tfind s.cmds c).any fun x => x.sess == sess && x.queue == queue
    | none => false
  (l.length, l.foldl (fun s e =>
    let c := e.2.launch.getD 0
    let s1 := s.endLaunch e.1 4
    { s1 with ports := tmap s1.ports fun _ p => { p with
      bind := p.bind.filter fun (b : Binding) => b.cmd != some c,
      ending := p.ending.map fun (b : Binding) => if b.cmd = some c then { b with cmd := none } else b } }) s)
/-- Check of QUEUE_RESET: another open queue. -/
def checkQueueReset (queue : BitVec 8) (c : Cmd) (s : State) : Option (BitVec 8) :=
  refuseIf (c.queue = queue.toNat || (tfind s.queues (queueKey c.sess queue.toNat)).isNone)
/-- QUEUE_RESET (R381, R414, R417): undispatched commands and launches that never ended get ABORTED records, the patches of the former are
dropped, the halt ends, head := tail. -/
def execQueueReset (queue : BitVec 8) (s : State) : Result :=
  command (checkQueueReset queue) (fun id c s =>
    let k := queueKey c.sess queue.toNat
    if c.stage = 0 then
      match tfind s.queues k with
      | none => s.cmdDone id fun c => c
      | some q =>
        let a := s.abortLaunches c.sess queue.toNat
        let r := a.2.abortFrom c.sess queue.toNat k q.head.toNat q.tail.toNat 64
        let s1 := match tfind r.2.queues k with
          | some q => { r.2 with queues := tset r.2.queues k { q with halted := false, head := q.tail, late := [], checked := [], refusing := false } }
          | none => r.2
        s1.modCmd id fun c => { c with stage := 1, elems := a.1 + r.1, waits := ((s1.cmds.filter fun e => e.2.status == 4 && e.2.sess == c.sess && e.2.queue == queue.toNat).map (·.1)) }
    else if c.waits.all fun n => (tfind s.cmds n).isNone then s.cmdDone id fun c => c
    else s) s
/-- Check of LINK_CREATE. -/
def checkLinkCreate (link : BitVec 10) (producer consumer : BitVec 8) (c : Cmd) (s : State) : Option (BitVec 8) :=
  refuseIf ((tfind s.links (linkKey c.sess link.toNat)).isSome || producer = consumer || (tfind s.queues (queueKey c.sess producer.toNat)).isNone
    || (tfind s.queues (queueKey c.sess consumer.toNat)).isNone)
/-- LINK_CREATE (R376). -/
def execLinkCreate (link : BitVec 10) (producer consumer : BitVec 8) (s : State) : Result :=
  command (checkLinkCreate link producer consumer) (fun id c s =>
    { s with links := tset s.links (linkKey c.sess link.toNat) ⟨producer.toNat, consumer.toNat, 0, false⟩ }.cmdDone id fun c => c) s
/-- Check of LINK_DESTROY. -/
def checkLinkDestroy (link : BitVec 10) (c : Cmd) (s : State) : Option (BitVec 8) := refuseIf (tfind s.links (linkKey c.sess link.toNat)).isNone
/-- LINK_DESTROY (R376, R417): its tokens are discarded and counted. -/
def execLinkDestroy (link : BitVec 10) (s : State) : Result :=
  command (checkLinkDestroy link) (fun id c s =>
    let n := match tfind s.links (linkKey c.sess link.toNat) with
      | some l => l.tokens.toNat
      | none => 0
    { s with links := tdel s.links (linkKey c.sess link.toNat) }.cmdDone id fun c => { c with elems := n }) s

/-! ## Held slots -/

/-- Check of SLOT_RESUME and SLOT_KILL: the slot of the instance is held. -/
def checkHeld (inst : BitVec 16) (plot : BitVec 13) (slot : BitVec 3) (c : Cmd) (s : State) : Option (BitVec 8) :=
  match s.instOf c.sess inst.toNat with
  | none => some 0
  | some x => refuseIf (!x.plots.contains plot.toNat || !(s.slotAt plot.toNat slot.toNat).held)
/-- SLOT_RESUME (R388, R414, R417): at TEPC with ih clear; the firing's time goes on. It completes when the slot has issued again. -/
def execSlotResume (inst : BitVec 16) (plot : BitVec 13) (slot : BitVec 3) (s : State) : Result :=
  command (checkHeld inst plot slot) (fun id c s =>
    if c.stage = 0 then
      (s.modSlot plot.toNat slot.toNat fun x =>
        { x with held := false, pc := x.tepc, tcause := x.tcause &&& ~~~0x100#64, fstart := s.clock - x.fstart, resumed := some id }).modCmd id fun c => { c with stage := 1 }
    else if (s.slotAt plot.toNat slot.toNat).resumed = some id then s
    else s.cmdDone id fun c => { c with inst }) s
/-- SLOT_KILL (R388, R414): the instance ends with ABORTED. -/
def execSlotKill (inst : BitVec 16) (plot : BitVec 13) (slot : BitVec 3) (s : State) : Result :=
  command (checkHeld inst plot slot) (fun id _ s => (s.killInst inst.toNat).cmdDone id fun c => { c with inst }) s

/-! ## Pennants -/

/-- Number by which a command's pennant request is known at the home. -/
def pnCmdWaiter (id : Nat) : Nat := 2 * 10 ^ 13 + id
/-- Check of PN_ADMIN: the name is visible to the session (R414). -/
def checkPnName (name : Word) (c : Cmd) (s : State) : Option (BitVec 8) := refuseIf (s.visible (some c.sess) name).isNone
/-- PN_ADMIN answers with a PN status (R417). -/
def State.pnDone (s : State) (id : Nat) (st : BitVec 8) : State := s.cmdDone id fun c => { c with cause := st }
/-- PN_ADMIN drop (R414): ATTACHED with any attacher; it waits for a move. -/
def execPnAdminDrop (name : Word) (s : State) : Result :=
  command (checkPnName name) (fun id c s =>
    match s.visible (some c.sess) name with
    | none => s.pnDone id 2
    | some (k, p) =>
      if p.attachers != [] then (s.leavePennant k (pnCmdWaiter id)).pnDone id 6
      else if p.mustWait (pnCmdWaiter id) then s.joinPennant k (pnCmdWaiter id)
      else (s.dropPennant k).pnDone id 0) s
/-- A move for PN_ADMIN goes on: it answers 0 when it has ended, REFUSED when a removed die has ended it (R121, log 126). -/
def State.pnMoved (s : State) (id k : Nat) : State :=
  let s1 := s.movePennant k
  match tfind s1.pennants k with
  | some p => if p.moving then s1 else s1.pnDone id (if (s1.moveRemoved p p.origin).isSome then 4 else 0)
  | none => s1.pnDone id 0
/-- PN_ADMIN evict (R163, R174, R414); of a pennant that a removed die holds back it answers REFUSED (log 126). -/
def execPnAdminEvict (name : Word) (s : State) : Result :=
  command (checkPnName name) (fun id c s =>
    let who := pnCmdWaiter id
    match s.visible (some c.sess) name with
    | none => s.pnDone id 2
    | some (k, p) =>
      if p.mover == some who then s.pnMoved id k
      else if p.state == .evicted then (s.leavePennant k who).pnDone id 0
      else if !s.evictable p then (s.leavePennant k who).pnDone id 6
      else if p.mustWait who then s.joinPennant k who
      else if (s.moveRemoved p p.origin).isSome then (s.leavePennant k who).pnDone id 4
      else if s.moveHeld p true then s.joinPennant k who
      else (s.leavePennant k who).evictLogged k 2 (some who)) s
/-- An origin is a cell plot of an instance of a session (R414). -/
def State.fillOrigin (s : State) (sess : Nat) (origin : BitVec 13) : Bool :=
  isCellPlot origin.toNat && s.insts.any fun e => e.2.sess == sess && e.2.plots.contains origin.toNat
/-- PN_ADMIN fill (R174, R414): a placement that breaks the rules answers REFUSED. -/
def execPnAdminFill (name : Word) (origin : BitVec 13) (s : State) : Result :=
  command (checkPnName name) (fun id c s =>
    let who := pnCmdWaiter id
    match s.visible (some c.sess) name with
    | none => s.pnDone id 2
    | some (k, p) =>
      if p.mover == some who then s.pnMoved id k
      else if p.state == .resident then (s.leavePennant k who).pnDone id 0
      else if p.mustWait who then s.joinPennant k who
      else if !s.fillOrigin c.sess origin || !s.placeOk (s.minePlots origin.toNat) origin.toNat p.w p.h p.off p.len
          || s.rangeTaken (some k) ((rectPlots origin.toNat p.w p.h).getD []) p.off p.len || (s.moveRemoved p origin.toNat).isSome then (s.leavePennant k who).pnDone id 4
      else (s.leavePennant k who).beginFill k (some who) origin.toNat) s
/-- A number inserted in ascending order. -/
def insertNat (n : Nat) : List Nat → List Nat
  | [] => [n]
  | m :: t => if n ≤ m then n :: m :: t else m :: insertNat n t
/-- Names of the pennants visible to a session, ascending (R416). -/
def State.visibleNames (s : State) (sess : Nat) : List Nat :=
  (s.pennants.filter fun e => e.2.life == 1 || e.2.sess == sess).foldl (fun l e => insertNat e.2.name.toNat l) []
/-- Check of PN_ADMIN list. -/
def checkList (off len : Nat) (c : Cmd) (s : State) : Option (BitVec 8) := refuseIf (!(tfind s.sessions c.sess).any fun x => x.inside off len)
/-- PN_ADMIN list (R416, R417). -/
def execPnAdminList (off : BitVec 48) (cap : BitVec 32) (s : State) : Result :=
  command (fun c s => checkList off.toNat (8 * min cap.toNat (s.visibleNames c.sess).length) c s) (fun id c s =>
    if c.stage = 0 then
      let l := (s.visibleNames c.sess).take cap.toNat
      let r := s.hostQuads c.sess off.toNat (l.map (BitVec.ofNat 64))
      r.2.modCmd id fun c => { c with stage := 1, elems := l.length, waits := [r.1] }
    else if s.acked c then s.cmdDone id fun c => c else s) s

/-! ## Transient regions (R83-R86) -/

/-- PREMAP index of an address under a partition's masks (R79). -/
def dieIndex (p : PartitionVal) (a : Nat) : Nat :=
  (List.range 3).foldl (fun n k => n + if parityBit (BitVec.ofNat 48 a &&& p.masks.getD (7 + k) 0) then 2 ^ k else 0) 0
/-- Dies that the lines of an aligned range of 2^n bytes go to under a partition (R79): each address bit changes the index by what it alone gives. -/
def rangeDies (p : PartitionVal) (a n : Nat) : List (BitVec 3) :=
  (((List.range n).foldl (fun l b => (l ++ l.map fun i => i ^^^ dieIndex p (2 ^ b)).eraseDups) [dieIndex p a]).map fun i => p.remap.getD i 0).eraseDups
/-- Dies whose stacks hold a region's lines (R79). -/
def State.regionDies (s : State) (unit : Nat) : List (BitVec 3) :=
  match s.partitionOf (unit * 0x200000) with
  | some p => rangeDies p (unit * 0x200000) 21
  | none => []
/-- Transient regions that a stack holds lines of, besides one (R83, log 79). -/
def State.stackRegions (s : State) (d : BitVec 3) (unit : Nat) : Nat :=
  (s.transients.filter fun e => e.1 != unit && (s.regionDies e.1).contains d).length
/-- Check of REGION_DECLARE (R83): a DRAM region, a lifetime in range, and at most 1,024 regions on each stack. -/
def checkDeclare (pa : BitVec 48) (life : BitVec 16) (_c : Cmd) (s : State) : Option (BitVec 8) :=
  let u := pa.toNat / 0x200000
  refuseIf (0x8000000000 ≤ pa.toNat || life = 0 || 64000 < life.toNat || (s.regionDies u).any fun d => decide (1024 ≤ s.stackRegions d u))
/-- REGION_DECLARE (R83, R84): the region is expired until it has been written in full. -/
def execRegionDeclare (pa : BitVec 48) (life : BitVec 16) (trapFlag : Bool) (s : State) : Result :=
  command (checkDeclare pa life) (fun id _ s =>
    { s with transients := tset s.transients (pa.toNat / 0x200000) ⟨s.clock, life.toNat, trapFlag, [], none⟩ }.cmdDone id fun c => c) s
/-- REGION_UNDECLARE (R86): an expired region becomes RETENTION words. -/
def execRegionUndeclare (pa : BitVec 48) (s : State) : Result :=
  command (fun _ _ => refuseIf (decide (0x8000000000 ≤ pa.toNat))) (fun id _ s =>
    let u := pa.toNat / 0x200000
    match tfind s.transients u with
    | none => s.cmdDone id fun c => c
    | some t =>
      let s1 := { s with transients := tdel s.transients u }
      (if t.deadline ≤ s.clock then s1.fillInvalid 5 (u * 0x200000) 0x80000 else s1).cmdDone id fun c => c) s

/-! ## Parked requests (R95-R97) -/

/-- The request parked under a fault id. -/
def State.parkedReq (s : State) (f : Nat) : Option (Nat × Req) := s.reqs.find? fun e => e.2.stage == .parked f
/-- The walk, or engine access to a host page, parked under a fault id. -/
def State.parkedWalk (s : State) (f : Nat) : Option (Nat × Walk) := s.walks.find? fun e => e.2.parked == some f && !e.2.declined
/-- Check of FAULT_REPLAY and FAULT_DECLINE. -/
def checkParked (id : BitVec 32) (_c : Cmd) (s : State) : Option (BitVec 8) :=
  refuseIf ((s.parkedReq id.toNat).isNone && (s.parkedWalk id.toNat).isNone)
/-- The cause under which a walk parked; kinds 10 to 12 are an engine's read and write of a host page, and a fetch from one. -/
def Walk.cause (w : Walk) : BitVec 8 := if w.kind = 10 then 0x08 else if w.kind = 11 then 0x09 else if w.kind = 12 then 0x03 else translationCause w.kind
/-- The cause under which a request parked at its home. -/
def Req.parkCause (r : Req) : BitVec 8 := if r.op.kind = 0 then 0x08 else 0x09
/-- An engine's access or a fetch that its queue issues again, unchanged (R95): performed within the registered memory, once, whether or not
anybody still waits for it. -/
def State.performWalk (s : State) (id : Nat) (w : Walk) (k : Nat) (x : Session) : State :=
  let s1 := if w.kind = 11 then { s with sessions := tset s.sessions k (hostPut x w.pa (wordBytesOf w.data.bits)),
                                         hostAcks := tset s.hostAcks s.nextId (engineAck w.plot w.slot), nextId := s.nextId + 1 } else s
  { s1 with walks := if w.orphan then tdel s1.walks id
      else tset s1.walks id { w with parked := none, done := true, data := if w.kind = 11 then w.data else hostWord x w.pa } }
/-- The home-parked accesses of a fault id replayed in order (R95, R97): those outside the registered memory park anew, under one new fault id. -/
def State.replayWalks (s : State) (f : Nat) : State :=
  ((s.walks.filter fun e => e.2.parked == some f && decide (10 ≤ e.2.kind) && !e.2.declined).foldl (fun (r : Option Nat × State) e =>
    let w := e.2
    match (r.2.hostSession w.plot).filter fun h => decide (w.pa + 4 ≤ h.2.hlen) with
    | some (k, x) => (r.1, r.2.performWalk e.1 w k x)
    | none =>
      let p := match r.1 with
        | some g => (g, r.2)
        | none => r.2.parkReport w.plot w.slot w.oc w.va w.cause false w.reportKind (slicePlot (walkerSlice w.plot w.va)) w.pa
      (some p.1, { p.2 with walks := tset p.2.walks e.1 { w with parked := some p.1 } })) (none, s)).2
/-- What is parked under a fault id is issued again, unchanged: a request, an engine's access, a walk, which walks again (R95, R97). -/
def State.replayParked (s : State) (f : Nat) : State :=
  let s1 := s.replayWalks f
  { s1 with reqs := tmap s1.reqs fun _ r => if r.stage = .parked f then { r with stage := .issued, replayed := true } else r,
            walks := tmap s1.walks fun _ w => if w.parked = some f then { w with parked := none } else w }
/-- FAULT_REPLAY (R95). -/
def execFaultReplay (id : BitVec 32) (s : State) : Result :=
  command (checkParked id) (fun n _ s =>
    let cause : BitVec 8 := match s.parkedReq id.toNat, s.parkedWalk id.toNat with
      | some (_, r), _ => r.parkCause
      | none, some (_, w) => w.cause
      | none, none => 0
    (s.replayParked id.toNat).cmdDone n fun c => { c with cause }) s
/-- A request to a host page ends without performing (R95). -/
def State.declineReq (s : State) (k : Nat) (r : Req) : State :=
  if r.op.reads then s.setReq k { r with stage := .served, resp := List.replicate 16 ⟨false, payloadBits 3 (slicePlot (walkerSlice r.plot r.va)) 0⟩ }
  else s.finishWrite k r
/-- Requests of a source parked behind one of an order class, by the slice line of its address (R97). -/
def State.behind (s : State) (k plot slot : Nat) (oc : BitVec 3) (va : Word) : Tab Req :=
  (s.reqsOf plot slot).filter fun e => decide (k < e.1) && e.2.oc == oc && e.2.unit == 16 && e.2.stage == .issued && e.2.va.toNat / 128 == va.toNat / 128
/-- What is parked under a fault id, and the core's requests behind it, ends without performing (R95, R97). -/
def State.declineParked (s : State) (f : Nat) : State :=
  let mine := (s.reqs.filter fun e => e.2.stage == .parked f).flatMap fun e => e :: s.behind e.1 e.2.plot e.2.slot e.2.oc e.2.va
  let after := (s.walks.filter fun e => e.2.parked == some f && (e.2.kind == 10 || e.2.kind == 11)).flatMap fun e => s.behind e.1 e.2.plot e.2.slot e.2.oc e.2.va
  let s1 := ((mine ++ after).map (·.1)).eraseDups.foldl (fun s k => match tfind s.reqs k with
    | some r => s.declineReq k r
    | none => s) s
  { s1 with walks := tmap (s1.walks.filter fun e => !(e.2.parked == some f && e.2.orphan)) fun _ w => if w.parked = some f then { w with declined := true } else w }
/-- FAULT_DECLINE (R95-R97), logged. -/
def execFaultDecline (id : BitVec 32) (s : State) : Result :=
  command (checkParked id) (fun n _ s =>
    let cause : BitVec 8 := match s.parkedReq id.toNat, s.parkedWalk id.toNat with
      | some (_, r), _ => r.parkCause
      | none, some (_, w) => w.cause
      | none, none => 0
    ((s.declineParked id.toNat).logRec 0x08 id.toNat 0).cmdDone n fun c => { c with cause }) s

/-! ## Translations -/

/-- Translation cache entries of every plot that fail `keep` go (R401, R414). -/
def State.shoot (s : State) (keep : Tlb → Bool) : State := { s with plots := tmap s.plots fun _ p => { p with tlb := p.tlb.filter keep } }
/-- ASID of an instance. -/
def State.asidOf (s : State) (inst : Nat) : Option (BitVec 12) := (tfind s.insts inst).map (·.asid)
/-- SHOOTDOWN of an ASID: its entries that are not global. -/
def execShootdownAsid (inst : BitVec 16) (s : State) : Result :=
  command (fun _ _ => none) (fun id _ s =>
    (match s.asidOf inst.toNat with
      | some a => s.shoot fun t => t.glob || t.asid != a
      | none => s).cmdDone id fun c => { c with inst }) s
/-- SHOOTDOWN of a page. -/
def execShootdownPage (inst : BitVec 16) (va : Word) (s : State) : Result :=
  command (fun _ _ => none) (fun id _ s =>
    (match s.asidOf inst.toNat with
      | some a => s.shoot fun t => !t.hits a (vaNat va)
      | none => s).cmdDone id fun c => { c with inst }) s
/-- SHOOTDOWN of everything. -/
def execShootdownAll (inst : BitVec 16) (s : State) : Result :=
  command (fun _ _ => none) (fun id _ s => (s.shoot fun _ => false).cmdDone id fun c => { c with inst }) s

/-! ## Dies and partitions -/

/-- Check of DIE_FENCE: a present die, not the last one that is not fenced. -/
def checkFence (die : BitVec 3) (_c : Cmd) (s : State) : Option (BitVec 8) :=
  refuseIf (!s.present die.toNat || !((List.range 8).any fun d => d != die.toNat && s.present d && !(s.dieAt d).fenced))
/-- Names and pennants that a die held are lost (R426). -/
def State.loseEntries (s : State) (d : Nat) : State :=
  let m := s.bunting.parts.findIdx (· == d)
  let names := s.bunting.names.filter fun e => s.ownerPart e.1 != m
  let gone := s.pennants.filter fun e => e.2.home / 128 == d
  let s1 := gone.foldl (fun s e => s.modDie e.2.backDie fun x => { x with backUsed := x.backUsed.filter fun u => u.1 != e.2.backing.toNat }) s
  { s1 with bunting := { s1.bunting with names }, pennants := s1.pennants.filter fun e => e.2.home / 128 != d }
/-- Counts of the unfenced stacks' blocks set to the names that map them (R426): how many became free. -/
def State.recount (s : State) : Nat × State :=
  let b := s.bunting
  let uses (k : Nat) : Nat := (b.names.filter fun e => e.2 == k).length
  b.refs.foldl (fun (r : Nat × State) e =>
    let m := b.partOf e.1
    if !r.2.partOpen m then r
    else if uses e.1 = 0 then (r.1 + 1, { r.2 with bunting := { r.2.bunting with refs := tdel r.2.bunting.refs e.1, freed := tset r.2.bunting.freed m (tget [] r.2.bunting.freed m ++ [e.1]) } })
    else (r.1, { r.2 with bunting := { r.2.bunting with refs := tset r.2.bunting.refs e.1 (BitVec.ofNat 8 (uses e.1)) } })) (0, s)
/-- Instances with a plot on a die. -/
def State.instsOn (s : State) (d : Nat) : List Nat := (s.insts.filter fun e => e.2.plots.any fun p => dieOf p == d).map (·.1)
/-- DIE_FENCE (R426): instances on the die end with ABORTED, the die is removed and the plane rebased; then its fenced bit is set, its entries are
lost and the bunting blocks recounted; reported and logged. The log goes on where R424 then places it (log 127). -/
def execDieFence (die : BitVec 3) (s : State) : Result :=
  command (checkFence die) (fun id c s =>
    let d := die.toNat
    if c.stage = 0 then
      if (s.dieAt d).fenced then s.cmdDone id fun c => c
      else
        let s1 := (s.instsOn d).foldl (fun s i => s.killInst i) s
        (s1.removeDie d).startRebase.modCmd id fun c => { c with stage := 1 }
    else if s.rebasing != .none then s
    else
      let s1 := (s.loseEntries d).modDie d fun x => { x with fenced := true }
      let r := (s1.sessions.foldl (fun s e => s.report e.1 5 [d]) s1).recount
      (r.2.logRec 0x11 d r.1).cmdDone id fun c => { c with elems := r.1 }) s
/-- PARTITION_SET (R81, R82, R414, R417): in force when the rebase that applies it has ended; firmware programs no PREMAP that names an absent
die (log 106). -/
def execPartitionSet (n : BitVec 3) (val : PartitionVal) (s : State) : Result :=
  command (fun _ s => refuseIf (s.insts != [] || !s.remapPresent val)) (fun id c s =>
    if c.stage = 0 then (s.setPartition n.toNat val).modCmd id fun c => { c with stage := 1 }
    else if (tfind s.pendingParts n.toNat).isNone then s.cmdDone id fun c => c else s) s

/-! ## Host memory and the log -/

/-- Physical address that HOST_COPY reaches at a byte: through an instance's tables unless `phys` (R416). -/
def State.copyAddr (s : State) (addr : Word) (phys : Bool) (inst i : Nat) : Option Nat :=
  let a := addr + BitVec.ofNat 64 i
  if phys then (if addr.toNat + i < 2 ^ 48 then some (addr.toNat + i) else none)
  else match tfind s.insts inst with
    | none => none
    | some x =>
      if !canonical a then none
      else match windowEntry (vaNat a) with
        | some e => some (e.addr a).toNat
        | none => match s.walkFrom (x.plots.headD 0) (vaNat a) 4 0 x.root.toNat with
          | some e => if e.host then none else some (e.addr a).toNat
          | none => none
/-- Physical addresses of the words of a HOST_COPY, or none when a word is unbacked or homed on a removed die (R121, R416). -/
def State.copyWords (s : State) (addr : Word) (phys : Bool) (inst : Nat) : (n : Nat) → (i : Nat) → Option (List Nat)
  | 0, _ => some []
  | n + 1, i => match s.copyAddr addr phys inst i with
    | none => none
    | some a => if s.backed a && !s.isRemoved (s.homeDie a) then (s.copyWords addr phys inst n (i + 4)).map (a :: ·) else none
/-- Check of HOST_COPY (R414, R416). -/
def checkHostCopy (hoff : BitVec 48) (addr : Word) (len : BitVec 40) (phys : Bool) (inst : BitVec 16) (c : Cmd) (s : State) : Option (BitVec 8) :=
  let n := len.toNat
  refuseIf (n = 0 || n % 4 != 0 || addr.toNat % 4 != 0 || !(tfind s.sessions c.sess).any (fun x => x.inside hoff.toNat n)
    || (!phys && (s.instOf c.sess inst.toNat).isNone) || (s.copyWords addr phys inst.toNat (n / 4) 0).isNone)
/-- HOST_COPY (R416, R417): host words arrive valid; toward the host every word gives its 32 bits. It waits for a bus under retraining (R139), and
to read what was written in the same clk (R84). -/
def execHostCopy (hoff : BitVec 48) (addr : Word) (len : BitVec 40) (toHost phys : Bool) (inst : BitVec 16) (s : State) : Result :=
  command (checkHostCopy hoff addr len phys inst) (fun id c s =>
    let n := len.toNat / 4
    let fill (c : Cmd) : Cmd := { c with inst := if phys then 0xFFFF else inst, elems := n }
    if c.stage = 0 then
      match s.copyWords addr phys inst.toNat n 0, tfind s.sessions c.sess with
      | some l, some x =>
        if l.any fun a => s.busHeldAt a || (toHost && s.justWritten a) then s
        else if toHost then
          let ws : List W32 := l.map fun a => s.readWord 0 a
          let s1 := { s with sessions := tset s.sessions c.sess (hostPut x hoff.toNat (ws.flatMap fun (w : W32) => wordBytesOf w.bits)), nextId := s.nextId + 1,
                             hostAcks := tset s.hostAcks s.nextId (8 * (8 * 8192) + 7) }
          s1.modCmd id fun c => { fill c with stage := 1, bad := ws.countP (fun (w : W32) => !w.valid), waits := [s.nextId] }
        else
          (((List.range n).zip l).foldl (fun s e => s.storeAt e.2 [hostWord x (hoff.toNat + 4 * e.1)]) s).cmdDone id fill
      | _, _ => s.cmdRefuse id 0
    else if s.acked c then s.cmdDone id fun c => c else s) s
/-- Quadwords of a log record (R424). -/
def LogRec.quads (r : LogRec) : List Word := [r.clock, r.seq.zeroExtend 64 <<< 32 ||| r.kind.zeroExtend 64, r.d0, r.d1]
/-- LOG_READ (R424): unread records, oldest first, are written and marked read. -/
def execLogRead (off : BitVec 48) (cap : BitVec 32) (s : State) : Result :=
  command (fun c s => checkList off.toNat (32 * min cap.toNat (s.logSeq - s.logRead)) c s) (fun id c s =>
    if c.stage = 0 then
      let n := min cap.toNat (s.logSeq - s.logRead)
      let l := (s.log.drop (s.log.length - (s.logSeq - s.logRead))).take n
      let r := { s with logRead := s.logRead + n, logLost := 0 }.hostQuads c.sess off.toNat (l.flatMap LogRec.quads)
      r.2.modCmd id fun c => { c with stage := 1, elems := n, waits := [r.1] }
    else if s.acked c then s.cmdDone id fun c => c else s) s

end Sys2Proof.Machine
end

