-- ==== Sys2Proof/Machine/Launch.lean ====
section
/-! DEFINITION. Launches (R379-R384) and pre-emption (R404-R410): BIND_STREAMS, PREEMPT, RESTORE, SAVEC, RESTC. -/

namespace Sys2Proof.Machine

/-! ## Placement (R383, R384) -/

/-- Stream ports of an instance in record order (R379): key and record. -/
def State.streamPorts (s : State) (i : Nat) : List (Nat × PortMap) :=
  let l := (s.regions.filter fun e => e.1 / 256 == i).flatMap fun e => (e.2.ports.filter fun m => m.conn == 1).map fun m => (e.2.mapKey m, m)
  l.foldl (fun acc x => acc.takeWhile (fun y => decide (y.2.recIdx ≤ x.2.recIdx)) ++ x :: acc.dropWhile (fun y => decide (y.2.recIdx ≤ x.2.recIdx))) []
/-- An instance of a session's image that may take a launch (R383, R430); one that is pre-empted takes it and waits to be restored. -/
def State.launchable (s : State) (sess : Nat) (image : Word) (x : Inst) : Bool :=
  x.sess == sess && x.image == image && x.launch.isNone && !(x.plots.any fun p => (s.dieAt (dieOf p)).hot)
/-- A name's pennant is not resident on the instance (R383). -/
def State.pnMiss (s : State) (sess : Nat) (x : Inst) (name : Word) : Nat :=
  if name = 0 then 0
  else match s.visible (some sess) name with
    | some (_, p) => if p.state == .resident && p.plots.any x.plots.contains then 0 else 1
    | none => 1
/-- The instance chosen for a launch among some (R383): fewest misses, lowest number. -/
def State.chooseInst (s : State) (sess : Nat) (pna pnb : Word) (l : List (Nat × Inst)) : Option Nat :=
  (l.foldl (fun b e =>
    let m := s.pnMiss sess e.2 pna + s.pnMiss sess e.2 pnb
    match b with
    | none => some (m, e.1)
    | some (n, j) => if m < n then some (m, e.1) else some (n, j)) none).map (·.2)
/-- A launch's miss count at an instance. -/
def State.missCount (s : State) (sess : Nat) (i : Instr) (n : Nat) : Nat :=
  match i, tfind s.insts n with
  | .bindStreams _ _ pna pnb _, some x => s.pnMiss sess x pna + s.pnMiss sess x pnb
  | _, _ => 0
/-- The instance for a launch alone. -/
def State.place1 (s : State) (sess : Nat) (i : Instr) (except : List Nat) (gang : Option Nat) : Option Nat :=
  match i with
  | .bindStreams image _ pna pnb _ =>
    s.chooseInst sess pna pnb (s.insts.filter fun e => s.launchable sess image e.2 && !except.contains e.1 && (gang.isNone || e.2.gang == gang))
  | _ => none
/-- Instances for the members of a gang, all of one gang of instances (R384). -/
def State.placeGang (s : State) (sess : Nat) (gang : Option Nat) : (members : List Instr) → (taken : List Nat) → Option (List Nat)
  | [], taken => some taken.reverse
  | i :: t, taken => match s.place1 sess i taken gang with
    | none => none
    | some k => s.placeGang sess gang t (k :: taken)
/-- Placement of the commands that dispatch together: a launch alone, or a gang, on the gang of instances with the fewest misses, the lowest
number first (R383, R384, log 107). -/
def State.placeAll (s : State) (sess : Nat) (members : List Instr) : Option (List Nat) :=
  match members with
  | [i] => (s.place1 sess i [] none).map fun k => [k]
  | _ =>
    let fits := ((s.insts.filterMap fun e => e.2.gang).eraseDups).filterMap fun g => s.placeGang sess (some g) members []
    let cost (l : List Nat) : Nat := (members.zip l).foldl (fun n e => n + s.missCount sess e.1 e.2) 0
    fits.foldl (fun b l => match b with
      | none => some l
      | some m => if cost l < cost m then some l else some m) none
/-- Check of BIND_STREAMS (R379). -/
def State.bindCheck (s : State) (sess : Nat) (image : Word) (sink : BitVec 8) (exts : List (List Word)) : Bool :=
  match s.insts.find? fun e => e.2.sess == sess && e.2.image == image with
  | none => true
  | some (i, _) =>
    let ports := s.streamPorts i
    let nums := exts.map fun e => uAt (qAt e 7) 0 8
    nums.any (fun n => decide (ports.length ≤ n)) || hasDup nums || nums.length != ports.length
      || sink = 0 || decide (exts.length < sink.toNat)
      || (match ports[nums.getD (sink.toNat - 1) 0]? with
        | some m => decide (m.2.port < 8)
        | none => true)

/-! ## BIND_STREAMS -/

/-- Valid words of quadwords. -/
def quadWords (l : List Word) : List W32 := l.flatMap fun q => [⟨true, q.extractLsb' 0 32⟩, ⟨true, q.extractLsb' 32 32⟩]

/-- Offset of the record of stream port `k` in the scratchpad of its edge plot, which holds the port of a key (R379, R380; the launch of
18_program_int8_bypass.md numbers it so). -/
def State.launchOff (s : State) (k key : Nat) : Nat := s.spad (key / 16) - 1024 + 64 * k
/-- The records of a launch's extension entries written (R380 step 1). -/
def State.launchRecords (s : State) (ports : List (Nat × PortMap)) : List (List Word) → State
  | [] => s
  | e :: t => match ports[uAt (qAt e 7) 0 8]? with
    | none => s.launchRecords ports t
    | some (key, _) => ({ s with mem := s.mem.setWords (s.place (plotBase (key / 16) + s.launchOff (uAt (qAt e 7) 0 8) key)) (quadWords (e.take 7 ++ [0])) } : State).launchRecords ports t
/-- Stream port `k` bound to its record (R216, R380 step 2), or a cause. -/
def State.bindItem (s : State) (cmd : Nat) (sink : Bool) (k key : Nat) (m : PortMap) : Except (BitVec 8) State :=
  let plot := key / 16
  match s.patternAt plot (BitVec.ofNat 13 (s.launchOff k key / 64)) with
  | .error c => .error c
  | .ok r => if tagMalformed r.tag || !tagEq r.tag m.tag then .error 0x32 else match s.openPattern r (decide (8 ≤ key % 16)) with
    | .error (c, _) => .error c
    | .ok (a, s2) => .ok (s2.installBinding key ⟨decide (key % 16 < 8), 0, plot, none, 7, 0, some cmd, sink, a, 0, [], false, a.tag, 0, 0, 0, [], false,
      [], [], accessSig (BitVec.ofNat 12 (s.launchOff k key / 64)) plot 0 7⟩)
/-- Extension entries bound in turn: the first cause with the state before it. -/
def State.bindItems (s : State) (cmd : Nat) (sink : Nat) (ports : List (Nat × PortMap)) : (k : Nat) → List (List Word) → Except (BitVec 8 × State) State
  | _, [] => .ok s
  | k, e :: t => match ports[uAt (qAt e 7) 0 8]? with
    | none => .error (0, s)
    | some (key, m) => match s.bindItem cmd (k == sink) (uAt (qAt e 7) 0 8) key m with
      | .error c => .error (c, s)
      | .ok s1 => s1.bindItems cmd sink ports (k + 1) t
/-- The root guidon of an instance: its first SEQ, PIPE or STREAM without a parent (R347, R349). -/
def Inst.rootGuidon (x : Inst) : Option Nat := (x.guidons.find? fun g => g.2.parent == 0xFF && decide (g.2.kind < 3)).map (·.1)
/-- A launch whose bind faulted ends with BIND_FAULT; its other ports are unbound with abort (R222, R380). -/
def State.bindFault (s : State) (cmd i : Nat) (cause : BitVec 8) : State :=
  let s0 := (s.endLaunch i 2).modCmd cmd fun c => { c with cause }
  { s0 with ports := tmap s0.ports fun _ p => match p.bind with
    | some b => if b.cmd = some cmd then { p with bind := some { b with unbind := b.unbind ++ [10 ^ 14], discard := b.discard || !b.read, phases := if b.read then [] else b.phases, cmd := none } } else p
    | none => p }
/-- The priorities of an instance's slots at a launch (R356): the classes of its actor records. -/
def State.launchPrio (s : State) (i : Nat) : State :=
  match tfind s.insts i with
  | none => s
  | some x => (x.actors.foldl (fun s a => s.modSlot a.2.plot a.2.slot fun y => { y with prioFloor := a.2.cls, prioBase := a.2.cls }) s).relend i
/-- BIND_STREAMS (R380) for a dispatched launch: its records are written and bound once every stream port is free and its plots are
awake; then the root guidon gets its PERMIT. -/
def execBindStreams (image : Word) (sink : BitVec 8) (pna pnb : Word) (exts : List (List Word)) (s : State) : Result :=
  let id := s.focus.cmd
  match tfind s.cmds id with
  | none => .next s
  | some c =>
    let i := c.inst.toNat
    match tfind s.insts i with
    | none => .next s
    | some x =>
      let ports := s.streamPorts i
      if c.served || c.ready || x.saved != .running || c.instr != some (.bindStreams image sink pna pnb exts) then .next s
      else if ports.any fun e => (s.portAt e.1).bind.isSome || !(s.plotAt (e.1 / 16)).awake then .next s
      else match (s.launchRecords ports exts).bindItems id sink.toNat ports 1 exts with
        | .error (cause, s1) => .next (s1.bindFault id i cause)
        | .ok s1 =>
          let s2 := (s1.launchPrio i).modCmd id fun c => { c with served := true }
          .next (match x.rootGuidon with
            | none => s2.modInst i fun x => { x with rootDone := true }
            | some e => { (s2.modInst i fun x => { x with rootDone := false }) with tokens := tset s2.tokens s2.nextId (.permit i true e), nextId := s2.nextId + 1 })

/-! ## Pre-emption (R405) -/

/-- What walkers hold of an instance is cancelled (R98). -/
def State.cancelWalks (s : State) (x : Inst) : State :=
  { s with walks := s.walks.filter fun w => !(x.plots.contains w.2.plot && decide (w.2.kind < 10)) }
/-- Every slot of an instance withdraws its waiting instruction, a CONFIG between two regions among them (R248); IDLEs end; what walkers have
parked of the instance is cancelled (R98). -/
def State.withdrawInst (s : State) (x : Inst) : State :=
  let s1 := x.plots.foldl (fun s p => (List.range 8).foldl (fun s k =>
    if (s.slotAt p k).firing then (s.withdraw p k).modSlot p k fun y => { y with idleEnd := none, loading := none } else s) s) s
  s1.cancelWalks x
/-- A word of a halting instance has stopped: at a 4-KiB boundary, a bulk vertical transfer at a 64-KiB one (R230, R405), or where a request
of its is parked, for which nothing waits (R98). -/
def State.wordStopped (s : State) (id : Nat) (w : SWord) : Bool :=
  w.stage != .running || s.walks.any (fun k => k.2.ticket == some id && k.2.parked.isSome)
    || s.atBoundary id w (if s.bulkDies id w != [] then 65536 else 4096)
/-- The halting instance has come to rest (R405): regions quiet or frozen, with no reload under way, words stopped, no retraining under way. -/
def State.quiet (s : State) (i : Nat) (x : Inst) : Bool :=
  s.regions.all (fun e => e.1 / 256 != i || ((e.2.frozenPre || (!e.2.running && e.2.ring == [])) && (!e.2.frozenLoad || e.2.lost)))
    && s.words.all (fun e => !x.plots.contains e.2.plot || s.wordStopped e.1 e.2)
    && x.plots.all fun p => (s.dieAt (dieOf p)).retraining.isNone
/-- The instance's plots enter service mode (R404); stopped bulk transfers record their progress (R140), and what walkers have parked for running
words meanwhile is cancelled too (R98). -/
def State.enterService (s : State) (x : Inst) : State :=
  let s1 := s.words.foldl (fun s e => if x.plots.contains e.2.plot && s.bulkDies e.1 e.2 != [] then
    s.stopBulk e.2.plot e.2.slot (wordArc e.2.instr) e.2.progress else s) s
  x.plots.foldl (fun s p => s.modPlot p fun y => { y with service := true }) (s1.cancelWalks x)
/-- What a rebase or a deadlock recovery on its dies added to a pre-emption (R405), in clk. -/
def State.extension (s : State) (x : Inst) : Nat :=
  let r := if s.rebasing == .none then 0 else s.clock - max s.rebaseAt x.haltAt
  s.recovery.foldl (fun n e => if x.plots.any fun p => dieOf p == dieOf e.1 then max n (s.clock - max e.2 x.haltAt) else n) r
/-- Check of PREEMPT: a running instance of the session. -/
def checkPreempt (inst : BitVec 16) (c : Cmd) (s : State) : Option (BitVec 8) :=
  match s.instOf c.sess inst.toNat with
  | none => some 0
  | some x => refuseIf (x.saved != .running)
/-- PREEMPT (R405, R406, R417): the gang halts, its plots enter service mode, and it is done when every context is saved. -/
def execPreempt (inst : BitVec 16) (s : State) : Result :=
  command (checkPreempt inst) (fun id c s =>
    if c.stage = 0 then
      let l := s.gangOf inst.toNat
      let s1 := l.foldl (fun s i => match tfind s.insts i with
        | some x => (s.modInst i fun x => { x with saved := .halting, haltAt := s.clock }).withdrawInst x
        | none => s) s
      s1.modCmd id fun c => { c with stage := 1, insts := l }
    else
      let s1 := c.insts.foldl (fun s i => match tfind s.insts i with
        | some x =>
          if x.saved == .halting && x.plots.all (fun p => !(s.plotAt p).service) && s.quiet i x then
            let n := s.extension x
            (if n = 0 then s else s.logRec 0x0E i n).enterService x
          else s
        | none => s) s
      if c.insts.all fun i => match tfind s1.insts i with
          | some x => x.saved == .saved
          | none => true
        then s1.cmdDone id fun c' => { c' with inst, elems := c.insts.foldl (fun n i => n + ((tfind s1.insts i).map (·.plots.length)).getD 0) 0 }
      else s1) s

/-! ## Saving and restoring a context (R404, R406-R409) -/

/-- First 64 bytes of a context area (R406). -/
def State.ctxHeader (s : State) (i plot : Nat) : List Word :=
  let slots := (List.range 8).foldl (fun n k => if (s.slotAt plot k).firing then n + 2 ^ k else n) 0
  [BitVec.ofNat 64 (0x4C5A5843 * 2 ^ 32 + i % 65536 * 65536 + plot), BitVec.ofNat 64 s.clock, BitVec.ofNat 64 (0x5000 + slots), 0, 0, 0, 0, 0]
/-- `n` granule bits copied from one place to another. -/
def copyFull (m : Memory) (src dst : Nat) : (n : Nat) → Memory
  | 0 => m
  | n + 1 => copyFull (m.setFe (dst + 16 * n) (m.fe (src + 16 * n))) src dst n
/-- The plot's context written to its area (R406): header, the private part, the scratchpad image unless discarded. -/
def State.savePlot (s : State) (i : Nat) (x : Inst) (p : Nat) : State :=
  let area := ((tfind x.areas p).map (·.1)).getD 0
  let discard := match s.regionOf p with
    | some (_, r) => r.discard
    | none => false
  let size := s.spad p
  let own := (List.range 16368).map fun j => (⟨true, Config.contextWord s.clock p j⟩ : W32)
  let m1 := (s.mem.setWords area (quadWords (s.ctxHeader i p))).setBulk (area + 64) own
  let m2 := if discard then m1 else copyFull (m1.setBulk (area + 0x10000) (m1.words (plotBase p) (size / 4))) (plotBase p) (area + 0x10000) (size / 16)
  let s1 := ({ s with mem := m2 }.modPlot p fun y => { y with l1 := [], tlb := [], icache := [] })
  let s2 := s1.modInst i fun x => { x with ctx := x.ctx ++ [⟨p, area, [], size, discard, s.clock, false⟩] }
  s2.modInst i fun y => if y.plots.all fun q => y.ctx.any fun c => c.plot == q then { y with saved := .saved } else y
/-- SAVEC (R404): in service mode, for a plot that has halted; in a firing it raises PERMISSION. It waits for a bus under retraining (R139). -/
def execSavec (_a : GReg) (s : State) : Result :=
  let p := s.focus.plot
  if !(s.plotAt p).service then .next (s.trapNow (mkTrap 0x0A 0))
  else match s.instAt p with
    | none => .next s
    | some (i, x) => .next (if x.saved == .halting && !(x.ctx.any fun c => c.plot == p) && !s.busHeldAt (((tfind x.areas p).map (·.1)).getD 0)
      then s.savePlot i x p else s)
/-- A header that matches the plot and the instance (R406). -/
def State.headerOk (s : State) (i p area : Nat) : Bool :=
  let ws := s.mem.words area 6
  ws.all (·.valid) && quadAt ws 0 == BitVec.ofNat 64 (0x4C5A5843 * 2 ^ 32 + i % 65536 * 65536 + p) && uAt (quadAt ws 2) 8 8 == 0x50
/-- What of the private part of a context area an uncorrectable error has reached (R406). -/
def State.ctxLost (s : State) (c : Ctx) : List Config.CtxItem :=
  (((List.range 16368).zip (s.mem.words (c.area + 64) 16368)).filter fun e => !e.2.valid).map fun e => Config.contextItem c.plot e.1
/-- A context that can be restored (R406): its header matches, and no state but register and buffer images has an uncorrectable error. -/
def State.ctxOk (s : State) (i : Nat) (c : Ctx) : Bool := s.headerOk i c.plot c.area && (s.ctxLost c).all (· != .other)
/-- A 32-bit word of a register holds an uncorrectable error (R395). -/
def Slot.spoil (x : Slot) (f : BitVec 3) (n : BitVec 5) (w : BitVec 4) : Slot := if x.bad.contains (f, n, w) then x else { x with bad := (f, n, w) :: x.bad }
/-- What a restore finds lost in the register and buffer images comes back as POISON_MEM (R395, R406). -/
def State.poisonItem (s : State) (p : Nat) (x : Config.CtxItem) : State :=
  match x with
  | .register k f n w => if (tfind s.slots (8 * p + k.toNat)).isSome then s.modSlot p k.toNat fun y => y.spoil f n w else s
  | .buffer q beat word => s.modPort (16 * p + q.toNat) fun y => { y with buf := y.buf.modify beat fun b => beatSetWord b word ⟨false, payloadBits 3 p 0⟩ }
  | .other => s
/-- A word of a v register made invalid with a payload. -/
def spoilWord (v : VReg) (w : Nat) (b : BitVec 32) : VReg :=
  { v with ok := v.ok &&& ~~~((1 : BitVec 16) <<< w), bits := (v.bits &&& ~~~((0xFFFFFFFF : BitVec 512) <<< (32 * w))) ||| (b.zeroExtend 512 <<< (32 * w)) }
/-- Words of registers that a save recorded as poison come back as POISON_MEM (R395, R406); a tag comes back NONE and a word of a q register zero
(log 81). -/
def Slot.poisoned (x : Slot) (plot : Nat) : Slot :=
  let bad := payloadBits 3 plot 0
  x.bad.foldl (fun x b =>
    let x1 : Slot := match b.1.toNat with
      | 0 => { x with g := tset x.g b.2.1.toNat ⟨false, bad.zeroExtend 64⟩ }
      | 1 => { x with a := tset x.a b.2.1.toNat ⟨false, bad.zeroExtend 64⟩ }
      | 2 => { x with v := tset x.v b.2.1.toNat (spoilWord (x.vReg plot (b.2.1.extractLsb' 0 4)) b.2.2.toNat bad) }
      | 3 => { x with q := tset x.q b.2.1.toNat (x.qReg (b.2.1.setWidth _) &&& ~~~(0xFFFFFFFF#128 <<< (32 * b.2.2.toNat))) }
      | _ => { x with v := tset x.v b.2.1.toNat { x.vReg plot (b.2.1.extractLsb' 0 4) with tag := 0 } }
    { x1 with bad := [] }) x
/-- What a happening leads to. -/
def runOn (f : State → Result) (s : State) : State :=
  match f s with
  | .next t => t
  | _ => s
/-- An entry of a plot's inbound queue acts there, under the number it came with (R409); a flit for a full FIFO stays in the packet plane (R152). -/
def State.replayItem (s : State) (plot : Nat) (e : Nat × Payload) : State :=
  let s1 : State := { s with tokens := tset s.tokens e.1 e.2 }
  match e.2 with
  | .flit _ => runOn (execFlitArrive e.1) s1
  | .permit .. => runOn (execPermitReceive e.1) s1
  | .done .. => runOn (execGuidonDoneReceive e.1) s1
  | .arrv .. => runOn (execArrvApply e.1) s1
  | p => s.actEvent (dieOf plot) p
/-- The inbound queues of an instance are replayed in arrival order, plot by plot, and its contexts end (R409). -/
def State.replay (s : State) (i : Nat) : State :=
  match tfind s.insts i with
  | none => s
  | some x => x.ctx.foldl (fun s c => c.inbound.foldl (fun s e => s.replayItem c.plot e) s) (s.modInst i fun x => { x with ctx := [] })
/-- FIREWD and BARWD time of an instance's plots has stood still since their save (R408). -/
def State.resumeTimers (s : State) (i : Nat) : State :=
  match tfind s.insts i with
  | none => s
  | some x => x.ctx.foldl (fun s c =>
      let away := s.clock - c.savedAt
      (List.range 8).foldl (fun s k => if (tfind s.slots (8 * c.plot + k)).isSome then
          s.modSlot c.plot k fun y => { y with fstart := if y.held then y.fstart else y.fstart + away } else s)
        (s.modInst i fun x => { x with guidons := tmap x.guidons fun _ g => if g.plot = c.plot then { g with deadline := g.deadline.map (· + away) } else g })) s
/-- Results of an instance's requests that its homes have served are delivered (R98, R195, R409). -/
def State.deliverHeld (s : State) (plots : List Nat) : State :=
  s.reqs.foldl (fun s e => if plots.contains e.2.plot then runOn (execLoadComplete e.1) (runOn (execReadResponseMerge e.1) s) else s) s
/-- A scratchpad word of a plot belongs to the range of a pennant that is placed there. -/
def State.inRange (s : State) (p off : Nat) : Bool :=
  s.pennants.any fun e => e.2.placed && decide (e.2.off ≤ off) && decide (off < e.2.off + e.2.len) && e.2.plots.contains p
/-- The plot's context read back (R406-R409). Of a scratchpad that is discarded the ranges of pennants stay (R162, R407). -/
def State.restorePlot (s : State) (i p : Nat) (c : Ctx) : State :=
  let image := s.mem.words (c.area + 0x10000) (c.size / 4)
  let lost := (List.range (c.size / 4)).map fun j => if s.inRange p (4 * j) then s.mem.word (plotBase p + 4 * j)
    else (⟨(Config.lostWord s.clock p j).1, (Config.lostWord s.clock p j).2⟩ : W32)
  let m1 := s.mem.setBulk (plotBase p) (if c.discard then lost else image)
  let m2 := if c.discard then m1 else copyFull m1 (c.area + 0x10000) (plotBase p) (c.size / 16)
  let s1 := { s with mem := m2 }.modInst i fun x =>
    { x with ctx := x.ctx.map fun (y : Ctx) => if y.plot = p then { y with restored := true } else y }
  let s1 := (s.ctxLost c).foldl (fun s x => s.poisonItem p x) s1
  (List.range 8).foldl (fun s k => if (tfind s.slots (8 * p + k)).isSome then
    s.modSlot p k fun x => let y := x.poisoned p
      { y with vprog := y.vprog &&& ~~~1#64 } else s) s1
/-- RESTC (R404, R406): in service mode, for a plot that is being restored. A context that cannot be restored ends the launch with
ABORTED. It waits for a bus under retraining (R139). -/
def execRestc (_a : GReg) (s : State) : Result :=
  let p := s.focus.plot
  if !(s.plotAt p).service then .next (s.trapNow (mkTrap 0x0A 0))
  else match s.instAt p with
    | none => .next s
    | some (i, x) =>
      if x.saved != .restoring then .next s
      else match x.ctx.find? fun c => c.plot == p && !c.restored with
        | none => .next s
        | some c =>
          if s.busHeldAt c.area then .next s
          else if s.ctxOk i c then .next (s.restorePlot i p c)
          else .next ((s.endLaunch i 4).modInst i fun x => { x with saved := .saved })
/-- Where a restore of some instances needs a pennant (R162, R409): at the placement at which one of them attached, else at the plot of the slot
that attached, as PNATT fills (R168), where it fits an image and no removed die must be reached; none when it is there, or is not theirs. -/
def State.refillAt (s : State) (l : List Nat) (p : Pennant) : Option Nat :=
  match p.attachers.find? fun a => l.contains a.1 with
  | none => none
  | some a =>
    let origin := tget p.origin p.places a.1
    if p.state == .resident && p.origin == origin then none
    else [origin, a.2 / 8].find? fun o => s.placeOk (s.minePlots o) o p.w p.h p.off p.len && (s.moveRemoved p o).isNone
/-- Pennants that a restore must have moved first, by key, with their placements. -/
def State.toRefill (s : State) (l : List Nat) : List (Nat × Nat) := s.pennants.filterMap fun e => (s.refillAt l e.2).map fun o => (e.1, o)
/-- Other pennants that hold the range that one needs at an origin. -/
def State.blockers (s : State) (k : Nat) (p : Pennant) (origin : Nat) : List Nat :=
  (s.pennants.filter fun e => e.1 != k && e.2.placed && decide (p.off < e.2.off + e.2.len) && decide (e.2.off < p.off + p.len)
    && e.2.plots.any ((rectPlots origin p.w p.h).getD []).contains).map (·.1)
/-- A pennant comes nearer to where a restore needs it (R162, R163): its move goes on, it is evicted from elsewhere, those in its range are
evicted, its fill begins. -/
def State.refillOne (s : State) (k origin : Nat) : State :=
  match tfind s.pennants k with
  | none => s
  | some p =>
    if p.moving then (if p.mover.isNone then s.movePennant k else s)
    else if p.state == .resident then (if s.evictable p then s.managerEvict k 0 else s)
    else if s.blockers k p origin != [] then s.clearPennants (s.blockers k p origin) 0
    else s.beginFill k none origin
/-- They are refilled, a piece at a time. -/
def State.refill (s : State) (l : List (Nat × Nat)) : State := l.foldl (fun s e => s.refillOne e.1 e.2) s
/-- Check of RESTORE: saved, or on its way to it. -/
def checkRestore (inst : BitVec 16) (c : Cmd) (s : State) : Option (BitVec 8) :=
  match s.instOf c.sess inst.toNat with
  | none => some 0
  | some x => refuseIf (x.saved == .running || x.saved == .restoring)
/-- RESTORE (R409, R410, R417): after the save, pennants are refilled and every plot runs RESTC; then inbound queues are replayed and results
delivered, and the gang runs again. -/
def execRestore (inst : BitVec 16) (s : State) : Result :=
  command (checkRestore inst) (fun id c s =>
    let l := s.gangOf inst.toNat
    let is (v : Saved) : Bool := l.all fun i => match tfind s.insts i with
      | some x => x.saved == v
      | none => true
    if c.stage = 0 then
      if !is .saved then s
      else if l.any fun i => ((tfind s.insts i).map (·.plots)).getD [] |>.any fun p => s.isRemoved (dieOf p) then
        (l.foldl (fun s i => (s.endLaunch i 4).modInst i fun x => { x with areas := x.areas.filter fun e => s.isRemoved (dieOf e.1) }) s).cmdDone id
          fun c => { c with inst, status := 4 }
      else
        let keys := s.toRefill l
        if keys != [] then s.refill keys
        else (l.foldl (fun s i => s.modInst i fun x => { x with saved := .restoring }) s).modCmd id fun c => { c with stage := 1 }
    else if l.any fun i => (tfind s.insts i).any (·.saved == .saved) then
      (l.foldl (fun s i => s.modInst i fun x => { x with saved := .saved }) s).cmdDone id fun c => { c with inst, status := 4 }
    else if l.all fun i => (((tfind s.insts i).map (·.ctx)).getD []).all (·.restored) then
      let plots := l.flatMap fun i => ((tfind s.insts i).map (·.plots)).getD []
      let s0 := l.foldl (fun s i => s.replay i) (l.foldl (fun s i => s.resumeTimers i) s)
      let s1 := (l.foldl (fun s i => s.modInst i fun x => { x with saved := .running }) s0).deliverHeld plots
      let s2 := plots.foldl (fun s p => s.modPlot p fun y => { y with service := false }) s1
      let s3 := { s2 with regions := tmap s2.regions fun k r => if l.contains (k / 256) then { r with frozenPre := false } else r }
      (l.foldl (fun s i => s.pumpInst i) s3).cmdDone id fun c => { c with inst, elems := plots.length }
    else s) s

end Sys2Proof.Machine
end

