-- ==== Sys2Proof/Machine/Frontend.lean ====
section
/-! DEFINITION. The command front end (R371-R376, R378, R384, R385): entries and doorbells, patches, dispatch, completion. -/

namespace Sys2Proof.Machine

/-! ## Entries and doorbells (R371) -/

/-- A queue changed. -/
def State.modQueue (s : State) (k : Nat) (f : CQueue → CQueue) : State :=
  match tfind s.queues k with
  | some q => { s with queues := tset s.queues k (f q) }
  | none => s
/-- Entries enqueued up to a tail that were not before, stamped with the clock (R371). -/
def CQueue.stamp (q : CQueue) (tail : BitVec 16) (clock : Nat) : CQueue :=
  let n := (tail - q.head).toNat
  let old := (q.tail - q.head).toNat
  { q with tail, tenq := (List.range (n - old)).foldl (fun t j => tset t ((q.head.toNat + old + j) % 64) clock) q.tenq }
/-- A host write on a queue pair reaches the front end: the ports are open, and the pair is ready and no management queue pair (R411, R413,
R429). -/
def State.qpTakes (s : State) (qpn port : Nat) : Bool := s.powered && qpn != 1 && s.qpReady qpn port
/-- RDMA_WRITE (R371): an entry written on the queue's own queue pair lands in its slot. -/
def execRdmaWrite (sess queue : Nat) (qpn : BitVec 24) (port : BitVec 2) (slot : BitVec 6) (entry : List Word) (s : State) : Result :=
  .next (if s.qpTakes qpn.toNat port.toNat then s.modQueue (queueKey sess queue) fun q =>
      if q.qpn = qpn.toNat ∧ q.port = port.toNat then { q with entries := tset q.entries slot.toNat ((List.range 8).map fun i => entry.getD i 0) } else q
    else s)
/-- DOORBELL (R371): the tail is taken; one more than 64 entries beyond the head, or on another queue pair, halts the queue. -/
def execDoorbell (sess queue : Nat) (qpn : BitVec 24) (port : BitVec 2) (tail : BitVec 16) (s : State) : Result :=
  .next (if s.qpTakes qpn.toNat port.toNat then s.modQueue (queueKey sess queue) fun q =>
      if q.qpn ≠ qpn.toNat ∨ q.port ≠ port.toNat ∨ 64 < (tail - q.head).toNat then { q with halted := true } else q.stamp tail s.clock
    else s)

/-! ## Entries at the head (R372, R373) -/

/-- Positions of the undispatched commands whose entries are all enqueued. -/
def CQueue.pendingFrom (q : CQueue) : (n : Nat) → (pos : Nat) → List Nat
  | 0, _ => []
  | n + 1, pos =>
    let left := (q.tail.toNat + 65536 - pos % 65536) % 65536
    let len := 1 + uAt (qAt (q.entryAt pos) 0) 8 3
    if left < len then [] else pos % 65536 :: q.pendingFrom n (pos + len)
/-- Undispatched commands of a queue, by position. -/
def CQueue.pending (q : CQueue) : List Nat := q.pendingFrom 64 q.head.toNat
/-- Entries of the command at a position. -/
def CQueue.length (q : CQueue) (pos : Nat) : Nat := 1 + uAt (qAt (q.entryAt pos) 0) 8 3
/-- Quadwords of the command at a position. -/
def CQueue.quads (q : CQueue) (pos : Nat) : List Word := (List.range (q.length pos)).flatMap fun j => q.entryAt (pos + j)
/-- ptag of a command. -/
def ptagOf (e : List Word) : Nat := uAt (qAt e 0) 32 16
/-- npatch of a command. -/
def npatchOf (e : List Word) : Nat := uAt (qAt e 0) 48 3
/-- Link entries of a kind, by their link ids. -/
def linksOf (e : List Word) (kind : Nat) : List Nat :=
  (List.range 4).filterMap fun k => if uAt (qAt e 1) (16 * k + 14) 2 = kind then some (uAt (qAt e 1) (16 * k) 10) else none
/-- Patch targets. -/
def targetsOf (e : List Word) : List Nat := (List.range (npatchOf e)).map fun k => uAt (qAt e 2) (16 * k) 16
/-- A link entry that breaks R373 or R376. -/
def State.linkBad (s : State) (sess queue : Nat) (e : List Word) : Bool :=
  (List.range 4).any (fun k => uAt (qAt e 1) (16 * k + 10) 4 != 0) || linksOf e 3 != []
    || (linksOf e 1).any (fun l => !(tfind s.links (linkKey sess l)).any fun x => x.consumer == queue)
    || (linksOf e 2).any (fun l => !(tfind s.links (linkKey sess l)).any fun x => x.producer == queue)
/-- Patch fields that break R372 or R373. -/
def CQueue.patchBad (q : CQueue) (pos : Nat) (e : List Word) : Bool :=
  decide (4 < npatchOf e) || (targetsOf e).any (fun t => t < 6 || 16 * q.length pos ≤ t) || hasDup (targetsOf e)
    || qAt e 2 >>> (16 * min 4 (npatchOf e)) != 0
    || (npatchOf e != 0 && q.pending.any fun p => p != pos && ptagOf (q.entryAt p) == ptagOf e)
/-- The header of a command breaks R372 or R373. -/
def State.headerBad (s : State) (sess queue : Nat) (q : CQueue) (pos : Nat) (e : List Word) : Bool :=
  qAt e 0 &&& 0xFFF800000000C000 != 0 || s.linkBad sess queue e || q.patchBad pos e
/-- A 32-bit command word replaced (R378). -/
def patchQuads (e : List Word) (t : Nat) (v : BitVec 32) : List Word :=
  e.set (t / 2) (if t % 2 = 0 then (qAt e (t / 2)).extractLsb' 32 32 ++ v else v ++ (qAt e (t / 2)).extractLsb' 0 32)
/-- What a patch slot holds for a dispatch in a clock: what arrived before it (R378). -/
def Patch.now (p : Patch) (clock : Nat) : Option (BitVec 32) := if p.since < clock then some p.val else p.prev
/-- A patch slot written in a clock. -/
def Patch.put (p : Option Patch) (v : BitVec 32) (clock : Nat) : Patch := ⟨v, clock, p.bind fun p => p.now clock⟩
/-- Values of a command's patch slots for a dispatch in a clock, when all are written. -/
def CQueue.slotVals (q : CQueue) (e : List Word) (clock : Nat) : Option (List (BitVec 32)) :=
  (List.range (npatchOf e)).foldr (fun k l => match (tfind q.patches (4 * ptagOf e + k)).bind (·.now clock), l with
    | some v, some l => some (v :: l)
    | _, _ => none) (some [])
/-- The entry list of a command's quadwords. -/
def entriesOf (e : List Word) : List (List Word) := (List.range (e.length / 8)).map fun j => (e.drop (8 * j)).take 8
/-- The instruction that a command's opcode and body give. -/
def bodyInstr (e : List Word) : Option Instr := decodeCommand ((qAt e 0).extractLsb' 0 8) ((e.drop 3).take 5) ((entriesOf e).drop 1)
/-- The instruction of a command, or none when R373 refuses its body. -/
def State.bodyOf (s : State) (sess : Nat) (e : List Word) : Option Instr :=
  match bodyInstr e with
  | some (.bindStreams image sink pna pnb exts) => if s.bindCheck sess image sink exts then none else some (.bindStreams image sink pna pnb exts)
  | r => r
/-- What can be said of a command at the head: refused, found in order, waiting, or its instruction with its entry as patched (R373, R374). -/
inductive Head where
  | refuse
  | pass
  | wait
  | go (e : List Word) (i : Instr)
  deriving DecidableEq, Repr
/-- Checks of one command (R373, R378): once when it comes to the head, as it was enqueued; the body of one that is patched again, as it then stands. -/
def State.head (s : State) (sess queue : Nat) (q : CQueue) (pos : Nat) : Head :=
  let e := q.quads pos
  if !q.checked.contains pos then (if s.headerBad sess queue q pos e || (s.bodyOf sess e).isNone then .refuse else .pass)
  else match q.slotVals e s.clock with
    | none => .wait
    | some vs =>
      let e' := ((targetsOf e).zip vs).foldl (fun e x => patchQuads e x.1 x.2) e
      match (if vs = [] then bodyInstr e else s.bodyOf sess e') with
      | none => .refuse
      | some i => .go e' i
/-- The gang bit of the command at a position (R384). -/
def CQueue.gangBit (q : CQueue) (pos : Nat) : Bool := (qAt (q.entryAt pos) 0).getLsbD 11
/-- Positions of the enqueued commands that dispatch with the one at the head, and whether the gang is enqueued whole (R384). -/
def CQueue.gang (q : CQueue) : List Nat → List Nat × Bool
  | [] => ([], false)
  | p :: t => if q.gangBit p then (p :: (q.gang t).1, (q.gang t).2) else ([p], true)

/-! ## Dispatch (R374, R384) -/

/-- A token count lowered. -/
def State.takeToken (s : State) (k : Nat) : State :=
  match tfind s.links k with
  | some l => { s with links := tset s.links k { l with tokens := l.tokens - 1 } }
  | none => s
/-- A token added (R376): at 65,535 the overflow is flagged and logged. -/
def State.addToken (s : State) (k : Nat) : State :=
  match tfind s.links k with
  | some l => if l.tokens = 0xFFFF then { s with links := tset s.links k { l with overflow := true } }.logRec 0x0C (k % 1024) 0
    else { s with links := tset s.links k { l with tokens := l.tokens + 1 } }
  | none => s
/-- Every link has the tokens that a list of waits takes. -/
def State.tokensFor (s : State) (sess : Nat) (l : List Nat) : Bool :=
  l.all fun i => decide (l.count i ≤ ((tfind s.links (linkKey sess i)).map (·.tokens.toNat)).getD 0)
/-- The command at a position leaves the queue with the patches of its tag, but for those that another undispatched command declares (R373,
R378): of slots at or above `keep`, and late rewrites, the loss is logged. -/
def State.dropPatches (s : State) (k : Nat) (pos keep : Nat) : State :=
  match tfind s.queues k with
  | none => s
  | some q =>
    let tag := ptagOf (q.entryAt pos)
    let n := npatchOf (q.entryAt pos)
    let mine (e : Nat × Patch) : Bool := e.1 / 4 == tag
      && (decide (e.1 % 4 < n) || !(q.pending.any fun p => p != pos && ptagOf (q.entryAt p) == tag && decide (e.1 % 4 < npatchOf (q.entryAt p))))
    let s1 := { s with queues := tset s.queues k { q with patches := q.patches.filter fun e => !mine e } }
    (q.patches.filter fun e => mine e && (decide (keep ≤ e.1 % 4) || decide (s.clock ≤ e.2.since))).foldl
      (fun s e => s.logRec 0x09 (k % 256 + tag * 256 + e.1 % 4 * 2 ^ 24) 0) s1
/-- A command refused at the head (R373): the queue goes on behind it. -/
def State.refuseAt (s : State) (sess queue k : Nat) (q : CQueue) (pos : Nat) : State :=
  let e := q.quads pos
  let s1 := s.dropPatches k pos 0
  let c := endedCmd sess queue (qAt e 0) 1 0 (tget 0 q.tenq (pos % 64))
  { (s1.modQueue k fun q => { q with head := BitVec.ofNat 16 (pos + q.length pos), live := q.live ++ [s1.nextId], checked := q.checked.filter (· != pos) }) with
    cmds := tset s1.cmds s1.nextId c, nextId := s1.nextId + 1 }
/-- A command dispatched, on an instance if it is a launch. -/
def State.dispatchAt (s : State) (sess queue k : Nat) (q : CQueue) (pos : Nat) (e : List Word) (i : Instr) (inst : Option Nat) : State :=
  let id := s.nextId
  let c : Cmd :=
    { sess, queue, seq := (qAt e 0).extractLsb' 16 16, opcode := (qAt e 0).extractLsb' 0 8, crec := (qAt e 0).getLsbD 13,
      releases := (linksOf e 2).map (linkKey sess), takes := (linksOf e 1).map (linkKey sess), instr := some i, tenq := tget 0 q.tenq (pos % 64), served := false, ready := false,
      waits := [], insts := [], status := 0, inst := match inst with
        | some n => BitVec.ofNat 16 n
        | none => 0xFFFF, cause := 0, elems := 0, bad := 0, stage := 0 }
  let s1 := s.dropPatches k pos (npatchOf e)
  let s2 := (linksOf e 1).foldl (fun s l => s.takeToken (linkKey sess l)) s1
  let s3 := { (s2.modQueue k fun q =>
      { q with head := BitVec.ofNat 16 (pos + q.length pos), live := q.live ++ [id], checked := q.checked.filter (· != pos),
               late := nins q.late (ptagOf e) }) with cmds := tset s2.cmds id c, nextId := id + 1 }
  match inst with
  | some n => s3.modInst n fun x => { x with launch := some id, rootDone := false }
  | none => s3
/-- What the front end does with the commands at a queue's head: nothing, a halt, the note that their checks have passed, a refusal of all, or a
dispatch of all. -/
inductive Plan where
  | none
  | halt
  | pass (l : List Nat)
  | refuse (l : List Nat)
  | go (l : List (Nat × List Word × Instr × Option Nat))
  deriving DecidableEq, Repr
/-- The images of a gang's members were installed as part of one gang (R384). -/
def State.gangImages (s : State) (sess : Nat) (l : List Instr) : Bool :=
  ((s.insts.filterMap fun e => if e.2.sess = sess then e.2.gang else none).eraseDups).any fun g => l.all fun i => match i with
    | .bindStreams image _ _ _ _ => s.insts.any fun e => e.2.gang == some g && e.2.image == image
    | _ => false
/-- The plan for members whose checks passed (R374). -/
def State.planGo (s : State) (sess : Nat) (q : CQueue) (l : List (Nat × List Word × Instr)) : Plan :=
  let launches := l.map (·.2.2)
  if (l.any fun m => (qAt m.2.1 0).getLsbD 12) && q.live != [] then .none
  else if !s.tokensFor sess (l.flatMap fun m => linksOf m.2.1 1) then .none
  else match l with
    | [(p, e, i)] => match i with
      | .bindStreams .. => match s.placeAll sess [i] with
        | some [n] => .go [(p, e, i, some n)]
        | _ => .none
      | i => .go [(p, e, i, Option.none)]
    | _ => match s.placeAll sess launches with
        | some ns => .go ((l.zip ns).map fun x => (x.1.1, x.1.2.1, x.1.2.2, some x.2))
        | Option.none => .none
/-- A gang's member that is no BIND_STREAMS (R384). -/
def CQueue.notLaunch (q : CQueue) (pos : Nat) : Bool := (qAt (q.entryAt pos) 0).extractLsb' 0 8 != 0x10
/-- Its seq is not the entry's position (R373). -/
def CQueue.seqBad (q : CQueue) (pos : Nat) : Bool := uAt (qAt (q.entryAt pos) 0) 16 16 != pos
/-- What a queue dispatches from: one that closes, up to the tail of its close (R414). -/
def CQueue.open_ (q : CQueue) : CQueue :=
  match q.closing with
  | some t => { q with tail := if q.drained then q.head else t }
  | none => q
/-- The plan for a queue (R373, R374, R384): the command at the head and those of its gang are checked once as they come, a seq even before the last
entry of its command has come (log 86); a gang refused is refused with every member, one enqueued later too. -/
def State.plan (s : State) (sess queue : Nat) (q0 : CQueue) : Plan :=
  let q := q0.open_
  if q.halted || q.head = q.tail then .none
  else
    let g := q.gang (q.pending.take 5)
    let ps := g.1
    let many := decide (1 < ps.length) || !g.2
    if q.seqBad q.head.toNat || ps.any q.seqBad then .halt
    else if q.refusing then (if ps = [] then .none else .refuse (ps.take 1))
    else
      let hs := ps.map fun p => s.head sess queue q p
      let l := (ps.zip hs).filterMap fun x => match x.2 with
        | .go e i => some (x.1, e, i)
        | _ => none
      let news := ps.filter fun p => !q.checked.contains p
      if ps != [] && (hs.any (· == .refuse) || decide (4 < ps.length) || (many && ps.any q.notLaunch)) then .refuse ps
      else if news != [] then .pass news
      else if !g.2 || hs.any (· == .wait) then .none
      else if many && !s.gangImages sess (l.map (·.2.2)) then .refuse ps
      else s.planGo sess q l
/-- The next queue that the front end serves, round-robin after the last one (R374). -/
def State.nextQueue (s : State) : Option Nat :=
  ((s.queues.filter fun e => decide (s.lastQueue < e.1)) ++ s.queues.filter fun e => decide (e.1 ≤ s.lastQueue)).findSome? fun e =>
    if s.plan (e.1 / 256) (e.1 % 256) e.2 = .none then none else some e.1
/-- COMMAND_DISPATCH (R373, R374, R384): the queue that is to be served dispatches the command at its head, its gang with it; or
they are refused, or the queue halts. -/
def execCommandDispatch (sess queue : Nat) (s : State) : Result :=
  let k := queueKey sess queue
  if s.nextQueue != some k then .next s
  else match tfind s.queues k with
    | none => .next s
    | some q => match s.plan sess queue q with
      | .none => .next s
      | .halt => .next (s.modQueue k fun q => { q with halted := true })
      | .pass l => .next (s.modQueue k fun q => { q with checked := q.checked ++ l })
      | .refuse l => .next ((l.foldl (fun s p => s.refuseAt sess queue k q p) s).modQueue k fun x => { x with refusing := l.getLast?.any q.gangBit })
      | .go l => .next { (l.foldl (fun s m => s.dispatchAt sess queue k q m.1 m.2.1 m.2.2.1 m.2.2.2) s) with lastQueue := k }

/-! ## Patches (R226, R378) -/

/-- Patches held for commands not yet enqueued. -/
def State.heldPatches (s : State) : Nat :=
  s.queues.foldl (fun n e => n + (e.2.patches.filter fun p => !(e.2.pending.any fun pos => ptagOf (e.2.entryAt pos) == p.1 / 4)).length) 0
/-- PATCH_ARRIVE (R226, R378): held, applied, or dropped and logged; its word completes. -/
def execPatchArrive (id : Nat) (s : State) : Result :=
  match tfind s.patchMsgs id with
  | none => .next s
  | some m =>
    let k := queueKey m.sess m.queue
    let tag := m.tag.toNat
    let taken (s : State) : State := ({ s with patchMsgs := tdel s.patchMsgs id }).finishing m.word []
    let drop := taken (s.logRec 0x09 (m.queue + tag * 256 + m.slot.toNat * 2 ^ 24) 0)
    let put := taken (s.modQueue k fun q => { q with patches := let k := 4 * tag + m.slot.toNat; tset q.patches k (Patch.put (tfind q.patches k) m.value s.clock) })
    match tfind s.queues k with
    | none => .next drop
    | some q => match q.pending.filter fun p => ptagOf (q.entryAt p) == tag with
      | p :: ps => .next (if (p :: ps).any fun p => decide (m.slot.toNat < npatchOf (q.entryAt p)) then put else drop)
      | [] =>
        if nmem q.late tag then .next drop
        else if 64 ≤ s.heldPatches && (tfind q.patches (4 * tag + m.slot.toNat)).isNone then .next s
        else .next put

/-! ## Completion (R375, R381, R385) -/

/-- Every write of a launch's bindings to a host page has been acknowledged (R385). -/
def State.sinkAcked (s : State) (x : Inst) : Bool := s.hostAcks.all fun e => e.2 / 64 < 16384 || !x.plots.contains (e.2 / 64 - 16384)
/-- The command may complete: its work is finished; a launch also needs its sink's writes to host pages acknowledged, also after its end, and,
unless it ended otherwise, its root's DONE. -/
def State.completes (s : State) (c : Cmd) : Bool :=
  c.ready && (c.opcode != 0x10 || (s.acked c && (match tfind s.insts c.inst.toNat with
    | some x => (c.status != 0 || x.rootDone) && s.sinkAcked x
    | none => true)))
/-- Quadwords of a completion record (R385). -/
def Cmd.record (c : Cmd) (clock : Nat) : List Word :=
  let status : BitVec 8 := if c.status = 0 ∧ c.bad ≠ 0 then 3 else c.status
  [c.inst ++ c.cause ++ BitVec.ofNat 8 c.queue ++ status ++ c.opcode ++ c.seq,
   BitVec.ofNat 64 (min c.bad 0xFFFFFF * 2 ^ 40 + c.elems % 2 ^ 40), BitVec.ofNat 64 c.tenq, BitVec.ofNat 64 clock]
/-- COMMAND_COMPLETE (R375, R381, R385): links are released and the count advances, then the record is written. A command that the
firmware refused consumes no token; a queue that closes itself goes with its record. -/
def execCommandComplete (id : Nat) (s : State) : Result :=
  match tfind s.cmds id with
  | none => .next s
  | some c =>
    if !s.completes c then .next s
    else
      let k := queueKey c.sess c.queue
      let s1 := (if c.status = 1 then c.takes else c.releases).foldl (fun s l => s.addToken l) s
      let s2 := s1.modQueue k fun q => { q with completed := q.completed + 1, live := q.live.filter (· != id) }
      let s3 := match tfind s2.queues k with
        | some q => if c.crec || c.status = 1 then
            ((s2.modQueue k fun q => { q with records := q.records + 1 }).hostQuads c.sess (q.ring + 32 * (q.records % 2 ^ q.n)) (c.record s.clock)).2
          else s2
        | none => s2
      let s4 := { s3 with cmds := tdel s3.cmds id, insts := tmap s3.insts fun _ x => if x.launch = some id then { x with launch := none } else x }
      let own := c.opcode == 2 && c.status == 0 && ((tfind s4.queues k).any (·.closing.isSome)) && (match c.instr with
        | some (.queueClose q) => q.toNat == c.queue
        | _ => false)
      .next (if own then s4.dropQueue k else s4)

end Sys2Proof.Machine
end

