-- ==== Sys2Proof/Machine/System.lean ====
section
/-! DEFINITION. The SYSTEM group but SAVEC and RESTC (R392, R394, R396-R403), system registers, and the faults of fetch and decode
(R45-R47). -/

namespace Sys2Proof.Machine

/-! ## System registers (R396) -/

/-- CAPS (R425). -/
def State.caps (s : State) : Word :=
  let fenced := (List.range 8).foldl (fun n d => n + if s.present d && (s.dieAt d).fenced then 2 ^ d else 0) 0
  let part := match s.part with
    | .lzx8 => 0
    | .lzx6 => 1
    | .lzx8n => 2
  let fp64 := if s.part == .lzx8n then 0 else 65536
  BitVec.ofNat 64 (fenced * 2 ^ 32 + part * 2 ^ 24 + fp64 + s.part.dies.toNat * 257)
/-- PRIOCUR (R356). -/
def Slot.priocur (x : Slot) : Word := (x.prioFloor ++ x.prioEff ++ x.prioBase).zeroExtend 64
/-- PERMISSION with a register number (R396). -/
def regTrap (num : BitVec 12) : Trap := mkTrap 0x0A (num.zeroExtend 64)
/-- What FXDAT reads (R394): an item of a plot of the slot's instance. -/
def State.fxdat (s : State) : Except Trap Word :=
  let sel := s.cur.fxsel
  let p := uAt sel 0 13
  let item := uAt sel 24 8
  let i := uAt sel 16 8
  let bad : Trap := mkTrap 0x0A sel
  let mine := match s.instAt s.focus.plot with
    | some (_, x) => x.plots.contains p
    | none => false
  let limit := [16, 16, 8, 1, 16, 16].getD item 0
  if uAt sel 32 32 != 0 || uAt sel 13 3 != 0 || !mine || limit ≤ i then .error bad
  else
    let key := 16 * p + i
    match item with
    | 0 => .ok (BitVec.ofNat 64 (s.portAt key).buf.length)
    | 1 => match (s.portAt key).bind with
      | some b => .ok (BitVec.ofNat 64 (2 ^ 63 + elemsOfWords (tagFmt b.tag) b.words % 2 ^ 40))
      | none => .ok 0
    | 2 => .ok (s.slotAt p i).fcount
    | 3 => match s.regionOf p with
      | some (_, r) => .ok (r.status.zeroExtend 64)
      | none => .ok 0
    | 4 => let a := tget ⟨0, 0, 0⟩ (s.plotAt p).arrivals i
      .ok ((a.batch ++ a.count).zeroExtend 64)
    | _ => .ok (if (s.portAt key).bind.isSome && ((s.regionOf (key / 16)).any fun e => e.2.frozenTrap || e.2.frozenProg) then 1 else 0)
/-- A system register read (R396, R400). -/
def State.sysRead (s : State) (num : BitVec 12) : Except Trap Val :=
  let x := s.cur
  let p := s.focus.plot
  let w (v : Word) : Except Trap Val := .ok (.ofWord v)
  let n (v : Nat) : Except Trap Val := .ok (.ofWord (BitVec.ofNat 64 v))
  if 0x010 ≤ num.toNat ∧ num.toNat ≤ 0x017 then .ok (x.aReg p (num.toNat - 0x010))
  else match num.toNat with
    | 0x000 => n ((match s.regionOf p with
      | some (_, r) => r.index
      | none => 0xFF) * 8192 + p)
    | 0x001 => n (((s.plotAt p).inst.getD 0) % 65536 * 65536 + (match x.actor with
      | some (_, a) => a
      | none => 0) * 256 + s.focus.slot)
    | 0x002 => w s.caps
    | 0x003 => w (s.dieSig (dieOf p))
    | 0x004 => n (s.removedMask.toNat * 256 + s.rebase.toNat)
    | 0x005 => n s.clock
    | 0x020 => w x.fpctl
    | 0x021 => w x.fpstat
    | 0x030 => w x.mqdst
    | 0x031 => w x.priocur
    | 0x032 => w x.firewd
    | 0x033 => w x.barwd
    | 0x040 => w (x.cntld.zeroExtend 64)
    | 0x041 => w (x.cntst.zeroExtend 64)
    | 0x042 => w (x.cntcp.zeroExtend 64)
    | 0x043 => w (x.cnttl.zeroExtend 64)
    | 0x044 => w x.vprog
    | 0x050 => w x.tcause
    | 0x051 => w x.tepc
    | 0x052 => w x.tval
    | 0x053 => w x.tinfo
    | 0x054 => w x.tvec
    | 0x060 => w x.fxsel
    | 0x061 => match s.fxdat with
      | .error t => .error t
      | .ok v => w v
    | _ => .error (regTrap num)
/-- A writable system register written (R389, R396, R397): fields marked RO keep their zeros. None for a register that is not
writable. -/
def Slot.sysWrite (x : Slot) (num : Nat) (v : Val) : Option Slot :=
  if 0x010 ≤ num ∧ num ≤ 0x017 then some { x.mend 1 (BitVec.ofNat 5 (num - 0x010)) with a := tset x.a (num - 0x010) v }
  else match num with
    | 0x020 => some { x with fpctl := v.bits &&& 0x1F7 }
    | 0x021 => some { x with fpstat := v.bits &&& 0x3F }
    | 0x030 => some { x with mqdst := v.bits }
    | 0x032 => some { x with firewd := v.bits }
    | 0x033 => some { x with barwd := v.bits }
    | 0x051 => some { x with tepc := v.bits &&& 0xFFFFFFFFFFFFFFFC }
    | 0x054 => some { x with tvec := v.bits &&& 0xFFFFFFFFFFFFFFFC }
    | 0x060 => some { x with fxsel := v.bits }
    | _ => none

/-! ## The instructions -/

/-- NOP (R399). -/
def execNop (s : State) : Result := .next (s.advance 4)
/-- TRAP (R389, R399): TEPC is the next instruction. -/
def execTrap (code : BitVec 11) (s : State) : Result :=
  .next (s.takeTrap (mkTrap 0x51 (code.zeroExtend 64)) (s.cur.pc + 4))
/-- BRK: TEPC is the instruction itself. -/
def execBrk (code : BitVec 11) (s : State) : Result := .next (s.trapNow (mkTrap 0x52 (code.zeroExtend 64)))
/-- ERET (R399). -/
def execEret (s : State) : Result := .next (if s.cur.ih then s.eretReturn else s.trapNow (mkTrap 0x0A 0))
/-- SYSRD (R400). -/
def execSysrd (d : GReg) (num : BitVec 12) (s : State) : Result :=
  match (if 0x010 ≤ num.toNat ∧ num.toNat ≤ 0x017 then s.badReg [(1, (num - 0x010).setWidth 5)] else none) with
  | some t => .next (s.trapNow t)
  | none => scalar 4 [] d (fun _ => s.sysRead num) s
/-- SYSWR (R396, R400): an invalid value is consumed before the number is looked at, but for an a register. -/
def execSyswr (d : GReg) (num : BitVec 12) (s : State) : Result :=
  control 4 [d] [] (fun vs s' =>
    let v := vs.getD 0 .zero
    if !v.valid && !(0x010 ≤ num.toNat && num.toNat ≤ 0x017) then .error (poisonTrap v)
    else match s'.cur.sysWrite num.toNat v with
      | none => .error (regTrap num)
      | some x => .ok (some (s'.setCur x))) s
/-- TCINV (R401). -/
def execTcinv (a : GReg) (k : BitVec 2) (s : State) : Result :=
  control 4 (if k = 1 then [a] else []) [] (fun vs s' =>
    match consume vs with
    | some t => .error t
    | none =>
      let va := vaNat (vs.getD 0 .zero).bits
      .ok (some (s'.modPlot s.focus.plot fun p => { p with tlb := p.tlb.filter fun t =>
        if k = 0 then t.glob || t.asid != p.asid else if k = 1 then !t.hits p.asid va else false }))) s
/-- ICINV (R402). -/
def execIcinv (s : State) : Result := .next ((s.modPlot s.focus.plot fun p => { p with icache := [] }).advance 4)
/-- IDLE (R403): a flit that already waits, or a pending trap, ends it at once. -/
def execIdle (a : GReg) (s : State) : Result :=
  control 4 [a] [] (fun vs s' =>
    match consume vs with
    | some t => .error t
    | none =>
      let n := min (vs.getD 0 .zero).bits.toNat 65535
      let now := n = 0 || s'.cur.pend != [] || s'.flits s.focus.plot s.focus.slot != []
      .ok (some (s'.modCur fun x => { x with idleEnd := if now then none else some (s.clock + n) }))) s

/-! ## Faults before an instruction (R45-R47, R392) -/

/-- DECODE_FAULT: ILLEGAL or RESERVED_FIELD at the instruction, with word0 and the offending bit. -/
def execDecodeFault (illegal : Bool) (bit : BitVec 5) (word0 : BitVec 32) (s : State) : Result :=
  .next (s.trapNow ⟨if illegal then 0x01 else 0x02, word0.zeroExtend 64, bit.zeroExtend 64⟩)
/-- FETCH_FAULT: a word cannot be fetched; `straddle` when it is the second word of an L form. -/
def execFetchFault (cause : BitVec 8) (va : Word) (straddle : Bool) (s : State) : Result :=
  .next (s.trapNow ⟨cause, va, if straddle then 0x200000000 else 0⟩)

end Sys2Proof.Machine
end

