-- ==== Sys2Proof/Machine/Host.lean ====
section
/-! DEFINITION. Sessions and management messages (R411-R415, R418-R421), bring-up, heat, defects and storage errors (R395, R427-R430). -/

namespace Sys2Proof.Machine

/-! ## Management messages (R415) -/

/-- Quadword at a byte of a message. -/
def msgQ (m : List Byte) (off : Nat) : Word := BitVec.ofNat 64 ((List.range 8).foldl (fun n i => n + (m.getD (off + i) 0).toNat * 256 ^ i) 0)
/-- A message of a length whose quadword 0 holds a magic and, elsewhere, only bits of a mask. -/
def msgFits (m : List Byte) (len magic : Nat) (mask0 : Word) : Bool :=
  m.length == len && uAt (msgQ m 0) 32 32 == magic && msgQ m 0 &&& ~~~(mask0 ||| 0xFFFFFFFF00000000) == 0
/-- The answer to a management message on the management queue pair of the port that brought it (R413, R415), with a body. -/
def State.reply (s : State) (port : BitVec 2) (req sess status length : Nat) (body : List Byte) : State :=
  { s with sent := s.sent ++ [⟨none, some (1, port.toNat), [BitVec.ofNat 64 (0x4C5A5352 * 2 ^ 32 + req * 65536 + sess * 256 + status), BitVec.ofNat 64 s.clock, s.caps,
    BitVec.ofNat 64 length], body⟩] }
/-- A management queue pair: number 1, its port open and not in error (R411, R429). -/
def State.managed (s : State) (qpn port : Nat) : Bool := s.powered && qpn == 1 && s.qpReady qpn port
/-- Key `k` of a SESSION_OPEN message: bytes, and the point they name. -/
def ikeyBytes (m : List Byte) (k : Nat) : List Byte := (m.drop (0x40 + 0x68 * k)).take 0x68
/-- The point of a key. -/
def ikeyPoint (b : List Byte) : Nat × Nat := (natBE ((b.drop 1).take 48), natBE ((b.drop 49).take 48))
/-- The key is an uncompressed point of P-384 with seven zero bytes after it. -/
def ikeyOk (b : List Byte) : Bool := b.getD 0 0 == 4 && (b.drop 97).all (· == 0) && onCurve (ikeyPoint b).1 (ikeyPoint b).2
/-- Session number that an open session of a key has. -/
def State.sessionOf (s : State) (key : Word) : Option Nat := (s.sessions.find? fun e => e.2.key == key).map (·.1)
/-- The message breaks the layout of SESSION_OPEN. -/
def openMalformed (m : List Byte) : Bool :=
  !msgFits m 0x1E0 0x4C5A534F 0xF01 || decide (4 < uAt (msgQ m 0) 8 4) || msgQ m 0x18 &&& 0xFFFF000000000000 != 0 || msgQ m 0x20 &&& 0xFFFFFFFF00000000 != 0
    || msgQ m 0x28 &&& 0xFFFFFFFF00000000 != 0 || msgQ m 0x30 &&& 0xFFFC000000FFE0FF != 0 || msgQ m 0x38 &&& 0xFFFF000000000000 != 0
    || (List.range 4).any fun k => decide (uAt (msgQ m 0) 8 4 ≤ k) && (ikeyBytes m k).any (· != 0)
/-- The session that a SESSION_OPEN message describes. -/
def openSession (m : List Byte) : Session :=
  { key := msgQ m 8, hbase := msgQ m 0x10, hlen := uAt (msgQ m 0x18) 0 48, rkey := (msgQ m 0x20).extractLsb' 0 32, idle := (msgQ m 0x28).extractLsb' 0 32,
    signed := (msgQ m 0).getLsbD 0, keys := (List.range (uAt (msgQ m 0) 8 4)).map fun k => ikeyPoint (ikeyBytes m k), host := [], errSince := none }
/-- SESSION_OPEN is refused (R415). -/
def State.openRefused (s : State) (m : List Byte) : Bool :=
  let x := openSession m
  openMalformed m || decide (16 ≤ s.sessions.length) || x.key = 0 || (s.sessionOf x.key).isSome || !s.qpReady (uAt (msgQ m 0x30) 24 24) (uAt (msgQ m 0x30) 48 2)
    || x.hlen = 0 || x.hlen % 65536 != 0 || !ringOk x (uAt (msgQ m 0x30) 8 5) (uAt (msgQ m 0x38) 0 48)
    || (List.range (uAt (msgQ m 0) 8 4)).any fun k => !ikeyOk (ikeyBytes m k)
/-- SESSION_OPEN (R413, R415): the lowest free number, and queue 0 open. -/
def execSessionOpen (qp : BitVec 24) (port : BitVec 2) (m : List Byte) (s : State) : Result :=
  if !s.managed qp.toNat port.toNat then .next s
  else if s.openRefused m then .next (s.reply port 1 0xFF 1 0 [])
  else match (List.range 16).find? fun k => (tfind s.sessions k).isNone with
    | none => .next (s.reply port 1 0xFF 1 0 [])
    | some k =>
      let q := CQueue.opened (uAt (msgQ m 0x30) 24 24) (uAt (msgQ m 0x30) 48 2) (uAt (msgQ m 0x38) 0 48) (uAt (msgQ m 0x30) 8 5)
      .next ({ s with sessions := tset s.sessions k (openSession m), queues := tset s.queues (queueKey k 0) q }.reply port 1 k 0 0 [])

/-! ## Closing a session (R413) -/

/-- A session closes: its instances end, its SESSION pennants are dropped, those that are moved after their move (R175), its queues,
links and commands go. -/
def State.closeSession (s : State) (k : Nat) : State :=
  let s1 := (s.insts.filter fun e => e.2.sess == k).foldl (fun s e => s.killInst e.1) s
  let s2 := (s1.pennants.filter fun e => e.2.life == 0 && e.2.sess == k).foldl (fun s e =>
    if e.2.moving then s.modPennant e.1 fun p => { p with mover := none, dropping := true } else s.dropPennant e.1) s1
  let ids := (s2.cmds.filter fun e => e.2.sess == k).map fun e => pnCmdWaiter e.1
  { s2 with sessions := tdel s2.sessions k, queues := s2.queues.filter fun e => e.1 / 256 != k, links := s2.links.filter fun e => e.1 / 1024 != k,
            cmds := s2.cmds.filter fun e => e.2.sess != k, patchMsgs := s2.patchMsgs.filter fun e => e.2.sess != k,
            pennants := tmap s2.pennants fun _ p => { p with mover := p.mover.filter fun w => !ids.contains w, queue := p.queue.filter fun w => !ids.contains w } }
/-- SESSION_CLOSE (R413, R415). -/
def execSessionClose (m : List Byte) (s : State) : Result :=
  let port := s.focus.port
  if !s.managed 1 port.toNat then .next s
  else if !msgFits m 16 0x4C5A5343 0 then .next (s.reply port 2 0xFF 1 0 [])
  else match s.sessionOf (msgQ m 8) with
    | none => .next (s.reply port 2 0xFF 1 0 [])
    | some k => .next ((s.closeSession k).reply port 2 k 0 0 [])
/-- QP_LINK_DOWN (R411, R413): every queue pair of the port enters the error state, and their queues halt. -/
def execQpLinkDown (port : BitVec 2) (s : State) : Result :=
  let p := port.toNat
  .next ({ s with qpDown := nins s.qpDown p, queues := tmap s.queues fun _ q => if q.port = p then { q with halted := true } else q } : State).noteDown
/-- SESSION_TIMEOUT (R413): every queue pair in error for 10 s. -/
def execSessionTimeout (sess : Nat) (s : State) : Result :=
  match tfind s.sessions sess with
  | none => .next s
  | some x => match x.errSince with
    | none => .next s
    | some t => .next (if s.allDown sess && decide (t + 19000000000 ≤ s.clock) then s.closeSession sess else s)
/-- RDMA_ATOMIC (R411): refused with a NAK on its queue pair; nothing else happens. A port that is closed or has no link answers nothing. -/
def execRdmaAtomic (qpn : BitVec 24) (port : BitVec 2) (s : State) : Result :=
  .next (if s.powered && !s.qpDown.contains port.toNat then { s with naks := s.naks ++ [(qpn, port)] } else s)

/-! ## Attestation (R419, R421) -/

/-- A signature under the identity key, big-endian: the module's next one (R418). -/
def State.sign (s : State) (body : List Byte) : List Byte × State :=
  (bytesBE 96 (Config.identitySign (sha384 body) s.free).toNat, { s with free := s.free + 1 })
/-- The attestation body without its signature. -/
def State.attestBody (s : State) (nonce : Word) : List Byte :=
  let chain := Config.certChain ++ List.replicate ((8 - Config.certChain.length % 8) % 8) 0
  let len := 0x98 + chain.length + 96
  quadBytes (BitVec.ofNat 64 (0x4C5A5341 * 2 ^ 32 + len)) ++ quadBytes nonce ++ quadBytes s.caps ++ quadBytes (Config.fuseRevision.zeroExtend 64)
    ++ bytesBE 48 Config.romHash.toNat ++ ((List.range 8).flatMap fun d => quadBytes (if s.present d then s.dieSig d else 0))
    ++ quadBytes (BitVec.ofNat 64 Config.certChain.length) ++ chain
/-- ATTEST (R415, R419, R421). -/
def execAttest (m : List Byte) (s : State) : Result :=
  let port := s.focus.port
  if !s.managed 1 port.toNat then .next s
  else if !msgFits m 16 0x4C5A5341 0 then .next (s.reply port 3 0xFF 1 0 [])
  else
    let body := s.attestBody (msgQ m 8)
    let r := s.sign body
    .next (r.2.reply port 3 0xFF 0 (body.length + 96) (body ++ r.1))

/-! ## SYNCSTATE (R418-R420) -/

/-- A section of entries of a fixed size in quadwords. -/
def section16 (kind size : Nat) (entries : List (List Word)) : List Word :=
  BitVec.ofNat 64 (kind + size * 65536 + entries.length * 2 ^ 32) :: 0 :: entries.flatten
/-- Queues of a session. -/
def State.syncQueues (s : State) (k : Nat) : List (List Word) :=
  (s.queues.filter fun e => e.1 / 256 == k).map fun e =>
    let q := e.2
    [BitVec.ofNat 64 (e.1 % 256 + (if q.halted then 2 else 1) * 256 + q.qpn * 2 ^ 24 + q.port * 2 ^ 48),
     q.completed ++ q.tail ++ q.head, BitVec.ofNat 64 q.ring, BitVec.ofNat 64 q.n]
/-- Links of a session. -/
def State.syncLinks (s : State) (k : Nat) : List (List Word) :=
  (s.links.filter fun e => e.1 / 1024 == k).map fun e =>
    [BitVec.ofNat 64 (e.1 % 1024 + e.2.producer * 65536 + e.2.consumer * 2 ^ 24 + e.2.tokens.toNat * 2 ^ 32 + if e.2.overflow then 2 ^ 48 else 0), 0]
/-- Images of a session. -/
def State.syncImages (s : State) (k : Nat) : List (List Word) :=
  (s.insts.filter fun e => e.2.sess == k).map fun e =>
    let x := e.2
    let flags := (if x.adapted then 1 else 0) + (if x.launch.isSome then 2 else 0) + (if x.saved == .saved then 4 else 0) + (if x.gang.isSome then 8 else 0)
    [x.image, BitVec.ofNat 64 (e.1 % 65536 + x.variant * 65536 + flags * 2 ^ 20 + x.plots.length * 2 ^ 32),
     BitVec.ofNat 64 (((List.range 8).zip x.remap).foldl (fun n r => n + r.2.toNat * 8 ^ r.1) 0), x.asid.zeroExtend 64]
/-- Pennants visible to a session; no slot asks. -/
def State.syncPennants (s : State) (k : Nat) : List (List Word) :=
  (s.pennants.filter fun e => e.2.life == 1 || e.2.sess == k).map fun e =>
    let p := e.2
    [p.name, s.pnQuery 0 p 2, s.pnQuery 0 p 3, s.pnQuery 0 p 0 &&& ~~~8#64, p.backing.zeroExtend 64, BitVec.ofNat 64 (slicePlot p.home)]
/-- Parked requests of a session, each fault id once. -/
def State.syncParked (s : State) (k : Nat) : List (List Word) :=
  let entry (q : Nat) (va : Word) (place pa : Nat) : List Word := [1, BitVec.ofNat 64 q, va, BitVec.ofNat 64 place, BitVec.ofNat 64 pa, 0]
  (s.reqs.filterMap fun e => match e.2.stage with
    | .parked f => if s.sessOf e.2.plot = some k then
        some (entry (parkWord f e.2.parkCause e.2.plot e.2.slot e.2.oc false e.2.op.reportKind) e.2.va (slicePlot (walkerSlice e.2.plot e.2.va)) e.2.pa.toNat)
      else none
    | _ => none)
    ++ s.walks.filterMap fun e => match e.2.parked with
      | some f => if !e.2.declined && s.sessOf e.2.plot == some k && !(s.walks.any fun w => decide (w.1 < e.1) && w.2.parked == some f) then
          some (entry (parkWord f e.2.cause e.2.plot e.2.slot e.2.oc (decide (e.2.kind < 10)) e.2.reportKind) e.2.va (slicePlot (walkerSlice e.2.plot e.2.va))
            (if e.2.kind < 10 then 0 else ((s.walkVa e.2.plot e.2.va).map fun t => (t.addr e.2.va).toNat).getD 0))
        else none
      | none => none
/-- Held slots of a session. -/
def State.syncHeld (s : State) (k : Nat) : List (List Word) :=
  (s.slots.filter fun e => e.2.held && s.sessOf (e.1 / 8) == some k).map fun e =>
    [2, BitVec.ofNat 64 (((s.plotAt (e.1 / 8)).inst.getD 0) % 65536 + e.1 / 8 * 65536 + e.1 % 8 * 2 ^ 32), e.2.tcause, e.2.tepc, e.2.tval, e.2.tinfo]
/-- Ten-bit values packed from bit 0. -/
def pack10 (l : List (BitVec 10)) : Word := BitVec.ofNat 64 (((List.range l.length).zip l).foldl (fun n e => n + e.2.toNat * 1024 ^ e.1) 0)
/-- Dies. -/
def State.syncDies (s : State) : List (List Word) :=
  (List.range 8).map fun d =>
    let x := s.dieAt d
    let c := tget Causal.init s.causal d
    let cv := (List.range 8).map (s.cvOf d)
    let ret (k : Nat) : Nat := (tget Optics.init s.optics k).retired.length
    let flags := (if s.present d then 256 else 0) + (if x.fenced then 512 else 0) + (if s.removed.getLsbD d then 1024 else 0)
    [BitVec.ofNat 64 (d + flags + ret d * 65536 + ret (8 + d) * 2 ^ 24), s.dieSig d, BitVec.ofNat 64 (s.removedMask.toNat * 256 + s.rebase.toNat),
     c.seq.zeroExtend 64, pack10 (c.dv.take 6), pack10 (c.dv.drop 6), pack10 (cv.take 6), pack10 (cv.drop 6)]
/-- The log. -/
def State.syncLog (s : State) : List (List Word) := [[BitVec.ofNat 64 (s.logRead % 2 ^ 32 + (s.logSeq + 2 ^ 32 - 1) % 2 ^ 32 * 2 ^ 32), BitVec.ofNat 64 s.logLost]]
/-- The summary, signature excluded (R420). -/
def State.summary (s : State) (k : Nat) (nonce : Word) : List Word :=
  let body := section16 1 32 (s.syncQueues k) ++ section16 2 16 (s.syncLinks k) ++ section16 3 32 (s.syncImages k) ++ section16 4 48 (s.syncPennants k)
    ++ section16 5 48 (s.syncParked k ++ s.syncHeld k) ++ section16 6 64 s.syncDies ++ section16 7 16 s.syncLog
  [BitVec.ofNat 64 (0x4C5A5853 * 2 ^ 32 + 64 + 8 * body.length), nonce, BitVec.ofNat 64 s.clock, s.caps, BitVec.ofNat 64 (k + 7 * 65536), 0, 0, 0] ++ body
/-- SYNCSTATE breaks its layout (R419). -/
def syncMalformed (m : List Byte) : Bool :=
  !msgFits m 48 0x4C5A5359 0 || msgQ m 0x20 &&& 0xFFFF00000000003F != 0 || msgQ m 0x28 &&& 0xFFFFFF0000000000 != 0
/-- SYNCSTATE (R418-R420): the summary and its signature are written, unless they would not fit. -/
def execSyncstate (m : List Byte) (s : State) : Result :=
  let port := s.focus.port
  if !s.managed 1 port.toNat then .next s
  else if syncMalformed m then .next (s.reply port 4 0xFF 1 0 [])
  else match s.sessionOf (msgQ m 0x10), s.sessionOf (msgQ m 0x18) with
    | some k, some r => match tfind s.sessions r with
      | none => .next (s.reply port 4 0xFF 1 0 [])
      | some x =>
        let body := (s.summary k (msgQ m 8)).flatMap quadBytes
        let off := uAt (msgQ m 0x20) 0 48
        let n := body.length + 96
        if uAt (msgQ m 0x28) 0 40 < n || !x.inside off n then .next (s.reply port 4 k 2 n [])
        else
          let g := s.sign body
          .next ({ g.2 with sessions := tset g.2.sessions r (hostPut x off (body ++ g.1)) }.reply port 4 k 0 n [])
    | _, _ => .next (s.reply port 4 0xFF 1 0 [])

/-! ## Bring-up, heat, defects (R427-R430) -/

/-- A defect map entry put in its place (R239). -/
def insertDefect (e : BitVec 32) : List (BitVec 32) → List (BitVec 32)
  | [] => [e]
  | x :: t => if e = x then x :: t else if e < x then e :: x :: t else x :: insertDefect e t
/-- A die that failed bring-up is fenced, and logged with the step (R429). -/
def State.failDie (s : State) (d : Nat) (step : Nat) : State :=
  if !s.present d || (s.dieAt d).fenced then s
  else ({ (s.modDie d fun x => { x with fenced := true, removedAt := some 0 }) with removed := s.removed ||| (1 <<< d) }).logRec 0x12 (d + step * 256) 0
/-- A partition as firmware programs it at boot: reserved mask bits zero (R80), a PREMAP of present dies (R81, log 106). -/
def State.bootPartition (s : State) (p : PartitionVal) : PartitionVal :=
  { p with masks := (List.range 10).map fun k => p.masks.getD k 0 &&& 0xFFFFFFFFFF80,
           remap := (List.range 8).map fun i => BitVec.ofNat 3 (s.unfencedFrom (p.remap.getD i 0).toNat) }
/-- Every line of an aligned range of 2^n bytes is homed in the stack of a die (R79). -/
def State.homedBlock (s : State) (a n d : Nat) : Bool :=
  match s.partitionOf a with
  | some p => (rangeDies p a n).all fun e => e.toNat == d
  | none => false
/-- Every line from an address up to another is homed in the stack of a die (R79, R99): by 2-MiB units, and by blocks where a unit is not whole. -/
def State.homedIn (s : State) (lo hi d : Nat) : Bool :=
  (List.range ((hi - 1) / 0x200000 + 1 - lo / 0x200000)).all fun i =>
    let u := (lo / 0x200000 + i) * 0x200000
    if lo ≤ u ∧ u + 0x200000 ≤ hi then s.homedBlock u 21 d
    else (List.range 64).all fun j => decide (u + (j + 1) * 0x8000 ≤ lo) || decide (hi ≤ u + j * 0x8000) || s.homedBlock (u + j * 0x8000) 15 d
/-- The bunting pool that firmware carves at boot (R99): at most 256 GiB in equal parts, each homed in its own stack; a choice of another
kind makes no pool (log 106). -/
def State.bootPool (s : State) (base blocks : Nat) : Bunting :=
  let parts := s.presentDies
  let n := blocks / parts.length
  let fits := decide (blocks ≤ 0x800000) && blocks % parts.length == 0 && (List.range parts.length).all fun m => s.homedIn (base + m * n * 0x8000) (base + (m + 1) * n * 0x8000) (parts.getD m 0)
  { base, blocks := if fits then blocks else 0, parts, names := [], refs := [], taken := [], freed := [] }
/-- POWER_ON (R429): the ROM brings the module up with the choices it makes, and opens the ports. -/
def execPowerOn (boot : BootChoices) (s : State) : Result :=
  if s.powered then .next s
  else
    let s1 := boot.defects.foldl (fun s e => s.modDie e.1.toNat fun x => { x with defects := e.2.foldl (fun l w => insertDefect w l) [] }) { s with powered := true }
    let s2 := { s1 with partitions := ((List.range 8).zip boot.partitions).foldl (fun t (e : Nat × PartitionVal) => tset t e.1 (s1.bootPartition e.2)) s1.partitions }
    let s3 := ((List.range 8).zip boot.cways).foldl (fun s e => s.dcarve e.1 e.2) s2
    let s4 := ((List.range 8).zip boot.backing).foldl (fun s e => s.modDie e.1 fun x => { x with backing := e.2 }) s3
    let s5 := { s4 with bunting := s4.bootPool boot.poolBase.toNat boot.poolBlocks, peers := boot.peers }
    .next (boot.failed.foldl (fun s e => s.failDie e.1.toNat e.2.toNat) s5)
/-- A report to every open session. -/
def State.reportAll (s : State) (kind : Nat) (q : List Nat) : State := s.sessions.foldl (fun s e => s.report e.1 kind q) s
/-- THERMAL_LIMIT (R430): no new launch on the die. -/
def execThermalLimit (die : BitVec 3) (s : State) : Result :=
  let d := die.toNat
  .next (if !s.present d || (s.dieAt d).hot then s else (s.modDie d fun x => { x with hot := true }).reportAll 6 [d + 256])
/-- TEMPERATURE_BELOW_LIMIT. -/
def execTemperatureBelowLimit (die : BitVec 3) (s : State) : Result :=
  let d := die.toNat
  .next (if (s.dieAt d).hot then (s.modDie d fun x => { x with hot := false }).reportAll 6 [d] else s)
/-- CRITICAL_TRIP (R430): the module halts and the host sessions fail. -/
def execCriticalTrip (s : State) : Result := .next { s with halted := true, sessions := [], queues := [], links := [] }
/-- An entry that R239 allows: a cell, a cell plot or a slice plot. -/
def defectEntryOk (e : BitVec 32) : Bool :=
  e &&& 0x0FFF0000 == 0 && (e.extractLsb' 28 4 == 1 || ((e.extractLsb' 28 4 == 2 || e.extractLsb' 28 4 == 3) && e.extractLsb' 10 6 == 0))
/-- DEFECT_ENTRY_ADDED (R239, R427): firmware adds an entry in service. -/
def execDefectEntryAdded (die : BitVec 3) (entry : BitVec 32) (s : State) : Result :=
  .next (if defectEntryOk entry then s.modDie die.toNat fun x => { x with defects := insertDefect entry x.defects } else s)

/-! ## Storage errors (R395) -/

/-- A slot held as R388 by something other than its own instruction: the state with the focus as it was. -/
def State.holdSlot (s : State) (p k : Nat) (t : Trap) : State :=
  if (s.slotAt p k).held then s
  else
    let s1 := { s with focus := { s.focus with plot := p, slot := k } }
    let c := 0x100 ||| t.cause.zeroExtend 64
    let s2 := if s1.cur.ih then s1.hold c s1.cur.pc t.tval t.tinfo
      else (s1.modCur fun x => { x with tcause := c, tepc := x.pc, tval := t.tval, tinfo := t.tinfo }).hold c s1.cur.pc t.tval t.tinfo
    { s2 with focus := s.focus }
/-- Storage class in the order of R395's table, and the plot and number that a log record names (R424). -/
def State.scrubPlace (s : State) (t : ScrubTarget) : Nat × Nat × Nat :=
  match t with
  | .register p _ f n _ => (0, p.toNat, f.toNat * 32 + n.toNat)
  | .icache p pa | .l1 p pa => (1, p.toNat, pa.toNat)
  | .tlb p va => (1, p.toNat, va.toNat)
  | .memory pa => (2, s.homePlot pa.toNat, pa.toNat)
  | .weight i r _ row col _ => (3, ((tfind s.regions (regionKey i r)).map fun x => x.cellPlot row col).getD 0, 0)
  | .accumulator i r east line _ => (3, ((tfind s.regions (regionKey i r)).map fun x => x.bankPlot (if east then 1 else 0) line).getD 0, 0)
  | .buffer p _ _ _ | .link _ _ _ _ _ p => (3, p.toNat, 0)
  | .plotState p => (5, p.toNat, 0)
  | .causal d => (6, 0, d.toNat)
/-- An uncorrectable error in a storage: in DRAM the whole 64-byte line is lost (R78), of a register a 64-bit unit; a line or entry of a cache is
dropped; what a cell link carries spoils the lane that its wave gives (log 128). -/
def State.storageLost (s : State) (t : ScrubTarget) : State :=
  match t with
  | .memory pa =>
    let n := if pa.toNat < 0x8000000000 then 16 else 1
    let a := pa.toNat / (4 * n) * (4 * n)
    if s.backed a then s.fillInvalid 3 a n else s
  | .icache p pa => s.modPlot p.toNat fun x => { x with icache := x.icache.filter fun e => e.1 / 16 != pa.toNat / 64 }
  | .l1 p pa => s.modPlot p.toNat fun x => { x with l1 := tdel x.l1 (pa.toNat / 64) }
  | .tlb p va => s.modPlot p.toNat fun x => { x with tlb := x.tlb.filter fun e => !e.hits x.asid (vaNat va) }
  | .register p k f n u =>
    let w : BitVec 4 := if f = 2 ∨ f = 3 then u ++ (0 : BitVec 1) else 0
    s.modSlot p.toNat k.toNat fun x => if f = 2 ∨ f = 3 then (x.spoil f n w).spoil f n (w + 1) else x.spoil f n w
  | .link i r word wave lane p => s.modRegion (regionKey i r) fun x =>
      { x with mq := x.mq.map fun m => if m.word = word then
          { m with flight := m.flight.modify wave fun l => l.modify lane fun _ => (.bad (payloadBits 3 p.toNat 0), 0) } else m }
  | .weight i r w row col word =>
    s.modRegion (regionKey i r) fun x => x.setWeight w row col (beatSetWord (x.weight w row col) word ⟨false, payloadBits 3 (x.cellPlot row col) 0⟩)
  | .accumulator i r east line word =>
    let side := if east then 1 else 0
    s.modRegion (regionKey i r) fun x => x.setBankWord side line word ⟨false, payloadBits 3 (x.bankPlot side line) 0⟩
  | .buffer p q beat word =>
    s.modPort (16 * p.toNat + q.toNat) fun x => { x with buf := x.buf.modify beat fun b => beatSetWord b word ⟨false, payloadBits 3 p.toNat 0⟩ }
  | .plotState p =>
    (List.range 8).foldl (fun s k => if (s.slotAt p.toNat k).actor.isSome then s.holdSlot p.toNat k (mkTrap 0x0C 0) else s) s
  | .causal _ => s.startRebase
/-- STORAGE_SCRUB (R395). -/
def execStorageScrub (t : ScrubTarget) (err : SoftError) (s : State) : Result :=
  match err with
  | .clean => .next s
  | .correctable => let c := s.scrubPlace t
    .next (s.logRec 0x01 (c.1 + c.2.1 * 256) c.2.2)
  | .uncorrectable => .next (s.storageLost t)

end Sys2Proof.Machine
end

