-- ==== Sys2Proof/Machine/VectorLane.lean ====
section
/-! DEFINITION. Horizontal and lane operations, conversions, tags and moves (R291-R302). -/

namespace Sys2Proof.Machine

/-! ## Reductions -/

/-- The fixed pairwise tree of R292 over a list whose length is 2^k; ABSENT nodes pass the other through. -/
def reduceTree (comb : Nat → Nat → Nat × Flags) : (k : Nat) → List (Option Nat) → Option Nat × Flags
  | 0, l => (l.headD none, 0)
  | k + 1, l =>
    let x := reduceTree comb k (l.take (2 ^ k))
    let y := reduceTree comb k (l.drop (2 ^ k))
    match x.1, y.1 with
    | some a, some b => let r := comb a b
      (some r.1, x.2 ||| y.2 ||| r.2)
    | some a, none => (some a, x.2 ||| y.2)
    | none, r => (r, x.2 ||| y.2)
/-- Lanes of a register for a reduction: a lane with a MASKED word is ABSENT (R74, R292). -/
def maskedLanes (plot f : Nat) (v : VReg) : List (Option Nat) :=
  (lanes plot f v).map fun
    | .ok b => some b
    | .bad _ => none
/-- The lowest-numbered word invalid with a reason other than MASKED (R74). -/
def poisonWord (v : VReg) : Option (BitVec 32) :=
  (List.range 16).findSome? fun m => if !v.ok.getLsbD m && wordPayload v m &&& 0xFF != 0 then some (wordPayload v m) else none
/-- Level count of the tree for a format. -/
def laneLevels (f : Nat) : Nat := Nat.log2 (laneCount f)
/-- A lane that no other was combined with is a result all the same: a NaN is canonical, and a signalling one sets invalid (R54). -/
def quieted (f b : Nat) : Nat × Flags :=
  if isFloat f then match decodeFloat f b with
    | .nan sg => (canonNaN f, if sg then fInvalid else 0)
    | _ => (b, 0)
  else (b, 0)
/-- A reduction into lane 0, every other lane zero (R292); flags belong to lane 0. `fin` finishes the result of integers. -/
def reduceOp (d a : VNum) (comb : Nat → Bool → Nat → Nat → Nat × Flags) (fin : Nat → List (Option Nat) → Option (Nat × Flags)) (s : State) : Result :=
  vectorOp [a] [] d (fun _ => do
    let v := s.vGet a
    let f := tagFmt v.tag
    checkTags [(numTag v.tag, v.tag)]
    let rest := List.replicate (laneCount f - 1) (Lane.ok 0)
    match poisonWord v with
    | some p => .ok (vregOfLanes v.tag (Lane.bad p :: rest), [])
    | none =>
      let ls := maskedLanes s.focus.plot f v
      let r := match fin f ls with
        | some x => x
        | none => let t := reduceTree (comb f (tagSat v.tag)) (laneLevels f) ls
          let q := quieted f (t.1.getD 0)
          (q.1, t.2 ||| q.2)
      .ok (vregOfLanes v.tag (Lane.ok r.1 :: rest), [(0, r.2)])) s
/-- A lane's bits and flags from an operation's answer. -/
def laneNat (r : Lane × Flags) : Nat × Flags :=
  match r.1 with
  | .ok b => (b, r.2)
  | .bad _ => (0, r.2)
/-- Bits of an integer value saturated into a lane format (R292). -/
def satInt (f : Nat) (v : Int) : Nat × Flags :=
  let r := encodeInt f 0 (.fin (v < 0) v.natAbs 0)
  (r.1.getD 0, r.2 &&& fSat)
/-- VSUM (R292). -/
def execVsum (d a : VNum) (m : BitVec 3) (s : State) : Result :=
  reduceOp d a
    (fun f sat x y => laneNat (roundLane f (resolveMode s.cur.fpctl m) sat (addNum (resolveMode s.cur.fpctl m) (decodeFloat f x) (decodeFloat f y))))
    (fun f l => if isFloat f then none else some (satInt f (l.foldl (fun t x => t + (match x with
      | some b => intValue f b
      | none => 0)) 0))) s
/-- Combination of VHMAX and VHMIN. -/
def hmComb (isMax : Bool) (f : Nat) (_ : Bool) (x y : Nat) : Nat × Flags :=
  if isFloat f then laneNat (minMaxLane f isMax x y)
  else if isMax then (if intValue f x < intValue f y then y else x, 0) else (if intValue f y < intValue f x then y else x, 0)
/-- VHMAX. -/
def execVhmax (d a : VNum) (s : State) : Result := reduceOp d a (hmComb true) (fun _ _ => none) s
/-- VHMIN. -/
def execVhmin (d a : VNum) (s : State) : Result := reduceOp d a (hmComb false) (fun _ _ => none) s

/-! ## Comparison, selection, movement -/

/-- The condition of VCMP on numbers, with its invalid flag (R293). -/
def cmpNum (c : Nat) (x y : Num) : Bool × Flags :=
  let un := x.isNaN || y.isNaN
  let sig := x.isSig || y.isSig
  let lt := !un && ltNum false x y
  let gt := !un && ltNum false y x
  let fl : Flags := if (if c = 0 ∨ c = 1 ∨ c = 6 then sig else un) then fInvalid else 0
  (match c with
    | 0 => !un && !lt && !gt
    | 1 => un || lt || gt
    | 2 => lt
    | 3 => !un && !gt
    | 4 => gt
    | 5 => !un && !lt
    | _ => un, fl)
/-- All ones on `w` bits for true. -/
def maskLane (w : Nat) (b : Bool) : Lane := .ok (if b then 2 ^ w - 1 else 0)
/-- VCMP (R293). -/
def execVcmp (d a b : VNum) (c : BitVec 3) (s : State) : Result :=
  vectorOp [a, b] [] d (fun _ => do
    let x := s.vGet a
    let y := s.vGet b
    checkTags [(numTag x.tag, x.tag), (numTag y.tag && tagEq x.tag y.tag, y.tag)]
    let f := tagFmt x.tag
    let out := mapLanes (laneCount f) [lanes s.focus.plot f x, lanes s.focus.plot f y] fun l =>
      let r := cmpNum c.toNat (decodeNum f (l.getD 0 0)) (decodeNum f (l.getD 1 0))
      (maskLane (fmtWidth f) r.1, r.2)
    .ok (vregOfLanes (fmtTag (maskFmt f)) (out.map (·.1)), numbered out)) s
/-- VSEL (R295): the mask is the old v[d]. -/
def execVsel (d a b : VNum) (s : State) : Result :=
  vectorOp [a, b] [] d (fun _ => do
    let x := s.vGet a
    let y := s.vGet b
    let m := s.vGet d
    let f := tagFmt x.tag
    checkTags [(moveTag x.tag, x.tag), (moveTag y.tag && tagEq x.tag y.tag, y.tag), (maskTag f m.tag, m.tag)]
    let lx := lanes s.focus.plot f x
    let ly := lanes s.focus.plot f y
    let out := (lanes s.focus.plot (tagFmt m.tag) m).zipIdx.map fun e => match e.1 with
      | .bad p => Lane.bad p
      | .ok v => if v ≠ 0 then lx.getD e.2 (.ok 0) else ly.getD e.2 (.ok 0)
    .ok (vregOfLanes x.tag out, [])) s
/-- VVAL's query form (R294). -/
def vvalQuery (d a : VNum) (s : State) : Result :=
  vectorOp [a] [] d (fun _ => do
    let x := s.vGet a
    let f := tagFmt x.tag
    checkTags [(moveTag x.tag, x.tag)]
    .ok (vregOfLanes (fmtTag (maskFmt f)) ((lanes s.focus.plot f x).map fun
      | .ok _ => maskLane (fmtWidth f) true
      | .bad _ => maskLane (fmtWidth f) false), [])) s
/-- VVAL's apply form (R294). -/
def vvalApply (d a b : VNum) (s : State) : Result :=
  vectorOp [a, b] [] d (fun _ => do
    let x := s.vGet a
    let m := s.vGet b
    checkTags [(moveTag x.tag, x.tag), (maskTag (tagFmt x.tag) m.tag, m.tag)]
    .ok (vregOf x.tag ((List.range 16).map fun k =>
      if !m.ok.getLsbD k then ⟨false, wordPayload m k⟩
      else if vWord m k = 0 then ⟨false, payloadBits 0 s.focus.plot 0⟩
      else if x.ok.getLsbD k then ⟨true, x.bits.extractLsb' (32 * k) 32⟩ else ⟨false, wordPayload x k⟩), [])) s
/-- VVAL (R294). -/
def execVval (d a b : VNum) (apply : Bool) (s : State) : Result := if apply then vvalApply d a b s else vvalQuery d a s
/-- VPERM (R296). -/
def execVperm (d a b : VNum) (s : State) : Result :=
  vectorOp [a, b] [] d (fun _ => do
    let x := s.vGet a
    let y := s.vGet b
    let f := tagFmt x.tag
    checkTags [(moveTag x.tag, x.tag), (maskTag f y.tag, y.tag)]
    let lx := lanes s.focus.plot f x
    .ok (vregOfLanes x.tag ((lanes s.focus.plot (tagFmt y.tag) y).map fun
      | .bad p => Lane.bad p
      | .ok j => lx.getD j (.bad (payloadBits 4 s.focus.plot 0))), [])) s
/-- VBCAST (R296). -/
def execVbcast (d a : VNum) (i : BitVec 7) (s : State) : Result :=
  vectorOp [a] [] d (fun _ => do
    let x := s.vGet a
    let f := tagFmt x.tag
    checkTags [(moveTag x.tag, x.tag)]
    if laneCount f ≤ i.toNat then .error (mkTrap 0x33 (i.zeroExtend 64))
    else .ok (vregOfLanes x.tag (List.replicate (laneCount f) (laneAt s.focus.plot f x i.toNat)), [])) s
/-- VSLIDE (R296). -/
def execVslide (d a b : VNum) (n : BitVec 6) (s : State) : Result :=
  vectorOp [a, b] [] d (fun _ => do
    let x := s.vGet a
    let y := s.vGet b
    let f := tagFmt x.tag
    checkTags [(moveTag x.tag, x.tag), (moveTag y.tag && tagEq x.tag y.tag, y.tag)]
    let all := lanes s.focus.plot f x ++ lanes s.focus.plot f y
    .ok (vregOfLanes x.tag ((List.range (laneCount f)).map fun i => all.getD (i + n.toNat) (.ok 0)), [])) s

/-! ## Conversion -/

/-- Lanes of a result and of the old register, under a tag: words that hold no new lane stay as they are (R298). -/
def mergeWords (plot : Nat) (tag : BitVec 16) (old : VReg) (new : List (Option Lane)) : VReg :=
  let f := tagFmt old.tag
  let all := (lanes plot f old).zipIdx.map fun e => (new.getD e.2 none).getD e.1
  let touched (m : Nat) : Bool := (List.range (laneCount f)).any fun i => (new.getD i none).isSome
    && (if fmtWidth f = 64 then i == m / 2 else if f = 11 then i / 5 == m else i * fmtWidth f / 32 == m)
  vregOf tag ((List.range 16).map fun m => if touched m then wordOfLanes f all m else ⟨old.ok.getLsbD m, old.bits.extractLsb' (32 * m) 32⟩)
/-- A value encoded into the destination's format and scale (R63, R299). -/
def convertTo (plot mode : Nat) (tag : BitVec 16) (x : Num) (fl : Flags) : Lane × Flags :=
  let r := encodeNum (tagFmt tag) mode (tagSat tag) (x.scale (-(tagScale tag)))
  (match r.1 with
    | some b => .ok b
    | none => .bad (payloadBits 1 plot 0), r.2 ||| fl)
/-- A conversion of v[a] into the format of v[d] (R298, R299): `src` and `dst` test the tags, `one` converts a source lane; an invalid
register of `gs` gives every result lane its payload. -/
def convertOp (d a : VNum) (gs : List GReg) (p : BitVec 3) (src dst : BitVec 16 → Bool)
    (one : List Val → BitVec 16 → BitVec 16 → Nat → Lane × Flags) (s : State) : Result :=
  vectorOp [a] gs d (fun vals => do
    let x := s.vGet a
    let y := s.vGet d
    checkTags [(src x.tag, x.tag), (dst y.tag, y.tag)]
    let ls := laneCount (tagFmt x.tag)
    let ld := laneCount (tagFmt y.tag)
    let hi := max ls ld
    let lo := min ls ld
    if hi % lo ≠ 0 ∨ 8 < hi / lo then .error (tagTrap x.tag)
    else if hi / lo ≤ p.toNat then .error (mkTrap 0x33 (p.zeroExtend 64))
    else
      let sl := lanes s.focus.plot (tagFmt x.tag) x
      let conv (i : Nat) : Lane × Flags := match vals.find? (!·.valid) with
        | some g => (.bad (poisonedWord g).bits, 0)
        | none => mapLane [sl.getD i (.ok 0)] fun l => one vals x.tag y.tag (l.getD 0 0)
      if ls ≤ ld then
        let out := (List.range ls).map conv
        let new := (List.range ld).map fun i => if p.toNat * ls ≤ i ∧ i < (p.toNat + 1) * ls then (out[i - p.toNat * ls]?).map (·.1) else none
        .ok (mergeWords s.focus.plot y.tag y new, numbered out)
      else
        let out := (List.range ld).map fun i => (p.toNat * ld + i, conv (p.toNat * ld + i))
        .ok (vregOfLanes y.tag (out.map (·.2.1)), out.map fun e => (e.1, e.2.2))) s
/-- A well-formed tag of a number format, LG6 included. -/
def anyNumTag (t : BitVec 16) : Bool := !tagMalformed t && tagFmt t != 0
/-- Source value with its scale (R63). -/
def scaledNum (tag : BitVec 16) (b : Nat) : Num := (decodeNum (tagFmt tag) b).scale (tagScale tag)
/-- VCVT (R299). -/
def execVcvt (d a : VNum) (p m : BitVec 3) (s : State) : Result :=
  convertOp d a [] p anyNumTag anyNumTag
    (fun _ ts td b => convertTo s.focus.plot (resolveMode s.cur.fpctl m) td (scaledNum ts b) 0) s
/-- A conversion of x × m (R299). -/
def quantLane (plot mode : Nat) (vals : List Val) (ts td : BitVec 16) (b : Nat) : Lane × Flags :=
  let r := mulNum (scaledNum ts b) (decodeFloat 2 ((vals.getD 0 .zero).bits.extractLsb' 0 32).toNat)
  convertTo plot mode td r.1 r.2
/-- VQNT. -/
def execVqnt (d a : VNum) (b : GReg) (p m : BitVec 3) (s : State) : Result :=
  convertOp d a [b] p vfpTag anyNumTag (quantLane s.focus.plot (resolveMode s.cur.fpctl m)) s
/-- VDQNT. -/
def execVdqnt (d a : VNum) (b : GReg) (p m : BitVec 3) (s : State) : Result :=
  convertOp d a [b] p anyNumTag vfpTag (quantLane s.focus.plot (resolveMode s.cur.fpctl m)) s
/-- VTAG (R300). -/
def execVtag (d : VNum) (a : GReg) (s : State) : Result :=
  vectorOp [] [a] d (fun vals =>
    let g := vals.getD 0 .zero
    let t := g.bits.extractLsb' 0 16
    if !g.valid then .error (poisonTrap g)
    else if g.bits.extractLsb' 16 48 != 0 || tagMalformed t then .error (tagTrap t)
    else .ok ({ s.vGet d with tag := t }, [])) s
/-- VTAGRD (R300). -/
def execVtagrd (d : GReg) (a : VNum) (s : State) : Result :=
  if s.blockedV [a] then .next s
  else match s.badReg [(4, a.zeroExtend 5)] with
    | some t => .next (s.trapNow t)
    | none => scalar 4 [] d (fun _ => .ok (.ofWord ((s.vGet a).tag.zeroExtend 64))) s
/-- VPACK's lanes (R301): the selected lanes first, zero from lane c, the next, to the end of its word, MASKED after. -/
def packLanes (plot f : Nat) (m x : List Lane) : List Lane :=
  let sel := ((m.zip x).filter fun e => match e.1 with
    | .ok v => v != 0
    | .bad _ => false).map (·.2)
  let k := if fmtWidth f = 64 then 1 else 32 / fmtWidth f
  let zeros := if sel.length = laneCount f then 0 else k - sel.length % k
  sel ++ List.replicate zeros (.ok 0) ++ List.replicate (laneCount f - sel.length - zeros) (.bad (payloadBits 0 plot 0))
/-- VUNPK's lanes (R301): each true lane of the mask takes the next lane of a. -/
def unpackLanes : List Lane → List Lane → List (Option Lane)
  | [], _ => []
  | .ok v :: m, x => if v ≠ 0 then (match x with
      | y :: t => some y :: unpackLanes m t
      | [] => none :: unpackLanes m []) else none :: unpackLanes m x
  | .bad _ :: m, x => none :: unpackLanes m x
/-- The lowest-numbered invalid word of a mask. -/
def badMask (v : VReg) : Option (BitVec 32) := (List.range 16).findSome? fun m => if v.ok.getLsbD m then none else some (wordPayload v m)
/-- VPACK (R301). -/
def execVpack (d a b : VNum) (s : State) : Result :=
  vectorOp [a, b] [] d (fun _ => do
    let x := s.vGet a
    let m := s.vGet b
    let f := tagFmt x.tag
    checkTags [(moveTag x.tag, x.tag), (!tagMalformed m.tag && tagEq m.tag (fmtTag (maskFmt f)), m.tag)]
    match badMask m with
    | some p => .ok (vregOf x.tag (List.replicate 16 ⟨false, p⟩), [])
    | none => .ok (vregOfLanes x.tag (packLanes s.focus.plot f (lanes s.focus.plot (maskFmt f) m) (lanes s.focus.plot f x)), [])) s
/-- VUNPK (R301). -/
def execVunpk (d a b : VNum) (s : State) : Result :=
  vectorOp [a, b] [] d (fun _ => do
    let x := s.vGet a
    let m := s.vGet b
    let y := s.vGet d
    let f := tagFmt x.tag
    checkTags [(moveTag x.tag, x.tag), (!tagMalformed m.tag && tagEq m.tag (fmtTag (maskFmt f)), m.tag), (tagEq y.tag x.tag && !tagMalformed y.tag, y.tag)]
    match badMask m with
    | some p => .ok (vregOf x.tag (List.replicate 16 ⟨false, p⟩), [])
    | none => .ok (mergeWords s.focus.plot x.tag y (unpackLanes (lanes s.focus.plot (maskFmt f) m) (lanes s.focus.plot f x)), [])) s

/-! ## Moves (R302) -/

/-- VMOV. -/
def execVmov (d a : VNum) (s : State) : Result := vectorOp [a] [] d (fun _ => .ok (s.vGet a, [])) s
/-- The value VEXT gives for a lane. -/
def extVal (f : Nat) (l : Lane) : Val :=
  match l with
  | .bad p => ⟨false, p.zeroExtend 64⟩
  | .ok b => .ofWord (if f == 7 || f == 8 || f == 9 || f == 10 then BitVec.ofInt 64 (intValue f b) else BitVec.ofNat 64 b)
/-- VEXT. -/
def execVext (d : GReg) (a : VNum) (i : BitVec 7) (s : State) : Result :=
  if s.blockedV [a] then .next s
  else match s.badReg [(2, a.zeroExtend 5), (4, a.zeroExtend 5)] with
    | some t => .next (s.trapNow t)
    | none => scalar 4 [] d (fun _ =>
      let v := s.vGet a
      let f := tagFmt v.tag
      if tagMalformed v.tag then .error (tagTrap v.tag)
      else if laneCount f ≤ i.toNat then .error (mkTrap 0x33 (i.zeroExtend 64))
      else .ok (extVal f (laneAt s.focus.plot f v i.toNat))) s
/-- A lane written into a register: its word becomes valid, other lanes of an invalid word become zero (R183, R302). -/
def insLane (f : Nat) (v : VReg) (i b : Nat) : VReg :=
  let ws := vregWords v
  if fmtWidth f = 64 then vregOf v.tag ((ws.set (2 * i) ⟨true, BitVec.ofNat 32 b⟩).set (2 * i + 1) ⟨true, BitVec.ofNat 32 (b / 2 ^ 32)⟩)
  else
    let w := fmtWidth f
    let m := if f = 11 then i / 5 else i * w / 32
    let lo := if f = 11 then 6 * (i % 5) else i * w % 32
    let old := ws.getD m W32.zero
    let o : BitVec 32 := if old.valid then old.bits else 0
    let mask : BitVec 32 := BitVec.ofNat 32 ((2 ^ w - 1) * 2 ^ lo)
    vregOf v.tag (ws.set m ⟨true, (o &&& ~~~mask) ||| BitVec.ofNat 32 (b % 2 ^ w * 2 ^ lo)⟩)
/-- The words of a lane made invalid. -/
def insBad (f : Nat) (v : VReg) (i : Nat) (p : BitVec 32) : VReg :=
  let ws := vregWords v
  if fmtWidth f = 64 then vregOf v.tag ((ws.set (2 * i) ⟨false, p⟩).set (2 * i + 1) ⟨false, p⟩)
  else vregOf v.tag (ws.set (if f = 11 then i / 5 else i * fmtWidth f / 32) ⟨false, p⟩)
/-- VINS. -/
def execVins (d : VNum) (a : GReg) (i : BitVec 7) (s : State) : Result :=
  vectorOp [] [a] d (fun vals =>
    let g := vals.getD 0 .zero
    let v := s.vGet d
    let f := tagFmt v.tag
    if tagMalformed v.tag then .error (tagTrap v.tag)
    else if laneCount f ≤ i.toNat then .error (mkTrap 0x33 (i.zeroExtend 64))
    else .ok ((if g.valid then insLane f v i.toNat (g.bits.toNat % 2 ^ fmtWidth f) else insBad f v i.toNat (normPayload (g.bits.extractLsb' 0 32))), [])) s
/-- VZERO. -/
def execVzero (d : VNum) (fmt : BitVec 4) (s : State) : Result :=
  vectorOp [] [] d (fun _ => .ok (⟨fmt.zeroExtend 16, 0xFFFF, 0⟩, [])) s

end Sys2Proof.Machine
end

