-- ==== Sys2Proof/Machine/Dispatch.lean ====
section
/-! DEFINITION. The dispatch of every constructor of Instr to its meaning. -/

namespace Sys2Proof.Machine

/-- What an instruction, a stream word, a command or an event does to the machine. -/
def exec (i : Instr) (s : State) : Host.Outcome State Fault Refusal :=
  match i with
  | .add d a b => Sys2Proof.Machine.execAdd d a b s
  | .sub d a b => Sys2Proof.Machine.execSub d a b s
  | .mul d a b => Sys2Proof.Machine.execMul d a b s
  | .mulh d a b => Sys2Proof.Machine.execMulh d a b s
  | .mulhz d a b => Sys2Proof.Machine.execMulhz d a b s
  | .div d a b => Sys2Proof.Machine.execDiv d a b s
  | .divz d a b => Sys2Proof.Machine.execDivz d a b s
  | .rem d a b => Sys2Proof.Machine.execRem d a b s
  | .remz d a b => Sys2Proof.Machine.execRemz d a b s
  | .and d a b => Sys2Proof.Machine.execAnd d a b s
  | .or d a b => Sys2Proof.Machine.execOr d a b s
  | .xor d a b => Sys2Proof.Machine.execXor d a b s
  | .andn d a b => Sys2Proof.Machine.execAndn d a b s
  | .slt d a b => Sys2Proof.Machine.execSlt d a b s
  | .sltz d a b => Sys2Proof.Machine.execSltz d a b s
  | .min d a b => Sys2Proof.Machine.execMin d a b s
  | .max d a b => Sys2Proof.Machine.execMax d a b s
  | .minz d a b => Sys2Proof.Machine.execMinz d a b s
  | .maxz d a b => Sys2Proof.Machine.execMaxz d a b s
  | .sel d a b => Sys2Proof.Machine.execSel d a b s
  | .addImm d a imm => Sys2Proof.Machine.execAddImm d a imm s
  | .mulImm d a imm => Sys2Proof.Machine.execMulImm d a imm s
  | .andImm d a imm => Sys2Proof.Machine.execAndImm d a imm s
  | .orImm d a imm => Sys2Proof.Machine.execOrImm d a imm s
  | .xorImm d a imm => Sys2Proof.Machine.execXorImm d a imm s
  | .sltImm d a imm => Sys2Proof.Machine.execSltImm d a imm s
  | .sltzImm d a imm => Sys2Proof.Machine.execSltzImm d a imm s
  | .lih d imm => Sys2Proof.Machine.execLih d imm s
  | .li d imm => Sys2Proof.Machine.execLi d imm s
  | .liH d imm => Sys2Proof.Machine.execLiH d imm s
  | .leaLong d a imm => Sys2Proof.Machine.execLeaLong d a imm s
  | .addLong d a imm => Sys2Proof.Machine.execAddLong d a imm s
  | .mulLong d a imm => Sys2Proof.Machine.execMulLong d a imm s
  | .andLong d a imm => Sys2Proof.Machine.execAndLong d a imm s
  | .orLong d a imm => Sys2Proof.Machine.execOrLong d a imm s
  | .xorLong d a imm => Sys2Proof.Machine.execXorLong d a imm s
  | .sltLong d a imm => Sys2Proof.Machine.execSltLong d a imm s
  | .sltzLong d a imm => Sys2Proof.Machine.execSltzLong d a imm s
  | .shl d a b => Sys2Proof.Machine.execShl d a b s
  | .shlImm d a n => Sys2Proof.Machine.execShlImm d a n s
  | .shr d a b => Sys2Proof.Machine.execShr d a b s
  | .shrImm d a n => Sys2Proof.Machine.execShrImm d a n s
  | .sar d a b => Sys2Proof.Machine.execSar d a b s
  | .sarImm d a n => Sys2Proof.Machine.execSarImm d a n s
  | .rol d a b => Sys2Proof.Machine.execRol d a b s
  | .rolImm d a n => Sys2Proof.Machine.execRolImm d a n s
  | .clz d a => Sys2Proof.Machine.execClz d a s
  | .ctz d a => Sys2Proof.Machine.execCtz d a s
  | .popc d a => Sys2Proof.Machine.execPopc d a s
  | .brev d a => Sys2Proof.Machine.execBrev d a s
  | .bext d a b => Sys2Proof.Machine.execBext d a b s
  | .bins d a b => Sys2Proof.Machine.execBins d a b s
  | .lea d a b x => Sys2Proof.Machine.execLea d a b x s
  | .idx2 d a b x => Sys2Proof.Machine.execIdx2 d a b x s
  | .pack d a b => Sys2Proof.Machine.execPack d a b s
  | .beq a b imm => Sys2Proof.Machine.execBeq a b imm s
  | .bne a b imm => Sys2Proof.Machine.execBne a b imm s
  | .blt a b imm => Sys2Proof.Machine.execBlt a b imm s
  | .bge a b imm => Sys2Proof.Machine.execBge a b imm s
  | .blo a b imm => Sys2Proof.Machine.execBlo a b imm s
  | .bhs a b imm => Sys2Proof.Machine.execBhs a b imm s
  | .bval a imm => Sys2Proof.Machine.execBval a imm s
  | .binv a imm => Sys2Proof.Machine.execBinv a imm s
  | .jal d imm => Sys2Proof.Machine.execJal d imm s
  | .jalLong d imm => Sys2Proof.Machine.execJalLong d imm s
  | .jr d a => Sys2Proof.Machine.execJr d a s
  | .yield => Sys2Proof.Machine.execYield s
  | .loop a n => Sys2Proof.Machine.execLoop a n s
  | .ld d a oc acq t imm => Sys2Proof.Machine.execLd d a oc acq t imm s
  | .ldLong d a oc acq t imm => Sys2Proof.Machine.execLdLong d a oc acq t imm s
  | .st x a oc rel t imm => Sys2Proof.Machine.execSt x a oc rel t imm s
  | .stLong x a oc rel t imm => Sys2Proof.Machine.execStLong x a oc rel t imm s
  | .ldv d a oc fmt imm => Sys2Proof.Machine.execLdv d a oc fmt imm s
  | .ldvLong d a oc fmt imm => Sys2Proof.Machine.execLdvLong d a oc fmt imm s
  | .stv x a oc fmt imm => Sys2Proof.Machine.execStv x a oc fmt imm s
  | .stvLong x a oc fmt imm => Sys2Proof.Machine.execStvLong x a oc fmt imm s
  | .prf t a oc imm => Sys2Proof.Machine.execPrf t a oc imm s
  | .prfLong t a oc imm => Sys2Proof.Machine.execPrfLong t a oc imm s
  | .ldfe d a oc clr => Sys2Proof.Machine.execLdfe d a oc clr s
  | .stfe a b oc => Sys2Proof.Machine.execStfe a b oc s
  | .feq d a oc => Sys2Proof.Machine.execFeq d a oc s
  | .feset a oc full => Sys2Proof.Machine.execFeset a oc full s
  | .amadd d a b k w oc => Sys2Proof.Machine.execAmadd d a b k w oc s
  | .ammin d a b k w oc => Sys2Proof.Machine.execAmmin d a b k w oc s
  | .ammax d a b k w oc => Sys2Proof.Machine.execAmmax d a b k w oc s
  | .amminz d a b k w oc => Sys2Proof.Machine.execAmminz d a b k w oc s
  | .ammaxz d a b k w oc => Sys2Proof.Machine.execAmmaxz d a b k w oc s
  | .amand d a b k w oc => Sys2Proof.Machine.execAmand d a b k w oc s
  | .amor d a b k w oc => Sys2Proof.Machine.execAmor d a b k w oc s
  | .amxor d a b k w oc => Sys2Proof.Machine.execAmxor d a b k w oc s
  | .amswp d a b k w oc => Sys2Proof.Machine.execAmswp d a b k w oc s
  | .amcas d a b k w oc => Sys2Proof.Machine.execAmcas d a b k w oc s
  | .amfadd d a b k w oc => Sys2Proof.Machine.execAmfadd d a b k w oc s
  | .aminc d a b k w oc => Sys2Proof.Machine.execAminc d a b k w oc s
  | .redadd a b rel w oc => Sys2Proof.Machine.execRedadd a b rel w oc s
  | .redmin a b rel w oc => Sys2Proof.Machine.execRedmin a b rel w oc s
  | .redmax a b rel w oc => Sys2Proof.Machine.execRedmax a b rel w oc s
  | .redfadd a b rel w oc => Sys2Proof.Machine.execRedfadd a b rel w oc s
  | .redor a b rel w oc => Sys2Proof.Machine.execRedor a b rel w oc s
  | .fence mask k scope => Sys2Proof.Machine.execFence mask k scope s
  | .arc d id k oc => Sys2Proof.Machine.execArc d id k oc s
  | .evsig a e => Sys2Proof.Machine.execEvsig a e s
  | .evwait d e => Sys2Proof.Machine.execEvwait d e s
  | .barrive d e => Sys2Proof.Machine.execBarrive d e s
  | .bwait d e => Sys2Proof.Machine.execBwait d e s
  | .bskip a e => Sys2Proof.Machine.execBskip a e s
  | .prio c => Sys2Proof.Machine.execPrio c s
  | .trigbind d a b => Sys2Proof.Machine.execTrigbind d a b s
  | .trigdrop d a => Sys2Proof.Machine.execTrigdrop d a s
  | .freeze d a => Sys2Proof.Machine.execFreeze d a s
  | .thaw d a => Sys2Proof.Machine.execThaw d a s
  | .pndef d a => Sys2Proof.Machine.execPndef d a s
  | .pnatt d a fill => Sys2Proof.Machine.execPnatt d a fill s
  | .pndet d a => Sys2Proof.Machine.execPndet d a s
  | .pndrop d a => Sys2Proof.Machine.execPndrop d a s
  | .pnrel d a => Sys2Proof.Machine.execPnrel d a s
  | .pnq d a n => Sys2Proof.Machine.execPnq d a n s
  | .sqset q a b k => Sys2Proof.Machine.execSqset q a b k s
  | .sqld q a oc => Sys2Proof.Machine.execSqld q a oc s
  | .sqiss d q => Sys2Proof.Machine.execSqiss d q s
  | .sqwait a => Sys2Proof.Machine.execSqwait a s
  | .config d a => Sys2Proof.Machine.execConfig d a s
  | .arm d a => Sys2Proof.Machine.execArm d a s
  | .disarm d a => Sys2Proof.Machine.execDisarm d a s
  | .vadd d a b m => Sys2Proof.Machine.execVadd d a b m s
  | .vsub d a b m => Sys2Proof.Machine.execVsub d a b m s
  | .vmul d a b m => Sys2Proof.Machine.execVmul d a b m s
  | .vfma d a b m => Sys2Proof.Machine.execVfma d a b m s
  | .vfms d a b m => Sys2Proof.Machine.execVfms d a b m s
  | .vdiv d a b m => Sys2Proof.Machine.execVdiv d a b m s
  | .vsqrt d a m => Sys2Proof.Machine.execVsqrt d a m s
  | .vrsq d a m => Sys2Proof.Machine.execVrsq d a m s
  | .vrcp d a m => Sys2Proof.Machine.execVrcp d a m s
  | .vmin d a b m => Sys2Proof.Machine.execVmin d a b m s
  | .vmax d a b m => Sys2Proof.Machine.execVmax d a b m s
  | .vabs d a m => Sys2Proof.Machine.execVabs d a m s
  | .vneg d a m => Sys2Proof.Machine.execVneg d a m s
  | .vexp2 d a m => Sys2Proof.Machine.execVexp2 d a m s
  | .vlog2 d a m => Sys2Proof.Machine.execVlog2 d a m s
  | .vscale d a b m => Sys2Proof.Machine.execVscale d a b m s
  | .viadd d a b => Sys2Proof.Machine.execViadd d a b s
  | .visub d a b => Sys2Proof.Machine.execVisub d a b s
  | .vimul d a b => Sys2Proof.Machine.execVimul d a b s
  | .vimin d a b => Sys2Proof.Machine.execVimin d a b s
  | .vimax d a b => Sys2Proof.Machine.execVimax d a b s
  | .vand d a b => Sys2Proof.Machine.execVand d a b s
  | .vor d a b => Sys2Proof.Machine.execVor d a b s
  | .vxor d a b => Sys2Proof.Machine.execVxor d a b s
  | .vshl d a b => Sys2Proof.Machine.execVshl d a b s
  | .vshlImm d a n => Sys2Proof.Machine.execVshlImm d a n s
  | .vshr d a b => Sys2Proof.Machine.execVshr d a b s
  | .vshrImm d a n => Sys2Proof.Machine.execVshrImm d a n s
  | .vsar d a b => Sys2Proof.Machine.execVsar d a b s
  | .vsarImm d a n => Sys2Proof.Machine.execVsarImm d a n s
  | .vsum d a m => Sys2Proof.Machine.execVsum d a m s
  | .vhmax d a => Sys2Proof.Machine.execVhmax d a s
  | .vhmin d a => Sys2Proof.Machine.execVhmin d a s
  | .vcmp d a b c => Sys2Proof.Machine.execVcmp d a b c s
  | .vsel d a b => Sys2Proof.Machine.execVsel d a b s
  | .vval d a b apply => Sys2Proof.Machine.execVval d a b apply s
  | .vperm d a b => Sys2Proof.Machine.execVperm d a b s
  | .vbcast d a j => Sys2Proof.Machine.execVbcast d a j s
  | .vslide d a b n => Sys2Proof.Machine.execVslide d a b n s
  | .vcvt d a p m => Sys2Proof.Machine.execVcvt d a p m s
  | .vqnt d a b p m => Sys2Proof.Machine.execVqnt d a b p m s
  | .vdqnt d a b p m => Sys2Proof.Machine.execVdqnt d a b p m s
  | .vtag d a => Sys2Proof.Machine.execVtag d a s
  | .vtagrd d a => Sys2Proof.Machine.execVtagrd d a s
  | .vpack d a b => Sys2Proof.Machine.execVpack d a b s
  | .vunpk d a b => Sys2Proof.Machine.execVunpk d a b s
  | .vmov d a => Sys2Proof.Machine.execVmov d a s
  | .vext d a j => Sys2Proof.Machine.execVext d a j s
  | .vins d a j => Sys2Proof.Machine.execVins d a j s
  | .vzero d fmt => Sys2Proof.Machine.execVzero d fmt s
  | .wait loads stores copies tiles => Sys2Proof.Machine.execWait loads stores copies tiles s
  | .nop => Sys2Proof.Machine.execNop s
  | .trap code => Sys2Proof.Machine.execTrap code s
  | .eret => Sys2Proof.Machine.execEret s
  | .sysrd d num => Sys2Proof.Machine.execSysrd d num s
  | .syswr d num => Sys2Proof.Machine.execSyswr d num s
  | .savec a => Sys2Proof.Machine.execSavec a s
  | .restc a => Sys2Proof.Machine.execRestc a s
  | .tcinv a k => Sys2Proof.Machine.execTcinv a k s
  | .icinv => Sys2Proof.Machine.execIcinv s
  | .idle a => Sys2Proof.Machine.execIdle a s
  | .brk code => Sys2Proof.Machine.execBrk code s
  | .bindr h rc hold => Sys2Proof.Machine.execBindr h rc hold s
  | .bindw h rc => Sys2Proof.Machine.execBindw h rc s
  | .unbind h abort => Sys2Proof.Machine.execUnbind h abort s
  | .cpy h va off len16 out => Sys2Proof.Machine.execCpy h va off len16 out s
  | .cpyp h src dst => Sys2Proof.Machine.execCpyp h src dst s
  | .gath h src dst => Sys2Proof.Machine.execGath h src dst s
  | .scat h src dst => Sys2Proof.Machine.execScat h src dst s
  | .mcst h src store eos hasStore => Sys2Proof.Machine.execMcst h src store eos hasStore s
  | .phase h rc => Sys2Proof.Machine.execPhase h rc s
  | .arrv h plot ctr batch row n1 => Sys2Proof.Machine.execArrv h plot ctr batch row n1 s
  | .patch h queue slot tag value voff indirect => Sys2Proof.Machine.execPatch h queue slot tag value voff indirect s
  | .evt h event amount => Sys2Proof.Machine.execEvt h event amount s
  | .wld h row w first n1 lines1 xid xv => Sys2Proof.Machine.execWld h row w first n1 lines1 xid xv s
  | .wstr h row w first n1 lines1 => Sys2Proof.Machine.execWstr h row w first n1 lines1 s
  | .mtok h mode acc w e0 m1 kr1 woff nl1 gtag => Sys2Proof.Machine.execMtok h mode acc w e0 m1 kr1 woff nl1 gtag s
  | .accz h east e0 n1 tag res clrstat rdstat => Sys2Proof.Machine.execAccz h east e0 n1 tag res clrstat rdstat s
  | .drn h east e0 n1 sh relu rm te clr lines1 goff gate rows => Sys2Proof.Machine.execDrn h east e0 n1 sh relu rm te clr lines1 goff gate rows s
  | .steer h ioff n1 => Sys2Proof.Machine.execSteer h ioff n1 s
  | .ringMember h mask w e0 m1 acc => Sys2Proof.Machine.execRingMember h mask w e0 m1 acc s
  | .ringSource h rc x0 nexp1 m1 lines1 passes1 => Sys2Proof.Machine.execRingSource h rc x0 nexp1 m1 lines1 passes1 s
  | .race h soff t1 ooff e1 k1 coff wcnt => Sys2Proof.Machine.execRace h soff t1 ooff e1 k1 coff wcnt s
  | .bnalloc h name cnt res wres => Sys2Proof.Machine.execBnalloc h name cnt res wres s
  | .bnfree h name cnt => Sys2Proof.Machine.execBnfree h name cnt s
  | .bnshare h src dst cnt => Sys2Proof.Machine.execBnshare h src dst cnt s
  | .bnxl h name cnt res wi => Sys2Proof.Machine.execBnxl h name cnt res wi s
  | .pnevict h name res wres => Sys2Proof.Machine.execPnevict h name res wres s
  | .pnfill h name origin res wres => Sys2Proof.Machine.execPnfill h name origin res wres s
  | .queueOpen queue n qpn port ring => Sys2Proof.Machine.execQueueOpen queue n qpn port ring s
  | .queueClose queue => Sys2Proof.Machine.execQueueClose queue s
  | .queueReset queue => Sys2Proof.Machine.execQueueReset queue s
  | .linkCreate link producer consumer => Sys2Proof.Machine.execLinkCreate link producer consumer s
  | .linkDestroy link => Sys2Proof.Machine.execLinkDestroy link s
  | .imageInstall pa root k gang members1 remaps others => Sys2Proof.Machine.execImageInstall pa root k gang members1 remaps others s
  | .imageRemove inst => Sys2Proof.Machine.execImageRemove inst s
  | .bindStreams image sink pna pnb exts => Sys2Proof.Machine.execBindStreams image sink pna pnb exts s
  | .preempt inst => Sys2Proof.Machine.execPreempt inst s
  | .restore inst => Sys2Proof.Machine.execRestore inst s
  | .slotResume inst plot slot => Sys2Proof.Machine.execSlotResume inst plot slot s
  | .slotKill inst plot slot => Sys2Proof.Machine.execSlotKill inst plot slot s
  | .pnAdminDrop name => Sys2Proof.Machine.execPnAdminDrop name s
  | .pnAdminEvict name => Sys2Proof.Machine.execPnAdminEvict name s
  | .pnAdminFill name origin => Sys2Proof.Machine.execPnAdminFill name origin s
  | .pnAdminList off cap => Sys2Proof.Machine.execPnAdminList off cap s
  | .regionDeclare pa life trapFlag => Sys2Proof.Machine.execRegionDeclare pa life trapFlag s
  | .regionUndeclare pa => Sys2Proof.Machine.execRegionUndeclare pa s
  | .faultReplay id => Sys2Proof.Machine.execFaultReplay id s
  | .faultDecline id => Sys2Proof.Machine.execFaultDecline id s
  | .shootdownAsid inst => Sys2Proof.Machine.execShootdownAsid inst s
  | .shootdownPage inst va => Sys2Proof.Machine.execShootdownPage inst va s
  | .shootdownAll inst => Sys2Proof.Machine.execShootdownAll inst s
  | .dieFence die => Sys2Proof.Machine.execDieFence die s
  | .partitionSet n val => Sys2Proof.Machine.execPartitionSet n val s
  | .hostCopy hoff addr len toHost phys inst => Sys2Proof.Machine.execHostCopy hoff addr len toHost phys inst s
  | .logRead off cap => Sys2Proof.Machine.execLogRead off cap s
  | .decodeFault illegal bit word0 => Sys2Proof.Machine.execDecodeFault illegal bit word0 s
  | .fetchFault cause va straddle => Sys2Proof.Machine.execFetchFault cause va straddle s
  | .g30Write v => Sys2Proof.Machine.execG30Write v s
  | .g31Read d => Sys2Proof.Machine.execG31Read d s
  | .flitArrive id => Sys2Proof.Machine.execFlitArrive id s
  | .loadComplete id => Sys2Proof.Machine.execLoadComplete id s
  | .storePerform id => Sys2Proof.Machine.execStorePerform id s
  | .amoPerform id => Sys2Proof.Machine.execAmoPerform id s
  | .redPerform id => Sys2Proof.Machine.execRedPerform id s
  | .readServe id => Sys2Proof.Machine.execReadServe id s
  | .readResponseMerge id => Sys2Proof.Machine.execReadResponseMerge id s
  | .hostPageAccess id => Sys2Proof.Machine.execHostPageAccess id s
  | .pageWalk id => Sys2Proof.Machine.execPageWalk id s
  | .countedPacketSend id => Sys2Proof.Machine.execCountedPacketSend id s
  | .packetArrive id => Sys2Proof.Machine.execPacketArrive id s
  | .deliveryAck id => Sys2Proof.Machine.execDeliveryAck id s
  | .frontierRequest unit die => Sys2Proof.Machine.execFrontierRequest unit die s
  | .frontierFlitSend die unit => Sys2Proof.Machine.execFrontierFlitSend die unit s
  | .frontierFlitReceive id => Sys2Proof.Machine.execFrontierFlitReceive id s
  | .mastLinkError => Sys2Proof.Machine.execMastLinkError s
  | .rebaseQuiet => Sys2Proof.Machine.execRebaseQuiet s
  | .rebaseReset => Sys2Proof.Machine.execRebaseReset s
  | .ringRetune stack => Sys2Proof.Machine.execRingRetune stack s
  | .ringHeaterSaturate stack waveguide wavelength => Sys2Proof.Machine.execRingHeaterSaturate stack waveguide wavelength s
  | .ringReassignDone stack waveguide => Sys2Proof.Machine.execRingReassignDone stack waveguide s
  | .vbusRetrain die => Sys2Proof.Machine.execVbusRetrain die s
  | .vbusRetrainForced die => Sys2Proof.Machine.execVbusRetrainForced die s
  | .vbusRetrainEnd die => Sys2Proof.Machine.execVbusRetrainEnd die s
  | .deadlockRecoveryStart plot => Sys2Proof.Machine.execDeadlockRecoveryStart plot s
  | .deadlockRecoveryEnd plot => Sys2Proof.Machine.execDeadlockRecoveryEnd plot s
  | .dcarveWrite die value => Sys2Proof.Machine.execDcarveWrite die value s
  | .controlRegisterWrite pa value => Sys2Proof.Machine.execControlRegisterWrite pa value s
  | .bindrBeat plot port => Sys2Proof.Machine.execBindrBeat plot port s
  | .bindwBeat plot port => Sys2Proof.Machine.execBindwBeat plot port s
  | .streamWordComplete plot slot ticket => Sys2Proof.Machine.execStreamWordComplete plot slot ticket s
  | .mtokConsumed plot slot ticket => Sys2Proof.Machine.execMtokConsumed plot slot ticket s
  | .mtokDone plot slot ticket => Sys2Proof.Machine.execMtokDone plot slot ticket s
  | .ringGroupProduct inst region => Sys2Proof.Machine.execRingGroupProduct inst region s
  | .plotWake plot => Sys2Proof.Machine.execPlotWake plot s
  | .configScrub inst region err => Sys2Proof.Machine.execConfigScrub inst region err s
  | .regionReloadDone inst region good => Sys2Proof.Machine.execRegionReloadDone inst region good s
  | .storageScrub target err => Sys2Proof.Machine.execStorageScrub target err s
  | .arrvApply id => Sys2Proof.Machine.execArrvApply id s
  | .barrierTimeout inst e => Sys2Proof.Machine.execBarrierTimeout inst e s
  | .firingStart plot slot => Sys2Proof.Machine.execFiringStart plot slot s
  | .permitReceive id => Sys2Proof.Machine.execPermitReceive id s
  | .actorDone id => Sys2Proof.Machine.execActorDone id s
  | .guidonDoneReceive id => Sys2Proof.Machine.execGuidonDoneReceive id s
  | .watchdog plot slot => Sys2Proof.Machine.execWatchdog plot slot s
  | .idleTimeout plot slot => Sys2Proof.Machine.execIdleTimeout plot slot s
  | .asyncTrap plot slot => Sys2Proof.Machine.execAsyncTrap plot slot s
  | .preemptRegionFreeze inst region => Sys2Proof.Machine.execPreemptRegionFreeze inst region s
  | .pennantIdleEvict sess name => Sys2Proof.Machine.execPennantIdleEvict sess name s
  | .doorbell sess queue qpn port tail => Sys2Proof.Machine.execDoorbell sess queue qpn port tail s
  | .commandDispatch sess queue => Sys2Proof.Machine.execCommandDispatch sess queue s
  | .patchArrive id => Sys2Proof.Machine.execPatchArrive id s
  | .commandComplete id => Sys2Proof.Machine.execCommandComplete id s
  | .sessionOpen qp port msg => Sys2Proof.Machine.execSessionOpen qp port msg s
  | .sessionClose msg => Sys2Proof.Machine.execSessionClose msg s
  | .attest msg => Sys2Proof.Machine.execAttest msg s
  | .syncstate msg => Sys2Proof.Machine.execSyncstate msg s
  | .sessionTimeout sess => Sys2Proof.Machine.execSessionTimeout sess s
  | .qpLinkDown port => Sys2Proof.Machine.execQpLinkDown port s
  | .rdmaAtomic qpn port => Sys2Proof.Machine.execRdmaAtomic qpn port s
  | .powerOn boot => Sys2Proof.Machine.execPowerOn boot s
  | .thermalLimit die => Sys2Proof.Machine.execThermalLimit die s
  | .criticalTrip => Sys2Proof.Machine.execCriticalTrip s
  | .channelBeatArrive id => Sys2Proof.Machine.execChannelBeatArrive id s
  | .rdmaWrite sess queue qpn port slot entry => Sys2Proof.Machine.execRdmaWrite sess queue qpn port slot entry s
  | .hostWriteAcknowledged id => Sys2Proof.Machine.execHostWriteAcknowledged id s
  | .peerWriteAcknowledged id => Sys2Proof.Machine.execPeerWriteAcknowledged id s
  | .temperatureBelowLimit die => Sys2Proof.Machine.execTemperatureBelowLimit die s
  | .defectEntryAdded die entry => Sys2Proof.Machine.execDefectEntryAdded die entry s

end Sys2Proof.Machine
end

