-- ==== Sys2Proof/Machine/Fetch.lean ====
section
/-! DEFINITION. Fetching (R87, R90, R94, R392), decoding (R45-R47), issue (R358), and what happens next when nothing else is
listed (log 2). -/

namespace Sys2Proof.Machine

/-! ## Fetching -/

/-- What fetching a word comes to. -/
inductive Fetched where
  | word (w : BitVec 32) (s : State)
  | trap (t : Trap) (s : State)
  | wait (s : State)
  deriving DecidableEq, Repr
/-- The fetch of a word of a host page (R93, R94): outside the registered memory it parks, in a queue of 64 entries that is not full; replayed it
brings what its queue has read, and when declined it is lost (R95). -/
def State.fetchHost (s : State) (p k : Nat) (va : Word) (off : Nat) : Fetched :=
  match s.hostSession p with
  | some (_, x) =>
    if off + 4 ≤ x.hlen then .word (hostWord x off).bits s
    else match s.walks.find? fun w => w.2.plot == p && w.2.slot == k && w.2.va == va && w.2.kind == 12 && !w.2.orphan with
      | some (id, w) => if w.declined then .trap (mkTrap 0x05 va) { s with walks := tdel s.walks id }
        else if w.done then .word w.data.bits { s with walks := tdel s.walks id } else .wait s
      | none =>
        if 64 ≤ s.parkedAt (walkerSlice p va) then .wait s else
        let r := s.parkReport p k 0 va 0x03 false 0 (slicePlot (walkerSlice p va)) off
        .wait { r.2 with walks := tset r.2.walks r.2.nextId ⟨p, k, va, 12, some r.1, false, none, 0, (s.causalAt (dieOf p)).dv, none, W32.zero, off, false, false⟩, nextId := r.2.nextId + 1 }
  | none => .trap (mkTrap 0x05 va) s
/-- The 64-byte line of an address read by slot `k` into the instruction cache, by word (R392): an ordinary read at the line's home, whose
response merges (R116), with the fetching slot's signature (R133, log 94). -/
def State.fillIcache (s : State) (p k pa : Nat) : State :=
  let a := pa / 64 * 64
  let ws := s.readWords p a 16
  let s1 := (s.mergeRead p a).sliceUse a (coreSig (s.slotAt p k).pc p k 0) .read
  s1.modPlot p fun x => { x with icache := ((List.range 16).zip ws).foldl (fun t e => tset t (a / 4 + e.1) e.2) x.icache }
/-- The line of an address can be read for an instruction fetch now (R116, R139). -/
def State.mayFetch (s : State) (p pa : Nat) : Bool := s.mayRead (s.causalAt (dieOf p)).dv (pa / 64 * 64)
/-- A word fetched by slot `k` of plot `p` (R87, R90, R392, R402): the instruction cache may hold an older form of it (log 9), and
an invalid word is uncorrectable. A word that the cache does not hold waits until its home may serve it (R116). -/
def State.fetchWord (s : State) (p k : Nat) (va : Word) : Fetched :=
  match s.translate p k none 0 va 2 with
  | .trap t s' => .trap t s'
  | .miss s' => .wait s'
  | .hit e =>
    let pa := (e.addr va).toNat
    if e.host then s.fetchHost p k va pa
    else match s.targetTrap .read false pa va with
      | some t => .trap t s
      | none =>
        let cached := (tfind (s.plotAt p).icache (pa / 4)).isSome
        if !cached && !s.mayFetch p pa then .wait s
        else
          let c := if cached then s.choose else (true, s)
          let s1 := if c.1 && c.2.mayFetch p pa then c.2.fillIcache p k pa else c.2
          match tfind (s1.plotAt p).icache (pa / 4) with
          | some w => if w.valid then .word w.bits s1 else .trap (mkTrap 0x05 va) s1
          | none => .trap (mkTrap 0x05 va) s1
/-- A core may fetch a line ahead of its slots (R392, log 9): one that its translation cache reaches and its home serves. A line with an
uncorrectable error is discarded, and logged. -/
def State.fetchAhead (s : State) (p k : Nat) : State :=
  let c := s.choose
  if !c.1 then c.2
  else
    let va := Config.fetchAhead c.2.free
    let s1 := { c.2 with free := c.2.free + 1 }
    match s1.lookup p va with
    | none => s1
    | some e =>
      let pa := (e.addr va).toNat / 64 * 64
      if !canonical va || !e.permits 2 || e.host || (s1.targetTrap .read false pa va).isSome || !s1.mayFetch p pa then s1
      else if (s1.readWords p pa 16).all (·.valid) then s1.fillIcache p k pa
      else s1.logRec 0x02 p va.toNat
/-- The instruction at a slot's pc: its words, or the trap of the one that failed, `strad` set when that is the second (R392). -/
inductive FetchedInstr where
  | words (w0 : BitVec 32) (w1 : Option (BitVec 32)) (s : State)
  | trap (t : Trap) (s : State)
  | wait (s : State)
  deriving DecidableEq, Repr
/-- The instruction at the pc of slot `k` of plot `p` fetched. -/
def State.fetchInstr (s : State) (p k : Nat) : FetchedInstr :=
  let pc := (s.slotAt p k).pc
  match s.fetchWord p k pc with
  | .trap t s1 => .trap t s1
  | .wait s1 => .wait s1
  | .word w0 s1 =>
    if !isLong w0 then .words w0 none (s1.fetchAhead p k)
    else match s1.fetchWord p k (pc + 4) with
      | .trap t s2 => .trap { t with tinfo := t.tinfo ||| 0x200000000 } s2
      | .wait s2 => .wait s2
      | .word w1 s2 => .words w0 (some w1) (s2.fetchAhead p k)

/-! ## Issue -/

/-- The focus moved to a slot. -/
def State.atSlot (s : State) (p k : Nat) : State := { s with focus := { s.focus with plot := p, slot := k } }
/-- A slot may issue: a firing in progress, not held, not idle, its instance neither halted nor saved (R344, R388, R403, R405), and, but for
a trap, nothing it sent waiting for a sequence number (R118, R122). -/
def State.canIssue (s : State) (p k : Nat) : Bool :=
  let x := s.slotAt p k
  x.firing && !x.held && x.idleEnd.isNone && (x.nextPend.isSome || !s.sendStalled p k) && (match s.instAt p with
    | some (_, i) => i.saved == .running
    | none => true)
/-- A decoded instruction executed, or the trap of a word that is none (R45-R47). -/
def runDecoded (r : Except Reject Instr) (w0 : BitVec 32) (s : State) : Result :=
  match r with
  | .ok i => exec i s
  | .error (.illegal b) => execDecodeFault true b w0 s
  | .error (.reserved b) => execDecodeFault false b w0 s
  | .error .short => .next s
/-- The instruction at a slot's pc fetched, decoded and executed. -/
def runInstr (p k : Nat) (s : State) : Result :=
  match s.fetchInstr p k with
  | .trap t s1 => .next (s1.trapNow t)
  | .wait s1 => .next s1
  | .words w0 w1 s1 => runDecoded (decodeWords w0 w1) w0 s1
/-- A slot issues: a pending trap is taken at the boundary before the instruction there is decoded (R387), unless that instruction's request has
been answered or begun: then it ends first. -/
def issueSlot (p k : Nat) (s : State) : Result :=
  if !s.canIssue p k then .next s
  else if (s.slotAt p k).nextPend.isSome && !s.pnHeld (8 * p + k) then execAsyncTrap (BitVec.ofNat 13 p) (BitVec.ofNat 3 k) s
  else runInstr p k (s.atSlot p k)
/-- Time moves on. -/
def State.tick (s : State) (n : Nat) : State := { s with clock := s.clock + n }
/-- A slot could issue in this clk: its instruction would not merely wait. -/
def State.couldIssue (s : State) (p k : Nat) : Bool :=
  s.canIssue p k && (match issueSlot p k (s.atSlot p k) with
    | .next s' => decide (s' ≠ s.atSlot p k)
    | _ => true)
/-- The other slots of the plot that could issue. -/
def State.rivals (s : State) (p k : Nat) : List Nat := (List.range 8).filter fun j => j != k && s.couldIssue p j
/-- Slot `k` is the one that R358 lets issue in this clk, among those that could. -/
def State.issueTurn (s : State) (p k : Nat) : Bool := s.bestSlot p (·.waited) (k :: s.rivals p k) == some k
/-- A clk in which a slot has issued: the others that could have issued were passed over once more (R358). -/
def State.passOver (s : State) (p k : Nat) (l : List Nat) : State :=
  (l.foldl (fun s j => s.modSlot p j fun x => { x with waited := x.waited + 1 }) (s.modSlot p k fun x => { x with waited := 0, resumed := none })).tick 1
/-- Slot `k` of plot `p` issues in this clk if it could and it is its turn (R358); the clk passes. -/
def issueClk (p k : Nat) (s : State) : Result :=
  if !s.couldIssue p k || !s.issueTurn p k then .next (s.tick 1)
  else match issueSlot p k (s.atSlot p k) with
    | .next s' => .next (s'.passOver p k (s.rivals p k))
    | r => r

/-! ## What happens next (log 2) -/

/-- The state that a happening leads to, if it changes anything. -/
def State.attempt (s : State) (f : State → Result) : Option State :=
  match f s with
  | .next s' => if s' = s then none else some s'
  | _ => none
/-- The first of some happenings that changes anything. -/
def State.firstOf (s : State) : List (State → Result) → Option State
  | [] => none
  | f :: t => match s.attempt f with
    | some s' => some s'
    | none => s.firstOf t
/-- What can happen to requests, walks and packets. -/
def State.memoryEvents (s : State) : List (State → Result) :=
  (s.reqs.flatMap fun e => [execLoadComplete e.1, execReadResponseMerge e.1, execStorePerform e.1, execAmoPerform e.1, execRedPerform e.1,
      execReadServe e.1, execHostPageAccess e.1, execCountedPacketSend e.1])
    ++ (s.walks.map fun e => execPageWalk e.1) ++ (s.outs.map fun e => execCountedPacketSend e.1)
    ++ s.packets.flatMap fun e => [execPacketArrive e.1, execDeliveryAck e.1]
/-- Frontier flits and rebases; a unit asks a die only while nothing is on its way between them. -/
def State.causalEvents (s : State) : List (State → Result) :=
  (s.frontiers.map fun e => execFrontierFlitReceive e.1)
    ++ (List.range 128).flatMap (fun n =>
      if s.frontiers.any fun e => e.2.die == n / 16 && e.2.unit == n % 16 then []
      else (if s.waitsOn (n % 16) (n / 16) then [execFrontierRequest (BitVec.ofNat 4 (n % 16)) (BitVec.ofNat 3 (n / 16))] else [])
        ++ [execFrontierFlitSend (BitVec.ofNat 3 (n / 16)) (BitVec.ofNat 4 (n % 16))])
    ++ [execRebaseQuiet, execRebaseReset]
/-- Tokens and stream words. -/
def State.wordEvents (s : State) : List (State → Result) :=
  (s.tokens.flatMap fun e => [execFlitArrive e.1, execPermitReceive e.1, execGuidonDoneReceive e.1, execArrvApply e.1])
    ++ s.words.flatMap fun e =>
      let p := BitVec.ofNat 13 e.2.plot
      let k := BitVec.ofNat 3 e.2.slot
      [fun s => match exec e.2.instr { s with focus := { s.focus with word := e.1 } } with
        | .next s' => .next { s' with focus := s.focus }
        | r => r, execMtokConsumed p k e.2.ticket, execMtokDone p k e.2.ticket, execStreamWordComplete p k e.2.ticket]
/-- Ports, channels and regions. -/
def State.portEvents (s : State) : List (State → Result) :=
  (s.ports.flatMap fun e => if e.2.bind.isSome || e.2.ending != [] then
      [execBindrBeat (BitVec.ofNat 13 (e.1 / 16)) (BitVec.ofNat 4 (e.1 % 16)), execBindwBeat (BitVec.ofNat 13 (e.1 / 16)) (BitVec.ofNat 4 (e.1 % 16))] else [])
    ++ (s.chans.map fun e => execChannelBeatArrive e.1)
    ++ (s.regions.flatMap fun e =>
      let i := e.1 / 256
      [execRingGroupProduct i (e.1 % 256), execRegionReloadDone i (e.1 % 256) true, execPreemptRegionFreeze i (e.1 % 256)])
    ++ s.plots.map fun e => execPlotWake (BitVec.ofNat 13 e.1)
/-- The service routine's SAVEC and RESTC of a plot (R404): the focus is as it was afterwards. -/
def serviceOf (p : Nat) (s : State) : Result :=
  let at0 := s.atSlot p 0
  match at0.attempt (execSavec 0) with
  | some s' => .next { s' with focus := s.focus }
  | none => match execRestc 0 at0 with
    | .next s' => .next { s' with focus := s.focus }
    | r => r
/-- Firings, their ends and their timers. -/
def State.actorEvents (s : State) : List (State → Result) :=
  (s.slots.flatMap fun e =>
      let p := BitVec.ofNat 13 (e.1 / 8)
      let k := BitVec.ofNat 3 (e.1 % 8)
      [execActorDone e.1, execWatchdog p k, execIdleTimeout p k, execFiringStart p k])
    ++ (s.plots.flatMap fun e => if e.2.service then [serviceOf e.1] else [])
    ++ s.insts.flatMap fun e => e.2.guidons.map fun g => execBarrierTimeout e.1 (BitVec.ofNat 8 g.1)
/-- The front end, the firmware and the timers of the dies. -/
def State.hostEvents (s : State) : List (State → Result) :=
  (s.patchMsgs.map fun e => execPatchArrive e.1)
    ++ (s.cmds.flatMap fun e => execCommandComplete e.1 :: match e.2.instr with
      | some i => [fun s => match exec i { s with focus := { s.focus with cmd := e.1 } } with
        | .next s' => .next { s' with focus := s.focus }
        | r => r]
      | none => [])
    ++ (s.queues.map fun e => execCommandDispatch (e.1 / 256) (e.1 % 256))
    ++ (s.pennants.map fun e => execPennantIdleEvict (if e.2.life = 0 then some e.2.sess else none) e.2.name)
    ++ (s.sessions.map fun e => execSessionTimeout e.1)
    ++ (s.optics.flatMap fun e => e.2.busy.map fun b => if b.2 ≤ s.clock then execRingReassignDone (BitVec.ofNat 4 e.1) (BitVec.ofNat 5 b.1) else Host.Outcome.next)
    ++ (if s.powered then (List.range 8).flatMap fun d =>
      [execVbusRetrainEnd (BitVec.ofNat 3 d), execVbusRetrainForced (BitVec.ofNat 3 d), execVbusRetrain (BitVec.ofNat 3 d)] else [])
    ++ (s.hostAcks.map fun e => execHostWriteAcknowledged e.1) ++ s.peerOut.map fun e => execPeerWriteAcknowledged e.1
/-- The slot of a plot that R358 lets issue in this clk, if any could, issues. -/
def State.issuePlot (s : State) (p : Nat) : Option State :=
  match s.bestSlot p (·.waited) ((List.range 8).filter (s.couldIssue p)) with
  | none => none
  | some k => match issueClk p k s with
    | .next s' => some s'
    | _ => none
/-- Plots after the one that issued last, then the others. -/
def State.plotOrder (s : State) : List Nat :=
  let l := s.plots.map (·.1)
  l.filter (fun p => decide (s.focus.plot < p)) ++ l.filter fun p => decide (p ≤ s.focus.plot)
/-- Frontier requests that an instruction's own read may need, when nothing else can happen. -/
def State.lateRequests (s : State) : List (State → Result) :=
  (List.range 64).flatMap fun n =>
    if s.frontiers.any fun e => e.2.die == n / 8 && e.2.unit == n % 8 then [] else [execFrontierRequest (BitVec.ofNat 4 (n % 8)) (BitVec.ofNat 3 (n / 8))]
/-- What happens when nothing is listed: the first event that can, else an issue, else time passes. -/
def autoStep (s : State) : Result :=
  match s.firstOf (s.memoryEvents ++ s.causalEvents ++ s.wordEvents ++ s.portEvents ++ s.actorEvents ++ s.hostEvents) with
  | some s' => .next s'
  | none => match s.plotOrder.findSome? s.issuePlot with
    | some s' => .next s'
    | none => match s.firstOf s.lateRequests with
      | some s' => .next s'
      | none => .next (s.tick 1)
/-- An event, not an instruction, a stream word or a command. -/
def isEvent (i : Instr) : Bool := decide (244 ≤ i.ctorIdx)
/-- One listed happening. -/
def runSched (a : Sched) (s : State) : Result :=
  match a with
  | .advance n => .next (s.tick n)
  | .event i => if isEvent i then exec i s else .next s
  | .message port i => if isEvent i then exec i { s with focus := { s.focus with port := port } } else .next s
  | .issue p k => issueClk p k s
  | .word id => match tfind s.words id with
    | some w => exec w.instr { s with focus := { s.focus with word := id } }
    | none => .next s
  | .command id => match tfind s.cmds id with
    | some c => match c.instr with
      | some i => exec i { s with focus := { s.focus with cmd := id } }
      | none => .next s
    | none => .next s

end Sys2Proof.Machine
end

