-- ==== Sys2Proof/Machine/Step.lean ====
section
/-! DEFINITION. One step of the module, and the placing of an instruction for it to run next (log 5). -/

namespace Sys2Proof.Machine

/-- One step: what is listed to happen next, or what happens by itself (log 2); nothing after the critical trip (R430). -/
def step (s : State) : Host.Outcome State Fault Refusal :=
  if s.halted then .fault .moduleHalted
  else match s.sched with
    | a :: t => runSched a { s with sched := t }
    | [] => autoStep s

/-- Where a placed instruction lies: the staging area of die 0's weight layer (R136), backed on every part. -/
def placedAt : Nat := 0x200FC000000
/-- The translation under which slot 0 of plot 0 reaches it at address 0. -/
def placedEntry : Tlb := ⟨0, true, false, 0, BitVec.ofNat 48 placedAt, false, true, true, true, true⟩
/-- A scalar instruction's words stored where slot 0 of plot 0, in a firing, fetches next, at address 0. -/
def State.placeWords (s : State) (w0 w1 : BitVec 32) : State :=
  let s1 := { s with halted := false, removed := s.removed &&& 0xFE, mem := s.mem.setWords placedAt [⟨true, w0⟩, ⟨true, w1⟩], sched := [.issue 0 0],
                     insts := tmap s.insts fun _ x => if x.plots.contains 0 then { x with saved := .running } else x }
  let s2 := s1.modPlot 0 fun p => { p with tlb := placedEntry :: p.tlb, icache := [(placedAt / 4, ⟨true, w0⟩), (placedAt / 4 + 1, ⟨true, w1⟩)] }
  -- nothing of the slot's waits to leave, and its turn has come (R118, R358)
  let s3 := if s2.sendStalled 0 0 then { s2 with outs := s2.outs.filter fun e => e.2.plot != 0 || e.2.slot != 0, reqs := s2.reqs.filter fun e => e.2.plot != 0 || e.2.slot != 0 }
    else s2
  s3.modSlot 0 0 fun x => { x with pc := 0, firing := true, held := false, idleEnd := none, pend := [],
                                   waited := 64 + ((List.range 8).map fun j => (s.slotAt 0 j).waited).foldl max 0 }
/-- A stream word accepted from slot 0 of plot 0, to act next. -/
def State.placeWord (s : State) (i : Instr) : State :=
  let s1 := { s with halted := false, sched := [.word s.nextId], words := tset s.words s.nextId ⟨0, 0, (s.slotAt 0 0).ticket, i, .queued, [], [], 0, [], false, 0, 0, false, []⟩,
                     nextId := s.nextId + 1 }
  s1.modPlot 0 fun p => { p with queue := [s.nextId] }
/-- The instruction of a table word placed so that the next step runs it. -/
def State.withFetchWord (s : State) (nbits w : Nat) : State :=
  if nbits = 128 then match decodeTableWord 128 w with
    | some i => s.placeWord i
    | none => s
  else s.placeWords (BitVec.ofNat 32 w) (BitVec.ofNat 32 (w / 4294967296))

end Sys2Proof.Machine
end

