-- ==== Sys2Proof/Safety.lean ====
section
/-! DEFINITION. What the claims call a safe step and a safe run, the forms that every step keeps, and the words the claims are stated in:
when an instruction may issue, and what it may change. -/

namespace Sys2Proof.Machine

/-- A list of numbers rises strictly. -/
def rising : List Nat → Bool
  | [] => true
  | [_] => true
  | a :: b :: t => decide (a < b) && rising (b :: t)
/-- The canonical form of memory: bytes by rising address, none of them what an unlisted address reads as (log 1); words of other
validity and full granules by rising number. -/
def Memory.wf (m : Memory) : Bool :=
  rising (m.cells.map (·.1)) && m.cells.all (fun e => e.2 != freshByte e.1) && rising m.odd && rising m.full
/-- The step has a next state. -/
def stepSafe (s : State) : Prop := ∃ t, step s = .next t
/-- `n` steps, each with a next state. -/
def runSafe : (n : Nat) → State → Prop
  | 0, _ => True
  | n + 1, s => ∃ t, step s = .next t ∧ runSafe n t

/-- Nothing keeps an instruction that reads `srcs` and writes `dsts` from completing now: no register is still to be written, a flit is
there for each g31 (R24, R180, R153), and no source holds an uncorrectable error (R395). -/
def State.mayIssue (s : State) (srcs dsts : List GReg) : Prop :=
  s.blocked srcs dsts = false ∧ s.badReg (srcs.map fun n => (0, n)) = none

/-- What an instruction that reads `srcs` and writes g[d] changes when it completes: g[d], the pc and the loop stack of its slot; with a
g31 among its sources the FIFO and L1 of its plot; with d = 30 what a sent flit adds. Nothing else of the state. -/
def State.onlyWritesG (s t : State) (srcs : List GReg) (d : GReg) : Prop :=
  t = { s with slots := t.slots, plots := t.plots, outs := t.outs, nextId := t.nextId } ∧
  (∀ a, t.mem.byte a = s.mem.byte a) ∧
  (∀ k, k ≠ 8 * s.focus.plot + s.focus.slot → tget Slot.init t.slots k = tget Slot.init s.slots k) ∧
  t.cur = { s.cur with g := t.cur.g, pc := t.cur.pc, loops := t.cur.loops, bad := t.cur.bad } ∧
  (∀ n, n ≠ d → t.cur.gReg s.focus.plot n = s.cur.gReg s.focus.plot n) ∧
  (∀ b, b.1 ≠ 0 ∨ b.2.1 ≠ d → (b ∈ t.cur.bad ↔ b ∈ s.cur.bad)) ∧
  ((31 : GReg) ∉ srcs → t.plots = s.plots) ∧
  (∀ p, p ≠ s.focus.plot → t.plotAt p = s.plotAt p) ∧
  t.plotAt s.focus.plot = { s.plotAt s.focus.plot with fifo := (t.plotAt s.focus.plot).fifo, l1 := (t.plotAt s.focus.plot).l1 } ∧
  (d ≠ 30 → t.outs = s.outs ∧ t.nextId = s.nextId)

/-- Nothing keeps a memory instruction from issuing now: no read of its own is still held, and as `mayIssue` with its v and q registers, of
which it reads `rv` (R395). -/
def State.memReady (s : State) (srcs dsts : List GReg) (vs : List VNum) (qs : List QNum) (rv : List (BitVec 3 × BitVec 5)) : Prop :=
  s.cur.wait = none ∧ s.blocked srcs dsts = false ∧ s.blockedV vs = false ∧ s.blockedQ qs = false ∧
  s.badReg (srcs.map (fun n => (0, n)) ++ rv) = none
/-- The shape of a memory instruction (R36, R176, R187-R203): the registers it reads and writes (`rv` what it reads of v registers), its operation,
its displacement in bytes, the alignment it needs, and its size. -/
structure MemForm where
  srcs : List GReg
  dsts : List GReg
  vs : List VNum
  qs : List QNum
  rv : List (BitVec 3 × BitVec 5)
  op : Op
  disp : Word
  align : Nat
  size : Nat
/-- The shapes of every load, store, full/empty operation, atomic and reduction. -/
def memForm : Instr → Option MemForm
  | .ld d a _ _ k n => some ⟨[a], [d], [], [], [], .ld (2 ^ (k.toNat / 2)) (k.toNat % 2 = 0 && k.toNat < 6), n.signExtend 64 <<< (k.toNat / 2), 2 ^ (k.toNat / 2), 4⟩
  | .ldLong d a _ _ k n => some ⟨[a], [d], [], [], [], .ld (2 ^ (k.toNat / 2)) (k.toNat % 2 = 0 && k.toNat < 6), n.signExtend 64, 2 ^ (k.toNat / 2), 8⟩
  | .st x a _ _ k n => some ⟨[a, x], [], [], [], [], .st (2 ^ k.toNat), n.signExtend 64 <<< k.toNat, 2 ^ k.toNat, 4⟩
  | .stLong x a _ _ k n => some ⟨[a, x], [], [], [], [], .st (2 ^ k.toNat), n.signExtend 64, 2 ^ k.toNat, 8⟩
  | .ldv d a _ f n => some ⟨[a], [], [d], [], [], .ldv f, n.signExtend 64 <<< 6, 64, 4⟩
  | .ldvLong d a _ f n => some ⟨[a], [], [d], [], [], .ldv f, n.signExtend 64, 64, 8⟩
  | .stv x a _ f n => some ⟨[a], [], [x], [], (2, x.zeroExtend 5) :: (if f != 0 then [(4, x.zeroExtend 5)] else []), .stv, n.signExtend 64 <<< 6, 64, 4⟩
  | .stvLong x a _ f n => some ⟨[a], [], [x], [], (2, x.zeroExtend 5) :: (if f != 0 then [(4, x.zeroExtend 5)] else []), .stv, n.signExtend 64, 64, 8⟩
  | .ldfe d a _ c => some ⟨[a], [d], [], [], [], .ldfe c, 0, 8, 4⟩
  | .stfe a b _ => some ⟨[a, b], [], [], [], [], .stfe, 0, 8, 4⟩
  | .feq d a _ => some ⟨[a], [d], [], [], [], .feq, 0, 16, 4⟩
  | .feset a _ f => some ⟨[a], [], [], [], [], .feset f, 0, 16, 4⟩
  | .sqld q a _ => some ⟨[a], [], [], [q], [], .sqld, 0, 16, 4⟩
  | .amadd d a b _ w _ => some ⟨[a, b], [d], [], [], [], .amo 0 w, 0, if w then 8 else 4, 4⟩
  | .ammin d a b _ w _ => some ⟨[a, b], [d], [], [], [], .amo 1 w, 0, if w then 8 else 4, 4⟩
  | .ammax d a b _ w _ => some ⟨[a, b], [d], [], [], [], .amo 2 w, 0, if w then 8 else 4, 4⟩
  | .amminz d a b _ w _ => some ⟨[a, b], [d], [], [], [], .amo 3 w, 0, if w then 8 else 4, 4⟩
  | .ammaxz d a b _ w _ => some ⟨[a, b], [d], [], [], [], .amo 4 w, 0, if w then 8 else 4, 4⟩
  | .amand d a b _ w _ => some ⟨[a, b], [d], [], [], [], .amo 5 w, 0, if w then 8 else 4, 4⟩
  | .amor d a b _ w _ => some ⟨[a, b], [d], [], [], [], .amo 6 w, 0, if w then 8 else 4, 4⟩
  | .amxor d a b _ w _ => some ⟨[a, b], [d], [], [], [], .amo 7 w, 0, if w then 8 else 4, 4⟩
  | .amswp d a b _ w _ => some ⟨[a, b], [d], [], [], [], .amo 8 w, 0, if w then 8 else 4, 4⟩
  | .amcas d a b _ w _ => some ⟨[a, b, d], [d], [], [], [], .amo 9 w, 0, if w then 8 else 4, 4⟩
  | .amfadd d a b _ w _ => some ⟨[a, b], [d], [], [], [], .amo 10 w, 0, if w then 8 else 4, 4⟩
  | .aminc d a b _ w _ => some ⟨[a, b], [d], [], [], [], .amo 11 w, 0, if w then 8 else 4, 4⟩
  | .redadd a b _ w _ => some ⟨[a, b], [], [], [], [], .red 0 w, 0, if w then 8 else 4, 4⟩
  | .redmin a b _ w _ => some ⟨[a, b], [], [], [], [], .red 1 w, 0, if w then 8 else 4, 4⟩
  | .redmax a b _ w _ => some ⟨[a, b], [], [], [], [], .red 2 w, 0, if w then 8 else 4, 4⟩
  | .redfadd a b _ w _ => some ⟨[a, b], [], [], [], [], .red 10 w, 0, if w then 8 else 4, 4⟩
  | .redor a b _ w _ => some ⟨[a, b], [], [], [], [], .red 6 w, 0, if w then 8 else 4, 4⟩
  | _ => none
/-- An access of an operation at `ea` passes the checks of R179: aligned, translated by `e` with permission, its target admits it. -/
def State.accessOk (s : State) (op : Op) (oc : BitVec 3) (ea : Word) (e : Tlb) : Prop :=
  ea.toNat % op.align = 0 ∧ s.translate s.focus.plot s.focus.slot none oc ea op.kind = .hit e ∧
  s.targetTrap op.target e.host (e.addr ea).toNat ea = none
/-- From `s` to `t` a request was issued, and nothing else of memory, of other slots or of the slot's registers changed: the request stands last
among those outstanding, its counter is one higher, the plot's L1 and the order of its translation cache have its effect, and the slot falls through by `size` bytes,
or stays at its instruction when that is none. -/
def State.issued (s t : State) (size : Option Nat) (srcs : List GReg) (op : Op) (dest : Dest) (oc : BitVec 3) (acq rel : Bool) (ea : Word) (e : Tlb)
    (val cmp : Val) (vec : List W32) : Prop :=
  (∃ r : Req, t.reqs = s.reqs ++ [(s.nextId, r)] ∧ r.plot = s.focus.plot ∧ r.slot = s.focus.slot ∧ r.op = op ∧ r.dest = dest ∧ r.oc = oc ∧
    r.acq = acq ∧ r.rel = rel ∧ r.va = ea ∧ r.pa = e.addr ea ∧ r.unit = s.unitOf s.focus.plot e.host (e.addr ea).toNat ∧ r.val = val ∧ r.cmp = cmp ∧
    (size ≠ none → r.vec = vec) ∧ r.stage = .issued) ∧
  t = { s with slots := t.slots, plots := t.plots, reqs := t.reqs, nextId := s.nextId + 1 } ∧
  (∀ k, k ≠ 8 * s.focus.plot + s.focus.slot → tget Slot.init t.slots k = tget Slot.init s.slots k) ∧
  t.cur = { s.cur with
    cntld := if op.reads then s.cur.cntld + 1 else s.cur.cntld, cntst := if op.reads then s.cur.cntst else s.cur.cntst + 1,
    wait := if size = none then some s.nextId else none,
    pc := if size = none then s.cur.pc else (s.advance (size.getD 0)).cur.pc, loops := if size = none then s.cur.loops else (s.advance (size.getD 0)).cur.loops } ∧
  (∀ p x, x ∈ (t.plotAt p).tlb ↔ x ∈ (s.plotAt p).tlb) ∧
  ((31 : GReg) ∉ srcs → ∀ p, t.plotAt p = { s.plotAt p with l1 := (t.plotAt p).l1, tlb := (t.plotAt p).tlb })

/-- Nothing keeps a vector instruction from issuing now: no register it names is still to be written, none it reads holds an uncorrectable error. -/
def State.mayIssueV (s : State) (vs : List VNum) (gs : List GReg) (d : VNum) : Prop :=
  s.blocked gs [] = false ∧ s.blockedV (d :: vs) = false ∧
  s.badReg (vs.flatMap (fun n => [(2, n.zeroExtend 5), (4, n.zeroExtend 5)]) ++ gs.map fun n => (0, n)) = none
/-- A vector instruction has written `v` to v[d], joined the flags of its lanes to FPSTAT and fallen through; nothing else changed. -/
def State.wroteV (s : State) (gs : List GReg) (d : VNum) (v : VReg) (fl : List (Nat × Flags)) : State :=
  (((s.afterReads gs).vSet d v).modCur fun x => { x with fpstat := x.fpstat ||| (allFlags fl).zeroExtend 64 }).advance 4
/-- The outcome of a vector instruction with result `v` and lane flags `fl`: a trap where an enabled flag is set, else the result written. -/
def State.vecResult (s : State) (gs : List GReg) (d : VNum) (v : VReg) (fl : List (Nat × Flags)) : Host.Outcome State Fault Refusal :=
  match laneTrap s.cur.fpctl fl with
  | some t => .next (s.trapNow t)
  | none => .next (s.wroteV gs d v fl)

/-- A PENNANT instruction may make its request now: none is outstanding, its class-7 accesses are released and its operand is `name`. -/
def State.pnClear (s : State) (d a : GReg) (name : Word) : Prop :=
  tfind s.pnreqs (8 * s.focus.plot + s.focus.slot) = none ∧ s.mayIssue [a] [d] ∧ s.allReleased 7 = true ∧ s.reads [a] = [.ofWord name]
/-- From `s` to `t` the issuing slot wrote g[d] the value and fell through by 4 bytes. -/
def State.answered (s t : State) (d : GReg) (v : Val) : Prop := t.cur.gReg s.focus.plot d = v ∧ t.cur.pc = (s.advance 4).cur.pc
/-- The stream word that the focus names is `w`, the instruction `i` with header `h`, and may start now (R206-R208). -/
def State.wordReady (s : State) (i : Instr) (w : SWord) (h : SwHdr) : Prop :=
  tfind s.words s.focus.word = some w ∧ w.instr = i ∧ wordHdr i = some h ∧ s.canStart s.focus.word w = true
/-- The state in which a word that starts acts: it is running. -/
def State.begun (s : State) (w : SWord) : State := s.setWord s.focus.word { w with stage := .running }
/-- `s1` after a started word took its arc and left its queue. -/
def State.started (s1 : State) (id : Nat) (w : SWord) (h : SwHdr) : State :=
  (if h.await then s1.takeArc w.plot h.arc (8 + id) else s1).modPlot w.plot fun x => { x with queue := x.queue.filter (· != id) }

/-- It is the turn of the command that the focus names, which is `c` and has not begun (R414). -/
def State.cmdTurn (s : State) (c : Cmd) : Prop :=
  tfind s.cmds s.focus.cmd = some c ∧ c.ready = false ∧ c.served = false ∧ s.serving s.focus.cmd = true
/-- The state in which a command that begins acts. -/
def State.cmdBegun (s : State) : State := s.modCmd s.focus.cmd fun c => { c with served := true }

/-- The value that R53 gives code `b` of a float format, from its table of signs, exponents, fractions and biases: none for an infinity or a NaN. -/
def floatValue (f b : Nat) : Option Rat :=
  let shape : Nat × Nat := match f with
    | 1 => (11, 52)
    | 2 => (8, 23)
    | 3 => (8, 7)
    | 4 => (5, 10)
    | 5 => (4, 3)
    | _ => (5, 2)
  let bias : Int := 2 ^ (shape.1 - 1) - 1
  let ex := b / 2 ^ shape.2 % 2 ^ shape.1
  let fr := b % 2 ^ shape.2
  let sign : Rat := if b / 2 ^ (shape.1 + shape.2) % 2 = 1 then -1 else 1
  if ex = 2 ^ shape.1 - 1 ∧ (f ≠ 5 ∨ fr = 7) then none
  else if ex = 0 then some (sign * fr * (2 : Rat) ^ (1 - bias - shape.2))
  else some (sign * (2 ^ shape.2 + fr : Nat) * (2 : Rat) ^ ((ex : Int) - bias - shape.2))
/-- The value of a number that is neither a NaN nor an infinity. -/
def Num.value (x : Num) : Option Rat :=
  match x with
  | .fin n m e => some ((if n then -1 else 1) * (m : Rat) * (2 : Rat) ^ e)
  | _ => none
/-- Code `b` of format `f` is what rounding a real number by a mode gives (R61): `lo x` says that x does not exceed the number, `hi x` that the number
does not exceed x. Toward zero, up and down it is the nearest code on that side; else no code is nearer, and of two as near the even one (mode 0) or the
one away from zero (mode 4). -/
def roundsTo (f mode : Nat) (lo hi : Rat → Prop) (b : Nat) : Prop :=
  ∃ r, floatValue f b = some r ∧ ∀ c x, c < 2 ^ fmtWidth f → floatValue f c = some x →
    let down := lo r ∧ (lo x → x ≤ r)
    let up := hi r ∧ (hi x → r ≤ x)
    let mid := (x + r) / 2
    match mode with
    | 1 => (lo 0 → down) ∧ (hi 0 → up)
    | 2 => up
    | 3 => down
    | _ => (x < r → lo mid) ∧ (r < x → hi mid) ∧ (x ≠ r → lo mid → hi mid → if mode = 0 then b % 2 = 0 else x * x < r * r)

end Sys2Proof.Machine

namespace Sys2Proof

/-- Sources and destination of the instructions whose result an invalid operand makes invalid (R303): INT but SEL, SHIFT/BIT, ADDRESS and the
immediate forms. -/
def Instr.arithRegs : Instr → Option (List GReg × GReg)
  | .add d a b | .sub d a b | .mul d a b | .mulh d a b | .mulhz d a b | .div d a b | .divz d a b | .rem d a b | .remz d a b
  | .and d a b | .or d a b | .xor d a b | .andn d a b | .slt d a b | .sltz d a b | .min d a b | .max d a b | .minz d a b | .maxz d a b
  | .shl d a b | .shr d a b | .sar d a b | .rol d a b | .bext d a b | .lea d a b _ | .idx2 d a b _ | .pack d a b => some ([a, b], d)
  | .addImm d a _ | .mulImm d a _ | .andImm d a _ | .orImm d a _ | .xorImm d a _ | .sltImm d a _ | .sltzImm d a _
  | .leaLong d a _ | .addLong d a _ | .mulLong d a _ | .andLong d a _ | .orLong d a _ | .xorLong d a _ | .sltLong d a _ | .sltzLong d a _
  | .shlImm d a _ | .shrImm d a _ | .sarImm d a _ | .rolImm d a _ | .clz d a | .ctz d a | .popc d a | .brev d a => some ([a], d)
  | .bins d a b => some ([a, b, d], d)
  | _ => none
/-- Sources and destination of every instruction that only reads g registers and writes one (R307-R314). -/
def Instr.regForm : Instr → Option (List GReg × GReg)
  | .sel d a b => some ([a, b, d], d)
  | .lih d _ | .li d _ => some ([], d)
  | .liH d _ => some ([d], d)
  | i => i.arithRegs

end Sys2Proof
end

