-- ==== Sys2Proof/Certificates/Slice0/Obligations.lean ====
section
/-! DEFINITION. The statements for the provers, each with the rules it formalises; OBLIGATIONS.json lists them. -/

section
open Sys2Proof Sys2Proof.Machine

/-- Fifteen words printed in the manual, laid out as bytes in memory (lowest address first), decode to the instruction the manual prints beside them: integer, immediate, shift, address, branch, jump, loop, load, vector, sync, pennant, stream, WAIT and long forms; and the bits of a CPY word, laid out as R40 says, decode to its fields. (R11, R12, R28, R35, R40, R310, R312, R313, R315, R317, R318, R320.) -/
def Obligations.DecodeKnownWords : Prop :=
  decode [0x40, 0x28, 0x64, 0x00] = .ok (.sub 3 4 5, []) ∧
  decode [0xC0, 0x5C, 0x2A, 0x01] = .ok (.sel 9 10 11, []) ∧
  decode [0x64, 0x00, 0xA6, 0x94] = .ok (.sltImm 5 6 100, []) ∧
  decode [0x00, 0x03, 0x80, 0x9C] = .ok (.lih 4 0x300, []) ∧
  decode [0x21, 0x40, 0x64, 0x04] = .ok (.shlImm 3 4 40, []) ∧
  decode [0x42, 0x50, 0x09, 0x09] = .ok (.idx2 8 9 10 2, []) ∧
  decode [0x05, 0x00, 0x64, 0x10] = .ok (.beq 3 4 5, []) ∧
  decode [0x40, 0x00, 0xA0, 0x33] = .ok (.jal 29 64, []) ∧
  decode [0x40, 0x00, 0x00, 0x34] = .ok (.yield, []) ∧
  decode [0x06, 0x00, 0x05, 0x38] = .ok (.loop 5 6, []) ∧
  decode [0x02, 0x06, 0x82, 0x48] = .ok (.ldv 4 2 0 3 2, []) ∧
  decode [0x00, 0x38, 0xA6, 0x70] = .ok (.vadd 5 6 7 0, []) ∧
  decode [0x41, 0x00, 0xA6, 0x68] = .ok (.pnatt 5 6 true, []) ∧
  decode [0x00, 0x01, 0xA6, 0x6C] = .ok (.config 5 6, []) ∧
  decode [0x00, 0xBC, 0x3C, 0xA4] = .ok (.wait 0 15 2 15, []) ∧
  decode [0x00, 0x80, 0x74, 0xFE, 0x78, 0x56, 0x34, 0x12, 0x77] = .ok (.li 9 0x12345678, [0x77]) ∧
  decodeSw (0x08 <<< 120 ||| 1 <<< 106 ||| 1 <<< 104 ||| 9 <<< 96 ||| 64 <<< 75 ||| 0x4000 <<< 56 ||| 0x030062081000) =
    .ok (.cpy ⟨0, 0, false, true, 9⟩ 0x030062081000 0x4000 64 true)

/-- For every instruction that has scalar words and whose fields hold values its encoding admits, decoding its bytes followed by any bytes gives back that instruction, every operand as it was, and leaves the bytes that follow. (R11, R12, R28, R30, R31, R32, R33, R34, R35, R36, R39.) -/
def Obligations.ScalarRoundTrip : Prop :=
  ∀ (i : Instr) (rest : List Byte), i.wf = true → encodeSw i = none → encode i ≠ [] →
    decode (encodeBytes i ++ rest) = .ok (i, rest) ∧ (encodeBytes i).length = i.size

/-- For every stream word whose fields hold values its encoding admits, the 128 bits that the encoder gives decode to that word, every field as it was. (R40, R43, R104, R173, R217, R254.) -/
def Obligations.StreamRoundTrip : Prop :=
  ∀ (i : Instr) (w : BitVec 128), i.wf = true → encodeSw i = some w → decodeSw w = .ok i

/-- Whatever one or two words decode to is a well-formed scalar instruction whose encoding is exactly the words read, and whatever a stream word decodes to is a well-formed word whose encoding is the same 128 bits: no reserved value is accepted and no two words decode to one instruction. (R43, R45, R46, R105, R173, R218, R256.) -/
def Obligations.DecodedWordsAreWellFormed : Prop :=
  (∀ (w : BitVec 32) (i : Instr), decodeWords w none = .ok i → i.wf = true ∧ encode i = [w]) ∧
  (∀ (w v : BitVec 32) (i : Instr), isLong w = true → decodeWords w (some v) = .ok i → i.wf = true ∧ encode i = [w, v]) ∧
  (∀ (w : BitVec 128) (i : Instr), decodeSw w = .ok i → i.wf = true ∧ encodeSw i = some w)

/-- Right after reset nothing is powered up, installed or outstanding and CLOCK is 0. Every slot has FIREWD and BARWD 1,000, the other system registers 0, no firing and an empty loop stack; g0 reads zero; every other g register, every a and v register holds the invalid ABSENT word of its plot; every die has 12 cache ways and zero causal vectors; every partition is disabled. Values the spec does not give are the model's choice: the q registers and the registers of a slot with no firing (log 4), and what a word of memory that nothing has written reads as (log 1). (R22, R80, R112, R131, R132, R359, R389, R396.) -/
def Obligations.ResetState : Prop :=
  State.reset.powered = false ∧ State.reset.halted = false ∧ State.reset.clock = 0 ∧ State.reset.insts = [] ∧ State.reset.reqs = [] ∧
  (∀ p k : Nat, let x := State.reset.slotAt p k
    x.firewd = 1000 ∧ x.barwd = 1000 ∧ x.fpctl = 0 ∧ x.fpstat = 0 ∧ x.tcause = 0 ∧ x.tvec = 0 ∧ x.tepc = 0 ∧ x.mqdst = 0 ∧
    x.priocur = 0 ∧ x.cntld = 0 ∧ x.cntst = 0 ∧ x.cntcp = 0 ∧ x.cnttl = 0 ∧ x.firing = false ∧ x.held = false ∧ x.loops = [] ∧
    x.gReg p 0 = Val.zero ∧ (∀ n, n ≠ 0 → n ≠ 30 → x.gReg p n = absentVal p) ∧ (∀ n, x.aReg p n = absentVal p) ∧ (∀ n, x.vReg p n = absentVec p)) ∧
  (∀ d, (State.reset.dieAt d).cways = 12 ∧ (∀ j, vecAt (State.reset.causalAt d).dv j = 0 ∧ State.reset.cvOf d j = 0)) ∧
  (∀ n, (tget partitionInit State.reset.partitions n).en = false) ∧
  (∀ a, a % 4 = 0 → State.reset.mem.word a = freshWord a)

/-- The memory of the reset state is in the canonical form that StepKeepsMemoryCanonical says every step keeps. (R69, R157.) -/
def Obligations.ResetMemoryCanonical : Prop :=
  Memory.wf State.reset.mem = true

/-- In every state whose memory is canonical (bytes listed by strictly rising address, none equal to what an unlisted address reads as; words of other validity and full granules listed by rising number), a step that has a next state leaves the memory canonical. (R69, R157, R183.) -/
def Obligations.StepKeepsMemoryCanonical : Prop :=
  ∀ s t : State, Memory.wf s.mem = true → step s = .next t → Memory.wf t.mem = true

/-- In every state every constructor answers a next state: nothing faults or is refused. A step stops only after the critical trip, when the module has halted. (R45, R305, R386, R430.) -/
def Obligations.EveryInstructionAnswers : Prop :=
  (∀ (i : Instr) (s : State), ∃ t, exec i s = .next t) ∧
  (∀ s : State, s.halted = false → ∃ t, step s = .next t) ∧
  (∀ s : State, s.halted = true → step s = .fault .moduleHalted)

/-- When the issue of a slot is listed next that could issue, has its turn under R358 and no pending trap, and its fetch gives words that decode to i, the step is exec of i in the state of the fetch, and a clk passes in which the other slots of the plot that could have issued were passed over once more. Words that decode to nothing raise ILLEGAL or RESERVED_FIELD instead. A slot that could not issue, or whose turn it is not, only lets the clk pass. The fetch of a word gives the word that memory holds at the translated address when the address translates, may be executed, is not a host page, its word is not yet in the instruction cache and its home may serve the read (R116). When a stream word or a command is listed next, the step is exec of its instruction with that word or command in focus; when an event is listed, the step is exec of the event, with the port that brings it where it is a message; a listed pause lets time pass. That a schedule lists what happens next (log 2), that a listed issue which cannot be only lets the clk pass (log 12), and what counts as a slot that could have issued (log 110) are the model's choices. (R45, R87, R116, R206, R358, R375, R387, R392.) -/
def Obligations.StepRunsDecodedInstruction : Prop :=
  (∀ (s s1 t : State) (p k : Nat) (rest : List Sched) (w0 : BitVec 32) (w1 : Option (BitVec 32)) (i : Instr),
    s.halted = false → s.sched = .issue p k :: rest →
    let s0 : State := { s with sched := rest }
    s0.couldIssue p k = true → s0.issueTurn p k = true → (s0.slotAt p k).nextPend = none → (s0.atSlot p k).fetchInstr p k = .words w0 w1 s1 →
    (decodeWords w0 w1 = .ok i → exec i s1 = .next t → step s = .next (t.passOver p k (s0.rivals p k))) ∧
    (∀ b, decodeWords w0 w1 = .error (.illegal b) →
      step s = .next ((s1.trapNow ⟨0x01, w0.zeroExtend 64, b.zeroExtend 64⟩).passOver p k (s0.rivals p k))) ∧
    (∀ b, decodeWords w0 w1 = .error (.reserved b) →
      step s = .next ((s1.trapNow ⟨0x02, w0.zeroExtend 64, b.zeroExtend 64⟩).passOver p k (s0.rivals p k)))) ∧
  (∀ (s : State) (p k : Nat), (s.couldIssue p k = true → s.canIssue p k = true) ∧
    (∀ t, s.canIssue p k = true → (s.slotAt p k).nextPend = none → runInstr p k (s.atSlot p k) = .next t →
      (s.couldIssue p k = true ↔ t ≠ s.atSlot p k))) ∧
  (∀ (s : State) (p k : Nat) (rest : List Sched), s.halted = false → s.sched = .issue p k :: rest →
    State.couldIssue { s with sched := rest } p k = false ∨ State.issueTurn { s with sched := rest } p k = false →
    step s = .next { s with sched := rest, clock := s.clock + 1 }) ∧
  (∀ (s : State) (p k : Nat) (l : List Nat), l.Nodup → k ∉ l → k < 8 → (∀ j ∈ l, j < 8) → let t := s.passOver p k l
    t = { s with slots := t.slots, clock := s.clock + 1 } ∧ t.slotAt p k = { s.slotAt p k with waited := 0, resumed := none } ∧
    (∀ j ∈ l, t.slotAt p j = { s.slotAt p j with waited := (s.slotAt p j).waited + 1 }) ∧
    (∀ n, n ≠ 8 * p + k → (∀ j ∈ l, n ≠ 8 * p + j) → tget Slot.init t.slots n = tget Slot.init s.slots n)) ∧
  (∀ (s : State) (p k : Nat) (va : Word) (e : Tlb), canonical va = true → s.lookup p va = some e → e.permits 2 = true → e.host = false →
    (e.addr va).toNat % 4 = 0 → s.targetTrap .read false (e.addr va).toNat va = none → tfind (s.plotAt p).icache ((e.addr va).toNat / 4) = none →
    (s.readWord p (e.addr va).toNat).valid = true → s.mayFetch p (e.addr va).toNat = true →
    s.fetchWord p k va = .word (s.readWord p (e.addr va).toNat).bits (s.fillIcache p k (e.addr va).toNat)) ∧
  (∀ (s : State) (rest : List Sched), s.halted = false →
    (∀ (id : Nat) (w : SWord), s.sched = .word id :: rest → tfind s.words id = some w →
      step s = exec w.instr { s with sched := rest, focus := { s.focus with word := id } }) ∧
    (∀ (id : Nat) (c : Cmd) (i : Instr), s.sched = .command id :: rest → tfind s.cmds id = some c → c.instr = some i →
      step s = exec i { s with sched := rest, focus := { s.focus with cmd := id } }) ∧
    (∀ i : Instr, s.sched = .event i :: rest → isEvent i = true → step s = exec i { s with sched := rest }) ∧
    (∀ (port : BitVec 2) (i : Instr), s.sched = .message port i :: rest → isEvent i = true →
      step s = exec i { s with sched := rest, focus := { s.focus with port := port } }) ∧
    (∀ n : Nat, s.sched = .advance n :: rest → step s = .next { s with sched := rest, clock := s.clock + n }))

/-- A WLD whose lines all have a beat, in a region that does not stall, latches them: column or row first + n of its register takes the beat of each line, and no other register value changes. A WSTR sends its next register value through the drain port of its line. A token takes a beat of every line when all are there and it has room, and holds their results; the results of a line come from its cells in logical order, each adding to the partial sum: for INT8 and ZINT8 the exact sum of the 32 products, saturated to 32 bits with the SAT status, a MASKED element contributing nothing, the first other invalid one giving its payload, and an invalid partial sum passing. The oldest wave is written to its entry, or under acc added to it, when no earlier DRN is still to read that entry, and no other entry changes. A DRN sends its next outputs in one beat through the port of their line when no earlier token is still to write them; an output that raises an enabled trap holds it. An invalid entry or gate word passes its payload; an INT32 entry keeps its value, is zero under relu when negative, and is shifted, truncated and saturated into INT8. That a wave moves in one step is the model's choice (log 43), as is the order of invalid operands (log 41). (R66, R68, R73, R74, R259, R260, R264, R266, R267, R270, R271, R272.) -/
def Obligations.MatrixMoves : Prop :=
  (∀ (s : State) (k : Nat) (r : Region) (x : MWord) (h : SwHdr) (row xv : Bool) (w : BitVec 3) (first n1 lines1 : BitVec 7) (xid : BitVec 6) (keys : List Nat),
    tfind s.regions k = some r → x.instr = .wld h row w first n1 lines1 xid xv → r.lineKeys (if row then 0 else 1) (lines1.toNat + 1) = some keys →
    first.toNat + x.next < 128 →
    let pos := first.toNat + x.next
    (s.beatsReady keys = false ∨ s.stalled r x = true → s.wldMove k r x = none) ∧
    (s.beatsReady keys = true → s.stalled r x = false → ∃ t q, s.wldMove k r x = some t ∧ tfind t.regions k = some q ∧ t.mem = s.mem ∧
      (∀ l b, (s.takeBeats keys).1[l]? = some b → (if row then q.weight w.toNat l pos else q.weight w.toNat pos l) = b) ∧
      (∀ u l c, u ≠ w.toNat ∨ (if row then c else l) ≠ pos → u < 8 → c < 128 → q.weight u l c = r.weight u l c))) ∧
  (∀ (s : State) (k : Nat) (r : Region) (x : MWord) (h : SwHdr) (row : Bool) (w : BitVec 3) (first n1 lines1 : BitVec 7) (m : PortMap),
    x.instr = .wstr h row w first n1 lines1 →
    let lines := lines1.toNat + 1
    let l := x.next % lines
    let pos := first.toNat + x.next / lines
    r.lineMap (if row then 3 else 2) l = some m →
    (s.drainReady (r.mapKey m) = false ∨ s.stalled r x = true → s.wstrMove k r x = none) ∧
    (s.drainReady (r.mapKey m) = true → s.stalled r x = false → ∃ t, s.wstrMove k r x = some t ∧ t.mem = s.mem ∧
      t.ports = (s.drainPush (r.mapKey m) (if row then r.weight w.toNat l pos else r.weight w.toNat pos l)).ports)) ∧
  (∀ (s : State) (key : Nat) (b : Beat) (m : PortMap), s.portMap key = some m → m.conn = 1 →
    ((s.drainPush key b).portAt key).buf = (if (s.portAt key).closed then (s.portAt key).buf else (s.portAt key).buf ++ [b])) ∧
  (∀ (s : State) (k : Nat) (r : Region) (x : MWord) (h : SwHdr) (mode : BitVec 2) (acc : Bool) (w : BitVec 3) (e0 m1 : BitVec 6) (kr1 nl1 : BitVec 7)
      (woff : BitVec 18) (gtag : BitVec 16) (keys : List Nat),
    tfind s.regions k = some r → x ∈ r.mq → x.instr = .mtok h mode acc w e0 m1 kr1 woff nl1 gtag → r.tokenKeys x.instr = some keys →
    let side := if mode = 1 then 1 else 0
    let lines := if mode = 1 then kr1.toNat + 1 else nl1.toNat + 1
    let e := e0.toNat + x.next
    (∀ q rest, x.flight = q :: rest → r.writeHeld x = false → q.length = lines → (∀ l, l < lines → entriesOk (r.bTag side l) e 1 = true) →
      ∃ t z, s.mtokMove k r x = some t ∧ tfind t.regions k = some z ∧ t.mem = s.mem ∧ { x with next := x.next + 1, flight := rest } ∈ z.mq ∧
        (∀ l v, q[l]? = some v →
          let out := if acc then (accumulate (tagFmt (r.bTag side l)) (r.entry side l e) v.1).1 else v.1
          (∀ n, out = .ok n → n < 2 ^ (if wideTag (r.bTag side l) then 64 else 32) → z.entry side l e = .ok n) ∧
          (∀ p, out = .bad p → z.entry side l e = .bad (normPayload p))) ∧
        (∀ l f, l < 128 → entriesOk (r.bTag side l) f 1 = true → f ≠ e ∨ lines ≤ l → z.entry side l f = r.entry side l f)) ∧
    (x.flight = [] ∨ r.writeHeld x = true → tokenTaken x = false → x.flight.length < r.waveRoom x → s.beatsReady keys = true → s.stalled r x = false →
      (mode = 0 → s.roomFor ((r.passKeys (kr1.toNat + 1)).map (·.2)) = true) → (mode = 2 → s.spadReady x.plot = true) →
      ∃ t z, s.mtokMove k r x = some t ∧ tfind t.regions k = some z ∧ t.mem = s.mem ∧ z.bank = r.bank ∧ z.wreg = r.wreg ∧
        { x with flight := x.flight ++ [s.waveResults r x (x.next + x.flight.length) (s.takeBeats keys).1] } ∈ z.mq) ∧
    (∀ (j af : Nat) (beats : List Beat), accFmt (tagFmt x.afmt) (tagFmt x.bfmt) = some af →
      let res := s.waveResults r x j beats
      (mode = 0 → res = (List.range lines).map fun l => r.columnSum af (tagFmt x.afmt) (tagFmt x.bfmt) w.toNat l ((List.range (kr1.toNat + 1)).zip beats)) ∧
      (mode = 1 → res = (List.range lines).map fun l => r.rowSum af (tagFmt x.afmt) (tagFmt x.bfmt) w.toNat l ((List.range (nl1.toNat + 1)).zip beats)))) ∧
  (∀ (r : Region) (acc fa fb w row col : Nat) (bs : List (Nat × Beat)) (b : Beat),
    r.columnSum acc fa fb w col [] = (.ok 0, 0) ∧ r.rowSum acc fa fb w row [] = (.ok 0, 0) ∧
    (let q := r.columnSum acc fa fb w col bs
      let z := cellStep acc fa fb (r.cellPlot row col) q.1 b (r.weight w row col)
      r.columnSum acc fa fb w col (bs ++ [(row, b)]) = (z.1, q.2 ||| z.2)) ∧
    (let q := r.rowSum acc fa fb w row bs
      let z := cellStep acc fa fb (r.cellPlot row col) q.1 b (r.weight w row col)
      r.rowSum acc fa fb w row (bs ++ [(col, b)]) = (z.1, q.2 ||| z.2))) ∧
  (∀ (plot fa fb p n : Nat) (q : BitVec 32) (a b : Beat) (z : Nat → Int), (fa = 7 ∨ fa = 12) → (fb = 7 ∨ fb = 12) → p < 2 ^ 32 → n ≤ 32 →
    (∀ i, i < n → (∃ x y, cellLane plot fa a i = .ok x ∧ cellLane plot fb b i = .ok y ∧ z i = intValue fa x * intValue fb y) ∨
      (z i = 0 ∧ ∃ m, firstBad [cellLane plot fa a i, cellLane plot fb b i] = some m ∧ m &&& 0xFF = 0)) →
    cellStep 9 fa fb plot (.bad q) a b = (.bad q, 0) ∧
    (∀ m, n < 32 → firstBad [cellLane plot fa a n, cellLane plot fb b n] = some m → m &&& 0xFF ≠ 0 → cellStep 9 fa fb plot (.ok p) a b = (.bad m, 0)) ∧
    (n = 32 → let v := fromTwos 32 p + ((List.range 32).map z).sum
      cellStep 9 fa fb plot (.ok p) a b = (if 2 ^ 31 ≤ v then (.ok 0x7FFFFFFF, 4) else if v < -2 ^ 31 then (.ok 0x80000000, 4) else (.ok (v % 2 ^ 32).toNat, 0)))) ∧
  (∀ (s : State) (k : Nat) (r : Region) (earlier : List MWord) (x : MWord) (h : SwHdr) (east relu te clr gate rows : Bool) (e0 n1 : BitVec 6) (sh : BitVec 5)
      (rm : BitVec 3) (lines1 : BitVec 7) (goff : BitVec 19) (m : PortMap),
    tfind s.regions k = some r → x.instr = .drn h east e0 n1 sh relu rm te clr lines1 goff gate rows →
    let side := if east then 1 else 0
    let o := drnOutputs x x.next
    r.lineMap (side + 2) o.1 = some m →
    let key := r.mapKey m
    let f := tagFmt x.afmt
    let sent := (s.portAt key).drained
    let outs := o.2.zipIdx.map fun p => drnOutput (r.bTag side p.1.1) x.afmt (r.entry side p.1.1 p.1.2) (x.gates[p.1.1]?) sh.toInt relu x.bfmt.toNat
      (payloadBits 1 x.plot ((elemsOfWords f sent + 1 + p.2) % 2048))
    let traps (q : Lane × Flags × Flags) : Bool := q.2.1 &&& (fInvalid ||| fOverflow ||| fSat) != 0
    (x.hold = true ∨ s.drainReady key = false ∨ (∃ p ∈ o.2, ∃ y ∈ earlier, tokHolds y side p.1 p.2 = true) → s.drnMove k r earlier x = none) ∧
    (x.hold = false → s.drainReady key = true → (∀ p ∈ o.2, ∀ y ∈ earlier, tokHolds y side p.1 p.2 = false) →
      ((te = false ∨ outs.any traps = false) → ∃ t, s.drnMove k r earlier x = some t ∧ t.mem = s.mem ∧
        t.ports = (s.drainPush key (beatOf (drnWords f x.plot sent (outs.map (·.1))))).ports) ∧
      (te = true → outs.any traps = true → x ∈ r.mq → ∃ t z y, s.drnMove k r earlier x = some t ∧ tfind t.regions k = some z ∧ t.mem = s.mem ∧
        z.status.getLsbD 3 = true ∧ y ∈ z.mq ∧ y = { x with next := x.next + 1, hold := true }))) ∧
  (∀ (bank out : BitVec 16) (p : BitVec 32) (v : Nat) (g : W32) (sh : Int) (relu : Bool) (mode : Nat) (bad : BitVec 32),
    (∀ gate, drnOutput bank out (.bad p) gate sh relu mode bad = (.bad p, 0, 0)) ∧
    (g.valid = false → drnOutput bank out (.ok v) (some g) sh relu mode bad = (.bad (normPayload g.bits), 0, 0)) ∧
    (v < 2 ^ 32 → drnOutput 9 9 (.ok v) none 0 relu mode bad = (.ok (if relu ∧ 2 ^ 31 ≤ v then 0 else v), 0, 0) ∧
      ∀ n : Nat, let q := (fromTwos 32 v).tdiv (2 ^ n)
        (drnOutput 9 7 (.ok v) none n false 1 bad).1 = .ok (((max (-128) (min 127 q)) % 256).toNat)))

/-- A byte written reads back as written and every other byte reads as before, with the validity and full/empty bits untouched. A 32-bit word written on a word boundary reads back with its bits and validity, and every other word, and every full/empty bit, reads as before. A granule bit set or cleared reads back so and changes no other granule and no word. (R11, R69, R157.) -/
def Obligations.MemoryReadAfterWrite : Prop :=
  (∀ (m : Memory) (a c : Nat) (b : Byte), (m.setByte a b).byte c = (if c = a then b else m.byte c) ∧
    (m.setByte a b).odd = m.odd ∧ (m.setByte a b).full = m.full) ∧
  (∀ (m : Memory) (a c : Nat) (w : W32), a % 4 = 0 → c % 4 = 0 →
    (m.setWord a w).word c = (if c = a then w else m.word c) ∧ (m.setWord a w).full = m.full) ∧
  (∀ (m : Memory) (a c : Nat) (f : Bool), (m.setFe a f).fe c = (if c / 16 = a / 16 then f else m.fe c) ∧ (m.setFe a f).word c = m.word c)

/-- A write of g0 or of g31 changes nothing. A write of any other register but g30 is read back, leaves every other g register of the slot as it was, and changes nothing outside the slot. A write of g30 sends the value as a flit and writes no register. g0 and g30 read as a valid zero; reads take g31 from the FIFO in order, each taking the next flit. (R22, R23, R24, R304.) -/
def Obligations.RegisterAccess : Prop :=
  (∀ (s : State) (d : GReg) (v : Val), d = 0 ∨ d = 31 → s.writeG d v = .ok s) ∧
  (∀ (s : State) (d : GReg) (v : Val), d ≠ 0 → d ≠ 30 → d ≠ 31 → ∃ t, s.writeG d v = .ok t ∧ t = { s with slots := t.slots } ∧
    t.cur.gReg s.focus.plot d = v ∧ (∀ n, n ≠ d → t.cur.gReg s.focus.plot n = s.cur.gReg s.focus.plot n) ∧
    (∀ k, k ≠ 8 * s.focus.plot + s.focus.slot → tget Slot.init t.slots k = tget Slot.init s.slots k)) ∧
  (∀ (s : State) (v : Val), s.writeG 30 v = s.sendFlit v) ∧
  (∀ (x : Slot) (p : Nat), x.gReg p 0 = Val.zero ∧ x.gReg p 30 = Val.zero) ∧
  (∀ (s : State) (a b : GReg), a ≠ 31 → b ≠ 31 → s.reads [a, b] = [s.cur.gReg s.focus.plot a, s.cur.gReg s.focus.plot b]) ∧
  (∀ (s : State) (f g : Flit) (rest : List Flit) (a : GReg), a ≠ 31 → s.flits s.focus.plot s.focus.slot = f :: g :: rest →
    s.reads [31, a] = [f.val, s.cur.gReg s.focus.plot a] ∧ s.reads [a, 31] = [s.cur.gReg s.focus.plot a, f.val] ∧ s.reads [31, 31] = [f.val, g.val])

/-- With both operands valid and nothing to wait for, each two-operand integer instruction writes g[d] the value its table row gives, modulo 2^64, and falls through; DIV, DIVZ, REM and REMZ do so for a divisor other than zero, DIV truncating toward zero with -2^63 by -1 giving -2^63. SEL writes its first source if the old g[d] is not zero, else its second. For DIV, DIVZ, REM and REMZ a divisor that is valid and zero raises INT_DIVZERO with TVAL the dividend when the dividend is valid, and nothing else changes; an invalid dividend takes precedence and gives an invalid result. A write of g30 sends the flit and a write of g0 or g31 is discarded, as writeG says (RegisterAccess). (R304, R305, R307, R308, R391.) -/
def Obligations.IntegerResults : Prop :=
  (∀ (s t : State) (d a b : GReg) (x y : Word), s.mayIssue [a, b] [d] → s.reads [a, b] = [.ofWord x, .ofWord y] →
    (∀ e ∈ ([(.add d a b, x + y), (.sub d a b, x - y), (.mul d a b, x * y),
        (.mulh d a b, (x.signExtend 128 * y.signExtend 128).extractLsb' 64 64),
        (.mulhz d a b, (x.zeroExtend 128 * y.zeroExtend 128).extractLsb' 64 64),
        (.and d a b, x &&& y), (.or d a b, x ||| y), (.xor d a b, x ^^^ y), (.andn d a b, x &&& ~~~y),
        (.slt d a b, if x.slt y then 1 else 0), (.sltz d a b, if x < y then 1 else 0),
        (.min d a b, if x.slt y then x else y), (.max d a b, if x.slt y then y else x),
        (.minz d a b, if x < y then x else y), (.maxz d a b, if x < y then y else x)] : List (Instr × Word)),
      (s.afterReads [a, b]).writeG d (.ofWord e.2) = .ok t → exec e.1 s = .next (t.advance 4)) ∧
    (y ≠ 0 → ∀ e ∈ ([(.div d a b, x.sdiv y), (.divz d a b, x / y), (.rem d a b, x.srem y), (.remz d a b, x % y)] : List (Instr × Word)),
      (s.afterReads [a, b]).writeG d (.ofWord e.2) = .ok t → exec e.1 s = .next (t.advance 4))) ∧
  (∀ (s t : State) (d a b : GReg) (x y c : Word), s.mayIssue [a, b, d] [d] → s.reads [a, b, d] = [.ofWord x, .ofWord y, .ofWord c] →
    (s.afterReads [a, b, d]).writeG d (.ofWord (if c = 0 then y else x)) = .ok t → exec (.sel d a b) s = .next (t.advance 4)) ∧
  (∀ (s : State) (d a b : GReg), s.mayIssue [a, b] [d] → ∀ i ∈ [Instr.div d a b, .divz d a b, .rem d a b, .remz d a b],
    (∀ x : Word, s.reads [a, b] = [.ofWord x, .ofWord 0] → exec i s = .next (s.trapNow ⟨0x14, x, 0⟩)) ∧
    (∀ (v : Val) (t : State), v.valid = false → s.reads [a, b] = [v, .ofWord 0] → (s.afterReads [a, b]).writeG d ⟨false, payloadOf v⟩ = .ok t →
      exec i s = .next (t.advance 4)))

/-- The 16-bit and 32-bit immediate forms of ADD, MUL, AND, OR, XOR, SLT and SLTZ compute with the immediate sign-extended to 64 bits, SLTZ comparing it as unsigned; the 16-bit forms fall through by 4 bytes and the 32-bit forms by 8. (R37.) -/
def Obligations.ImmediateResults : Prop :=
  (∀ (s t : State) (d a : GReg) (x : Word) (n : BitVec 16), s.mayIssue [a] [d] → s.reads [a] = [.ofWord x] →
    let y : Word := n.signExtend 64
    ∀ e ∈ ([(.addImm d a n, x + y), (.mulImm d a n, x * y), (.andImm d a n, x &&& y), (.orImm d a n, x ||| y), (.xorImm d a n, x ^^^ y),
        (.sltImm d a n, if x.slt y then 1 else 0), (.sltzImm d a n, if x < y then 1 else 0)] : List (Instr × Word)),
      (s.afterReads [a]).writeG d (.ofWord e.2) = .ok t → exec e.1 s = .next (t.advance 4)) ∧
  (∀ (s t : State) (d a : GReg) (x : Word) (n : BitVec 32), s.mayIssue [a] [d] → s.reads [a] = [.ofWord x] →
    let y : Word := n.signExtend 64
    ∀ e ∈ ([(.addLong d a n, x + y), (.mulLong d a n, x * y), (.andLong d a n, x &&& y), (.orLong d a n, x ||| y), (.xorLong d a n, x ^^^ y),
        (.sltLong d a n, if x.slt y then 1 else 0), (.sltzLong d a n, if x < y then 1 else 0)] : List (Instr × Word)),
      (s.afterReads [a]).writeG d (.ofWord e.2) = .ok t → exec e.1 s = .next (t.advance 8))

/-- LIH writes the 16-bit immediate shifted left by 16 and sign-extended; LI the sign-extended 32-bit immediate; LI.H replaces bits 63:32 of a valid g[d] and leaves an invalid one as it is; the long form of LEA adds the sign-extended immediate. (R36, R310, R313.) -/
def Obligations.LoadImmediateResults : Prop :=
  (∀ (s t : State) (d : GReg) (n : BitVec 16), s.mayIssue [] [d] →
    s.writeG d (.ofWord ((n.signExtend 64) <<< 16)) = .ok t → exec (.lih d n) s = .next (t.advance 4)) ∧
  (∀ (s t : State) (d : GReg) (n : BitVec 32), s.mayIssue [] [d] →
    s.writeG d (.ofWord (n.signExtend 64)) = .ok t → exec (.li d n) s = .next (t.advance 8)) ∧
  (∀ (s t : State) (d : GReg) (v : Val) (n : BitVec 32), s.mayIssue [d] [d] → s.reads [d] = [v] →
    (s.afterReads [d]).writeG d (if v.valid then .ofWord (n ++ v.bits.extractLsb' 0 32) else v) = .ok t →
    exec (.liH d n) s = .next (t.advance 8)) ∧
  (∀ (s t : State) (d a : GReg) (x : Word) (n : BitVec 32), s.mayIssue [a] [d] → s.reads [a] = [.ofWord x] →
    (s.afterReads [a]).writeG d (.ofWord (x + n.signExtend 64)) = .ok t → exec (.leaLong d a n) s = .next (t.advance 8))

/-- Shifts by a register take all 64 bits of it: SHL and SHR give 0 and SAR copies of the sign bit from 64 on, ROL rotates modulo 64; the immediate forms shift by 0 to 63. CLZ and CTZ give the number k such that the k highest (lowest) bits are 0 and the next, if any, is 1; POPC counts the one bits; BREV moves bit k to bit 63 - k. (R32, R304, R311.) -/
def Obligations.ShiftAndBitResults : Prop :=
  (∀ (s t : State) (d a b : GReg) (x y : Word), s.mayIssue [a, b] [d] → s.reads [a, b] = [.ofWord x, .ofWord y] →
    ∀ e ∈ ([(.shl d a b, x <<< y.toNat), (.shr d a b, x >>> y.toNat), (.sar d a b, x.sshiftRight y.toNat), (.rol d a b, x.rotateLeft y.toNat)] : List (Instr × Word)),
      (s.afterReads [a, b]).writeG d (.ofWord e.2) = .ok t → exec e.1 s = .next (t.advance 4)) ∧
  (∀ (s t : State) (d a : GReg) (x : Word) (n : BitVec 6), s.mayIssue [a] [d] → s.reads [a] = [.ofWord x] →
    ∀ e ∈ ([(.shlImm d a n, x <<< n.toNat), (.shrImm d a n, x >>> n.toNat), (.sarImm d a n, x.sshiftRight n.toNat), (.rolImm d a n, x.rotateLeft n.toNat)] : List (Instr × Word)),
      (s.afterReads [a]).writeG d (.ofWord e.2) = .ok t → exec e.1 s = .next (t.advance 4)) ∧
  (∀ (s t : State) (d a : GReg) (x r : Word), s.mayIssue [a] [d] → s.reads [a] = [.ofWord x] → (s.afterReads [a]).writeG d (.ofWord r) = .ok t →
    ((r.toNat ≤ 64 ∧ (∀ j, 64 - r.toNat ≤ j → x.getLsbD j = false) ∧ (r.toNat < 64 → x.getLsbD (63 - r.toNat) = true)) →
      exec (.clz d a) s = .next (t.advance 4)) ∧
    ((r.toNat ≤ 64 ∧ (∀ j, j < r.toNat → x.getLsbD j = false) ∧ (r.toNat < 64 → x.getLsbD r.toNat = true)) →
      exec (.ctz d a) s = .next (t.advance 4)) ∧
    (r.toNat = ((List.range 64).filter x.getLsbD).length → exec (.popc d a) s = .next (t.advance 4)) ∧
    ((∀ k, k < 64 → r.getLsbD (63 - k) = x.getLsbD k) → exec (.brev d a) s = .next (t.advance 4)))

/-- BEXT and BINS read the field position p = g[b][5:0] and the length n = min(g[b][14:8], 64) and ignore every other bit of g[b]. Bit j of the BEXT result is bit j + p of g[a] when j < n and j + p < 64, else 0. Bit j of the BINS result is bit j - p of g[a] when p <= j < p + n, else bit j of the old g[d]; with n = 0 BINS leaves g[d] as it was. (R312.) -/
def Obligations.FieldInstructions : Prop :=
  (∀ (s t : State) (d a b : GReg) (x y r : Word), s.mayIssue [a, b] [d] → s.reads [a, b] = [.ofWord x, .ofWord y] →
    (∀ j, j < 64 → r.getLsbD j = (decide (j < min (y.extractLsb' 8 7).toNat 64) && x.getLsbD (j + (y.extractLsb' 0 6).toNat))) →
    (s.afterReads [a, b]).writeG d (.ofWord r) = .ok t → exec (.bext d a b) s = .next (t.advance 4)) ∧
  (∀ (s t : State) (d a b : GReg) (x y z r : Word), s.mayIssue [a, b, d] [d] → s.reads [a, b, d] = [.ofWord x, .ofWord y, .ofWord z] →
    (let p := (y.extractLsb' 0 6).toNat
     let n := min (y.extractLsb' 8 7).toNat 64
     ∀ j, j < 64 → r.getLsbD j = (if p ≤ j ∧ j < p + n then x.getLsbD (j - p) else z.getLsbD j)) →
    (s.afterReads [a, b, d]).writeG d (.ofWord r) = .ok t → exec (.bins d a b) s = .next (t.advance 4)) ∧
  (∀ (s : State) (d a b : GReg) (vs : List Val) (v : Val), s.mayIssue [a, b, d] [d] → s.reads [a, b, d] = vs →
    vs.find? (fun v => !v.valid) = some v → ∀ t, (s.afterReads [a, b, d]).writeG d ⟨false, payloadOf v⟩ = .ok t →
    exec (.bins d a b) s = .next (t.advance 4))

/-- LEA adds the scaled second operand; PACK joins the low halves. IDX2 takes row and column from the first operand and pitch and row count from the second: it writes (row * pitch + column) * 2^s modulo 2^64, or, when the row is not below the row count or the column not below the pitch, the invalid INDEX_RANGE value of its plot; it raises no fault. (R304, R313, R314.) -/
def Obligations.AddressResults : Prop :=
  ∀ (s t : State) (d a b : GReg) (x y : Word) (k : BitVec 3), s.mayIssue [a, b] [d] → s.reads [a, b] = [.ofWord x, .ofWord y] →
    ((s.afterReads [a, b]).writeG d (.ofWord (x + y <<< k.toNat)) = .ok t → exec (.lea d a b k) s = .next (t.advance 4)) ∧
    ((s.afterReads [a, b]).writeG d (.ofWord (y.extractLsb' 0 32 ++ x.extractLsb' 0 32)) = .ok t → exec (.pack d a b) s = .next (t.advance 4)) ∧
    (x.extractLsb' 0 32 < y.extractLsb' 32 32 → x.extractLsb' 32 32 < y.extractLsb' 0 32 →
      (s.afterReads [a, b]).writeG d (.ofWord
        (((x.extractLsb' 0 32).zeroExtend 64 * (y.extractLsb' 0 32).zeroExtend 64 + (x.extractLsb' 32 32).zeroExtend 64) <<< k.toNat)) = .ok t →
      exec (.idx2 d a b k) s = .next (t.advance 4)) ∧
    (y.extractLsb' 32 32 ≤ x.extractLsb' 0 32 ∨ y.extractLsb' 0 32 ≤ x.extractLsb' 32 32 →
      (s.afterReads [a, b]).writeG d ⟨false, (payloadBits 0x04 s.focus.plot 0).zeroExtend 64⟩ = .ok t →
      exec (.idx2 d a b k) s = .next (t.advance 4))

/-- INT (but SEL), SHIFT/BIT and ADDRESS instructions and the immediate forms never fault on an invalid operand: g[d] becomes invalid and carries the payload of the first invalid operand in the order a, b, then d where it is read. SEL carries the payload of an invalid condition, else takes the selected source with its validity. (R181, R303, R308.) -/
def Obligations.InvalidOperandPropagates : Prop :=
  (∀ (s t : State) (i : Instr) (srcs : List GReg) (d : GReg) (v : Val), i.arithRegs = some (srcs, d) → s.mayIssue srcs [d] →
    (s.reads srcs).find? (fun x => !x.valid) = some v → (s.afterReads srcs).writeG d ⟨false, payloadOf v⟩ = .ok t →
    exec i s = .next (t.advance i.size)) ∧
  (∀ (s t : State) (d a b : GReg) (x y c : Val), s.mayIssue [a, b, d] [d] → s.reads [a, b, d] = [x, y, c] →
    let v := if c.valid then (if c.bits = 0 then y else x) else c
    (s.afterReads [a, b, d]).writeG d (if v.valid then v else ⟨false, payloadOf v⟩) = .ok t → exec (.sel d a b) s = .next (t.advance 4))

/-- Every code of a float format has the value that R53 gives its sign, exponent and fraction; its infinities and NaNs are those codes without one, and a NaN signals where R54 says; the largest finite code, infinity and canonical NaN are those of its table. Sum, product, negation and scaling of finite numbers are exact. A finite number rounded in a mode gives the code that R61 names, inexact exactly when its value differs; out of range it gives an infinity, the NaN of E4M3, or the largest code as R64 says, with overflow or, under the sat bit, sat, and only a number beyond every finite code is out of range. A quotient, a square root and a reciprocal square root that are not out of range are rounded once from the exact real value in the same sense; a non-zero number by zero is an infinity with divzero, zero by zero and the root of a negative number are the canonical NaN with invalid. 2^n for an integer n and log2 of a power of two are those numbers rounded. (R53, R54, R61, R62, R63, R64, R289.) -/
def Obligations.FloatArithmetic : Prop :=
  (∀ e ∈ [(1, 0x7FEFFFFFFFFFFFFF, 0x7FF0000000000000, 0x7FF8000000000000), (2, 0x7F7FFFFF, 0x7F800000, 0x7FC00000), (3, 0x7F7F, 0x7F80, 0x7FC0),
      (4, 0x7BFF, 0x7C00, 0x7E00), (6, 0x7B, 0x7C, 0x7E), (5, 0x7E, 0x7F, 0x7F)], maxBits e.1 = e.2.1 ∧ infBits e.1 false = e.2.2.1 ∧ canonNaN e.1 = e.2.2.2) ∧
  (∀ f b : Nat, 1 ≤ f → f ≤ 6 → b < 2 ^ fmtWidth f → (decodeFloat f b).value = floatValue f b ∧
    (floatValue f b = none → decodeFloat f b = (if f ≠ 5 ∧ b % 2 ^ fracBits f = 0 then .inf (decide (b / 2 ^ (fmtWidth f - 1) = 1))
      else .nan (decide (f ≠ 5 ∧ b / 2 ^ (fracBits f - 1) % 2 = 0))))) ∧
  (∀ (mode : Nat) (x y : Machine.Num) (u v : Rat) (k : Int), x.value = some u → y.value = some v →
    (addNum mode x y).1.value = some (u + v) ∧ (addNum mode x y).2 = 0 ∧ (mulNum x y).1.value = some (u * v) ∧ (mulNum x y).2 = 0 ∧
    x.negate.value = some (-u) ∧ (x.scale k).value = some (u * (2 : Rat) ^ k)) ∧
  (∀ (f mode : Nat) (sat neg : Bool) (m : Nat) (e : Int), 1 ≤ f → f ≤ 6 → mode < 5 →
    let v : Rat := (if neg then -1 else 1) * (m : Rat) * (2 : Rat) ^ e
    let q := roundFloat f mode sat neg m e false
    let sign := if neg then 2 ^ (fmtWidth f - 1) else 0
    let outside : Prop := q.2 &&& (fOverflow ||| fSat) ≠ 0
    q.1 < 2 ^ fmtWidth f ∧ (m = 0 → q = (sign, 0)) ∧
    (∀ fl, roundLane f mode sat (.fin neg m e, fl) = (.ok q.1, fl ||| q.2) ∧
      ∀ sg, roundLane f mode sat (.nan sg, fl) = (.ok (canonNaN f), if sg then fl ||| fInvalid else fl)) ∧
    (¬ outside → roundsTo f mode (· ≤ v) (v ≤ ·) q.1 ∧ q.2 &&& (fInvalid ||| fDivzero) = 0 ∧ (q.2 &&& fInexact ≠ 0 ↔ floatValue f q.1 ≠ some v)) ∧
    (outside → (∀ c x, c < 2 ^ fmtWidth f → floatValue f c = some x → x * x < v * v) ∧
      q = (if sat then (sign + maxBits f, fSat ||| fInexact)
        else if mode = 0 ∨ mode = 4 ∨ mode = (if neg then 3 else 2) then (infBits f neg, fOverflow ||| fInexact)
        else (sign + maxBits f, fOverflow ||| fInexact)))) ∧
  (∀ (f mode : Nat) (sat : Bool) (x y : Machine.Num) (u v : Rat), 1 ≤ f → f ≤ 6 → mode < 5 → x.value = some u → y.value = some v →
    (u ≠ 0 → v ≠ 0 → ∃ b fl, divLane f mode sat x y = (.ok b, fl) ∧ (fl &&& (fOverflow ||| fSat) = 0 →
      roundsTo f mode (· ≤ u / v) (u / v ≤ ·) b ∧ (fl &&& fInexact ≠ 0 ↔ floatValue f b ≠ some (u / v)))) ∧
    (u ≠ 0 → v = 0 → f ≠ 5 → divLane f mode false x y = (.ok (infBits f (x.neg != y.neg)), fDivzero)) ∧
    (u = 0 → v = 0 → divLane f mode sat x y = (.ok (canonNaN f), fInvalid)) ∧
    (0 < u → ∃ b fl, sqrtLane f mode sat x = (.ok b, fl) ∧ (fl &&& (fOverflow ||| fSat) = 0 →
      roundsTo f mode (fun z => z ≤ 0 ∨ z * z ≤ u) (fun z => 0 ≤ z ∧ u ≤ z * z) b ∧ (fl &&& fInexact = 0 ↔ ∃ z, floatValue f b = some z ∧ z * z = u))) ∧
    (0 < u → ∃ b fl, rsqLane f mode sat x = (.ok b, fl) ∧ (fl &&& (fOverflow ||| fSat) = 0 →
      roundsTo f mode (fun z => z ≤ 0 ∨ z * z * u ≤ 1) (fun z => 0 ≤ z ∧ 1 ≤ z * z * u) b)) ∧
    (u < 0 → sqrtLane f mode sat x = (.ok (canonNaN f), fInvalid) ∧ rsqLane f mode sat x = (.ok (canonNaN f), fInvalid))) ∧
  (∀ (f mode : Nat) (sat neg : Bool) (m : Nat) (e n : Int), 1 ≤ f → f ≤ 6 → mode < 5 → -2000 ≤ e → n.natAbs < 2 ^ 20 →
    ((Machine.Num.fin neg m e).value = some (n : Rat) → exp2Lane f mode sat (.fin neg m e) =
      (.ok (roundFloat f mode sat false 1 n false).1, (roundFloat f mode sat false 1 n false).2)) ∧
    ((Machine.Num.fin neg m e).value = some ((2 : Rat) ^ n) → log2Lane f mode sat (.fin neg m e) =
      (if n = 0 then (.ok 0, 0) else (.ok (roundFloat f mode sat (decide (n < 0)) n.natAbs 0 false).1, (roundFloat f mode sat (decide (n < 0)) n.natAbs 0 false).2))))

/-- An INT, SHIFT/BIT, ADDRESS or immediate instruction that answers a next state either waits and changes nothing, or takes a trap and changes nothing but that entry (TrapEntry), or completes: then it changes g[d] alone among the registers of its slot, the pc and loop stack, the receive FIFO and L1 of its plot if it reads g31, and sends a flit if it writes g30. No a, v or q register, system register, counter or trap register, no other slot, no other plot and no byte of memory changes. (R23, R24, R304, R305, R307, R309, R311, R313.) -/
def Obligations.RegisterFormFrame : Prop :=
  ∀ (s t : State) (i : Instr) (srcs : List GReg) (d : GReg), i.regForm = some (srcs, d) → exec i s = .next t →
    t = s ∨ (∃ tr, t = s.trapNow tr) ∨ s.onlyWritesG t srcs d

/-- Outside a handler a precise trap saves the pc in TEPC and writes TCAUSE with the cause and the handler bit, TVAL and TINFO, and control goes to TVEC; when TVEC is 0 the slot is held instead and its pc stays. In a handler the trap is a double trap: the slot is held and the trap registers stay. In every case the registers, the loop stack, the counters and the system registers of the slot are as they were, and so are every other slot, every plot and every byte of memory. TRAP saves the address of the next instruction, BRK its own, both with the code in TVAL. (R387, R388, R389, R399, R423.) -/
def Obligations.TrapEntry : Prop :=
  (∀ (s : State) (tr : Trap), let t := s.trapNow tr
    t = { s with slots := t.slots, sent := t.sent } ∧ (∀ k, k ≠ 8 * s.focus.plot + s.focus.slot → tget Slot.init t.slots k = tget Slot.init s.slots k) ∧
    (∀ a, t.mem.byte a = s.mem.byte a) ∧
    (s.cur.ih = false → s.cur.tvec ≠ 0 → t = s.setCur { s.cur with
      tcause := 0x100 ||| tr.cause.zeroExtend 64, tepc := s.cur.pc, tval := tr.tval, tinfo := tr.tinfo, pc := s.cur.tvec }) ∧
    (s.cur.ih = false → s.cur.tvec = 0 → t.cur = { s.cur with
      tcause := 0x100 ||| tr.cause.zeroExtend 64, tepc := s.cur.pc, tval := tr.tval, tinfo := tr.tinfo, held := true, fstart := t.cur.fstart }) ∧
    (s.cur.ih = true → t.cur = { s.cur with held := true, fstart := t.cur.fstart })) ∧
  (∀ (s : State) (c : BitVec 11), s.cur.ih = false → s.cur.tvec ≠ 0 →
    exec (.trap c) s = .next (s.setCur { s.cur with tcause := 0x151, tepc := s.cur.pc + 4, tval := c.zeroExtend 64, tinfo := 0, pc := s.cur.tvec }) ∧
    exec (.brk c) s = .next (s.setCur { s.cur with tcause := 0x152, tepc := s.cur.pc, tval := c.zeroExtend 64, tinfo := 0, pc := s.cur.tvec }))

/-- With both operands valid, a compare branch whose condition holds continues at the pc plus 4 times its sign-extended offset, counted from the branch itself, and otherwise at the pc plus 4; BVAL and BINV test the validity of one operand. No register is written. An invalid operand of a compare branch raises POISON_CONSUMED with the payload of the first invalid one. (R29, R303, R315, R316, R321.) -/
def Obligations.BranchResults : Prop :=
  (∀ (s : State) (a b : GReg) (n : BitVec 16) (x y : Word), s.mayIssue [a, b] [] → s.reads [a, b] = [.ofWord x, .ofWord y] →
    ∀ e ∈ ([(.beq a b n, x == y), (.bne a b n, x != y), (.blt a b n, x.slt y), (.bge a b n, y.sle x),
        (.blo a b n, decide (x < y)), (.bhs a b n, decide (y ≤ x))] : List (Instr × Bool)),
      exec e.1 s = .next (if e.2 then (s.afterReads [a, b]).jump (s.cur.pc + 4 * n.signExtend 64) else (s.afterReads [a, b]).advance 4)) ∧
  (∀ (s : State) (a : GReg) (n : BitVec 16) (v : Val), s.mayIssue [a] [] → s.reads [a] = [v] →
    exec (.bval a n) s = .next (if v.valid then (s.afterReads [a]).jump (s.cur.pc + 4 * n.signExtend 64) else (s.afterReads [a]).advance 4) ∧
    exec (.binv a n) s = .next (if v.valid then (s.afterReads [a]).advance 4 else (s.afterReads [a]).jump (s.cur.pc + 4 * n.signExtend 64))) ∧
  (∀ (s : State) (a b : GReg) (n : BitVec 16) (v : Val), s.mayIssue [a, b] [] → (s.reads [a, b]).find? (fun x => !x.valid) = some v →
    ∀ i ∈ [Instr.beq a b n, .bne a b n, .blt a b n, .bge a b n, .blo a b n, .bhs a b n], exec i s = .next (s.trapNow ⟨0x18, payloadOf v, 0⟩))

/-- JAL writes the address of the next instruction to g[d] and continues at the pc plus 4 times its offset (21 bits, or 32 in the long form, whose link is the pc plus 8). JR reads its target before the link is written and continues there when the target is a multiple of 4; else it raises ALIGNMENT with the target in TVAL, and an invalid target raises POISON_CONSUMED, with no link written. (R29, R36, R317, R318.) -/
def Obligations.JumpResults : Prop :=
  (∀ (s t : State) (d : GReg) (n : BitVec 21), s.blocked [] [d] = false → s.writeG d (.ofWord (s.cur.pc + 4)) = .ok t →
    exec (.jal d n) s = .next (t.jump (s.cur.pc + 4 * n.signExtend 64))) ∧
  (∀ (s t : State) (d : GReg) (n : BitVec 32), s.blocked [] [d] = false → s.writeG d (.ofWord (s.cur.pc + 8)) = .ok t →
    exec (.jalLong d n) s = .next (t.jump (s.cur.pc + 4 * n.signExtend 64))) ∧
  (∀ (s : State) (d a : GReg) (v : Val), s.mayIssue [a] [d] → s.reads [a] = [v] →
    (∀ t, v.valid = true → v.bits.toNat % 4 = 0 → (s.afterReads [a]).writeG d (.ofWord (s.cur.pc + 4)) = .ok t → exec (.jr d a) s = .next (t.jump v.bits)) ∧
    (v.valid = true → v.bits.toNat % 4 ≠ 0 → exec (.jr d a) s = .next (s.trapNow ⟨0x0B, v.bits, 0⟩)) ∧
    (v.valid = false → exec (.jr d a) s = .next (s.trapNow ⟨0x18, payloadOf v, 0⟩)))

/-- Outside a handler, LOOP with a count other than 0 pushes the body that follows it and continues at its first word, when the stack holds fewer than four entries and the body does not end beyond the innermost one; with a count of 0 it continues after the body and pushes nothing; a full stack or a body that ends beyond the innermost raises ILLEGAL. YIELD, once CNTLD is 0, ends the firing: the loop stack is cleared, the pc and the registers that do not persist are discarded, v0 to v3, the a registers and the system registers stay; while CNTLD is not 0 it waits. (R22, R319, R320, R388.) -/
def Obligations.LoopAndYield : Prop :=
  (∀ (s : State) (a : GReg) (n : BitVec 16) (x : Word), s.mayIssue [a] [] → s.reads [a] = [.ofWord x] → s.cur.ih = false →
    let last := s.cur.pc + 4 * n.signExtend 64
    let fits := s.cur.loops.length < 4 ∧ (∀ e, s.cur.loops.head? = some e → last ≤ e.last)
    (x.extractLsb' 0 32 ≠ 0 → fits → exec (.loop a n) s = .next ((s.afterReads [a]).modCur fun y =>
      { y with pc := s.cur.pc + 4, loops := ⟨s.cur.pc + 4, last, x.extractLsb' 0 32⟩ :: s.cur.loops })) ∧
    (x.extractLsb' 0 32 = 0 → exec (.loop a n) s = .next ((s.afterReads [a]).modCur fun y => { y with pc := last + 4 })) ∧
    (x.extractLsb' 0 32 ≠ 0 → ¬ fits → ∃ w, exec (.loop a n) s = .next (s.trapNow ⟨0x01, w, 31⟩))) ∧
  (∀ s : State, s.cur.cntld = 0 → ∃ t, exec .yield s = .next t ∧ t = { s with slots := t.slots } ∧ t.cur.firing = false ∧ t.cur.loops = [] ∧
    (∀ n, n ≠ 0 → n ≠ 30 → t.cur.gReg s.focus.plot n = absentVal s.focus.plot) ∧ t.cur.a = s.cur.a ∧ t.cur.q = s.cur.q ∧ t.cur.fcount = s.cur.fcount ∧
    (∀ n : VNum, t.cur.vReg s.focus.plot n = (if n.toNat < 4 then s.cur.vReg s.focus.plot n else absentVec s.focus.plot)) ∧
    t.cur = { s.cur with firing := false, loops := [], pc := t.cur.pc, g := t.cur.g, v := t.cur.v, doneOwed := t.cur.doneOwed }) ∧
  (∀ s : State, s.cur.cntld ≠ 0 → exec .yield s = .next s)

/-- Falling through outside a handler: at the last word of a body its count drops by one and control goes to its first word, or, at 1, the entry is popped and control goes on at last + 4, the same completion counting for an outer body only where it ends at the same word; an entry whose last word it is not stays; where it is the last word of none, control goes to the next instruction. An 8-byte instruction counts with either word at last. A taken transfer keeps exactly the outermost entries that all hold its target and pops the others. In a handler the loop stack is frozen. That an inner entry stays while an outer one counts, and that either word of a long form may be the last one, is the choice of log 51. (R320, R321, R388.) -/
def Obligations.SequentialCompletion : Prop :=
  (∀ (pc : Word) (size : Nat), loopSeq pc size [] = (pc + BitVec.ofNat 64 size, [])) ∧
  (∀ (pc : Word) (size : Nat) (e : LoopEnt) (l : List LoopEnt), e.last = pc ∨ (size = 8 ∧ e.last = pc + 4) →
    (e.remaining ≠ 1 → loopSeq pc size (e :: l) = (e.first, { e with remaining := e.remaining - 1 } :: l)) ∧
    (e.remaining = 1 → loopSeq pc size (e :: l) = loopSeq e.last 4 l) ∧
    (e.remaining = 1 → (∀ f ∈ l, f.last ≠ e.last) → loopSeq pc size (e :: l) = (e.last + 4, l))) ∧
  (∀ (pc : Word) (size : Nat) (e : LoopEnt) (l : List LoopEnt), e.last ≠ pc → (size = 8 → e.last ≠ pc + 4) →
    loopSeq pc size (e :: l) = ((loopSeq pc size l).1, e :: (loopSeq pc size l).2)) ∧
  (∀ (s : State) (n : Nat), s.cur.ih = false → (s.advance n).cur.pc = (loopSeq s.cur.pc n s.cur.loops).1 ∧
    (s.advance n).cur.loops = (loopSeq s.cur.pc n s.cur.loops).2) ∧
  (∀ (s : State) (n : Nat), s.cur.ih = true → (s.advance n).cur = { s.cur with pc := s.cur.pc + BitVec.ofNat 64 n }) ∧
  (∀ (s : State) (t : Word), (s.jump t).cur.pc = t ∧ (s.cur.ih = true → (s.jump t).cur.loops = s.cur.loops) ∧
    (s.cur.ih = false → ∃ out, s.cur.loops = out ++ (s.jump t).cur.loops ∧ (∀ e, out.getLast? = some e → ¬ (e.first ≤ t ∧ t ≤ e.last)) ∧
      (∀ e ∈ (s.jump t).cur.loops, e.first ≤ t ∧ t ≤ e.last)))

/-- With a valid base and every check of R179 passed, LD, LDV, FEQ and their long forms add one outstanding request for the access at the effective address (base plus displacement, scaled by the access size in the short form), count it in CNTLD and fall through; no register, no counter but CNTLD and no byte of memory changes. LDFE (R195, R362; log 14), SQLD (log 14) and a read of a transient region declared with trap-on-expiry (logs 14 and 37) issue the same request but stay at their instruction until it is served: that they stay there is the choice of the model. (R30, R36, R176, R179, R180, R188, R190, R193, R195, R203.) -/
def Obligations.LoadsIssue : Prop :=
  (∀ (s : State) (d a : GReg) (oc : BitVec 3) (acq : Bool) (k : BitVec 3) (base : Word) (e : Tlb) (n : BitVec 9) (m : BitVec 32),
    k.toNat < 7 → s.memReady [a] [d] [] [] [] → s.reads [a] = [.ofWord base] →
    let op : Op := .ld (2 ^ (k.toNat / 2)) (k.toNat % 2 = 0 && k.toNat < 6)
    ∀ x ∈ ([(.ld d a oc acq k n, 4, base + (n.signExtend 64) <<< (k.toNat / 2)), (.ldLong d a oc acq k m, 8, base + m.signExtend 64)] : List (Instr × Nat × Word)),
      s.accessOk op oc x.2.2 e →
      let keep := s.retains op e.host (e.addr x.2.2).toNat
      ∃ t, exec x.1 s = .next t ∧ s.issued t (if keep then none else some x.2.1) (if keep then [] else [a]) op (.g d) oc acq false x.2.2 e .zero .zero []) ∧
  (∀ (s : State) (d : VNum) (a : GReg) (oc : BitVec 3) (f : BitVec 4) (base : Word) (e : Tlb) (n : BitVec 9) (m : BitVec 32),
    s.memReady [a] [] [d] [] [] → s.reads [a] = [.ofWord base] →
    ∀ x ∈ ([(.ldv d a oc f n, 4, base + (n.signExtend 64) <<< 6), (.ldvLong d a oc f m, 8, base + m.signExtend 64)] : List (Instr × Nat × Word)),
      s.accessOk (.ldv f) oc x.2.2 e →
      let keep := s.retains (.ldv f) e.host (e.addr x.2.2).toNat
      ∃ t, exec x.1 s = .next t ∧ s.issued t (if keep then none else some x.2.1) (if keep then [] else [a]) (.ldv f) (.v d) oc false false x.2.2 e .zero .zero []) ∧
  (∀ (s : State) (d a : GReg) (oc : BitVec 3) (base : Word) (e : Tlb), s.memReady [a] [d] [] [] [] → s.reads [a] = [.ofWord base] →
    (s.accessOk .feq oc base e →
      let keep := s.retains .feq e.host (e.addr base).toNat
      ∃ t, exec (.feq d a oc) s = .next t ∧ s.issued t (if keep then none else some 4) (if keep then [] else [a]) .feq (.g d) oc false false base e .zero .zero []) ∧
    (∀ c, s.accessOk (.ldfe c) oc base e →
      ∃ t, exec (.ldfe d a oc c) s = .next t ∧ s.issued t none [] (.ldfe c) (.g d) oc true false base e .zero .zero [])) ∧
  (∀ (s : State) (q : QNum) (a : GReg) (oc : BitVec 3) (base : Word) (e : Tlb), s.memReady [a] [] [] [q] [] → s.reads [a] = [.ofWord base] →
    s.accessOk .sqld oc base e →
      ∃ t, exec (.sqld q a oc) s = .next t ∧ s.issued t none [] .sqld (.q q) oc false false base e .zero .zero [])

/-- With a valid base and every check of R179 passed, ST, STV, STFE, FESET, the long forms and the RED instructions add one outstanding request that holds the value to be stored, count it in CNTST and fall through. Memory itself changes only when the request performs at its home (StoresPerform): at issue no byte of memory and no register changes. An STV whose format code is not zero and not the format of the register tag raises FORMAT_MISMATCH. (R31, R36, R176, R179, R180, R183, R188, R190, R193, R200.) -/
def Obligations.StoresIssue : Prop :=
  (∀ (s : State) (x a : GReg) (oc : BitVec 3) (rel : Bool) (k : BitVec 3) (base : Word) (v : Val) (e : Tlb) (n : BitVec 9) (m : BitVec 32),
    k.toNat < 4 → s.memReady [a, x] [] [] [] [] → s.reads [a, x] = [.ofWord base, v] →
    let op : Op := .st (2 ^ k.toNat)
    ∀ y ∈ ([(.st x a oc rel k n, 4, base + (n.signExtend 64) <<< k.toNat), (.stLong x a oc rel k m, 8, base + m.signExtend 64)] : List (Instr × Nat × Word)),
      s.accessOk op oc y.2.2 e → ∃ t, exec y.1 s = .next t ∧ s.issued t (some y.2.1) [a, x] op .none oc false rel y.2.2 e v .zero []) ∧
  (∀ (s : State) (x : VNum) (a : GReg) (oc : BitVec 3) (f : BitVec 4) (base : Word) (e : Tlb) (n : BitVec 9) (m : BitVec 32),
    s.memReady [a] [] [x] [] ((2, x.zeroExtend 5) :: if f != 0 then [(4, x.zeroExtend 5)] else []) → s.reads [a] = [.ofWord base] →
    ∀ y ∈ ([(.stv x a oc f n, 4, base + (n.signExtend 64) <<< 6), (.stvLong x a oc f m, 8, base + m.signExtend 64)] : List (Instr × Nat × Word)),
      s.accessOk .stv oc y.2.2 e →
      (f = 0 ∨ (s.vGet x).tag.extractLsb' 0 4 = f →
        ∃ t, exec y.1 s = .next t ∧ s.issued t (some y.2.1) [a] .stv .none oc false false y.2.2 e .zero .zero (vregWords (s.vGet x))) ∧
      (f ≠ 0 → (s.vGet x).tag.extractLsb' 0 4 ≠ f → exec y.1 s = .next (s.trapNow ⟨0x32, (s.vGet x).tag.zeroExtend 64, 0⟩))) ∧
  (∀ (s : State) (a b : GReg) (oc : BitVec 3) (base : Word) (v : Val) (e : Tlb), s.memReady [a, b] [] [] [] [] → s.reads [a, b] = [.ofWord base, v] →
    ∀ rel w, ∀ y ∈ ([(.stfe a b oc, .stfe, true), (.redadd a b rel w oc, .red 0 w, rel), (.redmin a b rel w oc, .red 1 w, rel),
        (.redmax a b rel w oc, .red 2 w, rel), (.redfadd a b rel w oc, .red 10 w, rel), (.redor a b rel w oc, .red 6 w, rel)] : List (Instr × Op × Bool)),
      s.accessOk y.2.1 oc base e → ∃ t, exec y.1 s = .next t ∧ s.issued t (some 4) [a, b] y.2.1 .none oc false y.2.2 base e v .zero []) ∧
  (∀ (s : State) (a : GReg) (oc : BitVec 3) (full : Bool) (base : Word) (e : Tlb), s.memReady [a] [] [] [] [] → s.reads [a] = [.ofWord base] →
    s.accessOk (.feset full) oc base e →
      ∃ t, exec (.feset a oc full) s = .next t ∧ s.issued t (some 4) [a] (.feset full) .none oc false false base e .zero .zero [])

/-- With a valid base and every check of R179 passed, each AMO adds one outstanding request that holds its operand (and, for AMCAS, the expected value read from g[d] before it is written), its ordering bits and its width, counts it in CNTLD and falls through, except that one on a transient region declared with trap-on-expiry stays at its instruction until it is served, the choice of logs 14 and 37. PRF changes no register, no counter and no byte of memory, neither issues nor drops a request, raises nothing and falls through, whatever its base; with an uncorrectable base it does nothing more. (R31, R179, R180, R191, R196, R197.) -/
def Obligations.AtomicsIssue : Prop :=
  (∀ (s : State) (d a b : GReg) (k : BitVec 2) (w : Bool) (oc : BitVec 3) (base : Word) (v : Val) (e : Tlb),
    s.memReady [a, b] [d] [] [] [] → s.reads [a, b] = [.ofWord base, v] →
    ∀ x ∈ ([(.amadd d a b k w oc, 0), (.ammin d a b k w oc, 1), (.ammax d a b k w oc, 2), (.amminz d a b k w oc, 3), (.ammaxz d a b k w oc, 4),
        (.amand d a b k w oc, 5), (.amor d a b k w oc, 6), (.amxor d a b k w oc, 7), (.amswp d a b k w oc, 8), (.amfadd d a b k w oc, 10),
        (.aminc d a b k w oc, 11)] : List (Instr × BitVec 4)),
      s.accessOk (.amo x.2 w) oc base e →
      let keep := s.retains (.amo x.2 w) e.host (e.addr base).toNat
      ∃ t, exec x.1 s = .next t ∧ s.issued t (if keep then none else some 4) (if keep then [] else [a, b]) (.amo x.2 w) (.g d) oc (k.getLsbD 0) (k.getLsbD 1) base e v .zero []) ∧
  (∀ (s : State) (d a b : GReg) (k : BitVec 2) (w : Bool) (oc : BitVec 3) (base : Word) (v c : Val) (e : Tlb),
    s.memReady [a, b, d] [d] [] [] [] → s.reads [a, b, d] = [.ofWord base, v, c] → s.accessOk (.amo 9 w) oc base e →
    let keep := s.retains (.amo 9 w) e.host (e.addr base).toNat
    ∃ t, exec (.amcas d a b k w oc) s = .next t ∧ s.issued t (if keep then none else some 4) (if keep then [] else [a, b, d]) (.amo 9 w) (.g d) oc (k.getLsbD 0) (k.getLsbD 1) base e v c []) ∧
  (∀ (s : State) (g : BitVec 5) (a : GReg) (oc : BitVec 3) (n : BitVec 9) (m : BitVec 32), s.blocked [a] [] = false →
    ∀ x ∈ ([(.prf g a oc n, 4), (.prfLong g a oc m, 8)] : List (Instr × Nat)),
      (∃ t, exec x.1 s = .next t ∧
        t = { s with slots := t.slots, plots := t.plots, dies := t.dies, causal := t.causal, reqs := t.reqs } ∧ t.cur = (s.advance x.2).cur ∧
        (∀ k, k ≠ 8 * s.focus.plot + s.focus.slot → tget Slot.init t.slots k = tget Slot.init s.slots k) ∧
        (∀ id, (tfind t.reqs id).isSome = (tfind s.reqs id).isSome) ∧
        (∀ id r y, tfind s.reqs id = some r → tfind t.reqs id = some y → y = { r with refill := y.refill })) ∧
      (s.badReg [(0, a)] ≠ none → exec x.1 s = .next ((s.afterReads [a]).advance x.2)))

/-- For every load, store, full/empty operation, atomic and reduction, short and long: an invalid base register raises POISON_CONSUMED with the payload of the base, before any other check; then an address that is not a multiple of the access size raises ALIGNMENT with the address in TVAL; then a non-canonical address raises LOAD_TRANSLATION (a load, LDV, LDFE, FEQ, SQLD) or STORE_TRANSLATION (all others); an address with no translation waits and issues nothing; an access that the page does not permit (a load its r, a store its w, an atomic or reduction r, w and at) raises PERMISSION; then what the target check refuses traps. The target check: full/empty operations have no host page; a home on a removed die raises CAUSAL_DIE_REMOVED (before the table of R178, the choice of log 115); a load is never refused, of unbacked storage neither; a store needs backed storage or a control register, a full/empty operation a backed word of a plot window, an atomic or reduction backed storage outside the weight layer. Nothing else changes, and no request is issued. (R77, R87, R90, R96, R121, R154, R177, R178, R179, R203.) -/
def Obligations.MemoryInstructionChecks : Prop :=
  (∀ (s : State) (i : Instr) (f : MemForm) (base : Val) (rest : List Val), memForm i = some f → s.memReady f.srcs f.dsts f.vs f.qs f.rv →
    s.reads f.srcs = base :: rest →
    let ea := base.bits + f.disp
    let load : Bool := match f.op with
      | .ld .. | .ldv .. | .sqld | .ldfe .. | .feq => true
      | _ => false
    let atomic : Bool := match f.op with
      | .amo .. | .red .. => true
      | _ => false
    (base.valid = false → exec i s = .next (s.trapNow ⟨0x18, payloadOf base, 0⟩)) ∧
    (base.valid = true → ea.toNat % f.align ≠ 0 → exec i s = .next (s.trapNow ⟨0x0B, ea, 0⟩)) ∧
    (base.valid = true → ea.toNat % f.align = 0 →
      (canonical ea = false → exec i s = .next (s.trapNow ⟨if load then 0x08 else 0x09, ea, 0x400000000⟩)) ∧
      (canonical ea = true → s.lookup s.focus.plot ea = none → (∀ w ∈ s.walks, w.2.declined = false ∧ w.2.lost = none) →
        ∃ t, exec i s = .next t ∧ t = { s with walks := t.walks, nextId := t.nextId }) ∧
      (∀ e, canonical ea = true → s.lookup s.focus.plot ea = some e →
        let may := if load then e.r else if atomic then e.r && e.w && e.atm else e.w
        (may = false → exec i s = .next (s.trapNow ⟨0x0A, ea, 0⟩)) ∧
        (∀ tr, may = true → s.targetTrap f.op.target e.host (e.addr ea).toNat ea = some tr → exec i s = .next (s.trapNow tr))))) ∧
  (∀ (s : State) (k : Target) (pa : Nat) (va : Word), let no : Option Trap := some ⟨0x0A, va, 0⟩
    s.targetTrap k true pa va = (if k = .granule then no else none) ∧
    (s.backed pa = true → s.isRemoved (s.homeDie pa) = true → s.targetTrap k false pa va = some ⟨0x48, va, BitVec.ofNat 64 (s.homeDie pa)⟩) ∧
    (s.backed pa = false ∨ s.isRemoved (s.homeDie pa) = false →
      s.targetTrap .read false pa va = none ∧
      s.targetTrap .write false pa va = (if s.backed pa = true ∨ ctrlListed pa = true then none else no) ∧
      s.targetTrap .granule false pa va = (match window pa with
        | .plot _ _ => if s.backed pa then none else no
        | _ => no) ∧
      s.targetTrap .atomic false pa va = (match window pa with
        | .weight _ _ => no
        | _ => if s.backed pa then none else no)))

/-- A store on the issuing die that may perform writes exactly its bytes: a valid 4-byte store makes its word valid with the low 32 bits of the register, a valid 8-byte store (and STFE) its two words, little-endian, an invalid register makes every word it touches invalid with its whole payload. A valid 1- or 2-byte store makes its word valid: the bytes of the store are those of the register, the others are kept if the word was valid and zero if it was not; an invalid one makes the word invalid. STV writes 16 words, each with the validity and bits of its own in the register. STFE also fills the granule, FESET sets only the bit. A granule that becomes full serves the LDFE that has waited there longest, and an LDFE.clr empties it again; with none waiting it stays full. Every byte of memory outside the stored words is as before; the request is gone. (R11, R72, R157, R180, R183, R185, R190, R193, R194, R324.) -/
def Obligations.StoresPerform : Prop :=
  ∀ (s : State) (id : Nat) (r : Req), tfind s.reqs id = some r → s.homeReady id r = true → r.pa.toNat < 0xF0000000000 →
    (∀ n, r.op = .st n → (n = 4 ∨ n = 8) → r.pa.toNat % n = 0 → ∃ t, exec (.storePerform id) s = .next t ∧ tfind t.reqs id = none ∧
      (∀ i, i < n / 4 → t.mem.word (s.place r.pa.toNat + 4 * i) =
        (if r.val.valid then ⟨true, r.val.bits.extractLsb' (32 * i) 32⟩ else ⟨false, r.val.bits.extractLsb' 0 32⟩)) ∧
      (∀ c, c < s.place r.pa.toNat ∨ s.place r.pa.toNat + n ≤ c → t.mem.byte c = s.mem.byte c)) ∧
    (∀ n, r.op = .st n → (n = 1 ∨ n = 2) → r.pa.toNat % n = 0 → ∃ t, exec (.storePerform id) s = .next t ∧ tfind t.reqs id = none ∧
      (let w := t.mem.word (s.place (r.pa.toNat / 4 * 4))
       let old := s.loadWord r.plot (r.pa.toNat / 4 * 4)
       let off := 8 * (r.pa.toNat % 4)
       (r.val.valid = false → w = ⟨false, r.val.bits.extractLsb' 0 32⟩) ∧
       (r.val.valid = true → w.valid = true ∧ ∀ j, j < 32 → w.bits.getLsbD j =
         (if off ≤ j ∧ j < off + 8 * n then r.val.bits.getLsbD (j - off) else old.valid && old.bits.getLsbD j))) ∧
      (∀ c, c < s.place (r.pa.toNat / 4 * 4) ∨ s.place (r.pa.toNat / 4 * 4) + 4 ≤ c → t.mem.byte c = s.mem.byte c)) ∧
    (r.op = .stv → r.vec.length = 16 → ∃ t, exec (.storePerform id) s = .next t ∧ tfind t.reqs id = none ∧
      (r.pa.toNat % 64 = 0 → ∀ i, i < 16 → t.mem.word (s.place r.pa.toNat + 4 * i) = r.vec.getD i W32.zero) ∧
      (∀ c, c < s.place r.pa.toNat ∨ s.place r.pa.toNat + 64 ≤ c → t.mem.byte c = s.mem.byte c)) ∧
    (∀ (v : VReg) (i : Nat), i < 16 → (vregWords v).length = 16 ∧ (vregWords v).getD i W32.zero = ⟨v.ok.getLsbD i, v.bits.extractLsb' (32 * i) 32⟩) ∧
    (r.op = .stfe → ∃ t, exec (.storePerform id) s = .next t ∧ tfind t.reqs id = none ∧
      (r.pa.toNat % 8 = 0 → ∀ i, i < 2 → t.mem.word (s.place r.pa.toNat + 4 * i) =
        (if r.val.valid then ⟨true, r.val.bits.extractLsb' (32 * i) 32⟩ else ⟨false, r.val.bits.extractLsb' 0 32⟩)) ∧
      (s.feWaiter (r.pa.toNat / 16) = none → t.mem.fe (s.place r.pa.toNat) = true) ∧
      (∀ j y p off, s.feWaiter (r.pa.toNat / 16) = some (j, y) → window r.pa.toNat = .plot p off → s.mem.fe (s.place r.pa.toNat) = false →
        (∃ z, tfind t.reqs j = some z ∧ z.stage ≠ .issued) ∧ (y.op = .ldfe true → t.mem.fe (s.place r.pa.toNat) = false)) ∧
      (∀ c, c < s.place r.pa.toNat ∨ s.place r.pa.toNat + 8 ≤ c → t.mem.byte c = s.mem.byte c)) ∧
    (∀ f, r.op = .feset f → ∃ t, exec (.storePerform id) s = .next t ∧ tfind t.reqs id = none ∧
      (f = false ∨ s.feWaiter (r.pa.toNat / 16) = none → t.mem.fe (s.place r.pa.toNat) = f) ∧
      (∀ c, t.mem.byte c = s.mem.byte c))

/-- An AMO that may perform on the issuing die and whose stamp its home covers returns the words that lay there, 32 or 64 bits, and, where they and its operand are valid, writes the new value of its operation: the sum, the signed or unsigned smaller or larger, and, or, exclusive or, the operand itself for AMSWP, the float sum for AMFADD (fpAdd, one RNE rounding), the operand for AMCAS only when the old value equals a valid expected one, and 0 or old + 1 for AMINC as the operand is not above the old value or is; a RED writes the same value of its operation and returns nothing. An invalid operand writes its payload into every word; an invalid old word is left as it is but by AMSWP, which writes whatever lay there. At an address of an expired region nothing is written. Bytes outside the words are as before. (R72, R84, R180, R183, R196, R197, R198, R200, R324.) -/
def Obligations.AtomicsPerform : Prop :=
  ∀ (s : State) (id W : Nat) (wide : Bool) (r : Req), tfind s.reqs id = some r → s.homeReady id r = true → s.covers r.unit r.stamp 8 = true →
    r.retained = false → r.acq = false → r.pa.toNat < 0xF0000000000 → s.justWritten r.pa.toNat = false →
    (W = 32 ∧ wide = false ∨ W = 64 ∧ wide = true) → r.pa.toNat % (W / 8) = 0 →
    let before := s.loadWords r.plot r.pa.toNat (W / 32)
    let frame (t : State) : Prop := ∀ c, c < s.place r.pa.toNat ∨ s.place r.pa.toNat + W / 8 ≤ c → t.mem.byte c = s.mem.byte c
    let kept (t : State) : Prop := ∀ c, t.mem.byte c = s.mem.byte c
    let wrote (t : State) (v : BitVec W) : Prop := frame t ∧ ∀ i, i < W / 32 → t.mem.word (s.place r.pa.toNat + 4 * i) = ⟨true, v.extractLsb' (32 * i) 32⟩
    let spoiled (t : State) : Prop := frame t ∧ ∀ i, i < W / 32 → t.mem.word (s.place r.pa.toNat + 4 * i) = ⟨false, r.val.bits.extractLsb' 0 32⟩
    let amoEnds (k : BitVec 4) (p : State → Prop) : Prop := r.op = .amo k wide →
      ∃ t, exec (.amoPerform id) s = .next t ∧ p t ∧ ∃ y, tfind t.reqs id = some y ∧ y.resp = before ∧ y.stage = .served
    let redEnds (k : BitVec 4) (p : State → Prop) : Prop := r.op = .red k wide → ∃ t, exec (.redPerform id) s = .next t ∧ p t ∧ tfind t.reqs id = none
    let ops : List (BitVec 4) := [0, 1, 2, 3, 4, 5, 6, 7, 8, 10, 11]
    (s.expired r.pa.toNat = true → ∀ k, amoEnds k kept ∧ redEnds k kept) ∧
    (s.expired r.pa.toNat = false → (∀ w ∈ before, w.valid = true) → ∀ x old : BitVec W, r.val.bits.extractLsb' 0 W = x →
      (∀ i, i < W / 32 → (before.getD i W32.zero).bits = old.extractLsb' (32 * i) 32) →
      (r.val.valid = true → (∀ e ∈ ([(0, old + x), (1, if x.slt old then x else old), (2, if old.slt x then x else old), (3, if x < old then x else old),
          (4, if old < x then x else old), (5, old &&& x), (6, old ||| x), (7, old ^^^ x), (8, x),
          (10, BitVec.ofNat W (fpAdd (if wide then 1 else 2) old.toNat x.toNat)), (11, if x ≤ old then 0 else old + 1)] : List (BitVec 4 × BitVec W)),
        amoEnds e.1 (wrote · e.2) ∧ redEnds e.1 (wrote · e.2)) ∧
        (r.cmp.valid = true → r.cmp.bits.extractLsb' 0 W = old → amoEnds 9 (wrote · x))) ∧
      (r.val.valid = false → (∀ k ∈ ops, amoEnds k spoiled ∧ redEnds k spoiled) ∧
        (r.cmp.valid = true → r.cmp.bits.extractLsb' 0 W = old → amoEnds 9 spoiled)) ∧
      (r.cmp.valid = false ∨ r.cmp.bits.extractLsb' 0 W ≠ old → amoEnds 9 kept)) ∧
    (s.expired r.pa.toNat = false → (∃ w ∈ before, w.valid = false) →
      (∀ k, k ≠ 8 → amoEnds k kept ∧ redEnds k kept) ∧
      (r.val.valid = true → amoEnds 8 (wrote · (r.val.bits.extractLsb' 0 W))) ∧ (r.val.valid = false → amoEnds 8 spoiled))

/-- A read of memory gives the ABSENT word where nothing is backed, RETENTION where the region has expired, a control register half by half, else the word that lies there. A load, LDV or SQLD that its home serves on the issuing die (with no L1 line for it) is answered with the words at its address and changes no memory; FEQ is answered 1 for a full granule, else 0; an LDFE on a full granule with the words, and its .clr form empties it; on an empty one it stays. When one completes, CNTLD is one lower and its g register holds the little-endian value of the bytes, sign- or zero-extended by its type; if any word it read is invalid the register is invalid with the payload of the lowest-addressed invalid word. LDV gives its register the words one by one with a tag of its format, a malformed LG6 word being FORMAT; SQLD fills its q register, and with an invalid word raises POISON_CONSUMED instead; g0 and g31 take nothing and g30 sends the value as a flit. A read answered by another die merges the response stamp and empties the L1 of its plot. While the context of its plot is halted or saved nothing is delivered (R98). (R77, R84, R98, R116, R117, R156, R180, R182, R188, R190, R193, R203.) -/
def Obligations.ReadsAreServed : Prop :=
  (∀ (s : State) (p a : Nat), ctrlListed a = false →
    (s.backed a = false → ∃ q, s.loadWord p a = ⟨false, payloadBits 6 q 0⟩) ∧
    (s.backed a = true → s.loadWord p a = (if s.expired a then ⟨false, payloadBits 5 (s.homePlot a) 0⟩ else s.mem.word (s.place a)))) ∧
  (∀ (s : State) (p a n i : Nat), i < n → (s.loadWords p a n).getD i W32.zero = s.loadWord p (a + 4 * i)) ∧
  (∀ (s : State) (id : Nat) (r : Req), tfind s.reqs id = some r → r.stage = .issued → r.unit = dieOf r.plot → r.unit ≠ 16 →
    r.retained = false ∨ s.expired r.pa.toNat = false → s.l1Line r = none → s.mayGo id r false = true → s.firstInStream id r = true →
    s.covers r.unit r.stamp 8 = true → s.isRemoved r.unit = false → s.justWritten r.pa.toNat = false →
    let answered (ws : List W32) (f : State → Prop) : Prop := ∃ t, exec (.readServe id) s = .next t ∧ f t ∧
      ∃ y, tfind t.reqs id = some y ∧ y.stage = .served ∧ y.resp = ws
    let same (t : State) : Prop := t.mem = s.mem
    (∀ n sg, r.op = .ld n sg → answered (s.loadWords r.plot (r.pa.toNat / 4 * 4) (if n = 8 then 2 else 1)) same) ∧
    (∀ f, r.op = .ldv f → answered (s.loadWords r.plot r.pa.toNat 16) same) ∧
    (r.op = .sqld → answered (s.loadWords r.plot r.pa.toNat 4) same) ∧
    (r.op = .feq → answered [⟨true, if s.mem.fe (s.place r.pa.toNat) then 1 else 0⟩, ⟨true, 0⟩] same) ∧
    (s.mem.fe (s.place r.pa.toNat) = true →
      (r.op = .ldfe false → answered (s.loadWords r.plot r.pa.toNat 2) same) ∧
      (r.op = .ldfe true → answered (s.loadWords r.plot r.pa.toNat 2) fun t => t.mem = s.mem.setFe (s.place r.pa.toNat) false)) ∧
    (s.mem.fe (s.place r.pa.toNat) = false → ∀ c, r.op = .ldfe c → ∃ t, exec (.readServe id) s = .next t ∧ t.mem = s.mem ∧
      ∃ y, tfind t.reqs id = some y ∧ y.stage = .issued ∧ y.arr ≠ 0)) ∧
  (∀ (s : State) (id : Nat) (r : Req), tfind s.reqs id = some r → r.op.reads = true → r.stage = .served → s.plotRuns r.plot = true →
    (r.op = .sqld → r.retained = true → ∀ w ∈ r.resp, w.valid = true) →
    let bytes (off n : Nat) (sg : Bool) : Val := match r.resp.find? (fun w => !w.valid) with
      | some w => ⟨false, w.bits.zeroExtend 64⟩
      | none =>
        let x : Word := ((r.resp.getD 1 ⟨true, 0⟩).bits ++ (r.resp.getD 0 ⟨true, 0⟩).bits) >>> (8 * off)
        .ofWord (if sg then (x.extractLsb' 0 (8 * n)).signExtend 64 else (x.extractLsb' 0 (8 * n)).zeroExtend 64)
    let off (n : Nat) := if n < 4 then r.pa.toNat % 4 else 0
    ∀ v, (∀ n sg, r.op = .ld n sg → (n = 8 ∧ r.resp.length = 2 ∨ (n = 1 ∨ n = 2 ∨ n = 4) ∧ r.resp.length = 1) → v = bytes (off n) n sg) →
      (∀ k w, r.op = .amo k w → r.resp.length = (if w then 2 else 1) → v = bytes 0 (if w then 8 else 4) (k ∉ [(3 : BitVec 4), 4, 10, 11])) →
      (r.op = .feq ∨ r.op = .ldfe false ∨ r.op = .ldfe true → r.resp.length = 2 → v = bytes 0 8 false) →
      (∃ n sg, r.op = .ld n sg ∧ (n = 8 ∧ r.resp.length = 2 ∨ (n = 1 ∨ n = 2 ∨ n = 4) ∧ r.resp.length = 1)) ∨
        (∃ k w, r.op = .amo k w ∧ r.resp.length = (if w then 2 else 1)) ∨ ((r.op = .feq ∨ r.op = .ldfe false ∨ r.op = .ldfe true) ∧ r.resp.length = 2) ∨
        (∃ f, r.op = .ldv f ∧ r.resp.length = 16) ∨ (r.op = .sqld ∧ r.resp.length = 4) →
      ∃ t, exec (.loadComplete id) s = .next t ∧ tfind t.reqs id = none ∧ t.mem = s.mem ∧
        ((s.slotAt r.plot r.slot).cntld ≠ 0 → (t.slotAt r.plot r.slot).cntld = (s.slotAt r.plot r.slot).cntld - 1) ∧
        (r.retained = true → (t.slotAt r.plot r.slot).wait = none) ∧
        (∀ d, r.dest = .g d →
          (d ≠ 0 → d ≠ 30 → d ≠ 31 → (∃ f, r.op = .ldv f) ∨ r.op = .sqld ∨ (t.slotAt r.plot r.slot).gReg r.plot d = v) ∧
          (d = 0 ∨ d = 31 → ∀ n, (t.slotAt r.plot r.slot).gReg r.plot n = (s.slotAt r.plot r.slot).gReg r.plot n) ∧
          (d = 30 → (∀ f, r.op ≠ .ldv f) → r.op ≠ .sqld → ∀ u,
            State.sendLoaded { (s.modSlot r.plot r.slot fun x => x.countDown true) with reqs := tdel s.reqs id } id r.plot r.slot v = .ok u → t = if r.retained then u.resumeRetained r else u)) ∧
        (∀ f d, r.op = .ldv f → r.dest = .v d → let x := (t.slotAt r.plot r.slot).vReg r.plot d
          x.tag = f.zeroExtend 16 ∧ ∀ m, m < 16 → let w := r.resp.getD m W32.zero
            (x.ok.getLsbD m, x.bits.extractLsb' (32 * m) 32) =
              if f = 11 ∧ w.valid = true ∧ w.bits.extractLsb' 30 2 ≠ 0 then (false, payloadBits 7 r.plot 0) else (w.valid, w.bits)) ∧
        (∀ q, r.op = .sqld → r.dest = .q q → ∀ j, j < 4 → ((t.slotAt r.plot r.slot).qReg q).extractLsb' (32 * j) 32 = (r.resp.getD j W32.zero).bits)) ∧
  (∀ (s : State) (id : Nat) (r : Req) (q : QNum) (w : W32), tfind s.reqs id = some r → r.op = .sqld → r.stage = .served →
    r.retained = true → s.plotRuns r.plot = true →
    r.dest = .q q → r.resp.find? (fun w => !w.valid) = some w →
    exec (.loadComplete id) s = .next (s.dropRetained id r ⟨0x18, (normPayload w.bits).zeroExtend 64, 0⟩)) ∧
  (∀ (s : State) (id : Nat) (r : Req) (st : List (BitVec 10)), tfind s.reqs id = some r → r.stage = .answering st → s.plotRuns r.plot = true →
    ∃ t, exec (.readResponseMerge id) s = .next t ∧ (t.plotAt r.plot).l1 = [] ∧ t.mem = s.mem ∧
      (∀ j, j < 8 → serialLe (vecAt (s.causalAt (dieOf r.plot)).dv j) (vecAt (t.causalAt (dieOf r.plot)).dv j) = true) ∧
      ∃ y, tfind t.reqs id = some y ∧ y.stage = .served ∧ y.resp = r.resp) ∧
  (∀ (s : State) (id : Nat) (r : Req), tfind s.reqs id = some r → s.plotRuns r.plot = false →
    exec (.loadComplete id) s = .next s ∧ exec (.readResponseMerge id) s = .next s)

/-- A read of a host page that lies within the registered memory of its session and may go is served by the front end with the bytes of that memory; a store there changes those bytes, leaves module memory as it was and ends its request. One that lies outside parks while its slice has room: it gets the next fault id. A walk waits until the homes of its tables may serve its reads; a table on a removed die ends it; one that finds a leaf fills the translation cache of its plot and is gone; one that finds none parks with the next fault id while its slice has room. (R90, R91, R93, R94, R97, R116, R121, R423.) -/
def Obligations.HostPagesAndWalks : Prop :=
  (∀ (s : State) (id k : Nat) (r : Req) (x : Session), tfind s.reqs id = some r → r.unit = 16 → r.stage = .issued → s.mayGo id r false = true →
    s.parkedBefore id r = false → s.engineBefore id r = false → r.rel = false → r.acq = false → s.hostSession r.plot = some (k, x) → s.hostInside r = true →
    (∀ sg, r.op = .ld 4 sg → r.pa.toNat % 4 = 0 → ∃ t, exec (.hostPageAccess id) s = .next t ∧ t.mem = s.mem ∧
      ∃ y, tfind t.reqs id = some y ∧ y.stage = .served ∧ y.resp = [hostWord x r.pa.toNat]) ∧
    (r.op = .st 4 → r.val.valid = true → r.pa.toNat % 4 = 0 → ∃ t, exec (.hostPageAccess id) s = .next t ∧ t.mem = s.mem ∧ tfind t.reqs id = none ∧
      ∃ y, tfind t.sessions k = some y ∧ hostWord y r.pa.toNat = ⟨true, r.val.bits.extractLsb' 0 32⟩ ∧
        (∀ c, c < r.pa.toNat ∨ r.pa.toNat + 4 ≤ c → tget 0 y.host c = tget 0 x.host c))) ∧
  (∀ (s : State) (id : Nat) (r : Req), tfind s.reqs id = some r → r.unit = 16 → r.stage = .issued → s.mayGo id r false = true →
    s.parkedBefore id r = false → s.engineBefore id r = false → r.rel = false → s.hostInside r = false → s.parkedAt (walkerSlice r.plot r.va) < 64 →
    ∃ t, exec (.hostPageAccess id) s = .next t ∧ t.mem = s.mem ∧ t.parkIds = s.parkIds + 1 ∧
      ∃ y, tfind t.reqs id = some y ∧ y.stage = .parked (s.parkIds + 1)) ∧
  (∀ (s : State) (id : Nat) (w : Walk), tfind s.walks id = some w → w.parked = none → w.declined = false → w.lost = none →
    (∀ d, s.walkTables w.plot w.stamp w.va = .lost d → exec (.pageWalk id) s = .next { s with walks := tset s.walks id { w with lost := some d } }) ∧
    (s.walkTables w.plot w.stamp w.va = .wait → exec (.pageWalk id) s = .next s) ∧
    ∀ s1, s.walkTables w.plot w.stamp w.va = .done s1 →
    (∀ e, s.walkVa w.plot w.va = some e → ∃ t, exec (.pageWalk id) s = .next t ∧ tfind t.walks id = none ∧ e ∈ (t.plotAt w.plot).tlb ∧ t.mem = s.mem) ∧
    (s.walkVa w.plot w.va = none → s.parkedAt (walkerSlice w.plot w.va) < 64 → ∃ t, exec (.pageWalk id) s = .next t ∧ t.parkIds = s.parkIds + 1 ∧
      ∃ y, tfind t.walks id = some y ∧ y.parked = some (s.parkIds + 1)))

/-- FENCE completes when, for an acquire, every covered read has returned and, for a release or a full fence, every covered write is released or performed at the scope; an acquire at REGION scope or wider empties the L1 of the plot; till then it waits and changes nothing. ARC read gives the counter; an acquire takes one count when the counter is not 0 and no one who could go on waited before, and empties the L1, an increment that waited for the counter taking the place of that count; at 0 it joins those who wait; a release adds one once every earlier access of its class is released and the counter is below 255. WAIT completes exactly when each counter whose field is not 15 is at most its field. (R206, R326, R332, R335, R337.) -/
def Obligations.FenceArcWait : Prop :=
  (∀ (s : State) (m : BitVec 8) (k : BitVec 2) (sc : BitVec 4),
    (((k = 1 ∨ k = 3) → s.readsDone s.focus.plot s.focus.slot m = true) ∧
     ((k = 2 ∨ k = 3) → s.writesDone s.focus.plot s.focus.slot m sc.toNat (k == 3) = true) →
      exec (.fence m k sc) s = .next ((if (k = 1 ∨ k = 3) ∧ 2 ≤ sc.toNat then s.flushL1 s.focus.plot else s).advance 4)) ∧
    (((k = 1 ∨ k = 3) ∧ s.readsDone s.focus.plot s.focus.slot m = false) ∨
     ((k = 2 ∨ k = 3) ∧ s.writesDone s.focus.plot s.focus.slot m sc.toNat (k == 3) = false) → exec (.fence m k sc) s = .next s)) ∧
  (∀ (s : State) (d : GReg) (id : BitVec 8) (oc : BitVec 3),
    (∀ t, s.blocked [] [d] = false → s.writeG d (.ofWord ((s.arcCount s.focus.plot id).zeroExtend 64)) = .ok t → exec (.arc d id 0 0) s = .next (t.advance 4)) ∧
    (s.arcCount s.focus.plot id ≠ 0 → (∀ w, ((s.arcWaiters s.focus.plot id).filter s.arcLive).head? = some w → w = s.focus.slot) →
      ∃ t, exec (.arc 0 id 1 oc) s = .next t ∧ (t.plotAt s.focus.plot).l1 = [] ∧ s.focus.slot ∉ t.arcWaiters s.focus.plot id ∧
        (id.toNat ∉ (s.plotAt s.focus.plot).owed → t.arcCount s.focus.plot id = s.arcCount s.focus.plot id - 1) ∧
        (id.toNat ∈ (s.plotAt s.focus.plot).owed → t.arcCount s.focus.plot id = s.arcCount s.focus.plot id ∧
          (t.plotAt s.focus.plot).owed = (s.plotAt s.focus.plot).owed.erase id.toNat) ∧
        t = { s with plots := t.plots, slots := t.slots } ∧ t.cur = (s.advance 4).cur) ∧
    (s.arcCount s.focus.plot id = 0 → exec (.arc 0 id 1 oc) s = .next (s.joinArc s.focus.plot id s.focus.slot) ∧
      s.focus.slot ∈ (s.joinArc s.focus.plot id s.focus.slot).arcWaiters s.focus.plot id) ∧
    (s.allReleased oc = true → s.arcCount s.focus.plot id ≠ 255 → exec (.arc 0 id 2 oc) s =
      .next ((s.setArc s.focus.plot id (s.arcCount s.focus.plot id + 1)).advance 4))) ∧
  (∀ (s : State) (l n c m : BitVec 4),
    let ok := (l = 15 ∨ s.cur.cntld.toNat ≤ l.toNat) ∧ (n = 15 ∨ s.cur.cntst.toNat ≤ n.toNat) ∧ (c = 15 ∨ s.cur.cntcp.toNat ≤ c.toNat) ∧
      (m = 15 ∨ s.cur.cnttl.toNat ≤ m.toNat)
    (ok → exec (.wait l n c m) s = .next (s.advance 4)) ∧ (¬ ok → exec (.wait l n c m) s = .next s))

/-- EVSIG with a guidon index that names an EVENT guidon of the issuing instance completes once the earlier accesses of its slot are released: on a node of its own die it adds its amount (1 for g0, else bits [31:0] of g[a]) to the node and falls through; to a node of another die the amount leaves as a counted event; until the accesses are released it waits and changes nothing. EVWAIT on such a node of its die that has a raise, with no other waiter before it, completes: one raise is taken (raises left go to waiters of other dies that come next), the L1 of its plot is emptied, g[d] is written the number left, and it falls through; otherwise it joins the queue of the node once and waits. A node of another die is asked by a counted packet (R351; how the request and its answer travel, and that the answer merges its stamp and empties the L1, is the choice of log 24), and EVWAIT goes on with the answer. An invalid amount raises POISON_CONSUMED with its payload; an index that names no guidon of the instance, or one that is no EVENT node, raises PERMISSION with the index. An amount added that brings no node of the die to raise changes the count of its node alone, saturating, and no byte of memory changes. (R24, R351, R352, R364, R365.) -/
def Obligations.EventInstructions : Prop :=
  (∀ (s : State) (e : BitVec 8) (k i : Nat) (g : Guidon), s.named e k = .ok (i, g) ↔
    ∃ x, s.instAt s.focus.plot = some (i, x) ∧ tfind x.guidons e.toNat = some g ∧ g.kind = k) ∧
  (∀ (s : State) (a : GReg) (e : BitVec 8) (v : Val), let srcs := if a = 0 then [] else [a]
    s.mayIssue srcs [] → (a = 0 → v = .ofWord 1) → (a ≠ 0 → s.reads [a] = [v]) →
    (v.valid = false → exec (.evsig a e) s = .next (s.trapNow ⟨0x18, payloadOf v, 0⟩)) ∧
    (v.valid = true → (∀ x, s.named e 4 ≠ .ok x) → exec (.evsig a e) s = .next (s.trapNow ⟨0x0A, e.zeroExtend 64, 0⟩)) ∧
    (∀ i g, v.valid = true → s.named e 4 = .ok (i, g) → let n := v.bits.extractLsb' 0 32
      (s.allReleased 7 = true → dieOf g.plot = dieOf s.focus.plot →
        exec (.evsig a e) s = .next (((s.afterReads srcs).addEvent i e.toNat n).advance 4)) ∧
      (s.allReleased 7 = true → dieOf g.plot ≠ dieOf s.focus.plot →
        exec (.evsig a e) s = .next (((s.afterReads srcs).post s.focus.plot s.focus.slot (dieOf g.plot) [] (.event i e n)).advance 4)) ∧
      (s.allReleased 7 = false → exec (.evsig a e) s = .next s))) ∧
  (∀ (s : State) (i e : Nat) (n : BitVec 32) (g : Guidon), s.guidonAt i e = some g →
    (s.addEvent i e n).mem = s.mem ∧
    (let s1 := s.modGuidon i e fun g => { g with count := BitVec.ofNat 32 (min (g.count.toNat + n.toNat) 0xFFFFFFFF) }
     (∀ y, tfind s1.insts i = some y → ∀ h ∈ y.guidons, dieOf h.2.plot = dieOf g.plot → y.raiseTerm h.2 = none) → s.addEvent i e n = s1)) ∧
  (∀ (s : State) (d : GReg) (e : BitVec 8), s.blocked [] [d] = false →
    ((∀ x, s.named e 4 ≠ .ok x) → exec (.evwait d e) s = .next (s.trapNow ⟨0x0A, e.zeroExtend 64, 0⟩)) ∧
    (∀ i g, s.named e 4 = .ok (i, g) → let me := 8 * s.focus.plot + s.focus.slot
      tfind s.pnreqs me = none →
      (dieOf g.plot = dieOf s.focus.plot →
        (∀ t, g.raises ≠ 0 → (∀ w, g.evq.head? = some w → w = me) →
          let s1 := s.modGuidon i e.toNat fun g => { g with raises := g.raises - 1, evq := g.evq.filter (· != me) }
          (((if g.evq.filter (· != me) = [] then s1 else s1.grantRaises i e.toNat g.evq.length)).flushL1 s.focus.plot).writeG d
            (.ofWord ((g.raises - 1).zeroExtend 64)) = .ok t →
          exec (.evwait d e) s = .next (t.advance 4)) ∧
        (g.raises = 0 ∨ (∃ w, g.evq.head? = some w ∧ w ≠ me) → exec (.evwait d e) s =
          .next (if me ∈ g.evq then s else s.modGuidon i e.toNat fun g => { g with evq := g.evq ++ [me] }))) ∧
      (dieOf g.plot ≠ dieOf s.focus.plot → exec (.evwait d e) s = .next (s.askHome (.take i e) (e.zeroExtend 64) (dieOf g.plot))))) ∧
  (∀ (s : State) (d : GReg) (e : BitVec 8) (r : PnReq), let key := 8 * s.focus.plot + s.focus.slot
    tfind s.pnreqs key = some r → let s1 := ({ s with pnreqs := tdel s.pnreqs key }.mergeDv (dieOf s.focus.plot) r.stamp).flushL1 s.focus.plot
    (r.answer = none → exec (.evwait d e) s = .next s) ∧
    (∀ tr, r.answer = some (.trap tr) → exec (.evwait d e) s = .next (s1.trapNow tr)) ∧
    (∀ w q t, r.answer = some (.value w q) → s1.writeG d (.ofWord w) = .ok t → exec (.evwait d e) s = .next (t.advance 4)))

/-- BARRIVE by a participant that has neither arrived nor been skipped marks it arrived and writes g[d] the generation; by anyone else it raises BARRIER_OVERRUN. BSKIP marks the participant that g[a] names as skipped. When everyone of the mask has arrived or been skipped the generation releases: its number grows by one and the marks and the timer are cleared; until then the barrier keeps its generation. With a node on another die both leave as a counted request to it and go on with its answer, whose stamp is merged (log 23). BWAIT waits while the generation, as its die knows it, is the one its slot waits for (that of its arrival, else the current; a released arrival counts, log 23), and once it is over writes g[d] the new generation; a slot that waited while its generation was aborted raises BARRIER_TIMEOUT with that generation in TVAL, and an arrival in an aborted generation is forgotten. How what crosses dies travels is log 24's choice. (R351, R353, R364, R366.) -/
def Obligations.BarrierInstructions : Prop :=
  (∀ (s : State) (d : GReg) (e : BitVec 8) (i n p : Nat) (g : Guidon), s.mayIssue [] [d] → s.named e 3 = .ok (i, g) → s.cur.actor = some (i, n) →
    tfind s.pnreqs (8 * s.focus.plot + s.focus.slot) = none → g.position n = some p → p < 16 → d ≠ 0 → d ≠ 30 → d ≠ 31 → dieOf g.plot = dieOf s.focus.plot →
    (g.mask.getLsbD p = true → g.arrived.getLsbD p = false → g.skipped.getLsbD p = false → s.allReleased 7 = true →
      ∃ t h, exec (.barrive d e) s = .next t ∧ t.cur.gReg s.focus.plot d = .ofWord (g.gen.zeroExtend 64) ∧ t.guidonAt i e.toNat = some h ∧
        t.cur.pc = (s.advance 4).cur.pc ∧ t.mem = s.mem ∧ tget 0 t.cur.arrGen e.toNat = g.gen ∧
        (if (g.arrived ||| (1 <<< p) ||| g.skipped) = g.mask then h.gen = g.gen + 1 ∧ h.arrived = 0 ∧ h.skipped = 0 ∧ h.deadline = none
         else h.gen = g.gen ∧ h.arrived = g.arrived ||| (1 <<< p) ∧ h.skipped = g.skipped)) ∧
    (g.mask.getLsbD p = false ∨ g.arrived.getLsbD p = true ∨ g.skipped.getLsbD p = true →
      exec (.barrive d e) s = .next (s.trapNow ⟨0x28, e.zeroExtend 64, BitVec.ofNat 64 p⟩))) ∧
  (∀ (s : State) (a : GReg) (e : BitVec 8) (i : Nat) (g : Guidon) (x : Word), s.mayIssue [a] [] → s.reads [a] = [.ofWord x] → s.named e 3 = .ok (i, g) →
    tfind s.pnreqs (8 * s.focus.plot + s.focus.slot) = none → dieOf g.plot = dieOf s.focus.plot →
    x.toNat < 16 → g.mask.getLsbD x.toNat = true → g.arrived.getLsbD x.toNat = false → g.skipped.getLsbD x.toNat = false → s.allReleased 7 = true →
      ∃ t h, exec (.bskip a e) s = .next t ∧ t.guidonAt i e.toNat = some h ∧ t.cur.pc = (s.advance 4).cur.pc ∧ t.mem = s.mem ∧
        (if (g.arrived ||| (g.skipped ||| (1 <<< x.toNat))) = g.mask then h.gen = g.gen + 1 ∧ h.arrived = 0 ∧ h.skipped = 0 ∧ h.deadline = none
         else h.gen = g.gen ∧ h.arrived = g.arrived ∧ h.skipped = g.skipped ||| (1 <<< x.toNat))) ∧
  (∀ (s : State) (a : GReg) (e : BitVec 8) (i : Nat) (g : Guidon) (x : Word), s.mayIssue [a] [] → s.reads [a] = [.ofWord x] → s.named e 3 = .ok (i, g) →
    tfind s.pnreqs (8 * s.focus.plot + s.focus.slot) = none →
    16 ≤ x.toNat → exec (.bskip a e) s = .next (s.trapNow ⟨0x33, x, 0⟩)) ∧
  (∀ (s : State) (d a : GReg) (e : BitVec 8) (i : Nat) (g : Guidon), s.named e 3 = .ok (i, g) → dieOf g.plot ≠ dieOf s.focus.plot →
    let key := 8 * s.focus.plot + s.focus.slot
    (∀ n p, tfind s.pnreqs key = none → s.mayIssue [] [d] → s.cur.actor = some (i, n) → g.position n = some p → s.allReleased 7 = true →
      exec (.barrive d e) s = .next (s.askHome (.arrive i e p s.cur.barwd) (e.zeroExtend 64) (dieOf g.plot))) ∧
    (∀ x : Word, tfind s.pnreqs key = none → s.mayIssue [a] [] → s.reads [a] = [.ofWord x] → x.toNat < 16 → s.allReleased 7 = true →
      exec (.bskip a e) s = .next (s.askHome (.skip i e x.toNat s.cur.barwd) (e.zeroExtend 64) (dieOf g.plot))) ∧
    (∀ r, tfind s.pnreqs key = some r → let s1 := ({ s with pnreqs := tdel s.pnreqs key }.mergeDv (dieOf s.focus.plot) r.stamp).flushL1 s.focus.plot
      (r.answer = none → exec (.barrive d e) s = .next s ∧ exec (.bskip a e) s = .next s) ∧
      (∀ tr, r.answer = some (.trap tr) → exec (.barrive d e) s = .next (s1.trapNow tr) ∧ exec (.bskip a e) s = .next (s1.trapNow tr)) ∧
      (∀ w q, r.answer = some (.value w q) → exec (.bskip a e) s = .next ((s1.afterReads [a]).advance 4) ∧
        ∀ t, (match r.op with
            | .arrive .. => s1.modCur fun x => { x with arrGen := tset x.arrGen e.toNat (w.extractLsb' 0 32) }
            | _ => s1).writeG d (.ofWord w) = .ok t →
          exec (.barrive d e) s = .next (t.advance 4)))) ∧
  (∀ (s : State) (d : GReg) (e : BitVec 8) (i : Nat) (g : Guidon), s.blocked [] [d] = false → s.named e 3 = .ok (i, g) → d ≠ 0 → d ≠ 30 → d ≠ 31 →
    let own := dieOf s.focus.plot = dieOf g.plot
    let now := if own then g.gen else tget 0 g.seen (dieOf s.focus.plot)
    let w := match s.cur.bwait with
      | some (f, n) => if f = e then n else tget now s.cur.arrGen e.toNat
      | none => tget now s.cur.arrGen e.toNat
    let ended := now ≠ w ∧ (own ∨ (now - w).toNat < 2 ^ 31)
    ((∀ n, s.cur.barAbort ≠ some (e, n)) →
      (ended → ∃ t, exec (.bwait d e) s = .next t ∧ t.cur.gReg s.focus.plot d = .ofWord (now.zeroExtend 64) ∧ t.cur.bwait = none ∧ (t.plotAt s.focus.plot).l1 = [] ∧
        t.cur.pc = (s.advance 4).cur.pc ∧ t.mem = s.mem) ∧
      (¬ ended → ∃ t, exec (.bwait d e) s = .next t ∧ t.cur.bwait = some (e, w) ∧ t.cur.pc = s.cur.pc ∧ t.mem = s.mem)) ∧
    (∀ n, s.cur.barAbort = some (e, n) → exec (.bwait d e) s = .next (((s.modCur fun x =>
      { x with bwait := none, barAbort := none, arrGen := tdel x.arrGen e.toNat }).trapNow ⟨0x29, n.zeroExtend 64, e.zeroExtend 64⟩).relend i)) ∧
    (∀ (x : Slot) (n : BitVec 32), (x.loseArrival e n).barAbort = (if x.bwait = some (e, n) then some (e, n) else x.barAbort) ∧
      (tfind x.arrGen e.toNat = some n → tget 0 (x.loseArrival e n).arrGen e.toNat = 0)))

/-- PRIO waits, changing nothing, until every packet that its slot has sent is accepted at its destination (R147). Then it completes: base becomes the larger of its class and the floor, which is no fault when the class is below the floor, eff is recomputed, it falls through, and no other field of its slot and no slot outside its instance changes; with no barrier waiter lending, eff becomes base. A SYSWR of a valid value to PRIOCUR, a read-only register, raises PERMISSION with the register number and changes nothing else. (R367.) -/
def Obligations.PrioInstruction : Prop :=
  (∀ (s : State) (c : BitVec 2), s.arrived s.focus.plot s.focus.slot = false → exec (.prio c) s = .next s) ∧
  (∀ (s : State) (c : BitVec 2), s.arrived s.focus.plot s.focus.slot = true →
    let base := if c < s.cur.prioFloor then s.cur.prioFloor else c
    let s1 := s.modCur fun x => { x with prioBase := base }
    (∀ i, (s.plotAt s.focus.plot).inst = some i → exec (.prio c) s = .next ((s1.relend i).advance 4)) ∧
    ((s.plotAt s.focus.plot).inst = none → exec (.prio c) s = .next (s1.advance 4)) ∧
    ∃ t, exec (.prio c) s = .next t ∧ t = { s with slots := t.slots } ∧
      t.cur = { (s.advance 4).cur with prioBase := base, prioEff := t.cur.prioEff } ∧
      (∀ i x n a, (s.plotAt s.focus.plot).inst = some i → tfind s.insts i = some x → (n, a) ∈ x.actors → actorKey a = 8 * s.focus.plot + s.focus.slot →
        t.cur.prioEff ≤ base ∧ ((∀ e ∈ x.actors, (tget Slot.init s.slots (actorKey e.2)).bwait = none) → t.cur.prioEff = base)) ∧
      (∀ i x k, (s.plotAt s.focus.plot).inst = some i → tfind s.insts i = some x → (∀ e ∈ x.actors, actorKey e.2 ≠ k) → k ≠ 8 * s.focus.plot + s.focus.slot →
        tget Slot.init t.slots k = tget Slot.init s.slots k)) ∧
  (∀ (s : State) (d : GReg) (v : Word), s.mayIssue [d] [] → s.reads [d] = [.ofWord v] → exec (.syswr d 0x031) s = .next (s.trapNow ⟨0x0A, 0x031, 0⟩))

/-- With valid operands, on a table entry of its own instance, TRIGBIND to a slot that holds an actor of the instance completes: that slot becomes the handler, the pending count moves to its credits, saturating, g[d] is written the former handler, 15 for none, and it falls through; TRIGDROP completes likewise, removing the handler. Nothing else changes. An invalid operand raises POISON_CONSUMED with its payload; an entry above 31 raises INDEX_RANGE with it, one that holds no trigger of the instance PERMISSION; a slot above 7 raises INDEX_RANGE with it, one without an actor of the instance PERMISSION. Of several invalid operands the first in order is reported (log 38). (R354, R355, R364, R368.) -/
def Obligations.TriggerInstructions : Prop :=
  (∀ (s : State) (x : Word) (g : Trigger), s.ownTrigger x = .ok g ↔
    x.toNat < 32 ∧ tfind (s.plotAt s.focus.plot).triggers x.toNat = some g ∧ (s.plotAt s.focus.plot).inst = some g.inst) ∧
  (∀ (s : State) (d a b : GReg) (u v : Val), s.mayIssue [a, b] [d] → s.reads [a, b] = [u, v] →
    let old (g : Trigger) : Val := .ofWord (match g.handler with
      | some k => k.zeroExtend 64
      | none => 15)
    (u.valid = false → exec (.trigbind d a b) s = .next (s.trapNow ⟨0x18, payloadOf u, 0⟩)) ∧
    (u.valid = true → v.valid = false → exec (.trigbind d a b) s = .next (s.trapNow ⟨0x18, payloadOf v, 0⟩)) ∧
    (u.valid = true → v.valid = true →
      (32 ≤ u.bits.toNat → exec (.trigbind d a b) s = .next (s.trapNow ⟨0x33, u.bits, 0⟩)) ∧
      (u.bits.toNat < 32 → (∀ g, s.ownTrigger u.bits ≠ .ok g) → exec (.trigbind d a b) s = .next (s.trapNow ⟨0x0A, u.bits, 0⟩)) ∧
      (∀ g, s.ownTrigger u.bits = .ok g →
        (8 ≤ v.bits.toNat → exec (.trigbind d a b) s = .next (s.trapNow ⟨0x33, v.bits, 0⟩)) ∧
        (v.bits.toNat < 8 → s.hasActor v.bits.toNat = false → exec (.trigbind d a b) s = .next (s.trapNow ⟨0x0A, v.bits, 0⟩)) ∧
        (v.bits.toNat < 8 → s.hasActor v.bits.toNat = true →
          let s1 := (s.afterReads [a, b]).modPlot s.focus.plot fun p =>
            { p with triggers := tset p.triggers u.bits.toNat { g with handler := some (v.bits.extractLsb' 0 3), pending := 0 } }
          let s2 := s1.modSlot s.focus.plot v.bits.toNat fun y => { y with credits := BitVec.ofNat 16 (min (y.credits.toNat + g.pending.toNat) 0xFFFF) }
          ∀ t, s2.writeG d (old g) = .ok t → exec (.trigbind d a b) s = .next (t.advance 4))))) ∧
  (∀ (s : State) (d a : GReg) (u : Val), s.mayIssue [a] [d] → s.reads [a] = [u] →
    (u.valid = false → exec (.trigdrop d a) s = .next (s.trapNow ⟨0x18, payloadOf u, 0⟩)) ∧
    (u.valid = true → 32 ≤ u.bits.toNat → exec (.trigdrop d a) s = .next (s.trapNow ⟨0x33, u.bits, 0⟩)) ∧
    (u.valid = true → u.bits.toNat < 32 → (∀ g, s.ownTrigger u.bits ≠ .ok g) → exec (.trigdrop d a) s = .next (s.trapNow ⟨0x0A, u.bits, 0⟩)) ∧
    (∀ g, u.valid = true → s.ownTrigger u.bits = .ok g →
      ∀ t, ((s.afterReads [a]).modPlot s.focus.plot fun p => { p with triggers := tset p.triggers u.bits.toNat { g with handler := none } }).writeG d
        (.ofWord (match g.handler with
          | some k => k.zeroExtend 64
          | none => 15)) = .ok t → exec (.trigdrop d a) s = .next (t.advance 4)))

/-- With a valid operand each of FREEZE, THAW, ARM and DISARM on an index that names no installed region of its instance writes 3. On one that does: FREEZE marks the region as frozen by program and writes 0; THAW of a lost region writes 4, of one under reload waits, and otherwise ends its program and trap freezes with the holds of its queued words but those whose trap is still to come, lets the regions of the instance go on, and writes 0; ARM of a frozen region writes 4, of one that is armed 0, waits while a DISARM is under way or a plot is still to wake, and otherwise arms it with its counts of drained words cleared, lets it go on, and writes 0; DISARM lets no more tokens start, waits while one has started and is not done, and then disarms the region, ends its ring membership and writes 0. Each falls through when it writes. An invalid operand raises POISON_CONSUMED. (R249, R250, R271, R364, R369.) -/
def Obligations.RegionInstructions : Prop :=
  (∀ (s : State) (d a : GReg) (v : Val), s.mayIssue [a] [d] → s.reads [a] = [v] → v.valid = false → ∀ j ∈ [Instr.freeze d a, .thaw d a, .arm d a, .disarm d a],
    exec j s = .next (s.trapNow ⟨0x18, payloadOf v, 0⟩)) ∧
  (∀ (s t : State) (d a : GReg) (v : Word), s.mayIssue [a] [d] → s.reads [a] = [.ofWord v] →
    (∀ i x, s.instAt s.focus.plot = some (i, x) → v.toNat < 256 → tfind s.regions (regionKey i v.toNat) = none) →
    (s.afterReads [a]).writeG d (.ofWord 3) = .ok t → ∀ j ∈ [Instr.freeze d a, .thaw d a, .arm d a, .disarm d a], exec j s = .next (t.advance 4)) ∧
  (∀ (s : State) (d a : GReg) (i : Nat) (x : Inst) (v : Word) (r : Region), s.mayIssue [a] [d] → s.reads [a] = [.ofWord v] →
    s.instAt s.focus.plot = some (i, x) → v.toNat < 256 → tfind s.regions (regionKey i v.toNat) = some r →
    let k := regionKey i v.toNat
    let s1 := s.afterReads [a]
    (∀ t, (s1.modRegion k fun r => { r with frozenProg := true }).writeG d (.ofWord 0) = .ok t → exec (.freeze d a) s = .next (t.advance 4)) ∧
    (∀ t, r.lost = true → s1.writeG d (.ofWord 4) = .ok t → exec (.thaw d a) s = .next (t.advance 4)) ∧
    (r.lost = false → r.frozenLoad = true → exec (.thaw d a) s = .next s) ∧
    (∀ t, r.lost = false → r.frozenLoad = false →
      ((s1.modRegion k fun r => { r with
          frozenProg := false, frozenTrap := false
          mq := r.mq.map fun x => { x with hold := x.hold && r.trapDue.any (·.word == x.word) } }).pumpInst
        (k / 256)).writeG d (.ofWord 0) = .ok t → exec (.thaw d a) s = .next (t.advance 4)) ∧
    (∀ t, s.regionFrozen k = true → s1.writeG d (.ofWord 4) = .ok t → exec (.arm d a) s = .next (t.advance 4)) ∧
    (∀ t, s.regionFrozen k = false → r.armed = true → r.disarming = [] → s1.writeG d (.ofWord 0) = .ok t → exec (.arm d a) s = .next (t.advance 4)) ∧
    (s.regionFrozen k = false → r.disarming ≠ [] ∨ (r.armed = false ∧ ∃ p ∈ r.plotIds, (s.plotAt p).awake = false) → exec (.arm d a) s = .next s) ∧
    (∀ t, s.regionFrozen k = false → r.armed = false → r.disarming = [] → (∀ p ∈ r.plotIds, (s.plotAt p).awake = true) →
      let s2 := s1.modRegion k fun r => { r with armed := true, errors := 0 }
      (State.pump { s2 with ports := tmap s2.ports fun key p => if r.plotIds.contains (key / 16) then { p with drained := 0, passed := 0 } else p } k).writeG d
        (.ofWord 0) = .ok t → exec (.arm d a) s = .next (t.advance 4)) ∧
    let me := 8 * s.focus.plot + s.focus.slot
    (r.running = true → exec (.disarm d a) s = .next (s.modRegion k fun r => { r with disarming := if me ∈ r.disarming then r.disarming else r.disarming ++ [me] })) ∧
    (∀ t, r.running = false →
      (((s.modRegion k fun r => { r with disarming := r.disarming }).afterReads [a]).modRegion k fun r => { r with armed := false, disarming := r.disarming.filter (· != me), member := none }).writeG d
        (.ofWord 0) = .ok t → exec (.disarm d a) s = .next (t.advance 4)))

/-- A VFP instruction that may issue, whose operands have well-formed floating-point tags equal in format and scale, runs the operation of its row on every lane: the one rounding of the exact sum, difference, product, fused product-sum, quotient, root, reciprocal, exponential, logarithm or scaled value, the smaller or larger, the magnitude or negation. A lane with an invalid operand takes the payload of the first one. If a lane sets a flag whose trap is enabled that trap is taken and nothing is written; else v[d] takes the lanes with the tag of the first operand, FPSTAT gains the flags, and nothing else changes but the pc. An a whose tag is no floating-point tag raises FORMAT_MISMATCH with that tag (stated for the rows of two sources). The value of an exponential or a logarithm is log 7's, sat with inexact log 54's. (R73, R283, R284, R285, R288, R289.) -/
def Obligations.VectorFloatResults : Prop :=
  (∀ (s : State) (d a b : VNum) (m : BitVec 3), s.mayIssueV [a, b] [] d →
    let x := s.vGet a
    let y := s.vGet b
    let f := tagFmt x.tag
    let r := fun n => roundLane f (resolveMode s.cur.fpctl m) (tagSat x.tag) n
    (vfpTag x.tag = true → vfpTag y.tag = true → tagEq y.tag x.tag = true → ∀ i op,
      (i, op) ∈ ([(.vadd d a b m, fun p q => r (addNum (resolveMode s.cur.fpctl m) (decodeFloat f p) (decodeFloat f q))),
        (.vsub d a b m, fun p q => r (addNum (resolveMode s.cur.fpctl m) (decodeFloat f p) (decodeFloat f q).negate)),
        (.vmul d a b m, fun p q => r (mulNum (decodeFloat f p) (decodeFloat f q))),
        (.vdiv d a b m, fun p q => divLane f (resolveMode s.cur.fpctl m) (tagSat x.tag) (decodeFloat f p) (decodeFloat f q)),
        (.vmin d a b m, fun p q => minMaxLane f false p q),
        (.vmax d a b m, fun p q => minMaxLane f true p q)] : List (Instr × (Nat → Nat → Lane × Flags))) →
      ∀ out, out = mapLanes (laneCount f) [lanes s.focus.plot f x, lanes s.focus.plot f y] (fun l => op (l.getD 0 0) (l.getD 1 0)) →
        exec i s = s.vecResult [] d (vregOfLanes x.tag (out.map (·.1))) (numbered out)) ∧
    (vfpTag x.tag = false → ∀ i ∈ [Instr.vadd d a b m, .vsub d a b m, .vmul d a b m, .vdiv d a b m, .vmin d a b m, .vmax d a b m],
      exec i s = .next (s.trapNow ⟨0x32, x.tag.zeroExtend 64, 0⟩))) ∧
  (∀ (s : State) (d a b : VNum) (m : BitVec 3), s.mayIssueV [a, b, d] [] d →
    let x := s.vGet a
    let f := tagFmt x.tag
    vfpTag x.tag = true → vfpTag (s.vGet b).tag = true → tagEq (s.vGet b).tag x.tag = true → vfpTag (s.vGet d).tag = true → tagEq (s.vGet d).tag x.tag = true →
      ∀ i neg, (i, neg) ∈ [(Instr.vfma d a b m, false), (.vfms d a b m, true)] →
      ∀ out, out = mapLanes (laneCount f) [lanes s.focus.plot f x, lanes s.focus.plot f (s.vGet b), lanes s.focus.plot f (s.vGet d)]
          (fmaLane f (resolveMode s.cur.fpctl m) (tagSat x.tag) neg) →
        exec i s = s.vecResult [] d (vregOfLanes x.tag (out.map (·.1))) (numbered out)) ∧
  (∀ (s : State) (d a : VNum) (m : BitVec 3), s.mayIssueV [a] [] d →
    let x := s.vGet a
    let f := tagFmt x.tag
    let mode := resolveMode s.cur.fpctl m
    vfpTag x.tag = true → ∀ i op,
      (i, op) ∈ ([(.vsqrt d a m, fun p => sqrtLane f mode (tagSat x.tag) (decodeFloat f p)),
        (.vrsq d a m, fun p => rsqLane f mode (tagSat x.tag) (decodeFloat f p)),
        (.vrcp d a m, fun p => divLane f mode (tagSat x.tag) (.fin false 1 0) (decodeFloat f p)),
        (.vexp2 d a m, fun p => exp2Lane f mode (tagSat x.tag) (decodeFloat f p)),
        (.vlog2 d a m, fun p => log2Lane f mode (tagSat x.tag) (decodeFloat f p)),
        (.vabs d a m, signLane f true), (.vneg d a m, signLane f false)] : List (Instr × (Nat → Lane × Flags))) →
      ∀ out, out = mapLanes (laneCount f) [lanes s.focus.plot f x] (fun l => op (l.getD 0 0)) →
        exec i s = s.vecResult [] d (vregOfLanes x.tag (out.map (·.1))) (numbered out)) ∧
  (∀ (s : State) (d a : VNum) (b : GReg) (m : BitVec 3) (g : Val), s.mayIssueV [a] [b] d → s.reads [b] = [g] → vfpTag (s.vGet a).tag = true →
    let x := s.vGet a
    let f := tagFmt x.tag
    (g.valid = true → ∀ out, out = mapLanes (laneCount f) [lanes s.focus.plot f x] (fun l =>
        roundLane f (resolveMode s.cur.fpctl m) (tagSat x.tag) ((decodeFloat f (l.getD 0 0)).scale (max (-4096) (min 4096 g.bits.toInt)), 0)) →
      exec (.vscale d a b m) s = s.vecResult [b] d (vregOfLanes x.tag (out.map (·.1))) (numbered out)) ∧
    (g.valid = false → exec (.vscale d a b m) s = .next (s.wroteV [b] d (vregOf x.tag (List.replicate 16 ⟨false, normPayload (g.bits.extractLsb' 0 32)⟩)) [])))

/-- A VINT instruction that may issue, whose operands have well-formed integer tags equal in format and scale (scale 0 for VIMUL; for a shift by a register, b any integer format of the lane width; for a bitwise one, equal formats), writes v[d] with the tag of a and, lane by lane, the sum, difference or product modulo the lane width, the smaller or larger value, or the shifted lane, with zero for a logical shift by the width or more and copies of the top bit for VSAR. Bitwise instructions work word by word. An invalid lane or word takes the payload of the first invalid operand, FPSTAT stays, and nothing else changes but the pc. (R73, R283, R284, R290.) -/
def Obligations.VectorIntegerResults : Prop :=
  (∀ (s : State) (d a b : VNum), s.mayIssueV [a, b] [] d →
    let x := s.vGet a
    let y := s.vGet b
    let f := tagFmt x.tag
    let w := fmtWidth f
    (intTag x.tag = true → intTag y.tag = true → tagEq x.tag y.tag = true → ∀ i op,
      (i, op) ∈ ([(.viadd d a b, fun p q => (p + q) % 2 ^ w), (.visub d a b, fun p q => (p + 2 ^ w - q) % 2 ^ w),
        (.vimin d a b, fun p q => if intValue f q < intValue f p then q else p),
        (.vimax d a b, fun p q => if intValue f p < intValue f q then q else p)] ++
        (if tagScale x.tag = 0 then [(.vimul d a b, fun p q => (p * q) % 2 ^ w)] else []) : List (Instr × (Nat → Nat → Nat))) →
      exec i s = .next (s.wroteV [] d (vregOfLanes x.tag ((mapLanes (laneCount f) [lanes s.focus.plot f x, lanes s.focus.plot f y] fun l =>
        (.ok (op (l.getD 0 0) (l.getD 1 0)), 0)).map (·.1))) [])) ∧
    (intTag x.tag = true → intTag y.tag = true → fmtWidth (tagFmt y.tag) = w → ∀ i op,
      (i, op) ∈ ([(.vshl d a b, fun p n => if n < w then p * 2 ^ n % 2 ^ w else 0), (.vshr d a b, fun p n => if n < w then p / 2 ^ n else 0),
        (.vsar d a b, fun p n => ((laneInt w p / 2 ^ min n (w - 1)) % 2 ^ w).toNat)] : List (Instr × (Nat → Nat → Nat))) →
      exec i s = .next (s.wroteV [] d (vregOfLanes x.tag ((mapLanes (laneCount f) [lanes s.focus.plot f x, lanes s.focus.plot (tagFmt y.tag) y] fun l =>
        (.ok (op (l.getD 0 0) (l.getD 1 0)), 0)).map (·.1))) [])) ∧
    (tagMalformed x.tag = false → tagMalformed y.tag = false → tagFmt x.tag = tagFmt y.tag → ∀ i op,
      (i, op) ∈ ([(.vand d a b, fun p q => p &&& q), (.vor d a b, fun p q => p ||| q), (.vxor d a b, fun p q => p ^^^ q)] :
        List (Instr × (BitVec 32 → BitVec 32 → BitVec 32))) →
      exec i s = .next (s.wroteV [] d (vregOf x.tag ((List.range 16).map fun m =>
        if x.ok.getLsbD m = false then ⟨false, wordPayload x m⟩ else if y.ok.getLsbD m = false then ⟨false, wordPayload y m⟩
        else ⟨true, op (x.bits.extractLsb' (32 * m) 32) (y.bits.extractLsb' (32 * m) 32)⟩)) []))) ∧
  (∀ (s : State) (d a : VNum) (n : BitVec 6), s.mayIssueV [a] [] d →
    let x := s.vGet a
    let f := tagFmt x.tag
    let w := fmtWidth f
    intTag x.tag = true → ∀ i op,
      (i, op) ∈ ([(.vshlImm d a n, fun p n => if n < w then p * 2 ^ n % 2 ^ w else 0), (.vshrImm d a n, fun p n => if n < w then p / 2 ^ n else 0),
        (.vsarImm d a n, fun p n => ((laneInt w p / 2 ^ min n (w - 1)) % 2 ^ w).toNat)] : List (Instr × (Nat → Nat → Nat))) →
      exec i s = .next (s.wroteV [] d (vregOfLanes x.tag ((mapLanes (laneCount f) [lanes s.focus.plot f x] fun l =>
        (.ok (op (l.getD 0 0) n.toNat), 0)).map (·.1))) []))

/-- In every register form, a register built from lanes has the tag given, and each of its lanes reads back: where no lane of the words it lies in is invalid it reads the value written, and where one is, the lane reads as invalid with the payload of the lowest such lane, since validity belongs to words. (R69, R71, R282, R284.) -/
def Obligations.VectorLanesReadBack : Prop :=
  ∀ (plot : Nat) (tag : BitVec 16) (l : List Lane) (i : Nat), tagMalformed tag = false → l.length = laneCount (tagFmt tag) → i < laneCount (tagFmt tag) →
    (∀ b, Lane.ok b ∈ l → b < 2 ^ fmtWidth (tagFmt tag)) →
    let w := fmtWidth (tagFmt tag)
    let per := if tagFmt tag = 11 then 5 else if w = 64 then 1 else 32 / w
    let part := (l.drop (per * (i / per))).take per
    (vregOfLanes tag l).tag = tag ∧
    (firstBad part = none → laneAt plot (tagFmt tag) (vregOfLanes tag l) i = l.getD i (.ok 0)) ∧
    (∀ p, firstBad part = some p → laneAt plot (tagFmt tag) (vregOfLanes tag l) i = .bad (normPayload p))

/-- With operands whose tags each instruction admits: VSUM, VHMAX and VHMIN give lane 0 the reduction, every other lane zero, a POISON word making lane 0 invalid and MASKED lanes absent; integers sum exactly and saturate, floats combine in the pairwise tree, a NaN alone as the canonical one. VCMP writes all-ones or zero lanes with the mask tag of the lane width. VSEL takes a where the old v[d] is not zero, else b. VVAL writes a mask of the valid lanes, or applies one word by word. VPERM takes the lane that b names, and a REASON 4 lane past the end; VBCAST copies one lane, INDEX_RANGE past the end; VSLIDE takes L lanes of a and b joined. Enabled flags trap in place of the result. The zero of a sum over MASKED lanes alone is log 42's, the lane that a trapped flag of a reduction names log 21's, the payload of a 64-bit lane log 41's. (R70, R74, R283, R291, R292, R293, R294, R295, R296.) -/
def Obligations.VectorLaneResults : Prop :=
  (∀ (s : State) (d a : VNum) (m : BitVec 3), s.mayIssueV [a] [] d → numTag (s.vGet a).tag = true →
    let x := s.vGet a
    let f := tagFmt x.tag
    let mode := resolveMode s.cur.fpctl m
    let rest := List.replicate (laneCount f - 1) (Lane.ok 0)
    (∀ p, poisonWord x = some p → ∀ i ∈ [Instr.vsum d a m, .vhmax d a, .vhmin d a],
      exec i s = .next (s.wroteV [] d (vregOfLanes x.tag (.bad p :: rest)) [])) ∧
    (poisonWord x = none → isFloat f = true → ∀ i comb, (i, comb) ∈ ([
        (.vsum d a m, fun p q => laneNat (roundLane f mode (tagSat x.tag) (addNum mode (decodeFloat f p) (decodeFloat f q)))),
        (.vhmax d a, fun p q => laneNat (minMaxLane f true p q)), (.vhmin d a, fun p q => laneNat (minMaxLane f false p q))] :
        List (Instr × (Nat → Nat → Nat × Flags))) →
      ∀ r, r = reduceTree comb (laneLevels f) (maskedLanes s.focus.plot f x) →
        ∀ q, q = quieted f (r.1.getD 0) → exec i s = s.vecResult [] d (vregOfLanes x.tag (.ok q.1 :: rest)) [(0, r.2 ||| q.2)]) ∧
    (∀ p, quieted f p = match decodeFloat f p with
      | .nan sg => if isFloat f then (canonNaN f, if sg then fInvalid else 0) else (p, 0)
      | _ => (p, 0)) ∧
    (poisonWord x = none → isFloat f = false →
      (∀ r, r = satInt f ((maskedLanes s.focus.plot f x).foldl (fun t o => match o with
          | some b => t + intValue f b
          | none => t) 0) →
        exec (.vsum d a m) s = s.vecResult [] d (vregOfLanes x.tag (.ok r.1 :: rest)) [(0, r.2)]) ∧
      ∀ i big, (i, big) ∈ [(Instr.vhmax d a, true), (.vhmin d a, false)] →
        ∀ r, r = reduceTree (hmComb big f (tagSat x.tag)) (laneLevels f) (maskedLanes s.focus.plot f x) →
          ∀ q, q = quieted f (r.1.getD 0) → exec i s = s.vecResult [] d (vregOfLanes x.tag (.ok q.1 :: rest)) [(0, r.2 ||| q.2)])) ∧
  (∀ (s : State) (d a b : VNum) (c : BitVec 3) (n : BitVec 6), s.mayIssueV [a, b] [] d →
    let x := s.vGet a
    let y := s.vGet b
    let m := s.vGet d
    let f := tagFmt x.tag
    let lx := lanes s.focus.plot f x
    let ly := lanes s.focus.plot f y
    let idx := lanes s.focus.plot (tagFmt y.tag) y
    (numTag x.tag = true → numTag y.tag = true → tagEq x.tag y.tag = true →
      ∀ out, out = mapLanes (laneCount f) [lx, ly] (fun l =>
          let r := cmpNum c.toNat (decodeNum f (l.getD 0 0)) (decodeNum f (l.getD 1 0))
          (.ok (if r.1 then 2 ^ fmtWidth f - 1 else 0), r.2)) →
        exec (.vcmp d a b c) s = s.vecResult [] d (vregOfLanes (fmtTag (maskFmt f)) (out.map (·.1))) (numbered out)) ∧
    (moveTag x.tag = true → moveTag y.tag = true → tagEq x.tag y.tag = true → maskTag f m.tag = true →
      exec (.vsel d a b) s = .next (s.wroteV [] d (vregOfLanes x.tag ((lanes s.focus.plot (tagFmt m.tag) m).zipIdx.map fun e => match e.1 with
        | .bad p => Lane.bad p
        | .ok v => if v ≠ 0 then lx.getD e.2 (.ok 0) else ly.getD e.2 (.ok 0))) [])) ∧
    (moveTag x.tag = true → maskTag f y.tag = true →
      exec (.vval d a b true) s = .next (s.wroteV [] d (vregOf x.tag ((List.range 16).map fun k =>
        if y.ok.getLsbD k = false then ⟨false, wordPayload y k⟩ else if vWord y k = 0 then ⟨false, payloadBits 0 s.focus.plot 0⟩
        else if x.ok.getLsbD k then ⟨true, x.bits.extractLsb' (32 * k) 32⟩ else ⟨false, wordPayload x k⟩)) []) ∧
      exec (.vperm d a b) s = .next (s.wroteV [] d (vregOfLanes x.tag (idx.map fun
        | .bad p => Lane.bad p
        | .ok j => lx.getD j (.bad (payloadBits 4 s.focus.plot 0)))) [])) ∧
    (moveTag x.tag = true → moveTag y.tag = true → tagEq x.tag y.tag = true →
      exec (.vslide d a b n) s = .next (s.wroteV [] d (vregOfLanes x.tag ((List.range (laneCount f)).map fun i => (lx ++ ly).getD (i + n.toNat) (.ok 0))) []))) ∧
  (∀ (s : State) (d a b : VNum) (j : BitVec 7), s.mayIssueV [a] [] d → moveTag (s.vGet a).tag = true →
    let x := s.vGet a
    let f := tagFmt x.tag
    exec (.vval d a b false) s = .next (s.wroteV [] d (vregOfLanes (fmtTag (maskFmt f)) ((lanes s.focus.plot f x).map fun
      | .ok _ => .ok (2 ^ fmtWidth f - 1)
      | .bad _ => .ok 0)) []) ∧
    (j.toNat < laneCount f →
      exec (.vbcast d a j) s = .next (s.wroteV [] d (vregOfLanes x.tag (List.replicate (laneCount f) (laneAt s.focus.plot f x j.toNat))) [])) ∧
    (laneCount f ≤ j.toNat → exec (.vbcast d a j) s = .next (s.trapNow ⟨0x33, j.zeroExtend 64, 0⟩)))

/-- With tags that the instruction admits and a part p below the ratio of the lane counts: where the source has no more lanes than the destination, its lanes are converted into part p of v[d], and words of v[d] that hold no converted lane stay as they are; where it has more, part p of the source is converted and fills v[d]. Each lane is the scaled value, times g[b] as FP32 for VQNT and VDQNT, divided by the scale of the destination and rounded once into its format; an invalid multiplier gives every lane its payload, and otherwise an invalid lane keeps its own. Flags trap by the lane number of the source. A part at or past the ratio raises INDEX_RANGE, a ratio that is no whole number up to 8 FORMAT_MISMATCH. That a saturated float result is inexact and an integer one not is the choice of log 54, and the tag in TVAL that of log 21. (R63, R283, R297, R298, R299.) -/
def Obligations.VectorConversions : Prop :=
  ∀ (s : State) (d a : VNum) (b : GReg) (p m : BitVec 3) (g : Val),
    let x := s.vGet a
    let y := s.vGet d
    let ls := laneCount (tagFmt x.tag)
    let ld := laneCount (tagFmt y.tag)
    let mode := resolveMode s.cur.fpctl m
    let sl := lanes s.focus.plot (tagFmt x.tag) x
    ∀ i gs src dst one, (i, gs, src, dst, one) ∈ ([
        (.vcvt d a p m, [], anyNumTag, anyNumTag, fun v => convertTo s.focus.plot mode y.tag (scaledNum x.tag v) 0),
        (.vqnt d a b p m, [b], vfpTag, anyNumTag, fun v => quantLane s.focus.plot mode [g] x.tag y.tag v),
        (.vdqnt d a b p m, [b], anyNumTag, vfpTag, fun v => quantLane s.focus.plot mode [g] x.tag y.tag v)] :
        List (Instr × List GReg × (BitVec 16 → Bool) × (BitVec 16 → Bool) × (Nat → Lane × Flags))) →
      s.mayIssueV [a] gs d → (gs = [b] → s.reads [b] = [g]) → src x.tag = true → dst y.tag = true →
      let conv := fun k => if gs ≠ [] ∧ g.valid = false then (Lane.bad (normPayload (g.bits.extractLsb' 0 32)), (0 : Flags))
        else mapLane [sl.getD k (.ok 0)] fun l => one (l.getD 0 0)
      (max ls ld % min ls ld ≠ 0 ∨ 8 < max ls ld / min ls ld → exec i s = .next (s.trapNow ⟨0x32, x.tag.zeroExtend 64, 0⟩)) ∧
      (max ls ld % min ls ld = 0 → max ls ld / min ls ld ≤ 8 →
        (max ls ld / min ls ld ≤ p.toNat → exec i s = .next (s.trapNow ⟨0x33, p.zeroExtend 64, 0⟩)) ∧
        (p.toNat < max ls ld / min ls ld → ls ≤ ld → ∀ out, out = (List.range ls).map conv →
          exec i s = s.vecResult gs d (mergeWords s.focus.plot y.tag y ((List.range ld).map fun k =>
            if p.toNat * ls ≤ k ∧ k < (p.toNat + 1) * ls then (out[k - p.toNat * ls]?).map (·.1) else none)) (numbered out)) ∧
        (p.toNat < max ls ld / min ls ld → ld < ls → ∀ out, out = (List.range ld).map (fun k => (p.toNat * ld + k, conv (p.toNat * ld + k))) →
          exec i s = s.vecResult gs d (vregOfLanes y.tag (out.map (·.2.1))) (out.map fun e => (e.1, e.2.2))))

/-- VTAG gives v[d] the tag g[a][15:0], leaving its words, and raises FORMAT_MISMATCH where g[a][63:16] is not zero or the tag is malformed and POISON_CONSUMED where g[a] is invalid; VTAGRD writes g[d] the tag. VPACK moves the c lanes of a that the mask selects to the front, with zeros from lane c to the end of its word and MASKED words after; VUNPK spreads lanes of a over the lanes of v[d] that the mask selects, with the tag of a; an invalid word of the mask makes every word of the result invalid with the payload of the lowest. VMOV copies a register whole. VEXT writes g[d] lane i, sign-extended for signed integer formats, or its payload; VINS writes lane i, which then reads back (stated but for LG6, whose word may hold reserved bits). VZERO gives a format tag and sixteen valid zero words. Choices of the model: zeros of VPACK where c begins a word (log 20), TVAL of a malformed tag (log 21), VEXT and VINS of a malformed tag (log 22), the spare bits of an LG6 word (log 58). (R300, R301, R302.) -/
def Obligations.VectorMovesAndTags : Prop :=
  (∀ (s : State) (d : VNum) (a : GReg) (j : BitVec 7) (g : Val), s.mayIssueV [] [a] d → s.reads [a] = [g] →
    (g.valid = true → g.bits.extractLsb' 16 48 = 0 → tagMalformed (g.bits.extractLsb' 0 16) = false →
      exec (.vtag d a) s = .next (s.wroteV [a] d { s.vGet d with tag := g.bits.extractLsb' 0 16 } [])) ∧
    (g.valid = true → g.bits.extractLsb' 16 48 ≠ 0 ∨ tagMalformed (g.bits.extractLsb' 0 16) = true →
      exec (.vtag d a) s = .next (s.trapNow ⟨0x32, (g.bits.extractLsb' 0 16).zeroExtend 64, 0⟩)) ∧
    (g.valid = false → exec (.vtag d a) s = .next (s.trapNow ⟨0x18, payloadOf g, 0⟩)) ∧
    (tagMalformed (s.vGet d).tag = false → j.toNat < laneCount (tagFmt (s.vGet d).tag) → ∃ v, exec (.vins d a j) s = .next (s.wroteV [a] d v []) ∧
      v.tag = (s.vGet d).tag ∧
      (g.valid = true → tagFmt (s.vGet d).tag ≠ 11 → laneAt s.focus.plot (tagFmt (s.vGet d).tag) v j.toNat = .ok (g.bits.toNat % 2 ^ fmtWidth (tagFmt (s.vGet d).tag))) ∧
      (g.valid = false → laneAt s.focus.plot (tagFmt (s.vGet d).tag) v j.toNat = .bad (normPayload (g.bits.extractLsb' 0 32)))) ∧
    (tagMalformed (s.vGet d).tag = false → laneCount (tagFmt (s.vGet d).tag) ≤ j.toNat → exec (.vins d a j) s = .next (s.trapNow ⟨0x33, j.zeroExtend 64, 0⟩))) ∧
  (∀ (s t : State) (d : GReg) (a : VNum), s.mayIssue [] [d] → s.blockedV [a] = false → s.badReg [(4, a.zeroExtend 5)] = none →
    s.writeG d (.ofWord ((s.vGet a).tag.zeroExtend 64)) = .ok t → exec (.vtagrd d a) s = .next (t.advance 4)) ∧
  (∀ (s t : State) (d : GReg) (a : VNum) (j : BitVec 7), s.mayIssue [] [d] → s.blockedV [a] = false →
    s.badReg [(2, a.zeroExtend 5), (4, a.zeroExtend 5)] = none → tagMalformed (s.vGet a).tag = false →
    let f := tagFmt (s.vGet a).tag
    (j.toNat < laneCount f → s.writeG d (match laneAt s.focus.plot f (s.vGet a) j.toNat with
        | .bad p => ⟨false, p.zeroExtend 64⟩
        | .ok b => .ofWord (if f = 7 ∨ f = 8 ∨ f = 9 ∨ f = 10 then BitVec.ofInt 64 (intValue f b) else BitVec.ofNat 64 b)) = .ok t →
      exec (.vext d a j) s = .next (t.advance 4)) ∧
    (laneCount f ≤ j.toNat → exec (.vext d a j) s = .next (s.trapNow ⟨0x33, j.zeroExtend 64, 0⟩))) ∧
  (∀ (s : State) (d a b : VNum), s.mayIssueV [a, b] [] d → moveTag (s.vGet a).tag = true →
    let x := s.vGet a
    let y := s.vGet b
    let f := tagFmt x.tag
    let lm := lanes s.focus.plot (maskFmt f) y
    let lx := lanes s.focus.plot f x
    tagMalformed y.tag = false → tagEq y.tag (fmtTag (maskFmt f)) = true →
      (∀ p, badMask y = some p → exec (.vpack d a b) s = .next (s.wroteV [] d (vregOf x.tag (List.replicate 16 ⟨false, p⟩)) [])) ∧
      (badMask y = none →
        let sel := ((lm.zip lx).filter fun e => match e.1 with
          | .ok v => v != 0
          | .bad _ => false).map (·.2)
        let k := if fmtWidth f = 64 then 1 else 32 / fmtWidth f
        let zeros := if sel.length = laneCount f then 0 else k - sel.length % k
        exec (.vpack d a b) s = .next (s.wroteV [] d (vregOfLanes x.tag (sel ++ List.replicate zeros (.ok 0) ++
          List.replicate (laneCount f - sel.length - zeros) (.bad (payloadBits 0 s.focus.plot 0)))) [])) ∧
      (tagEq (s.vGet d).tag x.tag = true → tagMalformed (s.vGet d).tag = false →
        (∀ p, badMask y = some p → exec (.vunpk d a b) s = .next (s.wroteV [] d (vregOf x.tag (List.replicate 16 ⟨false, p⟩)) [])) ∧
        (badMask y = none → exec (.vunpk d a b) s = .next (s.wroteV [] d (mergeWords s.focus.plot x.tag (s.vGet d) (unpackLanes lm lx)) [])))) ∧
  (∀ (s : State) (d a : VNum) (fmt : BitVec 4), (s.mayIssueV [a] [] d → exec (.vmov d a) s = .next (s.wroteV [] d (s.vGet a) [])) ∧
    (s.mayIssueV [] [] d → exec (.vzero d fmt) s = .next (s.wroteV [] d ⟨fmt.zeroExtend 16, 0xFFFF, 0⟩ [])))

/-- NOP only falls through. ERET in a handler goes to TEPC, clears TCAUSE[8] and restarts the FIREWD time, outside it raises PERMISSION. SYSRD writes g[d] the register of its number, each number of the table (an address register with its validity, the item that FXSEL selects for FXDAT), and falls through; a number that the table does not have raises PERMISSION with it. SYSWR writes a writable register with the bits that take a value, an address register whole with its validity, and falls through; an invalid value raises POISON_CONSUMED but for an address register, whatever the number; a valid one for any other number PERMISSION. TCINV drops the translations of its address space, of one page, or all, and falls through; ICINV empties the instruction cache and falls through. IDLE falls through and lets its slot wait min(g[a], 65535) clk unless nothing is to wait for. SAVEC and RESTC raise PERMISSION in a firing; in service mode SAVEC saves a halted plot that is not saved yet, RESTC restores one not restored yet whose context has a matching header and otherwise ends the launch as ABORTED; with nothing to save or restore, or the bus of the context area under retraining (R139), they change nothing. A decode or fetch fault is trapped at its instruction. What FXDAT reads on a plot in no region is log 49's. (R45, R47, R389, R392, R394, R396, R399, R400, R401, R402, R403, R404.) -/
def Obligations.SystemInstructions : Prop :=
  (∀ s : State, exec .nop s = .next (s.advance 4)) ∧
  (∀ s : State, (s.cur.ih = false → exec .eret s = .next (s.trapNow ⟨0x0A, 0, 0⟩)) ∧
    (s.cur.ih = true → let t := s.modCur fun x => { x with pc := x.tepc, tcause := x.tcause &&& ~~~0x100#64, fstart := s.clock, wdFired := false }
      exec .eret s = .next t ∧ t.cur.ih = false)) ∧
  (∀ (s t : State) (d : GReg) (num : BitVec 12) (v : Val), s.mayIssue [] [d] →
    ((0x010 ≤ num.toNat ∧ num.toNat ≤ 0x017 ∧ s.badReg [(1, (num - 0x010).setWidth 5)] = none ∧ v = s.cur.aReg s.focus.plot (num.toNat - 0x010)) ∨
      (num = 0x061 ∧ ∃ w, s.fxdat = .ok w ∧ v = .ofWord w) ∨
      (num, v) ∈ [(0x000, .ofWord (BitVec.ofNat 64 ((match s.regionOf s.focus.plot with
          | some (_, r) => r.index
          | none => 0xFF) * 8192 + s.focus.plot))),
        (0x001, .ofWord (BitVec.ofNat 64 (((s.plotAt s.focus.plot).inst.getD 0) % 65536 * 65536 + (match s.cur.actor with
          | some (_, a) => a
          | none => 0) * 256 + s.focus.slot))),
        (0x002, .ofWord s.caps), (0x003, .ofWord (s.dieSig (dieOf s.focus.plot))),
        (0x004, .ofWord (BitVec.ofNat 64 (s.removedMask.toNat * 256 + s.rebase.toNat))), (0x005, .ofWord (BitVec.ofNat 64 s.clock)),
        (0x020, .ofWord s.cur.fpctl), (0x021, .ofWord s.cur.fpstat),
        (0x030, .ofWord s.cur.mqdst), (0x031, .ofWord s.cur.priocur), (0x032, .ofWord s.cur.firewd), (0x033, .ofWord s.cur.barwd),
        (0x040, .ofWord (s.cur.cntld.zeroExtend 64)), (0x041, .ofWord (s.cur.cntst.zeroExtend 64)), (0x042, .ofWord (s.cur.cntcp.zeroExtend 64)),
        (0x043, .ofWord (s.cur.cnttl.zeroExtend 64)), (0x044, .ofWord s.cur.vprog), (0x050, .ofWord s.cur.tcause), (0x051, .ofWord s.cur.tepc),
        (0x052, .ofWord s.cur.tval), (0x053, .ofWord s.cur.tinfo), (0x054, .ofWord s.cur.tvec), (0x060, .ofWord s.cur.fxsel)]) →
    s.writeG d v = .ok t → exec (.sysrd d num) s = .next (t.advance 4)) ∧
  (∀ (s : State) (d : GReg), s.mayIssue [] [d] → ∀ tr, s.fxdat = .error tr → exec (.sysrd d 0x061) s = .next (s.trapNow tr)) ∧
  (∀ (s : State) (d : GReg) (num : BitVec 12), s.mayIssue [] [d] →
    num ∉ [(0x000 : BitVec 12), 0x001, 0x002, 0x003, 0x004, 0x005, 0x010, 0x011, 0x012, 0x013, 0x014, 0x015, 0x016, 0x017, 0x020, 0x021, 0x030, 0x031, 0x032,
      0x033, 0x040, 0x041, 0x042, 0x043, 0x044, 0x050, 0x051, 0x052, 0x053, 0x054, 0x060, 0x061] → exec (.sysrd d num) s = .next (s.trapNow ⟨0x0A, num.zeroExtend 64, 0⟩)) ∧
  (∀ (s : State) (d : GReg) (w : Word), s.mayIssue [d] [] → s.reads [d] = [.ofWord w] → ∀ num f,
    (num, f) ∈ ([(0x020, fun x => { x with fpctl := w &&& 0x1F7 }), (0x021, fun x => { x with fpstat := w &&& 0x3F }), (0x030, fun x => { x with mqdst := w }),
      (0x032, fun x => { x with firewd := w }), (0x033, fun x => { x with barwd := w }), (0x051, fun x => { x with tepc := w &&& 0xFFFFFFFFFFFFFFFC }),
      (0x054, fun x => { x with tvec := w &&& 0xFFFFFFFFFFFFFFFC }), (0x060, fun x => { x with fxsel := w })] : List (BitVec 12 × (Slot → Slot))) →
    exec (.syswr d num) s = .next (((s.afterReads [d]).modCur f).advance 4)) ∧
  (∀ (s : State) (d : GReg) (num : BitVec 12) (v : Val), s.mayIssue [d] [] → s.reads [d] = [v] →
    (0x010 ≤ num.toNat → num.toNat ≤ 0x017 → exec (.syswr d num) s = .next (((s.afterReads [d]).modCur fun x =>
      { x.mend 1 (BitVec.ofNat 5 (num.toNat - 0x010)) with a := tset x.a (num.toNat - 0x010) v }).advance 4)) ∧
    (v.valid = false → ¬ (0x010 ≤ num.toNat ∧ num.toNat ≤ 0x017) → exec (.syswr d num) s = .next (s.trapNow ⟨0x18, payloadOf v, 0⟩)) ∧
    (v.valid = true → num ∉ [(0x010 : BitVec 12), 0x011, 0x012, 0x013, 0x014, 0x015, 0x016, 0x017, 0x020, 0x021, 0x030, 0x032, 0x033, 0x051, 0x054, 0x060] →
      exec (.syswr d num) s = .next (s.trapNow ⟨0x0A, num.zeroExtend 64, 0⟩))) ∧
  (∀ (s : State) (a : GReg) (k : BitVec 2) (w : Word), let srcs := if k = 1 then [a] else []
    s.mayIssue srcs [] → (k = 1 → s.reads [a] = [.ofWord w]) →
    exec (.tcinv a k) s = .next (((s.afterReads srcs).modPlot s.focus.plot fun p => { p with tlb := p.tlb.filter fun e =>
      if k = 0 then e.glob || e.asid != p.asid else if k = 1 then (!(e.hits p.asid (vaNat w))) else false }).advance 4)) ∧
  (∀ (s : State) (a : GReg) (v : Val), s.mayIssue [a] [] → s.reads [a] = [v] → v.valid = false →
    exec (.tcinv a 1) s = .next (s.trapNow ⟨0x18, payloadOf v, 0⟩) ∧ exec (.idle a) s = .next (s.trapNow ⟨0x18, payloadOf v, 0⟩)) ∧
  (∀ s : State, exec .icinv s = .next ((s.modPlot s.focus.plot fun p => { p with icache := [] }).advance 4)) ∧
  (∀ (s : State) (a : GReg) (w : Word), s.mayIssue [a] [] → s.reads [a] = [.ofWord w] → let s1 := s.afterReads [a]
    exec (.idle a) s = .next ((s1.modCur fun x => { x with idleEnd :=
      (if w = 0 ∨ s1.cur.pend ≠ [] ∨ s1.flits s.focus.plot s.focus.slot ≠ [] then none else some (s.clock + min w.toNat 65535)) }).advance 4)) ∧
  (∀ (s : State) (a : GReg), ((s.plotAt s.focus.plot).service = false → exec (.savec a) s = .next (s.trapNow ⟨0x0A, 0, 0⟩) ∧ exec (.restc a) s = .next (s.trapNow ⟨0x0A, 0, 0⟩)) ∧
    ((s.plotAt s.focus.plot).service = true → s.instAt s.focus.plot = none → exec (.savec a) s = .next s ∧ exec (.restc a) s = .next s) ∧
    ((s.plotAt s.focus.plot).service = true → ∀ i x, s.instAt s.focus.plot = some (i, x) →
      let held := s.busHeldAt (((tfind x.areas s.focus.plot).map (·.1)).getD 0)
      (x.saved = .halting → (∀ c ∈ x.ctx, c.plot ≠ s.focus.plot) → held = false → exec (.savec a) s = .next (s.savePlot i x s.focus.plot)) ∧
      (x.saved ≠ .halting ∨ (∃ c ∈ x.ctx, c.plot = s.focus.plot) ∨ held = true → exec (.savec a) s = .next s) ∧
      (x.saved ≠ .restoring ∨ (∀ c ∈ x.ctx, c.plot = s.focus.plot → c.restored = true) → exec (.restc a) s = .next s) ∧
      (x.saved = .restoring → ∀ c, x.ctx.find? (fun c => c.plot == s.focus.plot && !c.restored) = some c →
        (s.busHeldAt c.area = true → exec (.restc a) s = .next s) ∧
        (s.busHeldAt c.area = false → s.ctxOk i c = true → exec (.restc a) s = .next (s.restorePlot i s.focus.plot c)) ∧
        (s.busHeldAt c.area = false → s.ctxOk i c = false → exec (.restc a) s = .next ((s.endLaunch i 4).modInst i fun x => { x with saved := .saved }))))) ∧
  (∀ (s : State) (ill strad : Bool) (bit : BitVec 5) (w : BitVec 32) (c : BitVec 8) (va : Word),
    exec (.decodeFault ill bit w) s = .next (s.trapNow ⟨if ill then 0x01 else 0x02, w.zeroExtend 64, bit.zeroExtend 64⟩) ∧
    exec (.fetchFault c va strad) s = .next (s.trapNow ⟨c, va, if strad then 0x200000000 else 0⟩))

/-- SQSET replaces 32-bit word k of q[q] by g[a][31:0], under the mask g[b][31:0] unless b is g0, and falls through; the other words and q registers stay. SQISS: every word that decodes has a header; one with a bad encoding raises STREAM_WORD_ILLEGAL with its high half and the offending bit; with 16 words in the queue of its plot it waits; else the word joins the queue with the next ticket (1 after 0xFFFF), holding the accesses of its class issued before it, and with await the line of its arc; CNTTL counts it if it is a matrix word and CNTCP otherwise, g[d] is written the ticket and it falls through. SQWAIT waits while the slot has a word with that ticket, or any for g0, and then falls through. CONFIG with no instance raises PERMISSION; it waits while earlier accesses or flits of its slot are out or another slot of the instance loads; it raises ALIGNMENT for an address that is no multiple of 64, waits for what its reads wait for, raises what a read of the container or a check of it finds, with the record index in TINFO, writes 1 and changes no region when one it names is busy, and otherwise begins to load, logging an adaptation; each later issue of it writes one region of the variant that is not installed already, and when none is left it writes 0 and falls through. Each raises POISON_CONSUMED for an invalid operand and waits for its registers. Choices of the model: the container read at once and its TVAL and TINFO (log 46), which records break R242 (log 47), reserved bits of MQDST (log 53), an undefined SOP (log 56), a header that breaks R240 (log 105). (R43, R202, R204, R205, R206, R236, R246, R248.) -/
def Obligations.StreamIssueInstructions : Prop :=
  (∀ (s : State) (q : QNum) (a b : GReg) (k : BitVec 2),
    let srcs := if b = 0 then [a] else [a, b]
    (s.blockedQ [q] = true → exec (.sqset q a b k) s = .next s) ∧
    (s.blockedQ [q] = false → s.mayIssue srcs [] →
      (∀ v, (s.reads srcs).find? (fun v => !v.valid) = some v → exec (.sqset q a b k) s = .next (s.trapNow ⟨0x18, payloadOf v, 0⟩)) ∧
      (∀ x m : Word, (b = 0 → s.reads srcs = [.ofWord x] ∧ m = 0xFFFFFFFF) → (b ≠ 0 → s.reads srcs = [.ofWord x, .ofWord m]) →
        ∃ w, exec (.sqset q a b k) s = .next (((s.afterReads srcs).qSet q w).advance 4) ∧
          ∀ j : Nat, j < 4 → w.extractLsb' (32 * j) 32 = if j = k.toNat
            then ((s.cur.qReg q).extractLsb' (32 * j) 32 &&& ~~~(m.extractLsb' 0 32)) ||| (x.extractLsb' 0 32 &&& m.extractLsb' 0 32)
            else (s.cur.qReg q).extractLsb' (32 * j) 32))) ∧
  (∀ (w : BitVec 128) (i : Instr), decodeSw w = .ok i → ∃ h, wordHdr i = some h) ∧
  (∀ (s : State) (d : GReg) (q : QNum),
    let w := s.cur.qReg q
    (s.blockedQ [q] = true → exec (.sqiss d q) s = .next s) ∧
    (s.blockedQ [q] = false → ∀ tr, s.badReg [(3, q.zeroExtend 5)] = some tr → exec (.sqiss d q) s = .next (s.trapNow tr)) ∧
    (s.blockedQ [q] = false → s.badReg [(3, q.zeroExtend 5)] = none → s.mayIssue [] [d] →
      (∀ bit, decodeSw w = .error bit → exec (.sqiss d q) s = .next (s.trapNow ⟨0x30, w.extractLsb' 64 64, BitVec.ofNat 64 bit⟩)) ∧
      (∀ i h, decodeSw w = .ok i → wordHdr i = some h →
        (16 ≤ (s.plotAt s.focus.plot).queue.length → exec (.sqiss d q) s = .next s) ∧
        ((s.plotAt s.focus.plot).queue.length < 16 →
          let k := if s.cur.ticket = 0xFFFF then 1 else s.cur.ticket + 1
          let s0 := { s with nextId := s.nextId + 1, words := s.words ++ [(s.nextId, (⟨s.focus.plot, s.focus.slot, k, i, .queued,
            s.classIds s.focus.plot s.focus.slot h.oc, [], 0, [], false, tget 0 s.cur.qsrc q.toNat, 0, false, []⟩ : SWord))] }
          let s1 := if h.await then s0.joinArc s.focus.plot h.arc (8 + s.nextId) else s0
          let s2 := (s1.modPlot s.focus.plot fun x => { x with queue := x.queue ++ [s.nextId] }).modCur fun x =>
            { x with ticket := k, cnttl := x.cnttl + (if isTileWord i then 1 else 0), cntcp := x.cntcp + (if isTileWord i then 0 else 1) }
          ∀ t, s2.writeG d (.ofWord (k.zeroExtend 64)) = .ok t → exec (.sqiss d q) s = .next (t.advance 4))))) ∧
  (∀ (s : State) (a : GReg) (v : Val), s.mayIssue [a] [] → s.reads [a] = [v] →
    let mine := fun e : Nat × SWord => e.2.plot = s.focus.plot ∧ e.2.slot = s.focus.slot ∧ (a = 0 ∨ e.2.ticket.toNat = v.bits.toNat)
    (v.valid = false → exec (.sqwait a) s = .next (s.trapNow ⟨0x18, payloadOf v, 0⟩)) ∧
    (v.valid = true → (∃ e ∈ s.words, mine e) → exec (.sqwait a) s = .next s) ∧
    (v.valid = true → (∀ e ∈ s.words, ¬ mine e) → exec (.sqwait a) s = .next ((s.afterReads [a]).advance 4))) ∧
  (∀ (s : State) (d a : GReg), s.instAt s.focus.plot = none → exec (.config d a) s = .next (s.trapNow ⟨0x0A, 0, 0⟩)) ∧
  (∀ (s : State) (d a : GReg) (i : Nat) (x : Inst), s.instAt s.focus.plot = some (i, x) →
    let p := s.focus.plot
    let k := s.focus.slot
    let ended (u : State) : State := ((u.modCur fun y => { y with loading := none }).afterReads [a]).flushL1 p
    (∀ l, s.cur.loading = some l →
      (∀ vr r, s.loadingVariant x l = some vr → vr.regions.find? (fun r => !s.sameRegion i r) = some r → exec (.config d a) s = .next (s.writeRegion i vr r)) ∧
      ((∀ vr, s.loadingVariant x l = some vr → vr.regions.find? (fun r => !s.sameRegion i r) = none) →
        ∀ t, (ended s).writeG d (.ofWord 0) = .ok t → exec (.config d a) s = .next (t.advance 4))) ∧
    (s.cur.loading = none → s.blocked [a] [d] = true ∨ s.slotSettled p k = false ∨ s.loaderTaken i p k = true → exec (.config d a) s = .next s) ∧
    (∀ v, s.cur.loading = none → s.mayIssue [a] [d] → s.slotSettled p k = true → s.loaderTaken i p k = false → s.reads [a] = [v] →
      (v.valid = false → exec (.config d a) s = .next (s.trapNow ⟨0x18, payloadOf v, 0⟩)) ∧
      (v.valid = true → v.bits.toNat % 64 ≠ 0 → exec (.config d a) s = .next (s.trapNow ⟨0x0B, v.bits, 0x1000000⟩)) ∧
      (v.valid = true → v.bits.toNat % 64 = 0 →
        (∀ s1, s.readContainer p k v.bits = .wait s1 → exec (.config d a) s = .next s1) ∧
        (∀ c n s1, s.readContainer p k v.bits = .bad c n s1 → exec (.config d a) s = .next (s1.trapNow ⟨c, v.bits, 0x1000000 ||| faultInfo n⟩)) ∧
        (∀ qs s1, s.readContainer p k v.bits = .done qs s1 →
          (∀ c n, s1.loaderChecks i x qs = .error (c, n) → exec (.config d a) s = .next (s1.trapNow ⟨c, v.bits, BitVec.ofNat 64 (0x1000000 + n % 65536)⟩)) ∧
          (∀ vr adapt c, s1.loaderChecks i x qs = .ok (vr, adapt, c) →
            (s1.configBusy i vr = true → ∀ t, (ended s1).writeG d (.ofWord 1) = .ok t → exec (.config d a) s = .next (t.advance 4)) ∧
            (s1.configBusy i vr = false → exec (.config d a) s =
              .next ((if adapt then s1.logRec 0x03 c.id.toNat vr.idx else s1).modCur fun y => { y with loading := some (qs, vr.idx, adapt) })))))))

/-- Each waits for its registers and its earlier accesses of class 7, and raises POISON_CONSUMED for an invalid operand; PNDEF raises ALIGNMENT for a descriptor that is not 8-byte aligned, waits for its reads, raises their fault, and POISON_CONSUMED for an invalid word. When the name lies at a home on another die the request leaves for it; one that is outstanding waits for its answer, and completes with it, the stamp of another die merged and the L1 of its plot emptied. At a home on its own die, with no request out: PNQ writes g[d] the field asked for, all ones for a name not in view. A name not in view answers 2. PNREL answers 5 when not attached, else 0 and the generation grows by one. PNDET answers 5 likewise, else 0 and ends the attachment. PNDROP raises LIFETIME when another slot is attached, joins the line of a pennant that others wait for or that moves, and otherwise removes the pennant and answers 0. PNATT joins that line too, answers the address of byte 0 and attaches to a resident pennant, or 3 with 255 attachers; an evicted one raises ATTACH_MISS, with TINFO 1 if its fill does not fit here, unless it may fill, when the fill begins. PNDEF raises LIFETIME for a reserved lifetime and answers 0 with a new resident pennant, or another status that changes none. Every one that answers falls through. That a name of the session's own hides a HELD one, and the order of service, is log 48's choice. (R116, R158, R159, R160, R165, R166, R167, R168, R169, R170, R171, R172.) -/
def Obligations.PennantInstructions : Prop :=
  (∀ (s : State) (d a : GReg) (j : Instr) (v : Val), tfind s.pnreqs (8 * s.focus.plot + s.focus.slot) = none →
    j ∈ [Instr.pndef d a, .pnatt d a true, .pnatt d a false, .pndet d a, .pndrop d a, .pnrel d a] ∨ (∃ n, j = .pnq d a n) →
    (s.blocked [a] [d] = true ∨ s.allReleased 7 = false → exec j s = .next s) ∧
    (s.mayIssue [a] [d] → s.allReleased 7 = true → s.reads [a] = [v] → v.valid = false → exec j s = .next (s.trapNow ⟨0x18, payloadOf v, 0⟩))) ∧
  (∀ (s : State) (d a : GReg) (j : Instr) (r : PnReq), let key := 8 * s.focus.plot + s.focus.slot
    j ∈ [Instr.pndef d a, .pnatt d a true, .pnatt d a false, .pndet d a, .pndrop d a, .pnrel d a] ∨ (∃ n, j = .pnq d a n) →
    (∃ q, tfind s.pnreqs key = some q) → tfind (s.pnPerform key).pnreqs key = some r → (s.pnPerform key).focus = s.focus →
    let s1 := { s.pnPerform key with pnreqs := tdel (s.pnPerform key).pnreqs key }
    let s2 := if (s.pnPerform key).nameHome r.name / 128 = dieOf s.focus.plot then s1 else (s1.mergeDv (dieOf s.focus.plot) r.stamp).flushL1 s.focus.plot
    (r.answer = none → exec j s = .next (s.pnPerform key)) ∧
    (∀ tr, r.answer = some (.trap tr) → exec j s = .next (s2.trapNow tr)) ∧
    (∀ w acq t, r.answer = some (.value w acq) → ((if acq then s2.flushL1 s.focus.plot else s2).afterReads [a]).writeG d (.ofWord w) = .ok t →
      exec j s = .next (t.advance 4))) ∧
  (∀ (s : State) (d a : GReg) (name : Word), s.pnClear d a name →
    let key := 8 * s.focus.plot + s.focus.slot
    let seen := s.visible (s.sessOf s.focus.plot) name
    let me := s.attKey key
    let who := pnWaiter key
    let s1 := { s with nextId := s.nextId + 1 }
    let out (op : PnOp) : State := { s1 with pnreqs := tset s.pnreqs key ⟨op, name, s.nextId, true, false, none, [], s.rebase⟩ }
    let ends (j : Instr) (u : State) (w : Word) : Prop := ∀ t, (u.afterReads [a]).writeG d (.ofWord w) = .ok t → exec j s = .next (t.advance 4)
    (∀ j op, (j, op) ∈ [(Instr.pnatt d a true, PnOp.attach true), (.pnatt d a false, .attach false), (.pndet d a, .detach), (.pndrop d a, .drop), (.pnrel d a, .release)] ∨
        (∃ n, j = .pnq d a n ∧ op = .query n) →
      (s.pnReady op name = false → exec j s = .next s) ∧
      (s.pnReady op name = true → s.nameHome name / 128 ≠ dieOf s.focus.plot → exec j s = .next (s.askHome op name (s.nameHome name / 128)))) ∧
    (s.nameHome name / 128 = dieOf s.focus.plot →
      (∀ n, s.pnReady (.query n) name = true → ends (.pnq d a n) s1 (match seen with
        | some (_, p) => s.pnQuery key p n
        | none => 0xFFFFFFFFFFFFFFFF)) ∧
      (seen = none → ∀ j op, (j, op) ∈ [(Instr.pnatt d a true, PnOp.attach true), (.pnatt d a false, .attach false), (.pndet d a, .detach), (.pndrop d a, .drop),
        (.pnrel d a, .release)] → s.pnReady op name = true → ends j s1 2) ∧
      (∀ k p, seen = some (k, p) →
        (s.pnReady .release name = true → if me ∈ p.attachers then ends (.pnrel d a) (s1.modPennant k fun p => { p with gen := p.gen + 1 }) 0 else ends (.pnrel d a) s1 5) ∧
        (s.pnReady .detach name = true →
          if me ∈ p.attachers then ends (.pndet d a) (s1.modPennant k fun p => p.detach s.clock (· == me)) 0 else ends (.pndet d a) s1 5) ∧
        (s.pnReady .drop name = true →
          ((∃ x ∈ p.attachers, x ≠ me) → exec (.pndrop d a) s = .next ((s1.leavePennant k who).trapNow ⟨0x22, name, 0⟩)) ∧
          ((∀ x ∈ p.attachers, x = me) → p.mustWait who = true → exec (.pndrop d a) s = .next ((out .drop).joinPennant k who)) ∧
          ((∀ x ∈ p.attachers, x = me) → p.mustWait who = false → ends (.pndrop d a) (s1.dropPennant k) 0)) ∧
        (∀ fill, s.pnReady (.attach fill) name = true → p.mover ≠ some who →
          let s2 := s1.leavePennant k who
          let fits := s2.placeOk (s2.minePlots s.focus.plot) s.focus.plot p.w p.h p.off p.len = true ∧
            s2.rangeTaken (some k) ((rectPlots s.focus.plot p.w p.h).getD []) p.off p.len = false
          (p.mustWait who = true → exec (.pnatt d a fill) s = .next ((out (.attach fill)).joinPennant k who)) ∧
          (p.mustWait who = false → p.state = .resident →
            (me ∈ p.attachers → ends (.pnatt d a fill) (s2.flushL1 s.focus.plot) p.base) ∧
            (me ∉ p.attachers → 255 ≤ p.attachers.length → ends (.pnatt d a fill) s2 3) ∧
            (me ∉ p.attachers → p.attachers.length < 255 → ends (.pnatt d a fill) ((s2.modPennant k fun p =>
              { p with attachers := p.attachers ++ [me], idleFrom := none, places := tset p.places me.1 p.origin }).flushL1 s.focus.plot) p.base)) ∧
          (p.mustWait who = false → p.state = .evicted →
            (fill = false → exec (.pnatt d a fill) s = .next (s2.trapNow ⟨0x20, name, 0⟩)) ∧
            (fill = true → ¬ fits → exec (.pnatt d a fill) s = .next (s2.trapNow ⟨0x20, name, 1⟩)) ∧
            (∀ e, fill = true → fits → s2.moveRemoved p s.focus.plot = some e → exec (.pnatt d a fill) s = .next (s2.trapNow ⟨0x48, name, BitVec.ofNat 64 e⟩)) ∧
            (fill = true → fits → s2.moveRemoved p s.focus.plot = none →
              exec (.pnatt d a fill) s = .next (((out (.attach fill)).leavePennant k who).beginFill k (some who) s.focus.plot))))))) ∧
  (∀ (s : State) (d a : GReg) (va : Word), s.pnClear d a va →
    let key := 8 * s.focus.plot + s.focus.slot
    let rd := s.engineRead s.focus.plot s.focus.slot (pnWaiter key) (coreSig s.cur.pc s.focus.plot s.focus.slot 7) none
      ((List.range 8).map fun i => Src.va (va + BitVec.ofNat 64 (4 * i))) []
    (va.toNat % 8 ≠ 0 → exec (.pndef d a) s = .next (s.trapNow ⟨0x0B, va, 0⟩)) ∧
    (va.toNat % 8 = 0 →
      (∀ s1, rd = .wait s1 → exec (.pndef d a) s = .next s1) ∧
      (∀ c v k info s1, rd = .fault c v k info s1 → exec (.pndef d a) s = .next ((s1.dropWalks (pnWaiter key) false).trapNow ⟨c, v, faultInfo k ||| dieInfo k⟩)) ∧
      (∀ ws s0, rd = .done ws s0 → let s1 := s0.dropWalks (pnWaiter key) false
        (∀ w, ws.find? (fun w => !w.valid) = some w → exec (.pndef d a) s = .next (s1.trapNow ⟨0x18, (normPayload w.bits).zeroExtend 64, 0⟩)) ∧
        ((∀ w ∈ ws, w.valid = true) → let name := quadAt ws 0
          let s2 := { s1 with nextId := s1.nextId + 1 }
          (s1.pnReady (.define ws) name = false → exec (.pndef d a) s = .next s1) ∧
          (s1.pnReady (.define ws) name = true → s1.nameHome name / 128 ≠ dieOf s1.focus.plot →
            exec (.pndef d a) s = .next (s1.askHome (.define ws) name (s1.nameHome name / 128))) ∧
          (s1.pnReady (.define ws) name = true → s1.nameHome name / 128 = dieOf s1.focus.plot → tfind s1.pnreqs (8 * s1.focus.plot + s1.focus.slot) = none →
            (∀ tr u, s2.pnDefine s1.focus.plot ws = (.trap tr, u) → exec (.pndef d a) s = .next (u.trapNow tr)) ∧
            (∀ v acq u t, s2.pnDefine s1.focus.plot ws = (.value v acq, u) → ((u.flushL1 s1.focus.plot).afterReads [a]).writeG d (.ofWord v) = .ok t →
              exec (.pndef d a) s = .next (t.advance 4))))))) ∧
  (∀ (s : State) (plot : Nat) (ws : List W32), let c := pnDesc ws
    (1 < c.life.toNat → s.pnDefine plot ws = (.trap ⟨0x22, c.name, 0⟩, s)) ∧
    (∀ v acq u, s.pnDefine plot ws = (.value v acq, u) → acq = true ∧ (v ≠ 0 → u = s) ∧
      (v = 0 → ∃ k p, tfind u.pennants k = some p ∧ p.name = c.name ∧ p.life = c.life ∧ p.w = c.w ∧ p.h = c.h ∧
        p.off = c.off ∧ p.len = c.len ∧ p.origin = c.origin ∧ p.state = .resident ∧ p.gen = 0 ∧ p.attachers = [])))

/-- For a word that may start, which then leaves its queue and takes its arc if it awaits one. BINDR, BINDW on a stream port with a good record bind the port to its pattern and leave only their completion; a bad record faults with its offset and leaves a binding that only ends the stream; on no such port they fault PORT_UNBOUND. PHASE adds its pattern to an active binding, faults with a bad record, and PORT_UNBOUND without one. UNBIND of a bound port joins those that wait for the binding to end, which on a read port drops queued phases and with abort on a write port discards; without a binding it is done at once, without a port it faults. CPY, CPYP, GATH, SCAT that are under way move up to 4 KiB at each step and finish at their length; a wait or a fault of their accesses is theirs; a bus under retraining holds them. MCST starts to stream its record, through its store record of the same length too, from a multicast port, a beat of 32 bytes at a time into a channel, and faults PORT_UNBOUND on another. ARRV sends its rows to the plot of the counter. PATCH sends its value, from the word or the scratchpad, to the front end, or faults POISON_CONSUMED. EVT adds to an event of its instance, at once or by a message to another die, or faults STREAM_WORD_ILLEGAL. The names of a BUNTING record must be at the engine of the own die here. Choices of the model: faults without an address (log 30), padding without EOS (log 31), the binding left by a bad record (log 32), the index list read with the record (log 97), 4 KiB a step (log 99), the offset in TVAL (log 100), the plot that queues an event (log 120), a binding no bulk transfer (log 122), the store record's tag of MCST (log 124). (R206, R208, R211, R216, R220, R221, R222, R223, R224, R225, R226, R227.) -/
def Obligations.PortAndCopyWords : Prop :=
  (∀ (s : State) (w : SWord) (h : SwHdr) (rc : BitVec 13) (hold rd : Bool), s.wordReady (if rd then .bindr h rc hold else .bindw h rc) w h →
    let id := s.focus.word
    let i := if rd then Instr.bindr h rc hold else .bindw h rc
    let W := { w with stage := .running }
    (s.wordPort w.plot h.port = none → exec i s = .next (((s.begun w).wordFault id 0x31 0 0).started id w h)) ∧
    (∀ key m, s.wordPort w.plot h.port = some (key, m) →
      let failed := (s.begun w).installBinding key (failedBinding rd h W m)
      (m.conn ≠ 1 → exec i s = .next (((s.begun w).wordFault id 0x31 0 0).started id w h)) ∧
      (∀ c, m.conn = 1 → (s.begun w).patternAt w.plot rc = .error c → exec i s = .next ((failed.wordFault id c (recOff rc) 0).started id w h)) ∧
      (∀ a, m.conn = 1 → (s.begun w).patternAt w.plot rc = .ok a →
        (tagMalformed a.tag = true ∨ tagEq a.tag m.tag = false → exec i s = .next ((failed.wordFault id 0x32 (recOff rc) 0).started id w h)) ∧
        (∀ a' s1, tagMalformed a.tag = false → tagEq a.tag m.tag = true →
          (a.unopened = true → s.bunting.parts.getD (s.ownerPart a.name.toNat) (dieOf w.plot) = dieOf w.plot ∧ s.blocksHeld [(a.name.toNat, a.n0)] = false) →
          ((s.begun w).setWord id { W with pats := [a] }).openPattern a (!rd) = .ok (a', s1) →
          let b : Binding := ⟨rd, w.ticket, w.plot, some w.slot, h.oc, if h.post then h.arc else 0, none, false, a', 0, [], hold && rd, a'.tag, 0, 0, 0, [], false,
            [], [], w.recSig (some rc)⟩
          exec i s = .next ((((s1.setWord id { W with pats := [a'] }).modPort key fun p => { p with bind := some b, tag := b.tag, closed := false }).finishing id
            []).started id w h))))) ∧
  (∀ (s : State) (w : SWord) (h : SwHdr) (rc : BitVec 13), s.wordReady (.phase h rc) w h →
    let id := s.focus.word
    let W := { w with stage := .running }
    (s.wordPort w.plot h.port = none ∨ (∃ key m, s.wordPort w.plot h.port = some (key, m) ∧ (m.conn ≠ 1 ∨ (s.portAt key).bind = none ∨
        ∃ b, (s.portAt key).bind = some b ∧ b.read = true ∧ b.discard = true)) →
      exec (.phase h rc) s = .next (((s.begun w).wordFault id 0x31 0 0).started id w h)) ∧
    (∀ key m b, s.wordPort w.plot h.port = some (key, m) → m.conn = 1 → (s.portAt key).bind = some b → (b.read = true → b.discard = false) →
      (∀ c, (s.begun w).patternAt w.plot rc = .error c → exec (.phase h rc) s = .next (((s.begun w).wordFault id c (recOff rc) 0).started id w h)) ∧
      (∀ a, (s.begun w).patternAt w.plot rc = .ok a →
        (tagMalformed a.tag = true ∨ tagEq a.tag b.tag = false → exec (.phase h rc) s = .next (((s.begun w).wordFault id 0x32 (recOff rc) 0).started id w h)) ∧
        (∀ a' s1, tagMalformed a.tag = false → tagEq a.tag b.tag = true →
          (a.unopened = true → s.bunting.parts.getD (s.ownerPart a.name.toNat) (dieOf w.plot) = dieOf w.plot ∧ s.blocksHeld [(a.name.toNat, a.n0)] = false) →
          ((s.begun w).setWord id { W with pats := [a] }).openPattern a (!b.read) = .ok (a', s1) →
          exec (.phase h rc) s = .next ((((s1.setWord id { W with pats := [a'] }).modPort key fun p =>
            { p with bind := some { b with phases := b.phases ++ [(w.recSig (some rc), a')] } }).finishing id []).started id w h))))) ∧
  (∀ (s : State) (w : SWord) (h : SwHdr) (abort : Bool), s.wordReady (.unbind h abort) w h →
    let id := s.focus.word
    (s.wordPort w.plot h.port = none → exec (.unbind h abort) s = .next (((s.begun w).wordFault id 0x31 0 0).started id w h)) ∧
    (∀ key m, s.wordPort w.plot h.port = some (key, m) →
      ((s.portAt key).bind = none → exec (.unbind h abort) s = .next (((s.begun w).finishing id []).started id w h)) ∧
      (∀ b, (s.portAt key).bind = some b → exec (.unbind h abort) s = .next (((s.begun w).modPort key fun p => { p with bind := some (if b.read
          then { b with unbind := b.unbind ++ [id], phases := [] } else { b with unbind := b.unbind ++ [id], discard := b.discard || abort }) }).started id w h)))) ∧
  (∀ (s : State) (w : SWord) (h : SwHdr) (i : Instr) (va : BitVec 56) (off : BitVec 19) (len : BitVec 21) (out : Bool) (src dst : BitVec 13),
    i ∈ [Instr.cpy h va off len out, .cpyp h src dst, .gath h src dst, .scat h src dst] →
    let id := s.focus.word
    (tfind s.words id = some w → w.instr = i → w.stage = .running → (s.copyGoes w = false → exec i s = .next s) ∧
      (s.copyGoes w = true → w.pats.any (·.unopened) = false →
        let p := s.copyPlan w
        let n := min 1024 ((p.total - w.progress) / 4)
        let rd := s.engineRead w.plot w.slot id (copySigs w).1 none ((List.range n).map fun j => p.src (w.progress + 4 * j)) []
        let wr (ws : List W32) (u : State) := u.engineStore w.plot w.slot id (copySigs w).2 (((List.range n).map fun j => p.dst (w.progress + 4 * j)).zip ws)
        (s.busHeld w = true ∨ s.engineStalls id = true → exec i s = .next s) ∧
        (s.busHeld w = false → s.engineStalls id = false →
          (∀ s1, rd = .wait s1 → exec i s = .next s1) ∧
          (∀ c v k x s1, rd = .fault c v k x s1 → exec i s = .next (s1.wordFault id c v k)) ∧
          (∀ ws s1, rd = .done ws s1 →
            (∀ s2, wr ws s1 = .wait s2 → exec i s = .next s2) ∧
            (∀ c v k x s2, wr ws s1 = .fault c v k x s2 → exec i s = .next (s2.wordFault id c v k)) ∧
            (∀ o s2, wr ws s1 = .done o s2 → exec i s = .next ((s2.dropWalks id false).setWord id { w with
              progress := w.progress + 4 * n, outs := w.outs ++ o.1, stage := if p.total ≤ w.progress + 4 * n then .finishing else .running })))))) ∧
    (s.wordReady i w h → exec i s = .next (State.started (match i with
      | .cpy .. => (s.begun w).copyStep id { w with stage := .running }
      | .cpyp .. => (s.begun w).copyRecords id { w with stage := .running } src dst (· != 2) (· != 2)
      | .gath .. => (s.begun w).copyRecords id { w with stage := .running } src dst (· == 2) (· != 2)
      | _ => (s.begun w).copyRecords id { w with stage := .running } src dst (· != 2) (· == 2)) id w h))) ∧
  (∀ (s : State) (w : SWord) (h : SwHdr) (src store : BitVec 13) (eos hs : Bool), let i := Instr.mcst h src store eos hs
    let id := s.focus.word
    (s.wordReady i w h → s.wordPort w.plot h.port = none → exec i s = .next (((s.begun w).wordFault id 0x31 0 0).started id w h)) ∧
    (∀ key m, s.wordPort w.plot h.port = some (key, m) →
      (s.wordReady i w h → m.conn ≠ 3 → exec i s = .next (((s.begun w).wordFault id 0x31 0 0).started id w h)) ∧
      (∀ a, s.wordReady i w h → m.conn = 3 → (s.begun w).patternAt w.plot src = .ok a →
        let go (ps : List Pattern) : State := ((s.begun w).setWord id { w with stage := .running, pats := ps }).mcstOn id { w with stage := .running, pats := ps } key eos
        (tagEq a.tag m.tag = false ∨ tagMalformed a.tag = true → exec i s = .next (((s.begun w).wordFault id 0x32 (recOff src) 0).started id w h)) ∧
        (tagEq a.tag m.tag = true → tagMalformed a.tag = false →
          (hs = false → exec i s = .next ((go [a]).started id w h)) ∧
          (∀ b, hs = true → (s.begun w).patternAt w.plot store = .ok b →
            (b.bytes = a.bytes → exec i s = .next ((go [a, b]).started id w h)) ∧
            (b.bytes ≠ a.bytes → exec i s = .next (((s.begun w).wordFault id 0x30 (recOff store) 0).started id w h))))) ∧
      (tfind s.words id = some w → w.instr = i → w.stage = .running → (s.copyGoes w = true → exec i s = .next (s.mcstOn id w key eos)) ∧
        (s.copyGoes w = false → exec i s = .next s))) ∧
    (∀ key a ws s1, w.pats = [a] → a.unopened = false → w.progress < mcstEnd a.bytes eos → (s.chans.filter fun c => c.2.word == some id).length < 16 →
      s.busHeld w = false → s.engineStalls id = false → let n := min 8 ((a.bytes - w.progress) / 4)
      s.engineRead w.plot w.slot id (copySigs w).1 none (a.srcs (key / 16) w.progress n) [] = .done ws s1 →
      let s2 := (s1.dropWalks id false).setWord id { w with progress := w.progress + 32 }
      s.mcstOn id w key eos = { s2 with nextId := s2.nextId + 1, chans := tset s2.chans s2.nextId ⟨key, s2.routeDsts key,
        some (beatOf (ws ++ (if n < 8 then mcstTail (tagFmt a.tag) (key / 16) ((w.progress + 4 * n) / 4) eos else []))), some id⟩ })) ∧
  (∀ (s : State) (w : SWord) (h : SwHdr) (plot : BitVec 13) (ctr : BitVec 4) (batch : BitVec 16) (row n1 : BitVec 6), s.wordReady (.arrv h plot ctr batch row n1) w h →
    let id := s.focus.word
    exec (.arrv h plot ctr batch row n1) s = .next (State.started
      (if isCellPlot plot.toNat = false then (s.begun w).wordFault id 0x0A 0 0 else if s.isRemoved (dieOf plot.toNat) then (s.begun w).wordFault id 0x48 0 0
       else (s.begun w).sendToken w.plot (dieOf plot.toNat) (.arrv id plot.toNat ctr batch row n1)) id w h)) ∧
  (∀ (s : State) (w : SWord) (h : SwHdr) (queue : BitVec 8) (slot : BitVec 2) (tag : BitVec 16) (value : BitVec 32) (voff : BitVec 19) (ind : Bool),
    s.wordReady (.patch h queue slot tag value voff ind) w h →
    let id := s.focus.word
    let v : W32 := if ind then s.spadWord w.plot voff.toNat else ⟨true, value⟩
    (v.valid = false → exec (.patch h queue slot tag value voff ind) s =
      .next (((s.begun w).wordFault id 0x18 ((normPayload v.bits).zeroExtend 64) 0).started id w h)) ∧
    (v.valid = true → s.sessOf w.plot = none → exec (.patch h queue slot tag value voff ind) s = .next (((s.begun w).finishing id []).started id w h)) ∧
    (∀ se, v.valid = true → s.sessOf w.plot = some se → exec (.patch h queue slot tag value voff ind) s = .next (State.started
      { s.begun w with patchMsgs := tset s.patchMsgs s.nextId ⟨se, queue.toNat, slot, tag, v.bits, id⟩, nextId := s.nextId + 1 } id w h))) ∧
  (∀ (s : State) (w : SWord) (h : SwHdr) (event : BitVec 8) (amount : BitVec 16), s.wordReady (.evt h event amount) w h →
    let id := s.focus.word
    ((∀ i x g, s.instAt w.plot = some (i, x) → tfind x.guidons event.toNat = some g → g.kind ≠ 4) →
      exec (.evt h event amount) s = .next (((s.begun w).wordFault id 0x30 0 0).started id w h)) ∧
    (∀ i x g, s.instAt w.plot = some (i, x) → tfind x.guidons event.toNat = some g → g.kind = 4 →
      (dieOf g.plot = dieOf w.plot → let p : Payload := .event i event (amount.zeroExtend 32)
        ((s.begun w).eventHeld (dieOf g.plot) p = true → exec (.evt h event amount) s = .next ((s.begun w).setWord id { w with stage := .queued })) ∧
        ((s.begun w).eventHeld (dieOf g.plot) p = false → exec (.evt h event amount) s =
          .next ((((s.begun w).takeEvent id (dieOf g.plot) p).finishing id []).started id w h))) ∧
      (dieOf g.plot ≠ dieOf w.plot →
        exec (.evt h event amount) s = .next ((((s.begun w).sendToken w.plot (dieOf g.plot) (.event i event (amount.zeroExtend 32))).finishing id [s.nextId]).started id w h))))

/-- A WLD, WSTR, MTOK, ACCZ or DRN that may start leaves the stream queue, joins the matrix queue of its region, and the region moves as far as it can; outside a region it faults PORT_UNBOUND. An ACCZ with no matrix word before it acts at once: if its checks fail it faults with their cause, else the entries of every bank of its side become zero with its tag, the status is written to its result word if asked (one that no storage backs then faults PERMISSION, the banks staying zero), then cleared if asked, and the word is done. STEER enters its indices at an index switch with room and faults PORT_UNBOUND elsewhere. RING member installs the member of its region, faulting STREAM_WORD_ILLEGAL where the region has no row mode and PORT_UNBOUND outside a region; RING source faults PORT_UNBOUND where a route names a feed port of its region, faults with its record, FORMAT_MISMATCH for a malformed tag, FP64_ABSENT, or STREAM_WORD_ILLEGAL for a wrong length, and otherwise begins to send its groups. RACE ranks the scores of each token in turn: a token of valid scores has min(k, e) winners, one with an invalid score none and its payload in every output word; of one token without counts it writes the k pairs of output words in order. That a ring takes one group at a time and what its records must agree in are the choices of logs 45 and 60. (R253, R257, R258, R263, R273, R274, R276, R277, R280.) -/
def Obligations.MatrixWords : Prop :=
  (∀ (s : State) (w : SWord) (h : SwHdr) (i : Instr) (row acc east relu te clr gate rows xv : Bool) (b3 rm : BitVec 3) (first n1 lines1 kr1 nl1 : BitVec 7)
      (xid e0 m1 : BitVec 6) (mode : BitVec 2) (woff : BitVec 18) (tag : BitVec 16) (sh : BitVec 5) (goff : BitVec 19),
    i ∈ [Instr.wld h row b3 first n1 lines1 xid xv, .wstr h row b3 first n1 lines1, .mtok h mode acc b3 e0 m1 kr1 woff nl1 tag,
      .accz h east e0 m1 tag goff clr te, .drn h east e0 m1 sh relu rm te clr lines1 goff gate rows] → s.wordReady i w h →
    let id := s.focus.word
    (s.regionOf w.plot = none → exec i s = .next (((s.begun w).wordFault id 0x31 0 0).started id w h)) ∧
    (∀ k r, s.regionOf w.plot = some (k, r) → exec i s =
      .next ((((s.begun w).modRegion k fun r => { r with mq := r.mq ++ [⟨id, i, w.plot, w.slot, false, 0, 0, 0, 0, false, [], false, []⟩] }).pump k).started id w h))) ∧
  (∀ (s : State) (w : SWord) (h : SwHdr) (east clr rd : Bool) (e0 n1 : BitVec 6) (tag : BitVec 16) (res : BitVec 19) (k : Nat) (r : Region),
    s.wordReady (.accz h east e0 n1 tag res clr rd) w h → s.regionOf w.plot = some (k, r) → r.mq = [] →
    let a := plotBase w.plot + res.toNat
    let check := s.acczCheck e0.toNat (n1.toNat + 1) tag
    let cleared := r.clearBanks (if east then 1 else 0) e0.toNat (n1.toNat + 1) tag
    (∀ c, check = some c → ∃ t, exec (.accz h east e0 n1 tag res clr rd) s = .next t ∧
      t.regions = s.regions ∧ t.mem = s.mem ∧ t.words = ((s.begun w).wordFault s.focus.word c 0 0).words ∧
      t.slots = ((s.begun w).wordFault s.focus.word c 0 0).slots) ∧
    (check = none → rd = true → s.backed a = false → ∃ t, exec (.accz h east e0 n1 tag res clr rd) s = .next t ∧ t.mem = s.mem ∧
      t.words = ((s.begun w).wordFault s.focus.word 0x0A (spadVa w.plot res.toNat) 0).words ∧
      t.slots = ((s.begun w).wordFault s.focus.word 0x0A (spadVa w.plot res.toNat) 0).slots ∧ tfind t.regions k = some { cleared with mq := [] }) ∧
    (check = none → rd = false ∨ s.backed a = true →
      ∃ t, exec (.accz h east e0 n1 tag res clr rd) s = .next t ∧ tfind t.words s.focus.word = some { w with stage := .finishing } ∧
        t.mem = (if rd then (s.engineWrite a ⟨true, r.status.zeroExtend 32⟩).setFe a true else s).mem ∧
        tfind t.regions k = some { cleared with status := if clr then 0 else r.status, mq := [] })) ∧
  (∀ (s : State) (w : SWord) (h : SwHdr) (ioff : BitVec 19) (n1 : BitVec 8),
    let id := s.focus.word
    (s.wordReady (.steer h ioff n1) w h → s.wordPort w.plot h.port = none → exec (.steer h ioff n1) s = .next (((s.begun w).wordFault id 0x31 0 0).started id w h)) ∧
    (∀ key m, s.wordPort w.plot h.port = some (key, m) →
      (s.wordReady (.steer h ioff n1) w h → m.conn ≠ 4 → exec (.steer h ioff n1) s = .next (((s.begun w).wordFault id 0x31 0 0).started id w h)) ∧
      (s.wordReady (.steer h ioff n1) w h → m.conn = 4 → exec (.steer h ioff n1) s =
        .next (((s.begun w).steerMove id { w with stage := .running } key ioff.toNat (n1.toNat + 1)).started id w h)) ∧
      (tfind s.words id = some w → w.instr = .steer h ioff n1 → w.stage = .running → s.instLive w.plot = true →
        exec (.steer h ioff n1) s = .next (s.steerMove id w key ioff.toNat (n1.toNat + 1))))) ∧
  (∀ (s : State) (id key off n : Nat) (w : SWord), 256 < (s.portAt key).steer.length + n → s.steerMove id w key off n = s) ∧
  (∀ (s : State) (wd : SWord) (h : SwHdr) (mask : Word) (w : BitVec 3) (e0 m1 : BitVec 6) (acc : Bool),
    s.wordReady (.ringMember h mask w e0 m1 acc) wd h →
    let id := s.focus.word
    (s.regionOf wd.plot = none → exec (.ringMember h mask w e0 m1 acc) s = .next (((s.begun wd).wordFault id 0x31 0 0).started id wd h)) ∧
    (∀ k r, s.regionOf wd.plot = some (k, r) →
      (r.modes.getLsbD 1 = false → exec (.ringMember h mask w e0 m1 acc) s = .next (((s.begun wd).wordFault id 0x30 0 0).started id wd h)) ∧
      (r.modes.getLsbD 1 = true → exec (.ringMember h mask w e0 m1 acc) s = .next ((((s.begun wd).modRegion k fun r =>
        { r with member := some ⟨mask, w, e0.toNat, m1.toNat + 1, acc, wd.plot, wd.slot, wd.ticket⟩ }).finishing id []).started id wd h)))) ∧
  (∀ (s : State) (w : SWord) (h : SwHdr) (rc : BitVec 13) (x0 nexp1 m1 : BitVec 6) (lines1 : BitVec 7) (passes1 : BitVec 8),
    let i := Instr.ringSource h rc x0 nexp1 m1 lines1 passes1
    s.wordReady i w h →
    let id := s.focus.word
    let fault (c : BitVec 8) (v : Word) := ((s.begun w).wordFault id c v 0).started id w h
    (s.regionOf w.plot = none → exec i s = .next (fault 0x31 0)) ∧
    (∀ k r, s.regionOf w.plot = some (k, r) →
      (s.ringFed k r (lines1.toNat + 1) = false → exec i s = .next (fault 0x31 0)) ∧
      (∀ c, s.ringFed k r (lines1.toNat + 1) = true → (s.begun w).patternAt w.plot rc = .error c → exec i s = .next (fault c (recOff rc))) ∧
      (∀ a, s.ringFed k r (lines1.toNat + 1) = true → (s.begun w).patternAt w.plot rc = .ok a →
        (tagMalformed a.tag = true → exec i s = .next (fault 0x32 (recOff rc))) ∧
        (tagMalformed a.tag = false → s.noFp64 (tagFmt a.tag) = true → exec i s = .next (fault 0x43 0)) ∧
        (tagMalformed a.tag = false → s.noFp64 (tagFmt a.tag) = false → a.bytes ≠ (nexp1.toNat + 1) * (m1.toNat + 1) * (lines1.toNat + 1) * 32 →
          exec i s = .next (fault 0x30 (recOff rc))) ∧
        (∀ a' s1, tagMalformed a.tag = false → s.noFp64 (tagFmt a.tag) = false → a.bytes = (nexp1.toNat + 1) * (m1.toNat + 1) * (lines1.toNat + 1) * 32 →
          (a.unopened = true → s.bunting.parts.getD (s.ownerPart a.name.toNat) (dieOf w.plot) = dieOf w.plot ∧ s.blocksHeld [(a.name.toNat, a.n0)] = false) →
          ((s.begun w).setWord id { w with stage := .running, pats := [a] }).openPattern a false = .ok (a', s1) → s1.regionOf w.plot = some (k, r) →
          let w1 := { w with stage := .running, pats := [a'] }
          exec i s = .next (((s1.setWord id w1).ringEmit id w1 k r x0.toNat (nexp1.toNat + 1) (m1.toNat + 1) (lines1.toNat + 1) (passes1.toNat + 1)).started
            id w h))))) ∧
  (∀ (s : State) (w : SWord) (h : SwHdr) (soff : BitVec 19) (t1 : BitVec 13) (ooff : BitVec 19) (e1 : BitVec 6) (k1 : BitVec 3) (coff : BitVec 19) (wcnt : Bool),
    s.wordReady (.race h soff t1 ooff e1 k1 coff wcnt) w h →
    let id := s.focus.word
    exec (.race h soff t1 ooff e1 k1 coff wcnt) s = .next (((s.begun w).race id w.plot soff.toNat (t1.toNat + 1) ooff.toNat (e1.toNat + 1) (k1.toNat + 1)
      coff.toNat wcnt).started id w h)) ∧
  (∀ (s t : State) (id plot soff ooff e k coff : Nat), s.raceStore id plot ((raceToken (s.spadWords plot soff e) k).2.zipIdx.flatMap fun q =>
      [(ooff + 8 * q.2, q.1.1), (ooff + 8 * q.2 + 4, q.1.2)]) = .ok t → s.race id plot soff 1 ooff e k coff false = t.finishing id []) ∧
  (∀ (scores : List W32) (k : Nat), ((∀ x ∈ scores, x.valid = true) → (raceToken scores k).1.length = min k scores.length) ∧
    (∀ w, scores.find? (fun w => !w.valid) = some w → raceToken scores k = ([], List.replicate k (⟨false, normPayload w.bits⟩, ⟨false, normPayload w.bits⟩))))

/-- A BN word that may start, whose names the engine of its own stack owns, while no other BN word waits and no block of its names was written in this clk, is performed at once: it faults with the index of the name it fails at, faults PERMISSION at the first result word beyond the scratchpad, and otherwise writes its result words and is done; one that a removed die owns faults CAUSAL_DIE_REMOVED; else its requests leave to the owners, and it waits for their arrival (performing in the order of arrival is log 40's). A name without an entry is BUNTING_UNMAPPED with its index for BNFREE, BNSHARE and BNXL. BNFREE leaves none of its names mapped; BNXL without write intent changes nothing and gives the block of each name; BNALLOC over mapped names gives their blocks and changes nothing. A PN word whose result lies outside the scratchpad faults PERMISSION; at a home on its own die it acts at once, with status 2 for a name not in view; at another its request leaves for it; and it goes on at its home while it runs. TVAL 0 of a BN word is log 39's choice. (R106, R107, R108, R121, R173, R174, R178.) -/
def Obligations.BuntingAndPennantWords : Prop :=
  (∀ (s : State) (w : SWord) (h : SwHdr) (i : Instr) (name dst : BitVec 44) (cnt : BitVec 6) (res : BitVec 19) (flag : Bool),
    i ∈ [Instr.bnalloc h name cnt res flag, .bnfree h name cnt, .bnshare h name dst cnt, .bnxl h name cnt res flag] → s.wordReady i w h →
    let id := s.focus.word
    let far := (s.bnOwners w.plot i).filter (· != dieOf w.plot)
    let here := if (s.bnOwners w.plot i).contains (dieOf w.plot) then [(dieOf w.plot, s.nextId)] else []
    let asked : State := { s.begun w with nextId := s.nextId + 1 }
    let B := asked.setWord id { w with stage := .running, came := here, asks := 0, homed := true }
    let mine := far = [] ∧ (∀ e ∈ s.words, e.2.bnPending = false) ∧ B.blocksHeld (bnRanges i) = false
    (mine → ∀ c k, B.bnOp i = .error (c, k) → exec i s = .next ((B.wordFault id c 0 k).started id w h)) ∧
    (mine → ∀ ws s1, B.bnOp i = .ok (ws, s1) →
      (bnResult i = none → exec i s = .next ((s1.finishing id []).started id w h)) ∧
      (∀ off, bnResult i = some off → (∀ j < ws.length, off + 4 * j < s.spad w.plot) →
        exec i s = .next (((s1.putResults w.plot off ws).finishing id []).started id w h)) ∧
      (∀ off j, bnResult i = some off → j < ws.length → s.spad w.plot ≤ off + 4 * j → (∀ l < j, off + 4 * l < s.spad w.plot) →
        exec i s = .next ((B.wordFault id 0x0A (spadVa w.plot (off + 4 * j)) 0).started id w h))) ∧
    (far.any s.isRemoved = true → exec i s = .next (((s.begun w).wordFault id 0x48 0 0).started id w h)) ∧
    (far ≠ [] → far.any s.isRemoved = false → exec i s = .next ((far.foldl (fun s die => s.post w.plot 8 (8 + die) [] (.bunt id))
      (asked.setWord id { w with stage := .running, came := here, asks := far.length, homed := true })).started id w h))) ∧
  (∀ (s : State) (h : SwHdr) (name : BitVec 44) (cnt : BitVec 6) (res : BitVec 19) (flag : Bool),
    (∀ n ∈ nameRange name cnt, (tfind s.bunting.names n).isSome = true) →
    (∃ s1, s.bnOp (.bnfree h name cnt) = .ok ([], s1) ∧ ∀ n ∈ nameRange name cnt, tfind s1.bunting.names n = none) ∧
    s.bnOp (.bnxl h name cnt res false) = .ok ((nameRange name cnt).map (fun n => BitVec.ofNat 32 ((tfind s.bunting.names n).getD 0)), s) ∧
    s.bnOp (.bnalloc h name cnt res flag) = .ok ((nameRange name cnt).map (fun n => BitVec.ofNat 32 ((tfind s.bunting.names n).getD 0)), s)) ∧
  (∀ (s : State) (h : SwHdr) (name dst : BitVec 44) (cnt : BitVec 6) (res : BitVec 19) (wi : Bool) (j : Nat), j ≤ cnt.toNat →
    (∀ l < j, (tfind s.bunting.names (name.toNat + l)).isSome = true) → tfind s.bunting.names (name.toNat + j) = none →
    ∀ i ∈ [Instr.bnfree h name cnt, .bnshare h name dst cnt, .bnxl h name cnt res wi], s.bnOp i = .error (0x39, j)) ∧
  (∀ (s : State) (w : SWord) (h : SwHdr) (i : Instr) (name : Word) (origin : BitVec 13) (res : BitVec 19) (wres : Bool),
    i ∈ [Instr.pnevict h name res wres, .pnfill h name origin res wres] →
    let id := s.focus.word
    (s.wordReady i w h →
      (wres = true → s.backed (plotBase w.plot + res.toNat) = false →
        exec i s = .next (((s.begun w).wordFault id 0x0A (spadVa w.plot res.toNat) 0).started id w h)) ∧
      ((wres = true → s.backed (plotBase w.plot + res.toNat) = true) → s.nameHome name / 128 = dieOf w.plot →
        exec i s = .next (((s.begun w).pnWordArrive id).started id w h) ∧
        (s.visible (s.sessOf w.plot) name = none → ∃ t, exec i s = .next t ∧ t.pennants = s.pennants ∧
          tfind t.words id = some { w with stage := .finishing, homed := true } ∧
          t.mem = (if wres then s.putResults w.plot res.toNat [2] else s).mem)) ∧
      ((wres = true → s.backed (plotBase w.plot + res.toNat) = true) → s.nameHome name / 128 ≠ dieOf w.plot →
        exec i s = .next (((s.begun w).post w.plot 8 (s.nameHome name / 128) [] (.pnWord id)).started id w h))) ∧
    (tfind s.words id = some w → w.instr = i → w.stage = .running → (w.homed = true → s.instLive w.plot = true → exec i s = .next (s.pnWordAct id w)) ∧
      (w.homed = false → exec i s = .next s)))

/-- A write of g30 sends its value, with validity, to the plot and slot of MQDST behind the earlier class-7 accesses, in the class of its slot; reserved bits, a plot that is no cell, or a peer module that is not assigned raise PERMISSION with MQDST, a removed die CAUSAL_DIE_REMOVED. A read of g31 takes the oldest flit of its slot, and waits while there is none. A flit that is first of its source enters a FIFO of 32 and ends an IDLE. What is sent leaves once its accesses are released and none of its stream is before it: to a peer when the earlier flits of its slot there are acknowledged, within its die at once unless what it does must wait there, to another die, as a counted packet with the next sequence number and the vector as its stamp, while the limits allow; to a removed die it is lost, with what losePayload says of its sender. A packet is delivered only when it is the next of its pair and its stamp is covered, then raises the pair and cover entries and performs; else it waits in the buffer. An acknowledgement lowers the count of undelivered packets. A unit asks for a frontier it lacks, with its stamp and the rebase number; a frontier flit carries SEQ, and when its pair sequence is delivered raises the cover entry. The limits of frontier flits and buffers are log 65's, the order of flits to one core log 109's. (R110, R112, R113, R114, R115, R118, R119, R150, R151, R152, R153.) -/
def Obligations.FlitsAndCausalDelivery : Prop :=
  (∀ (s : State) (v : Val),
    let m := s.cur.mqdst
    let dst := (m.extractLsb' 0 13).toNat
    let f : Flit := ⟨dst, (m.extractLsb' 16 3).toNat, v, s.focus.plot, s.focus.slot, s.cur.prioEff⟩
    let sent (unit : Nat) : State := { s with nextId := s.nextId + 1, outs := tset s.outs s.nextId ⟨dieOf s.focus.plot, unit, s.focus.plot, s.focus.slot,
      s.classIds s.focus.plot s.focus.slot 7, .flit f, s.cur.prioEff⟩ }
    (mqdstBad m = true ∨ isCellPlot dst = false ∨ (m.getLsbD 31 = true ∧ s.peers.getLsbD (m.extractLsb' 28 3).toNat = false) → exec (.g30Write v) s = .next (s.trapNow ⟨0x0A, m, 0⟩)) ∧
    (mqdstBad m = false → isCellPlot dst = true → m.getLsbD 31 = false →
      (s.isRemoved (dieOf dst) = true → exec (.g30Write v) s = .next (s.trapNow ⟨0x48, m, BitVec.ofNat 64 (dieOf dst)⟩)) ∧
      (s.isRemoved (dieOf dst) = false → exec (.g30Write v) s = .next (sent (dieOf dst)))) ∧
    (mqdstBad m = false → isCellPlot dst = true → m.getLsbD 31 = true → s.peers.getLsbD (m.extractLsb' 28 3).toNat = true →
      exec (.g30Write v) s = .next (sent (24 + (m.extractLsb' 28 3).toNat)))) ∧
  (∀ (s : State) (d : GReg), (s.flits s.focus.plot s.focus.slot = [] → exec (.g31Read d) s = .next s) ∧
    (∀ f rest, s.flits s.focus.plot s.focus.slot = f :: rest → s.blocked [31] [d] = false →
      (∀ t, (s.afterReads [31]).writeG d f.val = .ok t → exec (.g31Read d) s = .next t) ∧
      (∀ tr, (s.afterReads [31]).writeG d f.val = .error tr → exec (.g31Read d) s = .next (s.trapNow tr))) ∧
    (∀ f rest, s.flits s.focus.plot s.focus.slot = f :: rest → s.blocked [31] [d] = false → d ≠ 30 → ∃ t, exec (.g31Read d) s = .next t ∧
      t.flits s.focus.plot s.focus.slot = rest ∧ t.mem = s.mem ∧ (d ≠ 0 → d ≠ 31 → t.cur.gReg s.focus.plot d = f.val) ∧
      (∀ n, n ≠ d → t.cur.gReg s.focus.plot n = s.cur.gReg s.focus.plot n) ∧ t.cur.pc = s.cur.pc)) ∧
  (∀ (s : State) (id : Nat) (f : Flit), tfind s.tokens id = some (.flit f) → s.flitBefore id f = false →
    (∀ i ∈ s.insts, ∀ c ∈ i.2.ctx, c.plot ≠ f.plot) →
    (32 ≤ (s.plotAt f.plot).fifo.length → exec (.flitArrive id) s = .next s) ∧
    ((s.plotAt f.plot).fifo.length < 32 → ∃ t, exec (.flitArrive id) s = .next t ∧ (t.plotAt f.plot).fifo = (s.plotAt f.plot).fifo ++ [f] ∧
      (t.slotAt f.plot f.slot).idleEnd = none ∧ tfind t.tokens id = none ∧ t.mem = s.mem)) ∧
  (∀ (s : State) (id : Nat) (o : Out), tfind s.reqs id = none → tfind s.outs id = some o → (∃ w ∈ o.waits, s.relOk w = false) ∨ s.outBefore id o = true →
    exec (.countedPacketSend id) s = .next s) ∧
  (∀ (s : State) (id : Nat) (o : Out) (f : Flit), tfind s.reqs id = none → tfind s.outs id = some o → (∀ w ∈ o.waits, s.relOk w = true) → s.outBefore id o = false →
    24 ≤ o.dst → o.payload = .flit f →
    (s.peerOwed o.plot o.slot = false → exec (.countedPacketSend id) s = .next { s with outs := tdel s.outs id, peerOut := tset s.peerOut id f }) ∧
    (s.peerOwed o.plot o.slot = true → exec (.countedPacketSend id) s = .next s)) ∧
  (∀ (s : State) (id : Nat) (o : Out), tfind s.reqs id = none → tfind s.outs id = some o → (∀ w ∈ o.waits, s.relOk w = true) → s.outBefore id o = false →
    o.dst < 24 → s.unitRemoved o.dst = true →
    exec (.countedPacketSend id) s = .next (({ s with outs := tdel s.outs id } : State).losePayload (unitDie o.dst) o.payload)) ∧
  (∀ (s : State) (die : Nat) (f : Flit) (i n : Nat) (e : BitVec 8) (g : Bool), s.losePayload die (.flit f) =
      s.pendTrap f.src f.sender .die ⟨0x48, BitVec.ofNat 64 (f.plot + f.slot * 65536), BitVec.ofNat 64 die⟩ ∧
    s.losePayload die (.raised i e) = s ∧ s.losePayload die (.permit i g n) = s) ∧
  (∀ (s : State) (id : Nat) (r : Req), tfind s.reqs id = some r → r.stage = .issued → r.op.writes = true → r.unit < 16 → r.unit ≠ dieOf r.plot →
    s.isRemoved r.unit = false → s.mayGo id r false = true → s.firstInStream id r = true → s.maySend (dieOf r.plot) r.unit = true →
    exec (.countedPacketSend id) s = .next ((s.setReq id { r with stage := .sent }).sendPacket id ⟨dieOf r.plot, r.unit, r.plot, r.slot, [], .req id, r.cls⟩)) ∧
  (∀ (s : State) (id : Nat) (o : Out), tfind s.reqs id = none → tfind s.outs id = some o → (∀ w ∈ o.waits, s.relOk w = true) → s.outBefore id o = false →
    o.dst < 24 → s.unitRemoved o.dst = false →
    (o.dst = o.src → s.payloadHeld o.dst o.payload = true → exec (.countedPacketSend id) s = .next s) ∧
    (o.dst = o.src → s.payloadHeld o.dst o.payload = false → exec (.countedPacketSend id) s = .next (({ s with outs := tdel s.outs id } : State).performPayload id o.dst o.payload)) ∧
    (o.dst ≠ o.src → s.maySend o.src o.dst = false → exec (.countedPacketSend id) s = .next s) ∧
    (o.dst ≠ o.src → s.maySend o.src o.dst = true → ∃ t p, exec (.countedPacketSend id) s = .next t ∧ tfind t.packets id = some p ∧ p.src = o.src ∧ p.dst = o.dst ∧
      p.seq = (s.causalAt o.src).seq + 1 ∧ p.stamp = (s.causalAt o.src).dv.set o.src ((s.causalAt o.src).seq + 1) ∧ p.delivered = false ∧ p.payload = o.payload ∧ p.rebase = s.rebase ∧ p.cls = o.cls ∧
      (t.causalAt o.src).seq = (s.causalAt o.src).seq + 1 ∧ tget 0 (t.causalAt o.src).undeliv o.dst = tget 0 (s.causalAt o.src).undeliv o.dst + 1 ∧
      tfind t.outs id = none)) ∧
  (∀ (s : State) (id : Nat) (p : Packet), tfind s.packets id = some p → p.delivered = false → p.rebase = s.rebase → s.pastRemoval p = false →
    (s.deliverable p = true → s.earlierReady p = false → s.payloadHeld p.dst p.payload = false →
      let s1 := State.noteDelivery { s with packets := tset s.packets id { p with delivered := true }, lastDelivery := s.clock } p
      exec (.packetArrive id) s = .next (State.performPayload
        { s1 with packets := tset s1.packets id { p with delivered := true, ack := s1.respStamp p.dst } } id p.dst p.payload)) ∧
    (s.deliverable p = true → s.earlierReady p = true ∨ s.payloadHeld p.dst p.payload = true → exec (.packetArrive id) s = .next s) ∧
    (s.deliverable p = false → p.arrived = 0 → (s.packets.filter fun e => e.2.dst == p.dst && e.2.arrived != 0 && !e.2.delivered).length < 2048 →
      ∃ t, exec (.packetArrive id) s = .next t ∧ tfind t.packets id = some { p with arrived := s.nextId + 1 } ∧ t.mem = s.mem ∧ t.causal = s.causal) ∧
    (s.deliverable p = false → p.arrived ≠ 0 → exec (.packetArrive id) s = .next s)) ∧
  (∀ (s : State) (p : Packet), p.dst < 8 → p.src < 8 → p.src < (s.causalAt p.dst).pd.length → p.src < (s.causalAt p.dst).cv.length →
    vecAt ((s.noteDelivery p).causalAt p.dst).pd p.src = p.pair ∧
    vecAt ((s.noteDelivery p).causalAt p.dst).cv p.src = serialMax (vecAt (s.causalAt p.dst).cv p.src) (vecAt p.stamp p.src)) ∧
  (∀ (s : State) (id : Nat) (p : Packet), tfind s.packets id = some p → p.delivered = true → ∃ t, exec (.deliveryAck id) s = .next t ∧ tfind t.packets id = none ∧
    tget 0 (t.causalAt p.src).undeliv p.dst = tget 0 (s.causalAt p.src).undeliv p.dst - 1 ∧ t.mem = s.mem) ∧
  (∀ (s : State) (unit : BitVec 4) (die : BitVec 3), unitDie unit.toNat ≠ die.toNat → s.isRemoved die.toNat = false →
    (s.waitsOn unit.toNat die.toNat = true ∨ s.slotWaitsOn unit.toNat die.toNat = true →
      exec (.frontierRequest unit die) s = .next { s with asked := tset s.asked (16 * die.toNat + unit.toNat) ⟨s.respStamp unit.toNat, s.rebase⟩ }) ∧
    (∀ a, s.unitRemoved unit.toNat = false → tfind s.asked (16 * die.toNat + unit.toNat) = some a → a.reb = s.rebase → ∃ t, exec (.frontierFlitSend die unit) s = .next t ∧
      tfind t.frontiers s.nextId = some ⟨die.toNat, unit.toNat, (s.causalAt die.toNat).seq, tget 0 (s.causalAt die.toNat).pairs unit.toNat,
        (s.causalAt die.toNat).dv, s.rebase⟩ ∧
      tfind t.asked (16 * die.toNat + unit.toNat) = none ∧ tget 0 (t.causalAt die.toNat).last unit.toNat = (s.causalAt die.toNat).seq)) ∧
  (∀ (s : State) (id : Nat) (f : Frontier), tfind s.frontiers id = some f → f.unit < 16 → f.die < (s.causalAt f.unit).cv.length → f.reb = s.rebase →
    (f.pair ≠ 0 → serialLe f.pair (vecAt (s.causalAt f.unit).pd f.die) = false → exec (.frontierFlitReceive id) s = .next s) ∧
    (f.pair = 0 ∨ serialLe f.pair (vecAt (s.causalAt f.unit).pd f.die) = true → ∃ t, exec (.frontierFlitReceive id) s = .next t ∧ tfind t.frontiers id = none ∧
      vecAt (t.causalAt f.unit).cv f.die = serialMax (vecAt (s.causalAt f.unit).cv f.die) f.seq ∧ t.mem = s.mem))

/-- A link error begins a rebase. When nothing more can be delivered and nothing was for 4 us it goes on to retransmit, and once no packet is left it resets the causal state, raises the rebase count, puts pending partitions in force, and logs itself. A retune is not visible. A first saturated heater of a waveguide uses its spare for 20 us; a second retires the waveguide; both are logged. A due retraining of the vertical bus of a present die runs for 1.5 us or is deferred; one deferred 40 us ago is forced once every bulk transfer of the die stands at a 4-KiB boundary; its end sets the next due time. A recovery of a switch begins once, when the head of a queue of its die has waited for 4 us, and ends, logged, when none has waited for 1 us, after 1 us at the earliest (these waits are log 3's). DCARVE changes only on a die that holds no image plot; a write to a partition register is pending until the rebase that it begins, but one that would name an absent die in PREMAP changes nothing (log 106, a choice of the model). From when 40 us count is log 108's choice, the zeroed stamps log 66's. (R80, R82, R122, R123, R125, R126, R131, R139, R141, R149.) -/
def Obligations.FabricEvents : Prop :=
  (∀ s : State, ∃ t, exec .mastLinkError s = .next t ∧ t.mem = s.mem ∧ t.rebasing ≠ .none ∧ (s.rebasing ≠ .none → t = s) ∧
    (s.rebasing = .none → t = { s with rebasing := .draining, rebaseAt := s.clock })) ∧
  (∀ s : State, s.rebasing = .draining → (s.rebaseAt + 7600 ≤ s.clock → s.lastDelivery + 7600 ≤ s.clock →
      (∀ e ∈ s.packets, e.2.delivered = true ∨ s.deliverable e.2 = false) → exec .rebaseQuiet s = .next { s with rebasing := .retransmitting }) ∧
    (s.clock < s.rebaseAt + 7600 ∨ s.clock < s.lastDelivery + 7600 → exec .rebaseQuiet s = .next s)) ∧
  (∀ s : State, s.rebasing = .retransmitting → s.packets = [] → ∃ t, exec .rebaseReset s = .next t ∧ t.rebase = s.rebase + 1 ∧ t.rebasing = .none ∧
    (∀ u, t.causalAt u = Causal.init) ∧ t.frontiers = [] ∧ t.asked = [] ∧ t.mem = s.mem ∧ t.slots = s.slots ∧ t.pendingParts = [] ∧
    t.partitions = s.pendingParts.foldl (fun p e => tset p e.1 e.2) s.partitions ∧ t.logSeq = s.logSeq + 1) ∧
  (∀ (s : State) (k : BitVec 4), exec (.ringRetune k) s = .next s) ∧
  (∀ (s : State) (k : BitVec 4) (wg : BitVec 5) (wl : BitVec 4),
    let o := tget Optics.init s.optics k.toNat
    (nmem o.retired wg.toNat = true → exec (.ringHeaterSaturate k wg wl) s = .next s) ∧
    (nmem o.retired wg.toNat = false → ∃ t, exec (.ringHeaterSaturate k wg wl) s = .next t ∧ t.logSeq = s.logSeq + 1 ∧ t.slots = s.slots ∧
      (nmem o.spares wg.toNat = false → nmem (tget Optics.init t.optics k.toNat).spares wg.toNat = true ∧
        tfind (tget Optics.init t.optics k.toNat).busy wg.toNat = some (s.clock + 38000)) ∧
      (nmem o.spares wg.toNat = true → nmem (tget Optics.init t.optics k.toNat).retired wg.toNat = true)) ∧
    (∃ t, exec (.ringReassignDone k wg) s = .next t ∧ tfind (tget Optics.init t.optics k.toNat).busy wg.toNat = none ∧ t.mem = s.mem)) ∧
  (∀ (s : State) (die : BitVec 3),
    let x := s.dieAt die.toNat
    (s.present die.toNat = true → x.retraining = none → x.due ≤ s.clock →
      (s.deferRetrain die.toNat = true → x.deferred = none → ∃ t, exec (.vbusRetrain die) s = .next t ∧ t.dieAt die.toNat = { x with deferred := some s.clock } ∧
        t.mem = s.mem) ∧
      (s.deferRetrain die.toNat = true → x.deferred ≠ none → exec (.vbusRetrain die) s = .next s) ∧
      (s.deferRetrain die.toNat = false → ∃ t, exec (.vbusRetrain die) s = .next t ∧
        t.dieAt die.toNat = { x with retraining := some (s.clock + 2850), deferred := none } ∧ t.logSeq = s.logSeq + 1 ∧ t.mem = s.mem)) ∧
    (∀ u, x.deferred = some u → x.retraining = none → (s.clock < u + 76000 → exec (.vbusRetrainForced die) s = .next s) ∧
      (u + 76000 ≤ s.clock → (∀ e ∈ s.words, die.toNat ∈ s.bulkDies e.1 e.2 → s.atBoundary e.1 e.2 4096 = true) →
        ∃ t, exec (.vbusRetrainForced die) s = .next t ∧
          t.dieAt die.toNat = { x with retraining := some (s.clock + 2850), deferred := none } ∧ t.logSeq = s.logSeq + 1 ∧ t.mem = s.mem)) ∧
    (∀ e, x.retraining = some e → e ≤ s.clock → ∃ t, exec (.vbusRetrainEnd die) s = .next t ∧
      t.dieAt die.toNat = { x with retraining := none, due := s.clock + 3800000 } ∧ t.mem = s.mem)) ∧
  (∀ (s : State) (p : BitVec 13), (tfind s.recovery p.toNat = none → exec (.deadlockRecoveryStart p) s =
      .next (if s.headBlocked (dieOf p.toNat) 7600 then { s with recovery := tset s.recovery p.toNat s.clock } else s)) ∧
    (∀ e, tfind s.recovery p.toNat = some e → exec (.deadlockRecoveryStart p) s = .next s ∧
      (s.clock < e + 1900 ∨ s.headBlocked (dieOf p.toNat) 1900 = true → exec (.deadlockRecoveryEnd p) s = .next s) ∧
      (e + 1900 ≤ s.clock → s.headBlocked (dieOf p.toNat) 1900 = false → ∃ t, exec (.deadlockRecoveryEnd p) s = .next t ∧ tfind t.recovery p.toNat = none ∧ t.logSeq = s.logSeq + 1 ∧ t.mem = s.mem))) ∧
  (∀ (s : State) (die : BitVec 3) (v : Word), exec (.dcarveWrite die v) s = .next (if s.dieUsed die.toNat then s else s.dcarve die.toNat (v.extractLsb' 0 4))) ∧
  (∀ (s : State) (pa : BitVec 48) (v : Word), partBase ≤ pa.toNat / 8 * 8 → pa.toNat / 8 * 8 < partBase + 0x400 →
    let n := (pa.toNat / 8 * 8 - partBase) / 0x80
    let off := (pa.toNat / 8 * 8 - partBase) % 0x80
    let p := partWrite ((tfind s.pendingParts n).getD (tget partitionInit s.partitions n)) off v
    (off = 0x60 → s.remapPresent p = false → exec (.controlRegisterWrite pa v) s = .next s) ∧
    (off ≠ 0x60 ∨ s.remapPresent p = true → ∃ t, exec (.controlRegisterWrite pa v) s = .next t ∧ t.partitions = s.partitions ∧ t.rebasing ≠ .none ∧ t.mem = s.mem ∧
      tfind t.pendingParts n = some p))

/-- When it is its turn, a command that its check refuses ends REFUSED with the cause and releases no link. Otherwise QUEUE_OPEN makes an empty queue; QUEUE_CLOSE closes once the commands that the queue then held are dispatched and complete, removing another queue (drained by its tail at the close, log 86); QUEUE_RESET ends the halt, drops the patches of undispatched commands and sets head to tail; LINK_CREATE makes a link without tokens; LINK_DESTROY removes it and counts its tokens. IMAGE_INSTALL installs what its checks planned once no pennant is in the way; IMAGE_REMOVE removes the instance once its plots are clear; BIND_STREAMS waits for free ports on plots that are awake, then writes its records, binds every port, sets the priorities of the actors and permits the root guidon, or ends with the cause of a record that does not fit. PREEMPT halts the gang; RESTORE begins to restore a saved one. SLOT_RESUME lets a held slot go on at TEPC outside its handler and completes when it has issued; SLOT_KILL ends the instance with ABORTED. That a session's commands are served one after another is log 83's choice, what an ended instance releases log 76's. (R371, R376, R379, R380, R388, R405, R409, R414, R416, R417.) -/
def Obligations.LaunchAndQueueCommands : Prop :=
  (∀ (s : State) (c : Cmd) (cause : BitVec 8), s.cmdTurn c →
    ∀ (queue prod cons : BitVec 8) (n : BitVec 5) (qpn : BitVec 24) (port : BitVec 2) (ring : BitVec 48) (link : BitVec 10) (inst : BitVec 16)
      (plot : BitVec 13) (slot : BitVec 3) (pa root : BitVec 48) (k : BitVec 5) (gang : Bool) (m1 : BitVec 2) (remaps : List (BitVec 24)) (others : List (BitVec 48)),
    ∀ i chk, (i, chk) ∈ ([(.queueOpen queue n qpn port ring, checkQueueOpen queue n qpn port ring), (.queueClose queue, checkQueueClose queue),
        (.queueReset queue, checkQueueReset queue), (.linkCreate link prod cons, checkLinkCreate link prod cons), (.linkDestroy link, checkLinkDestroy link),
        (.imageInstall pa root k gang m1 remaps others, checkImageInstall pa root k gang m1 remaps others), (.imageRemove inst, checkImageRemove inst),
        (.preempt inst, checkPreempt inst), (.restore inst, checkRestore inst), (.slotResume inst plot slot, checkHeld inst plot slot),
        (.slotKill inst plot slot, checkHeld inst plot slot)] : List (Instr × (Cmd → State → Option (BitVec 8)))) →
      chk c s = some cause → ∃ t, exec i s = .next t ∧ t.mem = s.mem ∧ t.slots = s.slots ∧
        tfind t.cmds s.focus.cmd = some { c with ready := true, status := 1, cause, releases := [] }) ∧
  (∀ (s : State) (c : Cmd), s.cmdTurn c →
    let id := s.focus.cmd
    let done := { c with served := true, ready := true }
    (∀ queue n qpn port ring, checkQueueOpen queue n qpn port ring c s = none → ∃ t, exec (.queueOpen queue n qpn port ring) s = .next t ∧
      tfind t.queues (queueKey c.sess queue.toNat) = some (CQueue.opened qpn.toNat port.toNat ring.toNat n.toNat) ∧ tfind t.cmds id = some done) ∧
    (∀ queue q, tfind s.queues (queueKey c.sess queue.toNat) = some q → checkQueueClose queue c s = none →
      let own := c.queue == queue.toNat
      let q' : CQueue := if q.closing.isSome then q else { q with closing := some (if own then q.head else q.tail) }
      (q'.drained = false ∨ s.queueBusy c.sess queue.toNat id own = true → ∃ t, exec (.queueClose queue) s = .next t ∧
        tfind t.cmds id = some { c with served := true } ∧ tfind t.queues (queueKey c.sess queue.toNat) = some q') ∧
      (q'.drained = true → s.queueBusy c.sess queue.toNat id own = false → ∃ t, exec (.queueClose queue) s = .next t ∧
        tfind t.cmds id = some done ∧ tfind t.queues (queueKey c.sess queue.toNat) = if own then some q' else none)) ∧
    (∀ queue q, tfind s.queues (queueKey c.sess queue.toNat) = some q → checkQueueReset queue c s = none → c.stage = 0 →
      ∃ t q', exec (.queueReset queue) s = .next t ∧ tfind t.queues (queueKey c.sess queue.toNat) = some q' ∧ q'.halted = false ∧ q'.head = q.tail ∧
        q'.tail = q.tail ∧ q'.ring = q.ring ∧ (∀ e ∈ q'.patches, e ∈ q.patches) ∧ (q.head = q.tail → q'.patches = q.patches) ∧
        (q.head ≠ q.tail → ∀ e ∈ q'.patches, e.1 / 4 ≠ uAt (qAt (q.entryAt q.head.toNat) 0) 32 16)) ∧
    (∀ link prod cons, checkLinkCreate link prod cons c s = none → ∃ t, exec (.linkCreate link prod cons) s = .next t ∧
      tfind t.links (linkKey c.sess link.toNat) = some ⟨prod.toNat, cons.toNat, 0, false⟩ ∧ tfind t.cmds id = some done) ∧
    (∀ link l, tfind s.links (linkKey c.sess link.toNat) = some l → ∃ t, exec (.linkDestroy link) s = .next t ∧
      tfind t.links (linkKey c.sess link.toNat) = none ∧ tfind t.cmds id = some { done with elems := l.tokens.toNat }) ∧
    (∀ pa root k gang m1 remaps others s1, c.stage = 0 → checkImageInstall pa root k gang m1 remaps others c s = none →
      s.cmdBegun.installPlan c.sess pa root k gang m1 remaps others = .ok s1 →
      let mine := s1.insts.filter fun e => decide (s.nextInst ≤ e.1)
      s.cmdBegun.pennantsOn (mine.flatMap fun e => e.2.plots) = [] →
      exec (.imageInstall pa root k gang m1 remaps others) s =
        .next (s1.modCmd id fun c => { c with stage := 1, inst := BitVec.ofNat 16 s.nextInst, insts := mine.map (·.1) })) ∧
    (∀ inst x, s.instOf c.sess inst.toNat = some x → x.launch = none →
      (s.cmdBegun.endAttachments inst.toNat).pennantsOn x.plots = [] →
      exec (.imageRemove inst) s = .next (((s.cmdBegun.endAttachments inst.toNat).removeInst inst.toNat).cmdDone id fun c => { c with inst })) ∧
    (∀ inst x, s.instOf c.sess inst.toNat = some x → x.saved = .running → x.gang = none → c.stage = 0 → ∃ t y, exec (.preempt inst) s = .next t ∧
      tfind t.cmds id = some { c with served := true, stage := 1, insts := [inst.toNat] } ∧ tfind t.insts inst.toNat = some y ∧ y.saved = .halting ∧ y.haltAt = s.clock) ∧
    (∀ inst x, s.instOf c.sess inst.toNat = some x → x.saved = .saved → x.gang = none → c.stage = 0 → (∀ p ∈ x.plots, s.isRemoved (dieOf p) = false) →
      s.cmdBegun.toRefill [inst.toNat] = [] → ∃ t, exec (.restore inst) s = .next t ∧ t.mem = s.mem ∧
        tfind t.insts inst.toNat = some { x with saved := .restoring } ∧ tfind t.cmds id = some { c with served := true, stage := 1 }) ∧
    (∀ (inst : BitVec 16) (plot : BitVec 13) (slot : BitVec 3) (x : Inst), s.instOf c.sess inst.toNat = some x → plot.toNat ∈ x.plots → (s.slotAt plot.toNat slot.toNat).held = true →
      (c.stage = 0 → ∃ t, exec (.slotResume inst plot slot) s = .next t ∧ t.mem = s.mem ∧ tfind t.cmds id = some { c with served := true, stage := 1 } ∧
        (t.slotAt plot.toNat slot.toNat).resumed = some id ∧ (t.slotAt plot.toNat slot.toNat).held = false ∧ (t.slotAt plot.toNat slot.toNat).pc = (s.slotAt plot.toNat slot.toNat).tepc ∧
        (t.slotAt plot.toNat slot.toNat).ih = false ∧ (t.slotAt plot.toNat slot.toNat).g = (s.slotAt plot.toNat slot.toNat).g) ∧
      exec (.slotKill inst plot slot) s = .next ((s.cmdBegun.killInst inst.toNat).cmdDone id fun c => { c with inst }))) ∧
  (∀ (s : State) (c : Cmd) (inst : BitVec 16) (plot : BitVec 13) (slot : BitVec 3), tfind s.cmds s.focus.cmd = some c → c.served = true → c.ready = false →
      c.stage = 1 → s.serving s.focus.cmd = true →
    ((s.slotAt plot.toNat slot.toNat).resumed = some s.focus.cmd → exec (.slotResume inst plot slot) s = .next s) ∧
    ((s.slotAt plot.toNat slot.toNat).resumed ≠ some s.focus.cmd → ∃ t, exec (.slotResume inst plot slot) s = .next t ∧ t.slots = s.slots ∧
      tfind t.cmds s.focus.cmd = some { c with ready := true, inst })) ∧
  (∀ (s : State) (c : Cmd) (x : Inst) (image : Word) (sink : BitVec 8) (pna pnb : Word) (exts : List (List Word)),
    tfind s.cmds s.focus.cmd = some c → tfind s.insts c.inst.toNat = some x → c.served = false → c.ready = false → x.saved = .running →
    c.instr = some (.bindStreams image sink pna pnb exts) →
    ((∃ e ∈ s.streamPorts c.inst.toNat, (s.portAt e.1).bind ≠ none ∨ (s.plotAt (e.1 / 16)).awake = false) → exec (.bindStreams image sink pna pnb exts) s = .next s) ∧
    (∀ cause s1, (∀ e ∈ s.streamPorts c.inst.toNat, (s.portAt e.1).bind = none ∧ (s.plotAt (e.1 / 16)).awake = true) →
      (s.launchRecords (s.streamPorts c.inst.toNat) exts).bindItems s.focus.cmd sink.toNat (s.streamPorts c.inst.toNat) 1 exts = .error (cause, s1) →
      exec (.bindStreams image sink pna pnb exts) s = .next (s1.bindFault s.focus.cmd c.inst.toNat cause))) ∧
  (∀ (s s1 : State) (c : Cmd) (x : Inst) (image : Word) (sink : BitVec 8) (pna pnb : Word) (exts : List (List Word)),
    tfind s.cmds s.focus.cmd = some c → tfind s.insts c.inst.toNat = some x → c.served = false → c.ready = false → x.saved = .running →
    c.instr = some (.bindStreams image sink pna pnb exts) →
    (∀ e ∈ s.streamPorts c.inst.toNat, (s.portAt e.1).bind = none ∧ (s.plotAt (e.1 / 16)).awake = true) →
    (s.launchRecords (s.streamPorts c.inst.toNat) exts).bindItems s.focus.cmd sink.toNat (s.streamPorts c.inst.toNat) 1 exts = .ok s1 →
    tfind s1.cmds s.focus.cmd = some c →
    ∃ t, exec (.bindStreams image sink pna pnb exts) s = .next t ∧ tfind t.cmds s.focus.cmd = some { c with served := true } ∧ t.mem = s1.mem ∧ t.ports = s1.ports ∧
      t.slots = (s1.launchPrio c.inst.toNat).slots ∧
      ∀ e, x.rootGuidon = some e → tfind t.tokens s1.nextId = some (.permit c.inst.toNat true e))

/-- When it is its turn, a command that its check refuses ends REFUSED with the cause. Otherwise PN_ADMIN drop removes a pennant without attachers and answers ATTACHED for another; evict and fill answer at once where nothing is to move, REFUSED where a removed die holds the pennant back (log 126), and begin the move otherwise; list writes the names in view. REGION_DECLARE makes a region with its lifetime, expired until it is written; REGION_UNDECLARE ends it. FAULT_REPLAY issues a parked request again and performs an engine's parked access to host memory, FAULT_DECLINE ends it and logs. The shootdowns drop translations of an ASID but global ones, of a page, or all. DIE_FENCE removes the die and begins a rebase, after which it fences it and loses the entries homed there; PARTITION_SET with a PREMAP of present dies (log 106) leaves a partition pending; HOST_COPY moves its words unless the bus is in retraining or, to read, a write of this clk stands before it; LOG_READ marks what it writes as read. On which stacks a region counts is log 79's choice, where the log goes on log 127's. (R83, R86, R95, R96, R174, R401, R414, R416, R417, R424, R426.) -/
def Obligations.FirmwareServiceCommands : Prop :=
  (∀ (s : State) (c : Cmd) (cause : BitVec 8), s.cmdTurn c →
    ∀ (name addr : Word) (origin : BitVec 13) (pa off : BitVec 48) (life inst : BitVec 16) (tf toHost phys : Bool) (cap fid : BitVec 32) (die n : BitVec 3)
      (val : PartitionVal) (len : BitVec 40),
    ∀ i chk, (i, chk) ∈ ([(.pnAdminDrop name, checkPnName name), (.pnAdminEvict name, checkPnName name), (.pnAdminFill name origin, checkPnName name),
        (.pnAdminList off cap, fun c s => checkList off.toNat (8 * min cap.toNat (s.visibleNames c.sess).length) c s),
        (.regionDeclare pa life tf, checkDeclare pa life), (.regionUndeclare pa, fun _ _ => refuseIf (decide (0x8000000000 ≤ pa.toNat))),
        (.faultReplay fid, checkParked fid), (.faultDecline fid, checkParked fid), (.dieFence die, checkFence die),
        (.partitionSet n val, fun _ s => refuseIf (s.insts != [] || !s.remapPresent val)), (.hostCopy off addr len toHost phys inst, checkHostCopy off addr len phys inst),
        (.logRead off cap, fun c s => checkList off.toNat (32 * min cap.toNat (s.logSeq - s.logRead)) c s)] : List (Instr × (Cmd → State → Option (BitVec 8)))) →
      chk c s = some cause → ∃ t, exec i s = .next t ∧ t.mem = s.mem ∧ t.slots = s.slots ∧
        tfind t.cmds s.focus.cmd = some { c with ready := true, status := 1, cause, releases := [] }) ∧
  (∀ (s : State) (c : Cmd), s.cmdTurn c →
    let id := s.focus.cmd
    let done := { c with served := true, ready := true }
    (∀ name k p, s.visible (some c.sess) name = some (k, p) →
      (p.attachers ≠ [] → ∃ t, exec (.pnAdminDrop name) s = .next t ∧ tfind t.cmds id = some { done with cause := 6 }) ∧
      (p.attachers = [] → p.mustWait (pnCmdWaiter id) = false → ∃ t, exec (.pnAdminDrop name) s = .next t ∧ tfind t.cmds id = some { done with cause := 0 } ∧
        (tfind s.pennants k = some p → tfind t.pennants k = none)) ∧
      (p.mover ≠ some (pnCmdWaiter id) →
        (p.state = .evicted → ∃ t, exec (.pnAdminEvict name) s = .next t ∧ tfind t.cmds id = some { done with cause := 0 }) ∧
        (p.state = .resident → ∀ o, ∃ t, exec (.pnAdminFill name o) s = .next t ∧ tfind t.cmds id = some { done with cause := 0 }) ∧
        (p.state = .evicted → p.mustWait (pnCmdWaiter id) = false → tfind s.pennants k = some p → ∀ o, s.fillOrigin c.sess o = true →
          s.placeOk (s.minePlots o.toNat) o.toNat p.w p.h p.off p.len = true →
          s.rangeTaken (some k) ((rectPlots o.toNat p.w p.h).getD []) p.off p.len = false →
          (s.moveRemoved p o.toNat ≠ none → ∃ t, exec (.pnAdminFill name o) s = .next t ∧ tfind t.cmds id = some { done with cause := 4 }) ∧
          (s.moveRemoved p o.toNat = none → ∃ t q, exec (.pnAdminFill name o) s = .next t ∧ tfind t.pennants k = some q ∧ q.state = .filling ∧ q.origin = o.toNat ∧ q.mover = some (pnCmdWaiter id))) ∧
        (p.state = .resident → s.evictable p = false → ∃ t, exec (.pnAdminEvict name) s = .next t ∧ tfind t.cmds id = some { done with cause := 6 }) ∧
        (p.state = .resident → s.evictable p = true → p.mustWait (pnCmdWaiter id) = false →
          (s.moveRemoved p p.origin ≠ none → ∃ t, exec (.pnAdminEvict name) s = .next t ∧ tfind t.cmds id = some { done with cause := 4 }) ∧
          (s.moveRemoved p p.origin = none → s.moveHeld p true = false → tfind s.pennants k = some p → ∃ t q, exec (.pnAdminEvict name) s = .next t ∧
            tfind t.pennants k = some q ∧ q.state = .evicting ∧ q.mover = some (pnCmdWaiter id) ∧ t.logSeq = s.logSeq + 1)))) ∧
    (∀ off cap, checkList off.toNat (8 * min cap.toNat (s.visibleNames c.sess).length) c s = none → c.stage = 0 → ∃ t, exec (.pnAdminList off cap) s = .next t ∧
      t.mem = s.mem ∧ tfind t.cmds id = some { c with served := true, stage := 1, elems := min cap.toNat (s.visibleNames c.sess).length, waits := [s.nextId] } ∧
      ∀ x, tfind s.sessions c.sess = some x → tfind t.sessions c.sess =
        some (hostPut x off.toNat ((((s.visibleNames c.sess).take cap.toNat).map (BitVec.ofNat 64)).flatMap quadBytes))) ∧
    (∀ pa life tf, checkDeclare pa life c s = none → ∃ t, exec (.regionDeclare pa life tf) s = .next t ∧ tfind t.cmds id = some done ∧ t.mem = s.mem ∧
      tfind t.transients (pa.toNat / 0x200000) = some ⟨s.clock, life.toNat, tf, [], none⟩) ∧
    (∀ pa : BitVec 48, pa.toNat < 0x8000000000 → ∃ t, exec (.regionUndeclare pa) s = .next t ∧ tfind t.cmds id = some done ∧
      tfind t.transients (pa.toNat / 0x200000) = none ∧
      (∀ x, tfind s.transients (pa.toNat / 0x200000) = some x → s.clock < x.deadline → t.mem = s.mem)) ∧
    (∀ fid k r, s.parkedReq fid.toNat = some (k, r) → tfind s.reqs k = some r →
      (∃ t, exec (.faultReplay fid) s = .next t ∧ tfind t.reqs k = some { r with stage := .issued, replayed := true } ∧ t.mem = s.mem ∧
        tfind t.cmds id = some { done with cause := if r.op.kind = 0 then 0x08 else 0x09 }) ∧
      ((∀ e ∈ s.reqs, e.2.stage = .parked fid.toNat → e.1 = k) → (∀ e ∈ s.walks, e.2.parked ≠ some fid.toNat) → s.behind k r.plot r.slot r.oc r.va = [] →
        r.op.reads = true → ∃ t q, exec (.faultDecline fid) s = .next t ∧ tfind t.reqs k = some q ∧ q.stage = .served ∧
        (∀ w ∈ q.resp, w.valid = false) ∧ t.mem = s.mem ∧ t.logSeq = s.logSeq + 1)) ∧
    (∀ fid j w k x, s.parkedReq fid.toNat = none → s.parkedWalk fid.toNat = some (j, w) → 10 ≤ w.kind →
      (s.walks.filter fun e => e.2.parked == some fid.toNat && decide (10 ≤ e.2.kind) && !e.2.declined) = [(j, w)] → s.hostSession w.plot = some (k, x) →
      w.pa + 4 ≤ x.hlen → ∃ t, exec (.faultReplay fid) s = .next t ∧ t.mem = s.mem ∧ tfind t.cmds id = some { done with cause := w.cause } ∧
        tfind t.walks j = (if w.orphan then none else some { w with parked := none, done := true, data := if w.kind = 11 then w.data else hostWord x w.pa }) ∧
        (w.kind = 11 → tfind t.sessions k = some (hostPut x w.pa (wordBytesOf w.data.bits))) ∧ (w.kind ≠ 11 → t.sessions = s.sessions)) ∧
    (∀ (inst : BitVec 16) (va : Word) (a : BitVec 12), s.asidOf inst.toNat = some a → ∀ i keep, (i, keep) ∈ ([
        (.shootdownAsid inst, fun e => e.glob || e.asid != a), (.shootdownPage inst va, fun e => !e.hits a (vaNat va)),
        (.shootdownAll inst, fun _ => false)] : List (Instr × (Tlb → Bool))) →
      ∃ t, exec i s = .next t ∧ tfind t.cmds id = some { done with inst } ∧ t.mem = s.mem ∧
        t.plots = tmap s.plots fun _ p => { p with tlb := p.tlb.filter keep }) ∧
    (∀ die, checkFence die c s = none → c.stage = 0 → (s.dieAt die.toNat).fenced = false → s.instsOn die.toNat = [] →
      ∃ t, exec (.dieFence die) s = .next t ∧ (t.dieAt die.toNat).fenced = false ∧ t.removed.getLsbD die.toNat = true ∧ t.rebasing ≠ .none ∧
        tfind t.cmds id = some { c with served := true, stage := 1 }) ∧
    (∀ n val, s.insts = [] → s.remapPresent val = true → c.stage = 0 → ∃ t, exec (.partitionSet n val) s = .next t ∧ tfind t.pendingParts n.toNat = some val ∧ t.rebasing ≠ .none ∧
      t.partitions = s.partitions ∧ tfind t.cmds id = some { c with served := true, stage := 1 }) ∧
    (∀ hoff addr len phys inst x l, c.stage = 0 → checkHostCopy hoff addr len phys inst c s = none → tfind s.sessions c.sess = some x →
      s.copyWords addr phys inst.toNat (len.toNat / 4) 0 = some l →
      (∀ a ∈ l, s.busHeldAt a = false ∧ s.justWritten a = false) → ∃ t, exec (.hostCopy hoff addr len true phys inst) s = .next t ∧ t.mem = s.mem ∧
        tfind t.sessions c.sess = some (hostPut x hoff.toNat ((l.map (s.readWord 0)).flatMap fun w => wordBytesOf w.bits)) ∧
        tfind t.cmds id = some { c with
          served := true, stage := 1, inst := (if phys then 0xFFFF else inst), elems := len.toNat / 4,
          bad := (l.map (s.readWord 0)).countP (fun w => !w.valid), waits := [s.nextId] }) ∧
    (∀ hoff addr len phys inst x l, c.stage = 0 → checkHostCopy hoff addr len phys inst c s = none → tfind s.sessions c.sess = some x →
      s.copyWords addr phys inst.toNat (len.toNat / 4) 0 = some l →
      (∀ a ∈ l, s.busHeldAt a = false) → ∃ t, exec (.hostCopy hoff addr len false phys inst) s = .next t ∧
        t.mem = (((List.range (len.toNat / 4)).zip l).foldl (fun s e => s.storeAt e.2 [hostWord x (hoff.toNat + 4 * e.1)]) s).mem) ∧
    (∀ off cap, checkList off.toNat (32 * min cap.toNat (s.logSeq - s.logRead)) c s = none → c.stage = 0 → ∃ t, exec (.logRead off cap) s = .next t ∧
      t.logRead = s.logRead + min cap.toNat (s.logSeq - s.logRead) ∧ t.logLost = 0 ∧ t.log = s.log ∧ t.mem = s.mem ∧
      tfind t.cmds id = some { c with served := true, stage := 1, elems := min cap.toNat (s.logSeq - s.logRead), waits := [s.nextId] })) ∧
  (∀ (s : State) (c : Cmd) (die : BitVec 3), tfind s.cmds s.focus.cmd = some c → c.served = true → c.ready = false → c.stage = 1 → s.serving s.focus.cmd = true →
    (s.rebasing ≠ .none → exec (.dieFence die) s = .next s) ∧
    (s.rebasing = .none → ∃ t n, exec (.dieFence die) s = .next t ∧ (t.dieAt die.toNat).fenced = true ∧ (∀ e ∈ t.pennants, e.2.home / 128 ≠ die.toNat) ∧
      t.mem = s.mem ∧ t.logSeq = s.logSeq + 1 ∧ tfind t.cmds s.focus.cmd = some { c with ready := true, elems := n }))

/-- A read binding whose next eight words are read pushes them as one beat; one that is to end, at a beat boundary, pushes its EOS, and one that has faulted a beat of POISON_MEM words before it. A write binding takes the oldest beat of its port, and at an EOS frees its port. A finished word, its writes done and its arc below 255, posts and leaves; a BINDR or BINDW leaves. A consumed MTOK posts its arc and frees its register, and one that has written every entry posts the next arc and leaves the queue. A ring group whose next member has room passes a region without a member, waits for a WLD of its register, passes unmultiplied where it fails its checks, which traps, or where the mask does not name it, and is multiplied otherwise. A waking plot is awake. A scrub of an armed region logs a correctable error, freezes it at a first uncorrectable one and loses it at a second; a good reload thaws it. A region still running 2.4 us after a halt freezes. A channel beat reaches its destination when it has room. A storage scrub logs a correctable error; an uncorrectable one loses a 64-byte DRAM line, marks the 64 bits of a register bad, drops a line or entry of a cache, and on causal state begins a rebase. Choices of the model: a ring's group moved in one step (log 43), one group at a time (log 45), lanes moved one by one (log 103), what an uncorrectable error spoils (logs 90 and 128). (R144, R206, R214, R215, R219, R250, R251, R252, R268, R278, R395, R405.) -/
def Obligations.EngineAndRegionEvents : Prop :=
  (∀ (s : State) (plot : BitVec 13) (port : BitVec 4) (b : Binding),
    let key := 16 * plot.toNat + port.toNat
    (s.portAt key).bind = some b → s.portFrozen key = false → s.instRuns plot.toNat = true →
    (b.read = true → (s.portAt key).buf.length < 16 →
      (b.discard = false → b.unbind = [] → b.cur = [] → 32 ≤ b.pat.bytes - b.pos → ∀ ws s1,
        s.engineRead (key / 16) (b.slot.getD 0) (portTicket key) b.sig none (b.pat.srcs (key / 16) b.pos 8) [] = .done ws s1 → ws.length = 8 →
        exec (.bindrBeat plot port) s = .next (((s1.dropWalks (portTicket key) false).pushBeat key { b with cur := ws, pos := b.pos + 32 } ws).pumpPort key)) ∧
      (b.discard = true → b.words = 0 → exec (.bindrBeat plot port) s = .next ((s.pushPoison key b).pumpPort key)) ∧
      (b.discard = true → b.words ≠ 0 → exec (.bindrBeat plot port) s = .next ((s.pushEos key b).pumpPort key)) ∧
      (b.discard = false → b.unbind ≠ [] → b.cur = [] → exec (.bindrBeat plot port) s = .next ((s.pushEos key b).pumpPort key))) ∧
    (b.read = true → 16 ≤ (s.portAt key).buf.length → exec (.bindrBeat plot port) s = .next s)) ∧
  (∀ (s : State) (plot : BitVec 13) (port : BitVec 4) (b : Binding),
    let key := 16 * plot.toNat + port.toNat
    let s1 := s.settlePort key
    s.instRuns plot.toNat = true → s1.instRuns plot.toNat = true → (s1.portAt key).bind = some b → b.read = false → s1.portFrozen key = false →
    s1.engineStalls (portTicket key) = false →
    (b.cur = [] → ∀ beat rest, (s1.portAt key).buf = beat :: rest → exec (.bindwBeat plot port) s =
      .next (((s1.bufPop key).writeBeat key { b with cur := beatWords beat, words := b.words + 8 } 24).pumpPort key)) ∧
    (∀ w rest, b.cur = w :: rest → isEos w = true → ∃ t, exec (.bindwBeat plot port) s = .next t ∧ (t.portAt key).bind = none ∧ t.mem = s.mem)) ∧
  (∀ (s : State) (plot : BitVec 13) (slot : BitVec 3) (ticket : BitVec 16) (id : Nat) (w : SWord) (h : SwHdr),
    s.words.find? (fun e => e.2.plot == plot.toNat && e.2.slot == slot.toNat && e.2.ticket == ticket) = some (id, w) → wordHdr w.instr = some h → w.stage = .finishing →
    (isMtok w.instr = false → (∀ o ∈ w.outs, s.outDone o = true) → s.instLive w.plot = true →
      (∀ hd rc ho, w.instr ≠ .bindr hd rc ho ∧ w.instr ≠ .bindw hd rc) →
      (h.post = true → s.arcCount w.plot h.arc ≠ 255 → exec (.streamWordComplete plot slot ticket) s = .next ((s.postArc w.plot h.arc).endWord id)) ∧
      (h.post = true → s.arcCount w.plot h.arc = 255 → exec (.streamWordComplete plot slot ticket) s = .next s) ∧
      (h.post = false → exec (.streamWordComplete plot slot ticket) s = .next (s.endWord id))) ∧
    ((∀ o ∈ w.outs, s.outDone o = true) → s.instLive w.plot = true → (∃ hd rc ho, w.instr = .bindr hd rc ho ∨ w.instr = .bindw hd rc) →
      exec (.streamWordComplete plot slot ticket) s = .next (s.endWord id)) ∧
    (s.words.find? (fun e => e.2.plot == plot.toNat && e.2.slot == slot.toNat && e.2.ticket == ticket && isMtok e.2.instr) = some (id, w) →
      (w.consumed = false → (h.post = true → s.arcCount w.plot h.arc ≠ 255) → exec (.mtokConsumed plot slot ticket) s =
        .next (((if h.post then s.postArc w.plot h.arc else s).setWord id { w with consumed := true }).modToken w fun r =>
          { r with mq := r.mq.map fun y => if y.word = id then { y with freed := true } else y })) ∧
      (w.consumed = true → s.tokenWritten w.plot id = true → (h.post = true → s.arcCount w.plot (h.arc + 1) ≠ 255) → exec (.mtokDone plot slot ticket) s =
        .next (((if h.post then s.postArc w.plot (h.arc + 1) else s).endWord id).modToken w (·.dropMWord id))))) ∧
  (∀ (s : State) (inst region : Nat) (r : Region) (g : RingGroup) (rest : List RingGroup),
    let k := regionKey inst region
    tfind s.regions k = some r → r.ring = g :: rest → s.regionFrozen k = false →
    ((∃ k2 q, s.ringNext k r = some k2 ∧ tfind s.regions k2 = some q ∧ q.ring ≠ []) → exec (.ringGroupProduct inst region) s = .next s) ∧
    ((∀ k2 q, s.ringNext k r = some k2 → tfind s.regions k2 = some q → q.ring = []) →
      (r.member = none → exec (.ringGroupProduct inst region) s = .next (s.ringPass k r g)) ∧
      (∀ mb, r.member = some mb →
        (ringLoads r mb = true → exec (.ringGroupProduct inst region) s = .next s) ∧
        (∀ c, ringLoads r mb = false → memberCause r mb g = some c →
          exec (.ringGroupProduct inst region) s = .next ((s.pendWord mb.plot mb.slot mb.word .word c 0 0).ringPass k r g)) ∧
        (ringLoads r mb = false → memberCause r mb g = none →
          (mb.mask.getLsbD g.id = false → exec (.ringGroupProduct inst region) s = .next (s.ringPass k r g)) ∧
          (mb.mask.getLsbD g.id = true → ringHeld r mb g = true → exec (.ringGroupProduct inst region) s = .next s) ∧
          (mb.mask.getLsbD g.id = true → ringHeld r mb g = false → exec (.ringGroupProduct inst region) s =
            .next (((s.modRegion k fun r => r.ringProduct mb g).ringPass k r g).pump k)))))) ∧
  (∀ (s : State) (plot : BitVec 13), (s.plotAt plot.toNat).region ≠ none → ∃ t, exec (.plotWake plot) s = .next t ∧ t.mem = s.mem ∧ (t.plotAt plot.toNat).awake = true) ∧
  (∀ (s : State) (inst region : Nat) (r : Region), tfind s.regions (regionKey inst region) = some r →
    (r.armed = true → r.lost = false →
      exec (.configScrub inst region .clean) s = .next s ∧
      (∃ t, exec (.configScrub inst region .correctable) s = .next t ∧ t.logSeq = s.logSeq + 1 ∧ t.regions = s.regions ∧ t.mem = s.mem) ∧
      (r.errors = 0 → ∃ t, exec (.configScrub inst region .uncorrectable) s = .next t ∧
        tfind t.regions (regionKey inst region) = some { r with errors := 1, frozenLoad := true }) ∧
      (r.errors ≠ 0 → ∃ t, exec (.configScrub inst region .uncorrectable) s = .next t ∧
        tfind t.regions (regionKey inst region) = some { r with frozenLoad := true, lost := true, armed := false, disarming := [] })) ∧
    (r.frozenLoad = true → r.lost = false →
      exec (.regionReloadDone inst region true) s =
        .next (((s.modRegion (regionKey inst region) fun r => { r with frozenLoad := false }).logRec 0x10 (inst + region * 65536) 0).pumpInst inst) ∧
      (∃ t, exec (.regionReloadDone inst region false) s = .next t ∧
        tfind t.regions (regionKey inst region) = some { r with frozenLoad := true, lost := true, armed := false, disarming := [] })) ∧
    (∀ x, tfind s.insts inst = some x → x.saved = .halting → x.haltAt + 4560 ≤ s.clock → (r.running || r.ring != []) = true → ∃ t, exec (.preemptRegionFreeze inst region) s = .next t ∧
      tfind t.regions (regionKey inst region) = some { r with frozenPre := true } ∧ t.mem = s.mem)) ∧
  (∀ (s : State) (id : Nat) (c : ChanBeat) (b : Beat) (d : Nat), tfind s.chans id = some c → (∀ e ∈ s.chans, id ≤ e.1 ∨ e.2.src ≠ c.src) → s.portFrozen c.src = false →
    c.dsts = [d] → c.word = none → c.beat = some b →
    (s.canTake c.src d = true → s.laneStalls c.src d = false → exec (.channelBeatArrive id) s =
      .next ((((({ s with chans := tdel s.chans id } : State).modPort c.src fun p => { p with moved := p.moved + 1 }).takeIn d b).pumpPort c.src).pumpPort d)) ∧
    (s.canTake c.src d = false ∨ s.laneStalls c.src d = true → exec (.channelBeatArrive id) s = .next s)) ∧
  (∀ (s : State) (t : ScrubTarget), exec (.storageScrub t .clean) s = .next s ∧
    (∃ u, exec (.storageScrub t .correctable) s = .next u ∧ u.logSeq = s.logSeq + 1 ∧ u.mem = s.mem ∧ u.slots = s.slots) ∧
    exec (.storageScrub t .uncorrectable) s = .next (s.storageLost t)) ∧
  (∀ (s : State) (p : BitVec 13) (k : BitVec 3) (f : BitVec 3) (n : BitVec 5) (u : BitVec 3),
    let l := ((s.storageLost (.register p k f n u)).slotAt p.toNat k.toNat).bad
    (f = 2 ∨ f = 3 → (f, n, u ++ (0 : BitVec 1)) ∈ l ∧ (f, n, u ++ (1 : BitVec 1)) ∈ l) ∧ (f ≠ 2 ∧ f ≠ 3 → (f, n, 0) ∈ l)) ∧
  (∀ (s : State) (pa : BitVec 48), pa.toNat < 0x8000000000 → s.storageLost (.memory pa) =
    if s.backed (pa.toNat / 64 * 64) then s.fillInvalid 3 (pa.toNat / 64 * 64) 16 else s) ∧
  (∀ (s : State) (p : BitVec 13) (pa : BitVec 48) (va : BitVec 64), let q := s.plotAt p.toNat
    s.storageLost (.icache p pa) = s.modPlot p.toNat (fun x => { x with icache := q.icache.filter fun e => e.1 / 16 != pa.toNat / 64 }) ∧
    s.storageLost (.l1 p pa) = s.modPlot p.toNat (fun x => { x with l1 := tdel q.l1 (pa.toNat / 64) }) ∧
    s.storageLost (.tlb p va) = s.modPlot p.toNat (fun x => { x with tlb := q.tlb.filter fun e => !e.hits q.asid (vaNat va) })) ∧
  (∀ (s : State) (d : BitVec 3), (s.storageLost (.causal d)).rebasing ≠ .none)

/-- The slot that the scheduler chooses among the ready ones begins a firing at the entry of its actor, with g1 its firing count and g2 its argument, one permit fewer unless it has no parent, an empty loop stack and an empty L1. A PERMIT adds a permit, at most 255, or starts a run of a guidon. A settled firing sends DONE to its parent, which takes it. Rows of an arrival are counted and its word is done. A barrier at its deadline aborts its generation: on its die the arrivals at it are lost, and who waits for it is to trap. A firing older than its limit gets one WATCHDOG. An IDLE ends at its time. A pending trap of a firing is taken before its next instruction while its instance runs (unless an answer or a served read comes first, log 104), in a handler only a WATCHDOG. A pennant idle for its time (and not in the clk of its fall), that nobody waits for, whose move need not wait and reaches no removed die, begins to be evicted. One WATCHDOG until the ERET is log 62's choice, the plot that queues an event log 120's. (R163, R225, R344, R345, R348, R349, R358, R360, R366, R387, R403.) -/
def Obligations.ActorEvents : Prop :=
  (∀ (s : State) (p : BitVec 13) (k : BitVec 3) (i : Nat) (x : Inst) (a : Actor), s.bestSlot p.toNat (·.passed) (s.readySlots p.toNat) = some k.toNat →
    s.actorOf p.toNat k.toNat = some (i, x, a) →
    let y := s.slotAt p.toNat k.toNat
    ∃ t, exec (.firingStart p k) s = .next t ∧ t.mem = s.mem ∧ (t.slotAt p.toNat k.toNat).firing = true ∧ (t.slotAt p.toNat k.toNat).pc = a.entry ∧
      (t.slotAt p.toNat k.toNat).fcount = y.fcount + 1 ∧ (t.slotAt p.toNat k.toNat).gReg p.toNat 1 = .ofWord y.fcount ∧
      (t.slotAt p.toNat k.toNat).gReg p.toNat 2 = .ofWord a.args ∧ (t.slotAt p.toNat k.toNat).loops = [] ∧
      (t.slotAt p.toNat k.toNat).permits = (if a.parent = 0xFF then y.permits else y.permits - 1) ∧ (t.slotAt p.toNat k.toNat).fstart = s.clock ∧
      (t.plotAt p.toNat).l1 = []) ∧
  (∀ (s : State) (p : BitVec 13) (k : BitVec 3), s.bestSlot p.toNat (·.passed) (s.readySlots p.toNat) ≠ some k.toNat → exec (.firingStart p k) s = .next s) ∧
  (∀ (s : State) (id i n : Nat) (x : Inst), tfind s.insts i = some x →
    (∀ a, tfind s.tokens id = some (.permit i false n) → tfind x.actors n = some a → (∀ e ∈ s.insts, ∀ c ∈ e.2.ctx, c.plot ≠ a.plot) →
      ∃ t, exec (.permitReceive id) s = .next t ∧ tfind t.tokens id = none ∧ t.mem = s.mem ∧
        (t.slotAt a.plot a.slot).permits = if (s.slotAt a.plot a.slot).permits = 255 then 255 else (s.slotAt a.plot a.slot).permits + 1) ∧
    (∀ g, tfind s.tokens id = some (.permit i true n) → tfind x.guidons n = some g → (∀ e ∈ s.insts, ∀ c ∈ e.2.ctx, c.plot ≠ g.plot) →
      exec (.permitReceive id) s = .next (({ s with tokens := tdel s.tokens id } : State).permitGuidon i n))) ∧
  (∀ (s : State) (id i parent n : Nat) (isG : Bool) (g : Guidon), tfind s.tokens id = some (.done i parent isG n) → s.guidonAt i parent = some g →
    (∀ e ∈ s.insts, ∀ c ∈ e.2.ctx, c.plot ≠ g.plot) →
    exec (.guidonDoneReceive id) s = .next (({ s with tokens := tdel s.tokens id } : State).doneGuidon i parent (isG, n))) ∧
  (∀ (s : State) (id bound i j n : Nat) (rest : List (Nat × Nat)) (x : Inst) (a : Actor) (g : Guidon), (s.slotAt (id / 8) (id % 8)).doneOwed = (bound, i) :: rest →
    (s.settled (id / 8) (id % 8) bound = false → exec (.actorDone id) s = .next s) ∧
    (s.settled (id / 8) (id % 8) bound = true → s.actorOf (id / 8) (id % 8) = some (j, x, a) → s.guidonAt i a.parent = some g →
      (s.slotAt (id / 8) (id % 8)).actor = some (j, n) → exec (.actorDone id) s =
        .next ((s.modSlot (id / 8) (id % 8) fun y => { y with doneOwed := rest }).sendToken (id / 8) (dieOf g.plot) (.done i a.parent false n)))) ∧
  (∀ (s : State) (id word plot : Nat) (ctr : BitVec 4) (batch : BitVec 16) (row n1 : BitVec 6) (w : SWord), tfind s.tokens id = some (.arrv word plot ctr batch row n1) →
    (∀ e ∈ s.insts, ∀ c ∈ e.2.ctx, c.plot ≠ plot) → (s.plotAt plot).triggers = [] → tfind s.words word = some w →
    ∃ t, exec (.arrvApply id) s = .next t ∧ tfind t.tokens id = none ∧ tfind t.words word = some { w with stage := .finishing } ∧ t.mem = s.mem ∧
      tget ⟨0, 0, 0⟩ (t.plotAt plot).arrivals ctr.toNat = (tget ⟨0, 0, 0⟩ (s.plotAt plot).arrivals ctr.toNat).apply batch row n1) ∧
  (∀ (a : Arrival) (batch : BitVec 16) (row n1 : BitVec 6), (32768 ≤ (batch - a.batch).toNat → a.apply batch row n1 = a) ∧
    ((batch - a.batch).toNat < 32768 → (a.apply batch row n1).batch = batch ∧ ∀ r : Nat, r < 64 → row.toNat ≤ r → r ≤ row.toNat + n1.toNat →
      (a.apply batch row n1).seen.getLsbD r = true)) ∧
  (∀ (s : State) (i : Nat) (e : BitVec 8) (g : Guidon) (d : Nat) (x : Inst), s.guidonAt i e.toNat = some g → g.deadline = some d → tfind s.insts i = some x →
    (s.clock < d → exec (.barrierTimeout i e) s = .next s) ∧
    (d ≤ s.clock → x.saved = .running → ∃ t h, exec (.barrierTimeout i e) s = .next t ∧ t.guidonAt i e.toNat = some h ∧ h.gen = g.gen + 1 ∧ h.arrived = 0 ∧
      h.skipped = 0 ∧ h.deadline = none ∧ ∀ a ∈ x.actors, dieOf a.2.plot = dieOf g.plot →
        ((s.slotAt a.2.plot a.2.slot).bwait = some (e, g.gen) → (t.slotAt a.2.plot a.2.slot).barAbort = some (e, g.gen)) ∧
        (tfind (s.slotAt a.2.plot a.2.slot).arrGen e.toNat = some g.gen → tfind (t.slotAt a.2.plot a.2.slot).arrGen e.toNat = none))) ∧
  (∀ (s : State) (p : BitVec 13) (k : BitVec 3),
    let x := s.slotAt p.toNat k.toNat
    let limit := (x.firewd.extractLsb' 0 32).toNat
    (x.firing = true → x.held = false → x.wdFired = false → limit ≠ 0 → limit * 1900 < s.clock - x.fstart → s.instLive p.toNat = true →
      ∃ t, exec (.watchdog p k) s = .next t ∧ t.mem = s.mem ∧ (t.slotAt p.toNat k.toNat).wdFired = true ∧
        (t.slotAt p.toNat k.toNat).pend = x.pend ++ [⟨.watchdog, ⟨0x58, BitVec.ofNat 64 ((s.clock - x.fstart) / 1900), 0⟩⟩]) ∧
    (limit = 0 ∨ x.wdFired = true ∨ s.clock - x.fstart ≤ limit * 1900 → exec (.watchdog p k) s = .next s) ∧
    (∀ d, x.idleEnd = some d → (s.clock < d → exec (.idleTimeout p k) s = .next s) ∧
      (d ≤ s.clock → ∃ t, exec (.idleTimeout p k) s = .next t ∧ t.slotAt p.toNat k.toNat = { x with idleEnd := none } ∧ t.mem = s.mem)) ∧
    (∀ e, let s1 := (s.withdraw p.toNat k.toNat).orphan p.toNat k.toNat
      x.firing = true → x.held = false → x.nextPend = some e → (s1.slotAt p.toNat k.toNat).wait = none → s.plotRuns p.toNat = true →
      s1.pnHeld (8 * p.toNat + k.toNat) = false → x.ih = false → x.tvec ≠ 0 →
      ∃ t, exec (.asyncTrap p k) s = .next t ∧ t.focus = s.focus ∧ t.mem = s.mem ∧ (t.slotAt p.toNat k.toNat).pc = x.tvec ∧
        (t.slotAt p.toNat k.toNat).tepc = x.pc ∧ (t.slotAt p.toNat k.toNat).tval = e.trap.tval ∧ (t.slotAt p.toNat k.toNat).ih = true ∧
        (t.slotAt p.toNat k.toNat).g = x.g) ∧
    (x.ih = true → ∀ e, x.nextPend = some e → e.kind = .watchdog)) ∧
  (∀ (s : State) (sess : Option Nat) (name : Word) (k : Nat) (p : Pennant) (u : Nat), s.pennants.find? (fun e => e.2.name == name && (match sess with
        | some i => e.2.life == 0 && e.2.sess == i
        | none => e.2.life == 1)) = some (k, p) → tfind s.pennants k = some p → p.moving = false → p.idleFrom = some u →
    (p.state = .resident → p.attachers = [] → p.queue = [] → s.moveHeld p true = false → s.moveRemoved p p.origin = none → p.idle ≠ 0xFFFFFFFF →
      u + max 1 (p.idle.toNat * 1900) ≤ s.clock → ∃ t q, exec (.pennantIdleEvict sess name) s = .next t ∧
      tfind t.pennants k = some q ∧ q.state = .evicting ∧ q.name = p.name ∧ t.logSeq = s.logSeq + 1) ∧
    (p.attachers ≠ [] ∨ p.idle = 0xFFFFFFFF ∨ s.clock < u + max 1 (p.idle.toNat * 1900) → exec (.pennantIdleEvict sess name) s = .next s))

/-- An entry written on the queue pair of a queue lands in its slot. A doorbell there takes the tail when it is at most 64 entries beyond the head and halts the queue otherwise, as does one on another queue pair. When a queue is the one to be served, its plan is carried out: a halt, a refusal of each command of a gang, the note that their checks have passed, or a dispatch of each (what the front end checks when is log 86's). A dispatched single command that is no launch takes the tokens of its waits and becomes a command of the queue with its sequence number, opcode and instruction; the head moves behind it, its tag is late from then on and its patches are gone, but for those of the tag that another undispatched command declares. A patch for a queue that is gone is dropped and logged; for a tag pending in it, it is held, with what a dispatch of this clk still takes, when the slot is one of its patches and dropped otherwise; for a tag that is not, it is dropped when it is late, else held, or waits when 64 are. A command that is complete gives its links their tokens, one refused those it would have taken (an overflow is flagged and logged), counts, writes a record if it asks for one or was refused, and goes; a queue that closed itself goes with it. That a pair of number 1 takes no entry is log 87's choice, the remembered tags and the 65th patch log 78's, the body checked before and after its patches log 77's. (R226, R371, R372, R373, R374, R375, R376, R378, R385.) -/
def Obligations.FrontEndEvents : Prop :=
  (∀ (s : State) (sess queue : Nat) (qpn : BitVec 24) (port : BitVec 2) (q : CQueue), tfind s.queues (queueKey sess queue) = some q →
    s.qpTakes qpn.toNat port.toNat = true →
    (∀ (slot : BitVec 6) (e : List Word), e.length = 8 → q.qpn = qpn.toNat → q.port = port.toNat →
      ∃ t q', exec (.rdmaWrite sess queue qpn port slot e) s = .next t ∧ t = { s with queues := t.queues } ∧ tfind t.queues (queueKey sess queue) = some q' ∧
        q' = { q with entries := q'.entries } ∧ q'.entryAt slot.toNat = e ∧ (∀ n, n % 64 ≠ slot.toNat → q'.entryAt n = q.entryAt n)) ∧
    (∀ tail : BitVec 16,
      (q.qpn = qpn.toNat → q.port = port.toNat → (tail - q.head).toNat ≤ 64 → ∃ t q', exec (.doorbell sess queue qpn port tail) s = .next t ∧
        t = { s with queues := t.queues } ∧ tfind t.queues (queueKey sess queue) = some q' ∧ q' = { q with tail := tail, tenq := q'.tenq }) ∧
      (q.qpn ≠ qpn.toNat ∨ q.port ≠ port.toNat ∨ 64 < (tail - q.head).toNat → ∃ t, exec (.doorbell sess queue qpn port tail) s = .next t ∧
        tfind t.queues (queueKey sess queue) = some { q with halted := true }))) ∧
  (∀ (s : State) (sess queue : Nat) (q : CQueue),
    let k := queueKey sess queue
    (s.nextQueue ≠ some k → exec (.commandDispatch sess queue) s = .next s) ∧
    (s.nextQueue = some k → tfind s.queues k = some q →
      (s.plan sess queue q = .halt → ∃ t, exec (.commandDispatch sess queue) s = .next t ∧ tfind t.queues k = some { q with halted := true } ∧ t.cmds = s.cmds) ∧
      (∀ l, s.plan sess queue q = .refuse l → exec (.commandDispatch sess queue) s = 
        .next ((l.foldl (fun s p => s.refuseAt sess queue k q p) s).modQueue k fun x => { x with refusing := l.getLast?.any q.gangBit })) ∧
      (∀ l, s.plan sess queue q = .pass l → exec (.commandDispatch sess queue) s = .next (s.modQueue k fun x => { x with checked := x.checked ++ l })) ∧
      (∀ pos e i, s.plan sess queue q = .go [(pos, e, i, none)] → ∃ t c, exec (.commandDispatch sess queue) s = .next t ∧
        tfind t.cmds s.nextId = some c ∧ c.sess = sess ∧ c.queue = queue ∧ c.seq = (qAt e 0).extractLsb' 16 16 ∧ c.opcode = (qAt e 0).extractLsb' 0 8 ∧
        c.instr = some i ∧ c.served = false ∧ c.ready = false ∧ t.lastQueue = k ∧
        t.links = ((linksOf e 1).foldl (fun s l => s.takeToken (linkKey sess l)) s).links ∧ c.takes = (linksOf e 1).map (linkKey sess) ∧
        c.releases = (linksOf e 2).map (linkKey sess) ∧
        tfind t.queues k = some { q with
          head := BitVec.ofNat 16 (pos + q.length pos), live := q.live ++ [s.nextId], late := (nins q.late (ptagOf e)),
          checked := q.checked.filter (· != pos),
          patches := q.patches.filter fun x => !(x.1 / 4 == ptagOf (q.entryAt pos) && (decide (x.1 % 4 < npatchOf (q.entryAt pos)) ||
            !(q.pending.any fun p => p != pos && ptagOf (q.entryAt p) == ptagOf (q.entryAt pos) && decide (x.1 % 4 < npatchOf (q.entryAt p))))) }))) ∧
  (∀ (s : State) (k : Nat) (l : Link), tfind s.links k = some l →
    (l.tokens ≠ 0xFFFF → (s.addToken k) = { s with links := tset s.links k { l with tokens := l.tokens + 1 } }) ∧
    (l.tokens = 0xFFFF → tfind (s.addToken k).links k = some { l with overflow := true } ∧ (s.addToken k).logSeq = s.logSeq + 1)) ∧
  (∀ (p : Option Patch) (v : BitVec 32) (c : Nat), (Patch.put p v c).now c = p.bind (·.now c) ∧ ∀ c' > c, (Patch.put p v c).now c' = some v) ∧
  (∀ (s : State) (id : Nat) (m : PatchMsg), tfind s.patchMsgs id = some m →
    let k := queueKey m.sess m.queue
    (tfind s.queues k = none → ∃ t, exec (.patchArrive id) s = .next t ∧ tfind t.patchMsgs id = none ∧ t.logSeq = s.logSeq + 1 ∧ t.queues = s.queues) ∧
    (∀ q, tfind s.queues k = some q →
      ((∃ pos ∈ q.pending, ptagOf (q.entryAt pos) = m.tag.toNat ∧ m.slot.toNat < npatchOf (q.entryAt pos)) → ∃ t, exec (.patchArrive id) s = .next t ∧
        tfind t.patchMsgs id = none ∧ tfind t.queues k = some { q with
          patches := tset q.patches (4 * m.tag.toNat + m.slot.toNat) (Patch.put (tfind q.patches (4 * m.tag.toNat + m.slot.toNat)) m.value s.clock) }) ∧
      ((∃ pos ∈ q.pending, ptagOf (q.entryAt pos) = m.tag.toNat) →
        (∀ pos ∈ q.pending, ptagOf (q.entryAt pos) = m.tag.toNat → npatchOf (q.entryAt pos) ≤ m.slot.toNat) → ∃ t, exec (.patchArrive id) s = .next t ∧
        tfind t.patchMsgs id = none ∧ t.queues = s.queues ∧ t.logSeq = s.logSeq + 1) ∧
      ((∀ pos ∈ q.pending, ptagOf (q.entryAt pos) ≠ m.tag.toNat) →
        (nmem q.late m.tag.toNat = true → ∃ t, exec (.patchArrive id) s = .next t ∧ tfind t.patchMsgs id = none ∧ t.queues = s.queues ∧
          t.logSeq = s.logSeq + 1) ∧
        (nmem q.late m.tag.toNat = false → s.heldPatches < 64 → ∃ t, exec (.patchArrive id) s = .next t ∧ tfind t.patchMsgs id = none ∧
          tfind t.queues k = some { q with
          patches := tset q.patches (4 * m.tag.toNat + m.slot.toNat) (Patch.put (tfind q.patches (4 * m.tag.toNat + m.slot.toNat)) m.value s.clock) }) ∧
        (nmem q.late m.tag.toNat = false → 64 ≤ s.heldPatches → tfind q.patches (4 * m.tag.toNat + m.slot.toNat) = none →
          exec (.patchArrive id) s = .next s)))) ∧
  (∀ (s : State) (id : Nat) (c : Cmd) (q : CQueue), tfind s.cmds id = some c →
    let k := queueKey c.sess c.queue
    (s.completes c = false → exec (.commandComplete id) s = .next s) ∧
    (s.completes c = true → tfind s.queues k = some q → q.closing = none →
      (∀ t, exec (.commandComplete id) s = .next t → t.links = ((if c.status = 1 then c.takes else c.releases).foldl (fun s l => s.addToken l) s).links ∧
        t.insts = tmap s.insts fun _ x => if x.launch = some id then { x with launch := none } else x) ∧
      (c.crec = false → c.status ≠ 1 → ∃ t, exec (.commandComplete id) s = .next t ∧ tfind t.cmds id = none ∧ t.mem = s.mem ∧
        tfind t.queues k = some { q with completed := q.completed + 1, live := q.live.filter (· != id) }) ∧
      (c.crec = true ∨ c.status = 1 → ∀ x, tfind s.sessions c.sess = some x → ∃ t, exec (.commandComplete id) s = .next t ∧ tfind t.cmds id = none ∧
        tfind t.queues k = some { q with completed := q.completed + 1, live := q.live.filter (· != id), records := q.records + 1 } ∧
        tfind t.sessions c.sess = some (hostPut x (q.ring + 32 * (q.records % 2 ^ q.n)) ((c.record s.clock).flatMap quadBytes)))) ∧
    (s.completes c = true → ∀ q n, tfind s.queues k = some q → q.closing ≠ none → c.opcode = 2 → c.status = 0 → c.instr = some (.queueClose n) →
      n.toNat = c.queue → ∃ t, exec (.commandComplete id) s = .next t ∧ tfind t.cmds id = none ∧ tfind t.queues k = none))

/-- On a ready management queue pair, a SESSION_OPEN that is refused changes nothing but its answer; else it opens the lowest free session with queue 0. SESSION_CLOSE of a known key closes it, but for its HELD pennants (log 34). A port before power-on or without its link answers no message. Ten seconds with every queue pair in error close a session. A link that goes down puts every queue pair of its port in error and halts their queues. An RDMA atomic is answered with a NAK and does nothing else (log 69). ATTEST and SYNCSTATE answer on the management pair of the port that brought them, a malformed one with status 1, a SYNCSTATE that does not fit with status 2, and write nothing else. Power-on brings the module up once, with the partitions as firmware programs them and a bunting pool of at most 256 GiB (a choice that does not fit makes none: log 106). A present die at its limit is hot, once, until it falls below. A critical trip halts the module and ends its sessions. A defect entry of kind 1, 2 or 3 joins the map. Acknowledged host and peer writes are no longer outstanding. A pair once in error stays so (log 88), where a summary does not fit (log 89) and the end at the critical trip (log 91) are choices too. (R239, R326, R411, R413, R415, R419, R420, R421, R427, R429, R430.) -/
def Obligations.SessionsAndEnvironment : Prop :=
  (∀ (s : State) (qp : BitVec 24) (port : BitVec 2) (m : List Byte),
    (s.managed qp.toNat port.toNat = false → exec (.sessionOpen qp port m) s = .next s) ∧
    (s.managed qp.toNat port.toNat = true → s.openRefused m = true → exec (.sessionOpen qp port m) s = .next (s.reply port 1 0xFF 1 0 [])) ∧
    (s.managed qp.toNat port.toNat = true → s.openRefused m = false → ∀ k, (List.range 16).find? (fun k => (tfind s.sessions k).isNone) = some k →
      ∃ t q, exec (.sessionOpen qp port m) s = .next t ∧ tfind t.sessions k = some (openSession m) ∧ tfind t.queues (queueKey k 0) = some q ∧
        q.halted = false ∧ q.head = 0 ∧ q.tail = 0 ∧ t.mem = s.mem ∧ t.slots = s.slots)) ∧
  (∀ (s : State) (port : BitVec 2), s.managed 1 port.toNat = (s.powered && !s.qpDown.contains port.toNat)) ∧
  (∀ (s : State) (m : List Byte), s.managed 1 s.focus.port.toNat = false →
    exec (.sessionClose m) s = .next s ∧ exec (.attest m) s = .next s ∧ exec (.syncstate m) s = .next s) ∧
  (∀ (s : State) (m : List Byte), s.managed 1 s.focus.port.toNat = true →
    (msgFits m 16 0x4C5A5343 0 = false → exec (.sessionClose m) s = .next (s.reply s.focus.port 2 0xFF 1 0 [])) ∧
    (msgFits m 16 0x4C5A5343 0 = true → ∀ k, s.sessionOf (msgQ m 8) = some k →
      ∃ t, exec (.sessionClose m) s = .next t ∧ tfind t.sessions k = none ∧ (∀ e ∈ t.queues, e.1 / 256 ≠ k) ∧ ∀ e ∈ t.cmds, e.2.sess ≠ k) ∧
    (msgFits m 16 0x4C5A5341 0 = false → exec (.attest m) s = .next (s.reply s.focus.port 3 0xFF 1 0 [])) ∧
    (msgFits m 16 0x4C5A5341 0 = true → ∃ t, exec (.attest m) s = .next t ∧ t = { s with sent := t.sent, free := s.free + 1 } ∧ t.sent.length = s.sent.length + 1) ∧
    (syncMalformed m = true → exec (.syncstate m) s = .next (s.reply s.focus.port 4 0xFF 1 0 [])) ∧
    (syncMalformed m = false → ∀ k r x, s.sessionOf (msgQ m 0x10) = some k → s.sessionOf (msgQ m 0x18) = some r → tfind s.sessions r = some x →
      let n := ((s.summary k (msgQ m 8)).flatMap quadBytes).length + 96
      (uAt (msgQ m 0x28) 0 40 < n ∨ x.inside (uAt (msgQ m 0x20) 0 48) n = false → exec (.syncstate m) s = .next (s.reply s.focus.port 4 k 2 n [])) ∧
      (n ≤ uAt (msgQ m 0x28) 0 40 → x.inside (uAt (msgQ m 0x20) 0 48) n = true → ∃ t, exec (.syncstate m) s = .next t ∧
        t = { s with sent := t.sent, free := s.free + 1, sessions := t.sessions } ∧ ∀ j, j ≠ r → tfind t.sessions j = tfind s.sessions j))) ∧
  (∀ (s : State) (k : Nat) (x : Session) (d : Nat), tfind s.sessions k = some x → x.errSince = some d →
    (s.clock < d + 19000000000 → exec (.sessionTimeout k) s = .next s) ∧
    (d + 19000000000 ≤ s.clock → s.allDown k = true → ∃ t, exec (.sessionTimeout k) s = .next t ∧ tfind t.sessions k = none)) ∧
  (∀ (s : State) (port : BitVec 2), ∃ t, exec (.qpLinkDown port) s = .next t ∧ t.mem = s.mem ∧ t.slots = s.slots ∧ t.cmds = s.cmds ∧
    t.queues = (tmap s.queues fun _ q => if q.port = port.toNat then { q with halted := true } else q) ∧
    (∀ n, t.qpReady n port.toNat = false) ∧ (∀ n p, p ≠ port.toNat → t.qpReady n p = s.qpReady n p)) ∧
  (∀ (s : State) (qpn : BitVec 24) (port : BitVec 2), exec (.rdmaAtomic qpn port) s =
    .next (if s.powered && !s.qpDown.contains port.toNat then { s with naks := s.naks ++ [(qpn, port)] } else s)) ∧
  (∀ (s : State) (b : BootChoices), (s.powered = true → exec (.powerOn b) s = .next s) ∧
    (s.powered = false → ∃ t, exec (.powerOn b) s = .next t ∧ t.powered = true ∧ t.slots = s.slots ∧ t.bunting.blocks ≤ 0x800000 ∧ t.bunting.names = [] ∧
      t.bunting.refs = [] ∧ t.peers = b.peers ∧ (∀ i p, i < 8 → b.partitions[i]? = some p → tfind t.partitions i = some (s.bootPartition p)))) ∧
  (∀ (s : State) (base n : Nat), (s.bootPool base n).blocks = 0 ∨ ((s.bootPool base n).blocks = n ∧ n % s.presentDies.length = 0)) ∧
  (∀ (s : State) (d : BitVec 3),
    (s.present d.toNat = true → (s.dieAt d.toNat).hot = false → ∃ t, exec (.thermalLimit d) s = .next t ∧ t.dieAt d.toNat = { s.dieAt d.toNat with hot := true } ∧
      t = { s with dies := t.dies, sent := t.sent } ∧ t.sent.length = s.sent.length + s.sessions.length) ∧
    (s.present d.toNat = false ∨ (s.dieAt d.toNat).hot = true → exec (.thermalLimit d) s = .next s) ∧
    ((s.dieAt d.toNat).hot = true → ∃ t, exec (.temperatureBelowLimit d) s = .next t ∧ t.dieAt d.toNat = { s.dieAt d.toNat with hot := false } ∧
      t = { s with dies := t.dies, sent := t.sent }) ∧
    ((s.dieAt d.toNat).hot = false → exec (.temperatureBelowLimit d) s = .next s)) ∧
  (∀ s : State, ∃ t, exec .criticalTrip s = .next t ∧ t.halted = true ∧ t.sessions = [] ∧ t.queues = [] ∧ t.mem = s.mem) ∧
  (∀ (s : State) (d : BitVec 3) (e : BitVec 32),
    (defectEntryOk e = true → ∃ t, exec (.defectEntryAdded d e) s = .next t ∧ e ∈ (t.dieAt d.toNat).defects ∧ t = { s with dies := t.dies } ∧
      ∀ f ∈ (s.dieAt d.toNat).defects, f ∈ (t.dieAt d.toNat).defects) ∧
    (defectEntryOk e = false → exec (.defectEntryAdded d e) s = .next s) ∧
    (e.extractLsb' 16 16 = 0x1000 → defectEntryOk e = true) ∧
    ((e.extractLsb' 16 16 = 0x2000 ∨ e.extractLsb' 16 16 = 0x3000) → e.extractLsb' 10 6 = 0 → defectEntryOk e = true)) ∧
  (∀ (s : State) (id : Nat), exec (.hostWriteAcknowledged id) s = .next { s with hostAcks := tdel s.hostAcks id } ∧
    exec (.peerWriteAcknowledged id) s = .next { s with peerOut := tdel s.peerOut id })

end
end

