-- ==== Sys2Proof/Laws/Tab.lean ====
section
/-! SUPPORT. Tables and sets of numbers: what is read after a write, and that writes keep them rising. -/

namespace Sys2Proof.Machine

@[simp] theorem tget_nil {α : Type} (d : α) (k : Nat) : tget d [] k = d := rfl
@[simp] theorem tfind_nil {α : Type} (k : Nat) : tfind ([] : Tab α) k = none := rfl

/-- Reading after setting an entry. -/
theorem tget_tset {α : Type} (d : α) (t : Tab α) (k : Nat) (v : α) (j : Nat) :
    tget d (tset t k v) j = if j = k then v else tget d t j := by
  induction t with
  | nil => grind [tset, tget]
  | cons e t ih => obtain ⟨i, x⟩ := e; grind [tset, tget]
@[simp] theorem tget_tset_self {α : Type} (d : α) (t : Tab α) (k : Nat) (v : α) : tget d (tset t k v) k = v := by
  simp [tget_tset]
theorem tget_tset_ne {α : Type} (d : α) (t : Tab α) {k j : Nat} (v : α) (h : j ≠ k) : tget d (tset t k v) j = tget d t j := by
  simp [tget_tset, h]
/-- Finding after setting an entry. -/
theorem tfind_tset {α : Type} (t : Tab α) (k : Nat) (v : α) (j : Nat) :
    tfind (tset t k v) j = if j = k then some v else tfind t j := by
  induction t with
  | nil => grind [tset, tfind]
  | cons e t ih => obtain ⟨i, x⟩ := e; grind [tset, tfind]
/-- Reading after deleting an entry. -/
theorem tget_tdel {α : Type} (d : α) (t : Tab α) (k j : Nat) : tget d (tdel t k) j = if j = k then d else tget d t j := by
  induction t with
  | nil => grind [tdel, tget]
  | cons e t ih => obtain ⟨i, x⟩ := e; grind [tdel, tget]
/-- Finding after deleting an entry. -/
theorem tfind_tdel {α : Type} (t : Tab α) (k j : Nat) : tfind (tdel t k) j = if j = k then none else tfind t j := by
  induction t with
  | nil => grind [tdel, tfind]
  | cons e t ih => obtain ⟨i, x⟩ := e; grind [tdel, tfind]
/-- An entry read with a default is the one found, or the default. -/
theorem tget_eq_tfind {α : Type} (d : α) (t : Tab α) (k : Nat) : tget d t k = (tfind t k).getD d := by
  induction t with
  | nil => rfl
  | cons e t ih => obtain ⟨i, x⟩ := e; grind [tget, tfind]
/-- A filter that keeps an entry's key and value shows it as before. -/
theorem tget_filter_keep {α : Type} (d : α) (t : Tab α) (p : Nat × α → Bool) (k : Nat) (h : ∀ x, p (k, x) = true) :
    tget d (t.filter p) k = tget d t k := by
  induction t with
  | nil => rfl
  | cons e t ih => obtain ⟨i, x⟩ := e; grind [tget]

/-- Membership after insertion. -/
theorem nmem_nins (l : NSet) (k j : Nat) : nmem (nins l k) j = (j == k || nmem l j) := by
  induction l with
  | nil => grind [nins, nmem]
  | cons a t ih => grind [nins, nmem]
/-- Membership after deletion. -/
theorem nmem_ndel (l : NSet) (k j : Nat) : nmem (ndel l k) j = (j != k && nmem l j) := by
  induction l with
  | nil => grind [ndel, nmem]
  | cons a t ih => grind [ndel, nmem]

/-- Rising, as a pairwise order. -/
theorem rising_iff (l : List Nat) : rising l = true ↔ l.Pairwise (· < ·) := by
  induction l with
  | nil => simp [rising]
  | cons a t ih =>
    cases t with
    | nil => simp [rising]
    | cons b t =>
      simp only [rising, Bool.and_eq_true, decide_eq_true_eq, ih, List.pairwise_cons]
      constructor
      · rintro ⟨h, h1, h2⟩
        refine ⟨?_, h1, h2⟩
        intro x hx
        rcases List.mem_cons.1 hx with rfl | hx
        · exact h
        · exact lt_trans h (h1 x hx)
      · rintro ⟨h, h1, h2⟩
        exact ⟨h b (by simp), h1, h2⟩
theorem mem_keys_tset {α : Type} (t : Tab α) (k : Nat) (v : α) (j : Nat) :
    j ∈ (tset t k v).map (·.1) → j = k ∨ j ∈ t.map (·.1) := by
  induction t with
  | nil => simp [tset]
  | cons e t ih =>
    obtain ⟨i, x⟩ := e
    simp only [tset]
    split
    · simp
    · split
      · rename_i h; subst h; simp only [List.map_cons, List.mem_cons]; tauto
      · simp only [List.map_cons, List.mem_cons] at *; tauto
/-- Setting an entry keeps the keys rising. -/
theorem rising_tset {α : Type} (t : Tab α) (k : Nat) (v : α) (h : rising (t.map (·.1)) = true) :
    rising ((tset t k v).map (·.1)) = true := by
  rw [rising_iff] at *
  induction t with
  | nil => simp [tset]
  | cons e t ih =>
    obtain ⟨i, x⟩ := e
    simp only [List.map_cons, List.pairwise_cons] at h
    simp only [tset]
    split
    · rename_i hk
      simp only [List.map_cons, List.pairwise_cons, List.mem_cons]
      refine ⟨?_, h.1, h.2⟩
      rintro y (rfl | hy)
      · exact hk
      · exact lt_trans hk (h.1 y hy)
    · split
      · rename_i hk; subst hk; simp only [List.map_cons, List.pairwise_cons]; exact h
      · simp only [List.map_cons, List.pairwise_cons]
        refine ⟨?_, ih h.2⟩
        intro y hy
        rcases mem_keys_tset t k v y hy with rfl | hy
        · omega
        · exact h.1 y hy
theorem tdel_eq_filter {α : Type} (t : Tab α) (k : Nat) : tdel t k = t.filter fun e => e.1 != k := by
  induction t with
  | nil => rfl
  | cons e t ih => obtain ⟨i, x⟩ := e; simp only [tdel]; split <;> simp_all
/-- Filtering keeps the keys rising. -/
theorem rising_filter {α : Type} (t : Tab α) (p : Nat × α → Bool) (h : rising (t.map (·.1)) = true) :
    rising ((t.filter p).map (·.1)) = true := by
  rw [rising_iff] at *
  exact h.sublist (List.Sublist.map _ List.filter_sublist)
/-- Deleting an entry keeps the keys rising. -/
theorem rising_tdel {α : Type} (t : Tab α) (k : Nat) (h : rising (t.map (·.1)) = true) : rising ((tdel t k).map (·.1)) = true := by
  rw [tdel_eq_filter]; exact rising_filter t _ h
theorem mem_nins (l : NSet) (k j : Nat) : j ∈ nins l k → j = k ∨ j ∈ l := by
  induction l with
  | nil => simp [nins]
  | cons a t ih =>
    simp only [nins]
    split
    · simp
    · split
      · tauto
      · simp only [List.mem_cons]; tauto
/-- Inserting keeps a set rising. -/
theorem rising_nins (l : NSet) (k : Nat) (h : rising l = true) : rising (nins l k) = true := by
  rw [rising_iff] at *
  induction l with
  | nil => simp [nins]
  | cons a t ih =>
    simp only [List.pairwise_cons] at h
    simp only [nins]
    split
    · rename_i hk
      simp only [List.pairwise_cons, List.mem_cons]
      refine ⟨?_, h.1, h.2⟩
      rintro y (rfl | hy)
      · exact hk
      · exact lt_trans hk (h.1 y hy)
    · split
      · simp only [List.pairwise_cons]; exact h
      · simp only [List.pairwise_cons]
        refine ⟨?_, ih h.2⟩
        intro y hy
        rcases mem_nins t k y hy with rfl | hy
        · omega
        · exact h.1 y hy
theorem ndel_eq_filter (l : NSet) (k : Nat) : ndel l k = l.filter (· != k) := by
  induction l with
  | nil => rfl
  | cons a t ih => simp only [ndel]; split <;> simp_all
/-- Deleting keeps a set rising. -/
theorem rising_ndel (l : NSet) (k : Nat) (h : rising l = true) : rising (ndel l k) = true := by
  rw [ndel_eq_filter]; rw [rising_iff] at *; exact h.sublist List.filter_sublist

end Sys2Proof.Machine
end

