-- ==== Sys2Proof/Laws/Memory.lean ====
section
/-! SUPPORT. Every memory operation keeps memory in its canonical form, and leaves alone what it does not write. -/

namespace Sys2Proof.Machine

/-- The canonical form, part by part. -/
theorem Memory.wf_iff (m : Memory) : Memory.wf m = true ↔ rising (m.cells.map (·.1)) = true ∧ (∀ e ∈ m.cells, e.2 ≠ freshByte e.1) ∧
    rising m.odd = true ∧ rising m.full = true := by
  simp [Memory.wf, and_assoc]
@[simp] theorem Memory.wf_empty : Memory.wf ⟨[], [], []⟩ = true := rfl

theorem mem_tset {α : Type} (t : Tab α) (k : Nat) (v : α) (e : Nat × α) : e ∈ tset t k v → e = (k, v) ∨ e ∈ t := by
  induction t with
  | nil => simp [tset]
  | cons e t ih => obtain ⟨i, x⟩ := e; grind [tset]
/-- A byte written. -/
theorem Memory.wf_setByte (m : Memory) (a : Nat) (b : Byte) (h : Memory.wf m = true) : Memory.wf (m.setByte a b) = true := by
  rw [Memory.wf_iff] at *
  obtain ⟨h1, h2, h3, h4⟩ := h
  simp only [Memory.setByte]
  refine ⟨?_, ?_, h3, h4⟩
  · split
    · exact rising_tdel _ _ h1
    · exact rising_tset _ _ _ h1
  · split
    · intro e he; rw [tdel_eq_filter] at he; exact h2 e (List.mem_filter.1 he).1
    · intro e he
      rcases mem_tset _ _ _ _ he with rfl | he
      · assumption
      · exact h2 e he
/-- Bytes written. -/
theorem Memory.wf_setBytes (m : Memory) (a : Nat) (l : List Byte) (h : Memory.wf m = true) : Memory.wf (m.setBytes a l) = true := by
  induction l generalizing m a with
  | nil => exact h
  | cons b t ih => exact ih _ _ (Memory.wf_setByte m a b h)
/-- A validity bit written. -/
theorem Memory.wf_setValid (m : Memory) (a : Nat) (v : Bool) (h : Memory.wf m = true) : Memory.wf (m.setValid a v) = true := by
  rw [Memory.wf_iff] at *
  obtain ⟨h1, h2, h3, h4⟩ := h
  simp only [Memory.setValid]
  refine ⟨h1, h2, ?_, h4⟩
  split
  · exact rising_ndel _ _ h3
  · exact rising_nins _ _ h3
/-- A word written. -/
theorem Memory.wf_setWord (m : Memory) (a : Nat) (w : W32) (h : Memory.wf m = true) : Memory.wf (m.setWord a w) = true :=
  Memory.wf_setValid _ _ _ (Memory.wf_setBytes _ _ _ h)
/-- Words written. -/
theorem Memory.wf_setWords (m : Memory) (a : Nat) (l : List W32) (h : Memory.wf m = true) : Memory.wf (m.setWords a l) = true := by
  induction l generalizing m a with
  | nil => exact h
  | cons b t ih => exact ih _ _ (Memory.wf_setWord m a b h)
/-- A full/empty bit written. -/
theorem Memory.wf_setFe (m : Memory) (a : Nat) (f : Bool) (h : Memory.wf m = true) : Memory.wf (m.setFe a f) = true := by
  rw [Memory.wf_iff] at *
  obtain ⟨h1, h2, h3, h4⟩ := h
  simp only [Memory.setFe]
  refine ⟨h1, h2, h3, ?_⟩
  split
  · exact rising_nins _ _ h4
  · exact rising_ndel _ _ h4
/-- Entries left out. -/
theorem Memory.wf_filter (m : Memory) (p : Host.Cell → Bool) (q r : Nat → Bool) (h : Memory.wf m = true) :
    Memory.wf ⟨m.cells.filter p, m.odd.filter q, m.full.filter r⟩ = true := by
  rw [Memory.wf_iff] at *
  obtain ⟨h1, h2, h3, h4⟩ := h
  refine ⟨rising_filter _ _ h1, fun e he => h2 e (List.mem_filter.1 he).1, ?_, ?_⟩
  · rw [rising_iff] at *; exact h3.sublist List.filter_sublist
  · rw [rising_iff] at *; exact h4.sublist List.filter_sublist

theorem newCells_bounds (a : Nat) (l : List W32) : ∀ e ∈ newCells a l, a ≤ e.1 ∧ e.1 < a + 4 * l.length ∧ e.2 ≠ freshByte e.1 := by
  induction l generalizing a with
  | nil => simp [newCells]
  | cons w t ih =>
    intro e he
    simp only [newCells, List.mem_append, List.mem_filter, List.mem_map, List.length_cons] at *
    rcases he with ⟨⟨i, hi, rfl⟩, hf⟩ | he
    · refine ⟨by simp, ?_, by simpa using hf⟩
      simp at hi
      simp only
      omega
    · have := ih (a + 4) e he
      refine ⟨by omega, by omega, this.2.2⟩
theorem newCells_rising (a : Nat) (l : List W32) : ((newCells a l).map (·.1)).Pairwise (· < ·) := by
  induction l generalizing a with
  | nil => simp [newCells]
  | cons w t ih =>
    simp only [newCells, List.map_append, List.pairwise_append]
    refine ⟨?_, ih _, ?_⟩
    · refine List.Pairwise.sublist (List.Sublist.map _ List.filter_sublist) ?_
      simp
    · intro x hx y hy
      simp only [List.mem_map, List.mem_filter] at hx hy
      obtain ⟨e, ⟨⟨i, hi, rfl⟩, _⟩, rfl⟩ := hx
      obtain ⟨e', he', rfl⟩ := hy
      have := newCells_bounds (a + 4) t e' he'
      simp at hi
      simp only
      omega
theorem newOdd_bounds (a : Nat) (l : List W32) : ∀ k ∈ newOdd a l, a / 4 ≤ k ∧ k < a / 4 + l.length := by
  induction l generalizing a with
  | nil => simp [newOdd]
  | cons w t ih =>
    intro k hk
    simp only [newOdd] at hk
    simp only [List.length_cons]
    split at hk
    · have := ih (a + 4) k hk; omega
    · rcases List.mem_cons.1 hk with rfl | hk
      · omega
      · have := ih (a + 4) k hk; omega
theorem newOdd_rising (a : Nat) (l : List W32) : (newOdd a l).Pairwise (· < ·) := by
  induction l generalizing a with
  | nil => simp [newOdd]
  | cons w t ih =>
    simp only [newOdd]
    split
    · exact ih _
    · refine List.pairwise_cons.2 ⟨?_, ih _⟩
      intro k hk
      have := newOdd_bounds (a + 4) t k hk
      omega
/-- A long list of words written at once. -/
theorem Memory.wf_setBulk (m : Memory) (a : Nat) (l : List W32) (h : Memory.wf m = true) : Memory.wf (m.setBulk a l) = true := by
  rw [Memory.wf_iff] at *
  obtain ⟨h1, h2, h3, h4⟩ := h
  rw [rising_iff] at h1 h3
  simp only [Memory.setBulk]
  refine ⟨?_, ?_, ?_, h4⟩
  · rw [rising_iff]
    simp only [List.map_append, List.append_assoc, List.pairwise_append]
    refine ⟨h1.sublist (List.Sublist.map _ List.filter_sublist), ⟨newCells_rising a l, h1.sublist (List.Sublist.map _ List.filter_sublist), ?_⟩, ?_⟩
    · intro x hx y hy
      obtain ⟨e, he, rfl⟩ := List.mem_map.1 hx
      obtain ⟨f, hf, rfl⟩ := List.mem_map.1 hy
      have := newCells_bounds a l e he
      have := (List.mem_filter.1 hf).2
      simp at this
      omega
    · intro x hx y hy
      obtain ⟨e, he, rfl⟩ := List.mem_map.1 hx
      have h5 := (List.mem_filter.1 he).2
      simp at h5
      rcases List.mem_append.1 hy with hy | hy
      · obtain ⟨f, hf, rfl⟩ := List.mem_map.1 hy
        have := newCells_bounds a l f hf
        omega
      · obtain ⟨f, hf, rfl⟩ := List.mem_map.1 hy
        have := (List.mem_filter.1 hf).2
        simp at this
        omega
  · intro e he
    simp only [List.mem_append] at he
    rcases he with (he | he) | he
    · exact h2 e (List.mem_filter.1 he).1
    · exact (newCells_bounds a l e he).2.2
    · exact h2 e (List.mem_filter.1 he).1
  · rw [rising_iff]
    simp only [List.append_assoc, List.pairwise_append]
    refine ⟨h3.sublist List.filter_sublist, ⟨newOdd_rising a l, h3.sublist List.filter_sublist, ?_⟩, ?_⟩
    · intro x hx y hy
      have := newOdd_bounds a l x hx
      have := (List.mem_filter.1 hy).2
      simp at this
      omega
    · intro x hx y hy
      have h5 := (List.mem_filter.1 hx).2
      simp at h5
      rcases List.mem_append.1 hy with hy | hy
      · have := newOdd_bounds a l y hy
        omega
      · have := (List.mem_filter.1 hy).2
        simp at this
        omega
/-- A write of a byte leaves every other byte. -/
theorem Memory.byte_setByte_ne (m : Memory) {a c : Nat} (b : Byte) (h : c ≠ a) : (m.setByte a b).byte c = m.byte c := by
  simp only [Memory.setByte, Memory.byte]
  split
  · rw [tget_tdel, if_neg h]
  · rw [tget_tset_ne _ _ _ h]
/-- A write of bytes leaves every byte outside them. -/
theorem Memory.byte_setBytes_of_lt (m : Memory) (a c : Nat) (l : List Byte) (h : c < a ∨ a + l.length ≤ c) :
    (m.setBytes a l).byte c = m.byte c := by
  induction l generalizing m a with
  | nil => rfl
  | cons b t ih =>
    simp only [List.length_cons] at h
    rw [Memory.setBytes, ih _ _ (by omega), Memory.byte_setByte_ne _ _ (by omega)]
@[simp] theorem Memory.byte_setValid (m : Memory) (a c : Nat) (v : Bool) : (m.setValid a v).byte c = m.byte c := rfl
@[simp] theorem Memory.byte_setFe (m : Memory) (a c : Nat) (v : Bool) : (m.setFe a v).byte c = m.byte c := rfl
/-- A write of a word leaves every byte outside it. -/
theorem Memory.byte_setWord_of_lt (m : Memory) (a c : Nat) (w : W32) (h : c < a ∨ a + 4 ≤ c) : (m.setWord a w).byte c = m.byte c := by
  simp only [Memory.setWord, Memory.byte_setValid]
  exact Memory.byte_setBytes_of_lt _ _ _ _ h
/-- A write of words leaves every byte outside them. -/
theorem Memory.byte_setWords_of_lt (m : Memory) (a c : Nat) (l : List W32) (h : c < a ∨ a + 4 * l.length ≤ c) :
    (m.setWords a l).byte c = m.byte c := by
  induction l generalizing m a with
  | nil => rfl
  | cons b t ih =>
    simp only [List.length_cons] at h
    rw [Memory.setWords, ih _ _ (by omega), Memory.byte_setWord_of_lt _ _ _ _ (by omega)]

end Sys2Proof.Machine
end

