-- ==== Sys2Proof/Laws/State.lean ====
section
/-! SUPPORT. What each update of the state leaves: one lemma for each field and update, true by rfl, and what is read back. -/

namespace Sys2Proof.Machine

/-! setSlot -/
@[simp] theorem State.setSlot_part (s : State) (p k : Nat) (x : Slot) : (s.setSlot p k x).part = s.part := rfl
@[simp] theorem State.setSlot_powered (s : State) (p k : Nat) (x : Slot) : (s.setSlot p k x).powered = s.powered := rfl
@[simp] theorem State.setSlot_halted (s : State) (p k : Nat) (x : Slot) : (s.setSlot p k x).halted = s.halted := rfl
@[simp] theorem State.setSlot_clock (s : State) (p k : Nat) (x : Slot) : (s.setSlot p k x).clock = s.clock := rfl
@[simp] theorem State.setSlot_mem (s : State) (p k : Nat) (x : Slot) : (s.setSlot p k x).mem = s.mem := rfl
@[simp] theorem State.setSlot_plots (s : State) (p k : Nat) (x : Slot) : (s.setSlot p k x).plots = s.plots := rfl
@[simp] theorem State.setSlot_reqs (s : State) (p k : Nat) (x : Slot) : (s.setSlot p k x).reqs = s.reqs := rfl
@[simp] theorem State.setSlot_walks (s : State) (p k : Nat) (x : Slot) : (s.setSlot p k x).walks = s.walks := rfl
@[simp] theorem State.setSlot_pnreqs (s : State) (p k : Nat) (x : Slot) : (s.setSlot p k x).pnreqs = s.pnreqs := rfl
@[simp] theorem State.setSlot_outs (s : State) (p k : Nat) (x : Slot) : (s.setSlot p k x).outs = s.outs := rfl
@[simp] theorem State.setSlot_packets (s : State) (p k : Nat) (x : Slot) : (s.setSlot p k x).packets = s.packets := rfl
@[simp] theorem State.setSlot_frontiers (s : State) (p k : Nat) (x : Slot) : (s.setSlot p k x).frontiers = s.frontiers := rfl
@[simp] theorem State.setSlot_asked (s : State) (p k : Nat) (x : Slot) : (s.setSlot p k x).asked = s.asked := rfl
@[simp] theorem State.setSlot_tokens (s : State) (p k : Nat) (x : Slot) : (s.setSlot p k x).tokens = s.tokens := rfl
@[simp] theorem State.setSlot_causal (s : State) (p k : Nat) (x : Slot) : (s.setSlot p k x).causal = s.causal := rfl
@[simp] theorem State.setSlot_removed (s : State) (p k : Nat) (x : Slot) : (s.setSlot p k x).removed = s.removed := rfl
@[simp] theorem State.setSlot_rebase (s : State) (p k : Nat) (x : Slot) : (s.setSlot p k x).rebase = s.rebase := rfl
@[simp] theorem State.setSlot_rebasing (s : State) (p k : Nat) (x : Slot) : (s.setSlot p k x).rebasing = s.rebasing := rfl
@[simp] theorem State.setSlot_rebaseAt (s : State) (p k : Nat) (x : Slot) : (s.setSlot p k x).rebaseAt = s.rebaseAt := rfl
@[simp] theorem State.setSlot_lastDelivery (s : State) (p k : Nat) (x : Slot) : (s.setSlot p k x).lastDelivery = s.lastDelivery := rfl
@[simp] theorem State.setSlot_partitions (s : State) (p k : Nat) (x : Slot) : (s.setSlot p k x).partitions = s.partitions := rfl
@[simp] theorem State.setSlot_pendingParts (s : State) (p k : Nat) (x : Slot) : (s.setSlot p k x).pendingParts = s.pendingParts := rfl
@[simp] theorem State.setSlot_dies (s : State) (p k : Nat) (x : Slot) : (s.setSlot p k x).dies = s.dies := rfl
@[simp] theorem State.setSlot_optics (s : State) (p k : Nat) (x : Slot) : (s.setSlot p k x).optics = s.optics := rfl
@[simp] theorem State.setSlot_recovery (s : State) (p k : Nat) (x : Slot) : (s.setSlot p k x).recovery = s.recovery := rfl
@[simp] theorem State.setSlot_transients (s : State) (p k : Nat) (x : Slot) : (s.setSlot p k x).transients = s.transients := rfl
@[simp] theorem State.setSlot_bunting (s : State) (p k : Nat) (x : Slot) : (s.setSlot p k x).bunting = s.bunting := rfl
@[simp] theorem State.setSlot_pennants (s : State) (p k : Nat) (x : Slot) : (s.setSlot p k x).pennants = s.pennants := rfl
@[simp] theorem State.setSlot_words (s : State) (p k : Nat) (x : Slot) : (s.setSlot p k x).words = s.words := rfl
@[simp] theorem State.setSlot_ports (s : State) (p k : Nat) (x : Slot) : (s.setSlot p k x).ports = s.ports := rfl
@[simp] theorem State.setSlot_regions (s : State) (p k : Nat) (x : Slot) : (s.setSlot p k x).regions = s.regions := rfl
@[simp] theorem State.setSlot_chans (s : State) (p k : Nat) (x : Slot) : (s.setSlot p k x).chans = s.chans := rfl
@[simp] theorem State.setSlot_insts (s : State) (p k : Nat) (x : Slot) : (s.setSlot p k x).insts = s.insts := rfl
@[simp] theorem State.setSlot_nextInst (s : State) (p k : Nat) (x : Slot) : (s.setSlot p k x).nextInst = s.nextInst := rfl
@[simp] theorem State.setSlot_peers (s : State) (p k : Nat) (x : Slot) : (s.setSlot p k x).peers = s.peers := rfl
@[simp] theorem State.setSlot_peerOut (s : State) (p k : Nat) (x : Slot) : (s.setSlot p k x).peerOut = s.peerOut := rfl
@[simp] theorem State.setSlot_hostAcks (s : State) (p k : Nat) (x : Slot) : (s.setSlot p k x).hostAcks = s.hostAcks := rfl
@[simp] theorem State.setSlot_sessions (s : State) (p k : Nat) (x : Slot) : (s.setSlot p k x).sessions = s.sessions := rfl
@[simp] theorem State.setSlot_qpDown (s : State) (p k : Nat) (x : Slot) : (s.setSlot p k x).qpDown = s.qpDown := rfl
@[simp] theorem State.setSlot_naks (s : State) (p k : Nat) (x : Slot) : (s.setSlot p k x).naks = s.naks := rfl
@[simp] theorem State.setSlot_queues (s : State) (p k : Nat) (x : Slot) : (s.setSlot p k x).queues = s.queues := rfl
@[simp] theorem State.setSlot_links (s : State) (p k : Nat) (x : Slot) : (s.setSlot p k x).links = s.links := rfl
@[simp] theorem State.setSlot_cmds (s : State) (p k : Nat) (x : Slot) : (s.setSlot p k x).cmds = s.cmds := rfl
@[simp] theorem State.setSlot_patchMsgs (s : State) (p k : Nat) (x : Slot) : (s.setSlot p k x).patchMsgs = s.patchMsgs := rfl
@[simp] theorem State.setSlot_lastQueue (s : State) (p k : Nat) (x : Slot) : (s.setSlot p k x).lastQueue = s.lastQueue := rfl
@[simp] theorem State.setSlot_parkIds (s : State) (p k : Nat) (x : Slot) : (s.setSlot p k x).parkIds = s.parkIds := rfl
@[simp] theorem State.setSlot_log (s : State) (p k : Nat) (x : Slot) : (s.setSlot p k x).log = s.log := rfl
@[simp] theorem State.setSlot_logSeq (s : State) (p k : Nat) (x : Slot) : (s.setSlot p k x).logSeq = s.logSeq := rfl
@[simp] theorem State.setSlot_logRead (s : State) (p k : Nat) (x : Slot) : (s.setSlot p k x).logRead = s.logRead := rfl
@[simp] theorem State.setSlot_logLost (s : State) (p k : Nat) (x : Slot) : (s.setSlot p k x).logLost = s.logLost := rfl
@[simp] theorem State.setSlot_sent (s : State) (p k : Nat) (x : Slot) : (s.setSlot p k x).sent = s.sent := rfl
@[simp] theorem State.setSlot_nextId (s : State) (p k : Nat) (x : Slot) : (s.setSlot p k x).nextId = s.nextId := rfl
@[simp] theorem State.setSlot_sched (s : State) (p k : Nat) (x : Slot) : (s.setSlot p k x).sched = s.sched := rfl
@[simp] theorem State.setSlot_choices (s : State) (p k : Nat) (x : Slot) : (s.setSlot p k x).choices = s.choices := rfl
@[simp] theorem State.setSlot_focus (s : State) (p k : Nat) (x : Slot) : (s.setSlot p k x).focus = s.focus := rfl
@[simp] theorem State.setSlot_free (s : State) (p k : Nat) (x : Slot) : (s.setSlot p k x).free = s.free := rfl
/-! setCur -/
@[simp] theorem State.setCur_part (s : State) (x : Slot) : (s.setCur x).part = s.part := rfl
@[simp] theorem State.setCur_powered (s : State) (x : Slot) : (s.setCur x).powered = s.powered := rfl
@[simp] theorem State.setCur_halted (s : State) (x : Slot) : (s.setCur x).halted = s.halted := rfl
@[simp] theorem State.setCur_clock (s : State) (x : Slot) : (s.setCur x).clock = s.clock := rfl
@[simp] theorem State.setCur_mem (s : State) (x : Slot) : (s.setCur x).mem = s.mem := rfl
@[simp] theorem State.setCur_plots (s : State) (x : Slot) : (s.setCur x).plots = s.plots := rfl
@[simp] theorem State.setCur_reqs (s : State) (x : Slot) : (s.setCur x).reqs = s.reqs := rfl
@[simp] theorem State.setCur_walks (s : State) (x : Slot) : (s.setCur x).walks = s.walks := rfl
@[simp] theorem State.setCur_pnreqs (s : State) (x : Slot) : (s.setCur x).pnreqs = s.pnreqs := rfl
@[simp] theorem State.setCur_outs (s : State) (x : Slot) : (s.setCur x).outs = s.outs := rfl
@[simp] theorem State.setCur_packets (s : State) (x : Slot) : (s.setCur x).packets = s.packets := rfl
@[simp] theorem State.setCur_frontiers (s : State) (x : Slot) : (s.setCur x).frontiers = s.frontiers := rfl
@[simp] theorem State.setCur_asked (s : State) (x : Slot) : (s.setCur x).asked = s.asked := rfl
@[simp] theorem State.setCur_tokens (s : State) (x : Slot) : (s.setCur x).tokens = s.tokens := rfl
@[simp] theorem State.setCur_causal (s : State) (x : Slot) : (s.setCur x).causal = s.causal := rfl
@[simp] theorem State.setCur_removed (s : State) (x : Slot) : (s.setCur x).removed = s.removed := rfl
@[simp] theorem State.setCur_rebase (s : State) (x : Slot) : (s.setCur x).rebase = s.rebase := rfl
@[simp] theorem State.setCur_rebasing (s : State) (x : Slot) : (s.setCur x).rebasing = s.rebasing := rfl
@[simp] theorem State.setCur_rebaseAt (s : State) (x : Slot) : (s.setCur x).rebaseAt = s.rebaseAt := rfl
@[simp] theorem State.setCur_lastDelivery (s : State) (x : Slot) : (s.setCur x).lastDelivery = s.lastDelivery := rfl
@[simp] theorem State.setCur_partitions (s : State) (x : Slot) : (s.setCur x).partitions = s.partitions := rfl
@[simp] theorem State.setCur_pendingParts (s : State) (x : Slot) : (s.setCur x).pendingParts = s.pendingParts := rfl
@[simp] theorem State.setCur_dies (s : State) (x : Slot) : (s.setCur x).dies = s.dies := rfl
@[simp] theorem State.setCur_optics (s : State) (x : Slot) : (s.setCur x).optics = s.optics := rfl
@[simp] theorem State.setCur_recovery (s : State) (x : Slot) : (s.setCur x).recovery = s.recovery := rfl
@[simp] theorem State.setCur_transients (s : State) (x : Slot) : (s.setCur x).transients = s.transients := rfl
@[simp] theorem State.setCur_bunting (s : State) (x : Slot) : (s.setCur x).bunting = s.bunting := rfl
@[simp] theorem State.setCur_pennants (s : State) (x : Slot) : (s.setCur x).pennants = s.pennants := rfl
@[simp] theorem State.setCur_words (s : State) (x : Slot) : (s.setCur x).words = s.words := rfl
@[simp] theorem State.setCur_ports (s : State) (x : Slot) : (s.setCur x).ports = s.ports := rfl
@[simp] theorem State.setCur_regions (s : State) (x : Slot) : (s.setCur x).regions = s.regions := rfl
@[simp] theorem State.setCur_chans (s : State) (x : Slot) : (s.setCur x).chans = s.chans := rfl
@[simp] theorem State.setCur_insts (s : State) (x : Slot) : (s.setCur x).insts = s.insts := rfl
@[simp] theorem State.setCur_nextInst (s : State) (x : Slot) : (s.setCur x).nextInst = s.nextInst := rfl
@[simp] theorem State.setCur_peers (s : State) (x : Slot) : (s.setCur x).peers = s.peers := rfl
@[simp] theorem State.setCur_peerOut (s : State) (x : Slot) : (s.setCur x).peerOut = s.peerOut := rfl
@[simp] theorem State.setCur_hostAcks (s : State) (x : Slot) : (s.setCur x).hostAcks = s.hostAcks := rfl
@[simp] theorem State.setCur_sessions (s : State) (x : Slot) : (s.setCur x).sessions = s.sessions := rfl
@[simp] theorem State.setCur_qpDown (s : State) (x : Slot) : (s.setCur x).qpDown = s.qpDown := rfl
@[simp] theorem State.setCur_naks (s : State) (x : Slot) : (s.setCur x).naks = s.naks := rfl
@[simp] theorem State.setCur_queues (s : State) (x : Slot) : (s.setCur x).queues = s.queues := rfl
@[simp] theorem State.setCur_links (s : State) (x : Slot) : (s.setCur x).links = s.links := rfl
@[simp] theorem State.setCur_cmds (s : State) (x : Slot) : (s.setCur x).cmds = s.cmds := rfl
@[simp] theorem State.setCur_patchMsgs (s : State) (x : Slot) : (s.setCur x).patchMsgs = s.patchMsgs := rfl
@[simp] theorem State.setCur_lastQueue (s : State) (x : Slot) : (s.setCur x).lastQueue = s.lastQueue := rfl
@[simp] theorem State.setCur_parkIds (s : State) (x : Slot) : (s.setCur x).parkIds = s.parkIds := rfl
@[simp] theorem State.setCur_log (s : State) (x : Slot) : (s.setCur x).log = s.log := rfl
@[simp] theorem State.setCur_logSeq (s : State) (x : Slot) : (s.setCur x).logSeq = s.logSeq := rfl
@[simp] theorem State.setCur_logRead (s : State) (x : Slot) : (s.setCur x).logRead = s.logRead := rfl
@[simp] theorem State.setCur_logLost (s : State) (x : Slot) : (s.setCur x).logLost = s.logLost := rfl
@[simp] theorem State.setCur_sent (s : State) (x : Slot) : (s.setCur x).sent = s.sent := rfl
@[simp] theorem State.setCur_nextId (s : State) (x : Slot) : (s.setCur x).nextId = s.nextId := rfl
@[simp] theorem State.setCur_sched (s : State) (x : Slot) : (s.setCur x).sched = s.sched := rfl
@[simp] theorem State.setCur_choices (s : State) (x : Slot) : (s.setCur x).choices = s.choices := rfl
@[simp] theorem State.setCur_focus (s : State) (x : Slot) : (s.setCur x).focus = s.focus := rfl
@[simp] theorem State.setCur_free (s : State) (x : Slot) : (s.setCur x).free = s.free := rfl
/-! modCur -/
@[simp] theorem State.modCur_part (s : State) (f : Slot → Slot) : (s.modCur f).part = s.part := rfl
@[simp] theorem State.modCur_powered (s : State) (f : Slot → Slot) : (s.modCur f).powered = s.powered := rfl
@[simp] theorem State.modCur_halted (s : State) (f : Slot → Slot) : (s.modCur f).halted = s.halted := rfl
@[simp] theorem State.modCur_clock (s : State) (f : Slot → Slot) : (s.modCur f).clock = s.clock := rfl
@[simp] theorem State.modCur_mem (s : State) (f : Slot → Slot) : (s.modCur f).mem = s.mem := rfl
@[simp] theorem State.modCur_plots (s : State) (f : Slot → Slot) : (s.modCur f).plots = s.plots := rfl
@[simp] theorem State.modCur_reqs (s : State) (f : Slot → Slot) : (s.modCur f).reqs = s.reqs := rfl
@[simp] theorem State.modCur_walks (s : State) (f : Slot → Slot) : (s.modCur f).walks = s.walks := rfl
@[simp] theorem State.modCur_pnreqs (s : State) (f : Slot → Slot) : (s.modCur f).pnreqs = s.pnreqs := rfl
@[simp] theorem State.modCur_outs (s : State) (f : Slot → Slot) : (s.modCur f).outs = s.outs := rfl
@[simp] theorem State.modCur_packets (s : State) (f : Slot → Slot) : (s.modCur f).packets = s.packets := rfl
@[simp] theorem State.modCur_frontiers (s : State) (f : Slot → Slot) : (s.modCur f).frontiers = s.frontiers := rfl
@[simp] theorem State.modCur_asked (s : State) (f : Slot → Slot) : (s.modCur f).asked = s.asked := rfl
@[simp] theorem State.modCur_tokens (s : State) (f : Slot → Slot) : (s.modCur f).tokens = s.tokens := rfl
@[simp] theorem State.modCur_causal (s : State) (f : Slot → Slot) : (s.modCur f).causal = s.causal := rfl
@[simp] theorem State.modCur_removed (s : State) (f : Slot → Slot) : (s.modCur f).removed = s.removed := rfl
@[simp] theorem State.modCur_rebase (s : State) (f : Slot → Slot) : (s.modCur f).rebase = s.rebase := rfl
@[simp] theorem State.modCur_rebasing (s : State) (f : Slot → Slot) : (s.modCur f).rebasing = s.rebasing := rfl
@[simp] theorem State.modCur_rebaseAt (s : State) (f : Slot → Slot) : (s.modCur f).rebaseAt = s.rebaseAt := rfl
@[simp] theorem State.modCur_lastDelivery (s : State) (f : Slot → Slot) : (s.modCur f).lastDelivery = s.lastDelivery := rfl
@[simp] theorem State.modCur_partitions (s : State) (f : Slot → Slot) : (s.modCur f).partitions = s.partitions := rfl
@[simp] theorem State.modCur_pendingParts (s : State) (f : Slot → Slot) : (s.modCur f).pendingParts = s.pendingParts := rfl
@[simp] theorem State.modCur_dies (s : State) (f : Slot → Slot) : (s.modCur f).dies = s.dies := rfl
@[simp] theorem State.modCur_optics (s : State) (f : Slot → Slot) : (s.modCur f).optics = s.optics := rfl
@[simp] theorem State.modCur_recovery (s : State) (f : Slot → Slot) : (s.modCur f).recovery = s.recovery := rfl
@[simp] theorem State.modCur_transients (s : State) (f : Slot → Slot) : (s.modCur f).transients = s.transients := rfl
@[simp] theorem State.modCur_bunting (s : State) (f : Slot → Slot) : (s.modCur f).bunting = s.bunting := rfl
@[simp] theorem State.modCur_pennants (s : State) (f : Slot → Slot) : (s.modCur f).pennants = s.pennants := rfl
@[simp] theorem State.modCur_words (s : State) (f : Slot → Slot) : (s.modCur f).words = s.words := rfl
@[simp] theorem State.modCur_ports (s : State) (f : Slot → Slot) : (s.modCur f).ports = s.ports := rfl
@[simp] theorem State.modCur_regions (s : State) (f : Slot → Slot) : (s.modCur f).regions = s.regions := rfl
@[simp] theorem State.modCur_chans (s : State) (f : Slot → Slot) : (s.modCur f).chans = s.chans := rfl
@[simp] theorem State.modCur_insts (s : State) (f : Slot → Slot) : (s.modCur f).insts = s.insts := rfl
@[simp] theorem State.modCur_nextInst (s : State) (f : Slot → Slot) : (s.modCur f).nextInst = s.nextInst := rfl
@[simp] theorem State.modCur_peers (s : State) (f : Slot → Slot) : (s.modCur f).peers = s.peers := rfl
@[simp] theorem State.modCur_peerOut (s : State) (f : Slot → Slot) : (s.modCur f).peerOut = s.peerOut := rfl
@[simp] theorem State.modCur_hostAcks (s : State) (f : Slot → Slot) : (s.modCur f).hostAcks = s.hostAcks := rfl
@[simp] theorem State.modCur_sessions (s : State) (f : Slot → Slot) : (s.modCur f).sessions = s.sessions := rfl
@[simp] theorem State.modCur_qpDown (s : State) (f : Slot → Slot) : (s.modCur f).qpDown = s.qpDown := rfl
@[simp] theorem State.modCur_naks (s : State) (f : Slot → Slot) : (s.modCur f).naks = s.naks := rfl
@[simp] theorem State.modCur_queues (s : State) (f : Slot → Slot) : (s.modCur f).queues = s.queues := rfl
@[simp] theorem State.modCur_links (s : State) (f : Slot → Slot) : (s.modCur f).links = s.links := rfl
@[simp] theorem State.modCur_cmds (s : State) (f : Slot → Slot) : (s.modCur f).cmds = s.cmds := rfl
@[simp] theorem State.modCur_patchMsgs (s : State) (f : Slot → Slot) : (s.modCur f).patchMsgs = s.patchMsgs := rfl
@[simp] theorem State.modCur_lastQueue (s : State) (f : Slot → Slot) : (s.modCur f).lastQueue = s.lastQueue := rfl
@[simp] theorem State.modCur_parkIds (s : State) (f : Slot → Slot) : (s.modCur f).parkIds = s.parkIds := rfl
@[simp] theorem State.modCur_log (s : State) (f : Slot → Slot) : (s.modCur f).log = s.log := rfl
@[simp] theorem State.modCur_logSeq (s : State) (f : Slot → Slot) : (s.modCur f).logSeq = s.logSeq := rfl
@[simp] theorem State.modCur_logRead (s : State) (f : Slot → Slot) : (s.modCur f).logRead = s.logRead := rfl
@[simp] theorem State.modCur_logLost (s : State) (f : Slot → Slot) : (s.modCur f).logLost = s.logLost := rfl
@[simp] theorem State.modCur_sent (s : State) (f : Slot → Slot) : (s.modCur f).sent = s.sent := rfl
@[simp] theorem State.modCur_nextId (s : State) (f : Slot → Slot) : (s.modCur f).nextId = s.nextId := rfl
@[simp] theorem State.modCur_sched (s : State) (f : Slot → Slot) : (s.modCur f).sched = s.sched := rfl
@[simp] theorem State.modCur_choices (s : State) (f : Slot → Slot) : (s.modCur f).choices = s.choices := rfl
@[simp] theorem State.modCur_focus (s : State) (f : Slot → Slot) : (s.modCur f).focus = s.focus := rfl
@[simp] theorem State.modCur_free (s : State) (f : Slot → Slot) : (s.modCur f).free = s.free := rfl
/-! modSlot -/
@[simp] theorem State.modSlot_part (s : State) (p k : Nat) (f : Slot → Slot) : (s.modSlot p k f).part = s.part := rfl
@[simp] theorem State.modSlot_powered (s : State) (p k : Nat) (f : Slot → Slot) : (s.modSlot p k f).powered = s.powered := rfl
@[simp] theorem State.modSlot_halted (s : State) (p k : Nat) (f : Slot → Slot) : (s.modSlot p k f).halted = s.halted := rfl
@[simp] theorem State.modSlot_clock (s : State) (p k : Nat) (f : Slot → Slot) : (s.modSlot p k f).clock = s.clock := rfl
@[simp] theorem State.modSlot_mem (s : State) (p k : Nat) (f : Slot → Slot) : (s.modSlot p k f).mem = s.mem := rfl
@[simp] theorem State.modSlot_plots (s : State) (p k : Nat) (f : Slot → Slot) : (s.modSlot p k f).plots = s.plots := rfl
@[simp] theorem State.modSlot_reqs (s : State) (p k : Nat) (f : Slot → Slot) : (s.modSlot p k f).reqs = s.reqs := rfl
@[simp] theorem State.modSlot_walks (s : State) (p k : Nat) (f : Slot → Slot) : (s.modSlot p k f).walks = s.walks := rfl
@[simp] theorem State.modSlot_pnreqs (s : State) (p k : Nat) (f : Slot → Slot) : (s.modSlot p k f).pnreqs = s.pnreqs := rfl
@[simp] theorem State.modSlot_outs (s : State) (p k : Nat) (f : Slot → Slot) : (s.modSlot p k f).outs = s.outs := rfl
@[simp] theorem State.modSlot_packets (s : State) (p k : Nat) (f : Slot → Slot) : (s.modSlot p k f).packets = s.packets := rfl
@[simp] theorem State.modSlot_frontiers (s : State) (p k : Nat) (f : Slot → Slot) : (s.modSlot p k f).frontiers = s.frontiers := rfl
@[simp] theorem State.modSlot_asked (s : State) (p k : Nat) (f : Slot → Slot) : (s.modSlot p k f).asked = s.asked := rfl
@[simp] theorem State.modSlot_tokens (s : State) (p k : Nat) (f : Slot → Slot) : (s.modSlot p k f).tokens = s.tokens := rfl
@[simp] theorem State.modSlot_causal (s : State) (p k : Nat) (f : Slot → Slot) : (s.modSlot p k f).causal = s.causal := rfl
@[simp] theorem State.modSlot_removed (s : State) (p k : Nat) (f : Slot → Slot) : (s.modSlot p k f).removed = s.removed := rfl
@[simp] theorem State.modSlot_rebase (s : State) (p k : Nat) (f : Slot → Slot) : (s.modSlot p k f).rebase = s.rebase := rfl
@[simp] theorem State.modSlot_rebasing (s : State) (p k : Nat) (f : Slot → Slot) : (s.modSlot p k f).rebasing = s.rebasing := rfl
@[simp] theorem State.modSlot_rebaseAt (s : State) (p k : Nat) (f : Slot → Slot) : (s.modSlot p k f).rebaseAt = s.rebaseAt := rfl
@[simp] theorem State.modSlot_lastDelivery (s : State) (p k : Nat) (f : Slot → Slot) : (s.modSlot p k f).lastDelivery = s.lastDelivery := rfl
@[simp] theorem State.modSlot_partitions (s : State) (p k : Nat) (f : Slot → Slot) : (s.modSlot p k f).partitions = s.partitions := rfl
@[simp] theorem State.modSlot_pendingParts (s : State) (p k : Nat) (f : Slot → Slot) : (s.modSlot p k f).pendingParts = s.pendingParts := rfl
@[simp] theorem State.modSlot_dies (s : State) (p k : Nat) (f : Slot → Slot) : (s.modSlot p k f).dies = s.dies := rfl
@[simp] theorem State.modSlot_optics (s : State) (p k : Nat) (f : Slot → Slot) : (s.modSlot p k f).optics = s.optics := rfl
@[simp] theorem State.modSlot_recovery (s : State) (p k : Nat) (f : Slot → Slot) : (s.modSlot p k f).recovery = s.recovery := rfl
@[simp] theorem State.modSlot_transients (s : State) (p k : Nat) (f : Slot → Slot) : (s.modSlot p k f).transients = s.transients := rfl
@[simp] theorem State.modSlot_bunting (s : State) (p k : Nat) (f : Slot → Slot) : (s.modSlot p k f).bunting = s.bunting := rfl
@[simp] theorem State.modSlot_pennants (s : State) (p k : Nat) (f : Slot → Slot) : (s.modSlot p k f).pennants = s.pennants := rfl
@[simp] theorem State.modSlot_words (s : State) (p k : Nat) (f : Slot → Slot) : (s.modSlot p k f).words = s.words := rfl
@[simp] theorem State.modSlot_ports (s : State) (p k : Nat) (f : Slot → Slot) : (s.modSlot p k f).ports = s.ports := rfl
@[simp] theorem State.modSlot_regions (s : State) (p k : Nat) (f : Slot → Slot) : (s.modSlot p k f).regions = s.regions := rfl
@[simp] theorem State.modSlot_chans (s : State) (p k : Nat) (f : Slot → Slot) : (s.modSlot p k f).chans = s.chans := rfl
@[simp] theorem State.modSlot_insts (s : State) (p k : Nat) (f : Slot → Slot) : (s.modSlot p k f).insts = s.insts := rfl
@[simp] theorem State.modSlot_nextInst (s : State) (p k : Nat) (f : Slot → Slot) : (s.modSlot p k f).nextInst = s.nextInst := rfl
@[simp] theorem State.modSlot_peers (s : State) (p k : Nat) (f : Slot → Slot) : (s.modSlot p k f).peers = s.peers := rfl
@[simp] theorem State.modSlot_peerOut (s : State) (p k : Nat) (f : Slot → Slot) : (s.modSlot p k f).peerOut = s.peerOut := rfl
@[simp] theorem State.modSlot_hostAcks (s : State) (p k : Nat) (f : Slot → Slot) : (s.modSlot p k f).hostAcks = s.hostAcks := rfl
@[simp] theorem State.modSlot_sessions (s : State) (p k : Nat) (f : Slot → Slot) : (s.modSlot p k f).sessions = s.sessions := rfl
@[simp] theorem State.modSlot_qpDown (s : State) (p k : Nat) (f : Slot → Slot) : (s.modSlot p k f).qpDown = s.qpDown := rfl
@[simp] theorem State.modSlot_naks (s : State) (p k : Nat) (f : Slot → Slot) : (s.modSlot p k f).naks = s.naks := rfl
@[simp] theorem State.modSlot_queues (s : State) (p k : Nat) (f : Slot → Slot) : (s.modSlot p k f).queues = s.queues := rfl
@[simp] theorem State.modSlot_links (s : State) (p k : Nat) (f : Slot → Slot) : (s.modSlot p k f).links = s.links := rfl
@[simp] theorem State.modSlot_cmds (s : State) (p k : Nat) (f : Slot → Slot) : (s.modSlot p k f).cmds = s.cmds := rfl
@[simp] theorem State.modSlot_patchMsgs (s : State) (p k : Nat) (f : Slot → Slot) : (s.modSlot p k f).patchMsgs = s.patchMsgs := rfl
@[simp] theorem State.modSlot_lastQueue (s : State) (p k : Nat) (f : Slot → Slot) : (s.modSlot p k f).lastQueue = s.lastQueue := rfl
@[simp] theorem State.modSlot_parkIds (s : State) (p k : Nat) (f : Slot → Slot) : (s.modSlot p k f).parkIds = s.parkIds := rfl
@[simp] theorem State.modSlot_log (s : State) (p k : Nat) (f : Slot → Slot) : (s.modSlot p k f).log = s.log := rfl
@[simp] theorem State.modSlot_logSeq (s : State) (p k : Nat) (f : Slot → Slot) : (s.modSlot p k f).logSeq = s.logSeq := rfl
@[simp] theorem State.modSlot_logRead (s : State) (p k : Nat) (f : Slot → Slot) : (s.modSlot p k f).logRead = s.logRead := rfl
@[simp] theorem State.modSlot_logLost (s : State) (p k : Nat) (f : Slot → Slot) : (s.modSlot p k f).logLost = s.logLost := rfl
@[simp] theorem State.modSlot_sent (s : State) (p k : Nat) (f : Slot → Slot) : (s.modSlot p k f).sent = s.sent := rfl
@[simp] theorem State.modSlot_nextId (s : State) (p k : Nat) (f : Slot → Slot) : (s.modSlot p k f).nextId = s.nextId := rfl
@[simp] theorem State.modSlot_sched (s : State) (p k : Nat) (f : Slot → Slot) : (s.modSlot p k f).sched = s.sched := rfl
@[simp] theorem State.modSlot_choices (s : State) (p k : Nat) (f : Slot → Slot) : (s.modSlot p k f).choices = s.choices := rfl
@[simp] theorem State.modSlot_focus (s : State) (p k : Nat) (f : Slot → Slot) : (s.modSlot p k f).focus = s.focus := rfl
@[simp] theorem State.modSlot_free (s : State) (p k : Nat) (f : Slot → Slot) : (s.modSlot p k f).free = s.free := rfl
/-! modPlot -/
@[simp] theorem State.modPlot_part (s : State) (p : Nat) (f : Plot → Plot) : (s.modPlot p f).part = s.part := rfl
@[simp] theorem State.modPlot_powered (s : State) (p : Nat) (f : Plot → Plot) : (s.modPlot p f).powered = s.powered := rfl
@[simp] theorem State.modPlot_halted (s : State) (p : Nat) (f : Plot → Plot) : (s.modPlot p f).halted = s.halted := rfl
@[simp] theorem State.modPlot_clock (s : State) (p : Nat) (f : Plot → Plot) : (s.modPlot p f).clock = s.clock := rfl
@[simp] theorem State.modPlot_mem (s : State) (p : Nat) (f : Plot → Plot) : (s.modPlot p f).mem = s.mem := rfl
@[simp] theorem State.modPlot_slots (s : State) (p : Nat) (f : Plot → Plot) : (s.modPlot p f).slots = s.slots := rfl
@[simp] theorem State.modPlot_reqs (s : State) (p : Nat) (f : Plot → Plot) : (s.modPlot p f).reqs = s.reqs := rfl
@[simp] theorem State.modPlot_walks (s : State) (p : Nat) (f : Plot → Plot) : (s.modPlot p f).walks = s.walks := rfl
@[simp] theorem State.modPlot_pnreqs (s : State) (p : Nat) (f : Plot → Plot) : (s.modPlot p f).pnreqs = s.pnreqs := rfl
@[simp] theorem State.modPlot_outs (s : State) (p : Nat) (f : Plot → Plot) : (s.modPlot p f).outs = s.outs := rfl
@[simp] theorem State.modPlot_packets (s : State) (p : Nat) (f : Plot → Plot) : (s.modPlot p f).packets = s.packets := rfl
@[simp] theorem State.modPlot_frontiers (s : State) (p : Nat) (f : Plot → Plot) : (s.modPlot p f).frontiers = s.frontiers := rfl
@[simp] theorem State.modPlot_asked (s : State) (p : Nat) (f : Plot → Plot) : (s.modPlot p f).asked = s.asked := rfl
@[simp] theorem State.modPlot_tokens (s : State) (p : Nat) (f : Plot → Plot) : (s.modPlot p f).tokens = s.tokens := rfl
@[simp] theorem State.modPlot_causal (s : State) (p : Nat) (f : Plot → Plot) : (s.modPlot p f).causal = s.causal := rfl
@[simp] theorem State.modPlot_removed (s : State) (p : Nat) (f : Plot → Plot) : (s.modPlot p f).removed = s.removed := rfl
@[simp] theorem State.modPlot_rebase (s : State) (p : Nat) (f : Plot → Plot) : (s.modPlot p f).rebase = s.rebase := rfl
@[simp] theorem State.modPlot_rebasing (s : State) (p : Nat) (f : Plot → Plot) : (s.modPlot p f).rebasing = s.rebasing := rfl
@[simp] theorem State.modPlot_rebaseAt (s : State) (p : Nat) (f : Plot → Plot) : (s.modPlot p f).rebaseAt = s.rebaseAt := rfl
@[simp] theorem State.modPlot_lastDelivery (s : State) (p : Nat) (f : Plot → Plot) : (s.modPlot p f).lastDelivery = s.lastDelivery := rfl
@[simp] theorem State.modPlot_partitions (s : State) (p : Nat) (f : Plot → Plot) : (s.modPlot p f).partitions = s.partitions := rfl
@[simp] theorem State.modPlot_pendingParts (s : State) (p : Nat) (f : Plot → Plot) : (s.modPlot p f).pendingParts = s.pendingParts := rfl
@[simp] theorem State.modPlot_dies (s : State) (p : Nat) (f : Plot → Plot) : (s.modPlot p f).dies = s.dies := rfl
@[simp] theorem State.modPlot_optics (s : State) (p : Nat) (f : Plot → Plot) : (s.modPlot p f).optics = s.optics := rfl
@[simp] theorem State.modPlot_recovery (s : State) (p : Nat) (f : Plot → Plot) : (s.modPlot p f).recovery = s.recovery := rfl
@[simp] theorem State.modPlot_transients (s : State) (p : Nat) (f : Plot → Plot) : (s.modPlot p f).transients = s.transients := rfl
@[simp] theorem State.modPlot_bunting (s : State) (p : Nat) (f : Plot → Plot) : (s.modPlot p f).bunting = s.bunting := rfl
@[simp] theorem State.modPlot_pennants (s : State) (p : Nat) (f : Plot → Plot) : (s.modPlot p f).pennants = s.pennants := rfl
@[simp] theorem State.modPlot_words (s : State) (p : Nat) (f : Plot → Plot) : (s.modPlot p f).words = s.words := rfl
@[simp] theorem State.modPlot_ports (s : State) (p : Nat) (f : Plot → Plot) : (s.modPlot p f).ports = s.ports := rfl
@[simp] theorem State.modPlot_regions (s : State) (p : Nat) (f : Plot → Plot) : (s.modPlot p f).regions = s.regions := rfl
@[simp] theorem State.modPlot_chans (s : State) (p : Nat) (f : Plot → Plot) : (s.modPlot p f).chans = s.chans := rfl
@[simp] theorem State.modPlot_insts (s : State) (p : Nat) (f : Plot → Plot) : (s.modPlot p f).insts = s.insts := rfl
@[simp] theorem State.modPlot_nextInst (s : State) (p : Nat) (f : Plot → Plot) : (s.modPlot p f).nextInst = s.nextInst := rfl
@[simp] theorem State.modPlot_peers (s : State) (p : Nat) (f : Plot → Plot) : (s.modPlot p f).peers = s.peers := rfl
@[simp] theorem State.modPlot_peerOut (s : State) (p : Nat) (f : Plot → Plot) : (s.modPlot p f).peerOut = s.peerOut := rfl
@[simp] theorem State.modPlot_hostAcks (s : State) (p : Nat) (f : Plot → Plot) : (s.modPlot p f).hostAcks = s.hostAcks := rfl
@[simp] theorem State.modPlot_sessions (s : State) (p : Nat) (f : Plot → Plot) : (s.modPlot p f).sessions = s.sessions := rfl
@[simp] theorem State.modPlot_qpDown (s : State) (p : Nat) (f : Plot → Plot) : (s.modPlot p f).qpDown = s.qpDown := rfl
@[simp] theorem State.modPlot_naks (s : State) (p : Nat) (f : Plot → Plot) : (s.modPlot p f).naks = s.naks := rfl
@[simp] theorem State.modPlot_queues (s : State) (p : Nat) (f : Plot → Plot) : (s.modPlot p f).queues = s.queues := rfl
@[simp] theorem State.modPlot_links (s : State) (p : Nat) (f : Plot → Plot) : (s.modPlot p f).links = s.links := rfl
@[simp] theorem State.modPlot_cmds (s : State) (p : Nat) (f : Plot → Plot) : (s.modPlot p f).cmds = s.cmds := rfl
@[simp] theorem State.modPlot_patchMsgs (s : State) (p : Nat) (f : Plot → Plot) : (s.modPlot p f).patchMsgs = s.patchMsgs := rfl
@[simp] theorem State.modPlot_lastQueue (s : State) (p : Nat) (f : Plot → Plot) : (s.modPlot p f).lastQueue = s.lastQueue := rfl
@[simp] theorem State.modPlot_parkIds (s : State) (p : Nat) (f : Plot → Plot) : (s.modPlot p f).parkIds = s.parkIds := rfl
@[simp] theorem State.modPlot_log (s : State) (p : Nat) (f : Plot → Plot) : (s.modPlot p f).log = s.log := rfl
@[simp] theorem State.modPlot_logSeq (s : State) (p : Nat) (f : Plot → Plot) : (s.modPlot p f).logSeq = s.logSeq := rfl
@[simp] theorem State.modPlot_logRead (s : State) (p : Nat) (f : Plot → Plot) : (s.modPlot p f).logRead = s.logRead := rfl
@[simp] theorem State.modPlot_logLost (s : State) (p : Nat) (f : Plot → Plot) : (s.modPlot p f).logLost = s.logLost := rfl
@[simp] theorem State.modPlot_sent (s : State) (p : Nat) (f : Plot → Plot) : (s.modPlot p f).sent = s.sent := rfl
@[simp] theorem State.modPlot_nextId (s : State) (p : Nat) (f : Plot → Plot) : (s.modPlot p f).nextId = s.nextId := rfl
@[simp] theorem State.modPlot_sched (s : State) (p : Nat) (f : Plot → Plot) : (s.modPlot p f).sched = s.sched := rfl
@[simp] theorem State.modPlot_choices (s : State) (p : Nat) (f : Plot → Plot) : (s.modPlot p f).choices = s.choices := rfl
@[simp] theorem State.modPlot_focus (s : State) (p : Nat) (f : Plot → Plot) : (s.modPlot p f).focus = s.focus := rfl
@[simp] theorem State.modPlot_free (s : State) (p : Nat) (f : Plot → Plot) : (s.modPlot p f).free = s.free := rfl
/-! flushL1 -/
@[simp] theorem State.flushL1_part (s : State) (p : Nat) : (s.flushL1 p).part = s.part := rfl
@[simp] theorem State.flushL1_powered (s : State) (p : Nat) : (s.flushL1 p).powered = s.powered := rfl
@[simp] theorem State.flushL1_halted (s : State) (p : Nat) : (s.flushL1 p).halted = s.halted := rfl
@[simp] theorem State.flushL1_clock (s : State) (p : Nat) : (s.flushL1 p).clock = s.clock := rfl
@[simp] theorem State.flushL1_mem (s : State) (p : Nat) : (s.flushL1 p).mem = s.mem := rfl
@[simp] theorem State.flushL1_slots (s : State) (p : Nat) : (s.flushL1 p).slots = s.slots := rfl
@[simp] theorem State.flushL1_reqs (s : State) (p : Nat) : (s.flushL1 p).reqs = s.reqs := rfl
@[simp] theorem State.flushL1_walks (s : State) (p : Nat) : (s.flushL1 p).walks = s.walks := rfl
@[simp] theorem State.flushL1_pnreqs (s : State) (p : Nat) : (s.flushL1 p).pnreqs = s.pnreqs := rfl
@[simp] theorem State.flushL1_outs (s : State) (p : Nat) : (s.flushL1 p).outs = s.outs := rfl
@[simp] theorem State.flushL1_packets (s : State) (p : Nat) : (s.flushL1 p).packets = s.packets := rfl
@[simp] theorem State.flushL1_frontiers (s : State) (p : Nat) : (s.flushL1 p).frontiers = s.frontiers := rfl
@[simp] theorem State.flushL1_asked (s : State) (p : Nat) : (s.flushL1 p).asked = s.asked := rfl
@[simp] theorem State.flushL1_tokens (s : State) (p : Nat) : (s.flushL1 p).tokens = s.tokens := rfl
@[simp] theorem State.flushL1_causal (s : State) (p : Nat) : (s.flushL1 p).causal = s.causal := rfl
@[simp] theorem State.flushL1_removed (s : State) (p : Nat) : (s.flushL1 p).removed = s.removed := rfl
@[simp] theorem State.flushL1_rebase (s : State) (p : Nat) : (s.flushL1 p).rebase = s.rebase := rfl
@[simp] theorem State.flushL1_rebasing (s : State) (p : Nat) : (s.flushL1 p).rebasing = s.rebasing := rfl
@[simp] theorem State.flushL1_rebaseAt (s : State) (p : Nat) : (s.flushL1 p).rebaseAt = s.rebaseAt := rfl
@[simp] theorem State.flushL1_lastDelivery (s : State) (p : Nat) : (s.flushL1 p).lastDelivery = s.lastDelivery := rfl
@[simp] theorem State.flushL1_partitions (s : State) (p : Nat) : (s.flushL1 p).partitions = s.partitions := rfl
@[simp] theorem State.flushL1_pendingParts (s : State) (p : Nat) : (s.flushL1 p).pendingParts = s.pendingParts := rfl
@[simp] theorem State.flushL1_dies (s : State) (p : Nat) : (s.flushL1 p).dies = s.dies := rfl
@[simp] theorem State.flushL1_optics (s : State) (p : Nat) : (s.flushL1 p).optics = s.optics := rfl
@[simp] theorem State.flushL1_recovery (s : State) (p : Nat) : (s.flushL1 p).recovery = s.recovery := rfl
@[simp] theorem State.flushL1_transients (s : State) (p : Nat) : (s.flushL1 p).transients = s.transients := rfl
@[simp] theorem State.flushL1_bunting (s : State) (p : Nat) : (s.flushL1 p).bunting = s.bunting := rfl
@[simp] theorem State.flushL1_pennants (s : State) (p : Nat) : (s.flushL1 p).pennants = s.pennants := rfl
@[simp] theorem State.flushL1_words (s : State) (p : Nat) : (s.flushL1 p).words = s.words := rfl
@[simp] theorem State.flushL1_ports (s : State) (p : Nat) : (s.flushL1 p).ports = s.ports := rfl
@[simp] theorem State.flushL1_regions (s : State) (p : Nat) : (s.flushL1 p).regions = s.regions := rfl
@[simp] theorem State.flushL1_chans (s : State) (p : Nat) : (s.flushL1 p).chans = s.chans := rfl
@[simp] theorem State.flushL1_insts (s : State) (p : Nat) : (s.flushL1 p).insts = s.insts := rfl
@[simp] theorem State.flushL1_nextInst (s : State) (p : Nat) : (s.flushL1 p).nextInst = s.nextInst := rfl
@[simp] theorem State.flushL1_peers (s : State) (p : Nat) : (s.flushL1 p).peers = s.peers := rfl
@[simp] theorem State.flushL1_peerOut (s : State) (p : Nat) : (s.flushL1 p).peerOut = s.peerOut := rfl
@[simp] theorem State.flushL1_hostAcks (s : State) (p : Nat) : (s.flushL1 p).hostAcks = s.hostAcks := rfl
@[simp] theorem State.flushL1_sessions (s : State) (p : Nat) : (s.flushL1 p).sessions = s.sessions := rfl
@[simp] theorem State.flushL1_qpDown (s : State) (p : Nat) : (s.flushL1 p).qpDown = s.qpDown := rfl
@[simp] theorem State.flushL1_naks (s : State) (p : Nat) : (s.flushL1 p).naks = s.naks := rfl
@[simp] theorem State.flushL1_queues (s : State) (p : Nat) : (s.flushL1 p).queues = s.queues := rfl
@[simp] theorem State.flushL1_links (s : State) (p : Nat) : (s.flushL1 p).links = s.links := rfl
@[simp] theorem State.flushL1_cmds (s : State) (p : Nat) : (s.flushL1 p).cmds = s.cmds := rfl
@[simp] theorem State.flushL1_patchMsgs (s : State) (p : Nat) : (s.flushL1 p).patchMsgs = s.patchMsgs := rfl
@[simp] theorem State.flushL1_lastQueue (s : State) (p : Nat) : (s.flushL1 p).lastQueue = s.lastQueue := rfl
@[simp] theorem State.flushL1_parkIds (s : State) (p : Nat) : (s.flushL1 p).parkIds = s.parkIds := rfl
@[simp] theorem State.flushL1_log (s : State) (p : Nat) : (s.flushL1 p).log = s.log := rfl
@[simp] theorem State.flushL1_logSeq (s : State) (p : Nat) : (s.flushL1 p).logSeq = s.logSeq := rfl
@[simp] theorem State.flushL1_logRead (s : State) (p : Nat) : (s.flushL1 p).logRead = s.logRead := rfl
@[simp] theorem State.flushL1_logLost (s : State) (p : Nat) : (s.flushL1 p).logLost = s.logLost := rfl
@[simp] theorem State.flushL1_sent (s : State) (p : Nat) : (s.flushL1 p).sent = s.sent := rfl
@[simp] theorem State.flushL1_nextId (s : State) (p : Nat) : (s.flushL1 p).nextId = s.nextId := rfl
@[simp] theorem State.flushL1_sched (s : State) (p : Nat) : (s.flushL1 p).sched = s.sched := rfl
@[simp] theorem State.flushL1_choices (s : State) (p : Nat) : (s.flushL1 p).choices = s.choices := rfl
@[simp] theorem State.flushL1_focus (s : State) (p : Nat) : (s.flushL1 p).focus = s.focus := rfl
@[simp] theorem State.flushL1_free (s : State) (p : Nat) : (s.flushL1 p).free = s.free := rfl
/-! modDie -/
@[simp] theorem State.modDie_part (s : State) (d : Nat) (f : Die → Die) : (s.modDie d f).part = s.part := rfl
@[simp] theorem State.modDie_powered (s : State) (d : Nat) (f : Die → Die) : (s.modDie d f).powered = s.powered := rfl
@[simp] theorem State.modDie_halted (s : State) (d : Nat) (f : Die → Die) : (s.modDie d f).halted = s.halted := rfl
@[simp] theorem State.modDie_clock (s : State) (d : Nat) (f : Die → Die) : (s.modDie d f).clock = s.clock := rfl
@[simp] theorem State.modDie_mem (s : State) (d : Nat) (f : Die → Die) : (s.modDie d f).mem = s.mem := rfl
@[simp] theorem State.modDie_slots (s : State) (d : Nat) (f : Die → Die) : (s.modDie d f).slots = s.slots := rfl
@[simp] theorem State.modDie_plots (s : State) (d : Nat) (f : Die → Die) : (s.modDie d f).plots = s.plots := rfl
@[simp] theorem State.modDie_reqs (s : State) (d : Nat) (f : Die → Die) : (s.modDie d f).reqs = s.reqs := rfl
@[simp] theorem State.modDie_walks (s : State) (d : Nat) (f : Die → Die) : (s.modDie d f).walks = s.walks := rfl
@[simp] theorem State.modDie_pnreqs (s : State) (d : Nat) (f : Die → Die) : (s.modDie d f).pnreqs = s.pnreqs := rfl
@[simp] theorem State.modDie_outs (s : State) (d : Nat) (f : Die → Die) : (s.modDie d f).outs = s.outs := rfl
@[simp] theorem State.modDie_packets (s : State) (d : Nat) (f : Die → Die) : (s.modDie d f).packets = s.packets := rfl
@[simp] theorem State.modDie_frontiers (s : State) (d : Nat) (f : Die → Die) : (s.modDie d f).frontiers = s.frontiers := rfl
@[simp] theorem State.modDie_asked (s : State) (d : Nat) (f : Die → Die) : (s.modDie d f).asked = s.asked := rfl
@[simp] theorem State.modDie_tokens (s : State) (d : Nat) (f : Die → Die) : (s.modDie d f).tokens = s.tokens := rfl
@[simp] theorem State.modDie_causal (s : State) (d : Nat) (f : Die → Die) : (s.modDie d f).causal = s.causal := rfl
@[simp] theorem State.modDie_removed (s : State) (d : Nat) (f : Die → Die) : (s.modDie d f).removed = s.removed := rfl
@[simp] theorem State.modDie_rebase (s : State) (d : Nat) (f : Die → Die) : (s.modDie d f).rebase = s.rebase := rfl
@[simp] theorem State.modDie_rebasing (s : State) (d : Nat) (f : Die → Die) : (s.modDie d f).rebasing = s.rebasing := rfl
@[simp] theorem State.modDie_rebaseAt (s : State) (d : Nat) (f : Die → Die) : (s.modDie d f).rebaseAt = s.rebaseAt := rfl
@[simp] theorem State.modDie_lastDelivery (s : State) (d : Nat) (f : Die → Die) : (s.modDie d f).lastDelivery = s.lastDelivery := rfl
@[simp] theorem State.modDie_partitions (s : State) (d : Nat) (f : Die → Die) : (s.modDie d f).partitions = s.partitions := rfl
@[simp] theorem State.modDie_pendingParts (s : State) (d : Nat) (f : Die → Die) : (s.modDie d f).pendingParts = s.pendingParts := rfl
@[simp] theorem State.modDie_optics (s : State) (d : Nat) (f : Die → Die) : (s.modDie d f).optics = s.optics := rfl
@[simp] theorem State.modDie_recovery (s : State) (d : Nat) (f : Die → Die) : (s.modDie d f).recovery = s.recovery := rfl
@[simp] theorem State.modDie_transients (s : State) (d : Nat) (f : Die → Die) : (s.modDie d f).transients = s.transients := rfl
@[simp] theorem State.modDie_bunting (s : State) (d : Nat) (f : Die → Die) : (s.modDie d f).bunting = s.bunting := rfl
@[simp] theorem State.modDie_pennants (s : State) (d : Nat) (f : Die → Die) : (s.modDie d f).pennants = s.pennants := rfl
@[simp] theorem State.modDie_words (s : State) (d : Nat) (f : Die → Die) : (s.modDie d f).words = s.words := rfl
@[simp] theorem State.modDie_ports (s : State) (d : Nat) (f : Die → Die) : (s.modDie d f).ports = s.ports := rfl
@[simp] theorem State.modDie_regions (s : State) (d : Nat) (f : Die → Die) : (s.modDie d f).regions = s.regions := rfl
@[simp] theorem State.modDie_chans (s : State) (d : Nat) (f : Die → Die) : (s.modDie d f).chans = s.chans := rfl
@[simp] theorem State.modDie_insts (s : State) (d : Nat) (f : Die → Die) : (s.modDie d f).insts = s.insts := rfl
@[simp] theorem State.modDie_nextInst (s : State) (d : Nat) (f : Die → Die) : (s.modDie d f).nextInst = s.nextInst := rfl
@[simp] theorem State.modDie_peers (s : State) (d : Nat) (f : Die → Die) : (s.modDie d f).peers = s.peers := rfl
@[simp] theorem State.modDie_peerOut (s : State) (d : Nat) (f : Die → Die) : (s.modDie d f).peerOut = s.peerOut := rfl
@[simp] theorem State.modDie_hostAcks (s : State) (d : Nat) (f : Die → Die) : (s.modDie d f).hostAcks = s.hostAcks := rfl
@[simp] theorem State.modDie_sessions (s : State) (d : Nat) (f : Die → Die) : (s.modDie d f).sessions = s.sessions := rfl
@[simp] theorem State.modDie_qpDown (s : State) (d : Nat) (f : Die → Die) : (s.modDie d f).qpDown = s.qpDown := rfl
@[simp] theorem State.modDie_naks (s : State) (d : Nat) (f : Die → Die) : (s.modDie d f).naks = s.naks := rfl
@[simp] theorem State.modDie_queues (s : State) (d : Nat) (f : Die → Die) : (s.modDie d f).queues = s.queues := rfl
@[simp] theorem State.modDie_links (s : State) (d : Nat) (f : Die → Die) : (s.modDie d f).links = s.links := rfl
@[simp] theorem State.modDie_cmds (s : State) (d : Nat) (f : Die → Die) : (s.modDie d f).cmds = s.cmds := rfl
@[simp] theorem State.modDie_patchMsgs (s : State) (d : Nat) (f : Die → Die) : (s.modDie d f).patchMsgs = s.patchMsgs := rfl
@[simp] theorem State.modDie_lastQueue (s : State) (d : Nat) (f : Die → Die) : (s.modDie d f).lastQueue = s.lastQueue := rfl
@[simp] theorem State.modDie_parkIds (s : State) (d : Nat) (f : Die → Die) : (s.modDie d f).parkIds = s.parkIds := rfl
@[simp] theorem State.modDie_log (s : State) (d : Nat) (f : Die → Die) : (s.modDie d f).log = s.log := rfl
@[simp] theorem State.modDie_logSeq (s : State) (d : Nat) (f : Die → Die) : (s.modDie d f).logSeq = s.logSeq := rfl
@[simp] theorem State.modDie_logRead (s : State) (d : Nat) (f : Die → Die) : (s.modDie d f).logRead = s.logRead := rfl
@[simp] theorem State.modDie_logLost (s : State) (d : Nat) (f : Die → Die) : (s.modDie d f).logLost = s.logLost := rfl
@[simp] theorem State.modDie_sent (s : State) (d : Nat) (f : Die → Die) : (s.modDie d f).sent = s.sent := rfl
@[simp] theorem State.modDie_nextId (s : State) (d : Nat) (f : Die → Die) : (s.modDie d f).nextId = s.nextId := rfl
@[simp] theorem State.modDie_sched (s : State) (d : Nat) (f : Die → Die) : (s.modDie d f).sched = s.sched := rfl
@[simp] theorem State.modDie_choices (s : State) (d : Nat) (f : Die → Die) : (s.modDie d f).choices = s.choices := rfl
@[simp] theorem State.modDie_focus (s : State) (d : Nat) (f : Die → Die) : (s.modDie d f).focus = s.focus := rfl
@[simp] theorem State.modDie_free (s : State) (d : Nat) (f : Die → Die) : (s.modDie d f).free = s.free := rfl
/-! modPort -/
@[simp] theorem State.modPort_part (s : State) (k : Nat) (f : Port → Port) : (s.modPort k f).part = s.part := rfl
@[simp] theorem State.modPort_powered (s : State) (k : Nat) (f : Port → Port) : (s.modPort k f).powered = s.powered := rfl
@[simp] theorem State.modPort_halted (s : State) (k : Nat) (f : Port → Port) : (s.modPort k f).halted = s.halted := rfl
@[simp] theorem State.modPort_clock (s : State) (k : Nat) (f : Port → Port) : (s.modPort k f).clock = s.clock := rfl
@[simp] theorem State.modPort_mem (s : State) (k : Nat) (f : Port → Port) : (s.modPort k f).mem = s.mem := rfl
@[simp] theorem State.modPort_slots (s : State) (k : Nat) (f : Port → Port) : (s.modPort k f).slots = s.slots := rfl
@[simp] theorem State.modPort_plots (s : State) (k : Nat) (f : Port → Port) : (s.modPort k f).plots = s.plots := rfl
@[simp] theorem State.modPort_reqs (s : State) (k : Nat) (f : Port → Port) : (s.modPort k f).reqs = s.reqs := rfl
@[simp] theorem State.modPort_walks (s : State) (k : Nat) (f : Port → Port) : (s.modPort k f).walks = s.walks := rfl
@[simp] theorem State.modPort_pnreqs (s : State) (k : Nat) (f : Port → Port) : (s.modPort k f).pnreqs = s.pnreqs := rfl
@[simp] theorem State.modPort_outs (s : State) (k : Nat) (f : Port → Port) : (s.modPort k f).outs = s.outs := rfl
@[simp] theorem State.modPort_packets (s : State) (k : Nat) (f : Port → Port) : (s.modPort k f).packets = s.packets := rfl
@[simp] theorem State.modPort_frontiers (s : State) (k : Nat) (f : Port → Port) : (s.modPort k f).frontiers = s.frontiers := rfl
@[simp] theorem State.modPort_asked (s : State) (k : Nat) (f : Port → Port) : (s.modPort k f).asked = s.asked := rfl
@[simp] theorem State.modPort_tokens (s : State) (k : Nat) (f : Port → Port) : (s.modPort k f).tokens = s.tokens := rfl
@[simp] theorem State.modPort_causal (s : State) (k : Nat) (f : Port → Port) : (s.modPort k f).causal = s.causal := rfl
@[simp] theorem State.modPort_removed (s : State) (k : Nat) (f : Port → Port) : (s.modPort k f).removed = s.removed := rfl
@[simp] theorem State.modPort_rebase (s : State) (k : Nat) (f : Port → Port) : (s.modPort k f).rebase = s.rebase := rfl
@[simp] theorem State.modPort_rebasing (s : State) (k : Nat) (f : Port → Port) : (s.modPort k f).rebasing = s.rebasing := rfl
@[simp] theorem State.modPort_rebaseAt (s : State) (k : Nat) (f : Port → Port) : (s.modPort k f).rebaseAt = s.rebaseAt := rfl
@[simp] theorem State.modPort_lastDelivery (s : State) (k : Nat) (f : Port → Port) : (s.modPort k f).lastDelivery = s.lastDelivery := rfl
@[simp] theorem State.modPort_partitions (s : State) (k : Nat) (f : Port → Port) : (s.modPort k f).partitions = s.partitions := rfl
@[simp] theorem State.modPort_pendingParts (s : State) (k : Nat) (f : Port → Port) : (s.modPort k f).pendingParts = s.pendingParts := rfl
@[simp] theorem State.modPort_dies (s : State) (k : Nat) (f : Port → Port) : (s.modPort k f).dies = s.dies := rfl
@[simp] theorem State.modPort_optics (s : State) (k : Nat) (f : Port → Port) : (s.modPort k f).optics = s.optics := rfl
@[simp] theorem State.modPort_recovery (s : State) (k : Nat) (f : Port → Port) : (s.modPort k f).recovery = s.recovery := rfl
@[simp] theorem State.modPort_transients (s : State) (k : Nat) (f : Port → Port) : (s.modPort k f).transients = s.transients := rfl
@[simp] theorem State.modPort_bunting (s : State) (k : Nat) (f : Port → Port) : (s.modPort k f).bunting = s.bunting := rfl
@[simp] theorem State.modPort_pennants (s : State) (k : Nat) (f : Port → Port) : (s.modPort k f).pennants = s.pennants := rfl
@[simp] theorem State.modPort_words (s : State) (k : Nat) (f : Port → Port) : (s.modPort k f).words = s.words := rfl
@[simp] theorem State.modPort_regions (s : State) (k : Nat) (f : Port → Port) : (s.modPort k f).regions = s.regions := rfl
@[simp] theorem State.modPort_chans (s : State) (k : Nat) (f : Port → Port) : (s.modPort k f).chans = s.chans := rfl
@[simp] theorem State.modPort_insts (s : State) (k : Nat) (f : Port → Port) : (s.modPort k f).insts = s.insts := rfl
@[simp] theorem State.modPort_nextInst (s : State) (k : Nat) (f : Port → Port) : (s.modPort k f).nextInst = s.nextInst := rfl
@[simp] theorem State.modPort_peers (s : State) (k : Nat) (f : Port → Port) : (s.modPort k f).peers = s.peers := rfl
@[simp] theorem State.modPort_peerOut (s : State) (k : Nat) (f : Port → Port) : (s.modPort k f).peerOut = s.peerOut := rfl
@[simp] theorem State.modPort_hostAcks (s : State) (k : Nat) (f : Port → Port) : (s.modPort k f).hostAcks = s.hostAcks := rfl
@[simp] theorem State.modPort_sessions (s : State) (k : Nat) (f : Port → Port) : (s.modPort k f).sessions = s.sessions := rfl
@[simp] theorem State.modPort_qpDown (s : State) (k : Nat) (f : Port → Port) : (s.modPort k f).qpDown = s.qpDown := rfl
@[simp] theorem State.modPort_naks (s : State) (k : Nat) (f : Port → Port) : (s.modPort k f).naks = s.naks := rfl
@[simp] theorem State.modPort_queues (s : State) (k : Nat) (f : Port → Port) : (s.modPort k f).queues = s.queues := rfl
@[simp] theorem State.modPort_links (s : State) (k : Nat) (f : Port → Port) : (s.modPort k f).links = s.links := rfl
@[simp] theorem State.modPort_cmds (s : State) (k : Nat) (f : Port → Port) : (s.modPort k f).cmds = s.cmds := rfl
@[simp] theorem State.modPort_patchMsgs (s : State) (k : Nat) (f : Port → Port) : (s.modPort k f).patchMsgs = s.patchMsgs := rfl
@[simp] theorem State.modPort_lastQueue (s : State) (k : Nat) (f : Port → Port) : (s.modPort k f).lastQueue = s.lastQueue := rfl
@[simp] theorem State.modPort_parkIds (s : State) (k : Nat) (f : Port → Port) : (s.modPort k f).parkIds = s.parkIds := rfl
@[simp] theorem State.modPort_log (s : State) (k : Nat) (f : Port → Port) : (s.modPort k f).log = s.log := rfl
@[simp] theorem State.modPort_logSeq (s : State) (k : Nat) (f : Port → Port) : (s.modPort k f).logSeq = s.logSeq := rfl
@[simp] theorem State.modPort_logRead (s : State) (k : Nat) (f : Port → Port) : (s.modPort k f).logRead = s.logRead := rfl
@[simp] theorem State.modPort_logLost (s : State) (k : Nat) (f : Port → Port) : (s.modPort k f).logLost = s.logLost := rfl
@[simp] theorem State.modPort_sent (s : State) (k : Nat) (f : Port → Port) : (s.modPort k f).sent = s.sent := rfl
@[simp] theorem State.modPort_nextId (s : State) (k : Nat) (f : Port → Port) : (s.modPort k f).nextId = s.nextId := rfl
@[simp] theorem State.modPort_sched (s : State) (k : Nat) (f : Port → Port) : (s.modPort k f).sched = s.sched := rfl
@[simp] theorem State.modPort_choices (s : State) (k : Nat) (f : Port → Port) : (s.modPort k f).choices = s.choices := rfl
@[simp] theorem State.modPort_focus (s : State) (k : Nat) (f : Port → Port) : (s.modPort k f).focus = s.focus := rfl
@[simp] theorem State.modPort_free (s : State) (k : Nat) (f : Port → Port) : (s.modPort k f).free = s.free := rfl
/-! advance -/
@[simp] theorem State.advance_part (s : State) (n : Nat) : (s.advance n).part = s.part := rfl
@[simp] theorem State.advance_powered (s : State) (n : Nat) : (s.advance n).powered = s.powered := rfl
@[simp] theorem State.advance_halted (s : State) (n : Nat) : (s.advance n).halted = s.halted := rfl
@[simp] theorem State.advance_clock (s : State) (n : Nat) : (s.advance n).clock = s.clock := rfl
@[simp] theorem State.advance_mem (s : State) (n : Nat) : (s.advance n).mem = s.mem := rfl
@[simp] theorem State.advance_plots (s : State) (n : Nat) : (s.advance n).plots = s.plots := rfl
@[simp] theorem State.advance_reqs (s : State) (n : Nat) : (s.advance n).reqs = s.reqs := rfl
@[simp] theorem State.advance_walks (s : State) (n : Nat) : (s.advance n).walks = s.walks := rfl
@[simp] theorem State.advance_pnreqs (s : State) (n : Nat) : (s.advance n).pnreqs = s.pnreqs := rfl
@[simp] theorem State.advance_outs (s : State) (n : Nat) : (s.advance n).outs = s.outs := rfl
@[simp] theorem State.advance_packets (s : State) (n : Nat) : (s.advance n).packets = s.packets := rfl
@[simp] theorem State.advance_frontiers (s : State) (n : Nat) : (s.advance n).frontiers = s.frontiers := rfl
@[simp] theorem State.advance_asked (s : State) (n : Nat) : (s.advance n).asked = s.asked := rfl
@[simp] theorem State.advance_tokens (s : State) (n : Nat) : (s.advance n).tokens = s.tokens := rfl
@[simp] theorem State.advance_causal (s : State) (n : Nat) : (s.advance n).causal = s.causal := rfl
@[simp] theorem State.advance_removed (s : State) (n : Nat) : (s.advance n).removed = s.removed := rfl
@[simp] theorem State.advance_rebase (s : State) (n : Nat) : (s.advance n).rebase = s.rebase := rfl
@[simp] theorem State.advance_rebasing (s : State) (n : Nat) : (s.advance n).rebasing = s.rebasing := rfl
@[simp] theorem State.advance_rebaseAt (s : State) (n : Nat) : (s.advance n).rebaseAt = s.rebaseAt := rfl
@[simp] theorem State.advance_lastDelivery (s : State) (n : Nat) : (s.advance n).lastDelivery = s.lastDelivery := rfl
@[simp] theorem State.advance_partitions (s : State) (n : Nat) : (s.advance n).partitions = s.partitions := rfl
@[simp] theorem State.advance_pendingParts (s : State) (n : Nat) : (s.advance n).pendingParts = s.pendingParts := rfl
@[simp] theorem State.advance_dies (s : State) (n : Nat) : (s.advance n).dies = s.dies := rfl
@[simp] theorem State.advance_optics (s : State) (n : Nat) : (s.advance n).optics = s.optics := rfl
@[simp] theorem State.advance_recovery (s : State) (n : Nat) : (s.advance n).recovery = s.recovery := rfl
@[simp] theorem State.advance_transients (s : State) (n : Nat) : (s.advance n).transients = s.transients := rfl
@[simp] theorem State.advance_bunting (s : State) (n : Nat) : (s.advance n).bunting = s.bunting := rfl
@[simp] theorem State.advance_pennants (s : State) (n : Nat) : (s.advance n).pennants = s.pennants := rfl
@[simp] theorem State.advance_words (s : State) (n : Nat) : (s.advance n).words = s.words := rfl
@[simp] theorem State.advance_ports (s : State) (n : Nat) : (s.advance n).ports = s.ports := rfl
@[simp] theorem State.advance_regions (s : State) (n : Nat) : (s.advance n).regions = s.regions := rfl
@[simp] theorem State.advance_chans (s : State) (n : Nat) : (s.advance n).chans = s.chans := rfl
@[simp] theorem State.advance_insts (s : State) (n : Nat) : (s.advance n).insts = s.insts := rfl
@[simp] theorem State.advance_nextInst (s : State) (n : Nat) : (s.advance n).nextInst = s.nextInst := rfl
@[simp] theorem State.advance_peers (s : State) (n : Nat) : (s.advance n).peers = s.peers := rfl
@[simp] theorem State.advance_peerOut (s : State) (n : Nat) : (s.advance n).peerOut = s.peerOut := rfl
@[simp] theorem State.advance_hostAcks (s : State) (n : Nat) : (s.advance n).hostAcks = s.hostAcks := rfl
@[simp] theorem State.advance_sessions (s : State) (n : Nat) : (s.advance n).sessions = s.sessions := rfl
@[simp] theorem State.advance_qpDown (s : State) (n : Nat) : (s.advance n).qpDown = s.qpDown := rfl
@[simp] theorem State.advance_naks (s : State) (n : Nat) : (s.advance n).naks = s.naks := rfl
@[simp] theorem State.advance_queues (s : State) (n : Nat) : (s.advance n).queues = s.queues := rfl
@[simp] theorem State.advance_links (s : State) (n : Nat) : (s.advance n).links = s.links := rfl
@[simp] theorem State.advance_cmds (s : State) (n : Nat) : (s.advance n).cmds = s.cmds := rfl
@[simp] theorem State.advance_patchMsgs (s : State) (n : Nat) : (s.advance n).patchMsgs = s.patchMsgs := rfl
@[simp] theorem State.advance_lastQueue (s : State) (n : Nat) : (s.advance n).lastQueue = s.lastQueue := rfl
@[simp] theorem State.advance_parkIds (s : State) (n : Nat) : (s.advance n).parkIds = s.parkIds := rfl
@[simp] theorem State.advance_log (s : State) (n : Nat) : (s.advance n).log = s.log := rfl
@[simp] theorem State.advance_logSeq (s : State) (n : Nat) : (s.advance n).logSeq = s.logSeq := rfl
@[simp] theorem State.advance_logRead (s : State) (n : Nat) : (s.advance n).logRead = s.logRead := rfl
@[simp] theorem State.advance_logLost (s : State) (n : Nat) : (s.advance n).logLost = s.logLost := rfl
@[simp] theorem State.advance_sent (s : State) (n : Nat) : (s.advance n).sent = s.sent := rfl
@[simp] theorem State.advance_nextId (s : State) (n : Nat) : (s.advance n).nextId = s.nextId := rfl
@[simp] theorem State.advance_sched (s : State) (n : Nat) : (s.advance n).sched = s.sched := rfl
@[simp] theorem State.advance_choices (s : State) (n : Nat) : (s.advance n).choices = s.choices := rfl
@[simp] theorem State.advance_focus (s : State) (n : Nat) : (s.advance n).focus = s.focus := rfl
@[simp] theorem State.advance_free (s : State) (n : Nat) : (s.advance n).free = s.free := rfl
/-! jump -/
@[simp] theorem State.jump_part (s : State) (t : Word) : (s.jump t).part = s.part := rfl
@[simp] theorem State.jump_powered (s : State) (t : Word) : (s.jump t).powered = s.powered := rfl
@[simp] theorem State.jump_halted (s : State) (t : Word) : (s.jump t).halted = s.halted := rfl
@[simp] theorem State.jump_clock (s : State) (t : Word) : (s.jump t).clock = s.clock := rfl
@[simp] theorem State.jump_mem (s : State) (t : Word) : (s.jump t).mem = s.mem := rfl
@[simp] theorem State.jump_plots (s : State) (t : Word) : (s.jump t).plots = s.plots := rfl
@[simp] theorem State.jump_reqs (s : State) (t : Word) : (s.jump t).reqs = s.reqs := rfl
@[simp] theorem State.jump_walks (s : State) (t : Word) : (s.jump t).walks = s.walks := rfl
@[simp] theorem State.jump_pnreqs (s : State) (t : Word) : (s.jump t).pnreqs = s.pnreqs := rfl
@[simp] theorem State.jump_outs (s : State) (t : Word) : (s.jump t).outs = s.outs := rfl
@[simp] theorem State.jump_packets (s : State) (t : Word) : (s.jump t).packets = s.packets := rfl
@[simp] theorem State.jump_frontiers (s : State) (t : Word) : (s.jump t).frontiers = s.frontiers := rfl
@[simp] theorem State.jump_asked (s : State) (t : Word) : (s.jump t).asked = s.asked := rfl
@[simp] theorem State.jump_tokens (s : State) (t : Word) : (s.jump t).tokens = s.tokens := rfl
@[simp] theorem State.jump_causal (s : State) (t : Word) : (s.jump t).causal = s.causal := rfl
@[simp] theorem State.jump_removed (s : State) (t : Word) : (s.jump t).removed = s.removed := rfl
@[simp] theorem State.jump_rebase (s : State) (t : Word) : (s.jump t).rebase = s.rebase := rfl
@[simp] theorem State.jump_rebasing (s : State) (t : Word) : (s.jump t).rebasing = s.rebasing := rfl
@[simp] theorem State.jump_rebaseAt (s : State) (t : Word) : (s.jump t).rebaseAt = s.rebaseAt := rfl
@[simp] theorem State.jump_lastDelivery (s : State) (t : Word) : (s.jump t).lastDelivery = s.lastDelivery := rfl
@[simp] theorem State.jump_partitions (s : State) (t : Word) : (s.jump t).partitions = s.partitions := rfl
@[simp] theorem State.jump_pendingParts (s : State) (t : Word) : (s.jump t).pendingParts = s.pendingParts := rfl
@[simp] theorem State.jump_dies (s : State) (t : Word) : (s.jump t).dies = s.dies := rfl
@[simp] theorem State.jump_optics (s : State) (t : Word) : (s.jump t).optics = s.optics := rfl
@[simp] theorem State.jump_recovery (s : State) (t : Word) : (s.jump t).recovery = s.recovery := rfl
@[simp] theorem State.jump_transients (s : State) (t : Word) : (s.jump t).transients = s.transients := rfl
@[simp] theorem State.jump_bunting (s : State) (t : Word) : (s.jump t).bunting = s.bunting := rfl
@[simp] theorem State.jump_pennants (s : State) (t : Word) : (s.jump t).pennants = s.pennants := rfl
@[simp] theorem State.jump_words (s : State) (t : Word) : (s.jump t).words = s.words := rfl
@[simp] theorem State.jump_ports (s : State) (t : Word) : (s.jump t).ports = s.ports := rfl
@[simp] theorem State.jump_regions (s : State) (t : Word) : (s.jump t).regions = s.regions := rfl
@[simp] theorem State.jump_chans (s : State) (t : Word) : (s.jump t).chans = s.chans := rfl
@[simp] theorem State.jump_insts (s : State) (t : Word) : (s.jump t).insts = s.insts := rfl
@[simp] theorem State.jump_nextInst (s : State) (t : Word) : (s.jump t).nextInst = s.nextInst := rfl
@[simp] theorem State.jump_peers (s : State) (t : Word) : (s.jump t).peers = s.peers := rfl
@[simp] theorem State.jump_peerOut (s : State) (t : Word) : (s.jump t).peerOut = s.peerOut := rfl
@[simp] theorem State.jump_hostAcks (s : State) (t : Word) : (s.jump t).hostAcks = s.hostAcks := rfl
@[simp] theorem State.jump_sessions (s : State) (t : Word) : (s.jump t).sessions = s.sessions := rfl
@[simp] theorem State.jump_qpDown (s : State) (t : Word) : (s.jump t).qpDown = s.qpDown := rfl
@[simp] theorem State.jump_naks (s : State) (t : Word) : (s.jump t).naks = s.naks := rfl
@[simp] theorem State.jump_queues (s : State) (t : Word) : (s.jump t).queues = s.queues := rfl
@[simp] theorem State.jump_links (s : State) (t : Word) : (s.jump t).links = s.links := rfl
@[simp] theorem State.jump_cmds (s : State) (t : Word) : (s.jump t).cmds = s.cmds := rfl
@[simp] theorem State.jump_patchMsgs (s : State) (t : Word) : (s.jump t).patchMsgs = s.patchMsgs := rfl
@[simp] theorem State.jump_lastQueue (s : State) (t : Word) : (s.jump t).lastQueue = s.lastQueue := rfl
@[simp] theorem State.jump_parkIds (s : State) (t : Word) : (s.jump t).parkIds = s.parkIds := rfl
@[simp] theorem State.jump_log (s : State) (t : Word) : (s.jump t).log = s.log := rfl
@[simp] theorem State.jump_logSeq (s : State) (t : Word) : (s.jump t).logSeq = s.logSeq := rfl
@[simp] theorem State.jump_logRead (s : State) (t : Word) : (s.jump t).logRead = s.logRead := rfl
@[simp] theorem State.jump_logLost (s : State) (t : Word) : (s.jump t).logLost = s.logLost := rfl
@[simp] theorem State.jump_sent (s : State) (t : Word) : (s.jump t).sent = s.sent := rfl
@[simp] theorem State.jump_nextId (s : State) (t : Word) : (s.jump t).nextId = s.nextId := rfl
@[simp] theorem State.jump_sched (s : State) (t : Word) : (s.jump t).sched = s.sched := rfl
@[simp] theorem State.jump_choices (s : State) (t : Word) : (s.jump t).choices = s.choices := rfl
@[simp] theorem State.jump_focus (s : State) (t : Word) : (s.jump t).focus = s.focus := rfl
@[simp] theorem State.jump_free (s : State) (t : Word) : (s.jump t).free = s.free := rfl
/-! eretReturn -/
@[simp] theorem State.eretReturn_part (s : State)  : (s.eretReturn ).part = s.part := rfl
@[simp] theorem State.eretReturn_powered (s : State)  : (s.eretReturn ).powered = s.powered := rfl
@[simp] theorem State.eretReturn_halted (s : State)  : (s.eretReturn ).halted = s.halted := rfl
@[simp] theorem State.eretReturn_clock (s : State)  : (s.eretReturn ).clock = s.clock := rfl
@[simp] theorem State.eretReturn_mem (s : State)  : (s.eretReturn ).mem = s.mem := rfl
@[simp] theorem State.eretReturn_plots (s : State)  : (s.eretReturn ).plots = s.plots := rfl
@[simp] theorem State.eretReturn_reqs (s : State)  : (s.eretReturn ).reqs = s.reqs := rfl
@[simp] theorem State.eretReturn_walks (s : State)  : (s.eretReturn ).walks = s.walks := rfl
@[simp] theorem State.eretReturn_pnreqs (s : State)  : (s.eretReturn ).pnreqs = s.pnreqs := rfl
@[simp] theorem State.eretReturn_outs (s : State)  : (s.eretReturn ).outs = s.outs := rfl
@[simp] theorem State.eretReturn_packets (s : State)  : (s.eretReturn ).packets = s.packets := rfl
@[simp] theorem State.eretReturn_frontiers (s : State)  : (s.eretReturn ).frontiers = s.frontiers := rfl
@[simp] theorem State.eretReturn_asked (s : State)  : (s.eretReturn ).asked = s.asked := rfl
@[simp] theorem State.eretReturn_tokens (s : State)  : (s.eretReturn ).tokens = s.tokens := rfl
@[simp] theorem State.eretReturn_causal (s : State)  : (s.eretReturn ).causal = s.causal := rfl
@[simp] theorem State.eretReturn_removed (s : State)  : (s.eretReturn ).removed = s.removed := rfl
@[simp] theorem State.eretReturn_rebase (s : State)  : (s.eretReturn ).rebase = s.rebase := rfl
@[simp] theorem State.eretReturn_rebasing (s : State)  : (s.eretReturn ).rebasing = s.rebasing := rfl
@[simp] theorem State.eretReturn_rebaseAt (s : State)  : (s.eretReturn ).rebaseAt = s.rebaseAt := rfl
@[simp] theorem State.eretReturn_lastDelivery (s : State)  : (s.eretReturn ).lastDelivery = s.lastDelivery := rfl
@[simp] theorem State.eretReturn_partitions (s : State)  : (s.eretReturn ).partitions = s.partitions := rfl
@[simp] theorem State.eretReturn_pendingParts (s : State)  : (s.eretReturn ).pendingParts = s.pendingParts := rfl
@[simp] theorem State.eretReturn_dies (s : State)  : (s.eretReturn ).dies = s.dies := rfl
@[simp] theorem State.eretReturn_optics (s : State)  : (s.eretReturn ).optics = s.optics := rfl
@[simp] theorem State.eretReturn_recovery (s : State)  : (s.eretReturn ).recovery = s.recovery := rfl
@[simp] theorem State.eretReturn_transients (s : State)  : (s.eretReturn ).transients = s.transients := rfl
@[simp] theorem State.eretReturn_bunting (s : State)  : (s.eretReturn ).bunting = s.bunting := rfl
@[simp] theorem State.eretReturn_pennants (s : State)  : (s.eretReturn ).pennants = s.pennants := rfl
@[simp] theorem State.eretReturn_words (s : State)  : (s.eretReturn ).words = s.words := rfl
@[simp] theorem State.eretReturn_ports (s : State)  : (s.eretReturn ).ports = s.ports := rfl
@[simp] theorem State.eretReturn_regions (s : State)  : (s.eretReturn ).regions = s.regions := rfl
@[simp] theorem State.eretReturn_chans (s : State)  : (s.eretReturn ).chans = s.chans := rfl
@[simp] theorem State.eretReturn_insts (s : State)  : (s.eretReturn ).insts = s.insts := rfl
@[simp] theorem State.eretReturn_nextInst (s : State)  : (s.eretReturn ).nextInst = s.nextInst := rfl
@[simp] theorem State.eretReturn_peers (s : State)  : (s.eretReturn ).peers = s.peers := rfl
@[simp] theorem State.eretReturn_peerOut (s : State)  : (s.eretReturn ).peerOut = s.peerOut := rfl
@[simp] theorem State.eretReturn_hostAcks (s : State)  : (s.eretReturn ).hostAcks = s.hostAcks := rfl
@[simp] theorem State.eretReturn_sessions (s : State)  : (s.eretReturn ).sessions = s.sessions := rfl
@[simp] theorem State.eretReturn_qpDown (s : State)  : (s.eretReturn ).qpDown = s.qpDown := rfl
@[simp] theorem State.eretReturn_naks (s : State)  : (s.eretReturn ).naks = s.naks := rfl
@[simp] theorem State.eretReturn_queues (s : State)  : (s.eretReturn ).queues = s.queues := rfl
@[simp] theorem State.eretReturn_links (s : State)  : (s.eretReturn ).links = s.links := rfl
@[simp] theorem State.eretReturn_cmds (s : State)  : (s.eretReturn ).cmds = s.cmds := rfl
@[simp] theorem State.eretReturn_patchMsgs (s : State)  : (s.eretReturn ).patchMsgs = s.patchMsgs := rfl
@[simp] theorem State.eretReturn_lastQueue (s : State)  : (s.eretReturn ).lastQueue = s.lastQueue := rfl
@[simp] theorem State.eretReturn_parkIds (s : State)  : (s.eretReturn ).parkIds = s.parkIds := rfl
@[simp] theorem State.eretReturn_log (s : State)  : (s.eretReturn ).log = s.log := rfl
@[simp] theorem State.eretReturn_logSeq (s : State)  : (s.eretReturn ).logSeq = s.logSeq := rfl
@[simp] theorem State.eretReturn_logRead (s : State)  : (s.eretReturn ).logRead = s.logRead := rfl
@[simp] theorem State.eretReturn_logLost (s : State)  : (s.eretReturn ).logLost = s.logLost := rfl
@[simp] theorem State.eretReturn_sent (s : State)  : (s.eretReturn ).sent = s.sent := rfl
@[simp] theorem State.eretReturn_nextId (s : State)  : (s.eretReturn ).nextId = s.nextId := rfl
@[simp] theorem State.eretReturn_sched (s : State)  : (s.eretReturn ).sched = s.sched := rfl
@[simp] theorem State.eretReturn_choices (s : State)  : (s.eretReturn ).choices = s.choices := rfl
@[simp] theorem State.eretReturn_focus (s : State)  : (s.eretReturn ).focus = s.focus := rfl
@[simp] theorem State.eretReturn_free (s : State)  : (s.eretReturn ).free = s.free := rfl
/-! tick -/
@[simp] theorem State.tick_part (s : State) (n : Nat) : (s.tick n).part = s.part := rfl
@[simp] theorem State.tick_powered (s : State) (n : Nat) : (s.tick n).powered = s.powered := rfl
@[simp] theorem State.tick_halted (s : State) (n : Nat) : (s.tick n).halted = s.halted := rfl
@[simp] theorem State.tick_mem (s : State) (n : Nat) : (s.tick n).mem = s.mem := rfl
@[simp] theorem State.tick_slots (s : State) (n : Nat) : (s.tick n).slots = s.slots := rfl
@[simp] theorem State.tick_plots (s : State) (n : Nat) : (s.tick n).plots = s.plots := rfl
@[simp] theorem State.tick_reqs (s : State) (n : Nat) : (s.tick n).reqs = s.reqs := rfl
@[simp] theorem State.tick_walks (s : State) (n : Nat) : (s.tick n).walks = s.walks := rfl
@[simp] theorem State.tick_pnreqs (s : State) (n : Nat) : (s.tick n).pnreqs = s.pnreqs := rfl
@[simp] theorem State.tick_outs (s : State) (n : Nat) : (s.tick n).outs = s.outs := rfl
@[simp] theorem State.tick_packets (s : State) (n : Nat) : (s.tick n).packets = s.packets := rfl
@[simp] theorem State.tick_frontiers (s : State) (n : Nat) : (s.tick n).frontiers = s.frontiers := rfl
@[simp] theorem State.tick_asked (s : State) (n : Nat) : (s.tick n).asked = s.asked := rfl
@[simp] theorem State.tick_tokens (s : State) (n : Nat) : (s.tick n).tokens = s.tokens := rfl
@[simp] theorem State.tick_causal (s : State) (n : Nat) : (s.tick n).causal = s.causal := rfl
@[simp] theorem State.tick_removed (s : State) (n : Nat) : (s.tick n).removed = s.removed := rfl
@[simp] theorem State.tick_rebase (s : State) (n : Nat) : (s.tick n).rebase = s.rebase := rfl
@[simp] theorem State.tick_rebasing (s : State) (n : Nat) : (s.tick n).rebasing = s.rebasing := rfl
@[simp] theorem State.tick_rebaseAt (s : State) (n : Nat) : (s.tick n).rebaseAt = s.rebaseAt := rfl
@[simp] theorem State.tick_lastDelivery (s : State) (n : Nat) : (s.tick n).lastDelivery = s.lastDelivery := rfl
@[simp] theorem State.tick_partitions (s : State) (n : Nat) : (s.tick n).partitions = s.partitions := rfl
@[simp] theorem State.tick_pendingParts (s : State) (n : Nat) : (s.tick n).pendingParts = s.pendingParts := rfl
@[simp] theorem State.tick_dies (s : State) (n : Nat) : (s.tick n).dies = s.dies := rfl
@[simp] theorem State.tick_optics (s : State) (n : Nat) : (s.tick n).optics = s.optics := rfl
@[simp] theorem State.tick_recovery (s : State) (n : Nat) : (s.tick n).recovery = s.recovery := rfl
@[simp] theorem State.tick_transients (s : State) (n : Nat) : (s.tick n).transients = s.transients := rfl
@[simp] theorem State.tick_bunting (s : State) (n : Nat) : (s.tick n).bunting = s.bunting := rfl
@[simp] theorem State.tick_pennants (s : State) (n : Nat) : (s.tick n).pennants = s.pennants := rfl
@[simp] theorem State.tick_words (s : State) (n : Nat) : (s.tick n).words = s.words := rfl
@[simp] theorem State.tick_ports (s : State) (n : Nat) : (s.tick n).ports = s.ports := rfl
@[simp] theorem State.tick_regions (s : State) (n : Nat) : (s.tick n).regions = s.regions := rfl
@[simp] theorem State.tick_chans (s : State) (n : Nat) : (s.tick n).chans = s.chans := rfl
@[simp] theorem State.tick_insts (s : State) (n : Nat) : (s.tick n).insts = s.insts := rfl
@[simp] theorem State.tick_nextInst (s : State) (n : Nat) : (s.tick n).nextInst = s.nextInst := rfl
@[simp] theorem State.tick_peers (s : State) (n : Nat) : (s.tick n).peers = s.peers := rfl
@[simp] theorem State.tick_peerOut (s : State) (n : Nat) : (s.tick n).peerOut = s.peerOut := rfl
@[simp] theorem State.tick_hostAcks (s : State) (n : Nat) : (s.tick n).hostAcks = s.hostAcks := rfl
@[simp] theorem State.tick_sessions (s : State) (n : Nat) : (s.tick n).sessions = s.sessions := rfl
@[simp] theorem State.tick_qpDown (s : State) (n : Nat) : (s.tick n).qpDown = s.qpDown := rfl
@[simp] theorem State.tick_naks (s : State) (n : Nat) : (s.tick n).naks = s.naks := rfl
@[simp] theorem State.tick_queues (s : State) (n : Nat) : (s.tick n).queues = s.queues := rfl
@[simp] theorem State.tick_links (s : State) (n : Nat) : (s.tick n).links = s.links := rfl
@[simp] theorem State.tick_cmds (s : State) (n : Nat) : (s.tick n).cmds = s.cmds := rfl
@[simp] theorem State.tick_patchMsgs (s : State) (n : Nat) : (s.tick n).patchMsgs = s.patchMsgs := rfl
@[simp] theorem State.tick_lastQueue (s : State) (n : Nat) : (s.tick n).lastQueue = s.lastQueue := rfl
@[simp] theorem State.tick_parkIds (s : State) (n : Nat) : (s.tick n).parkIds = s.parkIds := rfl
@[simp] theorem State.tick_log (s : State) (n : Nat) : (s.tick n).log = s.log := rfl
@[simp] theorem State.tick_logSeq (s : State) (n : Nat) : (s.tick n).logSeq = s.logSeq := rfl
@[simp] theorem State.tick_logRead (s : State) (n : Nat) : (s.tick n).logRead = s.logRead := rfl
@[simp] theorem State.tick_logLost (s : State) (n : Nat) : (s.tick n).logLost = s.logLost := rfl
@[simp] theorem State.tick_sent (s : State) (n : Nat) : (s.tick n).sent = s.sent := rfl
@[simp] theorem State.tick_nextId (s : State) (n : Nat) : (s.tick n).nextId = s.nextId := rfl
@[simp] theorem State.tick_sched (s : State) (n : Nat) : (s.tick n).sched = s.sched := rfl
@[simp] theorem State.tick_choices (s : State) (n : Nat) : (s.tick n).choices = s.choices := rfl
@[simp] theorem State.tick_focus (s : State) (n : Nat) : (s.tick n).focus = s.focus := rfl
@[simp] theorem State.tick_free (s : State) (n : Nat) : (s.tick n).free = s.free := rfl
/-! atSlot -/
@[simp] theorem State.atSlot_part (s : State) (p k : Nat) : (s.atSlot p k).part = s.part := rfl
@[simp] theorem State.atSlot_powered (s : State) (p k : Nat) : (s.atSlot p k).powered = s.powered := rfl
@[simp] theorem State.atSlot_halted (s : State) (p k : Nat) : (s.atSlot p k).halted = s.halted := rfl
@[simp] theorem State.atSlot_clock (s : State) (p k : Nat) : (s.atSlot p k).clock = s.clock := rfl
@[simp] theorem State.atSlot_mem (s : State) (p k : Nat) : (s.atSlot p k).mem = s.mem := rfl
@[simp] theorem State.atSlot_slots (s : State) (p k : Nat) : (s.atSlot p k).slots = s.slots := rfl
@[simp] theorem State.atSlot_plots (s : State) (p k : Nat) : (s.atSlot p k).plots = s.plots := rfl
@[simp] theorem State.atSlot_reqs (s : State) (p k : Nat) : (s.atSlot p k).reqs = s.reqs := rfl
@[simp] theorem State.atSlot_walks (s : State) (p k : Nat) : (s.atSlot p k).walks = s.walks := rfl
@[simp] theorem State.atSlot_pnreqs (s : State) (p k : Nat) : (s.atSlot p k).pnreqs = s.pnreqs := rfl
@[simp] theorem State.atSlot_outs (s : State) (p k : Nat) : (s.atSlot p k).outs = s.outs := rfl
@[simp] theorem State.atSlot_packets (s : State) (p k : Nat) : (s.atSlot p k).packets = s.packets := rfl
@[simp] theorem State.atSlot_frontiers (s : State) (p k : Nat) : (s.atSlot p k).frontiers = s.frontiers := rfl
@[simp] theorem State.atSlot_asked (s : State) (p k : Nat) : (s.atSlot p k).asked = s.asked := rfl
@[simp] theorem State.atSlot_tokens (s : State) (p k : Nat) : (s.atSlot p k).tokens = s.tokens := rfl
@[simp] theorem State.atSlot_causal (s : State) (p k : Nat) : (s.atSlot p k).causal = s.causal := rfl
@[simp] theorem State.atSlot_removed (s : State) (p k : Nat) : (s.atSlot p k).removed = s.removed := rfl
@[simp] theorem State.atSlot_rebase (s : State) (p k : Nat) : (s.atSlot p k).rebase = s.rebase := rfl
@[simp] theorem State.atSlot_rebasing (s : State) (p k : Nat) : (s.atSlot p k).rebasing = s.rebasing := rfl
@[simp] theorem State.atSlot_rebaseAt (s : State) (p k : Nat) : (s.atSlot p k).rebaseAt = s.rebaseAt := rfl
@[simp] theorem State.atSlot_lastDelivery (s : State) (p k : Nat) : (s.atSlot p k).lastDelivery = s.lastDelivery := rfl
@[simp] theorem State.atSlot_partitions (s : State) (p k : Nat) : (s.atSlot p k).partitions = s.partitions := rfl
@[simp] theorem State.atSlot_pendingParts (s : State) (p k : Nat) : (s.atSlot p k).pendingParts = s.pendingParts := rfl
@[simp] theorem State.atSlot_dies (s : State) (p k : Nat) : (s.atSlot p k).dies = s.dies := rfl
@[simp] theorem State.atSlot_optics (s : State) (p k : Nat) : (s.atSlot p k).optics = s.optics := rfl
@[simp] theorem State.atSlot_recovery (s : State) (p k : Nat) : (s.atSlot p k).recovery = s.recovery := rfl
@[simp] theorem State.atSlot_transients (s : State) (p k : Nat) : (s.atSlot p k).transients = s.transients := rfl
@[simp] theorem State.atSlot_bunting (s : State) (p k : Nat) : (s.atSlot p k).bunting = s.bunting := rfl
@[simp] theorem State.atSlot_pennants (s : State) (p k : Nat) : (s.atSlot p k).pennants = s.pennants := rfl
@[simp] theorem State.atSlot_words (s : State) (p k : Nat) : (s.atSlot p k).words = s.words := rfl
@[simp] theorem State.atSlot_ports (s : State) (p k : Nat) : (s.atSlot p k).ports = s.ports := rfl
@[simp] theorem State.atSlot_regions (s : State) (p k : Nat) : (s.atSlot p k).regions = s.regions := rfl
@[simp] theorem State.atSlot_chans (s : State) (p k : Nat) : (s.atSlot p k).chans = s.chans := rfl
@[simp] theorem State.atSlot_insts (s : State) (p k : Nat) : (s.atSlot p k).insts = s.insts := rfl
@[simp] theorem State.atSlot_nextInst (s : State) (p k : Nat) : (s.atSlot p k).nextInst = s.nextInst := rfl
@[simp] theorem State.atSlot_peers (s : State) (p k : Nat) : (s.atSlot p k).peers = s.peers := rfl
@[simp] theorem State.atSlot_peerOut (s : State) (p k : Nat) : (s.atSlot p k).peerOut = s.peerOut := rfl
@[simp] theorem State.atSlot_hostAcks (s : State) (p k : Nat) : (s.atSlot p k).hostAcks = s.hostAcks := rfl
@[simp] theorem State.atSlot_sessions (s : State) (p k : Nat) : (s.atSlot p k).sessions = s.sessions := rfl
@[simp] theorem State.atSlot_qpDown (s : State) (p k : Nat) : (s.atSlot p k).qpDown = s.qpDown := rfl
@[simp] theorem State.atSlot_naks (s : State) (p k : Nat) : (s.atSlot p k).naks = s.naks := rfl
@[simp] theorem State.atSlot_queues (s : State) (p k : Nat) : (s.atSlot p k).queues = s.queues := rfl
@[simp] theorem State.atSlot_links (s : State) (p k : Nat) : (s.atSlot p k).links = s.links := rfl
@[simp] theorem State.atSlot_cmds (s : State) (p k : Nat) : (s.atSlot p k).cmds = s.cmds := rfl
@[simp] theorem State.atSlot_patchMsgs (s : State) (p k : Nat) : (s.atSlot p k).patchMsgs = s.patchMsgs := rfl
@[simp] theorem State.atSlot_lastQueue (s : State) (p k : Nat) : (s.atSlot p k).lastQueue = s.lastQueue := rfl
@[simp] theorem State.atSlot_parkIds (s : State) (p k : Nat) : (s.atSlot p k).parkIds = s.parkIds := rfl
@[simp] theorem State.atSlot_log (s : State) (p k : Nat) : (s.atSlot p k).log = s.log := rfl
@[simp] theorem State.atSlot_logSeq (s : State) (p k : Nat) : (s.atSlot p k).logSeq = s.logSeq := rfl
@[simp] theorem State.atSlot_logRead (s : State) (p k : Nat) : (s.atSlot p k).logRead = s.logRead := rfl
@[simp] theorem State.atSlot_logLost (s : State) (p k : Nat) : (s.atSlot p k).logLost = s.logLost := rfl
@[simp] theorem State.atSlot_sent (s : State) (p k : Nat) : (s.atSlot p k).sent = s.sent := rfl
@[simp] theorem State.atSlot_nextId (s : State) (p k : Nat) : (s.atSlot p k).nextId = s.nextId := rfl
@[simp] theorem State.atSlot_sched (s : State) (p k : Nat) : (s.atSlot p k).sched = s.sched := rfl
@[simp] theorem State.atSlot_choices (s : State) (p k : Nat) : (s.atSlot p k).choices = s.choices := rfl
@[simp] theorem State.atSlot_free (s : State) (p k : Nat) : (s.atSlot p k).free = s.free := rfl
/-! vSet -/
@[simp] theorem State.vSet_part (s : State) (n : VNum) (v : VReg) : (s.vSet n v).part = s.part := rfl
@[simp] theorem State.vSet_powered (s : State) (n : VNum) (v : VReg) : (s.vSet n v).powered = s.powered := rfl
@[simp] theorem State.vSet_halted (s : State) (n : VNum) (v : VReg) : (s.vSet n v).halted = s.halted := rfl
@[simp] theorem State.vSet_clock (s : State) (n : VNum) (v : VReg) : (s.vSet n v).clock = s.clock := rfl
@[simp] theorem State.vSet_mem (s : State) (n : VNum) (v : VReg) : (s.vSet n v).mem = s.mem := rfl
@[simp] theorem State.vSet_plots (s : State) (n : VNum) (v : VReg) : (s.vSet n v).plots = s.plots := rfl
@[simp] theorem State.vSet_reqs (s : State) (n : VNum) (v : VReg) : (s.vSet n v).reqs = s.reqs := rfl
@[simp] theorem State.vSet_walks (s : State) (n : VNum) (v : VReg) : (s.vSet n v).walks = s.walks := rfl
@[simp] theorem State.vSet_pnreqs (s : State) (n : VNum) (v : VReg) : (s.vSet n v).pnreqs = s.pnreqs := rfl
@[simp] theorem State.vSet_outs (s : State) (n : VNum) (v : VReg) : (s.vSet n v).outs = s.outs := rfl
@[simp] theorem State.vSet_packets (s : State) (n : VNum) (v : VReg) : (s.vSet n v).packets = s.packets := rfl
@[simp] theorem State.vSet_frontiers (s : State) (n : VNum) (v : VReg) : (s.vSet n v).frontiers = s.frontiers := rfl
@[simp] theorem State.vSet_asked (s : State) (n : VNum) (v : VReg) : (s.vSet n v).asked = s.asked := rfl
@[simp] theorem State.vSet_tokens (s : State) (n : VNum) (v : VReg) : (s.vSet n v).tokens = s.tokens := rfl
@[simp] theorem State.vSet_causal (s : State) (n : VNum) (v : VReg) : (s.vSet n v).causal = s.causal := rfl
@[simp] theorem State.vSet_removed (s : State) (n : VNum) (v : VReg) : (s.vSet n v).removed = s.removed := rfl
@[simp] theorem State.vSet_rebase (s : State) (n : VNum) (v : VReg) : (s.vSet n v).rebase = s.rebase := rfl
@[simp] theorem State.vSet_rebasing (s : State) (n : VNum) (v : VReg) : (s.vSet n v).rebasing = s.rebasing := rfl
@[simp] theorem State.vSet_rebaseAt (s : State) (n : VNum) (v : VReg) : (s.vSet n v).rebaseAt = s.rebaseAt := rfl
@[simp] theorem State.vSet_lastDelivery (s : State) (n : VNum) (v : VReg) : (s.vSet n v).lastDelivery = s.lastDelivery := rfl
@[simp] theorem State.vSet_partitions (s : State) (n : VNum) (v : VReg) : (s.vSet n v).partitions = s.partitions := rfl
@[simp] theorem State.vSet_pendingParts (s : State) (n : VNum) (v : VReg) : (s.vSet n v).pendingParts = s.pendingParts := rfl
@[simp] theorem State.vSet_dies (s : State) (n : VNum) (v : VReg) : (s.vSet n v).dies = s.dies := rfl
@[simp] theorem State.vSet_optics (s : State) (n : VNum) (v : VReg) : (s.vSet n v).optics = s.optics := rfl
@[simp] theorem State.vSet_recovery (s : State) (n : VNum) (v : VReg) : (s.vSet n v).recovery = s.recovery := rfl
@[simp] theorem State.vSet_transients (s : State) (n : VNum) (v : VReg) : (s.vSet n v).transients = s.transients := rfl
@[simp] theorem State.vSet_bunting (s : State) (n : VNum) (v : VReg) : (s.vSet n v).bunting = s.bunting := rfl
@[simp] theorem State.vSet_pennants (s : State) (n : VNum) (v : VReg) : (s.vSet n v).pennants = s.pennants := rfl
@[simp] theorem State.vSet_words (s : State) (n : VNum) (v : VReg) : (s.vSet n v).words = s.words := rfl
@[simp] theorem State.vSet_ports (s : State) (n : VNum) (v : VReg) : (s.vSet n v).ports = s.ports := rfl
@[simp] theorem State.vSet_regions (s : State) (n : VNum) (v : VReg) : (s.vSet n v).regions = s.regions := rfl
@[simp] theorem State.vSet_chans (s : State) (n : VNum) (v : VReg) : (s.vSet n v).chans = s.chans := rfl
@[simp] theorem State.vSet_insts (s : State) (n : VNum) (v : VReg) : (s.vSet n v).insts = s.insts := rfl
@[simp] theorem State.vSet_nextInst (s : State) (n : VNum) (v : VReg) : (s.vSet n v).nextInst = s.nextInst := rfl
@[simp] theorem State.vSet_peers (s : State) (n : VNum) (v : VReg) : (s.vSet n v).peers = s.peers := rfl
@[simp] theorem State.vSet_peerOut (s : State) (n : VNum) (v : VReg) : (s.vSet n v).peerOut = s.peerOut := rfl
@[simp] theorem State.vSet_hostAcks (s : State) (n : VNum) (v : VReg) : (s.vSet n v).hostAcks = s.hostAcks := rfl
@[simp] theorem State.vSet_sessions (s : State) (n : VNum) (v : VReg) : (s.vSet n v).sessions = s.sessions := rfl
@[simp] theorem State.vSet_qpDown (s : State) (n : VNum) (v : VReg) : (s.vSet n v).qpDown = s.qpDown := rfl
@[simp] theorem State.vSet_naks (s : State) (n : VNum) (v : VReg) : (s.vSet n v).naks = s.naks := rfl
@[simp] theorem State.vSet_queues (s : State) (n : VNum) (v : VReg) : (s.vSet n v).queues = s.queues := rfl
@[simp] theorem State.vSet_links (s : State) (n : VNum) (v : VReg) : (s.vSet n v).links = s.links := rfl
@[simp] theorem State.vSet_cmds (s : State) (n : VNum) (v : VReg) : (s.vSet n v).cmds = s.cmds := rfl
@[simp] theorem State.vSet_patchMsgs (s : State) (n : VNum) (v : VReg) : (s.vSet n v).patchMsgs = s.patchMsgs := rfl
@[simp] theorem State.vSet_lastQueue (s : State) (n : VNum) (v : VReg) : (s.vSet n v).lastQueue = s.lastQueue := rfl
@[simp] theorem State.vSet_parkIds (s : State) (n : VNum) (v : VReg) : (s.vSet n v).parkIds = s.parkIds := rfl
@[simp] theorem State.vSet_log (s : State) (n : VNum) (v : VReg) : (s.vSet n v).log = s.log := rfl
@[simp] theorem State.vSet_logSeq (s : State) (n : VNum) (v : VReg) : (s.vSet n v).logSeq = s.logSeq := rfl
@[simp] theorem State.vSet_logRead (s : State) (n : VNum) (v : VReg) : (s.vSet n v).logRead = s.logRead := rfl
@[simp] theorem State.vSet_logLost (s : State) (n : VNum) (v : VReg) : (s.vSet n v).logLost = s.logLost := rfl
@[simp] theorem State.vSet_sent (s : State) (n : VNum) (v : VReg) : (s.vSet n v).sent = s.sent := rfl
@[simp] theorem State.vSet_nextId (s : State) (n : VNum) (v : VReg) : (s.vSet n v).nextId = s.nextId := rfl
@[simp] theorem State.vSet_sched (s : State) (n : VNum) (v : VReg) : (s.vSet n v).sched = s.sched := rfl
@[simp] theorem State.vSet_choices (s : State) (n : VNum) (v : VReg) : (s.vSet n v).choices = s.choices := rfl
@[simp] theorem State.vSet_focus (s : State) (n : VNum) (v : VReg) : (s.vSet n v).focus = s.focus := rfl
@[simp] theorem State.vSet_free (s : State) (n : VNum) (v : VReg) : (s.vSet n v).free = s.free := rfl
/-! qSet -/
@[simp] theorem State.qSet_part (s : State) (n : QNum) (v : BitVec 128) : (s.qSet n v).part = s.part := rfl
@[simp] theorem State.qSet_powered (s : State) (n : QNum) (v : BitVec 128) : (s.qSet n v).powered = s.powered := rfl
@[simp] theorem State.qSet_halted (s : State) (n : QNum) (v : BitVec 128) : (s.qSet n v).halted = s.halted := rfl
@[simp] theorem State.qSet_clock (s : State) (n : QNum) (v : BitVec 128) : (s.qSet n v).clock = s.clock := rfl
@[simp] theorem State.qSet_mem (s : State) (n : QNum) (v : BitVec 128) : (s.qSet n v).mem = s.mem := rfl
@[simp] theorem State.qSet_plots (s : State) (n : QNum) (v : BitVec 128) : (s.qSet n v).plots = s.plots := rfl
@[simp] theorem State.qSet_reqs (s : State) (n : QNum) (v : BitVec 128) : (s.qSet n v).reqs = s.reqs := rfl
@[simp] theorem State.qSet_walks (s : State) (n : QNum) (v : BitVec 128) : (s.qSet n v).walks = s.walks := rfl
@[simp] theorem State.qSet_pnreqs (s : State) (n : QNum) (v : BitVec 128) : (s.qSet n v).pnreqs = s.pnreqs := rfl
@[simp] theorem State.qSet_outs (s : State) (n : QNum) (v : BitVec 128) : (s.qSet n v).outs = s.outs := rfl
@[simp] theorem State.qSet_packets (s : State) (n : QNum) (v : BitVec 128) : (s.qSet n v).packets = s.packets := rfl
@[simp] theorem State.qSet_frontiers (s : State) (n : QNum) (v : BitVec 128) : (s.qSet n v).frontiers = s.frontiers := rfl
@[simp] theorem State.qSet_asked (s : State) (n : QNum) (v : BitVec 128) : (s.qSet n v).asked = s.asked := rfl
@[simp] theorem State.qSet_tokens (s : State) (n : QNum) (v : BitVec 128) : (s.qSet n v).tokens = s.tokens := rfl
@[simp] theorem State.qSet_causal (s : State) (n : QNum) (v : BitVec 128) : (s.qSet n v).causal = s.causal := rfl
@[simp] theorem State.qSet_removed (s : State) (n : QNum) (v : BitVec 128) : (s.qSet n v).removed = s.removed := rfl
@[simp] theorem State.qSet_rebase (s : State) (n : QNum) (v : BitVec 128) : (s.qSet n v).rebase = s.rebase := rfl
@[simp] theorem State.qSet_rebasing (s : State) (n : QNum) (v : BitVec 128) : (s.qSet n v).rebasing = s.rebasing := rfl
@[simp] theorem State.qSet_rebaseAt (s : State) (n : QNum) (v : BitVec 128) : (s.qSet n v).rebaseAt = s.rebaseAt := rfl
@[simp] theorem State.qSet_lastDelivery (s : State) (n : QNum) (v : BitVec 128) : (s.qSet n v).lastDelivery = s.lastDelivery := rfl
@[simp] theorem State.qSet_partitions (s : State) (n : QNum) (v : BitVec 128) : (s.qSet n v).partitions = s.partitions := rfl
@[simp] theorem State.qSet_pendingParts (s : State) (n : QNum) (v : BitVec 128) : (s.qSet n v).pendingParts = s.pendingParts := rfl
@[simp] theorem State.qSet_dies (s : State) (n : QNum) (v : BitVec 128) : (s.qSet n v).dies = s.dies := rfl
@[simp] theorem State.qSet_optics (s : State) (n : QNum) (v : BitVec 128) : (s.qSet n v).optics = s.optics := rfl
@[simp] theorem State.qSet_recovery (s : State) (n : QNum) (v : BitVec 128) : (s.qSet n v).recovery = s.recovery := rfl
@[simp] theorem State.qSet_transients (s : State) (n : QNum) (v : BitVec 128) : (s.qSet n v).transients = s.transients := rfl
@[simp] theorem State.qSet_bunting (s : State) (n : QNum) (v : BitVec 128) : (s.qSet n v).bunting = s.bunting := rfl
@[simp] theorem State.qSet_pennants (s : State) (n : QNum) (v : BitVec 128) : (s.qSet n v).pennants = s.pennants := rfl
@[simp] theorem State.qSet_words (s : State) (n : QNum) (v : BitVec 128) : (s.qSet n v).words = s.words := rfl
@[simp] theorem State.qSet_ports (s : State) (n : QNum) (v : BitVec 128) : (s.qSet n v).ports = s.ports := rfl
@[simp] theorem State.qSet_regions (s : State) (n : QNum) (v : BitVec 128) : (s.qSet n v).regions = s.regions := rfl
@[simp] theorem State.qSet_chans (s : State) (n : QNum) (v : BitVec 128) : (s.qSet n v).chans = s.chans := rfl
@[simp] theorem State.qSet_insts (s : State) (n : QNum) (v : BitVec 128) : (s.qSet n v).insts = s.insts := rfl
@[simp] theorem State.qSet_nextInst (s : State) (n : QNum) (v : BitVec 128) : (s.qSet n v).nextInst = s.nextInst := rfl
@[simp] theorem State.qSet_peers (s : State) (n : QNum) (v : BitVec 128) : (s.qSet n v).peers = s.peers := rfl
@[simp] theorem State.qSet_peerOut (s : State) (n : QNum) (v : BitVec 128) : (s.qSet n v).peerOut = s.peerOut := rfl
@[simp] theorem State.qSet_hostAcks (s : State) (n : QNum) (v : BitVec 128) : (s.qSet n v).hostAcks = s.hostAcks := rfl
@[simp] theorem State.qSet_sessions (s : State) (n : QNum) (v : BitVec 128) : (s.qSet n v).sessions = s.sessions := rfl
@[simp] theorem State.qSet_qpDown (s : State) (n : QNum) (v : BitVec 128) : (s.qSet n v).qpDown = s.qpDown := rfl
@[simp] theorem State.qSet_naks (s : State) (n : QNum) (v : BitVec 128) : (s.qSet n v).naks = s.naks := rfl
@[simp] theorem State.qSet_queues (s : State) (n : QNum) (v : BitVec 128) : (s.qSet n v).queues = s.queues := rfl
@[simp] theorem State.qSet_links (s : State) (n : QNum) (v : BitVec 128) : (s.qSet n v).links = s.links := rfl
@[simp] theorem State.qSet_cmds (s : State) (n : QNum) (v : BitVec 128) : (s.qSet n v).cmds = s.cmds := rfl
@[simp] theorem State.qSet_patchMsgs (s : State) (n : QNum) (v : BitVec 128) : (s.qSet n v).patchMsgs = s.patchMsgs := rfl
@[simp] theorem State.qSet_lastQueue (s : State) (n : QNum) (v : BitVec 128) : (s.qSet n v).lastQueue = s.lastQueue := rfl
@[simp] theorem State.qSet_parkIds (s : State) (n : QNum) (v : BitVec 128) : (s.qSet n v).parkIds = s.parkIds := rfl
@[simp] theorem State.qSet_log (s : State) (n : QNum) (v : BitVec 128) : (s.qSet n v).log = s.log := rfl
@[simp] theorem State.qSet_logSeq (s : State) (n : QNum) (v : BitVec 128) : (s.qSet n v).logSeq = s.logSeq := rfl
@[simp] theorem State.qSet_logRead (s : State) (n : QNum) (v : BitVec 128) : (s.qSet n v).logRead = s.logRead := rfl
@[simp] theorem State.qSet_logLost (s : State) (n : QNum) (v : BitVec 128) : (s.qSet n v).logLost = s.logLost := rfl
@[simp] theorem State.qSet_sent (s : State) (n : QNum) (v : BitVec 128) : (s.qSet n v).sent = s.sent := rfl
@[simp] theorem State.qSet_nextId (s : State) (n : QNum) (v : BitVec 128) : (s.qSet n v).nextId = s.nextId := rfl
@[simp] theorem State.qSet_sched (s : State) (n : QNum) (v : BitVec 128) : (s.qSet n v).sched = s.sched := rfl
@[simp] theorem State.qSet_choices (s : State) (n : QNum) (v : BitVec 128) : (s.qSet n v).choices = s.choices := rfl
@[simp] theorem State.qSet_focus (s : State) (n : QNum) (v : BitVec 128) : (s.qSet n v).focus = s.focus := rfl
@[simp] theorem State.qSet_free (s : State) (n : QNum) (v : BitVec 128) : (s.qSet n v).free = s.free := rfl
/-! modCausal -/
@[simp] theorem State.modCausal_part (s : State) (u : Nat) (f : Causal → Causal) : (s.modCausal u f).part = s.part := rfl
@[simp] theorem State.modCausal_powered (s : State) (u : Nat) (f : Causal → Causal) : (s.modCausal u f).powered = s.powered := rfl
@[simp] theorem State.modCausal_halted (s : State) (u : Nat) (f : Causal → Causal) : (s.modCausal u f).halted = s.halted := rfl
@[simp] theorem State.modCausal_clock (s : State) (u : Nat) (f : Causal → Causal) : (s.modCausal u f).clock = s.clock := rfl
@[simp] theorem State.modCausal_mem (s : State) (u : Nat) (f : Causal → Causal) : (s.modCausal u f).mem = s.mem := rfl
@[simp] theorem State.modCausal_slots (s : State) (u : Nat) (f : Causal → Causal) : (s.modCausal u f).slots = s.slots := rfl
@[simp] theorem State.modCausal_plots (s : State) (u : Nat) (f : Causal → Causal) : (s.modCausal u f).plots = s.plots := rfl
@[simp] theorem State.modCausal_reqs (s : State) (u : Nat) (f : Causal → Causal) : (s.modCausal u f).reqs = s.reqs := rfl
@[simp] theorem State.modCausal_walks (s : State) (u : Nat) (f : Causal → Causal) : (s.modCausal u f).walks = s.walks := rfl
@[simp] theorem State.modCausal_pnreqs (s : State) (u : Nat) (f : Causal → Causal) : (s.modCausal u f).pnreqs = s.pnreqs := rfl
@[simp] theorem State.modCausal_outs (s : State) (u : Nat) (f : Causal → Causal) : (s.modCausal u f).outs = s.outs := rfl
@[simp] theorem State.modCausal_packets (s : State) (u : Nat) (f : Causal → Causal) : (s.modCausal u f).packets = s.packets := rfl
@[simp] theorem State.modCausal_frontiers (s : State) (u : Nat) (f : Causal → Causal) : (s.modCausal u f).frontiers = s.frontiers := rfl
@[simp] theorem State.modCausal_asked (s : State) (u : Nat) (f : Causal → Causal) : (s.modCausal u f).asked = s.asked := rfl
@[simp] theorem State.modCausal_tokens (s : State) (u : Nat) (f : Causal → Causal) : (s.modCausal u f).tokens = s.tokens := rfl
@[simp] theorem State.modCausal_removed (s : State) (u : Nat) (f : Causal → Causal) : (s.modCausal u f).removed = s.removed := rfl
@[simp] theorem State.modCausal_rebase (s : State) (u : Nat) (f : Causal → Causal) : (s.modCausal u f).rebase = s.rebase := rfl
@[simp] theorem State.modCausal_rebasing (s : State) (u : Nat) (f : Causal → Causal) : (s.modCausal u f).rebasing = s.rebasing := rfl
@[simp] theorem State.modCausal_rebaseAt (s : State) (u : Nat) (f : Causal → Causal) : (s.modCausal u f).rebaseAt = s.rebaseAt := rfl
@[simp] theorem State.modCausal_lastDelivery (s : State) (u : Nat) (f : Causal → Causal) : (s.modCausal u f).lastDelivery = s.lastDelivery := rfl
@[simp] theorem State.modCausal_partitions (s : State) (u : Nat) (f : Causal → Causal) : (s.modCausal u f).partitions = s.partitions := rfl
@[simp] theorem State.modCausal_pendingParts (s : State) (u : Nat) (f : Causal → Causal) : (s.modCausal u f).pendingParts = s.pendingParts := rfl
@[simp] theorem State.modCausal_dies (s : State) (u : Nat) (f : Causal → Causal) : (s.modCausal u f).dies = s.dies := rfl
@[simp] theorem State.modCausal_optics (s : State) (u : Nat) (f : Causal → Causal) : (s.modCausal u f).optics = s.optics := rfl
@[simp] theorem State.modCausal_recovery (s : State) (u : Nat) (f : Causal → Causal) : (s.modCausal u f).recovery = s.recovery := rfl
@[simp] theorem State.modCausal_transients (s : State) (u : Nat) (f : Causal → Causal) : (s.modCausal u f).transients = s.transients := rfl
@[simp] theorem State.modCausal_bunting (s : State) (u : Nat) (f : Causal → Causal) : (s.modCausal u f).bunting = s.bunting := rfl
@[simp] theorem State.modCausal_pennants (s : State) (u : Nat) (f : Causal → Causal) : (s.modCausal u f).pennants = s.pennants := rfl
@[simp] theorem State.modCausal_words (s : State) (u : Nat) (f : Causal → Causal) : (s.modCausal u f).words = s.words := rfl
@[simp] theorem State.modCausal_ports (s : State) (u : Nat) (f : Causal → Causal) : (s.modCausal u f).ports = s.ports := rfl
@[simp] theorem State.modCausal_regions (s : State) (u : Nat) (f : Causal → Causal) : (s.modCausal u f).regions = s.regions := rfl
@[simp] theorem State.modCausal_chans (s : State) (u : Nat) (f : Causal → Causal) : (s.modCausal u f).chans = s.chans := rfl
@[simp] theorem State.modCausal_insts (s : State) (u : Nat) (f : Causal → Causal) : (s.modCausal u f).insts = s.insts := rfl
@[simp] theorem State.modCausal_nextInst (s : State) (u : Nat) (f : Causal → Causal) : (s.modCausal u f).nextInst = s.nextInst := rfl
@[simp] theorem State.modCausal_peers (s : State) (u : Nat) (f : Causal → Causal) : (s.modCausal u f).peers = s.peers := rfl
@[simp] theorem State.modCausal_peerOut (s : State) (u : Nat) (f : Causal → Causal) : (s.modCausal u f).peerOut = s.peerOut := rfl
@[simp] theorem State.modCausal_hostAcks (s : State) (u : Nat) (f : Causal → Causal) : (s.modCausal u f).hostAcks = s.hostAcks := rfl
@[simp] theorem State.modCausal_sessions (s : State) (u : Nat) (f : Causal → Causal) : (s.modCausal u f).sessions = s.sessions := rfl
@[simp] theorem State.modCausal_qpDown (s : State) (u : Nat) (f : Causal → Causal) : (s.modCausal u f).qpDown = s.qpDown := rfl
@[simp] theorem State.modCausal_naks (s : State) (u : Nat) (f : Causal → Causal) : (s.modCausal u f).naks = s.naks := rfl
@[simp] theorem State.modCausal_queues (s : State) (u : Nat) (f : Causal → Causal) : (s.modCausal u f).queues = s.queues := rfl
@[simp] theorem State.modCausal_links (s : State) (u : Nat) (f : Causal → Causal) : (s.modCausal u f).links = s.links := rfl
@[simp] theorem State.modCausal_cmds (s : State) (u : Nat) (f : Causal → Causal) : (s.modCausal u f).cmds = s.cmds := rfl
@[simp] theorem State.modCausal_patchMsgs (s : State) (u : Nat) (f : Causal → Causal) : (s.modCausal u f).patchMsgs = s.patchMsgs := rfl
@[simp] theorem State.modCausal_lastQueue (s : State) (u : Nat) (f : Causal → Causal) : (s.modCausal u f).lastQueue = s.lastQueue := rfl
@[simp] theorem State.modCausal_parkIds (s : State) (u : Nat) (f : Causal → Causal) : (s.modCausal u f).parkIds = s.parkIds := rfl
@[simp] theorem State.modCausal_log (s : State) (u : Nat) (f : Causal → Causal) : (s.modCausal u f).log = s.log := rfl
@[simp] theorem State.modCausal_logSeq (s : State) (u : Nat) (f : Causal → Causal) : (s.modCausal u f).logSeq = s.logSeq := rfl
@[simp] theorem State.modCausal_logRead (s : State) (u : Nat) (f : Causal → Causal) : (s.modCausal u f).logRead = s.logRead := rfl
@[simp] theorem State.modCausal_logLost (s : State) (u : Nat) (f : Causal → Causal) : (s.modCausal u f).logLost = s.logLost := rfl
@[simp] theorem State.modCausal_sent (s : State) (u : Nat) (f : Causal → Causal) : (s.modCausal u f).sent = s.sent := rfl
@[simp] theorem State.modCausal_nextId (s : State) (u : Nat) (f : Causal → Causal) : (s.modCausal u f).nextId = s.nextId := rfl
@[simp] theorem State.modCausal_sched (s : State) (u : Nat) (f : Causal → Causal) : (s.modCausal u f).sched = s.sched := rfl
@[simp] theorem State.modCausal_choices (s : State) (u : Nat) (f : Causal → Causal) : (s.modCausal u f).choices = s.choices := rfl
@[simp] theorem State.modCausal_focus (s : State) (u : Nat) (f : Causal → Causal) : (s.modCausal u f).focus = s.focus := rfl
@[simp] theorem State.modCausal_free (s : State) (u : Nat) (f : Causal → Causal) : (s.modCausal u f).free = s.free := rfl
/-! mergeDv -/
@[simp] theorem State.mergeDv_part (s : State) (d : Nat) (l : List (BitVec 10)) : (s.mergeDv d l).part = s.part := rfl
@[simp] theorem State.mergeDv_powered (s : State) (d : Nat) (l : List (BitVec 10)) : (s.mergeDv d l).powered = s.powered := rfl
@[simp] theorem State.mergeDv_halted (s : State) (d : Nat) (l : List (BitVec 10)) : (s.mergeDv d l).halted = s.halted := rfl
@[simp] theorem State.mergeDv_clock (s : State) (d : Nat) (l : List (BitVec 10)) : (s.mergeDv d l).clock = s.clock := rfl
@[simp] theorem State.mergeDv_mem (s : State) (d : Nat) (l : List (BitVec 10)) : (s.mergeDv d l).mem = s.mem := rfl
@[simp] theorem State.mergeDv_slots (s : State) (d : Nat) (l : List (BitVec 10)) : (s.mergeDv d l).slots = s.slots := rfl
@[simp] theorem State.mergeDv_plots (s : State) (d : Nat) (l : List (BitVec 10)) : (s.mergeDv d l).plots = s.plots := rfl
@[simp] theorem State.mergeDv_reqs (s : State) (d : Nat) (l : List (BitVec 10)) : (s.mergeDv d l).reqs = s.reqs := rfl
@[simp] theorem State.mergeDv_walks (s : State) (d : Nat) (l : List (BitVec 10)) : (s.mergeDv d l).walks = s.walks := rfl
@[simp] theorem State.mergeDv_pnreqs (s : State) (d : Nat) (l : List (BitVec 10)) : (s.mergeDv d l).pnreqs = s.pnreqs := rfl
@[simp] theorem State.mergeDv_outs (s : State) (d : Nat) (l : List (BitVec 10)) : (s.mergeDv d l).outs = s.outs := rfl
@[simp] theorem State.mergeDv_packets (s : State) (d : Nat) (l : List (BitVec 10)) : (s.mergeDv d l).packets = s.packets := rfl
@[simp] theorem State.mergeDv_frontiers (s : State) (d : Nat) (l : List (BitVec 10)) : (s.mergeDv d l).frontiers = s.frontiers := rfl
@[simp] theorem State.mergeDv_asked (s : State) (d : Nat) (l : List (BitVec 10)) : (s.mergeDv d l).asked = s.asked := rfl
@[simp] theorem State.mergeDv_tokens (s : State) (d : Nat) (l : List (BitVec 10)) : (s.mergeDv d l).tokens = s.tokens := rfl
@[simp] theorem State.mergeDv_removed (s : State) (d : Nat) (l : List (BitVec 10)) : (s.mergeDv d l).removed = s.removed := rfl
@[simp] theorem State.mergeDv_rebase (s : State) (d : Nat) (l : List (BitVec 10)) : (s.mergeDv d l).rebase = s.rebase := rfl
@[simp] theorem State.mergeDv_rebasing (s : State) (d : Nat) (l : List (BitVec 10)) : (s.mergeDv d l).rebasing = s.rebasing := rfl
@[simp] theorem State.mergeDv_rebaseAt (s : State) (d : Nat) (l : List (BitVec 10)) : (s.mergeDv d l).rebaseAt = s.rebaseAt := rfl
@[simp] theorem State.mergeDv_lastDelivery (s : State) (d : Nat) (l : List (BitVec 10)) : (s.mergeDv d l).lastDelivery = s.lastDelivery := rfl
@[simp] theorem State.mergeDv_partitions (s : State) (d : Nat) (l : List (BitVec 10)) : (s.mergeDv d l).partitions = s.partitions := rfl
@[simp] theorem State.mergeDv_pendingParts (s : State) (d : Nat) (l : List (BitVec 10)) : (s.mergeDv d l).pendingParts = s.pendingParts := rfl
@[simp] theorem State.mergeDv_dies (s : State) (d : Nat) (l : List (BitVec 10)) : (s.mergeDv d l).dies = s.dies := rfl
@[simp] theorem State.mergeDv_optics (s : State) (d : Nat) (l : List (BitVec 10)) : (s.mergeDv d l).optics = s.optics := rfl
@[simp] theorem State.mergeDv_recovery (s : State) (d : Nat) (l : List (BitVec 10)) : (s.mergeDv d l).recovery = s.recovery := rfl
@[simp] theorem State.mergeDv_transients (s : State) (d : Nat) (l : List (BitVec 10)) : (s.mergeDv d l).transients = s.transients := rfl
@[simp] theorem State.mergeDv_bunting (s : State) (d : Nat) (l : List (BitVec 10)) : (s.mergeDv d l).bunting = s.bunting := rfl
@[simp] theorem State.mergeDv_pennants (s : State) (d : Nat) (l : List (BitVec 10)) : (s.mergeDv d l).pennants = s.pennants := rfl
@[simp] theorem State.mergeDv_words (s : State) (d : Nat) (l : List (BitVec 10)) : (s.mergeDv d l).words = s.words := rfl
@[simp] theorem State.mergeDv_ports (s : State) (d : Nat) (l : List (BitVec 10)) : (s.mergeDv d l).ports = s.ports := rfl
@[simp] theorem State.mergeDv_regions (s : State) (d : Nat) (l : List (BitVec 10)) : (s.mergeDv d l).regions = s.regions := rfl
@[simp] theorem State.mergeDv_chans (s : State) (d : Nat) (l : List (BitVec 10)) : (s.mergeDv d l).chans = s.chans := rfl
@[simp] theorem State.mergeDv_insts (s : State) (d : Nat) (l : List (BitVec 10)) : (s.mergeDv d l).insts = s.insts := rfl
@[simp] theorem State.mergeDv_nextInst (s : State) (d : Nat) (l : List (BitVec 10)) : (s.mergeDv d l).nextInst = s.nextInst := rfl
@[simp] theorem State.mergeDv_peers (s : State) (d : Nat) (l : List (BitVec 10)) : (s.mergeDv d l).peers = s.peers := rfl
@[simp] theorem State.mergeDv_peerOut (s : State) (d : Nat) (l : List (BitVec 10)) : (s.mergeDv d l).peerOut = s.peerOut := rfl
@[simp] theorem State.mergeDv_hostAcks (s : State) (d : Nat) (l : List (BitVec 10)) : (s.mergeDv d l).hostAcks = s.hostAcks := rfl
@[simp] theorem State.mergeDv_sessions (s : State) (d : Nat) (l : List (BitVec 10)) : (s.mergeDv d l).sessions = s.sessions := rfl
@[simp] theorem State.mergeDv_qpDown (s : State) (d : Nat) (l : List (BitVec 10)) : (s.mergeDv d l).qpDown = s.qpDown := rfl
@[simp] theorem State.mergeDv_naks (s : State) (d : Nat) (l : List (BitVec 10)) : (s.mergeDv d l).naks = s.naks := rfl
@[simp] theorem State.mergeDv_queues (s : State) (d : Nat) (l : List (BitVec 10)) : (s.mergeDv d l).queues = s.queues := rfl
@[simp] theorem State.mergeDv_links (s : State) (d : Nat) (l : List (BitVec 10)) : (s.mergeDv d l).links = s.links := rfl
@[simp] theorem State.mergeDv_cmds (s : State) (d : Nat) (l : List (BitVec 10)) : (s.mergeDv d l).cmds = s.cmds := rfl
@[simp] theorem State.mergeDv_patchMsgs (s : State) (d : Nat) (l : List (BitVec 10)) : (s.mergeDv d l).patchMsgs = s.patchMsgs := rfl
@[simp] theorem State.mergeDv_lastQueue (s : State) (d : Nat) (l : List (BitVec 10)) : (s.mergeDv d l).lastQueue = s.lastQueue := rfl
@[simp] theorem State.mergeDv_parkIds (s : State) (d : Nat) (l : List (BitVec 10)) : (s.mergeDv d l).parkIds = s.parkIds := rfl
@[simp] theorem State.mergeDv_log (s : State) (d : Nat) (l : List (BitVec 10)) : (s.mergeDv d l).log = s.log := rfl
@[simp] theorem State.mergeDv_logSeq (s : State) (d : Nat) (l : List (BitVec 10)) : (s.mergeDv d l).logSeq = s.logSeq := rfl
@[simp] theorem State.mergeDv_logRead (s : State) (d : Nat) (l : List (BitVec 10)) : (s.mergeDv d l).logRead = s.logRead := rfl
@[simp] theorem State.mergeDv_logLost (s : State) (d : Nat) (l : List (BitVec 10)) : (s.mergeDv d l).logLost = s.logLost := rfl
@[simp] theorem State.mergeDv_sent (s : State) (d : Nat) (l : List (BitVec 10)) : (s.mergeDv d l).sent = s.sent := rfl
@[simp] theorem State.mergeDv_nextId (s : State) (d : Nat) (l : List (BitVec 10)) : (s.mergeDv d l).nextId = s.nextId := rfl
@[simp] theorem State.mergeDv_sched (s : State) (d : Nat) (l : List (BitVec 10)) : (s.mergeDv d l).sched = s.sched := rfl
@[simp] theorem State.mergeDv_choices (s : State) (d : Nat) (l : List (BitVec 10)) : (s.mergeDv d l).choices = s.choices := rfl
@[simp] theorem State.mergeDv_focus (s : State) (d : Nat) (l : List (BitVec 10)) : (s.mergeDv d l).focus = s.focus := rfl
@[simp] theorem State.mergeDv_free (s : State) (d : Nat) (l : List (BitVec 10)) : (s.mergeDv d l).free = s.free := rfl
/-! setReq -/
@[simp] theorem State.setReq_part (s : State) (n : Nat) (r : Req) : (s.setReq n r).part = s.part := rfl
@[simp] theorem State.setReq_powered (s : State) (n : Nat) (r : Req) : (s.setReq n r).powered = s.powered := rfl
@[simp] theorem State.setReq_halted (s : State) (n : Nat) (r : Req) : (s.setReq n r).halted = s.halted := rfl
@[simp] theorem State.setReq_clock (s : State) (n : Nat) (r : Req) : (s.setReq n r).clock = s.clock := rfl
@[simp] theorem State.setReq_mem (s : State) (n : Nat) (r : Req) : (s.setReq n r).mem = s.mem := rfl
@[simp] theorem State.setReq_slots (s : State) (n : Nat) (r : Req) : (s.setReq n r).slots = s.slots := rfl
@[simp] theorem State.setReq_plots (s : State) (n : Nat) (r : Req) : (s.setReq n r).plots = s.plots := rfl
@[simp] theorem State.setReq_walks (s : State) (n : Nat) (r : Req) : (s.setReq n r).walks = s.walks := rfl
@[simp] theorem State.setReq_pnreqs (s : State) (n : Nat) (r : Req) : (s.setReq n r).pnreqs = s.pnreqs := rfl
@[simp] theorem State.setReq_outs (s : State) (n : Nat) (r : Req) : (s.setReq n r).outs = s.outs := rfl
@[simp] theorem State.setReq_packets (s : State) (n : Nat) (r : Req) : (s.setReq n r).packets = s.packets := rfl
@[simp] theorem State.setReq_frontiers (s : State) (n : Nat) (r : Req) : (s.setReq n r).frontiers = s.frontiers := rfl
@[simp] theorem State.setReq_asked (s : State) (n : Nat) (r : Req) : (s.setReq n r).asked = s.asked := rfl
@[simp] theorem State.setReq_tokens (s : State) (n : Nat) (r : Req) : (s.setReq n r).tokens = s.tokens := rfl
@[simp] theorem State.setReq_causal (s : State) (n : Nat) (r : Req) : (s.setReq n r).causal = s.causal := rfl
@[simp] theorem State.setReq_removed (s : State) (n : Nat) (r : Req) : (s.setReq n r).removed = s.removed := rfl
@[simp] theorem State.setReq_rebase (s : State) (n : Nat) (r : Req) : (s.setReq n r).rebase = s.rebase := rfl
@[simp] theorem State.setReq_rebasing (s : State) (n : Nat) (r : Req) : (s.setReq n r).rebasing = s.rebasing := rfl
@[simp] theorem State.setReq_rebaseAt (s : State) (n : Nat) (r : Req) : (s.setReq n r).rebaseAt = s.rebaseAt := rfl
@[simp] theorem State.setReq_lastDelivery (s : State) (n : Nat) (r : Req) : (s.setReq n r).lastDelivery = s.lastDelivery := rfl
@[simp] theorem State.setReq_partitions (s : State) (n : Nat) (r : Req) : (s.setReq n r).partitions = s.partitions := rfl
@[simp] theorem State.setReq_pendingParts (s : State) (n : Nat) (r : Req) : (s.setReq n r).pendingParts = s.pendingParts := rfl
@[simp] theorem State.setReq_dies (s : State) (n : Nat) (r : Req) : (s.setReq n r).dies = s.dies := rfl
@[simp] theorem State.setReq_optics (s : State) (n : Nat) (r : Req) : (s.setReq n r).optics = s.optics := rfl
@[simp] theorem State.setReq_recovery (s : State) (n : Nat) (r : Req) : (s.setReq n r).recovery = s.recovery := rfl
@[simp] theorem State.setReq_transients (s : State) (n : Nat) (r : Req) : (s.setReq n r).transients = s.transients := rfl
@[simp] theorem State.setReq_bunting (s : State) (n : Nat) (r : Req) : (s.setReq n r).bunting = s.bunting := rfl
@[simp] theorem State.setReq_pennants (s : State) (n : Nat) (r : Req) : (s.setReq n r).pennants = s.pennants := rfl
@[simp] theorem State.setReq_words (s : State) (n : Nat) (r : Req) : (s.setReq n r).words = s.words := rfl
@[simp] theorem State.setReq_ports (s : State) (n : Nat) (r : Req) : (s.setReq n r).ports = s.ports := rfl
@[simp] theorem State.setReq_regions (s : State) (n : Nat) (r : Req) : (s.setReq n r).regions = s.regions := rfl
@[simp] theorem State.setReq_chans (s : State) (n : Nat) (r : Req) : (s.setReq n r).chans = s.chans := rfl
@[simp] theorem State.setReq_insts (s : State) (n : Nat) (r : Req) : (s.setReq n r).insts = s.insts := rfl
@[simp] theorem State.setReq_nextInst (s : State) (n : Nat) (r : Req) : (s.setReq n r).nextInst = s.nextInst := rfl
@[simp] theorem State.setReq_peers (s : State) (n : Nat) (r : Req) : (s.setReq n r).peers = s.peers := rfl
@[simp] theorem State.setReq_peerOut (s : State) (n : Nat) (r : Req) : (s.setReq n r).peerOut = s.peerOut := rfl
@[simp] theorem State.setReq_hostAcks (s : State) (n : Nat) (r : Req) : (s.setReq n r).hostAcks = s.hostAcks := rfl
@[simp] theorem State.setReq_sessions (s : State) (n : Nat) (r : Req) : (s.setReq n r).sessions = s.sessions := rfl
@[simp] theorem State.setReq_qpDown (s : State) (n : Nat) (r : Req) : (s.setReq n r).qpDown = s.qpDown := rfl
@[simp] theorem State.setReq_naks (s : State) (n : Nat) (r : Req) : (s.setReq n r).naks = s.naks := rfl
@[simp] theorem State.setReq_queues (s : State) (n : Nat) (r : Req) : (s.setReq n r).queues = s.queues := rfl
@[simp] theorem State.setReq_links (s : State) (n : Nat) (r : Req) : (s.setReq n r).links = s.links := rfl
@[simp] theorem State.setReq_cmds (s : State) (n : Nat) (r : Req) : (s.setReq n r).cmds = s.cmds := rfl
@[simp] theorem State.setReq_patchMsgs (s : State) (n : Nat) (r : Req) : (s.setReq n r).patchMsgs = s.patchMsgs := rfl
@[simp] theorem State.setReq_lastQueue (s : State) (n : Nat) (r : Req) : (s.setReq n r).lastQueue = s.lastQueue := rfl
@[simp] theorem State.setReq_parkIds (s : State) (n : Nat) (r : Req) : (s.setReq n r).parkIds = s.parkIds := rfl
@[simp] theorem State.setReq_log (s : State) (n : Nat) (r : Req) : (s.setReq n r).log = s.log := rfl
@[simp] theorem State.setReq_logSeq (s : State) (n : Nat) (r : Req) : (s.setReq n r).logSeq = s.logSeq := rfl
@[simp] theorem State.setReq_logRead (s : State) (n : Nat) (r : Req) : (s.setReq n r).logRead = s.logRead := rfl
@[simp] theorem State.setReq_logLost (s : State) (n : Nat) (r : Req) : (s.setReq n r).logLost = s.logLost := rfl
@[simp] theorem State.setReq_sent (s : State) (n : Nat) (r : Req) : (s.setReq n r).sent = s.sent := rfl
@[simp] theorem State.setReq_nextId (s : State) (n : Nat) (r : Req) : (s.setReq n r).nextId = s.nextId := rfl
@[simp] theorem State.setReq_sched (s : State) (n : Nat) (r : Req) : (s.setReq n r).sched = s.sched := rfl
@[simp] theorem State.setReq_choices (s : State) (n : Nat) (r : Req) : (s.setReq n r).choices = s.choices := rfl
@[simp] theorem State.setReq_focus (s : State) (n : Nat) (r : Req) : (s.setReq n r).focus = s.focus := rfl
@[simp] theorem State.setReq_free (s : State) (n : Nat) (r : Req) : (s.setReq n r).free = s.free := rfl
/-! setArc -/
@[simp] theorem State.setArc_part (s : State) (p : Nat) (id n : BitVec 8) : (s.setArc p id n).part = s.part := rfl
@[simp] theorem State.setArc_powered (s : State) (p : Nat) (id n : BitVec 8) : (s.setArc p id n).powered = s.powered := rfl
@[simp] theorem State.setArc_halted (s : State) (p : Nat) (id n : BitVec 8) : (s.setArc p id n).halted = s.halted := rfl
@[simp] theorem State.setArc_clock (s : State) (p : Nat) (id n : BitVec 8) : (s.setArc p id n).clock = s.clock := rfl
@[simp] theorem State.setArc_mem (s : State) (p : Nat) (id n : BitVec 8) : (s.setArc p id n).mem = s.mem := rfl
@[simp] theorem State.setArc_slots (s : State) (p : Nat) (id n : BitVec 8) : (s.setArc p id n).slots = s.slots := rfl
@[simp] theorem State.setArc_reqs (s : State) (p : Nat) (id n : BitVec 8) : (s.setArc p id n).reqs = s.reqs := rfl
@[simp] theorem State.setArc_walks (s : State) (p : Nat) (id n : BitVec 8) : (s.setArc p id n).walks = s.walks := rfl
@[simp] theorem State.setArc_pnreqs (s : State) (p : Nat) (id n : BitVec 8) : (s.setArc p id n).pnreqs = s.pnreqs := rfl
@[simp] theorem State.setArc_outs (s : State) (p : Nat) (id n : BitVec 8) : (s.setArc p id n).outs = s.outs := rfl
@[simp] theorem State.setArc_packets (s : State) (p : Nat) (id n : BitVec 8) : (s.setArc p id n).packets = s.packets := rfl
@[simp] theorem State.setArc_frontiers (s : State) (p : Nat) (id n : BitVec 8) : (s.setArc p id n).frontiers = s.frontiers := rfl
@[simp] theorem State.setArc_asked (s : State) (p : Nat) (id n : BitVec 8) : (s.setArc p id n).asked = s.asked := rfl
@[simp] theorem State.setArc_tokens (s : State) (p : Nat) (id n : BitVec 8) : (s.setArc p id n).tokens = s.tokens := rfl
@[simp] theorem State.setArc_causal (s : State) (p : Nat) (id n : BitVec 8) : (s.setArc p id n).causal = s.causal := rfl
@[simp] theorem State.setArc_removed (s : State) (p : Nat) (id n : BitVec 8) : (s.setArc p id n).removed = s.removed := rfl
@[simp] theorem State.setArc_rebase (s : State) (p : Nat) (id n : BitVec 8) : (s.setArc p id n).rebase = s.rebase := rfl
@[simp] theorem State.setArc_rebasing (s : State) (p : Nat) (id n : BitVec 8) : (s.setArc p id n).rebasing = s.rebasing := rfl
@[simp] theorem State.setArc_rebaseAt (s : State) (p : Nat) (id n : BitVec 8) : (s.setArc p id n).rebaseAt = s.rebaseAt := rfl
@[simp] theorem State.setArc_lastDelivery (s : State) (p : Nat) (id n : BitVec 8) : (s.setArc p id n).lastDelivery = s.lastDelivery := rfl
@[simp] theorem State.setArc_partitions (s : State) (p : Nat) (id n : BitVec 8) : (s.setArc p id n).partitions = s.partitions := rfl
@[simp] theorem State.setArc_pendingParts (s : State) (p : Nat) (id n : BitVec 8) : (s.setArc p id n).pendingParts = s.pendingParts := rfl
@[simp] theorem State.setArc_dies (s : State) (p : Nat) (id n : BitVec 8) : (s.setArc p id n).dies = s.dies := rfl
@[simp] theorem State.setArc_optics (s : State) (p : Nat) (id n : BitVec 8) : (s.setArc p id n).optics = s.optics := rfl
@[simp] theorem State.setArc_recovery (s : State) (p : Nat) (id n : BitVec 8) : (s.setArc p id n).recovery = s.recovery := rfl
@[simp] theorem State.setArc_transients (s : State) (p : Nat) (id n : BitVec 8) : (s.setArc p id n).transients = s.transients := rfl
@[simp] theorem State.setArc_bunting (s : State) (p : Nat) (id n : BitVec 8) : (s.setArc p id n).bunting = s.bunting := rfl
@[simp] theorem State.setArc_pennants (s : State) (p : Nat) (id n : BitVec 8) : (s.setArc p id n).pennants = s.pennants := rfl
@[simp] theorem State.setArc_words (s : State) (p : Nat) (id n : BitVec 8) : (s.setArc p id n).words = s.words := rfl
@[simp] theorem State.setArc_ports (s : State) (p : Nat) (id n : BitVec 8) : (s.setArc p id n).ports = s.ports := rfl
@[simp] theorem State.setArc_regions (s : State) (p : Nat) (id n : BitVec 8) : (s.setArc p id n).regions = s.regions := rfl
@[simp] theorem State.setArc_chans (s : State) (p : Nat) (id n : BitVec 8) : (s.setArc p id n).chans = s.chans := rfl
@[simp] theorem State.setArc_insts (s : State) (p : Nat) (id n : BitVec 8) : (s.setArc p id n).insts = s.insts := rfl
@[simp] theorem State.setArc_nextInst (s : State) (p : Nat) (id n : BitVec 8) : (s.setArc p id n).nextInst = s.nextInst := rfl
@[simp] theorem State.setArc_peers (s : State) (p : Nat) (id n : BitVec 8) : (s.setArc p id n).peers = s.peers := rfl
@[simp] theorem State.setArc_peerOut (s : State) (p : Nat) (id n : BitVec 8) : (s.setArc p id n).peerOut = s.peerOut := rfl
@[simp] theorem State.setArc_hostAcks (s : State) (p : Nat) (id n : BitVec 8) : (s.setArc p id n).hostAcks = s.hostAcks := rfl
@[simp] theorem State.setArc_sessions (s : State) (p : Nat) (id n : BitVec 8) : (s.setArc p id n).sessions = s.sessions := rfl
@[simp] theorem State.setArc_qpDown (s : State) (p : Nat) (id n : BitVec 8) : (s.setArc p id n).qpDown = s.qpDown := rfl
@[simp] theorem State.setArc_naks (s : State) (p : Nat) (id n : BitVec 8) : (s.setArc p id n).naks = s.naks := rfl
@[simp] theorem State.setArc_queues (s : State) (p : Nat) (id n : BitVec 8) : (s.setArc p id n).queues = s.queues := rfl
@[simp] theorem State.setArc_links (s : State) (p : Nat) (id n : BitVec 8) : (s.setArc p id n).links = s.links := rfl
@[simp] theorem State.setArc_cmds (s : State) (p : Nat) (id n : BitVec 8) : (s.setArc p id n).cmds = s.cmds := rfl
@[simp] theorem State.setArc_patchMsgs (s : State) (p : Nat) (id n : BitVec 8) : (s.setArc p id n).patchMsgs = s.patchMsgs := rfl
@[simp] theorem State.setArc_lastQueue (s : State) (p : Nat) (id n : BitVec 8) : (s.setArc p id n).lastQueue = s.lastQueue := rfl
@[simp] theorem State.setArc_parkIds (s : State) (p : Nat) (id n : BitVec 8) : (s.setArc p id n).parkIds = s.parkIds := rfl
@[simp] theorem State.setArc_log (s : State) (p : Nat) (id n : BitVec 8) : (s.setArc p id n).log = s.log := rfl
@[simp] theorem State.setArc_logSeq (s : State) (p : Nat) (id n : BitVec 8) : (s.setArc p id n).logSeq = s.logSeq := rfl
@[simp] theorem State.setArc_logRead (s : State) (p : Nat) (id n : BitVec 8) : (s.setArc p id n).logRead = s.logRead := rfl
@[simp] theorem State.setArc_logLost (s : State) (p : Nat) (id n : BitVec 8) : (s.setArc p id n).logLost = s.logLost := rfl
@[simp] theorem State.setArc_sent (s : State) (p : Nat) (id n : BitVec 8) : (s.setArc p id n).sent = s.sent := rfl
@[simp] theorem State.setArc_nextId (s : State) (p : Nat) (id n : BitVec 8) : (s.setArc p id n).nextId = s.nextId := rfl
@[simp] theorem State.setArc_sched (s : State) (p : Nat) (id n : BitVec 8) : (s.setArc p id n).sched = s.sched := rfl
@[simp] theorem State.setArc_choices (s : State) (p : Nat) (id n : BitVec 8) : (s.setArc p id n).choices = s.choices := rfl
@[simp] theorem State.setArc_focus (s : State) (p : Nat) (id n : BitVec 8) : (s.setArc p id n).focus = s.focus := rfl
@[simp] theorem State.setArc_free (s : State) (p : Nat) (id n : BitVec 8) : (s.setArc p id n).free = s.free := rfl
/-! pendTrap -/
@[simp] theorem State.pendTrap_part (s : State) (p k : Nat) (c : PendKind) (t : Trap) : (s.pendTrap p k c t).part = s.part := rfl
@[simp] theorem State.pendTrap_powered (s : State) (p k : Nat) (c : PendKind) (t : Trap) : (s.pendTrap p k c t).powered = s.powered := rfl
@[simp] theorem State.pendTrap_halted (s : State) (p k : Nat) (c : PendKind) (t : Trap) : (s.pendTrap p k c t).halted = s.halted := rfl
@[simp] theorem State.pendTrap_clock (s : State) (p k : Nat) (c : PendKind) (t : Trap) : (s.pendTrap p k c t).clock = s.clock := rfl
@[simp] theorem State.pendTrap_mem (s : State) (p k : Nat) (c : PendKind) (t : Trap) : (s.pendTrap p k c t).mem = s.mem := rfl
@[simp] theorem State.pendTrap_plots (s : State) (p k : Nat) (c : PendKind) (t : Trap) : (s.pendTrap p k c t).plots = s.plots := rfl
@[simp] theorem State.pendTrap_reqs (s : State) (p k : Nat) (c : PendKind) (t : Trap) : (s.pendTrap p k c t).reqs = s.reqs := rfl
@[simp] theorem State.pendTrap_walks (s : State) (p k : Nat) (c : PendKind) (t : Trap) : (s.pendTrap p k c t).walks = s.walks := rfl
@[simp] theorem State.pendTrap_pnreqs (s : State) (p k : Nat) (c : PendKind) (t : Trap) : (s.pendTrap p k c t).pnreqs = s.pnreqs := rfl
@[simp] theorem State.pendTrap_outs (s : State) (p k : Nat) (c : PendKind) (t : Trap) : (s.pendTrap p k c t).outs = s.outs := rfl
@[simp] theorem State.pendTrap_packets (s : State) (p k : Nat) (c : PendKind) (t : Trap) : (s.pendTrap p k c t).packets = s.packets := rfl
@[simp] theorem State.pendTrap_frontiers (s : State) (p k : Nat) (c : PendKind) (t : Trap) : (s.pendTrap p k c t).frontiers = s.frontiers := rfl
@[simp] theorem State.pendTrap_asked (s : State) (p k : Nat) (c : PendKind) (t : Trap) : (s.pendTrap p k c t).asked = s.asked := rfl
@[simp] theorem State.pendTrap_tokens (s : State) (p k : Nat) (c : PendKind) (t : Trap) : (s.pendTrap p k c t).tokens = s.tokens := rfl
@[simp] theorem State.pendTrap_causal (s : State) (p k : Nat) (c : PendKind) (t : Trap) : (s.pendTrap p k c t).causal = s.causal := rfl
@[simp] theorem State.pendTrap_removed (s : State) (p k : Nat) (c : PendKind) (t : Trap) : (s.pendTrap p k c t).removed = s.removed := rfl
@[simp] theorem State.pendTrap_rebase (s : State) (p k : Nat) (c : PendKind) (t : Trap) : (s.pendTrap p k c t).rebase = s.rebase := rfl
@[simp] theorem State.pendTrap_rebasing (s : State) (p k : Nat) (c : PendKind) (t : Trap) : (s.pendTrap p k c t).rebasing = s.rebasing := rfl
@[simp] theorem State.pendTrap_rebaseAt (s : State) (p k : Nat) (c : PendKind) (t : Trap) : (s.pendTrap p k c t).rebaseAt = s.rebaseAt := rfl
@[simp] theorem State.pendTrap_lastDelivery (s : State) (p k : Nat) (c : PendKind) (t : Trap) : (s.pendTrap p k c t).lastDelivery = s.lastDelivery := rfl
@[simp] theorem State.pendTrap_partitions (s : State) (p k : Nat) (c : PendKind) (t : Trap) : (s.pendTrap p k c t).partitions = s.partitions := rfl
@[simp] theorem State.pendTrap_pendingParts (s : State) (p k : Nat) (c : PendKind) (t : Trap) : (s.pendTrap p k c t).pendingParts = s.pendingParts := rfl
@[simp] theorem State.pendTrap_dies (s : State) (p k : Nat) (c : PendKind) (t : Trap) : (s.pendTrap p k c t).dies = s.dies := rfl
@[simp] theorem State.pendTrap_optics (s : State) (p k : Nat) (c : PendKind) (t : Trap) : (s.pendTrap p k c t).optics = s.optics := rfl
@[simp] theorem State.pendTrap_recovery (s : State) (p k : Nat) (c : PendKind) (t : Trap) : (s.pendTrap p k c t).recovery = s.recovery := rfl
@[simp] theorem State.pendTrap_transients (s : State) (p k : Nat) (c : PendKind) (t : Trap) : (s.pendTrap p k c t).transients = s.transients := rfl
@[simp] theorem State.pendTrap_bunting (s : State) (p k : Nat) (c : PendKind) (t : Trap) : (s.pendTrap p k c t).bunting = s.bunting := rfl
@[simp] theorem State.pendTrap_pennants (s : State) (p k : Nat) (c : PendKind) (t : Trap) : (s.pendTrap p k c t).pennants = s.pennants := rfl
@[simp] theorem State.pendTrap_words (s : State) (p k : Nat) (c : PendKind) (t : Trap) : (s.pendTrap p k c t).words = s.words := rfl
@[simp] theorem State.pendTrap_ports (s : State) (p k : Nat) (c : PendKind) (t : Trap) : (s.pendTrap p k c t).ports = s.ports := rfl
@[simp] theorem State.pendTrap_regions (s : State) (p k : Nat) (c : PendKind) (t : Trap) : (s.pendTrap p k c t).regions = s.regions := rfl
@[simp] theorem State.pendTrap_chans (s : State) (p k : Nat) (c : PendKind) (t : Trap) : (s.pendTrap p k c t).chans = s.chans := rfl
@[simp] theorem State.pendTrap_insts (s : State) (p k : Nat) (c : PendKind) (t : Trap) : (s.pendTrap p k c t).insts = s.insts := rfl
@[simp] theorem State.pendTrap_nextInst (s : State) (p k : Nat) (c : PendKind) (t : Trap) : (s.pendTrap p k c t).nextInst = s.nextInst := rfl
@[simp] theorem State.pendTrap_peers (s : State) (p k : Nat) (c : PendKind) (t : Trap) : (s.pendTrap p k c t).peers = s.peers := rfl
@[simp] theorem State.pendTrap_peerOut (s : State) (p k : Nat) (c : PendKind) (t : Trap) : (s.pendTrap p k c t).peerOut = s.peerOut := rfl
@[simp] theorem State.pendTrap_hostAcks (s : State) (p k : Nat) (c : PendKind) (t : Trap) : (s.pendTrap p k c t).hostAcks = s.hostAcks := rfl
@[simp] theorem State.pendTrap_sessions (s : State) (p k : Nat) (c : PendKind) (t : Trap) : (s.pendTrap p k c t).sessions = s.sessions := rfl
@[simp] theorem State.pendTrap_qpDown (s : State) (p k : Nat) (c : PendKind) (t : Trap) : (s.pendTrap p k c t).qpDown = s.qpDown := rfl
@[simp] theorem State.pendTrap_naks (s : State) (p k : Nat) (c : PendKind) (t : Trap) : (s.pendTrap p k c t).naks = s.naks := rfl
@[simp] theorem State.pendTrap_queues (s : State) (p k : Nat) (c : PendKind) (t : Trap) : (s.pendTrap p k c t).queues = s.queues := rfl
@[simp] theorem State.pendTrap_links (s : State) (p k : Nat) (c : PendKind) (t : Trap) : (s.pendTrap p k c t).links = s.links := rfl
@[simp] theorem State.pendTrap_cmds (s : State) (p k : Nat) (c : PendKind) (t : Trap) : (s.pendTrap p k c t).cmds = s.cmds := rfl
@[simp] theorem State.pendTrap_patchMsgs (s : State) (p k : Nat) (c : PendKind) (t : Trap) : (s.pendTrap p k c t).patchMsgs = s.patchMsgs := rfl
@[simp] theorem State.pendTrap_lastQueue (s : State) (p k : Nat) (c : PendKind) (t : Trap) : (s.pendTrap p k c t).lastQueue = s.lastQueue := rfl
@[simp] theorem State.pendTrap_parkIds (s : State) (p k : Nat) (c : PendKind) (t : Trap) : (s.pendTrap p k c t).parkIds = s.parkIds := rfl
@[simp] theorem State.pendTrap_log (s : State) (p k : Nat) (c : PendKind) (t : Trap) : (s.pendTrap p k c t).log = s.log := rfl
@[simp] theorem State.pendTrap_logSeq (s : State) (p k : Nat) (c : PendKind) (t : Trap) : (s.pendTrap p k c t).logSeq = s.logSeq := rfl
@[simp] theorem State.pendTrap_logRead (s : State) (p k : Nat) (c : PendKind) (t : Trap) : (s.pendTrap p k c t).logRead = s.logRead := rfl
@[simp] theorem State.pendTrap_logLost (s : State) (p k : Nat) (c : PendKind) (t : Trap) : (s.pendTrap p k c t).logLost = s.logLost := rfl
@[simp] theorem State.pendTrap_sent (s : State) (p k : Nat) (c : PendKind) (t : Trap) : (s.pendTrap p k c t).sent = s.sent := rfl
@[simp] theorem State.pendTrap_nextId (s : State) (p k : Nat) (c : PendKind) (t : Trap) : (s.pendTrap p k c t).nextId = s.nextId := rfl
@[simp] theorem State.pendTrap_sched (s : State) (p k : Nat) (c : PendKind) (t : Trap) : (s.pendTrap p k c t).sched = s.sched := rfl
@[simp] theorem State.pendTrap_choices (s : State) (p k : Nat) (c : PendKind) (t : Trap) : (s.pendTrap p k c t).choices = s.choices := rfl
@[simp] theorem State.pendTrap_focus (s : State) (p k : Nat) (c : PendKind) (t : Trap) : (s.pendTrap p k c t).focus = s.focus := rfl
@[simp] theorem State.pendTrap_free (s : State) (p k : Nat) (c : PendKind) (t : Trap) : (s.pendTrap p k c t).free = s.free := rfl
/-! post -/
@[simp] theorem State.post_part (s : State) (p k d : Nat) (w : List Nat) (y : Payload) : (s.post p k d w y).part = s.part := rfl
@[simp] theorem State.post_powered (s : State) (p k d : Nat) (w : List Nat) (y : Payload) : (s.post p k d w y).powered = s.powered := rfl
@[simp] theorem State.post_halted (s : State) (p k d : Nat) (w : List Nat) (y : Payload) : (s.post p k d w y).halted = s.halted := rfl
@[simp] theorem State.post_clock (s : State) (p k d : Nat) (w : List Nat) (y : Payload) : (s.post p k d w y).clock = s.clock := rfl
@[simp] theorem State.post_mem (s : State) (p k d : Nat) (w : List Nat) (y : Payload) : (s.post p k d w y).mem = s.mem := rfl
@[simp] theorem State.post_slots (s : State) (p k d : Nat) (w : List Nat) (y : Payload) : (s.post p k d w y).slots = s.slots := rfl
@[simp] theorem State.post_plots (s : State) (p k d : Nat) (w : List Nat) (y : Payload) : (s.post p k d w y).plots = s.plots := rfl
@[simp] theorem State.post_reqs (s : State) (p k d : Nat) (w : List Nat) (y : Payload) : (s.post p k d w y).reqs = s.reqs := rfl
@[simp] theorem State.post_walks (s : State) (p k d : Nat) (w : List Nat) (y : Payload) : (s.post p k d w y).walks = s.walks := rfl
@[simp] theorem State.post_pnreqs (s : State) (p k d : Nat) (w : List Nat) (y : Payload) : (s.post p k d w y).pnreqs = s.pnreqs := rfl
@[simp] theorem State.post_packets (s : State) (p k d : Nat) (w : List Nat) (y : Payload) : (s.post p k d w y).packets = s.packets := rfl
@[simp] theorem State.post_frontiers (s : State) (p k d : Nat) (w : List Nat) (y : Payload) : (s.post p k d w y).frontiers = s.frontiers := rfl
@[simp] theorem State.post_asked (s : State) (p k d : Nat) (w : List Nat) (y : Payload) : (s.post p k d w y).asked = s.asked := rfl
@[simp] theorem State.post_tokens (s : State) (p k d : Nat) (w : List Nat) (y : Payload) : (s.post p k d w y).tokens = s.tokens := rfl
@[simp] theorem State.post_causal (s : State) (p k d : Nat) (w : List Nat) (y : Payload) : (s.post p k d w y).causal = s.causal := rfl
@[simp] theorem State.post_removed (s : State) (p k d : Nat) (w : List Nat) (y : Payload) : (s.post p k d w y).removed = s.removed := rfl
@[simp] theorem State.post_rebase (s : State) (p k d : Nat) (w : List Nat) (y : Payload) : (s.post p k d w y).rebase = s.rebase := rfl
@[simp] theorem State.post_rebasing (s : State) (p k d : Nat) (w : List Nat) (y : Payload) : (s.post p k d w y).rebasing = s.rebasing := rfl
@[simp] theorem State.post_rebaseAt (s : State) (p k d : Nat) (w : List Nat) (y : Payload) : (s.post p k d w y).rebaseAt = s.rebaseAt := rfl
@[simp] theorem State.post_lastDelivery (s : State) (p k d : Nat) (w : List Nat) (y : Payload) : (s.post p k d w y).lastDelivery = s.lastDelivery := rfl
@[simp] theorem State.post_partitions (s : State) (p k d : Nat) (w : List Nat) (y : Payload) : (s.post p k d w y).partitions = s.partitions := rfl
@[simp] theorem State.post_pendingParts (s : State) (p k d : Nat) (w : List Nat) (y : Payload) : (s.post p k d w y).pendingParts = s.pendingParts := rfl
@[simp] theorem State.post_dies (s : State) (p k d : Nat) (w : List Nat) (y : Payload) : (s.post p k d w y).dies = s.dies := rfl
@[simp] theorem State.post_optics (s : State) (p k d : Nat) (w : List Nat) (y : Payload) : (s.post p k d w y).optics = s.optics := rfl
@[simp] theorem State.post_recovery (s : State) (p k d : Nat) (w : List Nat) (y : Payload) : (s.post p k d w y).recovery = s.recovery := rfl
@[simp] theorem State.post_transients (s : State) (p k d : Nat) (w : List Nat) (y : Payload) : (s.post p k d w y).transients = s.transients := rfl
@[simp] theorem State.post_bunting (s : State) (p k d : Nat) (w : List Nat) (y : Payload) : (s.post p k d w y).bunting = s.bunting := rfl
@[simp] theorem State.post_pennants (s : State) (p k d : Nat) (w : List Nat) (y : Payload) : (s.post p k d w y).pennants = s.pennants := rfl
@[simp] theorem State.post_words (s : State) (p k d : Nat) (w : List Nat) (y : Payload) : (s.post p k d w y).words = s.words := rfl
@[simp] theorem State.post_ports (s : State) (p k d : Nat) (w : List Nat) (y : Payload) : (s.post p k d w y).ports = s.ports := rfl
@[simp] theorem State.post_regions (s : State) (p k d : Nat) (w : List Nat) (y : Payload) : (s.post p k d w y).regions = s.regions := rfl
@[simp] theorem State.post_chans (s : State) (p k d : Nat) (w : List Nat) (y : Payload) : (s.post p k d w y).chans = s.chans := rfl
@[simp] theorem State.post_insts (s : State) (p k d : Nat) (w : List Nat) (y : Payload) : (s.post p k d w y).insts = s.insts := rfl
@[simp] theorem State.post_nextInst (s : State) (p k d : Nat) (w : List Nat) (y : Payload) : (s.post p k d w y).nextInst = s.nextInst := rfl
@[simp] theorem State.post_peers (s : State) (p k d : Nat) (w : List Nat) (y : Payload) : (s.post p k d w y).peers = s.peers := rfl
@[simp] theorem State.post_peerOut (s : State) (p k d : Nat) (w : List Nat) (y : Payload) : (s.post p k d w y).peerOut = s.peerOut := rfl
@[simp] theorem State.post_hostAcks (s : State) (p k d : Nat) (w : List Nat) (y : Payload) : (s.post p k d w y).hostAcks = s.hostAcks := rfl
@[simp] theorem State.post_sessions (s : State) (p k d : Nat) (w : List Nat) (y : Payload) : (s.post p k d w y).sessions = s.sessions := rfl
@[simp] theorem State.post_qpDown (s : State) (p k d : Nat) (w : List Nat) (y : Payload) : (s.post p k d w y).qpDown = s.qpDown := rfl
@[simp] theorem State.post_naks (s : State) (p k d : Nat) (w : List Nat) (y : Payload) : (s.post p k d w y).naks = s.naks := rfl
@[simp] theorem State.post_queues (s : State) (p k d : Nat) (w : List Nat) (y : Payload) : (s.post p k d w y).queues = s.queues := rfl
@[simp] theorem State.post_links (s : State) (p k d : Nat) (w : List Nat) (y : Payload) : (s.post p k d w y).links = s.links := rfl
@[simp] theorem State.post_cmds (s : State) (p k d : Nat) (w : List Nat) (y : Payload) : (s.post p k d w y).cmds = s.cmds := rfl
@[simp] theorem State.post_patchMsgs (s : State) (p k d : Nat) (w : List Nat) (y : Payload) : (s.post p k d w y).patchMsgs = s.patchMsgs := rfl
@[simp] theorem State.post_lastQueue (s : State) (p k d : Nat) (w : List Nat) (y : Payload) : (s.post p k d w y).lastQueue = s.lastQueue := rfl
@[simp] theorem State.post_parkIds (s : State) (p k d : Nat) (w : List Nat) (y : Payload) : (s.post p k d w y).parkIds = s.parkIds := rfl
@[simp] theorem State.post_log (s : State) (p k d : Nat) (w : List Nat) (y : Payload) : (s.post p k d w y).log = s.log := rfl
@[simp] theorem State.post_logSeq (s : State) (p k d : Nat) (w : List Nat) (y : Payload) : (s.post p k d w y).logSeq = s.logSeq := rfl
@[simp] theorem State.post_logRead (s : State) (p k d : Nat) (w : List Nat) (y : Payload) : (s.post p k d w y).logRead = s.logRead := rfl
@[simp] theorem State.post_logLost (s : State) (p k d : Nat) (w : List Nat) (y : Payload) : (s.post p k d w y).logLost = s.logLost := rfl
@[simp] theorem State.post_sent (s : State) (p k d : Nat) (w : List Nat) (y : Payload) : (s.post p k d w y).sent = s.sent := rfl
@[simp] theorem State.post_sched (s : State) (p k d : Nat) (w : List Nat) (y : Payload) : (s.post p k d w y).sched = s.sched := rfl
@[simp] theorem State.post_choices (s : State) (p k d : Nat) (w : List Nat) (y : Payload) : (s.post p k d w y).choices = s.choices := rfl
@[simp] theorem State.post_focus (s : State) (p k d : Nat) (w : List Nat) (y : Payload) : (s.post p k d w y).focus = s.focus := rfl
@[simp] theorem State.post_free (s : State) (p k d : Nat) (w : List Nat) (y : Payload) : (s.post p k d w y).free = s.free := rfl
/-! dropToken -/
@[simp] theorem State.dropToken_part (s : State) (n : Nat) : (s.dropToken n).part = s.part := rfl
@[simp] theorem State.dropToken_powered (s : State) (n : Nat) : (s.dropToken n).powered = s.powered := rfl
@[simp] theorem State.dropToken_halted (s : State) (n : Nat) : (s.dropToken n).halted = s.halted := rfl
@[simp] theorem State.dropToken_clock (s : State) (n : Nat) : (s.dropToken n).clock = s.clock := rfl
@[simp] theorem State.dropToken_mem (s : State) (n : Nat) : (s.dropToken n).mem = s.mem := rfl
@[simp] theorem State.dropToken_slots (s : State) (n : Nat) : (s.dropToken n).slots = s.slots := rfl
@[simp] theorem State.dropToken_plots (s : State) (n : Nat) : (s.dropToken n).plots = s.plots := rfl
@[simp] theorem State.dropToken_reqs (s : State) (n : Nat) : (s.dropToken n).reqs = s.reqs := rfl
@[simp] theorem State.dropToken_walks (s : State) (n : Nat) : (s.dropToken n).walks = s.walks := rfl
@[simp] theorem State.dropToken_pnreqs (s : State) (n : Nat) : (s.dropToken n).pnreqs = s.pnreqs := rfl
@[simp] theorem State.dropToken_outs (s : State) (n : Nat) : (s.dropToken n).outs = s.outs := rfl
@[simp] theorem State.dropToken_packets (s : State) (n : Nat) : (s.dropToken n).packets = s.packets := rfl
@[simp] theorem State.dropToken_frontiers (s : State) (n : Nat) : (s.dropToken n).frontiers = s.frontiers := rfl
@[simp] theorem State.dropToken_asked (s : State) (n : Nat) : (s.dropToken n).asked = s.asked := rfl
@[simp] theorem State.dropToken_causal (s : State) (n : Nat) : (s.dropToken n).causal = s.causal := rfl
@[simp] theorem State.dropToken_removed (s : State) (n : Nat) : (s.dropToken n).removed = s.removed := rfl
@[simp] theorem State.dropToken_rebase (s : State) (n : Nat) : (s.dropToken n).rebase = s.rebase := rfl
@[simp] theorem State.dropToken_rebasing (s : State) (n : Nat) : (s.dropToken n).rebasing = s.rebasing := rfl
@[simp] theorem State.dropToken_rebaseAt (s : State) (n : Nat) : (s.dropToken n).rebaseAt = s.rebaseAt := rfl
@[simp] theorem State.dropToken_lastDelivery (s : State) (n : Nat) : (s.dropToken n).lastDelivery = s.lastDelivery := rfl
@[simp] theorem State.dropToken_partitions (s : State) (n : Nat) : (s.dropToken n).partitions = s.partitions := rfl
@[simp] theorem State.dropToken_pendingParts (s : State) (n : Nat) : (s.dropToken n).pendingParts = s.pendingParts := rfl
@[simp] theorem State.dropToken_dies (s : State) (n : Nat) : (s.dropToken n).dies = s.dies := rfl
@[simp] theorem State.dropToken_optics (s : State) (n : Nat) : (s.dropToken n).optics = s.optics := rfl
@[simp] theorem State.dropToken_recovery (s : State) (n : Nat) : (s.dropToken n).recovery = s.recovery := rfl
@[simp] theorem State.dropToken_transients (s : State) (n : Nat) : (s.dropToken n).transients = s.transients := rfl
@[simp] theorem State.dropToken_bunting (s : State) (n : Nat) : (s.dropToken n).bunting = s.bunting := rfl
@[simp] theorem State.dropToken_pennants (s : State) (n : Nat) : (s.dropToken n).pennants = s.pennants := rfl
@[simp] theorem State.dropToken_words (s : State) (n : Nat) : (s.dropToken n).words = s.words := rfl
@[simp] theorem State.dropToken_ports (s : State) (n : Nat) : (s.dropToken n).ports = s.ports := rfl
@[simp] theorem State.dropToken_regions (s : State) (n : Nat) : (s.dropToken n).regions = s.regions := rfl
@[simp] theorem State.dropToken_chans (s : State) (n : Nat) : (s.dropToken n).chans = s.chans := rfl
@[simp] theorem State.dropToken_insts (s : State) (n : Nat) : (s.dropToken n).insts = s.insts := rfl
@[simp] theorem State.dropToken_nextInst (s : State) (n : Nat) : (s.dropToken n).nextInst = s.nextInst := rfl
@[simp] theorem State.dropToken_peers (s : State) (n : Nat) : (s.dropToken n).peers = s.peers := rfl
@[simp] theorem State.dropToken_peerOut (s : State) (n : Nat) : (s.dropToken n).peerOut = s.peerOut := rfl
@[simp] theorem State.dropToken_hostAcks (s : State) (n : Nat) : (s.dropToken n).hostAcks = s.hostAcks := rfl
@[simp] theorem State.dropToken_sessions (s : State) (n : Nat) : (s.dropToken n).sessions = s.sessions := rfl
@[simp] theorem State.dropToken_qpDown (s : State) (n : Nat) : (s.dropToken n).qpDown = s.qpDown := rfl
@[simp] theorem State.dropToken_naks (s : State) (n : Nat) : (s.dropToken n).naks = s.naks := rfl
@[simp] theorem State.dropToken_queues (s : State) (n : Nat) : (s.dropToken n).queues = s.queues := rfl
@[simp] theorem State.dropToken_links (s : State) (n : Nat) : (s.dropToken n).links = s.links := rfl
@[simp] theorem State.dropToken_cmds (s : State) (n : Nat) : (s.dropToken n).cmds = s.cmds := rfl
@[simp] theorem State.dropToken_patchMsgs (s : State) (n : Nat) : (s.dropToken n).patchMsgs = s.patchMsgs := rfl
@[simp] theorem State.dropToken_lastQueue (s : State) (n : Nat) : (s.dropToken n).lastQueue = s.lastQueue := rfl
@[simp] theorem State.dropToken_parkIds (s : State) (n : Nat) : (s.dropToken n).parkIds = s.parkIds := rfl
@[simp] theorem State.dropToken_log (s : State) (n : Nat) : (s.dropToken n).log = s.log := rfl
@[simp] theorem State.dropToken_logSeq (s : State) (n : Nat) : (s.dropToken n).logSeq = s.logSeq := rfl
@[simp] theorem State.dropToken_logRead (s : State) (n : Nat) : (s.dropToken n).logRead = s.logRead := rfl
@[simp] theorem State.dropToken_logLost (s : State) (n : Nat) : (s.dropToken n).logLost = s.logLost := rfl
@[simp] theorem State.dropToken_sent (s : State) (n : Nat) : (s.dropToken n).sent = s.sent := rfl
@[simp] theorem State.dropToken_nextId (s : State) (n : Nat) : (s.dropToken n).nextId = s.nextId := rfl
@[simp] theorem State.dropToken_sched (s : State) (n : Nat) : (s.dropToken n).sched = s.sched := rfl
@[simp] theorem State.dropToken_choices (s : State) (n : Nat) : (s.dropToken n).choices = s.choices := rfl
@[simp] theorem State.dropToken_focus (s : State) (n : Nat) : (s.dropToken n).focus = s.focus := rfl
@[simp] theorem State.dropToken_free (s : State) (n : Nat) : (s.dropToken n).free = s.free := rfl

/-! ## What is read back -/

@[simp] theorem State.slotAt_setSlot (s : State) (p k : Nat) (x : Slot) : (s.setSlot p k x).slotAt p k = x := by
  simp [State.slotAt, State.setSlot]
@[simp] theorem State.slotAt_modSlot (s : State) (p k : Nat) (f : Slot → Slot) : (s.modSlot p k f).slotAt p k = f (s.slotAt p k) := by
  simp [State.modSlot]
theorem State.slotAt_setSlot_ne (s : State) {p k p' k' : Nat} (x : Slot) (h : 8 * p' + k' ≠ 8 * p + k) :
    (s.setSlot p k x).slotAt p' k' = s.slotAt p' k' := by
  simp [State.slotAt, State.setSlot, tget_tset, h]
theorem State.slotAt_modSlot_ne (s : State) {p k p' k' : Nat} (f : Slot → Slot) (h : 8 * p' + k' ≠ 8 * p + k) :
    (s.modSlot p k f).slotAt p' k' = s.slotAt p' k' := State.slotAt_setSlot_ne s _ h
@[simp] theorem State.cur_setCur (s : State) (x : Slot) : (s.setCur x).cur = x := State.slotAt_setSlot s _ _ x
@[simp] theorem State.cur_modCur (s : State) (f : Slot → Slot) : (s.modCur f).cur = f s.cur := State.cur_setCur s _
@[simp] theorem State.plotAt_modPlot (s : State) (p : Nat) (f : Plot → Plot) : (s.modPlot p f).plotAt p = f (s.plotAt p) := by
  simp [State.plotAt, State.modPlot]
theorem State.plotAt_modPlot_ne (s : State) {p p' : Nat} (f : Plot → Plot) (h : p' ≠ p) : (s.modPlot p f).plotAt p' = s.plotAt p' := by
  simp [State.plotAt, State.modPlot, tget_tset, h]
@[simp] theorem State.dieAt_modDie (s : State) (d : Nat) (f : Die → Die) : (s.modDie d f).dieAt d = f (s.dieAt d) := by
  simp [State.dieAt, State.modDie]
@[simp] theorem State.portAt_modPort (s : State) (k : Nat) (f : Port → Port) : (s.modPort k f).portAt k = f (s.portAt k) := by
  simp [State.portAt, State.modPort]
@[simp] theorem State.causalAt_modCausal (s : State) (u : Nat) (f : Causal → Causal) : (s.modCausal u f).causalAt u = f (s.causalAt u) := by
  simp [State.causalAt, State.modCausal]
@[simp] theorem State.cur_modPlot (s : State) (p : Nat) (f : Plot → Plot) : (s.modPlot p f).cur = s.cur := rfl
@[simp] theorem State.cur_flushL1 (s : State) (p : Nat) : (s.flushL1 p).cur = s.cur := rfl
@[simp] theorem State.cur_mergeDv (s : State) (d : Nat) (l : List (BitVec 10)) : (s.mergeDv d l).cur = s.cur := rfl
@[simp] theorem State.plotAt_modCur (s : State) (f : Slot → Slot) (p : Nat) : (s.modCur f).plotAt p = s.plotAt p := rfl
@[simp] theorem State.plotAt_setCur (s : State) (x : Slot) (p : Nat) : (s.setCur x).plotAt p = s.plotAt p := rfl
@[simp] theorem State.plotAt_advance (s : State) (n p : Nat) : (s.advance n).plotAt p = s.plotAt p := rfl

end Sys2Proof.Machine
end

