-- ==== Sys2Proof/Laws/Ops.lean ====
section
/-! SUPPORT. What the shared operations can do, each said once: register reads and writes, trap entry, and the forms of instructions that
compute a register, act on the state, transfer control, access memory or compute on vectors. -/

namespace Sys2Proof.Machine

/-! ## Reads -/

theorem g31Count_eq_zero (srcs : List GReg) (h : (31 : GReg) ∉ srcs) : g31Count srcs = 0 := by
  rw [g31Count, List.countP_eq_zero]
  intro x hx
  simp only [beq_iff_eq]
  rintro rfl
  exact h hx
/-- Reading no g31 changes nothing. -/
theorem State.afterReads_of_not_mem (s : State) (srcs : List GReg) (h : (31 : GReg) ∉ srcs) : s.afterReads srcs = s := by
  simp [State.afterReads, g31Count_eq_zero srcs h]
@[simp] theorem State.afterReads_nil (s : State) : s.afterReads [] = s := s.afterReads_of_not_mem [] (by simp)
/-- Reading sources changes plots only. -/
theorem State.afterReads_eq (s : State) (srcs : List GReg) : s.afterReads srcs = { s with plots := (s.afterReads srcs).plots } := by
  unfold State.afterReads
  split
  · rfl
  · dsimp only
    split <;> rfl
@[simp] theorem State.afterReads_slots (s : State) (srcs : List GReg) : (s.afterReads srcs).slots = s.slots := by rw [State.afterReads_eq]
@[simp] theorem State.afterReads_focus (s : State) (srcs : List GReg) : (s.afterReads srcs).focus = s.focus := by rw [State.afterReads_eq]
@[simp] theorem State.afterReads_mem (s : State) (srcs : List GReg) : (s.afterReads srcs).mem = s.mem := by rw [State.afterReads_eq]
@[simp] theorem State.afterReads_reqs (s : State) (srcs : List GReg) : (s.afterReads srcs).reqs = s.reqs := by rw [State.afterReads_eq]
@[simp] theorem State.afterReads_outs (s : State) (srcs : List GReg) : (s.afterReads srcs).outs = s.outs := by rw [State.afterReads_eq]
@[simp] theorem State.afterReads_peerOut (s : State) (srcs : List GReg) : (s.afterReads srcs).peerOut = s.peerOut := by rw [State.afterReads_eq]
@[simp] theorem State.afterReads_nextId (s : State) (srcs : List GReg) : (s.afterReads srcs).nextId = s.nextId := by rw [State.afterReads_eq]
@[simp] theorem State.afterReads_cur (s : State) (srcs : List GReg) : (s.afterReads srcs).cur = s.cur := by simp [State.cur, State.slotAt]
/-- Another plot is as before. -/
theorem State.afterReads_plotAt_ne (s : State) (srcs : List GReg) {p : Nat} (h : p ≠ s.focus.plot) : (s.afterReads srcs).plotAt p = s.plotAt p := by
  unfold State.afterReads
  split
  · rfl
  · dsimp only
    split
    · rw [State.flushL1, State.plotAt_modPlot_ne _ _ h, State.plotAt_modPlot_ne _ _ h]
    · rw [State.plotAt_modPlot_ne _ _ h]
/-- The issuing plot changes in its FIFO and L1 only. -/
theorem State.afterReads_plotAt (s : State) (srcs : List GReg) : (s.afterReads srcs).plotAt s.focus.plot =
    { s.plotAt s.focus.plot with fifo := ((s.afterReads srcs).plotAt s.focus.plot).fifo, l1 := ((s.afterReads srcs).plotAt s.focus.plot).l1 } := by
  unfold State.afterReads
  split
  · rfl
  · dsimp only
    split
    · rw [State.flushL1, State.plotAt_modPlot, State.plotAt_modPlot]
    · rw [State.plotAt_modPlot]
/-- A list of sources without g31 reads the registers. -/
theorem State.reads_of_not_mem (s : State) (srcs : List GReg) (h : (31 : GReg) ∉ srcs) :
    s.reads srcs = srcs.map (s.cur.gReg s.focus.plot) := by
  unfold State.reads
  generalize s.flits s.focus.plot s.focus.slot = fl
  induction srcs generalizing fl with
  | nil => cases fl <;> rfl
  | cons n t ih =>
    simp only [List.mem_cons, not_or] at h
    have hn : ¬ n = 31 := fun e => h.1 e.symm
    have e : srcVals s.cur s.focus.plot fl (n :: t) = s.cur.gReg s.focus.plot n :: srcVals s.cur s.focus.plot fl t := by
      cases fl <;> simp only [srcVals, if_neg hn]
    rw [e, List.map_cons, ih h.2]

/-! ## Writes -/

/-- A flit sent changes what is under way and the number of the next id only. -/
theorem State.sendFlit_ok {s t : State} {v : Val} (h : s.sendFlit v = .ok t) :
    t = { s with outs := t.outs, nextId := t.nextId } := by
  unfold State.sendFlit at h
  dsimp only at h
  split at h
  · cases h
  · cases h; rfl
/-- What a successful write of a g register does. -/
theorem State.writeG_ok {s t : State} {d : GReg} {v : Val} (h : s.writeG d v = .ok t) :
    ((d = 0 ∨ d = 31) ∧ t = s) ∨ (d = 30 ∧ t = { s with outs := t.outs, nextId := t.nextId }) ∨
      (d ≠ 0 ∧ d ≠ 30 ∧ d ≠ 31 ∧ t = s.modCur fun x => x.putG d v) := by
  unfold State.writeG at h
  split at h
  · cases h; left; exact ⟨‹_›, rfl⟩
  · rename_i h0
    rw [not_or] at h0
    split at h
    · right; left; exact ⟨‹_›, State.sendFlit_ok h⟩
    · right; right; cases h; exact ⟨h0.1, ‹_›, h0.2, rfl⟩
theorem State.writeG_slots {s t : State} {d : GReg} {v : Val} (h : s.writeG d v = .ok t) :
    t = { s with slots := t.slots, outs := t.outs, nextId := t.nextId } := by
  rcases State.writeG_ok h with ⟨_, rfl⟩ | ⟨_, e⟩ | ⟨_, _, _, rfl⟩
  · rfl
  · rw [e]
  · rfl
@[simp] theorem Slot.gReg_zero (x : Slot) (p : Nat) : x.gReg p 0 = Val.zero := rfl
@[simp] theorem Slot.gReg_30 (x : Slot) (p : Nat) : x.gReg p 30 = Val.zero := rfl
/-- A register written is read back. -/
theorem Slot.gReg_putG (x : Slot) (p : Nat) (d : GReg) (v : Val) (h0 : d ≠ 0) (h30 : d ≠ 30) : (x.putG d v).gReg p d = v := by
  have h : ¬ (d = 0 ∨ d = 30) := by tauto
  simp only [Slot.gReg, Slot.putG, if_neg h, tget_tset_self]
/-- Another register is as before. -/
theorem Slot.gReg_putG_ne (x : Slot) (p : Nat) {d n : GReg} (v : Val) (h : n ≠ d) : (x.putG d v).gReg p n = x.gReg p n := by
  have h' : n.toNat ≠ d.toNat := fun e => h (BitVec.eq_of_toNat_eq e)
  simp [Slot.gReg, Slot.putG, tget_tset, h', Slot.mend]

/-! ## Traps -/

/-- A held slot: its time stops and a report is sent; nothing else changes. -/
theorem State.hold_eq (s : State) (c pc tval tinfo : Word) :
    s.hold c pc tval tinfo = { (s.modCur fun x => { x with held := true, fstart := s.clock - x.fstart }) with sent := (s.hold c pc tval tinfo).sent } := by
  unfold State.hold
  dsimp only
  split
  · rfl
  · rfl
/-- Taking a trap changes slots and what is reported only. -/
theorem State.takeTrap_eq (s : State) (t : Trap) (pc : Word) :
    s.takeTrap t pc = { s with slots := (s.takeTrap t pc).slots, sent := (s.takeTrap t pc).sent } := by
  unfold State.takeTrap
  dsimp only
  split
  · rw [State.hold_eq]; rfl
  · split
    · rw [State.hold_eq]; rfl
    · rfl
@[simp] theorem State.takeTrap_mem (s : State) (t : Trap) (pc : Word) : (s.takeTrap t pc).mem = s.mem := by rw [State.takeTrap_eq]
@[simp] theorem State.trapNow_mem (s : State) (t : Trap) : (s.trapNow t).mem = s.mem := State.takeTrap_mem s t _
@[simp] theorem State.hold_mem (s : State) (a b c d : Word) : (s.hold a b c d).mem = s.mem := by rw [State.hold_eq]; rfl
@[simp] theorem State.report_mem (s : State) (a b : Nat) (l : List Nat) : (s.report a b l).mem = s.mem := rfl
theorem foldl_report_mem (l : List (Nat × Session)) (f : Nat) (q : List Nat) (s : State) :
    (l.foldl (fun (x : State) e => x.report e.1 f q) s).mem = s.mem := by
  induction l generalizing s with
  | nil => rfl
  | cons e t ih => rw [List.foldl_cons, ih]; rfl
@[simp] theorem State.logRec_mem (s : State) (a b c : Nat) : (s.logRec a b c).mem = s.mem := by
  have h (c : Prop) [Decidable c] (x : State) (l : List (Nat × Session)) :
      (if c then l.foldl (fun (y : State) e => y.report e.1 7 [49152]) x else x).mem = x.mem := by
    split
    · exact foldl_report_mem l 7 [49152] x
    · rfl
  exact h _ _ _

/-! ## Forms of instructions -/

/-- A register instruction that may issue completes. -/
theorem scalar_ok {size : Nat} {srcs : List GReg} {d : GReg} {f : List Val → Except Trap Val} {s t : State} {v : Val} (h : s.mayIssue srcs [d])
    (hf : f (s.reads srcs) = .ok v) (hw : (s.afterReads srcs).writeG d v = .ok t) : scalar size srcs d f s = .next (t.advance size) := by
  unfold scalar
  simp only [h.1, h.2, hf, hw, Bool.false_eq_true, if_false]
/-- A register instruction waits, traps, or completes. -/
theorem scalar_cases {size : Nat} {srcs : List GReg} {d : GReg} {f : List Val → Except Trap Val} {s t : State}
    (h : scalar size srcs d f s = .next t) : t = s ∨ (∃ tr, t = s.trapNow tr) ∨
      ∃ v s', f (s.reads srcs) = .ok v ∧ (s.afterReads srcs).writeG d v = .ok s' ∧ t = s'.advance size := by
  unfold scalar at h
  split at h
  · cases h; exact .inl rfl
  · split at h
    · cases h; exact .inr (.inl ⟨_, rfl⟩)
    · split at h
      · cases h; exact .inr (.inl ⟨_, rfl⟩)
      · split at h
        · cases h; exact .inr (.inl ⟨_, rfl⟩)
        · cases h; exact .inr (.inr ⟨_, _, ‹_›, ‹_›, rfl⟩)
/-- An acting instruction that may issue completes. -/
theorem control_ok {size : Nat} {srcs dsts : List GReg} {f : List Val → State → Except Trap (Option State)} {s t : State} (h : s.mayIssue srcs dsts)
    (hf : f (s.reads srcs) (s.afterReads srcs) = .ok (some t)) : control size srcs dsts f s = .next (t.advance size) := by
  unfold control
  simp only [h.1, h.2, hf, Bool.false_eq_true, if_false]
/-- An acting instruction traps where its action does. -/
theorem control_trap {size : Nat} {srcs dsts : List GReg} {f : List Val → State → Except Trap (Option State)} {s : State} {t : Trap} (h : s.mayIssue srcs dsts)
    (hf : f (s.reads srcs) (s.afterReads srcs) = .error t) : control size srcs dsts f s = .next (s.trapNow t) := by
  unfold control
  simp only [h.1, h.2, hf, Bool.false_eq_true, if_false]
/-- An acting instruction waits, traps, or completes. -/
theorem control_cases {size : Nat} {srcs dsts : List GReg} {f : List Val → State → Except Trap (Option State)} {s t : State}
    (h : control size srcs dsts f s = .next t) : t = s ∨ (∃ tr, t = s.trapNow tr) ∨
      ∃ s', f (s.reads srcs) (s.afterReads srcs) = .ok (some s') ∧ t = s'.advance size := by
  unfold control at h
  split at h
  · cases h; exact .inl rfl
  · split at h
    · cases h; exact .inr (.inl ⟨_, rfl⟩)
    · split at h
      · cases h; exact .inr (.inl ⟨_, rfl⟩)
      · cases h; exact .inl rfl
      · cases h; exact .inr (.inr ⟨_, ‹_›, rfl⟩)
/-- A transfer that may issue goes where it decides. -/
theorem transfer_ok {srcs : List GReg} {f : List Val → Except Trap (Option Word)} {s : State} {o : Option Word} (h : s.mayIssue srcs [])
    (hf : f (s.reads srcs) = .ok o) : transfer srcs f s = .next (match o with
      | some t => (s.afterReads srcs).jump t
      | none => (s.afterReads srcs).advance 4) := by
  unfold transfer
  cases o <;> simp only [h.1, h.2, hf, Bool.false_eq_true, if_false]
/-- A transfer traps where it decides to. -/
theorem transfer_trap {srcs : List GReg} {f : List Val → Except Trap (Option Word)} {s : State} {t : Trap} (h : s.mayIssue srcs [])
    (hf : f (s.reads srcs) = .error t) : transfer srcs f s = .next (s.trapNow t) := by
  unfold transfer
  simp only [h.1, h.2, hf, Bool.false_eq_true, if_false]
/-- Translating changes walks under way and the number of the next id only. -/
theorem State.translate_trap {s s' : State} {p k : Nat} {o : Option Nat} {oc : BitVec 3} {va : Word} {n : Nat} {t : Trap}
    (h : s.translate p k o oc va n = .trap t s') : s' = { s with walks := s'.walks } := by
  unfold State.translate at h
  repeat' split at h
  all_goals cases h
  all_goals rfl
theorem State.translate_miss {s s' : State} {p k : Nat} {o : Option Nat} {oc : BitVec 3} {va : Word} {n : Nat}
    (h : s.translate p k o oc va n = .miss s') : s' = { s with walks := s'.walks, nextId := s'.nextId } := by
  unfold State.translate at h
  repeat' split at h
  all_goals cases h
  all_goals rfl
/-- A memory instruction waits, traps, stays at its instruction with a request of its own, or issues its request and goes on. -/
theorem memAccess_cases {size : Nat} {srcs dsts : List GReg} {vs : List VNum} {qs : List QNum} {rv : List (BitVec 3 × BitVec 5)} {build : List Val → Access} {s t : State}
    (h : memAccess size srcs dsts vs qs rv build s = .next t) :
    t = s ∨ (∃ (tr : Trap) (s' : State), t = s'.trapNow tr ∧ s' = { s with walks := s'.walks }) ∨ (t = { s with walks := t.walks, nextId := t.nextId }) ∨
      ∃ e : Tlb, let a := build (s.reads srcs); let ea := ((s.reads srcs).getD 0 .zero).bits + a.disp
        (s.retains a.op e.host (e.addr ea).toNat = true ∧
          t = s.issue (s.request a ea (e.addr ea) e.host [⟨true, BitVec.ofNat 32 size⟩, ⟨true, BitVec.ofNat 32 (g31Count srcs)⟩])) ∨
        (s.retains a.op e.host (e.addr ea).toNat = false ∧
          t = ((s.afterReads srcs).issue (s.request a ea (e.addr ea) e.host [])).advance size) := by
  unfold memAccess at h
  dsimp only at h
  split at h
  · cases h; exact .inl rfl
  · split at h
    · cases h; exact .inr (.inl ⟨_, s, rfl, rfl⟩)
    · split at h
      · cases h; exact .inr (.inl ⟨_, s, rfl, rfl⟩)
      · split at h
        · cases h; exact .inr (.inl ⟨_, s, rfl, rfl⟩)
        · split at h
          · cases h; exact .inr (.inl ⟨_, _, rfl, State.translate_trap ‹_›⟩)
          · cases h; exact .inr (.inr (.inl (State.translate_miss ‹_›)))
          · split at h
            · cases h; exact .inr (.inl ⟨_, s, rfl, rfl⟩)
            · split at h
              · cases h; exact .inr (.inl ⟨_, s, rfl, rfl⟩)
              · split at h
                · cases h; exact .inr (.inr (.inr ⟨_, .inl ⟨‹_›, rfl⟩⟩))
                · rename_i hr; cases h; exact .inr (.inr (.inr ⟨_, .inr ⟨by simpa using hr, rfl⟩⟩))
/-- A memory instruction whose checks pass issues its request: `e` is its translation. -/
theorem memAccess_ok {size : Nat} {srcs dsts : List GReg} {vs : List VNum} {qs : List QNum} {rv : List (BitVec 3 × BitVec 5)} {build : List Val → Access} {s : State} {e : Tlb}
    (hw : (s.cur.wait.isSome || s.blocked srcs dsts || s.blockedV vs || s.blockedQ qs) = false)
    (hb : s.badReg (srcs.map (fun n => (0, n)) ++ rv) = none)
    (hv : ((s.reads srcs).getD 0 .zero).valid = true)
    (ha : (((s.reads srcs).getD 0 .zero).bits + (build (s.reads srcs)).disp).toNat % (build (s.reads srcs)).op.align = 0)
    (ht : s.translate s.focus.plot s.focus.slot none (build (s.reads srcs)).oc (((s.reads srcs).getD 0 .zero).bits + (build (s.reads srcs)).disp)
      (build (s.reads srcs)).op.kind = .hit e)
    (hp : s.targetTrap (build (s.reads srcs)).op.target e.host
      (e.addr (((s.reads srcs).getD 0 .zero).bits + (build (s.reads srcs)).disp)).toNat
      (((s.reads srcs).getD 0 .zero).bits + (build (s.reads srcs)).disp) = none)
    (hf : (build (s.reads srcs)).pre = none) :
    let a := build (s.reads srcs); let ea := ((s.reads srcs).getD 0 .zero).bits + a.disp
    memAccess size srcs dsts vs qs rv build s = .next
      (if s.retains a.op e.host (e.addr ea).toNat then
        s.issue (s.request a ea (e.addr ea) e.host [⟨true, BitVec.ofNat 32 size⟩, ⟨true, BitVec.ofNat 32 (g31Count srcs)⟩])
      else ((s.afterReads srcs).issue (s.request a ea (e.addr ea) e.host [])).advance size) := by
  unfold memAccess
  simp only [hw, hb, hv, ha, ht, hp, hf, Bool.false_eq_true, if_false, Bool.not_true, bne_self_eq_false]
  split <;> rfl
/-- A vector instruction that may issue completes. -/
theorem vectorOp_ok {vs : List VNum} {gs : List GReg} {d : VNum} {f : List Val → Except Trap VOut} {s : State} {v : VReg} {fl : List (Nat × Flags)}
    (hb : (s.blocked gs [] || s.blockedV (d :: vs)) = false)
    (hr : s.badReg (vs.flatMap (fun n => [(2, n.zeroExtend 5), (4, n.zeroExtend 5)]) ++ gs.map fun n => (0, n)) = none)
    (hf : f (s.reads gs) = .ok (v, fl)) (hl : laneTrap s.cur.fpctl fl = none) :
    vectorOp vs gs d f s = .next ((((s.afterReads gs).vSet d v).modCur fun x =>
      { x with fpstat := x.fpstat ||| (allFlags fl).zeroExtend 64 }).advance 4) := by
  unfold vectorOp
  simp only [hb, hr, hf, hl, Bool.false_eq_true, if_false]
/-- A vector instruction waits, traps, or writes its register and flags. -/
theorem vectorOp_cases {vs : List VNum} {gs : List GReg} {d : VNum} {f : List Val → Except Trap VOut} {s t : State} (h : vectorOp vs gs d f s = .next t) :
    t = s ∨ (∃ tr, t = s.trapNow tr) ∨ ∃ v fl, f (s.reads gs) = .ok (v, fl) ∧ laneTrap s.cur.fpctl fl = none ∧
      t = (((s.afterReads gs).vSet d v).modCur fun x => { x with fpstat := x.fpstat ||| (allFlags fl).zeroExtend 64 }).advance 4 := by
  unfold vectorOp at h
  split at h
  · cases h; exact .inl rfl
  · split at h
    · cases h; exact .inr (.inl ⟨_, rfl⟩)
    · split at h
      · cases h; exact .inr (.inl ⟨_, rfl⟩)
      · split at h
        · cases h; exact .inr (.inl ⟨_, rfl⟩)
        · cases h; exact .inr (.inr ⟨_, _, ‹_›, ‹_›, rfl⟩)

end Sys2Proof.Machine
end

