-- ==== Sys2Proof/Tests/Slice0.lean ====
section
/-! SUPPORT. Tests of single steps and of decoding, ill-formed terms that WellFormed refuses, and a witness for the premises of every obligation
(test_witness_<obligation>). Expected values come from the rules named. -/

set_option Elab.async false
namespace Sys2Proof.Tests
open Sys2Proof Sys2Proof.Machine

/-- The words of this group, written from the opcode map and the form tables (R307, R308), decode to their instructions. -/
theorem test_decode_int : ∀ e ∈ ([
    (0x00745800, .add 3 20 11), (0x00936040, .sub 4 19 12), (0x00B26880, .mul 5 18 13), (0x00D158C0, .mulh 6 17 11), (0x00F06100, .mulhz 7 16 12),
    (0x01146940, .div 8 20 13), (0x01335980, .divz 9 19 11), (0x007261C0, .rem 3 18 12), (0x00916A00, .remz 4 17 13), (0x00B05A40, .and 5 16 11),
    (0x00D46280, .or 6 20 12), (0x00F36AC0, .xor 7 19 13), (0x01125B00, .andn 8 18 11), (0x01316340, .slt 9 17 12), (0x00706B80, .sltz 3 16 13),
    (0x00945BC0, .min 4 20 11), (0x00B36400, .max 5 19 12), (0x00D26C40, .minz 6 18 13), (0x00F15C80, .maxz 7 17 11), (0x011064C0, .sel 8 16 12)] : List (Nat × Instr)),
    decodeTableWord 32 e.1 = some e.2 := by decide +kernel

/-- The words of this group, written from the opcode map and the form tables (R309), decode to their instructions. -/
theorem test_decode_immediate : ∀ e ∈ ([
    (0x81348014, .addImm 9 20 32788), (0x84738015, .mulImm 3 19 32789), (0x88928016, .andImm 4 18 32790), (0x8CB18017, .orImm 5 17 32791),
    (0x90D08018, .xorImm 6 16 32792), (0x94F48019, .sltImm 7 20 32793), (0x9913801A, .sltzImm 8 19 32794), (0x9D20FFFE, .lih 9 65534)] : List (Nat × Instr)),
    decodeTableWord 32 e.1 = some e.2 := by decide +kernel

/-- The words of this group, written from the opcode map and the form tables (R311), decode to their instructions. -/
theorem test_decode_shift : ∀ e ∈ ([
    (0x04716000, .shl 3 17 12), (0x04904821, .shlImm 4 16 41), (0x04B45840, .shr 5 20 11), (0x04D34861, .shrImm 6 19 41), (0x04F26880, .sar 7 18 13),
    (0x051148A1, .sarImm 8 17 41), (0x053060C0, .rol 9 16 12), (0x047448E1, .rolImm 3 20 41), (0x04930100, .clz 4 19), (0x04B20140, .ctz 5 18),
    (0x04D10180, .popc 6 17), (0x04F001C0, .brev 7 16), (0x05146200, .bext 8 20 12), (0x05336A40, .bins 9 19 13)] : List (Nat × Instr)),
    decodeTableWord 32 e.1 = some e.2 := by decide +kernel

/-- The words of this group, written from the opcode map and the form tables (R313), decode to their instructions. -/
theorem test_decode_address : ∀ e ∈ ([
    (0x08725806, .lea 3 18 11 6), (0x08916046, .idx2 4 17 12 6), (0x08B06880, .pack 5 16 13)] : List (Nat × Instr)),
    decodeTableWord 32 e.1 = some e.2 := by decide +kernel

/-- The words of this group, written from the opcode map and the form tables (R315-R320), decode to their instructions. -/
theorem test_decode_control : ∀ e ∈ ([
    (0x128BFF2D, .beq 20 11 65325), (0x166CFF2E, .bne 19 12 65326), (0x1A4DFF2F, .blt 18 13 65327), (0x1E2BFF30, .bge 17 11 65328),
    (0x220CFF31, .blo 16 12 65329), (0x268DFF32, .bhs 20 13 65330), (0x2A60FF33, .bval 19 65331), (0x2E40FF34, .binv 18 65332),
    (0x30FFFFF0, .jal 7 2097136), (0x35100000, .jr 8 16), (0x34000040, .yield), (0x38130006, .loop 19 6)] : List (Nat × Instr)),
    decodeTableWord 32 e.1 = some e.2 := by decide +kernel

/-- The words of this group, written from the opcode map and the form tables (R30, R188-R193), decode to their instructions. -/
theorem test_decode_memory : ∀ e ∈ ([
    (0x4092BBF0, .ld 4 18 5 true 5 0x1F0), (0x44B1B5F0, .st 5 17 5 true 2 0x1F0), (0x48D0B9F0, .ldv 6 16 5 12 0x1F0),
    (0x4CF4B9F0, .stv 7 20 5 12 0x1F0), (0x5453C101, .prf 2 19 6 0x101), (0x51320007, .ldfe 9 18 3 true), (0x50115846, .stfe 17 11 3),
    (0x50900086, .feq 4 16 3), (0x501400C7, .feset 20 3 true)] : List (Nat × Instr)),
    decodeTableWord 32 e.1 = some e.2 := by decide +kernel

/-- The words of this group, written from the opcode map and the form tables (R31, R196, R200), decode to their instructions. -/
theorem test_decode_atomic : ∀ e ∈ ([
    (0x58D35826, .amadd 6 19 11 2 false 6), (0x58F2607E, .ammin 7 18 12 3 true 6), (0x59116886, .ammax 8 17 13 0 false 6),
    (0x593058DE, .amminz 9 16 11 1 true 6), (0x58746126, .ammaxz 3 20 12 2 false 6), (0x5893697E, .amand 4 19 13 3 true 6),
    (0x58B25986, .amor 5 18 11 0 false 6), (0x58D161DE, .amxor 6 17 12 1 true 6), (0x58F06A26, .amswp 7 16 13 2 false 6),
    (0x59145A7E, .amcas 8 20 11 3 true 6), (0x59336286, .amfadd 9 19 12 0 false 6), (0x58726ADE, .aminc 3 18 13 1 true 6),
    (0x5C115826, .redadd 17 11 true false 6), (0x5C10604E, .redmin 16 12 false true 6), (0x5C1468A6, .redmax 20 13 true false 6),
    (0x5C1358CE, .redfadd 19 11 false true 6), (0x5C126126, .redor 18 12 true false 6)] : List (Nat × Instr)),
    decodeTableWord 32 e.1 = some e.2 := by decide +kernel

/-- The words of this group, written from the opcode map and the form tables (R331, R335, R363), decode to their instructions. -/
theorem test_decode_order_sync : ∀ e ∈ ([
    (0x6265003A, .fence 179 3 10), (0x60044840, .arc 0 137 0 0), (0x6414A803, .evsig 20 171), (0x64A0A843, .evwait 5 171),
    (0x64C0A883, .barrive 6 171), (0x64E0A8C3, .bwait 7 171), (0x6410A903, .bskip 16 171), (0x64000142, .prio 2), (0x64736180, .trigbind 3 19 12),
    (0x649201C0, .trigdrop 4 18), (0x64B10200, .freeze 5 17), (0x64D00240, .thaw 6 16)] : List (Nat × Instr)),
    decodeTableWord 32 e.1 = some e.2 := by decide +kernel

/-- The words of this group, written from the opcode map and the form tables (R165, R201, R245), decode to their instructions. -/
theorem test_decode_pennant_stream : ∀ e ∈ ([
    (0x68F40000, .pndef 7 20), (0x69130041, .pnatt 8 19 true), (0x69320080, .pndet 9 18), (0x687100C0, .pndrop 3 17), (0x68900100, .pnrel 4 16),
    (0x68B40144, .pnq 5 20 4), (0x6CB36803, .sqset 5 19 13 3), (0x6CB20046, .sqld 5 18 6), (0x6D050080, .sqiss 8 5), (0x6C1000C0, .sqwait 16),
    (0x6C740100, .config 3 20), (0x6C930140, .arm 4 19), (0x6CB20180, .disarm 5 18)] : List (Nat × Instr)),
    decodeTableWord 32 e.1 = some e.2 := by decide +kernel

/-- The words of this group, written from the opcode map and the form tables (R288), decode to their instructions. -/
theorem test_decode_vector_float : ∀ e ∈ ([
    (0x70CC5805, .vadd 6 12 11 5), (0x70EB6045, .vsub 7 11 12 5), (0x710F6885, .vmul 8 15 13 5), (0x712E58C5, .vfma 9 14 11 5),
    (0x706D6105, .vfms 3 13 12 5), (0x708C6945, .vdiv 4 12 13 5), (0x70AB0184, .vsqrt 5 11 4), (0x70CF01C4, .vrsq 6 15 4),
    (0x70EE0204, .vrcp 7 14 4), (0x710D5A45, .vmin 8 13 11 5), (0x712C6285, .vmax 9 12 12 5), (0x706B02C4, .vabs 3 11 4), (0x708F0304, .vneg 4 15 4),
    (0x70AE0344, .vexp2 5 14 4), (0x70CD0384, .vlog2 6 13 4), (0x70EC5BC5, .vscale 7 12 11 5)] : List (Nat × Instr)),
    decodeTableWord 32 e.1 = some e.2 := by decide +kernel

/-- The words of this group, written from the opcode map and the form tables (R290), decode to their instructions. -/
theorem test_decode_vector_int : ∀ e ∈ ([
    (0x750B6000, .viadd 8 11 12), (0x752F6840, .visub 9 15 13), (0x746E5880, .vimul 3 14 11), (0x748D60C0, .vimin 4 13 12),
    (0x74AC6900, .vimax 5 12 13), (0x74CB5940, .vand 6 11 11), (0x74EF6180, .vor 7 15 12), (0x750E69C0, .vxor 8 14 13), (0x752D5A00, .vshl 9 13 11),
    (0x746C4A21, .vshlImm 3 12 41), (0x748B6A40, .vshr 4 11 13), (0x74AF4A61, .vshrImm 5 15 41), (0x74CE6280, .vsar 6 14 12),
    (0x74ED4AA1, .vsarImm 7 13 41)] : List (Nat × Instr)),
    decodeTableWord 32 e.1 = some e.2 := by decide +kernel

/-- The words of this group, written from the opcode map and the form tables (R291), decode to their instructions. -/
theorem test_decode_vector_lanes : ∀ e ∈ ([
    (0x790C0004, .vsum 8 12 4), (0x792B0040, .vhmax 9 11), (0x786F0080, .vhmin 3 15), (0x788E58C6, .vcmp 4 14 11 6), (0x78AD6100, .vsel 5 13 12),
    (0x78CC6941, .vval 6 12 13 true), (0x78EB5980, .vperm 7 11 11), (0x790F29C2, .vbcast 8 15 69), (0x792E6A21, .vslide 9 14 13 33)] : List (Nat × Instr)),
    decodeTableWord 32 e.1 = some e.2 := by decide +kernel

/-- The words of this group, written from the opcode map and the form tables (R297, R302), decode to their instructions. -/
theorem test_decode_vector_moves : ∀ e ∈ ([
    (0x7C6D0031, .vcvt 3 13 6 1), (0x7C8C6071, .vqnt 4 12 12 6 1), (0x7CAB68B1, .vdqnt 5 11 13 6 1), (0x7CCF00C0, .vtag 6 15),
    (0x7CEE0100, .vtagrd 7 14), (0x7D0D6940, .vpack 8 13 13), (0x7D2C5980, .vunpk 9 12 11), (0xA06B0000, .vmov 3 11), (0xA08F2842, .vext 4 15 69),
    (0xA0AE2882, .vins 5 14 69), (0xA0C000CC, .vzero 6 12)] : List (Nat × Instr)),
    decodeTableWord 32 e.1 = some e.2 := by decide +kernel

/-- The words of this group, written from the opcode map and the form tables (R337, R398), decode to their instructions. -/
theorem test_decode_system : ∀ e ∈ ([
    (0xA4492000, .wait 1 2 4 8), (0xC0000000, .nop), (0xC0008843, .trap 0x443), (0xC0000080, .eret), (0xC08110D1, .sysrd 4 2193),
    (0xC0A11111, .syswr 5 2193), (0xC0100140, .savec 16), (0xC0140180, .restc 20), (0xC01301C1, .tcinv 19 1), (0xC0000200, .icinv),
    (0xC0110240, .idle 17), (0xC0008A83, .brk 0x443)] : List (Nat × Instr)),
    decodeTableWord 32 e.1 = some e.2 := by decide +kernel

/-- Words that the manual prints beside an instruction decode to it; 0x78E7_0080, printed for VHMAX, is VHMIN by the opcode map (log 21). -/
theorem test_decode_printed : ∀ e ∈ ([
    (0x00642800, .add 3 4 5), (0x8064FFF4, .addImm 3 4 0xFFF4), (0x40E4480C, .ld 7 4 2 false 4 12), (0x1460FFFD, .bne 3 0 0xFFFD),
    (0xA43CBC00, .wait 0 15 2 15), (0x44A63402, .st 5 6 1 true 2 2), (0x41241C00, .ld 9 4 0 true 6 0), (0x54240004, .prf 1 4 0 4),
    (0x50A40003, .ldfe 5 4 1 true), (0x50043040, .stfe 4 6 0), (0x58A43008, .amadd 5 4 6 0 true 0), (0x58A43277, .amcas 5 4 6 3 false 7),
    (0x5C0430E0, .redfadd 4 6 true false 0), (0x6C250003, .sqset 1 5 0 3), (0x6C440040, .sqld 2 4 0), (0x6CE20080, .sqiss 7 2),
    (0x6C0700C0, .sqwait 7), (0x68A60041, .pnatt 5 6 true), (0x68060100, .pnrel 0 6), (0x68E60141, .pnq 7 6 1), (0x69C60000, .pndef 14 6),
    (0x6400C800, .evsig 0 200), (0xC38008D1, .sysrd 28 0x051), (0xC0000045, .trap 5), (0xA10000C2, .vzero 8 2), (0x712901C0, .vrsq 9 9 0),
    (0x78E70080, .vhmin 7 7), (0x7D87A040, .vqnt 12 7 20 0 0), (0x704320C1, .vfma 2 3 4 1), (0x74634A20, .vshlImm 3 3 9),
    (0x7C850008, .vcvt 4 5 1 0), (0xA0E42841, .vext 7 4 37), (0x79090000, .vsum 8 9 0)] : List (Nat × Instr)),
    decodeTableWord 32 e.1 = some e.2 := by decide +kernel

/-- The two words of each L form, word 0 in bits 31:0, decode to their instructions (R35, R36). -/
theorem test_decode_long : ∀ e ∈ ([
    (0x12345678FE748000, .li 9 0x12345678), (0x89ABCDEFFE748001, .liH 9 0x89ABCDEF), (0x89ABCDEFFC219000, .leaLong 3 4 0x89ABCDEF),
    (0x89ABCDEFFCCE8000, .jalLong 29 0x89ABCDEF), (0x00010000FD019030, .ldLong 3 4 0 false 6 0x10000),
    (0x89ABCDEFFD1298D0, .stLong 5 6 1 true 2 0x89ABCDEF), (0x89ABCDEFFD239960, .ldvLong 7 6 2 12 0x89ABCDEF),
    (0x89ABCDEFFD339918, .stvLong 7 6 2 3 0x89ABCDEF), (0x89ABCDEFFD511B80, .prfLong 2 6 7 0x89ABCDEF),
    (0x89ABCDEFFE019000, .addLong 3 4 0x89ABCDEF), (0x89ABCDEFFE121000, .mulLong 4 4 0x89ABCDEF), (0x89ABCDEFFE229000, .andLong 5 4 0x89ABCDEF),
    (0x89ABCDEFFE331000, .orLong 6 4 0x89ABCDEF), (0x89ABCDEFFE439000, .xorLong 7 4 0x89ABCDEF), (0x89ABCDEFFE541000, .sltLong 8 4 0x89ABCDEF),
    (0x89ABCDEFFE649000, .sltzLong 9 4 0x89ABCDEF)] : List (Nat × Instr)),
    decodeTableWord 64 e.1 = some e.2 := by decide +kernel

/-- Stream words written from the header of R40 and the payload tables of R104, R173, R217 and R254 decode to their fields; one is the manual's example of a DRN (header 0x1400_0000, F0 0x001C_8180). -/
theorem test_decode_stream_words : ∀ e ∈ ([
    (0x01126905000000000000000000001ABC, .bindr ⟨18, 3, true, false, 5⟩ 0x1ABC true),
    (0x021F6805000000000000000000001ABC, .bindw ⟨31, 3, true, false, 5⟩ 0x1ABC),
    (0x031F6905000000000000000000000000, .unbind ⟨31, 3, true, false, 5⟩ true),
    (0x08006905000200400000030062081000, .cpy ⟨0, 3, true, false, 5⟩ 0x30062081000 0x4000 64 true),
    (0x09006805000000000000000012340005, .cpyp ⟨0, 3, true, false, 5⟩ 5 0x1234),
    (0x0A006805000000000000000012340005, .gath ⟨0, 3, true, false, 5⟩ 5 0x1234),
    (0x0B006805000000000000000012340005, .scat ⟨0, 3, true, false, 5⟩ 5 0x1234),
    (0x0C186B05000000000000000012340005, .mcst ⟨24, 3, true, false, 5⟩ 5 0x1234 true true),
    (0x20136805000000000000000000000007, .phase ⟨19, 3, true, false, 5⟩ 7),
    (0x21006805000000000F03BEEF00090549, .arrv ⟨0, 3, true, false, 5⟩ 0x549 9 0xBEEF 3 60),
    (0x220068050000000089ABCDEFABCD02C8, .patch ⟨0, 3, true, false, 5⟩ 200 2 0xABCD 0x89ABCDEF 0 false),
    (0x220069050007FFFC00000000ABCD02C8, .patch ⟨0, 3, true, false, 5⟩ 200 2 0xABCD 0 0x7FFFC true),
    (0x230068050000000000008001000000C8, .evt ⟨0, 3, true, false, 5⟩ 0xC8 0x8001),
    (0x10006805000000000000006A01FF207B, .wld ⟨0, 3, true, false, 5⟩ true 5 7 100 127 0x2A true),
    (0x11006805000000000000000001FF207A, .wstr ⟨0, 3, true, false, 5⟩ false 5 7 100 127),
    (0x12006805BEEF00410002000101FD4876, .mtok ⟨0, 3, true, false, 5⟩ 2 true 6 33 20 127 0x20001 65 0xBEEF),
    (0x13006B050007FFFC0000BEEF00000A43, .accz ⟨0, 3, true, false, 5⟩ true 33 20 0xBEEF 0x7FFFC true true),
    (0x130069050007FFFC0000BEEF00000A43, .accz ⟨0, 3, true, false, 5⟩ true 33 20 0xBEEF 0x7FFFC true false),
    (0x140069050007FFFC000000630067AA43, .drn ⟨0, 3, true, false, 5⟩ true 33 20 0x1D true 4 true false 99 0x7FFFC true false),
    (0x140000000000000000000000001C8180, .drn ⟨0, 0, false, false, 0⟩ false 0 3 4 true 3 false false 0 0 false false),
    (0x1516680500000000000000FE0007FFFC, .steer ⟨22, 3, true, false, 5⟩ 0x7FFFC 0xFE),
    (0x160068050000A90D0123456789ABCDEF, .ringMember ⟨0, 3, true, false, 5⟩ 0x0123456789ABCDEF 5 33 20 true),
    (0x16006905000000FE0193252100001ABC, .ringSource ⟨0, 3, true, false, 5⟩ 0x1ABC 33 20 50 100 0xFE),
    (0x17006905000001040FE7FFF8D5E7FFFC, .race ⟨0, 3, true, false, 5⟩ 0x7FFFC 0x1ABC 0x7FFF8 60 7 0x104 true),
    (0x280069050007FFFC00021ABCDE120010, .bnalloc ⟨0, 3, true, false, 5⟩ 0xABCDE120010 33 0x7FFFC true),
    (0x290068050000000000021ABCDE120010, .bnfree ⟨0, 3, true, false, 5⟩ 0xABCDE120010 33),
    (0x2A0068052154321120010ABCDE120010, .bnshare ⟨0, 3, true, false, 5⟩ 0xABCDE120010 0x54321120010 33),
    (0x2B0069050007FFFC00021ABCDE120010, .bnxl ⟨0, 3, true, false, 5⟩ 0xABCDE120010 33 0x7FFFC true),
    (0x30006905FFFF80000123456789ABCDEF, .pnevict ⟨0, 3, true, false, 5⟩ 0x0123456789ABCDEF 0x7FFFC true),
    (0x31006905FFFF85490123456789ABCDEF, .pnfill ⟨0, 3, true, false, 5⟩ 0x0123456789ABCDEF 0x549 0x7FFFC true)] : List (Nat × Instr)),
    decodeTableWord 128 e.1 = some e.2 := by decide +kernel

/-- Command bodies written from R416 decode to their commands. -/
theorem test_decode_commands : ∀ e ∈ ([
    (0x01, [0x2ABCDEF0007C8, 0x123456789000, 0x0, 0x0, 0x0], .queueOpen 200 7 0xABCDEF 2 0x123456789000),
    (0x02, [0xC8, 0x0, 0x0, 0x0, 0x0], .queueClose 200),
    (0x03, [0xC8, 0x0, 0x0, 0x0, 0x0], .queueReset 200),
    (0x04, [0x90502AB, 0x0, 0x0, 0x0, 0x0], .linkCreate 0x2AB 5 9),
    (0x05, [0x2AB, 0x0, 0x0, 0x0, 0x0], .linkDestroy 0x2AB),
    (0x08, [0x123456789040, 0x123456789000, 0x1, 0xFAC688, 0x0], .imageInstall 0x123456789040 0x123456789000 1 false 0 [0xFAC688] []),
    (0x09, [0xBEEF, 0x0, 0x0, 0x0, 0x0], .imageRemove 0xBEEF),
    (0x18, [0xBEEF, 0x0, 0x0, 0x0, 0x0], .preempt 0xBEEF),
    (0x19, [0xBEEF, 0x0, 0x0, 0x0, 0x0], .restore 0xBEEF),
    (0x1A, [0x60549BEEF, 0x0, 0x0, 0x0, 0x0], .slotResume 0xBEEF 0x549 6),
    (0x1B, [0x60549BEEF, 0x0, 0x0, 0x0, 0x0], .slotKill 0xBEEF 0x549 6),
    (0x20, [0x1234, 0x0, 0x0, 0x0, 0x0], .pnAdminDrop 0x1234),
    (0x20, [0x1234, 0x1, 0x0, 0x0, 0x0], .pnAdminEvict 0x1234),
    (0x20, [0x1234, 0x5490002, 0x0, 0x0, 0x0], .pnAdminFill 0x1234 0x549),
    (0x20, [0x0, 0x3, 0x1000, 0x89ABCDEF, 0x0], .pnAdminList 0x1000 0x89ABCDEF),
    (0x28, [0xA00000, 0x103E8, 0x0, 0x0, 0x0], .regionDeclare 0xA00000 1000 true),
    (0x29, [0xA00000, 0x0, 0x0, 0x0, 0x0], .regionUndeclare 0xA00000),
    (0x30, [0x89ABCDEF, 0x0, 0x0, 0x0, 0x0], .faultReplay 0x89ABCDEF),
    (0x31, [0x89ABCDEF, 0x0, 0x0, 0x0, 0x0], .faultDecline 0x89ABCDEF),
    (0x32, [0xBEEF, 0x0, 0x0, 0x0, 0x0], .shootdownAsid 0xBEEF),
    (0x32, [0x1BEEF, 0x5000, 0x0, 0x0, 0x0], .shootdownPage 0xBEEF 0x5000),
    (0x32, [0x2BEEF, 0x0, 0x0, 0x0, 0x0], .shootdownAll 0xBEEF),
    (0x38, [0x6, 0x0, 0x0, 0x0, 0x0], .dieFence 6),
    (0x40, [0x1000, 0x4000, 0x100, 0xBEEF0003, 0x0], .hostCopy 0x1000 0x4000 0x100 true true 0xBEEF),
    (0x50, [0x2000, 0x10, 0x0, 0x0, 0x0], .logRead 0x2000 16)] : List (BitVec 8 × List Word × Instr)),
    decodeCommand e.1 e.2.1 [] = some e.2.2 := by decide +kernel

/-- BIND_STREAMS with one stream port, and PARTITION_SET with its thirteen quadwords in two extension entries, decode from their entries (R379, R416). -/
theorem test_decode_commands_extended : 
    decodeCommand 0x10 [0x77, 1, 0, 9, 0] [[1, 2, 3, 4, 5, 6, 7, 8]] = some (.bindStreams 0x77 1 0 9 [[1, 2, 3, 4, 5, 6, 7, 8]]) ∧
    decodeCommand 0x39 [5, 0, 0, 0, 0] [[0x200001, 0x400000, 128, 0, 0, 0, 0, 0], [0, 0, 0, 0, 0xFAC688, 0, 0, 0]] =
      some (.partitionSet 5 ⟨true, 1, 2, [128, 0, 0, 0, 0, 0, 0, 0, 0, 0], [0, 1, 2, 3, 4, 5, 6, 7]⟩) := by decide +kernel

/-- Selector 20 of INT and an absent major raise ILLEGAL with bit 6 and 26; a set mod bit of ADD and the reserved rounding mode 6 raise RESERVED_FIELD with their lowest bit (R34, R45). -/
theorem test_decode_rejects : decode [0x00, 0x2D, 0x64, 0x00] = .error (.illegal 6) ∧ decode [0, 0, 0, 0x0C] = .error (.illegal 26) ∧
    decode [0x04, 0x28, 0x64, 0x00] = .error (.reserved 2) ∧ decode [0x06, 0x38, 0xA6, 0x70] = .error (.reserved 1) := by decide +kernel

/-- For each check of WellFormed a term that breaks it, which the check refuses. -/
theorem test_ill_formed_refused : ∀ i ∈ ([
    .ld 1 2 0 false 7 0, .ldLong 1 2 0 false 7 0, .st 1 2 0 false 4 0, .stLong 1 2 0 false 4 0, .ldv 1 2 0 13 0, .ldvLong 1 2 0 13 0,
    .stv 1 2 0 13 0, .stvLong 1 2 0 13 0, .vzero 1 13, .prf 3 1 0 0, .prfLong 3 1 0 0, .loop 1 0, .fence 0 1 0, .fence 1 0 0, .fence 1 1 11,
    .arc 0 0 0 0, .arc 0 1 3 0, .arc 0 1 0 1, .arc 1 1 1 0, .pnq 1 2 5, .vadd 1 2 3 6, .vsub 1 2 3 6, .vmul 1 2 3 6, .vfma 1 2 3 6, .vfms 1 2 3 6,
    .vdiv 1 2 3 6, .vmin 1 2 3 6, .vmax 1 2 3 6, .vscale 1 2 3 6, .vsqrt 1 2 6, .vrsq 1 2 6, .vrcp 1 2 6, .vabs 1 2 6, .vneg 1 2 6, .vexp2 1 2 6,
    .vlog2 1 2 6, .vsum 1 2 6, .vcmp 1 2 3 7, .vcvt 1 2 0 6, .vqnt 1 2 3 0 6, .vdqnt 1 2 3 0 6, .tcinv 1 3, .tcinv 1 0,
    .bindr ⟨0x18, 0, false, false, 0⟩ 0 false, .bindr ⟨0, 0, true, false, 0⟩ 0 false, .bindw ⟨0, 0, false, false, 0⟩ 0,
    .unbind ⟨0, 0, true, false, 0⟩ false, .phase ⟨0, 0, true, false, 0⟩ 0, .cpy ⟨0, 0, false, false, 0⟩ 0 0 0 false,
    .cpy ⟨0, 0, false, false, 0⟩ 8 0 1 false, .cpy ⟨0, 0, false, false, 0⟩ 0 8 1 false, .cpy ⟨0x18, 0, false, false, 0⟩ 0 0 1 false,
    .cpyp ⟨0x18, 0, false, false, 0⟩ 0 0, .gath ⟨0x18, 0, false, false, 0⟩ 0 0, .scat ⟨0x18, 0, false, false, 0⟩ 0 0,
    .mcst ⟨0x18, 0, false, false, 0⟩ 0 1 false false, .arrv ⟨0, 0, false, false, 0⟩ 0 0 0 1 63, .patch ⟨0, 0, false, false, 0⟩ 0 0 0 1 0 true,
    .patch ⟨0, 0, false, false, 0⟩ 0 0 0 0 4 false, .patch ⟨0, 0, false, false, 0⟩ 0 0 0 0 2 true, .evt ⟨0, 0, false, false, 0⟩ 0 0,
    .wld ⟨0, 0, false, false, 0⟩ true 0 1 127 0 0 false, .wld ⟨0, 0, false, false, 0⟩ true 0 0 0 0 1 false,
    .wstr ⟨0, 0, false, false, 0⟩ true 0 1 127 0, .mtok ⟨0, 0, false, false, 0⟩ 3 false 0 0 0 0 0 0 0,
    .mtok ⟨0, 0, false, false, 0⟩ 0 false 0 1 63 0 0 0 0, .mtok ⟨0, 0, false, false, 0⟩ 2 false 0 0 0 0 0 0 0,
    .mtok ⟨0, 0, false, false, 0⟩ 0 false 0 0 0 0 1 0 0, .mtok ⟨0, 0, false, true, 255⟩ 0 false 0 0 0 0 0 0 0,
    .accz ⟨0, 0, false, false, 0⟩ true 1 63 0 0 false false, .accz ⟨0, 0, false, false, 0⟩ true 0 0 0 2 false false,
    .drn ⟨0, 0, false, false, 0⟩ true 0 0 0 false 6 false false 0 0 false false,
    .drn ⟨0, 0, false, false, 0⟩ true 1 63 0 false 0 false false 0 0 false false, .steer ⟨0, 0, false, false, 0⟩ 2 0,
    .ringMember ⟨0, 0, false, false, 0⟩ 0 0 1 63 false, .ringSource ⟨0, 0, false, false, 0⟩ 0 1 63 0 0 0,
    .race ⟨0, 0, false, false, 0⟩ 0 0 0 1 2 0 false, .race ⟨0, 0, false, false, 0⟩ 0 0 4 7 0 0 false,
    .race ⟨0, 0, false, false, 0⟩ 2 0 0 7 0 0 false, .race ⟨0, 0, false, false, 0⟩ 0 0 0 7 0 2 false,
    .bnalloc ⟨0, 0, false, false, 0⟩ 0xFFFF 1 0 false, .bnalloc ⟨0, 0, false, false, 0⟩ 0 0 2 false, .bnfree ⟨0, 0, false, false, 0⟩ 0xFFFF 1,
    .bnshare ⟨0, 0, false, false, 0⟩ 0 1 1, .bnxl ⟨0, 0, false, false, 0⟩ 0 0 2 false, .pnevict ⟨0, 0, false, false, 0⟩ 0 2 false,
    .pnfill ⟨0, 0, false, false, 0⟩ 0 0 2 false] : List Instr), i.wf = false := by decide +kernel

/-- Values at the ends of the admitted ranges pass: LOOP 1, FENCE scope 10, VVAL without apply, ARC post with no class, a CPY of 2^21 - 1 times 16 bytes. -/
theorem test_well_formed_boundary : ∀ i ∈ ([.loop 1 1, .fence 255 3 10, .arc 0 255 0 0, .vval 1 2 0 false, .pnq 1 2 4, .cpy ⟨0, 0, false, true, 1⟩ 0 0 0x1FFFFF false,
    .wld ⟨0, 0, false, false, 0⟩ true 0 0 127 127 63 true, .bnalloc ⟨0, 0, false, false, 0⟩ 0xFFC0 63 0 false] : List Instr), i.wf = true := by decide +kernel

/-- The reset state with slot 0 of plot 0, the issuing slot, changed. -/
def slot0 (f : Slot → Slot) : State := State.reset.modSlot 0 0 f
/-- The reset state with g registers of the issuing slot. -/
def regs (l : Tab Val) : State := slot0 fun x => { x with g := l }
/-- A value was given, no error. -/
def isOk {ε α : Type} : Except ε α → Bool
  | .ok _ => true
  | .error _ => false
/-- The state after. -/
def after : Host.Outcome State Fault Refusal → State
  | .next t => t
  | _ => State.reset
/-- There is a next state. -/
def isNext : Host.Outcome State Fault Refusal → Bool
  | .next _ => true
  | _ => false
/-- A valid register value. -/
def wv (n : Nat) : Val := .ofWord (BitVec.ofNat 64 n)
/-- An invalid register value of reason ABSENT, offset `n`. -/
def bad (n : Nat) : Val := ⟨false, (payloadBits 6 0 n).zeroExtend 64⟩
/-- An engine has read or written all it was to. -/
def isDone {α : Type} : EngOut α → Bool
  | .done _ _ => true
  | _ => false
/-- A value was given, and it meets `f`. -/
def okAnd {ε α : Type} (e : Except ε α) (f : α → Bool) : Bool :=
  match e with
  | .ok x => f x
  | .error _ => false
/-- An engine is done, with what meets `f`. -/
def doneAnd {α : Type} (e : EngOut α) (f : α → State → Bool) : Bool :=
  match e with
  | .done x s => f x s
  | _ => false

/-- Premises of ScalarRoundTrip: a short form and a two-word form. -/
theorem test_witness_ScalarRoundTrip : (Instr.liH 31 0xFFFFFFFF).wf = true ∧ encodeSw (.liH 31 0xFFFFFFFF) = none ∧ encode (.liH 31 0xFFFFFFFF) ≠ [] ∧
    (Instr.add 31 31 31).wf = true ∧ encodeSw (.add 31 31 31) = none ∧ encode (.add 31 31 31) ≠ [] := by decide +kernel

/-- Premises of StreamRoundTrip: a BNFREE that ends at the last block number. -/
theorem test_witness_StreamRoundTrip : (Instr.bnfree ⟨0, 7, true, true, 255⟩ 0xFFFFFFFFFC0 63).wf = true ∧
    (encodeSw (.bnfree ⟨0, 7, true, true, 255⟩ 0xFFFFFFFFFC0 63)).isSome = true := by decide +kernel

/-- Premises of DecodedWordsAreWellFormed, one clause each. -/
theorem test_witness_DecodedWordsAreWellFormed : decodeWords 0xC0000000 none = .ok .nop ∧
    isLong 0xFE748000 = true ∧ decodeWords 0xFE748000 (some 0x12345678) = .ok (.li 9 0x12345678) ∧
    decodeSw (0x23 <<< 120 ||| 1 <<< 32 ||| 7) = .ok (.evt ⟨0, 0, false, false, 0⟩ 7 1) := by decide +kernel

/-- NOP placed where the reset machine fetches next. -/
def nopNext : State := State.reset.withFetchWord 32 0xC0000000

/-- Premises of StepKeepsMemoryCanonical: a canonical memory with listed bytes, and a step with a next state. -/
theorem test_witness_StepKeepsMemoryCanonical : Memory.wf nopNext.mem = true ∧ isNext (step nopNext) = true ∧ nopNext.mem.cells ≠ [] := by
  decide +kernel

/-- Premises of EveryInstructionAnswers: a module that runs and one that has halted. -/
theorem test_witness_EveryInstructionAnswers : State.reset.halted = false ∧ ({ State.reset with halted := true } : State).halted = true := by
  decide +kernel

/-- As nopNext, with an empty instruction cache. -/
def flushed : State := nopNext.modPlot 0 fun p => { p with icache := [] }
/-- What a fetch gives. -/
def fetched : FetchedInstr → Option (BitVec 32 × Option (BitVec 32))
  | .words a b _ => some (a, b)
  | _ => none

/-- Premises of StepRunsDecodedInstruction, first part: NOP, an absent major and a reserved bit are next, the slot may issue, no trap pends. -/
theorem test_witness_StepRunsDecodedInstruction :
    (∀ s ∈ [nopNext, State.reset.withFetchWord 32 0x0C000000, State.reset.withFetchWord 32 0x00642801],
      s.halted = false ∧ s.sched = [.issue 0 0] ∧ State.couldIssue { s with sched := [] } 0 0 = true ∧ State.canIssue { s with sched := [] } 0 0 = true ∧ State.issueTurn { s with sched := [] } 0 0 = true ∧
      (State.slotAt { s with sched := [] } 0 0).nextPend = none) ∧
    fetched ((State.atSlot { nopNext with sched := [] } 0 0).fetchInstr 0 0) = some (0xC0000000, none) ∧
    fetched ((State.atSlot { State.reset.withFetchWord 32 0x0C000000 with sched := [] } 0 0).fetchInstr 0 0) = some (0x0C000000, none) ∧
    fetched ((State.atSlot { State.reset.withFetchWord 32 0x00642801 with sched := [] } 0 0).fetchInstr 0 0) = some (0x00642801, none) ∧
    decodeWords 0xC0000000 none = .ok .nop ∧ decodeWords 0x0C000000 none = .error (.illegal 26) ∧ decodeWords 0x00642801 none = .error (.reserved 0) ∧
    ({ State.reset with sched := [.issue 0 0] } : State).couldIssue 0 0 = false ∧ isNext (runInstr 0 0 (State.atSlot { nopNext with sched := [] } 0 0)) = true ∧ [1, 7].Nodup ∧ 0 ∉ [1, 7] ∧ (∀ j ∈ [1, 7], j < 8) := by
  decide +kernel

/-- Premises of StepRunsDecodedInstruction, second part: a fetch that misses the instruction cache. -/
theorem test_witness_StepRunsDecodedInstruction_fetch : canonical 0 = true ∧ flushed.lookup 0 0 = some placedEntry ∧ placedEntry.permits 2 = true ∧
    placedEntry.host = false ∧ (placedEntry.addr 0).toNat % 4 = 0 ∧ flushed.targetTrap .read false (placedEntry.addr 0).toNat 0 = none ∧
    tfind (flushed.plotAt 0).icache ((placedEntry.addr 0).toNat / 4) = none ∧ (flushed.readWord 0 (placedEntry.addr 0).toNat).valid = true ∧
    flushed.mayFetch 0 (placedEntry.addr 0).toNat = true := by
  decide +kernel

/-- A stream word of slot 0, EVT to event 200. -/
def evtWord : SWord := ⟨0, 0, 0, .evt ⟨0, 0, false, false, 0⟩ 200 1, .queued, [], [], 0, [], false, 0, 0, false, []⟩
/-- A command of session 0, QUEUE_CLOSE. -/
def closeCmd : Cmd := ⟨0, 1, 0, 2, false, [], [], some (.queueClose 5), 0, false, false, [], [], 0, 0, 0, 0, 0, 0⟩

/-- Premises of StepRunsDecodedInstruction for a word, a command, an event and a pause. -/
theorem test_witness_StepRunsDecodedInstruction_listed : State.reset.halted = false ∧
    tfind ({ State.reset with sched := [.word 3], words := [(3, evtWord)] } : State).words 3 = some evtWord ∧
    tfind ({ State.reset with sched := [.command 4], cmds := [(4, closeCmd)] } : State).cmds 4 = some closeCmd ∧ closeCmd.instr = some (.queueClose 5) ∧
    isEvent (.mastLinkError) = true ∧ ({ State.reset with sched := [.event .mastLinkError] } : State).sched = [.event .mastLinkError] ∧
    isEvent (.attest []) = true ∧ ({ State.reset with sched := [.message 1 (.attest [])] } : State).sched = [.message 1 (.attest [])] ∧
    ({ State.reset with sched := [.advance 5] } : State).sched = [.advance 5] := by decide +kernel

/-- A byte and a word of 0x0300_0000_0000, written, read back; the next word still reads as before (R11, R69). -/
theorem test_memory_bytes : ((State.reset.mem.setWord 0x30000000000 ⟨true, 0x12345678⟩).byte 0x30000000001) = 0x56 ∧
    (State.reset.mem.setWord 0x30000000000 ⟨true, 0x12345678⟩).word 0x30000000004 = State.reset.mem.word 0x30000000004 ∧
    (State.reset.mem.setFe 0x30000000010 true).fe 0x3000000001F = true := by decide +kernel

/-- A plot whose slot 0 has two flits waiting. -/
def twoFlits : State := (regs [(4, wv 7)]).modPlot 0 fun p => { p with fifo := [⟨0, 0, wv 1, 5, 0, 0⟩, ⟨0, 0, wv 2, 5, 0, 0⟩] }

/-- Premises of RegisterAccess: an ordinary destination, and two flits at the head of the FIFO. -/
theorem test_witness_RegisterAccess : (3 : GReg) ≠ 0 ∧ (3 : GReg) ≠ 30 ∧ (3 : GReg) ≠ 31 ∧
    twoFlits.flits 0 0 = [⟨0, 0, wv 1, 5, 0, 0⟩, ⟨0, 0, wv 2, 5, 0, 0⟩] ∧ twoFlits.reads [31, 4] = [wv 1, wv 7] := by decide +kernel

/-- Registers with -7 in g4 and 2 in g5, 3 in g6. -/
def two : State := regs [(4, .ofWord (-7)), (5, wv 2), (6, wv 3)]

/-- Premises of IntegerResults, ImmediateResults, LoadImmediateResults, ShiftAndBitResults, AddressResults: operands valid, nothing to wait for,
for an ordinary destination, a source that is the destination, g30 and g0. -/
theorem test_witness_IntegerResults : (∀ d ∈ ([3, 4, 30, 0] : List GReg), two.mayIssue [4, 5] [d] ∧
      isOk ((two.afterReads [4, 5]).writeG d (wv 1)) = true ∧ two.mayIssue [4] [d] ∧ two.mayIssue [] [d] ∧ isOk (two.writeG d (wv 1)) = true ∧
      isOk ((two.afterReads [4]).writeG d (wv 1)) = true) ∧
    two.reads [4, 5] = [.ofWord (-7), .ofWord 2] ∧ two.reads [4] = [.ofWord (-7)] ∧ two.mayIssue [4, 5, 6] [6] ∧ two.reads [4, 5, 6] = [.ofWord (-7), .ofWord 2, .ofWord 3] ∧
    isOk ((two.afterReads [4, 5, 6]).writeG 6 (wv 1)) = true := by unfold State.mayIssue; decide +kernel

/-- DIV truncates toward zero and REM takes the dividend's sign; -2^63 / -1 is -2^63 (R308). -/
theorem test_div : (after (exec (.div 3 4 5) two)).cur.gReg 0 3 = .ofWord (-3) ∧ (after (exec (.rem 3 4 5) two)).cur.gReg 0 3 = .ofWord (-1) ∧
    (after (exec (.div 3 4 5) (regs [(4, .ofWord 0x8000000000000000), (5, .ofWord (-1))]))).cur.gReg 0 3 = .ofWord 0x8000000000000000 := by
  decide +kernel

/-- Premises of ImmediateResults: a valid source, the destination that source, g30 and another. -/
theorem test_witness_ImmediateResults : (∀ d ∈ ([3, 4, 30] : List GReg), two.mayIssue [4] [d] ∧ isOk ((two.afterReads [4]).writeG d (wv 1)) = true) ∧
    two.reads [4] = [.ofWord (-7)] := by unfold State.mayIssue; decide +kernel

/-- Premises of MemoryReadAfterWrite: word addresses, where a word written is read and its neighbour is not changed. -/
theorem test_witness_MemoryReadAfterWrite : 4 % 4 = 0 ∧ 8 % 4 = 0 ∧ (State.reset.mem.setWord 4 ⟨true, 9⟩).word 4 = ⟨true, 9⟩ ∧
    (State.reset.mem.setWord 4 ⟨true, 9⟩).word 8 = State.reset.mem.word 8 := by decide +kernel

/-- AND with the immediate 0xFFF0 keeps the high bits of g4, and SLTZ compares with the extended immediate as unsigned (R37). -/
theorem test_immediate : (after (exec (.andImm 3 4 0xFFF0) two)).cur.gReg 0 3 = .ofWord (-16) ∧
    (after (exec (.sltzImm 3 5 0xFFFF) two)).cur.gReg 0 3 = wv 1 := by decide +kernel

/-- LI.H keeps the low half; the next instruction is 8 bytes on (R36). -/
theorem test_li_h : (after (exec (.liH 4 0x89ABCDEF) two)).cur.gReg 0 4 = .ofWord 0x89ABCDEFFFFFFFF9 ∧ (after (exec (.liH 4 0x89ABCDEF) two)).cur.pc = 8 := by
  decide +kernel

/-- Premises of LoadImmediateResults for LI.H of a valid and of an invalid register. -/
theorem test_witness_LoadImmediateResults : two.mayIssue [4] [4] ∧ two.reads [4] = [.ofWord (-7)] ∧ isOk ((two.afterReads [4]).writeG 4 (wv 1)) = true ∧
    (regs [(4, bad 3)]).mayIssue [4] [4] ∧ (regs [(4, bad 3)]).reads [4] = [bad 3] ∧ isOk (((regs [(4, bad 3)]).afterReads [4]).writeG 4 (bad 3)) = true := by
  unfold State.mayIssue; decide +kernel

/-- Premises of ShiftAndBitResults for CLZ, CTZ, POPC and BREV: 0, where CLZ and CTZ give 64, and 1 with the results 63, 0, 1 and 2^63. -/
theorem test_witness_ShiftAndBitResults : (regs [(4, wv 0)]).mayIssue [4] [3] ∧ (regs [(4, wv 0)]).reads [4] = [.ofWord 0] ∧
    (regs [(4, wv 1)]).mayIssue [4] [3] ∧ (regs [(4, wv 1)]).reads [4] = [.ofWord 1] ∧
    (∀ n ∈ [0, 1, 63, 64, 0x8000000000000000], isOk (((regs [(4, wv 1)]).afterReads [4]).writeG 3 (wv n)) = true) ∧
    (∀ j ∈ List.range 64, (0 : Word).getLsbD j = false) ∧ (1 : Word).getLsbD 0 = true ∧ (∀ j ∈ List.range 63, (1 : Word).getLsbD (1 + j) = false) ∧
    ((List.range 64).filter (1 : Word).getLsbD).length = 1 ∧ (∀ k ∈ List.range 64, (0x8000000000000000 : Word).getLsbD (63 - k) = (1 : Word).getLsbD k) := by
  unfold State.mayIssue; decide +kernel

/-- CLZ of 0 is 64, SAR by 100 of -7 is -1, SHL by 64 is 0 (R311). -/
theorem test_shift : (after (exec (.clz 3 4) (regs [(4, wv 0)]))).cur.gReg 0 3 = wv 64 ∧
    (after (exec (.sar 3 4 5) (regs [(4, .ofWord (-7)), (5, wv 100)]))).cur.gReg 0 3 = .ofWord (-1) ∧
    (after (exec (.shl 3 4 5) (regs [(4, wv 1), (5, wv 64)]))).cur.gReg 0 3 = wv 0 := by decide +kernel

/-- Position 4 and length 8 in g5. -/
def fieldRegs : State := regs [(4, wv 0xABCD), (5, wv 0x0804), (6, wv 0xFFFF)]

/-- Premises of FieldInstructions: BEXT, BINS, BINS with an invalid operand. -/
theorem test_witness_FieldInstructions : fieldRegs.mayIssue [4, 5] [3] ∧ fieldRegs.reads [4, 5] = [.ofWord 0xABCD, .ofWord 0x0804] ∧
    (∀ j ∈ List.range 64, (0xBC : Word).getLsbD j = (decide (j < min ((0x0804 : Word).extractLsb' 8 7).toNat 64) &&
      (0xABCD : Word).getLsbD (j + ((0x0804 : Word).extractLsb' 0 6).toNat))) ∧ isOk ((fieldRegs.afterReads [4, 5]).writeG 3 (wv 0xBC)) = true ∧
    fieldRegs.mayIssue [4, 5, 6] [6] ∧ fieldRegs.reads [4, 5, 6] = [.ofWord 0xABCD, .ofWord 0x0804, .ofWord 0xFFFF] ∧
    (∀ j ∈ List.range 64, (0xFCDF : Word).getLsbD j = (if 4 ≤ j ∧ j < 12 then (0xABCD : Word).getLsbD (j - 4) else (0xFFFF : Word).getLsbD j)) ∧
    isOk ((fieldRegs.afterReads [4, 5, 6]).writeG 6 (wv 0xFCDF)) = true ∧
    (regs [(4, wv 1), (5, bad 2), (6, bad 1)]).mayIssue [4, 5, 6] [6] ∧
    ((regs [(4, wv 1), (5, bad 2), (6, bad 1)]).reads [4, 5, 6]).find? (fun v => !v.valid) = some (bad 2) ∧
    isOk (((regs [(4, wv 1), (5, bad 2), (6, bad 1)]).afterReads [4, 5, 6]).writeG 6 ⟨false, payloadOf (bad 2)⟩) = true := by
  unfold State.mayIssue; decide +kernel

/-- Row 1, column 2, pitch 3, row count 2; and row 2, which is not below the row count. -/
def idxRegs : State := regs [(4, wv 0x0000000200000001), (5, wv 0x0000000200000003), (6, wv 0x0000000200000002)]

/-- Premises of AddressResults: IDX2 inside and outside its table. -/
theorem test_witness_AddressResults : idxRegs.mayIssue [4, 5] [3] ∧ idxRegs.reads [4, 5] = [.ofWord 0x0000000200000001, .ofWord 0x0000000200000003] ∧
    (0x0000000200000001 : Word).extractLsb' 0 32 < (0x0000000200000003 : Word).extractLsb' 32 32 ∧
    (0x0000000200000001 : Word).extractLsb' 32 32 < (0x0000000200000003 : Word).extractLsb' 0 32 ∧
    isOk ((idxRegs.afterReads [4, 5]).writeG 3 (wv 20)) = true ∧
    (0x0000000200000003 : Word).extractLsb' 32 32 ≤ (0x0000000200000002 : Word).extractLsb' 0 32 ∧
    (after (exec (.idx2 3 4 5 2) idxRegs)).cur.gReg 0 3 = wv 20 ∧ ((after (exec (.idx2 3 6 5 2) idxRegs)).cur.gReg 0 3).valid = false := by
  unfold State.mayIssue; decide +kernel

/-- Premises of InvalidOperandPropagates: ADD with an invalid second operand, SEL with an invalid condition. -/
theorem test_witness_InvalidOperandPropagates : (Instr.add 3 4 5).arithRegs = some ([4, 5], 3) ∧ (regs [(4, wv 1), (5, bad 2)]).mayIssue [4, 5] [3] ∧
    ((regs [(4, wv 1), (5, bad 2)]).reads [4, 5]).find? (fun x => !x.valid) = some (bad 2) ∧
    isOk (((regs [(4, wv 1), (5, bad 2)]).afterReads [4, 5]).writeG 3 ⟨false, payloadOf (bad 2)⟩) = true ∧
    (regs [(4, wv 1), (5, bad 2), (6, bad 1)]).mayIssue [4, 5, 6] [6] ∧ (regs [(4, wv 1), (5, bad 2), (6, bad 1)]).reads [4, 5, 6] = [wv 1, bad 2, bad 1] ∧
    isOk (((regs [(4, wv 1), (5, bad 2), (6, bad 1)]).afterReads [4, 5, 6]).writeG 6 ⟨false, payloadOf (bad 1)⟩) = true := by
  unfold State.mayIssue; decide +kernel

/-- Premises of IntegerResults for a divisor of zero: a valid and an invalid dividend. -/
theorem test_witness_IntegerResults_zero : (regs [(4, wv 9), (5, wv 0)]).mayIssue [4, 5] [3] ∧ (regs [(4, wv 9), (5, wv 0)]).reads [4, 5] = [.ofWord 9, .ofWord 0] ∧
    (bad 2).valid = false ∧ (regs [(4, bad 2), (5, wv 0)]).mayIssue [4, 5] [3] ∧ (regs [(4, bad 2), (5, wv 0)]).reads [4, 5] = [bad 2, .ofWord 0] ∧
    isOk (((regs [(4, bad 2), (5, wv 0)]).afterReads [4, 5]).writeG 3 ⟨false, payloadOf (bad 2)⟩) = true := by unfold State.mayIssue; decide +kernel

/-- Premises of FloatArithmetic: a code that is a number, an infinity and a NaN; 1.5 and -2 as numbers; a product that is out of range and one that is
not, with sat and without; a positive, a negative and a zero operand; 2^3 and its logarithm. -/
theorem test_witness_FloatArithmetic : (floatValue 2 0x3F800000).isSome = true ∧ floatValue 2 0x7F800000 = none ∧ floatValue 2 0x7F800001 = none ∧ floatValue 5 0x7F = none ∧
    (Machine.Num.fin false 3 (-1)).value = some (3 / 2) ∧ (Machine.Num.fin true 1 1).value = some (-2) ∧ (Machine.Num.fin false 0 0).value = some 0 ∧
    (roundFloat 4 0 false false 1 16 false).2 &&& (fOverflow ||| fSat) ≠ 0 ∧ (roundFloat 4 0 true true 1 16 false).2 &&& (fOverflow ||| fSat) ≠ 0 ∧
    (roundFloat 4 0 false false 1 15 false).2 &&& (fOverflow ||| fSat) = 0 ∧ (roundFloat 4 0 false false 2049 0 false).2 &&& fInexact ≠ 0 ∧
    (Machine.Num.fin false 3 0).value = some ((3 : Int) : Rat) ∧ (Machine.Num.fin false 1 3).value = some ((2 : Rat) ^ (3 : Int)) := by
  refine ⟨by decide +kernel, by decide +kernel, by decide +kernel, by decide +kernel, ?_, ?_, ?_, by decide +kernel, by decide +kernel, by decide +kernel, by decide +kernel, ?_, ?_⟩ <;>
    norm_num [Machine.Num.value]
/-- A quotient is rounded once (R289): 1/3 to nearest; the root of 2; 2^16 over the range of FP16 is its infinity, or under sat its largest number (R64). -/
theorem test_float : (match divLane 2 0 false (.fin false 1 0) (.fin false 3 0) with
    | (.ok b, _) => b
    | _ => 0) = 0x3EAAAAAB ∧ (match sqrtLane 2 0 false (.fin false 2 0) with
    | (.ok b, _) => b
    | _ => 0) = 0x3FB504F3 ∧ (roundFloat 4 0 false false 1 16 false).1 = 0x7C00 ∧ (roundFloat 4 0 true false 1 16 false).1 = 0x7BFF := by decide +kernel

/-- Premises of RegisterFormFrame. -/
theorem test_witness_RegisterFormFrame : (Instr.sel 6 4 5).regForm = some ([4, 5, 6], 6) ∧ isNext (exec (.sel 6 4 5) two) = true := by decide +kernel

/-- A slot with a handler at 0x100, and one that is in it. -/
def withVec : State := slot0 fun x => { x with tvec := 0x100, pc := 0x40 }
/-- As withVec, in the handler. -/
def inHandler : State := slot0 fun x => { x with tvec := 0x100, tcause := 0x151 }

/-- Premises of TrapEntry: a slot with a handler, one without, and one in its handler. -/
theorem test_witness_TrapEntry : withVec.cur.ih = false ∧ withVec.cur.tvec ≠ 0 ∧ State.reset.cur.ih = false ∧ State.reset.cur.tvec = 0 ∧ inHandler.cur.ih = true := by
  decide +kernel

/-- TRAP 5 at 0x40 saves 0x44, cause 0x151 and the code (R389, R399). -/
theorem test_trap : (after (exec (.trap 5) withVec)).cur.tepc = 0x44 ∧ (after (exec (.trap 5) withVec)).cur.tcause = 0x151 ∧
    (after (exec (.trap 5) withVec)).cur.tval = 5 ∧ (after (exec (.trap 5) withVec)).cur.pc = 0x100 := by decide +kernel

/-- Premises of BranchResults: valid operands of both orders, one operand of either validity, an invalid second operand. -/
theorem test_witness_BranchResults : two.mayIssue [4, 5] [] ∧ two.reads [4, 5] = [.ofWord (-7), .ofWord 2] ∧ two.mayIssue [4, 4] [] ∧
    two.reads [4, 4] = [.ofWord (-7), .ofWord (-7)] ∧ two.mayIssue [4] [] ∧ two.reads [4] = [.ofWord (-7)] ∧
    (regs [(5, bad 2)]).mayIssue [5] [] ∧ (regs [(5, bad 2)]).reads [5] = [bad 2] ∧ (regs [(4, wv 1), (5, bad 2)]).mayIssue [4, 5] [] ∧
    ((regs [(4, wv 1), (5, bad 2)]).reads [4, 5]).find? (fun x => !x.valid) = some (bad 2) := by unfold State.mayIssue; decide +kernel

/-- BEQ with offset -3 at 0 goes 12 bytes back when it is taken (R29, R315). -/
theorem test_branch : (after (exec (.beq 4 4 0xFFFD) two)).cur.pc = -12 ∧ (after (exec (.beq 4 5 0xFFFD) two)).cur.pc = 4 := by decide +kernel

/-- Premises of JumpResults: JAL, and JR with a target that is a multiple of 4, one that is not, and an invalid one. -/
theorem test_witness_JumpResults : two.blocked [] [29] = false ∧ isOk (two.writeG 29 (.ofWord (two.cur.pc + 4))) = true ∧
    isOk (two.writeG 29 (.ofWord (two.cur.pc + 8))) = true ∧
    (∀ v ∈ [wv 0x1000, wv 0x1002, bad 1], (regs [(29, v)]).mayIssue [29] [0] ∧ (regs [(29, v)]).reads [29] = [v]) ∧
    (wv 0x1000).valid = true ∧ (wv 0x1000).bits.toNat % 4 = 0 ∧ isOk (((regs [(29, wv 0x1000)]).afterReads [29]).writeG 0 (wv 4)) = true ∧
    (wv 0x1002).valid = true ∧ (wv 0x1002).bits.toNat % 4 ≠ 0 ∧ (bad 1).valid = false := by unfold State.mayIssue; decide +kernel

/-- JR whose link register is its target register reads the target first (R318). -/
theorem test_jr_link : (after (exec (.jr 29 29) (regs [(29, wv 0x1000)]))).cur.pc = 0x1000 ∧
    (after (exec (.jr 29 29) (regs [(29, wv 0x1000)]))).cur.gReg 0 29 = wv 4 := by decide +kernel

/-- An inner body that ends at 0x30. -/
def inLoop : State := slot0 fun x => { x with g := [(5, wv 4), (6, wv 0)], pc := 0x10, loops := [⟨0x10, 0x30, 2⟩] }

/-- Premises of LoopAndYield: a body that ends with the innermost one, a count of 0, a body that ends beyond it, and YIELD with and without reads under way. -/
theorem test_witness_LoopAndYield : inLoop.mayIssue [5] [] ∧ inLoop.reads [5] = [.ofWord 4] ∧ inLoop.cur.ih = false ∧ (4 : Word).extractLsb' 0 32 ≠ 0 ∧
    (inLoop.cur.loops.length < 4 ∧ inLoop.cur.loops.head? = some ⟨0x10, 0x30, 2⟩ ∧ inLoop.cur.pc + 4 * (8 : BitVec 16).signExtend 64 ≤ 0x30) ∧
    inLoop.mayIssue [6] [] ∧ inLoop.reads [6] = [.ofWord 0] ∧ (0 : Word).extractLsb' 0 32 = 0 ∧
    ¬ (inLoop.cur.pc + 4 * (9 : BitVec 16).signExtend 64 ≤ 0x30) ∧
    inLoop.cur.cntld = 0 ∧ (slot0 fun x => { x with cntld := 1 }).cur.cntld ≠ 0 := by unfold State.mayIssue; decide +kernel

/-- Premises of SequentialCompletion: last words of both kinds, a word before the last, and both handler states. -/
theorem test_witness_SequentialCompletion : (⟨0x10, 0x30, 2⟩ : LoopEnt).last = 0x30 ∧ (8 = 8 ∧ (⟨0x10, 0x30, 2⟩ : LoopEnt).last = (0x2C : Word) + 4) ∧
    (⟨0x10, 0x30, 2⟩ : LoopEnt).last ≠ 0x20 ∧ inLoop.cur.ih = false ∧ inHandler.cur.ih = true := by decide +kernel

/-- The last pass of a loop falls through and pops its entry; an earlier pass goes back to the first word (R320). -/
theorem test_loop_end : loopSeq 0x30 4 [⟨0x10, 0x30, 1⟩] = (0x34, []) ∧ loopSeq 0x30 4 [⟨0x10, 0x30, 2⟩] = (0x10, [⟨0x10, 0x30, 1⟩]) := by decide +kernel

/-- As slot0, with the translation of address 0 to the staging area of die 0. -/
def mapped (f : Slot → Slot) : State := (slot0 f).modPlot 0 fun p => { p with tlb := [placedEntry] }
/-- An address of the plot's own scratchpad in g4, a value in g5, another in g6, FP32 words in v1. -/
def memRegs : State := mapped fun x => { x with g := [(4, wv 0x30000000100), (5, wv 7), (6, wv 9)], v := [(1, ⟨2, 0xFFFF, 0⟩)] }
/-- The identity mapping of the scratchpads (R155). -/
def spad : Tlb := (windowEntry 0x30000000100).getD placedEntry
/-- Address 0x100 in g4, in a page that may be neither read nor written, and one that lies in unbacked storage. -/
def noPage (r w : Bool) (pa : BitVec 48) : State := (mapped fun x => { x with g := [(4, wv 0x100), (5, wv 7)] }).modPlot 0 fun p => { p with tlb := [⟨0, true, false, 0, pa, false, true, true, w, r⟩] }

/-- Premises of LoadsIssue: each kind of read at g4, the displacement at both ends of what keeps it in the page. -/
theorem test_witness_LoadsIssue : (6 : BitVec 3).toNat < 7 ∧ memRegs.memReady [4] [7] [] [] [] ∧ memRegs.memReady [4] [] [2] [] [] ∧ memRegs.memReady [4] [] [] [1] [] ∧
    memRegs.reads [4] = [.ofWord 0x30000000100] ∧ (0x30000000100 : Word) + ((-32 : BitVec 9).signExtend 64) <<< 3 = 0x30000000000 ∧ (0x30000000100 : Word) + (0xFFFFFFF8 : BitVec 32).signExtend 64 = 0x300000000F8 ∧
    memRegs.accessOk (.ld 8 false) 0 0x30000000000 spad ∧ memRegs.accessOk (.ld 8 false) 0 0x300000000F8 spad ∧ memRegs.accessOk (.ldv 0) 0 0x30000000100 spad ∧
    memRegs.accessOk .feq 0 0x30000000100 spad ∧ memRegs.accessOk (.ldfe true) 0 0x30000000100 spad ∧ memRegs.accessOk .sqld 0 0x30000000100 spad := by
  unfold State.memReady State.accessOk; decide +kernel

/-- Premises of StoresIssue: each kind of store, STV with a matching, a zero and another format code. -/
theorem test_witness_StoresIssue : (3 : BitVec 3).toNat < 4 ∧ memRegs.memReady [4, 5] [] [] [] [] ∧ memRegs.reads [4, 5] = [.ofWord 0x30000000100, wv 7] ∧
    memRegs.accessOk (.st 8) 0 0x30000000000 spad ∧ memRegs.accessOk (.st 8) 0 0x300000000F8 spad ∧ (∀ l ∈ [[((2 : BitVec 3), (1 : BitVec 5))], [(2, 1), (4, 1)]], memRegs.memReady [4] [] [1] [] l) ∧ memRegs.reads [4] = [.ofWord 0x30000000100] ∧
    memRegs.accessOk .stv 0 0x30000000100 spad ∧ (memRegs.vGet 1).tag.extractLsb' 0 4 = 2 ∧ (3 : BitVec 4) ≠ 0 ∧ (memRegs.vGet 1).tag.extractLsb' 0 4 ≠ 3 ∧
    memRegs.accessOk .stfe 0 0x30000000100 spad ∧ memRegs.accessOk (.red 0 true) 0 0x30000000100 spad ∧ memRegs.memReady [4] [] [] [] [] ∧
    memRegs.accessOk (.feset true) 0 0x30000000100 spad := by unfold State.memReady State.accessOk; decide +kernel

/-- Premises of AtomicsIssue. -/
theorem test_witness_AtomicsIssue : memRegs.memReady [4, 5] [7] [] [] [] ∧ memRegs.reads [4, 5] = [.ofWord 0x30000000100, wv 7] ∧
    memRegs.accessOk (.amo 0 true) 0 0x30000000100 spad ∧ memRegs.memReady [4, 5, 6] [6] [] [] [] ∧ memRegs.reads [4, 5, 6] = [.ofWord 0x30000000100, wv 7, wv 9] ∧
    memRegs.accessOk (.amo 9 false) 0 0x30000000100 spad ∧ memRegs.blocked [4] [] = false ∧
    (slot0 fun x => { x with bad := [(0, 4, 0)] }).badReg [(0, 4)] ≠ none ∧ (slot0 fun x => { x with bad := [(0, 4, 0)] }).blocked [4] [] = false := by
  unfold State.memReady State.accessOk; decide +kernel

/-- An ST waits in the queue of requests with the value of its register; memory is as before (R180). -/
theorem test_store_issue : ((after (exec (.st 5 4 0 false 3 1) memRegs)).reqs.map fun r => (r.2.op, r.2.pa, r.2.val)) = [(.st 8, 0x30000000108, wv 7)] ∧
    (after (exec (.st 5 4 0 false 3 1) memRegs)).cur.cntst = 1 ∧ (after (exec (.st 5 4 0 false 3 1) memRegs)).mem = memRegs.mem := by decide +kernel

/-- Premises of MemoryInstructionChecks, one clause each: an invalid base, a misaligned one, a page without the permission, unbacked DRAM. -/
theorem test_witness_MemoryInstructionChecks : (mapped fun x => { x with g := [(4, bad 1), (5, wv 7)] }).memReady [4] [7] [] [] [] ∧
    (mapped fun x => { x with g := [(4, bad 1), (5, wv 7)] }).reads [4] = [bad 1] ∧ (bad 1).valid = false ∧
    (mapped fun x => { x with g := [(4, bad 1), (5, wv 7)] }).memReady [4, 5] [] [] [] [] ∧ (mapped fun x => { x with g := [(4, bad 1), (5, wv 7)] }).reads [4, 5] = [bad 1, wv 7] ∧
    (mapped fun x => { x with g := [(4, wv 0x101)] }).memReady [4] [7] [] [] [] ∧ (mapped fun x => { x with g := [(4, wv 0x101)] }).reads [4] = [wv 0x101] ∧
    (0x101 + ((1 : BitVec 9).signExtend 64 : Word) <<< 3).toNat % 8 ≠ 0 ∧
    (noPage false false 0x200FC000000).memReady [4] [7] [] [] [] ∧ canonical 0x108 = true ∧
    (noPage false false 0x200FC000000).lookup 0 0x108 = some ⟨0, true, false, 0, 0x200FC000000, false, true, true, false, false⟩ ∧
    (noPage true true 0x10000).memReady [4, 5] [] [] [] [] ∧ (noPage true true 0x10000).lookup 0 0x108 = some ⟨0, true, false, 0, 0x10000, false, true, true, true, true⟩ ∧
    (noPage true true 0x10000).backed 0x10108 = false ∧ ctrlListed 0x10108 = false := by unfold State.memReady; decide +kernel

/-- A request of slot 0 of plot 0, issued, to the staging area of die 0. -/
def rq (op : Op) (v : Val) : Req := ⟨0, 0, op, .none, 0, false, false, 0x100, 0x200FC000100, 0, v, wv 5, List.replicate 16 ⟨true, 3⟩, List.replicate 8 0, .issued, [], false, 0, 0, 0, 0, false, false, 0⟩
/-- One request under way. -/
def one (r : Req) : State := { mapped (fun x => { x with cntst := 1, cntld := 1 }) with reqs := [(3, r)] }

/-- Premises of StoresPerform for each size of store, STV, STFE and FESET. -/
theorem test_witness_StoresPerform : (∀ op ∈ [Op.st 8, .st 4, .st 2, .st 1, .stv, .stfe, .feset true], (one (rq op (wv 7))).homeReady 3 (rq op (wv 7)) = true) ∧
    (rq .stv (wv 7)).pa.toNat < 0xF0000000000 ∧ (rq .stv (wv 7)).pa.toNat % 8 = 0 ∧ (rq .stv (wv 7)).vec.length = 16 ∧
    tfind (one (rq .stv (wv 7))).reqs 3 = some (rq .stv (wv 7)) ∧ (one (rq .stfe (wv 7))).feWaiter ((rq .stfe (wv 7)).pa.toNat / 16) = none := by decide +kernel

/-- A fill of the granule 0x100 of the scratchpad of plot 0, for which an LDFE of slot 1 has waited since its arrival 4 (and one of slot 2 since 5). -/
def filling (c : Bool) : State :=
  let a (op : Op) (k n : Nat) : Req := { rq op (wv 7) with slot := k, va := 0x30000000100, pa := 0x30000000100, arr := n, dest := .g 5, retained := k != 0, acq := k != 0 }
  { mapped (fun x => { x with cntst := 1 }) with reqs := [(3, a .stfe 0 0), (4, a (.ldfe c) 1 4), (5, a (.ldfe c) 2 5)], mem := State.reset.mem.setFe 0x30000000100 false }
/-- Premises of StoresPerform for a fill with waiters, at the lowest granule of a window. -/
theorem test_witness_StoresPerform_fill : ∀ c ∈ [true, false], (tfind (filling c).reqs 3).any (fun r => r.op == .stfe && (filling c).homeReady 3 r &&
      ((filling c).feWaiter (r.pa.toNat / 16)).any (fun e => e.1 == 4 && e.2.op == .ldfe c) && window r.pa.toNat == .plot 0 0x100 &&
      !(filling c).mem.fe ((filling c).place r.pa.toNat)) = true := by decide +kernel
/-- The LDFE.clr that waited longest empties the granule again; LDFEs without it are both served and leave it full (R193, R194). -/
theorem test_fill : (let t := after (exec (.storePerform 3) (filling true)); (t.mem.fe 0x30000000100, t.reqs.map fun e => (e.1, e.2.stage == .issued)) = (false, [(4, false), (5, true)])) ∧
    (let t := after (exec (.storePerform 3) (filling false)); (t.mem.fe 0x30000000100, t.reqs.map fun e => (e.1, e.2.stage == .issued)) = (true, [(4, false), (5, false)])) := by
  decide +kernel

/-- An 8-byte store of an invalid register makes both words invalid with its payload (R183). -/
theorem test_store_invalid : (after (exec (.storePerform 3) (one (rq (.st 8) (bad 9))))).mem.word 0x200FC000104 = ⟨false, payloadBits 6 0 9⟩ ∧
    (after (exec (.storePerform 3) (one (rq (.st 8) (wv 0x1122334455667788))))).mem.byte 0x200FC000107 = 0x11 ∧
    (after (exec (.storePerform 3) (one (rq (.st 8) (wv 7))))).cur.cntst = 0 := by decide +kernel

/-- An outstanding operation on a word that holds 5. -/
def five (r : Req) : State := { one r with mem := State.reset.mem.setWord 0x200FC000100 ⟨true, 5⟩ }

/-- Premises of AtomicsPerform: an AMADD, an AMCAS and a RED. -/
theorem test_witness_AtomicsPerform : (∀ op ∈ [Op.amo 0 false, .amo 9 false, .red 0 false], let s := five (rq op (wv 7))
      tfind s.reqs 3 = some (rq op (wv 7)) ∧ s.homeReady 3 (rq op (wv 7)) = true ∧ s.covers 0 (List.replicate 8 0) 8 = true ∧
      s.expired 0x200FC000100 = false ∧ s.backed 0x200FC000100 = true ∧ s.memWord 0x200FC000100 = ⟨true, 5⟩) ∧
    (rq (.amo 9 false) (wv 7)).retained = false ∧ (rq (.amo 9 false) (wv 7)).acq = false ∧ (rq (.amo 9 false) (wv 7)).cmp.valid = true := by decide +kernel

/-- AMCAS on an equal value stores; AMMIN is signed and AMMINZ not (R196). -/
theorem test_atomics : (after (exec (.amoPerform 3) (five (rq (.amo 9 false) (wv 7))))).mem.word 0x200FC000100 = ⟨true, 7⟩ ∧
    (after (exec (.amoPerform 3) (five (rq (.amo 1 false) (.ofWord (-1)))))).mem.word 0x200FC000100 = ⟨true, 0xFFFFFFFF⟩ ∧
    (after (exec (.amoPerform 3) (five (rq (.amo 3 false) (.ofWord (-1)))))).mem.word 0x200FC000100 = ⟨true, 5⟩ := by decide +kernel

/-- An answered request. -/
def answeredReq (op : Op) (d : Dest) (resp : List W32) : Req := { rq op .zero with dest := d, stage := .served, resp := resp }
/-- A request answered by another die. -/
def merging : Req := { rq (.ld 4 true) .zero with stage := .answering [0, 5, 0, 0, 0, 0, 0, 0], resp := [⟨true, 1⟩] }

/-- A session with 64 bytes of registered memory, and an instance of it on plot 0. -/
def sess : Session := ⟨0x1111111111111111, 0x100000, 64, 5, 30, true, [(1, 0)], [(0, 0x2A)], none⟩
/-- An instance of session 0 on plots 0 and 1. -/
def inst : Inst := ⟨0, 0x77, none, 0, false, [0, 1, 2, 3, 4, 5, 6, 7], 0, 0, [0, 1], [], [], none, false, .running, 0, [], []⟩
/-- Premises of ReadsAreServed, one clause each. -/
theorem test_witness_ReadsAreServed : (let s := one (rq (.ld 4 true) .zero); let r := rq (.ld 4 true) .zero
      tfind s.reqs 3 = some r ∧ r.unit = dieOf r.plot ∧ r.unit ≠ 16 ∧ r.retained = false ∧ r.acq = false ∧ s.l1Line r = none ∧ s.mayGo 3 r false = true ∧
      s.firstInStream 3 r = true ∧ s.covers r.unit r.stamp 8 = true ∧ s.isRemoved r.unit = false ∧ s.justWritten r.pa.toNat = false) ∧
    (one merging).plotRuns 0 = true ∧ ({ (one merging).modPlot 0 (fun p => { p with inst := some 0 }) with insts := [(0, { inst with saved := .saved })] } : State).plotRuns 0 = false ∧
    tfind (one (answeredReq (.ld 4 true) (.g 7) [⟨true, 1⟩])).reqs 3 = some (answeredReq (.ld 4 true) (.g 7) [⟨true, 1⟩]) ∧
    (answeredReq .sqld (.q 1) [⟨true, 1⟩, ⟨false, 2⟩]).resp.find? (fun w => !w.valid) = some ⟨false, 2⟩ ∧
    tfind (one merging).reqs 3 = some merging := by decide +kernel

/-- LD of a signed word extends its sign; an invalid word makes the register invalid (R182, R188). -/
theorem test_load : ((after (exec (.loadComplete 3) (one (answeredReq (.ld 4 true) (.g 7) [⟨true, 0x80000000⟩])))).cur.gReg 0 7) = .ofWord 0xFFFFFFFF80000000 ∧
    ((after (exec (.loadComplete 3) (one (answeredReq (.ld 8 false) (.g 7) [⟨true, 1⟩, ⟨false, payloadBits 6 0 9⟩])))).cur.gReg 0 7) = bad 9 := by decide +kernel

/-- The request `r` in a module with that session and instance. -/
def hosted (r : Req) : State := { (one r).modPlot 0 (fun p => { p with inst := some 0 }) with sessions := [(0, sess)], insts := [(0, inst)] }
/-- A request to a host page at an offset. -/
def hostRq (op : Op) (off : BitVec 48) : Req := { rq op (wv 7) with unit := 16, pa := off }
/-- A walk of plot 0 in a module whose table maps the page of 0x10000, and of one that it does not map. -/
def walking (va : Word) (table : Bool) : State := { (mapped id).modPlot 0 (fun p => { p with root := 0x200FC010000 }) with
  walks := [(3, ⟨0, 0, va, 0, none, false, none, 0, List.replicate 8 0, none, W32.zero, 0, false, false⟩)],
  mem := if table then ((State.reset.mem.setWords 0x200FC010000 [⟨true, 0xFC020001⟩, ⟨true, 0x200⟩]).setWords 0x200FC020000
    [⟨true, 0xFC030001⟩, ⟨true, 0x200⟩]).setWords 0x200FC030000 [⟨true, 0x20000007⟩, ⟨true, 0⟩] else State.reset.mem }

/-- A walk's reads may be served. -/
def readsDone : WalkReads → Bool
  | .done _ => true
  | _ => false
/-- The removed die that a walk's reads reach. -/
def readsLost : WalkReads → Option Nat
  | .lost d => some d
  | _ => none
/-- Premises of HostPagesAndWalks: accesses within the registered memory and outside it, a walk that finds no leaf. -/
theorem test_witness_HostPagesAndWalks : (∀ r ∈ [hostRq (.ld 4 true) 60, hostRq (.st 4) 60], let s := hosted r
      tfind s.reqs 3 = some r ∧ s.mayGo 3 r false = true ∧ s.parkedBefore 3 r = false ∧ s.engineBefore 3 r = false ∧ r.rel = false ∧ r.acq = false ∧ s.hostSession 0 = some (0, sess) ∧
      s.hostInside r = true ∧ r.pa.toNat % 4 = 0 ∧ r.val.valid = true) ∧
    (let s := hosted (hostRq (.ld 4 true) 64); s.mayGo 3 (hostRq (.ld 4 true) 64) false = true ∧ s.parkedBefore 3 (hostRq (.ld 4 true) 64) = false ∧
      s.engineBefore 3 (hostRq (.ld 4 true) 64) = false ∧ s.hostInside (hostRq (.ld 4 true) 64) = false ∧ s.parkedAt (walkerSlice 0 0x100) < 64) ∧
    (walking 0x10000 true).walkVa 0 0x10000 ≠ none ∧ (∀ b ∈ [true, false], readsDone ((walking 0x10000 b).walkTables 0 (List.replicate 8 0) 0x10000) = true) ∧
    readsLost (({ walking 0x10000 true with removed := 1 } : State).walkTables 0 (List.replicate 8 0) 0x10000) = some 0 ∧
    tfind (walking 0x10000 false).walks 3 = some ⟨0, 0, 0x10000, 0, none, false, none, 0, List.replicate 8 0, none, W32.zero, 0, false, false⟩ ∧ (walking 0x10000 false).walkVa 0 0x10000 = none ∧
    (walking 0x10000 false).parkedAt (walkerSlice 0 0x10000) < 64 := by decide +kernel

/-- Reads under way in class 3, a count of 2 on arc 9, reads and copies outstanding. -/
def ordering : State := ((slot0 fun x => { x with cntld := 1, cntcp := 2, g := [(4, wv 1)] }).modPlot 0 fun p => { p with arcs := [(9, 2)], l1 := [(5, [])] })
/-- As ordering, with a read of class 3 that has not returned and a store that has not performed. -/
def pending : State := { ordering with reqs := [(1, { rq (.ld 4 true) .zero with oc := 3 }), (2, { rq (.st 4) (wv 7) with oc := 3 })] }

/-- Premises of FenceArcWait: done and not done; the arc counter 0, not 0 and at 255; WAIT at its limits. -/
theorem test_witness_FenceArcWait : ordering.readsDone 0 0 8 = true ∧ ordering.writesDone 0 0 8 2 true = true ∧ pending.readsDone 0 0 8 = false ∧
    pending.writesDone 0 0 8 2 false = false ∧ ordering.blocked [] [7] = false ∧ isOk (ordering.writeG 7 (.ofWord ((ordering.arcCount 0 9).zeroExtend 64))) = true ∧
    ordering.arcCount 0 9 ≠ 0 ∧ ((ordering.arcWaiters 0 9).filter ordering.arcLive).head? = none ∧ (9#8).toNat ∉ (ordering.plotAt 0).owed ∧
    (9#8).toNat ∈ ((ordering.modPlot 0 fun p => { p with owed := [9], arcs := [(9, 255)] }).plotAt 0).owed ∧ ordering.arcCount 0 10 = 0 ∧ ordering.allReleased 3 = true ∧ ordering.arcCount 0 9 ≠ 255 ∧
    ((1 : BitVec 4) = 15 ∨ ordering.cur.cntld.toNat ≤ 1) ∧ ((2 : BitVec 4) = 15 ∨ ordering.cur.cntcp.toNat ≤ 2) ∧ ¬ ((1 : BitVec 4) = 15 ∨ ordering.cur.cntcp.toNat ≤ 1) := by
  decide +kernel

/-- A guidon of kind `k` on plot 1. -/
def guid (k : Nat) : Guidon := ⟨1, 0, k, 0xFFFF, 0, 1, 0, [(false, 0), (false, 1)], 3, 4, [], [], 0, true, [], [], false, 1, 0, [], 5, 0, 0, none, []⟩
/-- An event node with one raise, and one of another die. -/
def evNode : Guidon := { guid 4 with raises := 1 }
/-- An event node without a raise. -/
def evIdle : Guidon := guid 4
/-- An event node on die 1. -/
def evFar : Guidon := { guid 4 with plot := 1025 }
/-- A barrier of slots 0 and 1, at which slot 1 has arrived. -/
def barr : Guidon := { guid 3 with arrived := 2, deadline := some 9 }
/-- A barrier at which no one has arrived. -/
def barr0 : Guidon := guid 3
/-- Slot 0 of plot 0 as actor 0 of an instance with the guidon 200. -/
def guided (g : Guidon) (f : Slot → Slot) : State := { (slot0 fun x => f { x with actor := some (0, 0) }).modPlot 0 (fun p => { p with inst := some 0, l1 := [(5, [])] }) with
  sessions := [(0, sess)],
  insts := [(0, { inst with guidons := [(200, g)], actors := [(0, ⟨0, 0, 1, 0xFFFF, 0, 0, 0xFFFF, [], [], false⟩), (1, ⟨0, 1, 1, 0xFFFF, 0, 0, 0xFFFF, [], [], false⟩)] })] }
/-- With the value 3 in g5. -/
def g5 (n : Nat) (x : Slot) : Slot := { x with g := [(5, wv n)] }

/-- Premises of EventInstructions: nodes on the issuing die and on another, with a raise and without, and a guidon of another kind. -/
theorem test_witness_EventInstructions : (∀ g ∈ [evNode, evIdle, evFar], let s := guided g (g5 3)
      s.blocked [5] [] = false ∧ s.badReg [(0, 5)] = none ∧ s.reads [5] = [.ofWord 3] ∧ s.named 200 4 = .ok (0, g) ∧ s.allReleased 7 = true ∧ s.blocked [] [7] = false) ∧
    dieOf evNode.plot = dieOf 0 ∧ dieOf evFar.plot ≠ dieOf 0 ∧ (guided evNode id).blocked [] [] = false ∧ (guided evNode id).badReg [] = none ∧
    evNode.raises ≠ 0 ∧ evNode.evq.head? = none ∧ evIdle.raises = 0 ∧ (guided barr id).blocked [] [7] = false ∧
    (guided barr id).named 200 4 = .error ⟨0x0A, 200, 0⟩ ∧ (guided evNode fun x => { x with g := [(5, bad 3)] }).reads [5] = [bad 3] ∧
    (guided evNode fun x => { x with g := [(5, bad 3)] }).blocked [5] [] = false ∧ (bad 3).valid = false ∧
    ({ guided evNode (g5 3) with reqs := [(2, rq (.st 4) (wv 7))] } : State).allReleased 7 = false ∧
    ({ evNode with evq := [9, 0] } : Guidon).evq.head? = some 9 ∧ (guided { evNode with evq := [9, 0] } id).named 200 4 = .ok (0, { evNode with evq := [9, 0] }) ∧
    (let s1 := (guided evIdle id).modGuidon 0 200 fun g => { g with count := 2 }; (tfind s1.insts 0).any fun y => y.guidons.all fun h => y.raiseTerm h.2 == none) = true := by
  decide +kernel

/-- EVSIG of 3 on a node at 1 with threshold 4 raises it once (R351). -/
theorem test_evsig : ((after (exec (.evsig 5 200) (guided evIdle (g5 3)))).guidonAt 0 200).map (fun g => (g.count, g.raises)) = some (0, 1) ∧
    ((after (exec (.evwait 7 200) (guided evNode id))).guidonAt 0 200).map (·.raises) = some 0 := by decide +kernel

/-- Premises of BarrierInstructions: the last and the first arrival, an arrival that overruns, BSKIP within and beyond the mask, BWAIT in each state. -/
theorem test_witness_BarrierInstructions : (∀ g ∈ [barr, barr0, { barr0 with arrived := 1 }], let s := guided g (g5 0)
      s.blocked [] [7] = false ∧ s.badReg [] = none ∧ s.named 200 3 = .ok (0, g) ∧ s.cur.actor = some (0, 0) ∧ g.position 0 = some 0 ∧ s.allReleased 7 = true ∧
      dieOf g.plot = dieOf s.focus.plot ∧ s.blocked [5] [] = false ∧ s.badReg [(0, 5)] = none ∧ s.reads [5] = [.ofWord 0]) ∧
    barr.mask.getLsbD 0 = true ∧ barr.arrived.getLsbD 0 = false ∧ barr.skipped.getLsbD 0 = false ∧ (barr.arrived ||| (1 <<< 0) ||| barr.skipped) = barr.mask ∧
    (barr0.arrived ||| (1 <<< 0) ||| barr0.skipped) ≠ barr0.mask ∧ (1 : BitVec 16).getLsbD 0 = true ∧
    (guided barr (g5 16)).reads [5] = [.ofWord 16] ∧ (guided barr (g5 16)).blocked [5] [] = false ∧ 16 ≤ (16 : Word).toNat ∧
    tget barr.gen [] 200 = 5 ∧ (guided barr id).cur.barAbort = none ∧ tget barr.gen [(200, (4 : BitVec 32))] 200 = 4 ∧ barr.gen ≠ 4 ∧
    (guided barr fun x => { x with barAbort := some (200, 5) }).cur.barAbort = some (200, 5) ∧ tfind ((slot0 fun x => { x with arrGen := [(200, 5)] }).cur.arrGen) 200 = some 5 ∧
    dieOf (guid 3).plot = dieOf (guided barr id).focus.plot ∧ (tget 0 ({ barr with plot := 1025, seen := [(0, 6)] } : Guidon).seen 0 - 5).toNat < 2 ^ 31 ∧
    tfind (guided barr id).pnreqs 0 = none ∧ (guided barr (fun x => { x with bwait := some (200, 4) })).cur.bwait = some (200, 4) := by decide +kernel

/-- The barrier on die 1. -/
def barFar : Guidon := { barr with plot := 1025 }
/-- Its premises for a node on another die: a request to be made, and one that is unanswered, answered by a trap and by a generation. -/
theorem test_witness_BarrierInstructions_far : (let s := guided barFar (g5 15)
      s.named 200 3 = .ok (0, barFar) ∧ dieOf barFar.plot ≠ dieOf s.focus.plot ∧ tfind s.pnreqs 0 = none ∧ s.blocked [] [7] = false ∧ s.badReg [] = none ∧
      s.cur.actor = some (0, 0) ∧ barFar.position 0 = some 0 ∧ s.allReleased 7 = true ∧ s.blocked [5] [] = false ∧ s.badReg [(0, 5)] = none ∧
      s.reads [5] = [.ofWord 15] ∧ (15 : Word).toNat < 16) ∧
    (∀ a ∈ [none, some (PnAnswer.trap ⟨0x28, 200, 0⟩), some (.value 5 false)], let r : PnReq := ⟨.arrive 0 200 0 1000, 200, 9, true, false, a, List.replicate 8 0, 0⟩
      tfind ({ guided barFar (g5 15) with pnreqs := [(0, r)] } : State).pnreqs 0 = some r) := by decide +kernel
/-- A far arrival leaves as a request and does not complete; its answer writes the generation (R351, R366). -/
theorem test_barrive_far : (after (exec (.barrive 7 200) (guided barFar id))).cur.pc = 0 ∧ ((after (exec (.barrive 7 200) (guided barFar id))).outs.map (·.2.dst)) = [1] ∧
    (after (exec (.barrive 7 200) { guided barFar id with pnreqs := [(0, ⟨.arrive 0 200 0 1000, 200, 9, true, false, some (.value 5 false), List.replicate 8 0, 0⟩)] })).cur.gReg 0 7 = wv 5 := by
  decide +kernel

/-- The last arrival releases the generation; the arriver reads the old one (R353, R366). -/
theorem test_barrive : ((after (exec (.barrive 7 200) (guided barr id))).guidonAt 0 200).map (fun g => (g.gen, g.arrived)) = some (6, 0) ∧
    (after (exec (.barrive 7 200) (guided barr id))).cur.gReg 0 7 = wv 5 ∧
    (after (exec (.barrive 7 200) (guided barr id))).cur.tcause = 0 := by decide +kernel

/-- A slot of base class 1 and floor 2 with a store that has not performed, and without it. -/
def prioSlot (busy : Bool) : State := { slot0 (fun x => { x with prioFloor := 2, prioBase := 1 }) with reqs := if busy then [(2, rq (.st 4) (wv 7))] else [] }

/-- Premises of PrioInstruction. -/
theorem test_witness_PrioInstruction : (prioSlot true).arrived 0 0 = false ∧ (prioSlot false).arrived 0 0 = true ∧ (guided barr id).blocked [5] [] = false ∧ (guided barr id).badReg [(0, 5)] = none ∧
    ((guided barr id).plotAt 0).inst = some 0 ∧ (∀ e ∈ [(⟨0, 0, 1, 0xFFFF, 0, 0, 0xFFFF, [], [], false⟩ : Actor)], actorKey e = 8 * 0 + 0) ∧
    (tget Slot.init (guided barr id).slots 0).bwait = none := by decide +kernel

/-- A class below the floor takes the floor (R367). -/
theorem test_prio : (after (exec (.prio 1) (prioSlot false))).cur.prioBase = 2 ∧ (after (exec (.prio 3) (prioSlot false))).cur.prioBase = 3 := by decide +kernel

/-- Trigger 31 of plot 0, with four pending firings, and slot 1 with an actor and credits near the limit. -/
def trigs (h : Option (BitVec 3)) : State := { (({ guided barr (fun x => { x with g := [(4, wv 31), (5, wv 1), (6, wv 32), (8, wv 30)] }) with sched := [] }).modPlot 0 fun p =>
    { p with triggers := [(31, ⟨0, 0, 0, 0, 0, 0, h, 4⟩)] }).modSlot 0 1 (fun x => { x with actor := some (0, 1), credits := 0xFFFE }) with sched := [] }

/-- Premises of TriggerInstructions: entry 31 with a handler and without, entry 32, and an entry that is not there. -/
theorem test_witness_TriggerInstructions : (∀ h ∈ [none, some 2], let s := trigs h
      s.blocked [4, 5] [7] = false ∧ s.badReg [(0, 4), (0, 5)] = none ∧ s.reads [4, 5] = [.ofWord 31, .ofWord 1] ∧ s.ownTrigger 31 = .ok ⟨0, 0, 0, 0, 0, 0, h, 4⟩ ∧
      s.hasActor 1 = true ∧ s.blocked [6] [7] = false ∧ s.reads [6] = [.ofWord 32] ∧ s.reads [8] = [.ofWord 30] ∧ s.blocked [8] [7] = false) ∧
    tfind ((trigs none).plotAt 0).triggers 30 = none ∧ isOk ((trigs none).ownTrigger 30) = false ∧ (trigs none).hasActor 7 = false ∧
    (let s := (trigs none).modCur fun x => { x with g := [(4, bad 3), (5, wv 8), (6, wv 31)] }
     s.reads [4, 5] = [bad 3, wv 8] ∧ s.reads [6, 4] = [wv 31, bad 3] ∧ s.reads [6, 5] = [wv 31, wv 8] ∧ (bad 3).valid = false ∧ s.blocked [6, 5] [7] = false) := by decide +kernel

/-- TRIGBIND moves the pending count to the credits, saturating (R355). -/
theorem test_trigbind : ((after (exec (.trigbind 7 4 5) (trigs none))).slotAt 0 1).credits = 0xFFFF ∧ (after (exec (.trigbind 7 4 5) (trigs none))).cur.gReg 0 7 = wv 15 := by
  decide +kernel

/-- A region of one plot (plot 0), index 3, disarmed. -/
def regn : Region := ⟨3, 0, 0, 0, 1, 1, 1, 0, false, 2, 2, 2, 2, 0, [0, 1], [0, 1], [], [], false, [], false, false, false, false, [], 0, false, [], [], [], [], [], 0, [], none, []⟩
/-- The issuing slot with the region `r` of its instance, its index in g4 and others in g5 and g6. -/
def regioned (r : Region) : State := { (guided barr (fun x => { x with g := [(4, wv 3), (5, wv 4), (6, wv 256)] })).modPlot 0 (fun p => { p with awake := true, region := some 3 }) with
  regions := [(3, r)] }

/-- Premises of RegionInstructions: a disarmed awake region, a frozen one, a lost one, and indices that name none. -/
theorem test_witness_RegionInstructions : (∀ r ∈ [regn, { regn with frozenProg := true }, { regn with lost := true }], let s := regioned r
      s.blocked [4] [7] = false ∧ s.badReg [(0, 4)] = none ∧ s.reads [4] = [.ofWord 3] ∧ s.instAt 0 = (tfind s.insts 0).map (fun x => (0, x)) ∧ (s.instAt 0).isSome = true ∧
      tfind s.regions (regionKey 0 3) = some r) ∧
    regn.lost = false ∧ regn.frozenLoad = false ∧ (regioned { regn with frozenProg := true }).regionFrozen 3 = true ∧ (regioned regn).regionFrozen 3 = false ∧
    regn.armed = false ∧ regn.disarming = [] ∧ (∀ p ∈ regn.plotIds, ((regioned regn).plotAt p).awake = true) ∧ regn.running = false ∧
    tfind (regioned regn).regions (regionKey 0 4) = none ∧ (regioned regn).reads [5] = [.ofWord 4] ∧ (regioned regn).reads [6] = [.ofWord 256] ∧
    ({ regn with frozenLoad := true } : Region).lost = false ∧ (regioned { regn with disarming := [1] }).regionFrozen 3 = false ∧
    (∃ p ∈ regn.plotIds, (((regioned regn).modPlot 0 fun p => { p with awake := false }).plotAt p).awake = false) ∧
    ({ regn with mq := [⟨9, .mtok ⟨0, 0, false, false, 0⟩ 0 false 0 0 0 0 0 0 0, 0, 0, true, 0, 2, 2, 0, false, [], false, []⟩] } : Region).running = true ∧
    ((regioned regn).modCur fun x => { x with g := [(4, bad 3)] }).reads [4] = [bad 3] := by decide +kernel

/-- ARM of a disarmed region answers 0 and arms it; of a frozen one it answers 4; an index of no region answers 3 (R249). -/
theorem test_arm : (after (exec (.arm 7 4) (regioned regn))).cur.gReg 0 7 = wv 0 ∧ ((after (exec (.arm 7 4) (regioned regn))).regions.map (·.2.armed)) = [true] ∧
    (after (exec (.arm 7 4) (regioned { regn with frozenProg := true }))).cur.gReg 0 7 = wv 4 ∧ (after (exec (.arm 7 5) (regioned regn))).cur.gReg 0 7 = wv 3 := by decide +kernel

/-- A register of sixteen words, the last fifteen alike. -/
def vr (tag : BitVec 16) (w0 w : W32) : VReg := vregOf tag (w0 :: List.replicate 15 w)
/-- Registers of FP32, INT32, INT8, BF16 and LG6 lanes, one with a POISON word, one with a MASKED word, one of a reserved format, a BF16 one of FP64. -/
def vecs : State := slot0 fun x => { x with
  g := [(4, wv 2), (5, .ofWord 0x3F800000), (6, bad 3), (7, wv 0x10002), (8, wv 13)],
  v := [(1, vr 2 ⟨true, 0x3F800000⟩ ⟨true, 0x3F800000⟩), (2, vr 2 ⟨true, 0x40000000⟩ ⟨true, 0⟩), (3, vr 2 ⟨true, 0⟩ ⟨true, 0⟩),
    (4, vr 9 ⟨true, 0xFFFFFFFF⟩ ⟨true, 0⟩), (5, vr 9 ⟨true, 5⟩ ⟨true, 0x80000000⟩), (6, vr 7 ⟨true, 0x01020304⟩ ⟨true, 0⟩),
    (7, vr 15 ⟨true, 0⟩ ⟨true, 0⟩), (8, vr 2 ⟨false, 0x00E54901⟩ ⟨true, 0⟩), (9, vr 2 ⟨false, 0⟩ ⟨true, 0x3F800000⟩), (10, vr 3 ⟨true, 0⟩ ⟨true, 0⟩),
    (11, vr 11 ⟨true, 0⟩ ⟨true, 0⟩), (12, vr 9 ⟨false, 0x00E54901⟩ ⟨true, 0⟩), (13, vr 1 ⟨true, 0⟩ ⟨true, 0⟩), (14, vr 0 ⟨true, 1⟩ ⟨true, 2⟩)] }

/-- Premises of VectorFloatResults: equal FP32 tags, a tag that is no floating-point tag, VSCALE by a valid and by an invalid amount. -/
theorem test_witness_VectorFloatResults : vecs.mayIssueV [1, 2] [] 15 ∧ vfpTag (vecs.vGet 1).tag = true ∧ vfpTag (vecs.vGet 2).tag = true ∧
    tagEq (vecs.vGet 2).tag (vecs.vGet 1).tag = true ∧ vecs.mayIssueV [4, 2] [] 15 ∧ vfpTag (vecs.vGet 4).tag = false ∧ vecs.mayIssueV [1, 2, 3] [] 3 ∧
    vfpTag (vecs.vGet 3).tag = true ∧ tagEq (vecs.vGet 3).tag (vecs.vGet 1).tag = true ∧ vecs.mayIssueV [1] [] 15 ∧ vecs.mayIssueV [1] [4] 15 ∧
    vecs.reads [4] = [wv 2] ∧ (wv 2).valid = true ∧ vecs.mayIssueV [1] [6] 15 ∧ vecs.reads [6] = [bad 3] ∧ (bad 3).valid = false := by
  unfold State.mayIssueV; decide +kernel

/-- 1 + 2 is 3 in lane 0, the reciprocal root of 1 is 1, and 1 over 0 signals division by zero with an infinity (R288, R289). -/
theorem test_vector_float : ((after (exec (.vadd 15 1 2 0) vecs)).vGet 15).bits.extractLsb' 0 32 = 0x40400000 ∧
    ((after (exec (.vrsq 15 1 0) vecs)).vGet 15).bits.extractLsb' 32 32 = 0x3F800000 ∧
    ((after (exec (.vdiv 15 1 3 0) vecs)).vGet 15).bits.extractLsb' 0 32 = 0x7F800000 ∧ (after (exec (.vdiv 15 1 3 0) vecs)).cur.fpstat ≠ 0 := by decide +kernel

/-- Premises of VectorIntegerResults: equal integer tags with scale 0, a shift, a bitwise operation and an immediate shift. -/
theorem test_witness_VectorIntegerResults : vecs.mayIssueV [4, 5] [] 15 ∧ intTag (vecs.vGet 4).tag = true ∧ intTag (vecs.vGet 5).tag = true ∧
    tagEq (vecs.vGet 4).tag (vecs.vGet 5).tag = true ∧ tagScale (vecs.vGet 4).tag = 0 ∧ fmtWidth (tagFmt (vecs.vGet 5).tag) = fmtWidth (tagFmt (vecs.vGet 4).tag) ∧
    tagMalformed (vecs.vGet 4).tag = false ∧ tagMalformed (vecs.vGet 5).tag = false ∧ vecs.mayIssueV [4] [] 15 := by unfold State.mayIssueV; decide +kernel

/-- A lane sum wraps in its lane, and VSAR by 32 or more copies the sign (R290). -/
theorem test_vector_int : ((after (exec (.viadd 15 5 5) vecs)).vGet 15).bits.extractLsb' 32 32 = 0 ∧
    ((after (exec (.vsarImm 15 5 40) vecs)).vGet 15).bits.extractLsb' 32 32 = 0xFFFFFFFF ∧
    ((after (exec (.viadd 15 6 6) vecs)).vGet 15).bits.extractLsb' 0 32 = 0x02040608 := by decide +kernel

/-- Premises of VectorLanesReadBack: LG6 with its 80 lanes, and FP32 with an invalid lane. -/
theorem test_witness_VectorLanesReadBack : tagMalformed 11 = false ∧ (List.replicate 80 (Lane.ok 63)).length = laneCount (tagFmt 11) ∧ 79 < laneCount (tagFmt 11) ∧
    (∀ b ∈ [(63 : Nat)], b < 2 ^ fmtWidth (tagFmt 11)) ∧ firstBad (((List.replicate 80 (Lane.ok 63)).drop (5 * (79 / 5))).take 5) = none ∧
    firstBad ([Lane.bad 0x00E54901].take 1) = some 0x00E54901 ∧
    laneAt 0 2 (vregOfLanes 2 (Lane.bad 0x00E54901 :: List.replicate 15 (.ok 1))) 0 = .bad (normPayload 0x00E54901) := by decide +kernel

/-- Premises of VectorLaneResults: reductions of valid, poisoned and integer registers; comparison, selection, apply, permutation, broadcast at both sides of
the last lane. -/
theorem test_witness_VectorLaneResults : (∀ a ∈ ([1, 8, 5] : List VNum), vecs.blockedV [15, a] = false ∧ numTag (vecs.vGet a).tag = true) ∧ vecs.blocked [] [] = false ∧
    vecs.mayIssueV [1] [] 15 ∧ poisonWord (vecs.vGet 8) = some 0x00E54901 ∧ poisonWord (vecs.vGet 1) = none ∧ isFloat (tagFmt (vecs.vGet 1).tag) = true ∧
    poisonWord (vecs.vGet 5) = none ∧ isFloat (tagFmt (vecs.vGet 5).tag) = false ∧ vecs.mayIssueV [1, 2] [] 4 ∧ numTag (vecs.vGet 2).tag = true ∧
    tagEq (vecs.vGet 1).tag (vecs.vGet 2).tag = true ∧ moveTag (vecs.vGet 1).tag = true ∧ moveTag (vecs.vGet 2).tag = true ∧
    maskTag (tagFmt (vecs.vGet 1).tag) (vecs.vGet 4).tag = true ∧ vecs.mayIssueV [1, 4] [] 15 ∧ (15 : BitVec 7).toNat < laneCount (tagFmt (vecs.vGet 1).tag) ∧
    laneCount (tagFmt (vecs.vGet 1).tag) ≤ (16 : BitVec 7).toNat := by unfold State.mayIssueV; decide +kernel

/-- The manual's example of VSUM: lane 0 holds 2^24, lanes 1 to 3 hold 1; the tree gives 16,777,218 with inexact; with word 3 MASKED it gives 2^24 (R292). -/
theorem test_vsum : (let s := fun (l : W32) => slot0 fun x => { x with v := [(9, vregOf 2 ([⟨true, 0x4B800000⟩, ⟨true, 0x3F800000⟩, ⟨true, 0x3F800000⟩, l] ++ List.replicate 12 ⟨true, 0⟩))] }
    let r := fun l => ((after (exec (.vsum 8 9 0) (s l))).vGet 8).bits.extractLsb' 0 32
    r ⟨true, 0x3F800000⟩ = 0x4B800001 ∧ r ⟨false, 0⟩ = 0x4B800000) := by decide +kernel

/-- Premises of VectorConversions: FP32 into BF16 (two parts), BF16 into FP32, a ratio above 8, a part at the ratio, and VQNT with its multiplier. -/
theorem test_witness_VectorConversions : vecs.mayIssueV [1] [] 10 ∧ anyNumTag (vecs.vGet 1).tag = true ∧ anyNumTag (vecs.vGet 10).tag = true ∧
    max (laneCount (tagFmt 2)) (laneCount (tagFmt 3)) % min (laneCount (tagFmt 2)) (laneCount (tagFmt 3)) = 0 ∧
    max (laneCount (tagFmt 2)) (laneCount (tagFmt 3)) / min (laneCount (tagFmt 2)) (laneCount (tagFmt 3)) = 2 ∧ (1 : BitVec 3).toNat < 2 ∧ 2 ≤ (2 : BitVec 3).toNat ∧
    laneCount (tagFmt 2) ≤ laneCount (tagFmt 3) ∧ laneCount (tagFmt 2) < laneCount (tagFmt 3) ∧ vecs.mayIssueV [10] [] 1 ∧
    8 < max (laneCount (tagFmt 11)) (laneCount (tagFmt 1)) / min (laneCount (tagFmt 11)) (laneCount (tagFmt 1)) ∧ vecs.mayIssueV [11] [] 13 ∧
    anyNumTag (vecs.vGet 11).tag = true ∧ anyNumTag (vecs.vGet 13).tag = true ∧ vecs.mayIssueV [1] [5] 10 ∧ vecs.reads [5] = [.ofWord 0x3F800000] ∧
    vfpTag (vecs.vGet 1).tag = true ∧ vecs.mayIssueV [10] [5] 1 := by unfold State.mayIssueV; decide +kernel

/-- FP32 1.0 converted into part 1 of a BF16 register fills its upper words; part 2 raises INDEX_RANGE (R298). -/
theorem test_vcvt : ((after (exec (.vcvt 10 1 1 0) vecs)).vGet 10).bits.extractLsb' 256 32 = 0x3F803F80 ∧
    ((after (exec (.vcvt 10 1 1 0) vecs)).vGet 10).bits.extractLsb' 224 32 = 0 ∧ (after (exec (.vcvt 10 1 2 0) vecs)).cur.tcause = 0x133 := by decide +kernel

/-- Premises of VectorMovesAndTags, one clause each. -/
theorem test_witness_VectorMovesAndTags : (∀ g ∈ ([4, 6, 7, 8] : List GReg), vecs.blocked [g] [] = false ∧ vecs.blockedV [1] = false) ∧ vecs.mayIssueV [] [4] 1 ∧
    vecs.reads [4] = [wv 2] ∧ (wv 2).bits.extractLsb' 16 48 = 0 ∧ tagMalformed ((wv 2).bits.extractLsb' 0 16) = false ∧ vecs.reads [7] = [wv 0x10002] ∧
    (wv 0x10002).bits.extractLsb' 16 48 ≠ 0 ∧ vecs.reads [8] = [wv 13] ∧ tagMalformed ((wv 13).bits.extractLsb' 0 16) = true ∧ vecs.reads [6] = [bad 3] ∧
    tagMalformed (vecs.vGet 1).tag = false ∧ (15 : BitVec 7).toNat < laneCount (tagFmt (vecs.vGet 1).tag) ∧ laneCount (tagFmt (vecs.vGet 1).tag) ≤ (16 : BitVec 7).toNat ∧
    vecs.mayIssue [] [9] ∧ vecs.badReg [(4, (1 : VNum).zeroExtend 5)] = none ∧ isOk (vecs.writeG 9 (.ofWord ((vecs.vGet 1).tag.zeroExtend 64))) = true ∧
    vecs.badReg [(2, (1 : VNum).zeroExtend 5), (4, (1 : VNum).zeroExtend 5)] = none ∧ isOk (vecs.writeG 9 (.ofWord 0x3F800000)) = true ∧
    vecs.mayIssueV [1, 4] [] 2 ∧ moveTag (vecs.vGet 1).tag = true ∧ tagMalformed (vecs.vGet 4).tag = false ∧
    tagEq (vecs.vGet 4).tag (fmtTag (maskFmt (tagFmt (vecs.vGet 1).tag))) = true ∧ badMask (vecs.vGet 4) = none ∧ badMask (vecs.vGet 12) = some (normPayload 0x00E54901) ∧
    tagEq (vecs.vGet 12).tag (fmtTag 9) = true ∧ vecs.mayIssueV [1, 12] [] 2 ∧ tagEq (vecs.vGet 2).tag (vecs.vGet 1).tag = true ∧ tagMalformed (vecs.vGet 2).tag = false ∧
    vecs.mayIssueV [1] [] 15 ∧ vecs.mayIssueV [] [] 15 := by unfold State.mayIssueV State.mayIssue; decide +kernel

/-- VEXT of a signed lane extends its sign; VPACK moves the selected lane to the front (R301, R302). -/
theorem test_vector_moves : (after (exec (.vext 9 5 1) vecs)).cur.gReg 0 9 = .ofWord 0xFFFFFFFF80000000 ∧
    ((after (exec (.vpack 15 2 4) vecs)).vGet 15).ok = 3 ∧ (after (exec (.vins 1 5 16) vecs)).cur.tcause = 0x133 := by decide +kernel

/-- A slot in a handler with registers to write. -/
def sysSlot : State := (slot0 fun x => { x with g := [(4, wv 0x1F7), (5, wv 0), (6, bad 3)], tcause := 0x151, tepc := 0x44, pc := 0x100 }).modPlot 0 fun p =>
  { p with tlb := [placedEntry], icache := [(1, ⟨true, 0⟩)] }
/-- A context of plot 0 with its area in the staging area. -/
def ctx0 : Ctx := ⟨0, 0x200FC000000, [], 0x80000, false, 0, false⟩
/-- A plot in service mode whose instance is being halted or restored. -/
def serviced (how : Saved) : State := { (guided barr id).modPlot 0 (fun p => { p with service := true }) with
  insts := [(0, { inst with saved := how, ctx := if how == .restoring then [ctx0] else [] })],
  mem := State.reset.mem.setWords 0x200FC000000 [⟨true, 0⟩, ⟨true, 0x4C5A5843⟩, ⟨true, 0⟩, ⟨true, 0⟩, ⟨true, 0x5000⟩, ⟨true, 0⟩] }

/-- Premises of SystemInstructions: inside and outside a handler, readable, absent, writable and read-only numbers, valid and invalid values, service mode. -/
theorem test_witness_SystemInstructions : sysSlot.cur.ih = true ∧ (slot0 id).cur.ih = false ∧ sysSlot.mayIssue [] [9] ∧ sysSlot.badReg [(1, ((0x017 : BitVec 12) - 0x010).setWidth 5)] = none ∧
    isOk (sysSlot.writeG 9 (sysSlot.cur.aReg 0 7)) = true ∧ isOk (sysSlot.writeG 9 (.ofWord sysSlot.cur.tepc)) = true ∧
    (0x018 : BitVec 12) ∉ [(0x000 : BitVec 12), 0x010, 0x017, 0x020, 0x061] ∧ sysSlot.mayIssue [4] [] ∧ sysSlot.reads [4] = [.ofWord 0x1F7] ∧
    sysSlot.mayIssue [6] [] ∧ sysSlot.reads [6] = [bad 3] ∧ (bad 3).valid = false ∧ sysSlot.mayIssue [5] [] ∧ sysSlot.reads [5] = [.ofWord 0] ∧ sysSlot.mayIssue [] [] ∧
    (sysSlot.plotAt 0).service = false ∧ ((serviced .halting).plotAt 0).service = true ∧ ((serviced .halting).instAt 0).map (·.2.saved) = some .halting ∧
    ((serviced .halting).instAt 0).map (·.2.ctx) = some [] ∧ ((serviced .restoring).instAt 0).map (·.2.saved) = some .restoring ∧
    ((serviced .restoring).instAt 0).map (fun x => x.2.ctx.find? (fun c => c.plot == 0)) = some (some ctx0) ∧
    (serviced .restoring).ctxOk 0 ctx0 = true := by unfold State.mayIssue; decide +kernel

/-- ERET goes to TEPC and clears the handler bit; SYSWR keeps only the bits of FPCTL that take a value (R396, R399). -/
theorem test_system : (after (exec .eret sysSlot)).cur.pc = 0x44 ∧ (after (exec .eret sysSlot)).cur.tcause = 0x51 ∧
    (after (exec (.syswr 4 0x020) (regs [(4, .ofWord (-1))]))).cur.fpctl = 0x1F7 ∧ (after (exec (.sysrd 9 0x018) sysSlot)).cur.held = true := by decide +kernel

/-- SQSET sources, a ticket in g7, a word in q2 and a word that is none in q3, and the queue of the plot as given. -/
def issuing (queue : List Nat) (words : Tab SWord) : State :=
  { (slot0 fun x => { x with g := [(4, wv 5), (5, wv 0xFF), (7, wv 2)], ticket := 0xFFFF, q := [(2, 0x23 <<< 120 ||| 1 <<< 32 ||| 200), (3, 0x7F <<< 120)] }).modPlot 0
    (fun p => { p with queue := queue }) with words := words }
/-- A container with one region record (plot 0, index 3), its CRC and signatures computed outside the model from R240 to R243. -/
def container : List Word := [0x14C5A5849, 0xC3B208B200000140, 0x77, 0x1, 0x0, 0x0, 0x0, 0x0] ++ [0x10000000001, 0x1, 0x385DEDB4A0A6571B] ++ List.replicate 21 0 ++
  [0x160000000000301, 0x2000200020002, 0x101, 0x0, 0x0, 0x0, 0x0, 0x435DA8DA]
/-- The container at address 0 of an instance whose session checks no signature; g4 holds 0 and g5 a misaligned address. -/
def loading : State := { (guided barr fun x => { x with g := [(4, wv 0), (5, wv 0x20)] }).modPlot 0 (fun p => { p with tlb := [placedEntry] }) with
  sessions := [(0, { sess with signed := false })],
  mem := State.reset.mem.setWords placedAt (container.flatMap fun q => [⟨true, q.extractLsb' 0 32⟩, ⟨true, q.extractLsb' 32 32⟩]) }
/-- Quadwords read, or none. -/
def readQuads : ReadOut → Option (List Word)
  | .done q _ => some q
  | _ => none

/-- Premises of StreamIssueInstructions: masked and whole SQSET, a good and a bad word, a queue with room and without, a ticket that is outstanding and one that
is not, a container that passes its checks. -/
theorem test_witness_StreamIssueInstructions : (let s := issuing [] []
      s.blockedQ [2] = false ∧ s.mayIssue [4] [] ∧ s.reads [4] = [.ofWord 5] ∧ s.mayIssue [4, 5] [] ∧ s.reads [4, 5] = [.ofWord 5, .ofWord 0xFF] ∧ s.mayIssue [] [9] ∧
      s.badReg [(3, (2 : QNum).zeroExtend 5)] = none ∧ decodeSw (s.cur.qReg 2) = .ok (.evt ⟨0, 0, false, false, 0⟩ 200 1) ∧ isOk (decodeSw (s.cur.qReg 3)) = false ∧
      s.blockedQ [3] = false ∧ s.badReg [(3, (3 : QNum).zeroExtend 5)] = none ∧ s.mayIssue [7] [] ∧ s.reads [7] = [.ofWord 2]) ∧
    wordHdr (.evt ⟨0, 0, false, false, 0⟩ 200 1) = some ⟨0, 0, false, false, 0⟩ ∧ ((issuing (List.range 16) []).plotAt 0).queue.length = 16 ∧
    ((issuing [9] [(9, { evtWord with ticket := 2 })]).words.all fun e => e.2.plot == 0 && e.2.slot == 0 && e.2.ticket.toNat == 2) = true ∧
    loading.mayIssue [4] [7] ∧ (∀ e ∈ loading.reqsOf 0 0, loading.perfOk e.1 = true) ∧ loading.reads [4] = [.ofWord 0] ∧ loading.mayIssue [5] [7] ∧
    loading.reads [5] = [.ofWord 0x20] ∧ (0x20 : Word).toNat % 64 ≠ 0 := by unfold State.mayIssue; decide +kernel

/-- The container is read whole. -/
theorem test_witness_StreamIssueInstructions_read : readQuads (loading.readContainer 0 0 0) = some container := by decide +kernel
/-- It passes the checks of the loader (R246). -/
theorem test_witness_StreamIssueInstructions_checks : (loading.instAt 0).any (fun e => isOk (loading.loaderChecks e.1 e.2 container)) = true := by decide +kernel

/-- A CONFIG under way. -/
def midLoad : State := loading.modCur fun x => { x with loading := some (container, 0, false) }
/-- Its next region is found, and none is left after it; an armed region that the container names is busy; a container with another CRC fails its checks. -/
theorem test_witness_StreamIssueInstructions_load : midLoad.cur.loading = some (container, 0, false) ∧
    (midLoad.instAt 0).any (fun e => (midLoad.loadingVariant e.2 (container, 0, false)).any fun vr => (vr.regions.find? fun r => !midLoad.sameRegion e.1 r).isSome) = true ∧
    (let t := after (exec (.config 7 4) midLoad)
     (t.instAt 0).any (fun e => (t.loadingVariant e.2 (container, 0, false)).any fun vr => (vr.regions.find? fun r => !t.sameRegion e.1 r).isNone) = true) ∧
    (let s := { loading with regions := [(3, { regn with armed := true })] }
     (s.instAt 0).any (fun e => okAnd (s.loaderChecks e.1 e.2 container) fun x => s.configBusy e.1 x.1) = true) ∧
    loading.slotSettled 0 0 = true ∧ loading.loaderTaken 0 0 0 = false ∧ (issuing [] []).blockedQ [2] = false ∧
    (loading.instAt 0).any (fun e => isOk (loading.loaderChecks e.1 e.2 (container.set 5 1))) = false := by decide +kernel
/-- A CONFIG writes its region unarmed and then answers 0 (R246). -/
theorem test_config : let t := after (exec (.config 7 4) midLoad)
    (t.regions.map fun e => (e.1, e.2.armed)) = [(3, false)] ∧ (after (exec (.config 7 4) t)).cur.gReg 0 7 = wv 0 := by decide +kernel

/-- The first ticket after 0xFFFF is 1 (R204); an undefined SOP raises STREAM_WORD_ILLEGAL (R43). -/
theorem test_sqiss : (after (exec (.sqiss 9 2) (issuing [] []))).cur.gReg 0 9 = wv 1 ∧ (after (exec (.sqiss 9 2) (issuing [] []))).cur.cntcp = 1 ∧
    (after (exec (.sqiss 9 3) (issuing [] []))).cur.tcause = 0x130 := by decide +kernel

/-- Pennant 8, whose home is on die 0, with attachers and in a state. -/
def pn (att : List (Nat × Nat)) (st : PnState) : Pennant := ⟨8, 0, 1, 1, 0, 4096, 0, st, 2, 0, 0, 0, att, some 3, 30, none, 0, [], false, []⟩
/-- The issuing slot with the names 8 and 16 in g4 and g5, the descriptor's address in g6 and a misaligned one in g8. -/
def pnState (l : Tab Pennant) : State :=
  { (guided barr fun x => { x with g := [(4, wv 8), (5, wv 16), (6, wv 0), (8, wv 4)], tvec := 0x100 }).modPlot 0 (fun p => { p with tlb := [placedEntry] }) with
    dies := [(0, { Die.init with cways := 8, backing := 1 })], pennants := l }
/-- The descriptor of a pennant named 16 of lifetime `life` at address 0. -/
def pnDescribed (life : BitVec 32) : State :=
  { pnState [] with mem := State.reset.mem.setWords placedAt [⟨true, 16⟩, ⟨true, 0⟩, ⟨true, life <<< 24⟩, ⟨true, 0⟩, ⟨true, 0⟩, ⟨true, 4096⟩, ⟨true, 0⟩, ⟨true, 0⟩] }
/-- The descriptor as its words. -/
def descWords (life : BitVec 32) : List W32 := [⟨true, 16⟩, ⟨true, 0⟩, ⟨true, life <<< 24⟩, ⟨true, 0⟩, ⟨true, 0⟩, ⟨true, 4096⟩, ⟨true, 0⟩, ⟨true, 0⟩]

/-- Words read without a change of the state. -/
def readAll (r : EngOut (List W32)) (s : State) : Option (List W32) :=
  match r with
  | .done ws t => if t = s then some ws else none
  | _ => none

/-- Premises of PennantInstructions: a name in view and one that is not, its own slot attached, another's, both, none; resident and evicted. -/
theorem test_witness_PennantInstructions : (∀ p ∈ [pn [] .resident, pn [(0, 0)] .resident, pn [(0, 1)] .resident, pn [] .evicted], let s := pnState [(9, p)]
      s.blocked [4] [7] = false ∧ s.badReg [(0, 4)] = none ∧ tfind s.pnreqs 0 = none ∧ s.allReleased 7 = true ∧ s.reads [4] = [.ofWord 8] ∧ s.nameHome 8 / 128 = dieOf 0 ∧
      s.visible (s.sessOf 0) 8 = some (9, p) ∧ s.attKey 0 = (0, 0) ∧ s.pnReady (.query 4) 8 = true ∧ s.pnReady .release 8 = true ∧ s.pnReady .detach 8 = true ∧
      s.pnReady .drop 8 = true ∧ s.pnReady (.attach false) 8 = true ∧ p.mustWait (pnWaiter 0) = false ∧ p.mover ≠ some (pnWaiter 0) ∧ s.cur.ih = false ∧ s.cur.tvec ≠ 0 ∧
      s.reads [5] = [.ofWord 16] ∧ s.nameHome 16 / 128 = 0 ∧ s.visible (s.sessOf 0) 16 = none ∧ s.pnReady (.attach true) 16 = true) := by decide +kernel

/-- Premises of PennantInstructions for PNDEF: a misaligned descriptor, one of lifetime 0 and one of lifetime 2. -/
theorem test_witness_PennantInstructions_define : (let s := pnDescribed 0;
      s.blocked [6] [7] = false ∧ s.badReg [(0, 6)] = none ∧ s.reads [6] = [.ofWord 0] ∧ s.reads [8] = [.ofWord 4] ∧ s.blocked [8] [7] = false ∧ s.allReleased 7 = true ∧
      readAll (s.engineRead 0 0 (pnWaiter 0) 0 none ((List.range 8).map fun i => Src.va (0 + BitVec.ofNat 64 (4 * i))) []) s = some (descWords 0) ∧
      (∀ w ∈ descWords 0, w.valid = true) ∧ s.nameHome (quadAt (descWords 0) 0) / 128 = dieOf 0 ∧ s.pnReady (.define (descWords 0)) 16 = true ∧
      (s.pnDefine 0 (descWords 0)).1 = .value 0 true) ∧
    (let s := pnDescribed 2;
      s.blocked [6] [7] = false ∧ s.reads [6] = [.ofWord 0] ∧ s.pnReady (.define (descWords 2)) 16 = true ∧ (∀ w ∈ descWords 2, w.valid = true) ∧
      readAll (s.engineRead 0 0 (pnWaiter 0) 0 none ((List.range 8).map fun i => Src.va (0 + BitVec.ofNat 64 (4 * i))) []) s = some (descWords 2) ∧
      1 < (pnDesc (descWords 2)).life.toNat) := by decide +kernel

/-- PNDEF answers 0, PNREL raises the generation, PNATT of an evicted pennant raises ATTACH_MISS (R167, R168, R171). -/
theorem test_pennants : (after (exec (.pndef 7 6) (pnDescribed 0))).cur.gReg 0 7 = wv 0 ∧
    ((after (exec (.pnrel 7 4) (pnState [(9, pn [(0, 0)] .resident)]))).pennants.map (·.2.gen)) = [3] ∧
    (after (exec (.pnatt 7 4 false) (pnState [(9, pn [] .evicted)]))).cur.tcause = 0x120 := by decide +kernel

/-- A header naming port 0 of edge plot 0, that awaits and posts nothing. -/
def hd : SwHdr := ⟨0, 0, false, false, 0⟩
/-- A port-map record of port 0 with a connection. -/
def mapOf (conn : Nat) : PortMap := ⟨3, 0, 0, conn, 2, 0, 0, 1, 0, 5⟩
/-- A word of slot 0. -/
def wordOf (i : Instr) (st : WStage) : SWord := ⟨0, 0, 1, i, st, [], [], 0, [], false, 0, 0, false, []⟩
/-- The word 9 of slot 0 in a region with the port map given, record 1 of the scratchpad LINEAR over 32 bytes at 0x200, record 2 a GATHER of one index. -/
def wording (i : Instr) (st : WStage) (maps : List PortMap) (g : Guidon) : State :=
  let s := { regioned { regn with ports := maps, modes := 3, armed := true } with
    insts := [(0, { inst with guidons := [(200, g)] })], words := [(9, wordOf i st)], focus := ⟨0, 0, 9, 0, 0⟩, nextId := 20,
    mem := (((State.reset.mem.setWords 0x30000000040 [⟨true, 0x200⟩, ⟨true, 0x300⟩, ⟨true, 32⟩, ⟨true, 2⟩]).setWords 0x30000000050 (List.replicate 12 ⟨true, 0⟩)).setWords
      0x30000000200 (List.replicate 8 ⟨true, 0x3F800000⟩)) }
  s.modPlot 0 fun p => { p with queue := [9] }
/-- The binding of a read port to record 1. -/
def bound (read : Bool) : Binding := ⟨read, 1, 0, some 0, 0, 0, none, false, ⟨0x30000000200, 0, 2, 32, 1, 0, 1, 0, 1, 0, 0, 0, 0, 0, []⟩, 0, [], false, 2, 0, 0, 0, [], false, [], [], 0⟩
/-- As wording, with that binding on port 0. -/
def wordBound (i : Instr) (read : Bool) : State := { wording i .queued [mapOf 1] evNode with ports := [(0, { Port.init with bind := some (bound read), tag := 2 })] }
/-- The word of the focus is in its table, is the instruction, and may start. -/
def ready (s : State) (i : Instr) : Bool := match tfind s.words s.focus.word with
  | some w => w.instr == i && (wordHdr i).isSome && s.canStart s.focus.word w
  | none => false

/-- Premises of PortAndCopyWords: BINDR and BINDW on no port, on one that is no stream port, and on a stream port with a good record. -/
theorem test_witness_PortAndCopyWords_bind : (∀ i ∈ [Instr.bindr hd 1 true, .bindw hd 1],
      ready (wording i .queued [] evNode) i = true ∧ (wording i .queued [] evNode).wordPort 0 0 = none ∧
      ready (wording i .queued [mapOf 2] evNode) i = true ∧ (wording i .queued [mapOf 2] evNode).wordPort 0 0 = some (0, mapOf 2) ∧ (mapOf 2).conn ≠ 1 ∧
      ready (wording i .queued [mapOf 1] evNode) i = true ∧ (wording i .queued [mapOf 1] evNode).wordPort 0 0 = some (0, mapOf 1) ∧
      okAnd (((wording i .queued [mapOf 1] evNode).begun (wordOf i .queued)).patternAt 0 1) (fun a => !tagMalformed a.tag && tagEq a.tag (mapOf 1).tag && !a.unopened &&
        isOk ((((wording i .queued [mapOf 1] evNode).begun (wordOf i .queued)).setWord 9 { wordOf i .running with pats := [a] }).openPattern a false)) = true ∧
      isOk (((wording i .queued [mapOf 1] evNode).begun (wordOf i .queued)).patternAt 0 3) = false ∧
      tagEq 2 ({ mapOf 1 with tag := 3 } : PortMap).tag = false) := by decide +kernel

/-- The premises for PHASE and UNBIND: an open binding, none, and one of a write port. -/
theorem test_witness_PortAndCopyWords_phase : ready (wordBound (.phase hd 1) true) (.phase hd 1) = true ∧ (wordBound (.phase hd 1) true).wordPort 0 0 = some (0, mapOf 1) ∧
    ((wordBound (.phase hd 1) true).portAt 0).bind = some (bound true) ∧ (bound true).discard = false ∧
    ((({ wordBound (.phase hd 1) true with ports := [(0, { Port.init with bind := some { bound true with discard := true } })] } : State).portAt 0).bind.map (·.discard)) = some true ∧
    okAnd (((wordBound (.phase hd 1) true).begun (wordOf (.phase hd 1) .queued)).patternAt 0 1) (fun a => !tagMalformed a.tag && tagEq a.tag (bound true).tag &&
      !a.unopened && isOk ((((wordBound (.phase hd 1) true).begun (wordOf (.phase hd 1) .queued)).setWord 9 { wordOf (.phase hd 1) .running with pats := [a] }).openPattern a false)) = true ∧
    (∀ rd ∈ [true, false], ready (wordBound (.unbind hd true) rd) (.unbind hd true) = true ∧ ((wordBound (.unbind hd true) rd).portAt 0).bind = some (bound rd) ∧
      (wordBound (.unbind hd true) rd).wordPort 0 0 = some (0, mapOf 1)) ∧
    ready (wording (.unbind hd true) .queued [mapOf 1] evNode) (.unbind hd true) = true ∧ ((wording (.unbind hd true) .queued [mapOf 1] evNode).portAt 0).bind = none := by
  decide +kernel

/-- A copy of 16 bytes out of the scratchpad. -/
def cpyWord : Instr := .cpy hd 0x30000000300 0x200 1 true
/-- Premises for copies: ready to start, and running with its bytes readable and writable. -/
theorem test_witness_PortAndCopyWords_copy : (∀ i ∈ [cpyWord, .cpyp hd 1 1, .gath hd 1 1, .scat hd 1 1], ready (wording i .queued [] evNode) i = true) ∧
    (let s := wording cpyWord .running [] evNode; let w := wordOf cpyWord .running
     tfind s.words 9 = some w ∧ s.copyGoes w = true ∧ s.busHeld w = false ∧ s.engineStalls 9 = false ∧ w.pats.any (·.unopened) = false ∧ (s.copyPlan w).total = 16 ∧
     doneAnd (s.engineRead 0 0 9 (copySigs w).1 none ((List.range 4).map fun j => (s.copyPlan w).src (4 * j)) [])
      (fun ws s1 => isDone (s1.engineStore 0 0 9 (copySigs w).2 (((List.range 4).map fun j => (s.copyPlan w).dst (4 * j)).zip ws))) = true) := by decide +kernel

/-- A running copy of 16 bytes writes them and is done but for its writes (R223). -/
theorem test_copy : (after (exec cpyWord (wording cpyWord .running [] evNode))).mem.word 0x3000000030C = ⟨true, 0x3F800000⟩ ∧
    ((after (exec cpyWord (wording cpyWord .running [] evNode))).words.map fun e => (e.2.stage, e.2.progress)) = [(.finishing, 16)] := by decide +kernel

/-- Premises for MCST, ARRV, PATCH and EVT. -/
theorem test_witness_PortAndCopyWords_rest : (∀ c ∈ [1, 3], let s := wording (.mcst hd 1 0 true false) .queued [mapOf c] evNode
      ready s (.mcst hd 1 0 true false) = true ∧ s.wordPort 0 0 = some (0, mapOf c) ∧
      okAnd ((s.begun (wordOf (.mcst hd 1 0 true false) .queued)).patternAt 0 1) (fun a =>
        tagEq a.tag (mapOf c).tag && !tagMalformed a.tag && isOk ((s.begun (wordOf (.mcst hd 1 0 true false) .queued)).openPattern a false)) = true) ∧
    ready (wording (.arrv hd 0 1 2 0 63) .queued [] evNode) (.arrv hd 0 1 2 0 63) = true ∧ ready (wording (.arrv hd 7 1 2 0 63) .queued [] evNode) (.arrv hd 7 1 2 0 63) = true ∧ isCellPlot 7 = false ∧
    (let s := wording (.patch hd 1 3 9 0 0x200 true) .queued [] evNode; ready s (.patch hd 1 3 9 0 0x200 true) = true ∧ s.sessOf 0 = some 0 ∧ (s.spadWord 0 0x200).valid = true) ∧
    (∀ g ∈ [barr, evNode, evFar], let s := wording (.evt hd 200 5) .queued [] g
      ready s (.evt hd 200 5) = true ∧ (s.instAt 0).any (fun e => (tfind e.2.guidons 200) == some g) = true) ∧ barr.kind ≠ 4 ∧ evNode.kind = 4 ∧
    dieOf evNode.plot = dieOf 0 ∧ dieOf evFar.plot ≠ dieOf 0 := by decide +kernel

/-- A running MCST whose first beat is read. -/
theorem test_witness_PortAndCopyWords_beat : (let s := wording (.mcst hd 1 0 true false) .running [mapOf 3] evNode
    okAnd (s.patternAt 0 1) (fun a => !a.unopened && decide (0 < mcstEnd a.bytes true) && (s.chans.filter fun (c : Nat × ChanBeat) => c.2.word == some 9) == [] &&
      !s.busHeld { wordOf (.mcst hd 1 0 true false) .running with pats := [a] } && !s.engineStalls 9 &&
      doneAnd (s.engineRead 0 0 9 (copySigs { wordOf (.mcst hd 1 0 true false) .running with pats := [a] }).1 none (a.srcs 0 0 8) []) (fun ws t => ws.length == 8 && t == s)) = true ∧
    s.copyGoes (wordOf (.mcst hd 1 0 true false) .running) = true) := by decide +kernel

/-- BINDR binds its port to the record, with its tag (R220). -/
theorem test_bindr : let t := after (exec (.bindr hd 1 true) (wording (.bindr hd 1 true) .queued [mapOf 1] evNode))
    ((t.portAt 0).bind.map fun b => (b.read, b.hold, b.tag, b.pat.chunk)) = some (true, true, 2, 32) ∧ (t.plotAt 0).queue = [] := by decide +kernel

/-- A north feed of line 0 that a ring feeds. -/
def ringMap : PortMap := ⟨3, 0, 4, 2, 2, 0, 0, 1, 0, 5⟩
/-- An ACCZ of the first two entries of the column banks. -/
def acczWord : Instr := .accz hd false 0 1 9 0 true false
/-- Premises of MatrixWords: words of the matrix queue inside and outside a region, an ACCZ that may act at once. -/
theorem test_witness_MatrixWords : (∀ i ∈ [Instr.wld hd true 0 0 0 0 0 false, .wstr hd true 0 0 0 0, .mtok hd 0 false 0 0 0 0 0 0 0, acczWord,
      .drn hd false 0 0 0 false 0 false false 0 0 false false], let s := wording i .queued [] evNode
      ready s i = true ∧ s.regionOf 0 = some (3, { regn with ports := [], modes := 3, armed := true }) ∧ (s.modPlot 0 fun p => { p with region := none }).regionOf 0 = none ∧
      ready (s.modPlot 0 fun p => { p with region := none }) i = true) ∧
    regn.mq = [] ∧ (wording acczWord .queued [] evNode).acczCheck 0 2 9 = none := by decide +kernel

/-- Premises for STEER at an index switch and elsewhere, RING member with and without the row mode, RING source on a fed line, RACE. -/
theorem test_witness_MatrixWords_routing : (∀ c ∈ [1, 4], let s := wording (.steer hd 0x200 7) .queued [mapOf c] evNode
      ready s (.steer hd 0x200 7) = true ∧ s.wordPort 0 0 = some (0, mapOf c)) ∧ (wording (.steer hd 0x200 7) .running [mapOf 4] evNode).instLive 0 = true ∧
    (let i := Instr.ringMember hd 3 0 0 0 false; let s := wording i .queued [] evNode
     ready s i = true ∧ ready { s with regions := [(3, { regn with armed := true })] } i = true ∧ regn.modes.getLsbD 1 = false ∧ (3 : BitVec 3).getLsbD 1 = true) ∧
    (let i := Instr.ringSource hd 1 0 0 0 0 0; let s := wording i .queued [ringMap] evNode
     ready s i = true ∧ (s.regionOf 0).isSome = true ∧ (s.regionOf 0).any (fun e => s.ringFed e.1 e.2 1) = true ∧ s.noFp64 2 = false ∧
     okAnd ((s.begun (wordOf i .queued)).patternAt 0 1) (fun a => !tagMalformed a.tag && a.bytes == 1 * 1 * 1 * 32 && tagFmt a.tag == 2 &&
       okAnd ((s.begun (wordOf i .queued)).openPattern a false) (fun e => e.2.regionOf 0 == s.regionOf 0)) = true) ∧
    ready (wording (.race hd 0x200 0 0x300 7 1 0x400 true) .queued [] evNode) (.race hd 0x200 0 0x300 7 1 0x400 true) = true ∧
    (∀ x ∈ ([⟨true, 0x3F800000⟩] : List W32), x.valid = true) ∧ 256 < (({ wording (.steer hd 0x200 7) .queued [mapOf 4] evNode with
      ports := [(0, { Port.init with steer := List.replicate 249 ⟨true, 0⟩ })] } : State).portAt 0).steer.length + 8 ∧
    (let s := (wording (.race hd 0x200 0 0x300 7 1 0x400 false) .queued [] evNode).begun (wordOf (.race hd 0x200 0 0x300 7 1 0x400 false) .queued)
     isOk (s.raceStore 9 0 ((raceToken (s.spadWords 0 0x200 8) 2).2.zipIdx.flatMap fun q => [(0x300 + 8 * q.2, q.1.1), (0x300 + 8 * q.2 + 4, q.1.2)]) |>.mapError fun _ => ()) = true) := by decide +kernel

/-- ACCZ clears the status and ends (R263); the first row of the manual's example of RACE: of 0.5, 2, 1, 2, -1, 0, 0, 0.25 the winners are 1 and 3, the lower
first, each with half the sum (R280). -/
theorem test_matrix : ((after (exec acczWord (wording acczWord .queued [] evNode))).words.map (·.2.stage)) = [.finishing] ∧
    (raceToken ([0x3F000000, 0x40000000, 0x3F800000, 0x40000000, 0xBF800000, 0, 0, 0x3E800000].map W32.ofBits) 2).1 = [1, 3] := by decide +kernel

/-- The first name of layer 18, and one that is not mapped. -/
def bnBase (names : Tab Nat) (parts : List Nat) (w : Instr) : State :=
  { wording w .queued [] evNode with bunting := ⟨0x10000000, 100, parts, names, [(5, 1), (6, 1)], [], []⟩ }
/-- Premises of BuntingAndPennantWords: names of the own stack mapped and not, an owner on another die and on a removed one. -/
theorem test_witness_BuntingAndPennantWords : (∀ i ∈ [Instr.bnalloc hd 0 1 0x400 true, .bnfree hd 0 1, .bnshare hd 0 16 1, .bnxl hd 0 1 0x400 false],
      ready (bnBase [(0, 5), (1, 6)] [0] i) i = true ∧ (((bnBase [(0, 5), (1, 6)] [0] i).bnOwners 0 i).filter (· != dieOf 0)) = [] ∧
      isOk (((bnBase [(0, 5), (1, 6)] [0] i).begun (wordOf i .queued)).bnOp i) = true ∧
      (((bnBase [(0, 5), (1, 6)] [1] i).bnOwners 0 i).filter (· != dieOf 0)) = [1] ∧ ready (bnBase [(0, 5), (1, 6)] [1] i) i = true) ∧
    isOk (((bnBase [(0, 5)] [0] (.bnfree hd 0 1)).begun (wordOf (.bnfree hd 0 1) .queued)).bnOp (.bnfree hd 0 1)) = false ∧
    [1].any (State.isRemoved { bnBase [] [1] (.bnfree hd 0 1) with removed := 2 }) = true ∧ [1].any (bnBase [] [1] (.bnfree hd 0 1)).isRemoved = false ∧
    (∀ n ∈ nameRange 0 1, (tfind (bnBase [(0, 5), (1, 6)] [0] (.bnfree hd 0 1)).bunting.names n).isSome = true) ∧ 1 ≤ (1 : BitVec 6).toNat ∧
    (tfind (bnBase [(0, 5)] [0] (.bnfree hd 0 1)).bunting.names 0).isSome = true ∧ tfind (bnBase [(0, 5)] [0] (.bnfree hd 0 1)).bunting.names 1 = none := by decide +kernel

/-- The premises for PN words: a result within the scratchpad and beyond it, a home on the own die and on another, a word that is running at its home. -/
theorem test_witness_BuntingAndPennantWords_pennant : (∀ i ∈ [Instr.pnevict hd 8 0x7FFF8 true, .pnfill hd 8 1 0x7FFF8 true], ready (wording i .queued [] evNode) i = true ∧
      ready ((wording i .queued [] evNode).modPlot 0 fun p => { p with l1size := 1 }) i = true ∧ (wording i .queued [] evNode).backed (plotBase 0 + 0x7FFF8) = true ∧
      ((wording i .queued [] evNode).modPlot 0 fun p => { p with l1size := 1 }).backed (plotBase 0 + 0x7FFF8) = false) ∧
    (let s := wording (.pnevict hd 8 0 false) .queued [] evNode
     s.nameHome 8 / 128 = dieOf 0 ∧ s.visible (s.sessOf 0) 8 = none ∧ s.nameHome 1 / 128 ≠ dieOf 0 ∧ ready (wording (.pnevict hd 1 0 false) .queued [] evNode) (.pnevict hd 1 0 false) = true) ∧
    (wording (.pnevict hd 8 0 false) .running [] evNode).instLive 0 = true := by decide +kernel

/-- A slot that sends to an MQDST, with class-7 stores outstanding. -/
def sending (m : Word) (removed : BitVec 8) : State := { slot0 (fun x => { x with mqdst := m }) with removed := removed, peers := 1, nextId := 4 }
/-- A flit from plot 5 to slot 0 of plot 0. -/
def fl : Flit := ⟨0, 0, wv 1, 5, 0, 0⟩
/-- An arriving flit with `n` flits waiting. -/
def flitting (n : Nat) : State := { (slot0 id).modPlot 0 (fun p => { p with fifo := List.replicate n fl }) with tokens := [(6, .flit fl)] }
/-- What waits to leave, to a unit. -/
def outTo (dst : Nat) : Out := ⟨0, dst, 0, 0, [], .event 0 200 1, 0⟩
/-- A packet to die 0 from die 1 with its pair number. -/
def pk (pair : BitVec 10) (arrived : Nat) (delivered : Bool) : Packet := ⟨1, 0, pair, pair, 0, [0, pair, 0, 0, 0, 0, 0, 0], arrived, delivered, .event 0 200 1, 0, 0, 0, List.replicate 8 0⟩
/-- The one packet under way. -/
def packed (p : Packet) : State := { (guided evNode id) with packets := [(6, p)], causal := [(1, { Causal.init with undeliv := [(0, 1)] })], nextId := 9 }

/-- Premises of FlitsAndCausalDelivery: MQDST with a reserved bit, a slice plot, a cell plot, a removed die, a peer; FIFO empty and not, with room and full. -/
theorem test_witness_FlitsAndCausalDelivery : mqdstBad (sending 0x2000 0).cur.mqdst = true ∧ mqdstBad 7 = false ∧ isCellPlot 7 = false ∧ mqdstBad 0x30401 = false ∧
    isCellPlot ((0x30401 : Word).extractLsb' 0 13).toNat = true ∧ (0x30401 : Word).getLsbD 31 = false ∧ (sending 0x30401 2).isRemoved (dieOf 0x401) = true ∧
    (sending 0x30401 0).isRemoved (dieOf 0x401) = false ∧ mqdstBad 0x80000401 = false ∧ (0x80000401 : Word).getLsbD 31 = true ∧
    (sending 0x80000401 0).peers.getLsbD ((0x80000401 : Word).extractLsb' 28 3).toNat = true ∧
    (flitting 0).flits 0 0 = [] ∧ (flitting 1).flits 0 0 = [fl] ∧ (flitting 1).blocked [31] [7] = false ∧
    (∀ n ∈ [31, 32], tfind (flitting n).tokens 6 = some (.flit fl) ∧ (flitting n).flitBefore 6 fl = false ∧ ((flitting n).plotAt 0).fifo.length = n) ∧
    (∀ d ∈ [0, 1], tfind ({ sending 0 0 with outs := [(6, outTo d)] } : State).outs 6 = some (outTo d) ∧ (sending 0 0).unitRemoved d = false) ∧
    (sending 0 0).maySend 0 1 = true ∧ ({ sending 0 0 with rebasing := .draining } : State).maySend 0 1 = false ∧
    (∀ i ∈ (flitting 31).insts, ∀ c ∈ i.2.ctx, c.plot ≠ fl.plot) := by decide +kernel

/-- A flit of slot 0 to peer 1, waiting for the store 2, and another behind it; one of the slot there is not acknowledged. -/
def peering (st : Bool) (owed : Bool) : State := { prioSlot st with
  outs := [(6, ⟨0, 25, 0, 0, [2], .flit fl, 0⟩), (7, ⟨0, 25, 0, 0, [], .flit fl, 0⟩)], peerOut := if owed then [(4, { fl with src := 0 })] else [], nextId := 8 }
/-- The premises for what is sent to a peer, within the own die and to a removed one, and for a counted store. -/
theorem test_witness_FlitsAndCausalDelivery_sends : (∀ st ∈ [true, false], tfind (peering st false).reqs 6 = none ∧
      tfind (peering st false).outs 6 = some ⟨0, 25, 0, 0, [2], .flit fl, 0⟩ ∧ (peering st false).outBefore 6 ⟨0, 25, 0, 0, [2], .flit fl, 0⟩ = false) ∧
    (peering true false).relOk 2 = false ∧ (peering false false).relOk 2 = true ∧ (peering false false).perfOk 2 = true ∧ (peering false false).peerOwed 0 0 = false ∧
    (peering false true).peerOwed 0 0 = true ∧ (peering false false).outBefore 7 ⟨0, 25, 0, 0, [], .flit fl, 0⟩ = true ∧
    ({ sending 0 2 with outs := [(6, outTo 1)] } : State).unitRemoved 1 = true ∧ ({ sending 0 0 with outs := [(6, outTo 1)] } : State).outBefore 6 (outTo 1) = false ∧
    (let r := { rq (.st 4) (wv 7) with unit := 1, pa := 0x204FC000100 }; let s := one r
     tfind s.reqs 3 = some r ∧ r.op.writes = true ∧ r.unit ≠ dieOf r.plot ∧ s.isRemoved r.unit = false ∧ s.mayGo 3 r false = true ∧ s.firstInStream 3 r = true ∧
     s.maySend (dieOf r.plot) r.unit = true) := by decide +kernel

/-- The premises for packets, acknowledgements and frontiers: the next of its pair, a later one that arrives and that has arrived, a delivered one; a unit that
waits on a die; a frontier whose pair is covered and one whose pair is not. -/
theorem test_witness_FlitsAndCausalDelivery_packets : (packed (pk 1 0 false)).deliverable (pk 1 0 false) = true ∧ (packed (pk 1 0 false)).earlierReady (pk 1 0 false) = false ∧
    (packed (pk 1 0 false)).payloadHeld 0 (pk 1 0 false).payload = false ∧ (packed (pk 1 0 false)).slotWaitsOn 0 2 = false ∧
    (packed (pk 1 0 false)).pastRemoval (pk 1 0 false) = false ∧ (pk 1 0 false).rebase = (packed (pk 1 0 false)).rebase ∧
    (packed (pk 2 0 false)).deliverable (pk 2 0 false) = false ∧ (packed (pk 2 3 false)).deliverable (pk 2 3 false) = false ∧ (pk 2 3 false).arrived ≠ 0 ∧
    ((packed (pk 2 0 false)).packets.filter fun e => e.2.dst == 0 && e.2.arrived != 0 && !e.2.delivered).length < 2048 ∧
    1 < ((packed (pk 1 0 false)).causalAt 0).pd.length ∧ 1 < ((packed (pk 1 0 false)).causalAt 0).cv.length ∧ tfind (packed (pk 1 0 true)).packets 6 = some (pk 1 0 true) ∧
    unitDie (0 : BitVec 4).toNat ≠ (2 : BitVec 3).toNat ∧ (packed (pk 1 0 false)).isRemoved 2 = false ∧
    ({ packed { pk 2 3 false with stamp := [0, 2, 5, 0, 0, 0, 0, 0] } with asked := [] } : State).waitsOn 0 2 = true ∧
    tfind ({ packed (pk 1 0 false) with asked := [(32, ⟨List.replicate 8 0, 0⟩)] } : State).asked (16 * 2 + 0) = some ⟨List.replicate 8 0, (packed (pk 1 0 false)).rebase⟩ ∧ (packed (pk 1 0 false)).unitRemoved 0 = false ∧
    2 < ((packed (pk 1 0 false)).causalAt 0).cv.length ∧ serialLe 1 (vecAt ((packed (pk 1 0 false)).causalAt 0).pd 2) = false ∧
    (1 : BitVec 10) ≠ 0 := by decide +kernel

/-- A delivery raises the pair and cover entries and performs the event (R114, R351). -/
theorem test_delivery : let t := after (exec (.packetArrive 6) (packed (pk 1 0 false)))
    vecAt (t.causalAt 0).pd 1 = 1 ∧ t.cvOf 0 1 = 1 ∧ (t.guidonAt 0 200).map (·.count) = some 2 := by decide +kernel

/-- A vertical bus that is due, one that was deferred, one that retrains, and a barrier with a bulk transfer of a participant outstanding. -/
def bus (d : Die) : State := { State.reset with clock := 4000000, dies := [(0, d)] }
/-- Premises of FabricEvents. -/
theorem test_witness_FabricEvents : (State.reset.rebasing = .none) ∧ ({ packed (pk 2 3 false) with rebasing := .draining } : State).rebasing = .draining ∧
    (∀ e ∈ (packed (pk 2 3 false)).packets, e.2.delivered = true ∨ (packed (pk 2 3 false)).deliverable e.2 = false) ∧
    ({ State.reset with rebasing := .retransmitting } : State).packets = [] ∧ nmem (Optics.mk [] [] []).retired 3 = false ∧ nmem (Optics.mk [3] [] []).spares 3 = true ∧
    nmem (Optics.mk [3] [] [3]).retired 3 = true ∧
    (bus Die.init).present 0 = true ∧ ((bus Die.init).dieAt 0).retraining = none ∧ ((bus Die.init).dieAt 0).due ≤ (bus Die.init).clock ∧ (bus Die.init).deferRetrain 0 = false ∧
    (∀ u ∈ [3924000, 3924001], ((bus { Die.init with deferred := some u }).dieAt 0).deferred = some u) ∧ 3924000 + 76000 ≤ (bus Die.init).clock ∧
    (bus Die.init).clock < 3924001 + 76000 ∧ (∀ e ∈ (bus Die.init).words, 0 ∈ (bus Die.init).bulkDies e.1 e.2 → (bus Die.init).atBoundary e.1 e.2 4096 = true) ∧
    ((bus { Die.init with retraining := some 3999999 }).dieAt 0).retraining = some 3999999 ∧ tfind State.reset.recovery 5 = none ∧
    tfind ({ State.reset with recovery := [(5, 0)] } : State).recovery 5 = some 0 ∧ partBase ≤ (0x0F0000001380 : BitVec 48).toNat / 8 * 8 ∧
    (0x0F0000001380 : BitVec 48).toNat / 8 * 8 < partBase + 0x400 ∧ State.reset.remapPresent partitionInit = true ∧
    ({ State.reset with part := .lzx6 } : State).remapPresent partitionInit = false ∧
    (let s := { packed (pk 2 3 false) with rebasing := .draining, clock := 7600 }; s.rebaseAt + 7600 ≤ s.clock ∧ s.lastDelivery + 7600 ≤ s.clock) ∧
    (let s := { packed (pk 2 3 false) with rebasing := .draining, clock := 7599 }; s.clock < s.rebaseAt + 7600) := by decide +kernel

/-- A participant's eviction that is running. -/
def deferring : State := { (wording (.pnevict hd 8 0 false) .running [] { barr with plot := 0, arrived := 2 }) with
  insts := [(0, { inst with guidons := [(200, { barr with plot := 0, arrived := 2 })], actors := [(0, ⟨0, 0, 1, 0xFFFF, 0, 0, 0xFFFF, [], [], false⟩)] })],
  words := [(9, { wordOf (.pnevict hd 8 0 false) .running with consumed := true })], pennants := [(4, { pn [] .evicting with mover := some 9 })], clock := 4000000 }
/-- The bus whose retraining is deferred (R139). -/
theorem test_witness_FabricEvents_defer : deferring.deferRetrain 0 = true ∧ deferring.present 0 = true ∧ (deferring.dieAt 0).retraining = none ∧
    (deferring.dieAt 0).due ≤ deferring.clock := by decide +kernel

/-- Command 7 of queue 1, which acts as `i`, with opcode 2. -/
def cmdOf (i : Instr) : Cmd := { closeCmd with instr := some i }
/-- Queues 0 to 2 open, a link from 1 to 2 with three tokens, session memory of 1 MiB, command 7 to be served. -/
def served (i : Instr) : State := { guided barr id with
  sessions := [(0, { sess with hlen := 0x100000, host := [], signed := false })], dies := [(0, { Die.init with cways := 8, backing := 1 })],
  queues := [(0, CQueue.opened 7 0 0 4), (1, CQueue.opened 7 0 0x1000 4), (2, { CQueue.opened 8 1 0x2000 4 with halted := true, tail := 3, head := 3 })],
  links := [(5, ⟨1, 2, 3, false⟩)], cmds := [(7, cmdOf i)], focus := ⟨0, 0, 0, 7, 0⟩, nextId := 20, powered := true }
/-- It is the turn of the command of the focus. -/
def turn (s : State) (c : Cmd) : Bool := tfind s.cmds s.focus.cmd == some c && !c.ready && !c.served && s.serving s.focus.cmd
/-- The command is one that is checked and passes. -/
def passes (chk : Cmd → State → Option (BitVec 8)) (i : Instr) : Bool := turn (served i) (cmdOf i) && chk (cmdOf i) (served i) == none
/-- The command is one that is refused. -/
def fails (chk : Cmd → State → Option (BitVec 8)) (i : Instr) : Bool := turn (served i) (cmdOf i) && chk (cmdOf i) (served i) != none

/-- Premises of LaunchAndQueueCommands for queues and links: each command passes its check, and is refused by it. -/
theorem test_witness_LaunchAndQueueCommands : passes (checkQueueOpen 3 4 7 0 0x4000) (.queueOpen 3 4 7 0 0x4000) = true ∧
    fails (checkQueueOpen 3 3 7 0 0x4000) (.queueOpen 3 3 7 0 0x4000) = true ∧ fails (checkQueueOpen 0 4 7 0 0x4000) (.queueOpen 0 4 7 0 0x4000) = true ∧
    passes (checkQueueClose 0) (.queueClose 0) = true ∧ fails (checkQueueClose 1) (.queueClose 1) = true ∧ fails (checkQueueClose 3) (.queueClose 3) = true ∧
    (served (.queueClose 0)).queueBusy 0 0 7 false = false ∧ tfind (served (.queueClose 0)).queues 0 = some (CQueue.opened 7 0 0 4) ∧
    (served (.queueClose 0)).queueBusy 0 1 7 true = false ∧ ({ CQueue.opened 7 0 0 4 with closing := some 0 } : CQueue).drained = true ∧
    ({ CQueue.opened 7 0 0 4 with tail := 1, closing := some 1 } : CQueue).drained = false ∧
    ({ served (.queueClose 0) with cmds := [(6, { cmdOf (.queueClose 0) with queue := 0, opcode := 0x10 }), (7, cmdOf (.queueClose 0))] } : State).queueBusy 0 0 7 false = true ∧
    turn { served (.queueClose 0) with cmds := [(6, { cmdOf (.queueClose 0) with queue := 0, opcode := 0x10 }), (7, cmdOf (.queueClose 0))] } (cmdOf (.queueClose 0)) = true ∧
    passes (checkQueueReset 2) (.queueReset 2) = true ∧ fails (checkQueueReset 1) (.queueReset 1) = true ∧ (cmdOf (.queueReset 2)).stage = 0 ∧
    passes (checkLinkCreate 9 0 2) (.linkCreate 9 0 2) = true ∧ fails (checkLinkCreate 5 0 2) (.linkCreate 5 0 2) = true ∧
    passes (checkLinkDestroy 5) (.linkDestroy 5) = true ∧ fails (checkLinkDestroy 9) (.linkDestroy 9) = true ∧
    tfind (served (.linkDestroy 5)).links 5 = some ⟨1, 2, 3, false⟩ := by decide +kernel

/-- The container in DRAM, command 7 to install it with no pennant in the way, the instance 0 elsewhere. -/
def installing : State := { served (.imageInstall 0x1000 0 1 false 0 [0o76543210] []) with
  insts := [], plots := [], slots := [], regions := [], partitions := [(0, ⟨true, 0, 100, List.replicate 10 0, [0, 1, 2, 3, 4, 5, 6, 7]⟩)],
  mem := State.reset.mem.setWords 0x1000 (container.flatMap fun q => [⟨true, q.extractLsb' 0 32⟩, ⟨true, q.extractLsb' 32 32⟩]) }
/-- Premises for IMAGE_INSTALL: it passes its checks, needs plots without pennants; a k of 0 is refused. -/
theorem test_witness_LaunchAndQueueCommands_install : turn installing (cmdOf (.imageInstall 0x1000 0 1 false 0 [0o76543210] [])) = true ∧
    okAnd (installing.cmdBegun.installPlan 0 0x1000 0 1 false 0 [0o76543210] []) (fun s => (s.insts.map (·.2.plots)) == [[0]]) = true ∧
    checkImageInstall 0x1000 0 1 false 0 [0o76543210] [] (cmdOf (.imageInstall 0x1000 0 1 false 0 [0o76543210] [])) installing = none ∧
    installing.cmdBegun.pennantsOn [0] = [] ∧ fails (checkImageInstall 0x1000 0 0 false 0 [] []) (.imageInstall 0x1000 0 0 false 0 [] []) = true := by decide +kernel

/-- The instance of `served` saved, and a held slot of it. -/
def instancing (i : Instr) (sv : Saved) : State := ({ served i with
  insts := [(0, { inst with saved := sv, plots := [0], guidons := [(200, barr)], actors := [(0, ⟨0, 0, 1, 0xFFFF, 0, 0, 0xFFFF, [], [], false⟩)] })] } : State).modSlot 0 0
    fun x => { x with held := true, firing := true, tepc := 0x40 }
/-- Premises for IMAGE_REMOVE, PREEMPT, RESTORE and the held slots, and their refusals. -/
theorem test_witness_LaunchAndQueueCommands_instances : (∀ i ∈ [Instr.imageRemove 0, .preempt 0, .slotResume 0 0 0, .slotKill 0 0 0], let s := instancing i .running
      turn s (cmdOf i) = true ∧ (s.instOf 0 0).any (fun x => x.launch == none && x.saved == .running && x.gang == none && x.plots == [0]) = true ∧
      (s.cmdBegun.endAttachments 0).pennantsOn [0] = [] ∧ (s.slotAt 0 0).held = true) ∧
    (let s := instancing (.restore 0) .saved
     turn s (cmdOf (.restore 0)) = true ∧ (s.instOf 0 0).any (fun x => x.saved == .saved && x.gang == none && x.plots.all fun p => !s.isRemoved (dieOf p)) = true ∧
     s.cmdBegun.toRefill [0] = []) ∧
    fails (checkImageRemove 1) (.imageRemove 1) = true ∧ fails (checkPreempt 1) (.preempt 1) = true ∧ fails (checkRestore 0) (.restore 0) = true ∧
    fails (checkHeld 0 0 1) (.slotResume 0 0 1) = true ∧ fails (checkHeld 0 0 1) (.slotKill 0 0 1) = true := by decide +kernel

/-- A launch with one stream port, port 8 of plot 0, and its extension entry: a drain to LINEAR chunks of 32 bytes at 0x200. -/
def bindI : Instr := .bindStreams 0x77 1 0 0 [[0x30000000200, 0x200000020, 0, 0, 0, 0, 0, 0]]
/-- The launch dispatched to the instance 0. -/
def launching : State := let s := regioned { regn with ports := [⟨3, 0, 8, 1, 2, 0, 0, 1, 0, 5⟩], modes := 3, armed := true };
  { s with
    cmds := [(7, { cmdOf bindI with inst := 0, opcode := 0x10 })], focus := ⟨0, 0, 0, 7, 0⟩, nextId := 20,
    insts := [(0, { inst with launch := some 7, guidons := [(100, { guid 0 with parent := 0xFF })] })] }
/-- Premises for BIND_STREAMS: its port is free and its plot awake, its record binds. -/
theorem test_witness_LaunchAndQueueCommands_bind : launching.streamPorts 0 = [(8, ⟨3, 0, 8, 1, 2, 0, 0, 1, 0, 5⟩)] ∧ (launching.portAt 8).bind = none ∧
    (launching.plotAt 0).awake = true ∧ tfind launching.cmds 7 = some { cmdOf bindI with inst := 0, opcode := 0x10 } ∧
    (tfind launching.insts 0).any (fun x => x.saved == .running && x.rootGuidon == some 100) = true ∧
    okAnd ((launching.launchRecords (launching.streamPorts 0) [[0x30000000200, 0x200000020, 0, 0, 0, 0, 0, 0]]).bindItems 7 1 (launching.streamPorts 0) 1
      [[0x30000000200, 0x200000020, 0, 0, 0, 0, 0, 0]] |>.mapError (·.1)) (fun s => tfind s.cmds 7 == some { cmdOf bindI with inst := 0, opcode := 0x10 }) = true := by decide +kernel

/-- A link is created without tokens (R376), a queue opens empty (R414), a held slot goes on at TEPC (R388). -/
theorem test_commands : tfind (after (exec (.linkCreate 9 0 2) (served (.linkCreate 9 0 2)))).links 9 = some ⟨0, 2, 0, false⟩ ∧
    (tfind (after (exec (.queueOpen 3 4 7 0 0x4000) (served (.queueOpen 3 4 7 0 0x4000)))).queues 3).map (·.halted) = some false ∧
    ((after (exec (.slotResume 0 0 0) (instancing (.slotResume 0 0 0) .running))).slotAt 0 0).pc = 0x40 := by decide +kernel

/-- Command 7 acts as `i`; two pennants: name 8 in the state given, name 16 attached. -/
def naming (i : Instr) (st : PnState) : State := { served i with pennants := [(9, pn [] st), (10, { pn [(0, 0)] .resident with name := 16, home := 1 })] }
/-- Command 7 acts as `i` with a request parked under fault id 3 and words in the scratchpad. -/
def parking (i : Instr) (op : Op) : State := { served i with
  reqs := [(2, { rq op (wv 7) with stage := .parked 3 })], transients := [(5, ⟨200, 9, false, [], none⟩)], clock := 100, logSeq := 2,
  log := [⟨1, 1, 2, 3, 4⟩, ⟨2, 2, 2, 3, 4⟩], mem := State.reset.mem.setWords 0x30000000200 [⟨true, 7⟩, ⟨true, 8⟩] }

/-- Premises of FirmwareServiceCommands for pennants: free and attached, evicted and resident, not in view. -/
theorem test_witness_FirmwareServiceCommands : (∀ st ∈ [PnState.resident, .evicted], ∀ i ∈ [Instr.pnAdminDrop 8, .pnAdminEvict 8, .pnAdminFill 8 0], let s := naming i st
      turn s (cmdOf i) = true ∧ s.visible (some 0) 8 = some (9, pn [] st) ∧ (pn [] st).mustWait (pnCmdWaiter 7) = false ∧ (pn [] st).mover ≠ some (pnCmdWaiter 7) ∧
      s.evictable (pn [] st) = true ∧ s.moveHeld (pn [] st) true = false ∧ s.moveRemoved (pn [] st) 0 = none ∧ ({ s with removed := 1 } : State).moveRemoved (pn [] st) 0 = some 0 ∧ s.fillOrigin 0 0 = true ∧ s.placeOk (s.minePlots 0) 0 1 1 0 4096 = true) ∧
    (naming (.pnAdminDrop 16) .evicted).visible (some 0) 16 = some (10, { pn [(0, 0)] .resident with name := 16, home := 1 }) ∧
    (naming (.pnAdminEvict 16) .evicted).evictable (pn [(0, 0)] .resident) = false ∧ ({ served (.pnAdminFill 8 0) with pennants := [(9, pn [] .evicted)] } : State).rangeTaken (some 9) [0] 0 4096 = false ∧
    (rectPlots 0 1 1).getD [] = [0] ∧ fails (checkPnName 24) (.pnAdminDrop 24) = true ∧ fails (checkPnName 24) (.pnAdminEvict 24) = true ∧ fails (checkPnName 24) (.pnAdminFill 24 0) = true := by
  decide +kernel

/-- The premises for lists, transient regions, parked requests, shootdowns. -/
theorem test_witness_FirmwareServiceCommands_regions : passes (fun c s => checkList 0 (8 * min 2 (s.visibleNames c.sess).length) c s) (.pnAdminList 0 2) = true ∧
    checkList 0xFFFF8 16 (cmdOf (.pnAdminList 0xFFFF8 2)) (naming (.pnAdminList 0xFFFF8 2) .resident) = some 0 ∧ ((naming (.pnAdminList 0xFFFF8 2) .resident).visibleNames 0) = [8, 16] ∧
    passes (checkDeclare 0x7FFFFFFFFF 64000) (.regionDeclare 0x7FFFFFFFFF 64000 true) = true ∧ fails (checkDeclare 0x8000000000 1) (.regionDeclare 0x8000000000 1 true) = true ∧
    fails (checkDeclare 0 64001) (.regionDeclare 0 64001 false) = true ∧ turn (served (.regionUndeclare 0xA00000)) (cmdOf (.regionUndeclare 0xA00000)) = true ∧
    tfind (parking (.regionUndeclare 0xA00000) .sqld).transients (0xA00000 / 0x200000) = some ⟨200, 9, false, [], none⟩ ∧ (parking (.regionUndeclare 0xA00000) .sqld).clock < 200 ∧
    refuseIf (decide (0x8000000000 ≤ (0x8000000000 : BitVec 48).toNat)) = some 0 ∧
    (parking (.faultReplay 3) .sqld).parkedReq 3 = some (2, { rq .sqld (wv 7) with stage := .parked 3 }) ∧ turn (parking (.faultDecline 3) .sqld) (cmdOf (.faultDecline 3)) = true ∧
    (let s := parking (.faultDecline 3) (.ld 4 false); let r := { rq (.ld 4 false) (wv 7) with stage := .parked 3 }
     s.parkedReq 3 = some (2, r) ∧ tfind s.reqs 2 = some r ∧ s.behind 2 r.plot r.slot r.oc r.va = [] ∧ r.op.reads = true ∧
     (∀ e ∈ s.reqs, e.2.stage = .parked 3 → e.1 = 2) ∧ ∀ e ∈ s.walks, e.2.parked ≠ some 3) ∧ fails (checkParked 3) (.faultReplay 3) = true ∧
    fails (checkParked 3) (.faultDecline 3) = true ∧ (∀ i ∈ [Instr.shootdownAsid 0, .shootdownPage 0 64, .shootdownAll 0], turn (served i) (cmdOf i) = true ∧ (served i).asidOf 0 = some 0) := by
  decide +kernel

/-- The premises for fences, partitions, copies and the log. -/
theorem test_witness_FirmwareServiceCommands_rest : passes (checkFence 1) (.dieFence 1) = true ∧ ((served (.dieFence 1)).dieAt 1).fenced = false ∧ (served (.dieFence 1)).instsOn 1 = [] ∧
    checkFence 0 (cmdOf (.dieFence 0)) { served (.dieFence 0) with dies := (List.range 7).map fun d => (d + 1, { Die.init with fenced := true }) } = some 0 ∧
    ({ served (.partitionSet 0 partitionInit) with insts := [] } : State).insts = [] ∧ turn { served (.partitionSet 0 partitionInit) with insts := [] } (cmdOf (.partitionSet 0 partitionInit)) = true ∧
    (served (.partitionSet 0 partitionInit)).insts ≠ [] ∧ (served .nop).remapPresent partitionInit = true ∧
    ({ served .nop with part := .lzx6 } : State).remapPresent { partitionInit with remap := [7] } = false ∧
    (∀ th ∈ [true, false], let i := Instr.hostCopy 0x80 0x30000000200 8 th true 0; let s := parking i .sqld
      turn s (cmdOf i) = true ∧ checkHostCopy 0x80 0x30000000200 8 true 0 (cmdOf i) s = none ∧ s.copyWords 0x30000000200 true 0 2 0 = some [0x30000000200, 0x30000000204]) ∧
    fails (checkHostCopy 0x80 0x30000000200 6 true 0) (.hostCopy 0x80 0x30000000200 6 true true 0) = true ∧
    turn (parking (.logRead 0 2) .sqld) (cmdOf (.logRead 0 2)) = true ∧ checkList 0 (32 * min 2 2) (cmdOf (.logRead 0 2)) (parking (.logRead 0 2) .sqld) = none ∧
    checkList 0xFFFE0 (32 * min 2 2) (cmdOf (.logRead 0xFFFE0 2)) (parking (.logRead 0xFFFE0 2) .sqld) = some 0 := by decide +kernel

/-- A copy to the host writes the words in byte order (R416); a drop of an attached pennant answers ATTACHED (R174). -/
theorem test_firmware : let t := after (exec (.hostCopy 0x80 0x30000000200 8 true true 0) (parking (.hostCopy 0x80 0x30000000200 8 true true 0) .sqld))
    (tfind t.sessions 0).map (fun x => (tget 0 x.host 0x80, tget 0 x.host 0x84)) = some (7, 8) ∧
    (tfind (after (exec (.pnAdminDrop 16) (naming (.pnAdminDrop 16) .resident))).cmds 7).map (·.cause) = some 6 := by decide +kernel

/-- A port with a read binding or a write binding, changed by `f`, with the beats given. -/
def portBound (f : Binding → Binding) (read : Bool) (buf : List Beat) : State :=
  { wording (.bindr hd 1 true) .queued [mapOf 1] evNode with ports := [(0, { Port.init with bind := some (f (bound read)), tag := 2, buf })] }
/-- A beat of ones. -/
def ones : Beat := beatOf (List.replicate 8 ⟨true, 0x3F800000⟩)
/-- A frozen, halting, running or scrubbed region 3, with a group on the ring and a member. -/
def rung (m : Option Member) (f : Region → Region) : State :=
  let s := wording (.bindr hd 1 true) .queued [mapOf 1] evNode
  { s with regions := [(3, f { regn with modes := 3, armed := true, member := m, wtag := [(0, 2)], ring := [⟨9, 1, 1, 1, 2, [ones], true⟩] })] }
/-- A member that takes groups 0 and 1. -/
def mb : Member := ⟨3, 0, 0, 1, false, 0, 0, 1⟩

/-- Premises of EngineAndRegionEvents for ports: a read port whose eight words are read, one told to end, one that faulted before and after a beat, one with a full
buffer; a write port with a beat, one that holds its EOS. -/
theorem test_witness_EngineAndRegionEvents : (let s := portBound id true []
      (s.portAt 0).bind = some (bound true) ∧ s.portFrozen 0 = false ∧ s.instRuns 0 = true ∧ (bound true).discard = false ∧ (bound true).unbind = [] ∧ (bound true).cur = [] ∧
      32 ≤ (bound true).pat.bytes - (bound true).pos ∧
      doneAnd (s.engineRead (0 / 16) 0 (portTicket 0) (bound true).sig none ((bound true).pat.srcs (0 / 16) 0 8) []) (fun ws _ => ws.length == 8) = true) ∧
    ((portBound (fun b => { b with unbind := [9] }) true []).portAt 0).bind = some { bound true with unbind := [9] } ∧
    (∀ n ∈ [0, 8], ((portBound (fun b => { b with discard := true, words := n }) true []).portAt 0).bind = some { bound true with discard := true, words := n }) ∧
    16 ≤ ((portBound id true (List.replicate 16 ones)).portAt 0).buf.length ∧
    (let s := (portBound id false [ones]).settlePort 0
     (s.portAt 0).bind = some (bound false) ∧ (s.portAt 0).buf = [ones] ∧ s.portFrozen 0 = false ∧ (portBound id false [ones]).instRuns 0 = true ∧ s.instRuns 0 = true ∧
     s.engineStalls (portTicket 0) = false ∧ (bound false).cur = []) ∧
    (let s := (portBound (fun b => { b with cur := eosWords 2 0 8 }) false []).settlePort 0
     (s.portAt 0).bind = some { bound false with cur := eosWords 2 0 8 } ∧ (eosWords 2 0 8).head?.map isEos = some true ∧ s.portFrozen 0 = false ∧ s.instRuns 0 = true) := by
  decide +kernel

/-- A posting header. -/
def hdPost : SwHdr := ⟨0, 0, false, true, 7⟩
/-- A finished EVT or MTOK of slot 0, ticket 1, with the arc 7 at a count and 8 at another. -/
def posting (w : Instr) (consumed : Bool) (a b : BitVec 8) : State :=
  ({ wording w .finishing [] evNode with words := [(9, { wordOf w .finishing with consumed })] } : State).modPlot 0 fun p => { p with arcs := [(7, a), (8, b)] }
/-- The same with an MTOK. -/
def mtokPost : Instr := .mtok hdPost 0 false 0 0 0 0 0 0 0
/-- The premises for completions: an arc below 255 and at 255; an MTOK neither consumed nor done, and consumed. -/
theorem test_witness_EngineAndRegionEvents_words : (∀ a ∈ [254, 255], let s := posting (.evt hdPost 200 1) false a 0
      s.words.find? (fun e => e.2.plot == 0 && e.2.slot == 0 && e.2.ticket == 1) = some (9, wordOf (.evt hdPost 200 1) .finishing) ∧ s.arcCount 0 7 = a ∧ s.instLive 0 = true) ∧
    wordHdr (.evt hdPost 200 1) = some hdPost ∧ isMtok (.evt hdPost 200 1) = false ∧ hdPost.post = true ∧ hd.post = false ∧
    (∀ i ∈ [Instr.bindr hdPost 1 true, .bindw hdPost 1], (posting i false 0 0).words.find? (fun e => e.2.plot == 0 && e.2.slot == 0 && e.2.ticket == 1) =
      some (9, wordOf i .finishing) ∧ wordHdr i = some hdPost ∧ (posting i false 0 0).instLive 0 = true) ∧
    (∀ c ∈ [true, false], (posting mtokPost c 0 0).words.find? (fun e => e.2.plot == 0 && e.2.slot == 0 && e.2.ticket == 1 && isMtok e.2.instr) =
      some (9, { wordOf mtokPost .finishing with consumed := c })) ∧ wordHdr mtokPost = some hdPost ∧ (posting mtokPost false 0 0).arcCount 0 8 ≠ 255 := by decide +kernel

/-- The premises for regions: a group at no member and at one, scrubs of an armed region at its first and a later error, a reload, a halt. -/
theorem test_witness_EngineAndRegionEvents_regions : (∀ m ∈ [none, some mb], let s := rung m id
      (tfind s.regions (regionKey 0 3)).any (fun r => r.ring.length == 1 && s.ringNext 3 r == none && r.member == m && r.armed && !r.lost && !ringLoads r mb) = true ∧ s.regionFrozen 3 = false) ∧
    (rung (some mb) id).regions.all (fun e => e.2.ring.all fun g => mb.mask.getLsbD g.id && memberCause e.2 mb g == none && !ringHeld e.2 mb g) = true ∧
    ((rung none id).plotAt 0).region ≠ none ∧
    ((rung (some mb) fun r => { r with mq := [⟨11, .wld hd false 0 0 0 0 0 false, 0, 0, false, 5, 0, 2, 0, false, [], false, []⟩] }).regions.all fun e => ringLoads e.2 mb) = true ∧
    ((rung (some mb) fun r => { r with mq := [⟨11, .accz hd true 0 0 2 0 false false, 0, 0, false, 5, 0, 2, 0, false, [], false, []⟩] }).regions.all fun e =>
      !ringLoads e.2 mb && e.2.ring.all fun g => ringHeld e.2 mb g && memberCause e.2 mb g == none) = true ∧
    (let r := { regn with routes := [⟨3, 0, 0, 4, 0, 0, 0, 2, 0, [], 0⟩], ring := [⟨9, 1, 1, 1, 2, [ones], true⟩] }
     let s : State := { rung none id with regions := [(3, r), (4, { r with index := 4 })] }
     s.ringNext 3 r = some 4 ∧ (tfind s.regions 4).any (fun q => q.ring != []) = true) ∧
    (rung (some { mb with m := 2 }) id).regions.all (fun e => e.2.ring.all fun g => memberCause e.2 { mb with m := 2 } g == some 0x32) = true ∧
    (rung (some { mb with mask := 1 }) id).regions.all (fun e => e.2.ring.all fun g => !({ mb with mask := 1 } : Member).mask.getLsbD g.id && memberCause e.2 { mb with mask := 1 } g == none) = true ∧ (rung none fun r => { r with errors := 1 }).regions.all (fun e => e.2.errors != 0) = true ∧
    (rung none fun r => { r with frozenLoad := true }).regions.all (fun e => e.2.frozenLoad && !e.2.lost) = true ∧ regn.errors = 0 ∧
    tfind ({ rung none id with insts := [(0, { inst with saved := .halting })] } : State).insts 0 = some { inst with saved := .halting } := by decide +kernel

/-- A beat on its way from the read port 0 to the port 1. -/
def beating : State := { wording (.bindr hd 1 true) .queued [mapOf 1, { mapOf 3 with port := 1, recIdx := 6 }] evNode with chans := [(6, ⟨0, [1], some ones, none⟩)] }
/-- The premises for channels. -/
theorem test_witness_EngineAndRegionEvents_channel : tfind beating.chans 6 = some ⟨0, [1], some ones, none⟩ ∧ (∀ e ∈ beating.chans, 6 ≤ e.1 ∨ e.2.src ≠ 0) ∧
    beating.portFrozen 0 = false ∧ beating.canTake 0 1 = true ∧ beating.laneStalls 0 1 = false ∧
    ({ beating with ports := [(1, { Port.init with buf := List.replicate 16 ones })] } : State).canTake 0 1 = false ∧ ({ beating with partitions := [(0, { partitionInit with en := true, limit := 7 })] } : State).backed (0x1234 / 64 * 64) = true := by decide +kernel

/-- A read binding's beat enters its buffer (R214); a write binding's beat is stored (R215); a word that posts raises its arc and leaves (R206); a second
uncorrectable error loses the region (R251). -/
theorem test_engine : ((after (exec (.bindrBeat 0 0) (portBound id true []))).portAt 0).buf = [ones] ∧
    (after (exec (.bindwBeat 0 0) (portBound id false [beatOf (List.replicate 8 ⟨true, 9⟩)]))).mem.word 0x3000000021C = ⟨true, 9⟩ ∧
    ((after (exec (.streamWordComplete 0 0 1) (posting (.evt hdPost 200 1) false 254 0))).arcCount 0 7, (after (exec (.streamWordComplete 0 0 1) (posting (.evt hdPost 200 1) false 254 0))).words)
      = (255, []) ∧
    ((after (exec (.configScrub 0 3 .uncorrectable) (rung none fun r => { r with errors := 1 }))).regions.map (·.2.lost)) = [true] := by decide +kernel

/-- Actor 0 on slot 0 and actor 1 on slot 1 of plot 0, with the parent given, their guidon 100 of kind SEQ, the guidon 200 as given; slot 0 changed by `f`. -/
def acting (parent : Nat) (g : Guidon) (f : Slot → Slot) : State :=
  { ((guided g f).modSlot 0 1 fun x => { x with actor := some (0, 1), passed := 2, permits := 255 }) with
    insts := [(0, { inst with
      guidons := [(100, { guid 0 with active := true, running := 0, sentP := [0], mask := 1 }), (200, g)],
      actors := [(0, ⟨0, 0, 1, 0xFFFF, 0x40, 7, parent, [], [], false⟩), (1, ⟨0, 1, 1, 0xFFFF, 0, 0, 0xFF, [], [], false⟩)] })], clock := 100 }
/-- With the one token under way. -/
def tokened (t : Payload) : State := { acting 100 barr id with tokens := [(6, t)], words := [(9, wordOf (.arrv hd 0 1 2 0 3) .running)] }

/-- Premises of ActorEvents for firings and tokens: a slot that is chosen with a parent and without, one that is not; PERMITs for both, a DONE, a settled firing
and one with a word outstanding. -/
theorem test_witness_ActorEvents : (∀ p ∈ [0xFF, 100], let s := acting p barr fun x => { x with permits := 2, passed := 30 }
      s.bestSlot 0 (·.passed) (s.readySlots 0) = some 0 ∧ (s.actorOf 0 0).any (fun e => e.2.2.entry == 0x40) = true) ∧
    (let s := acting 100 barr id; s.bestSlot 0 (·.passed) (s.readySlots 0) = some 1) ∧
    (let s := tokened (.permit 0 false 1)
     (∀ e ∈ s.insts, ∀ c ∈ e.2.ctx, c.plot ≠ 0) ∧ tfind s.tokens 6 = some (.permit 0 false 1) ∧ (tfind s.insts 0).any (fun x => (tfind x.actors 1).isSome && (tfind x.guidons 100).isSome) = true ∧
     (s.slotAt 0 1).permits = 255 ∧ tfind (tokened (.permit 0 true 100)).tokens 6 = some (.permit 0 true 100)) ∧
    (tokened (.done 0 100 false 0)).guidonAt 0 100 ≠ none ∧
    (∀ w ∈ [[], [(3, wordOf (.evt hd 200 1) .running)]], let s := { acting 100 barr (fun x => { x with doneOwed := [(5, 0)] }) with words := w }
      (s.slotAt 0 0).doneOwed = [(5, 0)] ∧ s.settled 0 0 5 = w.isEmpty ∧ (s.actorOf 0 0).any (fun e => e.1 == 0 && e.2.2.parent == 100) = true ∧
      (s.slotAt 0 0).actor = some (0, 0)) ∧
    (let s := tokened (.arrv 9 0 1 2 0 3)
     tfind s.tokens 6 = some (.arrv 9 0 1 2 0 3) ∧ (s.plotAt 0).triggers = [] ∧ tfind s.words 9 = some (wordOf (.arrv hd 0 1 2 0 3) .running)) ∧
    32768 ≤ ((0 : BitVec 16) - 1).toNat ∧ ((3 : BitVec 16) - 3).toNat < 32768 := by decide +kernel

/-- The premises for times: a barrier before and at its deadline, a firing beyond FIREWD and one without a limit, an IDLE before and at its end, a pending trap, a
WATCHDOG in a handler, a pennant idle for long and for not long enough. -/
theorem test_witness_ActorEvents_times : (∀ d ∈ [100, 101], let s := acting 100 { barr with deadline := some d } id
      (s.guidonAt 0 200).map (·.deadline) = some (some d) ∧ (tfind s.insts 0).any (fun x => x.saved == .running) = true ∧ s.clock = 100) ∧
    (∀ l ∈ [1, 0], let s := { acting 100 barr (fun x => { x with firing := true, firewd := BitVec.ofNat 64 l }) with clock := 1901 }
      (s.slotAt 0 0).firing = true ∧ (s.slotAt 0 0).held = false ∧ (s.slotAt 0 0).wdFired = false ∧ ((s.slotAt 0 0).firewd.extractLsb' 0 32) = BitVec.ofNat 32 l ∧
      1 * 1900 < s.clock - (s.slotAt 0 0).fstart ∧ s.instLive 0 = true) ∧
    (∀ e ∈ [100, 101], ((acting 100 barr fun x => { x with idleEnd := some e }).slotAt 0 0).idleEnd = some e) ∧
    (∀ h ∈ [true, false], let e : Pend := ⟨.watchdog, ⟨0x58, 3, 0⟩⟩; let s := acting 100 barr fun x => { x with
        firing := true, tvec := 0x80, pend := [⟨.config, ⟨0x40, 0, 0⟩⟩, e], tcause := if h then 0x100 else 0 }
      (s.slotAt 0 0).nextPend = some e ∧ (s.slotAt 0 0).ih = h ∧ (((s.withdraw 0 0).orphan 0 0).slotAt 0 0).wait = none ∧
      ((s.withdraw 0 0).orphan 0 0).pnHeld 0 = false ∧ s.plotRuns 0 = true ∧ (s.slotAt 0 0).tvec ≠ 0) ∧
    (let p := { pn [] .resident with idle := 30, idleFrom := some 3 }; let s := pnState [(9, p)]
     s.pennants.find? (fun e => e.2.name == 8 && e.2.life == 0 && e.2.sess == 0) = some (9, p) ∧ p.moving = false ∧ p.queue = [] ∧ s.moveHeld p true = false ∧ s.moveRemoved p p.origin = none ∧
     s.clock < 3 + max 1 (p.idle.toNat * 1900) ∧ 3 + max 1 (p.idle.toNat * 1900) ≤ ({ s with clock := 57003 } : State).clock) := by decide +kernel

/-- A firing begins at its entry with its argument (R345); a 256th permit is not counted (R348); ARRV of rows 0 to 3 counts 4 (R225); a pending trap is taken (R388). -/
theorem test_actors : let t := after (exec (.firingStart 0 0) (acting 100 barr fun x => { x with permits := 2, passed := 30 }))
    ((t.slotAt 0 0).pc, (t.slotAt 0 0).gReg 0 2, (t.slotAt 0 0).permits) = (0x40, wv 7, 1) ∧
    ((after (exec (.permitReceive 6) (tokened (.permit 0 false 1)))).slotAt 0 1).permits = 255 ∧
    (tget ⟨0, 0, 0⟩ ((after (exec (.arrvApply 6) (tokened (.arrv 9 0 1 2 0 3)))).plotAt 0).arrivals 1) = ⟨4, 2, 15⟩ ∧
    (((after (exec (.asyncTrap 0 0) (acting 100 barr fun x => { x with firing := true, tvec := 0x80, pend := [⟨.watchdog, ⟨0x58, 3, 0⟩⟩] })))).slotAt 0 0).tcause = 0x158 := by
  decide +kernel

/-- A NOP-like command entry: QUEUE_CLOSE of queue 9, seq 0, of one entry, with `npatch` patches of tag 3 at 40. -/
def entryOf (seq : BitVec 16) (npatch : BitVec 3) : List Word :=
  [(0#13 ++ npatch ++ 3#16 ++ seq ++ 0#16) ||| 0x02, 0, if npatch = 0 then 0 else 8, 9, 0, 0, 0, 0]
/-- Queue 1 with that entry at its head. -/
def fronted (e : List Word) : State := { served (.queueClose 5) with
  cmds := [], queues := [(1, { CQueue.opened 7 0 0x1000 4 with tail := 1, entries := [(0, e)] })], patchMsgs := [(6, ⟨0, 1, 0, 3, 77, 9⟩)] }
/-- Premises of FrontEndEvents: a queue pair that takes, a queue whose plan is a halt, a refusal, a dispatch. -/
theorem test_witness_FrontEndEvents : (fronted (entryOf 0 0)).qpTakes 7 0 = true ∧ tfind (fronted (entryOf 0 0)).queues (queueKey 0 1) =
      some { CQueue.opened 7 0 0x1000 4 with tail := 1, entries := [(0, entryOf 0 0)] } ∧ ((64 : BitVec 16) - 0).toNat ≤ 64 ∧ 64 < ((65 : BitVec 16) - 0).toNat ∧
    (∀ e ∈ [entryOf 1 0, entryOf 0 0 |>.set 1 0xC000, entryOf 0 0], (fronted e).nextQueue = some 1) ∧
    ((fronted (entryOf 1 0)).queues.map fun e => (fronted (entryOf 1 0)).plan 0 1 e.2) = [.halt] ∧
    ((fronted (entryOf 0 0 |>.set 1 0xC000)).queues.map fun e => (fronted (entryOf 0 0 |>.set 1 0xC000)).plan 0 1 e.2) = [.refuse [0]] ∧
    ((fronted (entryOf 0 0)).queues.map fun e => (fronted (entryOf 0 0)).plan 0 1 e.2) = [.pass [0]] ∧
    ((fronted (entryOf 0 0)).queues.map fun e => (fronted (entryOf 0 0)).plan 0 1 { e.2 with checked := [0] }) = [.go [(0, entryOf 0 0, .queueClose 9, none)]] ∧
    (served (.queueClose 5)).nextQueue ≠ some 0 := by decide +kernel

/-- The premises for links, patches and completions: counts below the limit and at it, a patch for a queue that is gone, a slot of the pending command and one beyond,
a command complete with a record and without, one refused, one not complete. -/
theorem test_witness_FrontEndEvents_rest : tfind (served (.queueClose 5)).links 5 = some ⟨1, 2, 3, false⟩ ∧
    tfind ({ served (.queueClose 5) with links := [(5, ⟨1, 2, 0xFFFF, false⟩)] } : State).links 5 = some ⟨1, 2, 0xFFFF, false⟩ ∧
    tfind (fronted (entryOf 0 1)).patchMsgs 6 = some ⟨0, 1, 0, 3, 77, 9⟩ ∧ tfind ({ fronted (entryOf 0 1) with queues := [] } : State).queues (queueKey 0 1) = none ∧
    (∀ n ∈ [0, 1], (tfind (fronted (entryOf 0 n)).queues (queueKey 0 1)).any (fun q => q.pending == [0] && ptagOf (q.entryAt 0) == 3 && npatchOf (q.entryAt 0) == n.toNat) = true) ∧
    (∀ l ∈ [[3], []], let q := { CQueue.opened 7 0 0x1000 4 with late := l, patches := (List.range 64).map fun i => (i + 20, ⟨0, 0, none⟩) }
      let s := { fronted (entryOf 0 1) with queues := [(1, q)] }
      q.pending = [] ∧ nmem q.late 3 = !l.isEmpty ∧ 64 ≤ s.heldPatches ∧ tfind q.patches (4 * 3 + 0) = none ∧
      ({ s with queues := [(1, { q with patches := q.patches.drop 1 })] } : State).heldPatches < 64) ∧
    (let c := { cmdOf (.queueClose 1) with ready := true }; let s := { served (.queueClose 1) with cmds := [(7, c)], queues := [(1, { CQueue.opened 7 0 0 4 with closing := some 0 })] }
     tfind s.cmds 7 = some c ∧ s.completes c = true ∧ tfind s.queues (queueKey 0 1) = some { CQueue.opened 7 0 0 4 with closing := some 0 } ∧ c.opcode = 2 ∧ c.status = 0) ∧
    (∀ c ∈ [true, false], let x := { cmdOf (.queueClose 5) with ready := true, crec := c }
      tfind ({ served (.queueClose 5) with cmds := [(7, x)] } : State).cmds 7 = some x ∧ (served (.queueClose 5)).completes x = true) ∧
    (served (.queueClose 5)).completes { cmdOf (.queueClose 5) with ready := true, status := 1 } = true ∧ (served (.queueClose 5)).completes (cmdOf (.queueClose 5)) = false ∧
    tfind (served (.queueClose 5)).queues (queueKey 0 1) = some (CQueue.opened 7 0 0x1000 4) ∧ (tfind (served (.queueClose 5)).sessions 0).isSome = true := by decide +kernel

/-- A dispatch makes the command with its instruction (R374); a doorbell 65 beyond the head halts the queue (R371); a patch is held (R378). -/
theorem test_frontend : ((after (exec (.commandDispatch 0 1) (after (exec (.commandDispatch 0 1) (fronted (entryOf 0 0)))))).cmds.map (·.2.instr)) = [some (.queueClose 9)] ∧
    ((after (exec (.doorbell 0 1 7 0 65) (fronted (entryOf 0 0)))).queues.map (·.2.halted)) = [true] ∧
    ((after (exec (.patchArrive 6) (fronted (entryOf 0 1)))).queues.map (·.2.patches)) = [[(12, ⟨77, (fronted (entryOf 0 1)).clock, none⟩)]] := by decide +kernel

/-- Bytes of a message's quadwords. -/
def msg (l : List Word) : List Byte := l.flatMap quadBytes
/-- A SESSION_OPEN with no key: session key 0x22, 64 KiB of memory, queue 0 of 2^4 records at 0 on queue pair 7 of port 0. -/
def opening : List Byte := msg ([0x4C5A534F00000000, 0x22, 0x100000, 0x10000, 5, 30, 0x0000000007000400, 0] ++ List.replicate 52 0)
/-- Premises of SessionsAndEnvironment for messages: a management pair and another, an open that is refused and one that is not, known sessions, good and bad forms. -/
theorem test_witness_SessionsAndEnvironment : (served (.queueClose 5)).managed 1 (served (.queueClose 5)).focus.port.toNat = true ∧ (served (.queueClose 5)).managed 7 0 = false ∧
    (served (.queueClose 5)).powered = true ∧ State.reset.powered = false ∧ State.reset.managed 1 State.reset.focus.port.toNat = false ∧ (served (.queueClose 5)).openRefused opening = false ∧ (served (.queueClose 5)).openRefused [] = true ∧
    (List.range 16).find? (fun k => (tfind (served (.queueClose 5)).sessions k).isNone) = some 1 ∧ msgFits (msg [0x4C5A534300000000, 0x1111111111111111]) 16 0x4C5A5343 0 = true ∧
    msgFits (msg [0x4C5A534300000001, 0x1111111111111111]) 16 0x4C5A5343 0 = false ∧ (served (.queueClose 5)).sessionOf (msgQ (msg [0x4C5A534300000000, 0x1111111111111111]) 8) = some 0 ∧
    msgFits (msg [0x4C5A534100000000, 3]) 16 0x4C5A5341 0 = true ∧ msgFits [] 16 0x4C5A5341 0 = false ∧ syncMalformed [] = true ∧
    (let m := msg [0x4C5A535900000000, 3, 0x1111111111111111, 0x1111111111111111, 0, 0xFFFF]; let s := served (.queueClose 5)
     syncMalformed m = false ∧ s.sessionOf (msgQ m 0x10) = some 0 ∧ s.sessionOf (msgQ m 0x18) = some 0 ∧ (tfind s.sessions 0).isSome = true ∧
     ((s.summary 0 (msgQ m 8)).flatMap quadBytes).length + 96 ≤ uAt (msgQ m 0x28) 0 40 ∧
     (tfind s.sessions 0).any (fun x => x.inside (uAt (msgQ m 0x20) 0 48) (((s.summary 0 (msgQ m 8)).flatMap quadBytes).length + 96)) = true ∧
     uAt (msgQ (msg [0x4C5A535900000000, 3, 0x1111111111111111, 0x1111111111111111, 0, 0]) 0x28) 0 40 = 0) := by decide +kernel

/-- The module with a session in error since time 5, at a time. -/
def erring (clock : Nat) : State := { served (.queueClose 5) with
  clock, sessions := [(0, { sess with errSince := some 5 })], queues := [(0, CQueue.opened 7 0 0 4)], qpDown := [0] }
/-- The premises for times, heat and defects. -/
theorem test_witness_SessionsAndEnvironment_times : (∀ n ∈ [19000000004, 19000000005], tfind (erring n).sessions 0 = some { sess with errSince := some 5 } ∧ (erring n).clock = n ∧
      (erring n).allDown 0 = true) ∧ State.reset.powered = false ∧ ({ State.reset with powered := true } : State).powered = true ∧ (erring 0).present 1 = true ∧
    ((erring 0).dieAt 1).hot = false ∧ (({ erring 0 with dies := [(1, { Die.init with hot := true })] } : State).dieAt 1).hot = true ∧
    ({ erring 0 with part := .lzx6 } : State).present 7 = false ∧ (0x10000003 : BitVec 32).extractLsb' 16 16 = 0x1000 ∧ (0x10010003 : BitVec 32).extractLsb' 16 16 ≠ 0x1000 ∧
    1 ≠ (0 : BitVec 2).toNat ∧
    defectEntryOk 0x10000003 = true ∧ defectEntryOk 0x20000003 = true ∧ defectEntryOk 0x30000003 = true ∧ defectEntryOk 0x40000003 = false ∧ defectEntryOk 0x20000403 = false ∧
    ([partitionInit] : List PartitionVal)[0]? = some partitionInit := by decide +kernel

/-- A queue pair in use, a new one and the management pair of a port with room are ready (R411). -/
theorem test_queue_pairs : let s := { served (.queueClose 5) with queues := (List.range 3).map fun i => (i, CQueue.opened (i + 2) 0 0 4) }
    s.qpReady 3 0 = true ∧ s.qpReady 7 0 = true ∧ s.qpReady 1 0 = true := by decide +kernel
/-- A parity error in a cache drops the line or entry (R395). -/
theorem test_cache_scrub : ((after (exec (.storageScrub (.icache 0 4) .uncorrectable) sysSlot)).plotAt 0).icache = [] ∧
    ((after (exec (.storageScrub (.tlb 0 0) .uncorrectable) sysSlot)).plotAt 0).tlb = [] := by decide +kernel

/-- SESSION_OPEN opens session 1 (R413), ten seconds of error close a session (R413), a hot die is reported to its session (R430). -/
theorem test_environment : ((after (exec (.sessionOpen 1 0 opening) (served (.queueClose 5)))).sessions.map (·.1)) = [0, 1] ∧
    ((after (exec (.sessionTimeout 0) (erring 19000000004))).sessions.map (·.1)) = [0] ∧ (after (exec (.sessionTimeout 0) (erring 19000000005))).sessions = [] ∧
    ((after (exec (.thermalLimit 1) (erring 0))).sent.map (·.sess)) = [some 0] := by decide +kernel
/-- A region with a west, a north, a south and an east port of one line each, the word `x` in its queue, `n` beats of INT8 ones in each feed, an INT32 value
of 1000 in entry 0 of each bank. -/
def matrixed (x : MWord) (n : Nat) : Region × State :=
  let r : Region := { regn with
    ports := [⟨3, 0, 0, 1, 7, 0, 0, 0, 0, 5⟩, ⟨3, 0, 4, 1, 7, 0, 0, 0, 0, 6⟩, ⟨3, 0, 8, 1, 7, 0, 0, 0, 0, 7⟩, ⟨3, 0, 12, 1, 7, 0, 0, 0, 0, 8⟩]
    modes := 3, armed := true, mq := [x], btag := [(0, 9), (128, 9)], bank := [(0, ⟨true, 1000⟩), (128 * 64, ⟨true, 1000⟩)] }
  let b := List.replicate n (beatOf (List.replicate 8 ⟨true, 0x01010101⟩))
  (r, { regioned r with ports := [(0, { Port.init with buf := b }), (4, { Port.init with buf := b })] })
/-- A started matrix word on INT8 operands, with the waves it has taken. -/
def mword (i : Instr) (flight : List (List (Lane × BitVec 4))) : MWord := ⟨9, i, 0, 0, true, 0, 7, 1, 0, false, [], false, flight⟩
/-- Words of one line: WLD and WSTR of W[0], a token with W[0], and a DRN of entry 0 with its trap enabled or not. -/
def wld1 (row : Bool) : Instr := .wld hd row 0 0 0 0 0 false
/-- WSTR. -/
def wstr1 (row : Bool) : Instr := .wstr hd row 0 0 0 0
/-- A token of one line and one beat. -/
def mtok1 (mode : BitVec 2) : Instr := .mtok hd mode false 0 0 0 0 0 0 0
/-- DRN. -/
def drn1 (te : Bool) : Instr := .drn hd false 0 0 0 false 1 te false 0 0 false false

/-- Premises of MatrixMoves for WLD and WSTR: feeds with a beat and without, drains with room. -/
theorem test_witness_MatrixMoves : (∀ row ∈ [true, false], (∀ n ∈ [0, 1], let m := matrixed (mword (wld1 row) []) n
      tfind m.2.regions 3 = some m.1 ∧ m.1.lineKeys (if row then 0 else 1) 1 = some [if row then 0 else 4] ∧ m.2.beatsReady [if row then 0 else 4] = (n == 1) ∧
      m.2.stalled m.1 (mword (wld1 row) []) = false) ∧
    (let m := matrixed (mword (wstr1 row) []) 0
     (m.1.lineMap (if row then 3 else 2) 0).any (fun q => m.2.drainReady (m.1.mapKey q) && m.2.portMap (m.1.mapKey q) == some q && q.conn == 1) = true ∧
      m.2.stalled m.1 (mword (wstr1 row) []) = false)) := by decide +kernel
/-- The premises for tokens: a wave to be taken in each mode, and one to be written; for a cell's sum of 32 products, with an invalid lane and without. -/
theorem test_witness_MatrixMoves_token : (∀ mode ∈ [(0 : BitVec 2), 1, 2], let x : MWord := { mword (mtok1 mode) [] with bfmt := 7 }; let m := matrixed x 1
      tfind m.2.regions 3 = some m.1 ∧ x ∈ m.1.mq ∧ (m.1.tokenKeys (mtok1 mode)).any (fun k => m.2.beatsReady k) = true ∧ tokenTaken x = false ∧ 0 < m.1.waveRoom x ∧
      m.2.stalled m.1 x = false ∧ m.2.roomFor ((m.1.passKeys 1).map (·.2)) = true ∧ m.2.spadReady 0 = true ∧ accFmt 7 7 = some 9) ∧
    (∀ mode ∈ [(0 : BitVec 2), 1], let x := mword (mtok1 mode) [[(.ok 32, 0)]]; let r := (matrixed x 0).1
      r.writeHeld x = false ∧ entriesOk (r.bTag (if mode = 1 then 1 else 0) 0) 0 1 = true ∧ entriesOk (r.bTag 0 0) 1 1 = true) ∧
    (let b := beatOf (List.replicate 8 ⟨true, 0x01010101⟩); (∀ i < 32, cellLane 0 7 b i = .ok 1) ∧ intValue 7 1 = 1) ∧
    (let b := beatOf (⟨false, 0x301⟩ :: List.replicate 7 ⟨true, 0x01010101⟩); ∃ m, firstBad [cellLane 0 7 b 0, cellLane 0 7 b 0] = some m ∧ m &&& 0xFF ≠ 0) ∧
    (let b := beatOf (⟨false, 0x300⟩ :: List.replicate 7 ⟨true, 0x01010101⟩); ∃ m, firstBad [cellLane 0 7 b 0, cellLane 0 7 b 0] = some m ∧ m &&& 0xFF = 0) := by
  refine ⟨by decide +kernel, by decide +kernel, by decide +kernel, ⟨_, rfl, by decide +kernel⟩, ⟨_, rfl, by decide +kernel⟩⟩
/-- The premises for DRN: an output that saturates under its trap and without it, one that holds, one whose entry an earlier token is still to write. -/
theorem test_witness_MatrixMoves_drain : (∀ te ∈ [true, false], let x := mword (drn1 te) []; let m := matrixed x 0
      tfind m.2.regions 3 = some m.1 ∧ x ∈ m.1.mq ∧ (m.1.lineMap 2 (drnOutputs x 0).1).any (fun q => m.2.drainReady (m.1.mapKey q)) = true ∧ (drnOutputs x 0).2 = [(0, 0)] ∧
      (drnOutput (m.1.bTag 0 0) 7 (m.1.entry 0 0 0) none 0 false 1 0).2.1 &&& (fInvalid ||| fOverflow ||| fSat) ≠ 0 ∧ x.hold = false) ∧
    tokHolds (mword (mtok1 0) []) 0 0 0 = true ∧ tokHolds (mword (mtok1 0) []) 0 0 1 = false ∧ ({ mword (drn1 true) [] with hold := true } : MWord).hold = true := by
  decide +kernel
/-- A token's result of 32 ones is written to entry 0 of its column (R264); an INT32 entry of 1000 leaves as 127 in INT8 (R68, R270). -/
theorem test_matrix_moves : (let x : MWord := { mword (mtok1 0) [] with bfmt := 7 }; let m := matrixed x 1
      ((m.2.waveResults m.1 x 0 [beatOf (List.replicate 8 ⟨true, 0x01010101⟩)]).map (·.1)) = [.bad (payloadBits 6 0 0)] ∧
      ((m.2.waveResults { m.1 with wreg := [(0, beatOf (List.replicate 8 ⟨true, 0x01010101⟩))] } x 0 [beatOf (List.replicate 8 ⟨true, 0x01010101⟩)]).map (·.1)) = [.ok 32]) ∧
    (drnOutput 9 7 (.ok 1000) none 0 false 1 0).1 = .ok 127 := by decide +kernel

/-- Premises of MemoryInstructionChecks for the other kinds: each has its registers ready; an atomic in a page without at; a die that is removed. -/
theorem test_witness_MemoryInstructionChecks_forms : (∀ i ∈ [Instr.st 5 4 0 false 3 1, .ldv 2 4 0 0 1, .stv 1 4 0 2 1, .ldfe 7 4 0 true, .stfe 4 5 0, .feq 7 4 0, .feset 4 0 true,
      .sqld 1 4 0, .amadd 7 4 5 0 true 0, .amcas 6 4 5 0 false 0, .redadd 4 5 true false 0], (memForm i).any (fun f => !memRegs.blocked f.srcs f.dsts && (memRegs.reads f.srcs).head? == some (wv 0x30000000100)) = true) ∧
    (noPage true true 0x200FC000000).lookup 0 0x108 = some ⟨0, true, false, 0, 0x200FC000000, false, true, true, true, true⟩ ∧
    ({ slot0 id with removed := 1 } : State).isRemoved (State.homeDie { slot0 id with removed := 1 } 0x200FC000000) = true ∧ (slot0 id).backed 0x200FC000000 = true ∧
    (slot0 id).isRemoved ((slot0 id).homeDie 0x200FC000000) = false ∧ canonical 0x8000000000000000 = false ∧ (mapped id).lookup 0 0x4000000 = none := by decide +kernel

/-- Premises of ReadsAreServed for the other kinds: LDV, SQLD, FEQ and LDFE at a full and at an empty granule; what each brings back. -/
theorem test_witness_ReadsAreServed_kinds : (∀ op ∈ [Op.ldv 2, .sqld, .feq, .ldfe true, .ldfe false], let r := rq op .zero; let s := one r
      tfind s.reqs 3 = some r ∧ r.stage = .issued ∧ r.unit = dieOf r.plot ∧ s.l1Line r = none ∧ s.mayGo 3 r false = true ∧ s.firstInStream 3 r = true ∧ s.covers r.unit r.stamp 8 = true ∧
      s.justWritten r.pa.toNat = false) ∧
    (let r := { rq (.ldfe true) Val.zero with va := 0x30000000100, pa := 0x30000000100 }; ∀ full ∈ [true, false], let s := { one r with mem := State.reset.mem.setFe 0x30000000100 full }
      s.mem.fe (s.place r.pa.toNat) = full ∧ s.mayGo 3 r false = true ∧ s.firstInStream 3 r = true) ∧
    (∀ x ∈ [(Op.ldv 11, Dest.v 1, List.replicate 16 (⟨true, 0⟩ : W32)), (.sqld, .q 1, List.replicate 4 ⟨true, 1⟩), (.feq, .g 7, [⟨true, 1⟩, ⟨true, 0⟩]), (.ldfe true, .g 7, [⟨true, 1⟩, ⟨true, 2⟩]),
        (.amo 3 true, .g 7, [⟨true, 1⟩, ⟨false, 2⟩]), (.ld 2 true, .g 30, [⟨true, 1⟩]), (.ld 1 false, .g 0, [⟨true, 1⟩])], let r := answeredReq x.1 x.2.1 x.2.2
      tfind (one r).reqs 3 = some r ∧ r.op.reads = true ∧ (one r).plotRuns 0 = true ∧ (r.resp.all (·.valid) || x.1 != .sqld) = true) ∧
    (let r := { answeredReq .sqld (.q 1) [⟨true, 1⟩, ⟨false, 2⟩] with retained := true }; tfind (one r).reqs 3 = some r) ∧ ctrlListed 0x200FC000100 = false := by decide +kernel

/-- Premises of PortAndCopyWords for an event that finds room in the inbound queue of a saved plot and one that does not. -/
theorem test_witness_PortAndCopyWords_event : (∀ n ∈ [4095, 4096], let s := { wording (.evt hd 200 5) .queued [] evNode with
        insts := [(0, { inst with guidons := [(200, { evNode with plot := 0 })], saved := .saved, plots := [0, 1], ctx := [{ ctx0 with inbound := (List.range n).map fun k => (k, .event 0 200 1) }] })] }
      s.eventHeld 0 (.event 0 200 5) = (n == 4096)) := by decide +kernel

/-- Premises of BuntingAndPennantWords for BNSHARE beside the others: a turn of the word alone, and not while another BN word waits or a block was written in this clk. -/
theorem test_witness_BuntingAndPennantWords_turn : (∀ i ∈ [Instr.bnalloc hd 0 1 0x400 true, .bnfree hd 0 1, .bnshare hd 0 16 1, .bnxl hd 0 1 0x400 false], let s := bnBase [(0, 5), (1, 6)] [0] i
      (∀ e ∈ s.words, e.2.bnPending = false) ∧ s.blocksHeld (bnRanges i) = false) ∧
    (let s := bnBase [(0, 5)] [0] (.bnfree hd 0 1); s.clock ≠ 7 ∧
      ({ s with clock := 7, transients := [(s.blockPa 5 / 0x200000, ⟨99, 9, false, [], some 7⟩)] } : State).blocksHeld [(0, 1)] = true) ∧
    ({ wordOf (.bnfree hd 0 1) .running with homed := true } : SWord).bnPending = true ∧ (State.visible (pnState [(9, pn [] .resident)]) (some 0) 8).isSome = true := by decide +kernel

/-- Premises of SystemInstructions for an address register, and a context area behind a bus under retraining. -/
theorem test_witness_SystemInstructions_more : sysSlot.mayIssue [6] [] ∧ sysSlot.reads [6] = [bad 3] ∧ (0x010 : BitVec 12).toNat ≤ (0x013 : BitVec 12).toNat ∧
    (serviced .halting).busHeldAt 0 = false ∧ ({ serviced .halting with dies := [(0, { Die.init with cways := 8, retraining := some 9 })] } : State).busHeldAt 0x200FC000000 = false ∧
    (∃ c, ({ inst with ctx := [ctx0] } : Inst).ctx.find? (fun c => c.plot == 0 && !c.restored) = some c) ∧ ({ ctx0 with restored := true } : Ctx).restored = true := by
  refine ⟨by unfold State.mayIssue; decide +kernel, by decide +kernel, by decide +kernel, by decide +kernel, by decide +kernel, ⟨_, rfl⟩, rfl⟩

/-- Premises of FabricEvents for a switch: a request that has waited for 4 us at the queue of its die and one that has not, and a full FIFO with a flit before it. -/
theorem test_witness_FabricEvents_recovery : (∀ c ∈ [7600, 7599], ({ one (rq (.ld 4 true) .zero) with clock := c } : State).headBlocked 0 7600 = (c == 7600)) ∧
    ({ flitting 32 with clock := 0 } : State).headBlocked 0 7600 = true ∧ (flitting 31).headBlocked 0 1900 = false ∧ tfind State.reset.recovery 0 = none := by decide +kernel
/-- A recovery begins at a head that has waited 4 us (R149). -/
theorem test_recovery : ((after (exec (.deadlockRecoveryStart 5) { one (rq (.ld 4 true) .zero) with clock := 7600 })).recovery) = [(5, 7600)] ∧
    (after (exec (.deadlockRecoveryStart 5) { one (rq (.ld 4 true) .zero) with clock := 7599 })).recovery = [] := by decide +kernel

/-- SLOT_RESUME at its second stage, while the slot is still to issue and after. -/
def resuming (due : Option Nat) : State := ({ instancing (.slotResume 0 0 0) .running with cmds := [(7, { cmdOf (.slotResume 0 0 0) with served := true, stage := 1 })] } : State).modSlot 0 0
  fun x => { x with resumed := due }
/-- Premises of LaunchAndQueueCommands for SLOT_RESUME that waits for its slot, and QUEUE_RESET of a queue with an undispatched command. -/
theorem test_witness_LaunchAndQueueCommands_resume : (∀ due ∈ [some 7, none], (resuming due).serving 7 = true ∧ ((resuming due).slotAt 0 0).resumed = due ∧ (resuming due).focus.cmd = 7) ∧
    (CQueue.opened 8 1 0x2000 4).head ≠ ({ CQueue.opened 8 1 0x2000 4 with tail := 3 } : CQueue).tail := by decide +kernel
/-- SLOT_RESUME completes when the slot has issued (R417). -/
theorem test_resume : ((after (exec (.slotResume 0 0 0) (resuming (some 7)))).cmds.map (·.2.ready)) = [false] ∧
    ((after (exec (.slotResume 0 0 0) (resuming none))).cmds.map (·.2.ready)) = [true] := by decide +kernel

/-- DIE_FENCE at its second stage, while the rebase runs and after. -/
def fencing (r : Rebase) : State := { served (.dieFence 1) with removed := 2, rebasing := r, cmds := [(7, { cmdOf (.dieFence 1) with served := true, stage := 1 })] }
/-- An engine's write of a host page, parked under fault id 3. -/
def parkedWrite (orphan : Bool) : Walk := ⟨0, 0, 0x100, 11, some 3, false, some 9, 0, List.replicate 8 0, none, ⟨true, 0x11223344⟩, 0x40, false, orphan⟩
/-- Premises of FirmwareServiceCommands for DIE_FENCE, the replay of an engine's parked access, and a copy that waits for a write of its clk. -/
theorem test_witness_FirmwareServiceCommands_stages : (∀ r ∈ [Rebase.draining, .none], (fencing r).serving 7 = true ∧ (fencing r).rebasing = r ∧ (fencing r).focus.cmd = 7) ∧
    (∀ o ∈ [true, false], let s := { served (.faultReplay 3) with walks := [(4, parkedWrite o)] }
      turn s (cmdOf (.faultReplay 3)) = true ∧ s.parkedReq 3 = none ∧ s.parkedWalk 3 = some (4, parkedWrite o) ∧ 10 ≤ (parkedWrite o).kind ∧
      (s.walks.filter fun e => e.2.parked == some 3 && decide (10 ≤ e.2.kind) && !e.2.declined) = [(4, parkedWrite o)] ∧ (s.hostSession 0).any (fun y => (parkedWrite o).pa + 4 ≤ y.2.hlen) = true) ∧
    (parking (.hostCopy 0x80 0x30000000200 8 true true 0) .sqld).justWritten 0x30000000200 = false ∧ (parking (.hostCopy 0x80 0x30000000200 8 true true 0) .sqld).busHeldAt 0x30000000200 = false := by
  decide +kernel
/-- A replayed engine write is performed unchanged (R95); a fence ends once its rebase has (R426). -/
theorem test_replay : (let t := after (exec (.faultReplay 3) { served (.faultReplay 3) with walks := [(4, parkedWrite true)] })
     (t.walks, (tfind t.sessions 0).map fun x => (tget 0 x.host 0x40, tget 0 x.host 0x43)) = ([], some (0x44, 0x11))) ∧
    ((after (exec (.dieFence 1) (fencing .draining))).dieAt 1).fenced = false ∧ ((after (exec (.dieFence 1) (fencing .none))).dieAt 1).fenced = true := by decide +kernel

/-- Premises of EngineAndRegionEvents for a token that has written every entry and one that has not, and a halt 2.4 us old. -/
theorem test_witness_EngineAndRegionEvents_token : (∀ n ∈ [0, 1], let s := { posting mtokPost true 0 0 with
        regions := [(3, { regn with modes := 3, armed := true, mq := [{ mword mtokPost [] with next := n }] })] }
      s.tokenWritten 0 9 = (n == 1)) ∧
    0 + 4560 ≤ ({ State.reset with clock := 4560 } : State).clock ∧ ({ regn with mq := [mword mtokPost []] } : Region).running = true := by decide +kernel
/-- An uncorrectable error in a v register loses the two words of its 64 bits (R395). -/
theorem test_register_scrub : ((after (exec (.storageScrub (.register 0 0 2 4 3) .uncorrectable) sysSlot)).slotAt 0 0).bad = [(2, 4, 7), (2, 4, 6)] := by decide +kernel

/-- Premises of ActorEvents for an aborted barrier: a slot that waits in the generation and one that has only arrived in it. -/
theorem test_witness_ActorEvents_abort : (let s := acting 100 { barr with plot := 0, deadline := some 100 } fun x => { x with bwait := some (200, 5), arrGen := [(200, 5)] }
      (s.guidonAt 0 200).map (fun g => (g.gen, g.deadline)) = some (5, some 100) ∧ (s.slotAt 0 0).bwait = some (200, 5) ∧ tfind (s.slotAt 0 0).arrGen 200 = some 5 ∧
      (tfind s.insts 0).any (fun x => x.saved == .running && x.actors.any fun a => dieOf a.2.plot == dieOf 0) = true) := by decide +kernel
/-- The waiter is to trap and the arrival is forgotten (R353). -/
theorem test_abort : (let t := after (exec (.barrierTimeout 0 200) (acting 100 { barr with plot := 0, deadline := some 100 } fun x => { x with bwait := some (200, 5), arrGen := [(200, 5)] }))
    ((t.slotAt 0 0).barAbort, tfind (t.slotAt 0 0).arrGen 200)) = (some (200, 5), none) := by decide +kernel

/-- Premises of SessionsAndEnvironment for queue pairs and the pool: a port whose link is up and one whose link is down, a pool of the present stacks' multiple and another. -/
theorem test_witness_SessionsAndEnvironment_ports : (served (.queueClose 5)).qpDown.contains 0 = false ∧ ({ served (.queueClose 5) with qpDown := [0] } : State).managed 1 0 = false ∧
    ({ served (.queueClose 5) with qpDown := [0] } : State).qpReady 9 0 = false ∧ ({ served (.queueClose 5) with qpDown := [0] } : State).managed 1 1 = true ∧
    0x800001 % State.reset.presentDies.length ≠ 0 ∧ 0x800000 % State.reset.presentDies.length = 0 := by decide +kernel
/-- An RDMA atomic is answered by a NAK alone (R411). -/
theorem test_nak : (after (exec (.rdmaAtomic 9 0) (served (.queueClose 5)))).naks = [(9, 0)] ∧
    (after (exec (.qpLinkDown 0) (served (.queueClose 5)))).qpDown = [0] := by decide +kernel

/-- A word placed for the first step from reset runs: an ADD_IMM of -5 to g0, which reads 0, into g4 (R37, R309). -/
theorem test_first_step : (match step (State.reset.withFetchWord 32 (0x20 * 2 ^ 26 + 4 * 2 ^ 21 + 0xFFFB)) with
    | .next t => t.cur.gReg 0 4 == ⟨true, 0xFFFFFFFFFFFFFFFB⟩ && t.cur.pc == 4
    | _ => false) = true := by decide +kernel

end Sys2Proof.Tests
end

section
/-! PROOF. Bit fields: reading a field of an appended word, the must-be-zero test, and a word put together from its
fields. -/

namespace Sys2Proof

/-- No bit of `z` is set in `w`: the must-be-zero test of `chk` and `chkSw`. -/
def Clear {n : Nat} (w z : BitVec n) : Prop := w &&& z = 0

/-- The bits of `w` from `lo` on are `x`. -/
def StandsAt {k n : Nat} (x : BitVec k) (w : BitVec n) (lo : Nat) : Prop := x = w.extractLsb' lo k

@[simp] theorem extract_append_hi {m n lo k : Nat} (x : BitVec m) (y : BitVec n) (h : n ≤ lo) :
    (no_index (x ++ y)).extractLsb' lo k = x.extractLsb' (lo - n) k :=
  BitVec.extractLsb'_append_eq_of_le h

@[simp] theorem extract_append_lo {m n lo k : Nat} (x : BitVec m) (y : BitVec n) (h : lo + k ≤ n) :
    (no_index (x ++ y)).extractLsb' lo k = y.extractLsb' lo k :=
  BitVec.extractLsb'_append_eq_of_add_le h

@[simp] theorem extract_extract {m n k lo l : Nat} (x : BitVec n) (h : l + k ≤ m) :
    (x.extractLsb' lo m).extractLsb' l k = x.extractLsb' (lo + l) k := by
  ext i hi
  have : l + i < m := by omega
  simp [this, Nat.add_assoc]

/-- The two parts of a field, put together again. -/
theorem extract_append_extract {n lo k l : Nat} (x : BitVec n) :
    x.extractLsb' (lo + k) l ++ x.extractLsb' lo k = x.extractLsb' lo (l + k) :=
  BitVec.extractLsb'_append_extractLsb'_eq_extractLsb' rfl

theorem extract_one {n : Nat} (x : BitVec n) (i : Nat) : x.extractLsb' i 1 = BitVec.ofBool (x.getLsbD i) := by
  ext j hj
  obtain rfl : j = 0 := by omega
  simp

@[simp] theorem ofBool_beq_one (q : Bool) : (BitVec.ofBool q == 1#1) = q := by cases q <;> rfl

theorem getLsbD_eq_extract {n : Nat} (x : BitVec n) (i : Nat) : x.getLsbD i = (x.extractLsb' i 1 == 1#1) := by
  rw [extract_one, ofBool_beq_one]

theorem clear_iff {n : Nat} (w z : BitVec n) : Clear w z ↔ ∀ i, w.getLsbD i = true → z.getLsbD i = false := by
  simp only [Clear, BitVec.eq_of_getLsbD_eq_iff]
  refine ⟨fun h i hw => ?_, fun h i _ => ?_⟩
  · have := h i (BitVec.lt_of_getLsbD hw)
    simpa [hw] using this
  · have := h i
    cases hw : w.getLsbD i <;> simp_all

@[simp] theorem clear_zero_left {n : Nat} (z : BitVec n) : Clear (0#n) z := by simp [Clear]

@[simp] theorem clear_zero_right {n : Nat} (w : BitVec n) : Clear w (0#n) := by simp [Clear]

@[simp] theorem clear_ofNat {n a b : Nat} :
    Clear (BitVec.ofNat n a) (BitVec.ofNat n b) ↔ BitVec.ofNat n a &&& BitVec.ofNat n b = 0 := Iff.rfl

@[simp] theorem clear_append {m n : Nat} (x : BitVec m) (y : BitVec n) (z : BitVec (m + n)) :
    Clear (no_index (x ++ y)) z ↔ Clear x (z.extractLsb' n m) ∧ Clear y (z.extractLsb' 0 n) := by
  simp only [clear_iff, BitVec.getLsbD_append, BitVec.getLsbD_extractLsb']
  constructor
  · refine fun h => ⟨fun i hx => ?_, fun i hy => ?_⟩
    · have := h (n + i)
      simp_all
    · have := h i
      have := BitVec.lt_of_getLsbD hy
      simp_all
  · rintro ⟨hx, hy⟩ i hi
    split at hi
    · have := hy i hi
      simp_all
    · have := hx (i - n) hi
      have := BitVec.lt_of_getLsbD hi
      simp_all

/-- A field that the mask covers is zero. -/
theorem Clear.extract_eq_zero {n lo k : Nat} {w z : BitVec n} (h : Clear w z)
    (hz : z.extractLsb' lo k = BitVec.allOnes k) : w.extractLsb' lo k = 0#k := by
  ext i hi
  have hzi : z.getLsbD (lo + i) = true := by
    have := congrArg (fun x => x.getLsbD i) hz
    simpa [hi] using this
  have := (clear_iff w z).1 h (lo + i)
  cases hw : w.getLsbD (lo + i) <;> simp_all

theorem Clear.standsAt_zero {n lo k : Nat} {w z : BitVec n} (h : Clear w z)
    (hz : z.extractLsb' lo k = BitVec.allOnes k) : StandsAt (0#k) w lo :=
  (h.extract_eq_zero hz).symm

@[simp] theorem standsAt_append {m n k lo : Nat} (x : BitVec m) (y : BitVec n) (w : BitVec k) :
    StandsAt (no_index (x ++ y)) w lo ↔ StandsAt x w (lo + n) ∧ StandsAt y w lo := by
  unfold StandsAt
  rw [← extract_append_extract (x := w)]
  refine ⟨fun h => ⟨?_, ?_⟩, fun ⟨hx, hy⟩ => by rw [← hx, ← hy]⟩
  · simpa [BitVec.extractLsb'_eq_self] using congrArg (BitVec.extractLsb' n m) h
  · simpa [BitVec.extractLsb'_eq_self] using congrArg (BitVec.extractLsb' 0 n) h

@[simp] theorem standsAt_extract {n lo k : Nat} (w : BitVec n) : StandsAt (w.extractLsb' lo k) w lo := rfl

@[simp] theorem standsAt_bit {n i : Nat} (w : BitVec n) : StandsAt (BitVec.ofBool (w.getLsbD i)) w i :=
  (extract_one w i).symm

@[simp] theorem standsAt_getElem {n i : Nat} (w : BitVec n) (h : i < n) : StandsAt (BitVec.ofBool w[i]) w i :=
  BitVec.getLsbD_eq_getElem h ▸ standsAt_bit w

theorem standsAt_one_of_bit {n i : Nat} {w : BitVec n} (h : w.getLsbD i = true) : StandsAt 1#1 w i := by
  rw [StandsAt, extract_one, h]
  rfl

theorem standsAt_zero_of_bit {n i : Nat} {w : BitVec n} (h : ¬ w.getLsbD i = true) : StandsAt 0#1 w i := by
  rw [StandsAt, extract_one, Bool.eq_false_iff.2 h]
  rfl

theorem standsAt_of_toNat {n lo k v : Nat} {w : BitVec n} (h : (w.extractLsb' lo k).toNat = v) :
    StandsAt (BitVec.ofNat k v) w lo := by
  rw [StandsAt, ← h, BitVec.ofNat_toNat, BitVec.setWidth_eq]

theorem eq_iff_standsAt {n : Nat} (x w : BitVec n) : x = w ↔ StandsAt x w 0 := by
  rw [StandsAt, BitVec.extractLsb'_eq_self]

end Sys2Proof
end

section
/-! PROOF. The scalar decoder's check and the fields of the R, I, M and L forms (R28, R35). -/

namespace Sys2Proof

theorem exists_minBad_some (l : List (Bool × Nat)) (n : Nat) : ∃ k, minBad (some n) l = some k := by
  induction l generalizing n with
  | nil => exact ⟨n, rfl⟩
  | cons b l ih => obtain ⟨_ | _, k⟩ := b <;> exact ih _

theorem minBad_none_eq_none_iff (l : List (Bool × Nat)) : minBad none l = none ↔ ∀ b ∈ l, b.1 = false := by
  induction l with
  | nil => simp [minBad]
  | cons b l ih =>
    obtain ⟨_ | _, k⟩ := b
    · simpa [minBad] using ih
    · obtain ⟨m, hm⟩ := exists_minBad_some l k
      simp [minBad, hm]

/-- The check accepts a word exactly when no must-be-zero bit is set and no value is reserved. -/
@[simp] theorem chk_eq_ok_iff (w z : BitVec 32) (bads : List (Bool × Nat)) (i j : Instr) :
    chk w z bads i = .ok j ↔ Clear w z ∧ (∀ b ∈ bads, b.1 = false) ∧ i = j := by
  unfold chk Clear
  by_cases hz : w &&& z = 0
  · rw [← minBad_none_eq_none_iff]
    cases h : minBad none bads <;> simp [hz, h]
  · obtain ⟨m, hm⟩ := exists_minBad_some bads (lowBit 32 (w &&& z).toNat)
    simp_all

/-! Fields that an encoding cuts in two (R31, R32, R33, R291, R331, R335, R363). -/

@[simp] theorem immShift_join (n : BitVec 6) : n.extractLsb' 5 1 ++ n.extractLsb' 0 5 = n := by
  rw [eq_iff_standsAt]; simp
@[simp] theorem laneIdx_join (n : BitVec 7) : n.extractLsb' 5 2 ++ n.extractLsb' 0 5 = n := by
  rw [eq_iff_standsAt]; simp
@[simp] theorem arcId_join (n : BitVec 8) : n.extractLsb' 5 3 ++ n.extractLsb' 0 5 = n := by
  rw [eq_iff_standsAt]; simp
@[simp] theorem guidonId_join (n : BitVec 8) : n.extractLsb' 3 5 ++ n.extractLsb' 0 3 = n := by
  rw [eq_iff_standsAt]; simp
@[simp] theorem code_join (n : BitVec 11) : n.extractLsb' 6 5 ++ n.extractLsb' 0 6 = n := by
  rw [eq_iff_standsAt]; simp
@[simp] theorem sysNum_join (n : BitVec 12) : n.extractLsb' 11 1 ++ n.extractLsb' 6 5 ++ n.extractLsb' 0 6 = n := by
  rw [eq_iff_standsAt]; simp

@[simp] theorem badMode_fst (w : BitVec 32) : (badMode w).1 = !okMode (f3 w 0) := by
  rw [badMode, okMode, Bool.eq_iff_iff]
  simp
  omega

section RForm
variable (maj : BitVec 6) (d a b sel : BitVec 5) (mod : BitVec 6)

@[simp] theorem major_encR : (encR maj d a b sel mod).extractLsb' 26 6 = maj := by simp [encR, BitVec.extractLsb'_eq_self]
@[simp] theorem selNat_encR : selNat (encR maj d a b sel mod) = sel.toNat := by simp [selNat, encR, BitVec.extractLsb'_eq_self]
@[simp] theorem gD_encR : gD (encR maj d a b sel mod) = d := by simp [gD, encR, BitVec.extractLsb'_eq_self]
@[simp] theorem gA_encR : gA (encR maj d a b sel mod) = a := by simp [gA, encR, BitVec.extractLsb'_eq_self]
@[simp] theorem gB_encR : gB (encR maj d a b sel mod) = b := by simp [gB, encR, BitVec.extractLsb'_eq_self]
@[simp] theorem vD_encR : vD (encR maj d a b sel mod) = d.extractLsb' 0 4 := by simp [vD, encR]
@[simp] theorem vA_encR : vA (encR maj d a b sel mod) = a.extractLsb' 0 4 := by simp [vA, encR]
@[simp] theorem vB_encR : vB (encR maj d a b sel mod) = b.extractLsb' 0 4 := by simp [vB, encR]
@[simp] theorem qD_encR : qD (encR maj d a b sel mod) = d.extractLsb' 0 3 := by simp [qD, encR]
@[simp] theorem qA_encR : qA (encR maj d a b sel mod) = a.extractLsb' 0 3 := by simp [qA, encR]

@[simp] theorem mod_encR {lo k : Nat} (h : lo + k ≤ 6) : (encR maj d a b sel mod).extractLsb' lo k = mod.extractLsb' lo k := by
  simp [encR, h]
@[simp] theorem f2_encR {lo : Nat} (h : lo + 2 ≤ 6) : f2 (encR maj d a b sel mod) lo = mod.extractLsb' lo 2 := mod_encR _ _ _ _ _ _ h
@[simp] theorem f3_encR {lo : Nat} (h : lo + 3 ≤ 6) : f3 (encR maj d a b sel mod) lo = mod.extractLsb' lo 3 := mod_encR _ _ _ _ _ _ h
@[simp] theorem f4_encR {lo : Nat} (h : lo + 4 ≤ 6) : f4 (encR maj d a b sel mod) lo = mod.extractLsb' lo 4 := mod_encR _ _ _ _ _ _ h
@[simp] theorem modBit_encR {i : Nat} (h : i < 6) : (encR maj d a b sel mod)[i] = (mod.extractLsb' i 1 == 1#1) := by
  rw [← BitVec.getLsbD_eq_getElem, getLsbD_eq_extract, mod_encR (h := by omega)]
@[simp] theorem b_encR : (encR maj d a b sel mod).extractLsb' 11 5 = b := gB_encR ..
@[simp] theorem d_encR : (encR maj d a b sel mod).extractLsb' 21 5 = d := gD_encR ..
@[simp] theorem lowA_encR {k : Nat} (h : k ≤ 5) : (encR maj d a b sel mod).extractLsb' 16 k = a.extractLsb' 0 k := by
  simp [encR, h]

@[simp] theorem clear_encR (z : BitVec 32) : Clear (encR maj d a b sel mod) z ↔
    Clear maj (z.extractLsb' 26 6) ∧ Clear d (z.extractLsb' 21 5) ∧ Clear a (z.extractLsb' 16 5) ∧
    Clear b (z.extractLsb' 11 5) ∧ Clear sel (z.extractLsb' 6 5) ∧ Clear mod (z.extractLsb' 0 6) := by
  simp [encR, and_assoc]

theorem encR_eq_iff (w : BitVec 32) : encR maj d a b sel mod = w ↔
    StandsAt maj w 26 ∧ StandsAt d w 21 ∧ StandsAt a w 16 ∧ StandsAt b w 11 ∧ StandsAt sel w 6 ∧ StandsAt mod w 0 := by
  rw [eq_iff_standsAt]
  simp [encR, and_assoc]
end RForm

section IForm
variable (maj : BitVec 6) (d a : BitVec 5) (imm : BitVec 16)

@[simp] theorem major_encI : (encI maj d a imm).extractLsb' 26 6 = maj := by simp [encI, BitVec.extractLsb'_eq_self]
@[simp] theorem gD_encI : gD (encI maj d a imm) = d := by simp [gD, encI, BitVec.extractLsb'_eq_self]
@[simp] theorem gA_encI : gA (encI maj d a imm) = a := by simp [gA, encI, BitVec.extractLsb'_eq_self]
@[simp] theorem imm_encI : (encI maj d a imm).extractLsb' 0 16 = imm := by simp [encI, BitVec.extractLsb'_eq_self]

@[simp] theorem clear_encI (z : BitVec 32) : Clear (encI maj d a imm) z ↔
    Clear maj (z.extractLsb' 26 6) ∧ Clear d (z.extractLsb' 21 5) ∧ Clear a (z.extractLsb' 16 5) ∧ Clear imm (z.extractLsb' 0 16) := by
  simp [encI, and_assoc]

theorem encI_eq_iff (w : BitVec 32) : encI maj d a imm = w ↔
    StandsAt maj w 26 ∧ StandsAt d w 21 ∧ StandsAt a w 16 ∧ StandsAt imm w 0 := by
  rw [eq_iff_standsAt]
  simp [encI, and_assoc]
end IForm

section MForm
variable (maj : BitVec 6) (d a : BitVec 5) (oc : BitVec 3) (t : BitVec 4) (imm : BitVec 9)

@[simp] theorem major_encM : (encM maj d a oc t imm).extractLsb' 26 6 = maj := by simp [encM, BitVec.extractLsb'_eq_self]
@[simp] theorem gD_encM : gD (encM maj d a oc t imm) = d := by simp [gD, encM, BitVec.extractLsb'_eq_self]
@[simp] theorem vD_encM : vD (encM maj d a oc t imm) = d.extractLsb' 0 4 := by simp [vD, encM]
@[simp] theorem gA_encM : gA (encM maj d a oc t imm) = a := by simp [gA, encM, BitVec.extractLsb'_eq_self]
@[simp] theorem oc_encM : f3 (encM maj d a oc t imm) 13 = oc := by simp [f3, encM, BitVec.extractLsb'_eq_self]
@[simp] theorem type_encM : f3 (encM maj d a oc t imm) 9 = t.extractLsb' 0 3 := by simp [f3, encM]
@[simp] theorem order_encM : (encM maj d a oc t imm)[12] = (t.extractLsb' 3 1 == 1#1) := by
  rw [← BitVec.getLsbD_eq_getElem, getLsbD_eq_extract]
  simp [encM]
@[simp] theorem fmt_encM : f4 (encM maj d a oc t imm) 9 = t := by simp [f4, encM, BitVec.extractLsb'_eq_self]
@[simp] theorem imm_encM : (encM maj d a oc t imm).extractLsb' 0 9 = imm := by simp [encM, BitVec.extractLsb'_eq_self]

@[simp] theorem clear_encM (z : BitVec 32) : Clear (encM maj d a oc t imm) z ↔
    Clear maj (z.extractLsb' 26 6) ∧ Clear d (z.extractLsb' 21 5) ∧ Clear a (z.extractLsb' 16 5) ∧
    Clear oc (z.extractLsb' 13 3) ∧ Clear t (z.extractLsb' 9 4) ∧ Clear imm (z.extractLsb' 0 9) := by
  simp [encM, and_assoc]

theorem encM_eq_iff (w : BitVec 32) : encM maj d a oc t imm = w ↔
    StandsAt maj w 26 ∧ StandsAt d w 21 ∧ StandsAt a w 16 ∧ StandsAt oc w 13 ∧ StandsAt t w 9 ∧ StandsAt imm w 0 := by
  rw [eq_iff_standsAt]
  simp [encM, and_assoc]
end MForm

section LForm
variable (inner : BitVec 6) (d a : BitVec 5) (mod : BitVec 10)

@[simp] theorem major_encL : (encL inner d a mod).extractLsb' 26 6 = 0x3F#6 := by simp [encL, BitVec.extractLsb'_eq_self]
@[simp] theorem inner_encL : (encL inner d a mod).extractLsb' 20 6 = inner := by simp [encL, BitVec.extractLsb'_eq_self]
@[simp] theorem lD_encL : lD (encL inner d a mod) = d := by simp [lD, encL, BitVec.extractLsb'_eq_self]
@[simp] theorem lV_encL : (encL inner d a mod).extractLsb' 15 4 = d.extractLsb' 0 4 := by simp [encL]
@[simp] theorem lA_encL : lA (encL inner d a mod) = a := by simp [lA, encL, BitVec.extractLsb'_eq_self]
@[simp] theorem mod_encL {lo k : Nat} (h : lo + k ≤ 10) : (encL inner d a mod).extractLsb' lo k = mod.extractLsb' lo k := by
  simp [encL, h]
@[simp] theorem f3_encL {lo : Nat} (h : lo + 3 ≤ 10) : f3 (encL inner d a mod) lo = mod.extractLsb' lo 3 := mod_encL _ _ _ _ h
@[simp] theorem f4_encL {lo : Nat} (h : lo + 4 ≤ 10) : f4 (encL inner d a mod) lo = mod.extractLsb' lo 4 := mod_encL _ _ _ _ h
@[simp] theorem modBit_encL {i : Nat} (h : i < 10) : (encL inner d a mod)[i] = (mod.extractLsb' i 1 == 1#1) := by
  rw [← BitVec.getLsbD_eq_getElem, getLsbD_eq_extract, mod_encL (h := by omega)]

@[simp] theorem clear_encL (z : BitVec 32) : Clear (encL inner d a mod) z ↔ Clear 0x3F#6 (z.extractLsb' 26 6) ∧
    Clear inner (z.extractLsb' 20 6) ∧ Clear d (z.extractLsb' 15 5) ∧ Clear a (z.extractLsb' 10 5) ∧ Clear mod (z.extractLsb' 0 10) := by
  simp [encL, and_assoc]

theorem encL_eq_iff (w : BitVec 32) : encL inner d a mod = w ↔
    StandsAt 0x3F#6 w 26 ∧ StandsAt inner w 20 ∧ StandsAt d w 15 ∧ StandsAt a w 10 ∧ StandsAt mod w 0 := by
  rw [eq_iff_standsAt]
  simp [encL, and_assoc]
end LForm

end Sys2Proof
end

section
/-! PROOF. Scalar instructions decode from their own bytes (R11, R12, R28-R36). -/

namespace Sys2Proof
-- One proof at a time: each waits for the equations of the same two definitions, and a thread that waits keeps its stack.
set_option Elab.async false

/-- A scalar instruction whose fields are admissible decodes from its own bytes, whatever bytes follow. -/
def RoundTrips (i : Instr) : Prop :=
  i.wf = true → ∀ rest, decode (encodeBytes i ++ rest) = .ok (i, rest) ∧ (encodeBytes i).length = i.size

theorem wordOf_extract (w : BitVec 32) :
    wordOf (w.extractLsb' 0 8) (w.extractLsb' 8 8) (w.extractLsb' 16 8) (w.extractLsb' 24 8) = w := by
  rw [eq_iff_standsAt]
  simp [wordOf]

theorem decode_one {w : BitVec 32} (hs : isLong w = false) (rest : List Byte) :
    decode (wordBytes w ++ rest) = (decodeWords w none).map (·, rest) := by
  simp [decode, wordBytes, wordOf_extract, hs]

theorem decode_two {w : BitVec 32} (hs : isLong w = true) (v : BitVec 32) (rest : List Byte) :
    decode (wordBytes w ++ (wordBytes v ++ rest)) = (decodeWords w (some v)).map (·, rest) := by
  simp [decode, wordBytes, wordOf_extract, hs]

theorem roundTrips_of_word {i : Instr} {w : BitVec 32} (he : encode i = [w]) (hn : i.size = 4) (hs : isLong w = false)
    (h : i.wf = true → decodeWords w none = .ok i) : RoundTrips i := by
  intro hi rest
  rw [encodeBytes, he, hn, List.flatMap_singleton, decode_one hs, h hi]
  exact ⟨rfl, rfl⟩

theorem roundTrips_of_words {i : Instr} {w v : BitVec 32} (he : encode i = [w, v]) (hn : i.size = 8) (hs : isLong w = true)
    (h : i.wf = true → decodeWords w (some v) = .ok i) : RoundTrips i := by
  intro hi rest
  simp only [encodeBytes, he, hn, List.flatMap_cons, List.flatMap_nil, List.append_nil, List.append_assoc]
  rw [decode_two hs, h hi]
  exact ⟨rfl, rfl⟩

/-- An R or V form decodes as its group's decoder `f` reads it. -/
theorem roundTrips_encR {i : Instr} {maj : BitVec 6} {d a b sel : BitVec 5} {mod : BitVec 6} {f : BitVec 32 → Except Reject Instr}
    (hf : ∀ w, w.extractLsb' 26 6 = maj → decodeWords w none = f w) (hm : (maj == 0x3F#6) = false)
    (he : encode i = [encR maj d a b sel mod]) (hn : i.size = 4) (h : i.wf = true → f (encR maj d a b sel mod) = .ok i) :
    RoundTrips i :=
  roundTrips_of_word he hn (by simpa [isLong] using hm) fun hi => (hf _ (major_encR ..)).trans (h hi)

theorem roundTrips_encI {i : Instr} {maj : BitVec 6} {d a : BitVec 5} {imm : BitVec 16} {f : BitVec 32 → Except Reject Instr}
    (hf : ∀ w, w.extractLsb' 26 6 = maj → decodeWords w none = f w) (hm : (maj == 0x3F#6) = false)
    (he : encode i = [encI maj d a imm]) (hn : i.size = 4) (h : i.wf = true → f (encI maj d a imm) = .ok i) :
    RoundTrips i :=
  roundTrips_of_word he hn (by simpa [isLong] using hm) fun hi => (hf _ (major_encI ..)).trans (h hi)

theorem decodeWords_int (w : BitVec 32) (h : w.extractLsb' 26 6 = 0x00#6) : decodeWords w none = decodeInt w := by
  simp [decodeWords, h]

theorem decodeWords_shift (w : BitVec 32) (h : w.extractLsb' 26 6 = 0x01#6) : decodeWords w none = decodeShift w := by
  simp [decodeWords, h]

theorem decodeWords_addr (w : BitVec 32) (h : w.extractLsb' 26 6 = 0x02#6) : decodeWords w none = decodeAddr w := by
  simp [decodeWords, h]

theorem decodeWords_ctrl (w : BitVec 32) (h : w.extractLsb' 26 6 = 0x0D#6) : decodeWords w none = decodeCtrl w := by
  simp [decodeWords, h]

theorem decodeWords_fe (w : BitVec 32) (h : w.extractLsb' 26 6 = 0x14#6) : decodeWords w none = decodeFe w := by
  simp [decodeWords, h]

theorem decodeWords_amo (w : BitVec 32) (h : w.extractLsb' 26 6 = 0x16#6) : decodeWords w none = decodeAmo w := by
  simp [decodeWords, h]

theorem decodeWords_red (w : BitVec 32) (h : w.extractLsb' 26 6 = 0x17#6) : decodeWords w none = decodeRed w := by
  simp [decodeWords, h]

theorem decodeWords_sync (w : BitVec 32) (h : w.extractLsb' 26 6 = 0x19#6) : decodeWords w none = decodeSync w := by
  simp [decodeWords, h]

theorem decodeWords_pennant (w : BitVec 32) (h : w.extractLsb' 26 6 = 0x1A#6) : decodeWords w none = decodePennant w := by
  simp [decodeWords, h]

theorem decodeWords_stream (w : BitVec 32) (h : w.extractLsb' 26 6 = 0x1B#6) : decodeWords w none = decodeStream w := by
  simp [decodeWords, h]

theorem decodeWords_vfp (w : BitVec 32) (h : w.extractLsb' 26 6 = 0x1C#6) : decodeWords w none = decodeVfp w := by
  simp [decodeWords, h]

theorem decodeWords_vint (w : BitVec 32) (h : w.extractLsb' 26 6 = 0x1D#6) : decodeWords w none = decodeVint w := by
  simp [decodeWords, h]

theorem decodeWords_vhor (w : BitVec 32) (h : w.extractLsb' 26 6 = 0x1E#6) : decodeWords w none = decodeVhor w := by
  simp [decodeWords, h]

theorem decodeWords_vcvt (w : BitVec 32) (h : w.extractLsb' 26 6 = 0x1F#6) : decodeWords w none = decodeVcvt w := by
  simp [decodeWords, h]

theorem decodeWords_vmove (w : BitVec 32) (h : w.extractLsb' 26 6 = 0x28#6) : decodeWords w none = decodeVmove w := by
  simp [decodeWords, h]

theorem decodeWords_system (w : BitVec 32) (h : w.extractLsb' 26 6 = 0x30#6) : decodeWords w none = decodeSystem w := by
  simp [decodeWords, h]

theorem decodeWords_order (w : BitVec 32) (h : w.extractLsb' 26 6 = 0x18#6) : decodeWords w none = decodeOrder w := by
  simp [decodeWords, h]

theorem roundTrips_int (d a b : GReg) :
    RoundTrips (.add d a b) ∧ RoundTrips (.sub d a b) ∧ RoundTrips (.mul d a b) ∧ RoundTrips (.mulh d a b) ∧
    RoundTrips (.mulhz d a b) ∧ RoundTrips (.div d a b) ∧ RoundTrips (.divz d a b) ∧ RoundTrips (.rem d a b) ∧
    RoundTrips (.remz d a b) ∧ RoundTrips (.and d a b) ∧ RoundTrips (.or d a b) ∧ RoundTrips (.xor d a b) ∧
    RoundTrips (.andn d a b) ∧ RoundTrips (.slt d a b) ∧ RoundTrips (.sltz d a b) ∧ RoundTrips (.min d a b) ∧
    RoundTrips (.max d a b) ∧ RoundTrips (.minz d a b) ∧ RoundTrips (.maxz d a b) ∧ RoundTrips (.sel d a b) := by
  and_intros
  all_goals
    exact roundTrips_encR decodeWords_int (by decide) rfl rfl fun _ => by simp [decodeInt]

theorem roundTrips_shift :
    (∀ d a b, RoundTrips (.shl d a b)) ∧ (∀ d a n, RoundTrips (.shlImm d a n)) ∧ (∀ d a b, RoundTrips (.shr d a b)) ∧
    (∀ d a n, RoundTrips (.shrImm d a n)) ∧ (∀ d a b, RoundTrips (.sar d a b)) ∧ (∀ d a n, RoundTrips (.sarImm d a n)) ∧
    (∀ d a b, RoundTrips (.rol d a b)) ∧ (∀ d a n, RoundTrips (.rolImm d a n)) ∧ (∀ d a, RoundTrips (.clz d a)) ∧
    (∀ d a, RoundTrips (.ctz d a)) ∧ (∀ d a, RoundTrips (.popc d a)) ∧ (∀ d a, RoundTrips (.brev d a)) ∧
    (∀ d a b, RoundTrips (.bext d a b)) ∧ (∀ d a b, RoundTrips (.bins d a b)) := by
  and_intros
  all_goals
    intros
    exact roundTrips_encR decodeWords_shift (by decide) rfl rfl fun _ => by simp [decodeShift, immShift]

theorem roundTrips_addr :
    (∀ d a b s, RoundTrips (.lea d a b s)) ∧ (∀ d a b s, RoundTrips (.idx2 d a b s)) ∧ (∀ d a b, RoundTrips (.pack d a b)) := by
  and_intros
  all_goals
    intros
    exact roundTrips_encR decodeWords_addr (by decide) rfl rfl fun _ => by simp [decodeAddr]

theorem roundTrips_ctrl :
    (∀ d a, RoundTrips (.jr d a)) ∧ RoundTrips .yield := by
  and_intros
  all_goals
    intros
    exact roundTrips_encR decodeWords_ctrl (by decide) rfl rfl fun _ => by simp [decodeCtrl]

theorem roundTrips_fe :
    (∀ d a oc clr, RoundTrips (.ldfe d a oc clr)) ∧ (∀ a b oc, RoundTrips (.stfe a b oc)) ∧ (∀ d a oc, RoundTrips (.feq d a oc)) ∧
    (∀ a oc full, RoundTrips (.feset a oc full)) := by
  and_intros
  all_goals
    intros
    exact roundTrips_encR decodeWords_fe (by decide) rfl rfl fun _ => by simp [decodeFe]

theorem roundTrips_amo (d a b : GReg) (k : BitVec 2) (w : Bool) (oc : BitVec 3) :
    RoundTrips (.amadd d a b k w oc) ∧ RoundTrips (.ammin d a b k w oc) ∧ RoundTrips (.ammax d a b k w oc) ∧
    RoundTrips (.amminz d a b k w oc) ∧ RoundTrips (.ammaxz d a b k w oc) ∧ RoundTrips (.amand d a b k w oc) ∧
    RoundTrips (.amor d a b k w oc) ∧ RoundTrips (.amxor d a b k w oc) ∧ RoundTrips (.amswp d a b k w oc) ∧
    RoundTrips (.amcas d a b k w oc) ∧ RoundTrips (.amfadd d a b k w oc) ∧ RoundTrips (.aminc d a b k w oc) := by
  and_intros
  all_goals
    exact roundTrips_encR decodeWords_amo (by decide) rfl rfl fun _ => by simp [decodeAmo]

theorem roundTrips_red (a b : GReg) (rel w : Bool) (oc : BitVec 3) :
    RoundTrips (.redadd a b rel w oc) ∧ RoundTrips (.redmin a b rel w oc) ∧ RoundTrips (.redmax a b rel w oc) ∧
    RoundTrips (.redfadd a b rel w oc) ∧ RoundTrips (.redor a b rel w oc) := by
  and_intros
  all_goals
    exact roundTrips_encR decodeWords_red (by decide) rfl rfl fun _ => by simp [decodeRed]

theorem roundTrips_sync :
    (∀ a e, RoundTrips (.evsig a e)) ∧ (∀ d e, RoundTrips (.evwait d e)) ∧ (∀ d e, RoundTrips (.barrive d e)) ∧
    (∀ d e, RoundTrips (.bwait d e)) ∧ (∀ a e, RoundTrips (.bskip a e)) ∧ (∀ c, RoundTrips (.prio c)) ∧
    (∀ d a b, RoundTrips (.trigbind d a b)) ∧ (∀ d a, RoundTrips (.trigdrop d a)) ∧ (∀ d a, RoundTrips (.freeze d a)) ∧
    (∀ d a, RoundTrips (.thaw d a)) := by
  and_intros
  all_goals
    intros
    exact roundTrips_encR decodeWords_sync (by decide) rfl rfl fun _ => by simp [decodeSync, guidonId]

theorem roundTrips_pennant :
    (∀ d a, RoundTrips (.pndef d a)) ∧ (∀ d a fill, RoundTrips (.pnatt d a fill)) ∧ (∀ d a, RoundTrips (.pndet d a)) ∧
    (∀ d a, RoundTrips (.pndrop d a)) ∧ (∀ d a, RoundTrips (.pnrel d a)) := by
  and_intros
  all_goals
    intros
    exact roundTrips_encR decodeWords_pennant (by decide) rfl rfl fun _ => by simp [decodePennant]

theorem roundTrips_stream :
    (∀ q a b k, RoundTrips (.sqset q a b k)) ∧ (∀ q a oc, RoundTrips (.sqld q a oc)) ∧ (∀ d q, RoundTrips (.sqiss d q)) ∧
    (∀ a, RoundTrips (.sqwait a)) ∧ (∀ d a, RoundTrips (.config d a)) ∧ (∀ d a, RoundTrips (.arm d a)) ∧
    (∀ d a, RoundTrips (.disarm d a)) := by
  and_intros
  all_goals
    intros
    exact roundTrips_encR decodeWords_stream (by decide) rfl rfl fun _ => by simp [decodeStream]

theorem roundTrips_vfp :
    (∀ d a b m, RoundTrips (.vadd d a b m)) ∧ (∀ d a b m, RoundTrips (.vsub d a b m)) ∧ (∀ d a b m, RoundTrips (.vmul d a b m)) ∧
    (∀ d a b m, RoundTrips (.vfma d a b m)) ∧ (∀ d a b m, RoundTrips (.vfms d a b m)) ∧ (∀ d a b m, RoundTrips (.vdiv d a b m)) ∧
    (∀ d a m, RoundTrips (.vsqrt d a m)) ∧ (∀ d a m, RoundTrips (.vrsq d a m)) ∧ (∀ d a m, RoundTrips (.vrcp d a m)) ∧
    (∀ d a b m, RoundTrips (.vmin d a b m)) ∧ (∀ d a b m, RoundTrips (.vmax d a b m)) ∧ (∀ d a m, RoundTrips (.vabs d a m)) ∧
    (∀ d a m, RoundTrips (.vneg d a m)) ∧ (∀ d a m, RoundTrips (.vexp2 d a m)) ∧ (∀ d a m, RoundTrips (.vlog2 d a m)) ∧
    (∀ d a b m, RoundTrips (.vscale d a b m)) := by
  and_intros
  all_goals
    intros
    exact roundTrips_encR decodeWords_vfp (by decide) rfl rfl fun hwf => by simp_all [decodeVfp, Instr.wf.eq_def]

theorem roundTrips_vint :
    (∀ d a b, RoundTrips (.viadd d a b)) ∧ (∀ d a b, RoundTrips (.visub d a b)) ∧ (∀ d a b, RoundTrips (.vimul d a b)) ∧
    (∀ d a b, RoundTrips (.vimin d a b)) ∧ (∀ d a b, RoundTrips (.vimax d a b)) ∧ (∀ d a b, RoundTrips (.vand d a b)) ∧
    (∀ d a b, RoundTrips (.vor d a b)) ∧ (∀ d a b, RoundTrips (.vxor d a b)) ∧ (∀ d a b, RoundTrips (.vshl d a b)) ∧
    (∀ d a n, RoundTrips (.vshlImm d a n)) ∧ (∀ d a b, RoundTrips (.vshr d a b)) ∧ (∀ d a n, RoundTrips (.vshrImm d a n)) ∧
    (∀ d a b, RoundTrips (.vsar d a b)) ∧ (∀ d a n, RoundTrips (.vsarImm d a n)) := by
  and_intros
  all_goals
    intros
    exact roundTrips_encR decodeWords_vint (by decide) rfl rfl fun _ => by simp [decodeVint, immShift]

theorem roundTrips_vhor :
    (∀ d a m, RoundTrips (.vsum d a m)) ∧ (∀ d a, RoundTrips (.vhmax d a)) ∧ (∀ d a, RoundTrips (.vhmin d a)) ∧
    (∀ d a b, RoundTrips (.vsel d a b)) ∧ (∀ d a b, RoundTrips (.vperm d a b)) ∧ (∀ d a i, RoundTrips (.vbcast d a i)) ∧
    (∀ d a b n, RoundTrips (.vslide d a b n)) := by
  and_intros
  all_goals
    intros
    exact roundTrips_encR decodeWords_vhor (by decide) rfl rfl fun hwf => by simp_all [decodeVhor, laneIdx, Instr.wf.eq_def]

theorem roundTrips_vcvt :
    (∀ d a p m, RoundTrips (.vcvt d a p m)) ∧ (∀ d a b p m, RoundTrips (.vqnt d a b p m)) ∧
    (∀ d a b p m, RoundTrips (.vdqnt d a b p m)) ∧ (∀ d a, RoundTrips (.vtag d a)) ∧ (∀ d a, RoundTrips (.vtagrd d a)) ∧
    (∀ d a b, RoundTrips (.vpack d a b)) ∧ (∀ d a b, RoundTrips (.vunpk d a b)) := by
  and_intros
  all_goals
    intros
    exact roundTrips_encR decodeWords_vcvt (by decide) rfl rfl fun hwf => by simp_all [decodeVcvt, Instr.wf.eq_def]

theorem roundTrips_vmove :
    (∀ d a, RoundTrips (.vmov d a)) ∧ (∀ d a i, RoundTrips (.vext d a i)) ∧ (∀ d a i, RoundTrips (.vins d a i)) := by
  and_intros
  all_goals
    intros
    exact roundTrips_encR decodeWords_vmove (by decide) rfl rfl fun _ => by simp [decodeVmove, laneIdx]

theorem roundTrips_system :
    RoundTrips .nop ∧ (∀ code, RoundTrips (.trap code)) ∧ RoundTrips .eret ∧ (∀ d num, RoundTrips (.sysrd d num)) ∧
    (∀ d num, RoundTrips (.syswr d num)) ∧ (∀ a, RoundTrips (.savec a)) ∧ (∀ a, RoundTrips (.restc a)) ∧ RoundTrips .icinv ∧
    (∀ a, RoundTrips (.idle a)) ∧ (∀ code, RoundTrips (.brk code)) := by
  and_intros
  all_goals
    intros
    exact roundTrips_encR decodeWords_system (by decide) rfl rfl fun _ => by simp [decodeSystem, sysNum]

theorem roundTrips_fence (mask : BitVec 8) (k : BitVec 2) (scope : BitVec 4) : RoundTrips (.fence mask k scope) :=
  roundTrips_encR decodeWords_order (by decide) rfl rfl fun hwf => by
    simp [Instr.wf.eq_def] at hwf
    simp [decodeOrder, fenceMask, hwf]
    omega

/-- The unused field of an ARC depends on its kind (R335). -/
theorem roundTrips_arc (d : GReg) (id : BitVec 8) (k : BitVec 2) (oc : BitVec 3) : RoundTrips (.arc d id k oc) :=
  roundTrips_encR decodeWords_order (by decide) rfl rfl fun hwf => by
    obtain ⟨⟨hid, hk⟩, hu⟩ : (id ≠ 0#8 ∧ k ≠ 3#2) ∧ if k = 0#2 then oc = 0#3 else d = 0#5 := by simpa [Instr.wf.eq_def] using hwf
    by_cases h0 : k = 0#2
    · simp_all [decodeOrder, arcId]
    · simp_all [decodeOrder, arcId]

theorem roundTrips_pnq (d a : GReg) (n : BitVec 3) : RoundTrips (.pnq d a n) :=
  roundTrips_encR decodeWords_pennant (by decide) rfl rfl fun hwf => by
    have hn : n.toNat ≤ 4 := by simpa [Instr.wf.eq_def] using hwf
    simp [decodePennant, Nat.lt_succ_iff.2 hn]

theorem roundTrips_vcmp (d a b : VNum) (c : BitVec 3) : RoundTrips (.vcmp d a b c) :=
  roundTrips_encR decodeWords_vhor (by decide) rfl rfl fun hwf => by
    have hc : c ≠ 7#3 := by rintro rfl; simp [Instr.wf.eq_def] at hwf
    simp [decodeVhor, hc]

theorem roundTrips_vval (d a b : VNum) (apply : Bool) : RoundTrips (.vval d a b apply) :=
  roundTrips_encR decodeWords_vhor (by decide) rfl rfl fun hwf => by
    cases apply <;> simp_all [decodeVhor, Instr.wf.eq_def]

theorem roundTrips_vzero (d : VNum) (fmt : BitVec 4) : RoundTrips (.vzero d fmt) :=
  roundTrips_encR decodeWords_vmove (by decide) rfl rfl fun hwf => by
    have hf : fmt.toNat ≤ 12 := by simpa [Instr.wf.eq_def, okFmt] using hwf
    simp [decodeVmove, Nat.lt_succ_iff.2 hf]

theorem roundTrips_tcinv (a : GReg) (k : BitVec 2) : RoundTrips (.tcinv a k) :=
  roundTrips_encR decodeWords_system (by decide) rfl rfl fun hwf => by
    obtain ⟨hk, hu⟩ : k ≠ 3#2 ∧ (k = 1#2 ∨ a = 0#5) := by simpa [Instr.wf.eq_def] using hwf
    by_cases h1 : k = 1#2
    · simp [decodeSystem, h1]
    · simp_all [decodeSystem]

theorem roundTrips_compare (a b : GReg) (imm : BitVec 16) :
    RoundTrips (.beq a b imm) ∧ RoundTrips (.bne a b imm) ∧ RoundTrips (.blt a b imm) ∧ RoundTrips (.bge a b imm) ∧
    RoundTrips (.blo a b imm) ∧ RoundTrips (.bhs a b imm) := by
  and_intros
  all_goals
    exact roundTrips_encI (f := decodeB) (fun w h => by simp [decodeWords, h]) (by decide) rfl rfl fun _ => by simp [decodeB]

theorem roundTrips_validity (a : GReg) (imm : BitVec 16) : RoundTrips (.bval a imm) ∧ RoundTrips (.binv a imm) := by
  and_intros
  all_goals
    exact roundTrips_encI (f := decodeB) (fun w h => by simp [decodeWords, h]) (by decide) rfl rfl fun _ => by simp [decodeB]

theorem roundTrips_immediate (d a : GReg) (imm : BitVec 16) :
    RoundTrips (.addImm d a imm) ∧ RoundTrips (.mulImm d a imm) ∧ RoundTrips (.andImm d a imm) ∧ RoundTrips (.orImm d a imm) ∧
    RoundTrips (.xorImm d a imm) ∧ RoundTrips (.sltImm d a imm) ∧ RoundTrips (.sltzImm d a imm) := by
  and_intros
  all_goals
    exact roundTrips_encI (f := decodeI) (fun w h => by simp [decodeWords, h]) (by decide) rfl rfl fun _ => by simp [decodeI]

theorem roundTrips_lih (d : GReg) (imm : BitVec 16) : RoundTrips (.lih d imm) :=
  roundTrips_encI (f := decodeI) (fun w h => by simp [decodeWords, h]) (by decide) rfl rfl fun _ => by simp [decodeI]

theorem roundTrips_loop (a : GReg) (n : BitVec 16) : RoundTrips (.loop a n) :=
  roundTrips_encI (f := decodeI) (fun w h => by simp [decodeWords, h]) (by decide) rfl rfl fun hwf => by
    have hn : 0 < n.toInt := by simpa [Instr.wf.eq_def] using hwf
    simp [decodeI, hn]

theorem roundTrips_jal (d : GReg) (imm : BitVec 21) : RoundTrips (.jal d imm) :=
  roundTrips_of_word rfl rfl (by simp [isLong]) fun _ => by simp [decodeWords, gD]

theorem roundTrips_wait (loads stores copies tiles : BitVec 4) : RoundTrips (.wait loads stores copies tiles) :=
  roundTrips_of_word rfl rfl (by simp [isLong]) fun _ => by simp [decodeWords, decodeWait, f4]

/-- An M form decodes as `decodeM` reads it. -/
theorem roundTrips_encM {i : Instr} {maj : BitVec 6} {d a : BitVec 5} {oc : BitVec 3} {t : BitVec 4} {imm : BitVec 9}
    (hm : maj ∈ [0x10#6, 0x11#6, 0x12#6, 0x13#6, 0x15#6]) (he : encode i = [encM maj d a oc t imm]) (hn : i.size = 4)
    (h : i.wf = true → decodeM (encM maj d a oc t imm) = .ok i) : RoundTrips i := by
  refine roundTrips_of_word he hn ?_ fun hi => (Eq.trans ?_ (h hi))
  · have hlong : ∀ m ∈ [0x10#6, 0x11#6, 0x12#6, 0x13#6, 0x15#6], (m == 0x3F#6) = false := by decide
    simpa [isLong] using hlong maj hm
  · simp only [List.mem_cons, List.not_mem_nil, or_false] at hm
    rcases hm with rfl | rfl | rfl | rfl | rfl <;> simp [decodeWords]

theorem roundTrips_load (d a : GReg) (oc : BitVec 3) (acq : Bool) (t : BitVec 3) (imm : BitVec 9) : RoundTrips (.ld d a oc acq t imm) :=
  roundTrips_encM (by decide) rfl rfl fun hwf => by
    have ht : t ≠ 7#3 := by simpa [Instr.wf.eq_def] using hwf
    simp [decodeM, ht]

theorem roundTrips_store (d a : GReg) (oc : BitVec 3) (rel : Bool) (t : BitVec 3) (imm : BitVec 9) : RoundTrips (.st d a oc rel t imm) :=
  roundTrips_encM (by decide) rfl rfl fun hwf => by
    have ht : t.toNat < 4 := by simpa [Instr.wf.eq_def] using hwf
    simp [decodeM, ht]

theorem roundTrips_vectorAccess (d : VNum) (a : GReg) (oc : BitVec 3) (fmt : BitVec 4) (imm : BitVec 9) :
    RoundTrips (.ldv d a oc fmt imm) ∧ RoundTrips (.stv d a oc fmt imm) := by
  and_intros
  all_goals
    refine roundTrips_encM (by decide) rfl rfl fun hwf => ?_
    have hf : fmt.toNat ≤ 12 := by simpa [Instr.wf.eq_def, okFmt] using hwf
    simp [decodeM, Nat.lt_succ_iff.2 hf]

theorem roundTrips_prefetch (t : BitVec 5) (a : GReg) (oc : BitVec 3) (imm : BitVec 9) : RoundTrips (.prf t a oc imm) :=
  roundTrips_encM (by decide) rfl rfl fun hwf => by
    have ht : t.toNat ≤ 2 := by simpa [Instr.wf.eq_def] using hwf
    simp [decodeM, Nat.lt_succ_iff.2 ht]

/-- An L form decodes as `decodeL` reads it. -/
theorem roundTrips_encL {i : Instr} {inner : BitVec 6} {d a : BitVec 5} {mod : BitVec 10} {imm : BitVec 32}
    (he : encode i = [encL inner d a mod, imm]) (hn : i.size = 8)
    (h : i.wf = true → decodeL (encL inner d a mod) imm = .ok i) : RoundTrips i :=
  roundTrips_of_words he hn (by simp [isLong]) fun hi => by simpa [decodeWords] using h hi

theorem roundTrips_longMove (d : GReg) (imm : BitVec 32) :
    RoundTrips (.li d imm) ∧ RoundTrips (.liH d imm) ∧ RoundTrips (.jalLong d imm) := by
  and_intros
  all_goals
    exact roundTrips_encL rfl rfl fun _ => by simp [decodeL]

theorem roundTrips_longImmediate (d a : GReg) (imm : BitVec 32) :
    RoundTrips (.leaLong d a imm) ∧ RoundTrips (.addLong d a imm) ∧
    RoundTrips (.mulLong d a imm) ∧ RoundTrips (.andLong d a imm) ∧ RoundTrips (.orLong d a imm) ∧
    RoundTrips (.xorLong d a imm) ∧ RoundTrips (.sltLong d a imm) ∧ RoundTrips (.sltzLong d a imm) := by
  and_intros
  all_goals
    exact roundTrips_encL rfl rfl fun _ => by simp [decodeL]

theorem roundTrips_longLoad (d a : GReg) (oc : BitVec 3) (acq : Bool) (t : BitVec 3) (imm : BitVec 32) :
    RoundTrips (.ldLong d a oc acq t imm) :=
  roundTrips_encL rfl rfl fun hwf => by
    have ht : t ≠ 7#3 := by simpa [Instr.wf.eq_def] using hwf
    simp [decodeL, ht]

theorem roundTrips_longStore (d a : GReg) (oc : BitVec 3) (rel : Bool) (t : BitVec 3) (imm : BitVec 32) :
    RoundTrips (.stLong d a oc rel t imm) :=
  roundTrips_encL rfl rfl fun hwf => by
    have ht : t.toNat < 4 := by simpa [Instr.wf.eq_def] using hwf
    simp [decodeL, ht]

theorem roundTrips_longVectorAccess (d : VNum) (a : GReg) (oc : BitVec 3) (fmt : BitVec 4) (imm : BitVec 32) :
    RoundTrips (.ldvLong d a oc fmt imm) ∧ RoundTrips (.stvLong d a oc fmt imm) := by
  and_intros
  all_goals
    refine roundTrips_encL rfl rfl fun hwf => ?_
    have hf : fmt.toNat ≤ 12 := by simpa [Instr.wf.eq_def, okFmt] using hwf
    simp [decodeL, Nat.lt_succ_iff.2 hf]

theorem roundTrips_longPrefetch (t : BitVec 5) (a : GReg) (oc : BitVec 3) (imm : BitVec 32) : RoundTrips (.prfLong t a oc imm) :=
  roundTrips_encL rfl rfl fun hwf => by
    have ht : t.toNat ≤ 2 := by simpa [Instr.wf.eq_def] using hwf
    simp [decodeL, Nat.lt_succ_iff.2 ht]

/-- Every scalar instruction, by group; a stream word has 128 bits and any other step no words. -/
theorem roundTrips_of_scalar (i : Instr) (hsw : encodeSw i = none) (hne : encode i ≠ []) : RoundTrips i := by
  cases i
  case add | sub | mul | mulh | mulhz | div | divz | rem | remz | and | or | xor | andn | slt | sltz | min | max |
      minz | maxz | sel => simp only [roundTrips_int]
  case shl | shlImm | shr | shrImm | sar | sarImm | rol | rolImm | clz | ctz | popc | brev | bext | bins => simp only [roundTrips_shift]
  case lea | idx2 | pack => simp only [roundTrips_addr]
  case jr | yield => simp only [roundTrips_ctrl]
  case ldfe | stfe | feq | feset => simp only [roundTrips_fe]
  case amadd | ammin | ammax | amminz | ammaxz | amand | amor | amxor | amswp | amcas | amfadd | aminc => simp only [roundTrips_amo]
  case redadd | redmin | redmax | redfadd | redor => simp only [roundTrips_red]
  case evsig | evwait | barrive | bwait | bskip | prio | trigbind | trigdrop | freeze | thaw => simp only [roundTrips_sync]
  case pndef | pnatt | pndet | pndrop | pnrel => simp only [roundTrips_pennant]
  case sqset | sqld | sqiss | sqwait | config | arm | disarm => simp only [roundTrips_stream]
  case vadd | vsub | vmul | vfma | vfms | vdiv | vsqrt | vrsq | vrcp | vmin | vmax | vabs | vneg | vexp2 | vlog2 |
      vscale => simp only [roundTrips_vfp]
  case viadd | visub | vimul | vimin | vimax | vand | vor | vxor | vshl | vshlImm | vshr | vshrImm | vsar | vsarImm => simp only [roundTrips_vint]
  case vsum | vhmax | vhmin | vsel | vperm | vbcast | vslide => simp only [roundTrips_vhor]
  case vcvt | vqnt | vdqnt | vtag | vtagrd | vpack | vunpk => simp only [roundTrips_vcvt]
  case vmov | vext | vins => simp only [roundTrips_vmove]
  case nop | trap | eret | sysrd | syswr | savec | restc | icinv | idle | brk => simp only [roundTrips_system]
  case fence => simp only [roundTrips_fence]
  case arc => simp only [roundTrips_arc]
  case pnq => simp only [roundTrips_pnq]
  case vcmp => simp only [roundTrips_vcmp]
  case vval => simp only [roundTrips_vval]
  case vzero => simp only [roundTrips_vzero]
  case tcinv => simp only [roundTrips_tcinv]
  case beq | bne | blt | bge | blo | bhs => simp only [roundTrips_compare]
  case bval | binv => simp only [roundTrips_validity]
  case addImm | mulImm | andImm | orImm | xorImm | sltImm | sltzImm => simp only [roundTrips_immediate]
  case lih => simp only [roundTrips_lih]
  case loop => simp only [roundTrips_loop]
  case jal => simp only [roundTrips_jal]
  case wait => simp only [roundTrips_wait]
  case ld => simp only [roundTrips_load]
  case st => simp only [roundTrips_store]
  case ldv | stv => simp only [roundTrips_vectorAccess]
  case prf => simp only [roundTrips_prefetch]
  case li | liH | jalLong => simp only [roundTrips_longMove]
  case leaLong | addLong | mulLong | andLong | orLong | xorLong | sltLong | sltzLong => simp only [roundTrips_longImmediate]
  case ldLong => simp only [roundTrips_longLoad]
  case stLong => simp only [roundTrips_longStore]
  case ldvLong | stvLong => simp only [roundTrips_longVectorAccess]
  case prfLong => simp only [roundTrips_longPrefetch]
  case bindr | bindw | unbind | cpy | cpyp | gath | scat | mcst | phase | arrv | patch | evt | wld | wstr | mtok |
      accz | drn | steer | ringMember | ringSource | race | bnalloc | bnfree | bnshare | bnxl | pnevict | pnfill => nomatch hsw
  all_goals exact absurd rfl hne

/-- Settles O2: field by field, the decoder of a group reads what the encoder of its form writes. -/
theorem scalarRoundTrip : Obligations.ScalarRoundTrip :=
  fun i rest hwf hsw hne => roundTrips_of_scalar i hsw hne hwf rest

end Sys2Proof
end

section
/-! PROOF. Stream words: their header and payload fields, and the decoding of every well-formed word (R40-R43, R104, R105,
R173, R209, R217, R218, R254, R256). -/

namespace Sys2Proof
-- One proof at a time, as for the scalar instructions.
set_option Elab.async false

/-- The check accepts a word exactly when no must-be-zero bit is set, its arc case is legal and no rule offends. -/
@[simp] theorem chkSw_eq_ok_iff (w z : BitVec 128) (bads : List (Bool × Nat)) (i j : Instr) :
    chkSw w z bads i = .ok j ↔ Clear w z ∧ (swArcBad w).1 = false ∧ (∀ b ∈ bads, b.1 = false) ∧ i = j := by
  have harc : (∀ b ∈ swArcBad w :: bads, b.1 = false) ↔ (swArcBad w).1 = false ∧ ∀ b ∈ bads, b.1 = false := List.forall_mem_cons
  rw [← and_assoc (c := i = j), ← harc, ← minBad_none_eq_none_iff]
  unfold chkSw Clear
  by_cases hz : w &&& z = 0
  · cases h : minBad none (swArcBad w :: bads) <;> simp [hz, h]
  · obtain ⟨m, hm⟩ := exists_minBad_some (swArcBad w :: bads) (lowBit 128 (w &&& z).toNat)
    simp_all

@[simp] theorem swArcBad_fst (w : BitVec 128) : (swArcBad w).1 = !(swHdr w).okArc := by
  simp [swArcBad, swHdr, SwHdr.okArc, bne]

@[simp] theorem swNoPort_fst (w : BitVec 128) : (swNoPort w).1 = !(swHdr w).noPort := by
  simp [swNoPort, swZero, swHdr, SwHdr.noPort]; rfl

@[simp] theorem swZero_fst (c : Bool) (w : BitVec 128) (lo n : Nat) : (swZero c w lo n).1 = (c && fw w lo n != 0) := rfl
@[simp] theorem swAlign_fst (w : BitVec 128) (lo k : Nat) : (swAlign w lo k).1 = (fw w lo k != 0) := rfl
@[simp] theorem swBlk_fst (w : BitVec 128) (lo : Nat) (cnt : BitVec 6) : (swBlk w lo cnt).1 = !okBlocks (fw w lo 44) cnt := rfl

/-- A number is a multiple of `2 ^ k` when its low `k` bits are zero. -/
theorem lowBits_eq_zero_iff {n k : Nat} (x : BitVec n) : x.extractLsb' 0 k = 0#k ↔ x.toNat % 2 ^ k = 0 := by
  rw [← BitVec.toNat_inj]
  simp

theorem lowBits2_eq_zero_iff {n : Nat} (x : BitVec n) : x.extractLsb' 0 2 = 0#2 ↔ aligned4 x = true := by
  simp [lowBits_eq_zero_iff, aligned4]

/-- Bit 3 of the port number tells the column side from the row side (R40). -/
theorem portSide (w : BitVec 128) : w[115] = decide (8 ≤ (swHdr w).portNum) := by
  have hside : ∀ x : BitVec 8, x.getLsbD 3 = decide (8 ≤ x.toNat % 16) := by decide
  have := hside (fw w 112 8)
  simpa [fw, swHdr, SwHdr.portNum] using this

section Fields
variable (sop : BitVec 8) (h : SwHdr) (wf : BitVec 2) (p : BitVec 96)

@[simp] theorem sop_encSw : fw (encSw sop h wf p) 120 8 = sop := by simp [fw, encSw]
@[simp] theorem payload_encSw {lo n : Nat} (hn : lo + n ≤ 96) : fw (encSw sop h wf p) lo n = p.extractLsb' lo n := by
  simp [fw, encSw, hn]
@[simp] theorem payloadBit_encSw {i : Nat} (hi : i < 96) : (encSw sop h wf p)[i] = (p.extractLsb' i 1 == 1#1) := by
  rw [← BitVec.getLsbD_eq_getElem, getLsbD_eq_extract]
  simp [encSw, Nat.add_one_le_iff.2 hi]
@[simp] theorem flag0_encSw : (encSw sop h wf p)[104] = (wf.extractLsb' 0 1 == 1#1) := by
  rw [← BitVec.getLsbD_eq_getElem, getLsbD_eq_extract]
  simp [encSw]
@[simp] theorem flag1_encSw : (encSw sop h wf p)[105] = (wf.extractLsb' 1 1 == 1#1) := by
  rw [← BitVec.getLsbD_eq_getElem, getLsbD_eq_extract]
  simp [encSw]
@[simp] theorem post_encSw : (encSw sop h wf p)[106] = h.post := by
  rw [← BitVec.getLsbD_eq_getElem, getLsbD_eq_extract]
  simp [encSw]
@[simp] theorem arc_encSw : fw (encSw sop h wf p) 96 8 = h.arc := by simp [fw, encSw]
@[simp] theorem swHdr_encSw : swHdr (encSw sop h wf p) = h := by
  obtain ⟨port, oc, aw, post, arc⟩ := h
  simp [swHdr, fw, getLsbD_eq_extract, encSw, -BitVec.getLsbD_eq_getElem]
@[simp] theorem clear_encSw (z : BitVec 128) : Clear (encSw sop h wf p) z ↔ 
   (Clear sop (z.extractLsb' 120 8) ∧ Clear h.port (z.extractLsb' 112 8) ∧ Clear h.oc (z.extractLsb' 109 3) ∧
    Clear (.ofBool h.await) (z.extractLsb' 107 1) ∧ Clear (.ofBool h.post) (z.extractLsb' 106 1) ∧
    Clear wf (z.extractLsb' 104 2) ∧ Clear h.arc (z.extractLsb' 96 8) ∧ Clear p (z.extractLsb' 0 96)) := by
  simp [encSw, and_assoc]
end Fields

/-- A stream word whose fields are admissible decodes from its own bits. -/
def DecodesSw (i : Instr) : Prop := ∀ w, i.wf = true → encodeSw i = some w → decodeSw w = .ok i

theorem decodesSw_of {i : Instr} {v : BitVec 128} (he : encodeSw i = some v) (h : i.wf = true → decodeSw v = .ok i) :
    DecodesSw i := by
  rintro w hi hw
  obtain rfl : v = w := Option.some.inj (he.symm.trans hw)
  exact h hi

theorem decodesSw_binding :
    (∀ h rc hold, DecodesSw (.bindr h rc hold)) ∧ (∀ h rc, DecodesSw (.bindw h rc)) ∧
    (∀ h abort, DecodesSw (.unbind h abort)) ∧ (∀ h rc, DecodesSw (.phase h rc)) := by
  and_intros
  all_goals
    intros
    refine decodesSw_of rfl fun hwf => ?_
    simp_all [decodeSw, Instr.wf.eq_def, portSide]

theorem decodesSw_cpy (h : SwHdr) (va : BitVec 56) (off : BitVec 19) (len16 : BitVec 21) (out : Bool) :
    DecodesSw (.cpy h va off len16 out) :=
  decodesSw_of rfl fun hwf => by
    simp_all [decodeSw, Instr.wf.eq_def, lowBits_eq_zero_iff]

theorem decodesSw_pattern (h : SwHdr) (x y : BitVec 13) :
    DecodesSw (.cpyp h x y) ∧ DecodesSw (.gath h x y) ∧ DecodesSw (.scat h x y) := by
  and_intros
  all_goals
    refine decodesSw_of rfl fun hwf => ?_
    simp_all [decodeSw, Instr.wf.eq_def]

theorem decodesSw_mcst (h : SwHdr) (x y : BitVec 13) (eos hasStore : Bool) : DecodesSw (.mcst h x y eos hasStore) :=
  decodesSw_of rfl fun hwf => by
    simp_all [decodeSw, Instr.wf.eq_def]
    cases hasStore <;> simp_all

theorem decodesSw_signal :
    (∀ h plot ctr batch row n1, DecodesSw (.arrv h plot ctr batch row n1)) ∧ (∀ h event amount, DecodesSw (.evt h event amount)) := by
  and_intros
  all_goals
    intros
    refine decodesSw_of rfl fun hwf => ?_
    simp_all [decodeSw, Instr.wf.eq_def]

theorem decodesSw_patch (h : SwHdr) (queue : BitVec 8) (slot : BitVec 2) (tag : BitVec 16) (value : BitVec 32) (voff : BitVec 19)
    (indirect : Bool) : DecodesSw (.patch h queue slot tag value voff indirect) :=
  decodesSw_of rfl fun hwf => by
    cases indirect <;> simp_all [decodeSw, Instr.wf.eq_def, lowBits2_eq_zero_iff]

theorem decodesSw_wld (h : SwHdr) (row : Bool) (w : BitVec 3) (first n1 lines1 : BitVec 7) (xid : BitVec 6) (xv : Bool) :
    DecodesSw (.wld h row w first n1 lines1 xid xv) :=
  decodesSw_of rfl fun hwf => by
    cases xv <;> simp_all [decodeSw, Instr.wf.eq_def]

theorem decodesSw_wstr (h : SwHdr) (row : Bool) (w : BitVec 3) (first n1 lines1 : BitVec 7) :
    DecodesSw (.wstr h row w first n1 lines1) :=
  decodesSw_of rfl fun hwf => by
    simp_all [decodeSw, Instr.wf.eq_def]

/-- A count less 1 whose low bits are 3 is a count of whole quadruples (R256). -/
theorem lowBits2_eq_three_iff {n : Nat} (x : BitVec n) : x.extractLsb' 0 2 = 3#2 ↔ (x.toNat + 1) % 4 = 0 := by
  rw [← BitVec.toNat_inj]
  simp
  omega

theorem decodesSw_mtok (h : SwHdr) (mode : BitVec 2) (acc : Bool) (w : BitVec 3) (e0 m1 : BitVec 6) (kr1 : BitVec 7)
    (woff : BitVec 18) (nl1 : BitVec 7) (gtag : BitVec 16) : DecodesSw (.mtok h mode acc w e0 m1 kr1 woff nl1 gtag) :=
  decodesSw_of rfl fun hwf => by
    by_cases hm : mode = 2#2
    · cases hp : h.post <;> simp_all [decodeSw, Instr.wf.eq_def, lowBits2_eq_three_iff]
    · cases hp : h.post <;> simp_all [decodeSw, Instr.wf.eq_def]

theorem decodesSw_accz (h : SwHdr) (east : Bool) (e0 n1 : BitVec 6) (tag : BitVec 16) (res : BitVec 19) (clrstat rdstat : Bool) :
    DecodesSw (.accz h east e0 n1 tag res clrstat rdstat) :=
  decodesSw_of rfl fun hwf => by
    simp_all [decodeSw, Instr.wf.eq_def, lowBits2_eq_zero_iff]

theorem decodesSw_drn (h : SwHdr) (east : Bool) (e0 n1 : BitVec 6) (sh : BitVec 5) (relu : Bool) (rm : BitVec 3) (te clr : Bool)
    (lines1 : BitVec 7) (goff : BitVec 19) (gate rows : Bool) :
    DecodesSw (.drn h east e0 n1 sh relu rm te clr lines1 goff gate rows) :=
  decodesSw_of rfl fun hwf => by
    simp_all [decodeSw, Instr.wf.eq_def, lowBits2_eq_zero_iff, okMode, Nat.lt_succ_iff]

theorem decodesSw_steer (h : SwHdr) (ioff : BitVec 19) (n1 : BitVec 8) : DecodesSw (.steer h ioff n1) :=
  decodesSw_of rfl fun hwf => by
    simp_all [decodeSw, Instr.wf.eq_def, lowBits2_eq_zero_iff]

theorem decodesSw_ring :
    (∀ h mask w e0 m1 acc, DecodesSw (.ringMember h mask w e0 m1 acc)) ∧
    (∀ h rc x0 nexp1 m1 lines1 passes1, DecodesSw (.ringSource h rc x0 nexp1 m1 lines1 passes1)) := by
  and_intros
  all_goals
    intros
    refine decodesSw_of rfl fun hwf => ?_
    simp_all [decodeSw, Instr.wf.eq_def]

theorem decodesSw_race (h : SwHdr) (soff : BitVec 19) (t1 : BitVec 13) (ooff : BitVec 19) (e1 : BitVec 6) (k1 : BitVec 3)
    (coff : BitVec 19) (wcnt : Bool) : DecodesSw (.race h soff t1 ooff e1 k1 coff wcnt) :=
  decodesSw_of rfl fun hwf => by
    simp_all [decodeSw, Instr.wf.eq_def, aligned4, lowBits_eq_zero_iff]

theorem decodesSw_bunting :
    (∀ h name cnt res wres, DecodesSw (.bnalloc h name cnt res wres)) ∧ (∀ h name cnt, DecodesSw (.bnfree h name cnt)) ∧
    (∀ h src dst cnt, DecodesSw (.bnshare h src dst cnt)) ∧ (∀ h name cnt res wi, DecodesSw (.bnxl h name cnt res wi)) := by
  and_intros
  all_goals
    intros
    refine decodesSw_of rfl fun hwf => ?_
    simp_all [decodeSw, Instr.wf.eq_def, lowBits2_eq_zero_iff]

theorem decodesSw_pennant :
    (∀ h name res wres, DecodesSw (.pnevict h name res wres)) ∧
    (∀ h name origin res wres, DecodesSw (.pnfill h name origin res wres)) := by
  and_intros
  all_goals
    intros
    refine decodesSw_of rfl fun hwf => ?_
    simp_all [decodeSw, Instr.wf.eq_def, lowBits2_eq_zero_iff]

/-- Settles O3: the header and payload fields that the decoder reads are those that the encoder wrote; a step that is no
stream word has no 128 bits. -/
theorem streamRoundTrip : Obligations.StreamRoundTrip := by
  intro i w hwf hw
  refine (?_ : DecodesSw i) w hwf hw
  cases i
  case bindr | bindw | unbind | phase => simp only [decodesSw_binding]
  case cpy => simp only [decodesSw_cpy]
  case cpyp | gath | scat => simp only [decodesSw_pattern]
  case mcst => simp only [decodesSw_mcst]
  case arrv | evt => simp only [decodesSw_signal]
  case patch => simp only [decodesSw_patch]
  case wld => simp only [decodesSw_wld]
  case wstr => simp only [decodesSw_wstr]
  case mtok => simp only [decodesSw_mtok]
  case accz => simp only [decodesSw_accz]
  case drn => simp only [decodesSw_drn]
  case steer => simp only [decodesSw_steer]
  case ringMember | ringSource => simp only [decodesSw_ring]
  case race => simp only [decodesSw_race]
  case bnalloc | bnfree | bnshare | bnxl => simp only [decodesSw_bunting]
  case pnevict | pnfill => simp only [decodesSw_pennant]
  all_goals exact nomatch hw

end Sys2Proof
end

section
/-! PROOF. What decodes is well-formed and encodes back to the words read (R43, R45, R46). -/

namespace Sys2Proof

/-- The decoder's answer for the words `l`, if it is an instruction, is well-formed and has exactly these words. -/
def Faithful (l : List (BitVec 32)) (r : Except Reject Instr) : Prop := ∀ i, r = .ok i → i.wf = true ∧ encode i = l

theorem faithful_error {l : List (BitVec 32)} {e : Reject} : Faithful l (.error e) := fun _ h => by cases h

theorem faithful_ok {l : List (BitVec 32)} {i : Instr} (hwf : i.wf = true) (he : encode i = l) : Faithful l (.ok i) := by
  rintro j ⟨⟩
  exact ⟨hwf, he⟩

theorem faithful_chk {l : List (BitVec 32)} {w z : BitVec 32} {bads : List (Bool × Nat)} {i : Instr}
    (h : Clear w z → (∀ b ∈ bads, b.1 = false) → i.wf = true ∧ encode i = l) : Faithful l (chk w z bads i) := by
  intro j hj
  obtain ⟨hz, hb, rfl⟩ := (chk_eq_ok_iff ..).1 hj
  exact h hz hb

/-- An R or V form is faithful when every field of its encoding stands in the word read. -/
theorem faithful_encR {w z : BitVec 32} {bads : List (Bool × Nat)} {i : Instr} {maj : BitVec 6} {d a b sel : BitVec 5}
    {mod : BitVec 6} {n : Nat} (he : encode i = [encR maj d a b sel mod]) (hmaj : StandsAt maj w 26)
    (hsel : selNat w = n) (hn : sel = BitVec.ofNat 5 n)
    (hwf : Clear w z → (∀ b ∈ bads, b.1 = false) → i.wf = true)
    (hf : Clear w z → StandsAt d w 21 ∧ StandsAt a w 16 ∧ StandsAt b w 11 ∧ StandsAt mod w 0) :
    Faithful [w] (chk w z bads i) := by
  refine faithful_chk fun hz hb => ⟨hwf hz hb, ?_⟩
  obtain ⟨hd, ha, hb', hmod⟩ := hf hz
  rw [he, (encR_eq_iff ..).2 ⟨hmaj, hd, ha, hb', hn ▸ standsAt_of_toNat hsel, hmod⟩]

@[simp] theorem standsAt_gD (w : BitVec 32) : StandsAt (gD w) w 21 := standsAt_extract w
@[simp] theorem standsAt_gA (w : BitVec 32) : StandsAt (gA w) w 16 := standsAt_extract w
@[simp] theorem standsAt_gB (w : BitVec 32) : StandsAt (gB w) w 11 := standsAt_extract w
@[simp] theorem standsAt_vD (w : BitVec 32) : StandsAt (vD w) w 21 := standsAt_extract w
@[simp] theorem standsAt_vA (w : BitVec 32) : StandsAt (vA w) w 16 := standsAt_extract w
@[simp] theorem standsAt_vB (w : BitVec 32) : StandsAt (vB w) w 11 := standsAt_extract w
@[simp] theorem standsAt_qD (w : BitVec 32) : StandsAt (qD w) w 21 := standsAt_extract w
@[simp] theorem standsAt_qA (w : BitVec 32) : StandsAt (qA w) w 16 := standsAt_extract w
@[simp] theorem standsAt_f2 (w : BitVec 32) (lo : Nat) : StandsAt (f2 w lo) w lo := standsAt_extract w
@[simp] theorem standsAt_f3 (w : BitVec 32) (lo : Nat) : StandsAt (f3 w lo) w lo := standsAt_extract w
@[simp] theorem standsAt_f4 (w : BitVec 32) (lo : Nat) : StandsAt (f4 w lo) w lo := standsAt_extract w

@[simp] theorem standsAt_immShift (w : BitVec 32) : StandsAt ((immShift w).extractLsb' 0 5) w 11 ∧
    StandsAt ((immShift w).extractLsb' 5 1) w 0 := by
  simp [immShift]

/-- The mod field of an immediate form with the flag of R32 set. -/
theorem standsAt_immFlag {w z : BitVec 32} (h5 : w.getLsbD 5 = true) (hz : Clear w z) (hm : z.extractLsb' 1 4 = BitVec.allOnes 4) :
    StandsAt 16#5 w 1 :=
  (standsAt_append 1#1 0#4 w).2 ⟨standsAt_one_of_bit h5, hz.standsAt_zero hm⟩

/-- The mod field of a register form, whose flag of R32 is clear. -/
theorem standsAt_regFlag {w z : BitVec 32} (h5 : ¬ w.getLsbD 5 = true) (hz : Clear w z) (hm : z.extractLsb' 0 5 = BitVec.allOnes 5) :
    StandsAt 0#6 w 0 :=
  (standsAt_append 0#1 0#5 w).2 ⟨standsAt_zero_of_bit h5, hz.standsAt_zero hm⟩

/-- The mod field of a VVAL without apply (R291). -/
theorem standsAt_noApply {w z : BitVec 32} (h0 : ¬ w.getLsbD 0 = true) (hz : Clear w z) (hm : z.extractLsb' 1 5 = BitVec.allOnes 5) :
    StandsAt 0#6 w 0 :=
  (standsAt_append 0#5 0#1 w).2 ⟨hz.standsAt_zero hm, standsAt_zero_of_bit h0⟩

theorem okMode_of_allowed {w : BitVec 32} (hb : ∀ b ∈ [badMode w], b.1 = false) : okMode (f3 w 0) = true := by
  simpa using hb

/-! The groups of one major opcode each (R39): every selector's operation keeps the fields of its word. -/

theorem faithful_int {w : BitVec 32} (hm : w.extractLsb' 26 6 = 0x00#6) : Faithful [w] (decodeInt w) := by
  unfold decodeInt
  split
  case h_21 => exact faithful_error
  all_goals
    rename_i hs
    exact faithful_encR rfl hm.symm hs rfl (fun _ _ => rfl) fun hz => by simp [hz.standsAt_zero]

theorem faithful_shift {w : BitVec 32} (hm : w.extractLsb' 26 6 = 0x01#6) : Faithful [w] (decodeShift w) := by
  unfold decodeShift
  split
  case h_11 => exact faithful_error
  case h_1 | h_2 | h_3 | h_4 =>
    rename_i hs
    split
    · rename_i h5
      exact faithful_encR rfl hm.symm hs rfl (fun _ _ => rfl) fun hz => by
        simp [standsAt_immFlag h5 hz rfl]
    · rename_i h5
      exact faithful_encR rfl hm.symm hs rfl (fun _ _ => rfl) fun hz => by
        simp [standsAt_regFlag h5 hz rfl]
  all_goals
    rename_i hs
    exact faithful_encR rfl hm.symm hs rfl (fun _ _ => rfl) fun hz => by simp [hz.standsAt_zero]

theorem faithful_addr {w : BitVec 32} (hm : w.extractLsb' 26 6 = 0x02#6) : Faithful [w] (decodeAddr w) := by
  unfold decodeAddr
  split
  case h_4 => exact faithful_error
  all_goals
    rename_i hs
    exact faithful_encR rfl hm.symm hs rfl (fun _ _ => rfl) fun hz => by simp [hz.standsAt_zero]

theorem faithful_ctrl {w : BitVec 32} (hm : w.extractLsb' 26 6 = 0x0D#6) : Faithful [w] (decodeCtrl w) := by
  unfold decodeCtrl
  split
  case h_3 => exact faithful_error
  all_goals
    rename_i hs
    exact faithful_encR rfl hm.symm hs rfl (fun _ _ => rfl) fun hz => by simp [hz.standsAt_zero]

theorem faithful_fe {w : BitVec 32} (hm : w.extractLsb' 26 6 = 0x14#6) : Faithful [w] (decodeFe w) := by
  unfold decodeFe
  split
  case h_5 => exact faithful_error
  all_goals
    rename_i hs
    exact faithful_encR rfl hm.symm hs rfl (fun _ _ => rfl) fun hz => by simp [hz.standsAt_zero]

theorem faithful_amo {w : BitVec 32} (hm : w.extractLsb' 26 6 = 0x16#6) : Faithful [w] (decodeAmo w) := by
  unfold decodeAmo
  split
  case h_13 => exact faithful_error
  all_goals
    rename_i hs
    exact faithful_encR rfl hm.symm hs rfl (fun _ _ => rfl) fun hz => by simp

theorem faithful_red {w : BitVec 32} (hm : w.extractLsb' 26 6 = 0x17#6) : Faithful [w] (decodeRed w) := by
  unfold decodeRed
  split
  case h_6 => exact faithful_error
  all_goals
    rename_i hs
    exact faithful_encR rfl hm.symm hs rfl (fun _ _ => rfl) fun hz => by simp [hz.standsAt_zero]

theorem faithful_sync {w : BitVec 32} (hm : w.extractLsb' 26 6 = 0x19#6) : Faithful [w] (decodeSync w) := by
  unfold decodeSync
  split
  case h_11 => exact faithful_error
  all_goals
    rename_i hs
    exact faithful_encR rfl hm.symm hs rfl (fun _ _ => rfl) fun hz => by simp [hz.standsAt_zero, guidonId]

theorem faithful_pennant {w : BitVec 32} (hm : w.extractLsb' 26 6 = 0x1A#6) : Faithful [w] (decodePennant w) := by
  unfold decodePennant
  split
  case h_7 => exact faithful_error
  case h_6 =>
    rename_i hs
    refine faithful_encR rfl hm.symm hs rfl (fun _ hb => ?_) fun hz => by simp [hz.standsAt_zero]
    simpa [Instr.wf.eq_def, Nat.lt_succ_iff] using hb
  all_goals
    rename_i hs
    exact faithful_encR rfl hm.symm hs rfl (fun _ _ => rfl) fun hz => by simp [hz.standsAt_zero]

theorem faithful_stream {w : BitVec 32} (hm : w.extractLsb' 26 6 = 0x1B#6) : Faithful [w] (decodeStream w) := by
  unfold decodeStream
  split
  case h_8 => exact faithful_error
  all_goals
    rename_i hs
    exact faithful_encR rfl hm.symm hs rfl (fun _ _ => rfl) fun hz => by simp [hz.standsAt_zero]

theorem faithful_vfp {w : BitVec 32} (hm : w.extractLsb' 26 6 = 0x1C#6) : Faithful [w] (decodeVfp w) := by
  unfold decodeVfp
  split
  case h_17 => exact faithful_error
  all_goals
    rename_i hs
    exact faithful_encR rfl hm.symm hs rfl (fun _ hb => okMode_of_allowed hb) fun hz => by simp [hz.standsAt_zero]

theorem faithful_vint {w : BitVec 32} (hm : w.extractLsb' 26 6 = 0x1D#6) : Faithful [w] (decodeVint w) := by
  unfold decodeVint
  split
  case h_12 => exact faithful_error
  case h_9 | h_10 | h_11 =>
    rename_i hs
    split
    · rename_i h5
      exact faithful_encR rfl hm.symm hs rfl (fun _ _ => rfl) fun hz => by
        simp [hz.standsAt_zero, standsAt_immFlag h5 hz rfl]
    · rename_i h5
      exact faithful_encR rfl hm.symm hs rfl (fun _ _ => rfl) fun hz => by
        simp [hz.standsAt_zero, standsAt_regFlag h5 hz rfl]
  all_goals
    rename_i hs
    exact faithful_encR rfl hm.symm hs rfl (fun _ _ => rfl) fun hz => by simp [hz.standsAt_zero]

theorem faithful_vhor {w : BitVec 32} (hm : w.extractLsb' 26 6 = 0x1E#6) : Faithful [w] (decodeVhor w) := by
  unfold decodeVhor
  split
  case h_10 => exact faithful_error
  case h_1 =>
    rename_i hs
    exact faithful_encR rfl hm.symm hs rfl (fun _ hb => okMode_of_allowed hb) fun hz => by simp [hz.standsAt_zero]
  case h_4 =>
    rename_i hs
    refine faithful_encR rfl hm.symm hs rfl (fun _ hb => ?_) fun hz => by simp [hz.standsAt_zero]
    have hall : ∀ c : BitVec 3, c ≠ 7#3 → c.toNat ≤ 6 := by decide
    simpa [Instr.wf.eq_def] using hall _ (by simpa using hb)
  case h_6 =>
    rename_i hs
    split
    · rename_i h0
      refine faithful_encR rfl hm.symm hs rfl (fun _ _ => rfl) fun hz => ?_
      have hmod : StandsAt 1#6 w 0 := (standsAt_append 0#5 1#1 w).2 ⟨hz.standsAt_zero rfl, standsAt_one_of_bit h0⟩
      simp [hz.standsAt_zero, hmod]
    · rename_i h0
      refine faithful_encR rfl hm.symm hs rfl (fun hz _ => ?_) fun hz => by
        simp [hz.standsAt_zero, standsAt_noApply h0 hz rfl]
      have hb : vB w = 0#4 := hz.extract_eq_zero rfl
      simp [Instr.wf.eq_def, hb]
  all_goals
    rename_i hs
    exact faithful_encR rfl hm.symm hs rfl (fun _ _ => rfl) fun hz => by simp [hz.standsAt_zero, laneIdx]

theorem faithful_vcvt {w : BitVec 32} (hm : w.extractLsb' 26 6 = 0x1F#6) : Faithful [w] (decodeVcvt w) := by
  unfold decodeVcvt
  split
  case h_8 => exact faithful_error
  case h_1 | h_2 | h_3 =>
    rename_i hs
    exact faithful_encR rfl hm.symm hs rfl (fun _ hb => okMode_of_allowed hb) fun hz => by simp [hz.standsAt_zero]
  all_goals
    rename_i hs
    exact faithful_encR rfl hm.symm hs rfl (fun _ _ => rfl) fun hz => by simp [hz.standsAt_zero]

theorem faithful_vmove {w : BitVec 32} (hm : w.extractLsb' 26 6 = 0x28#6) : Faithful [w] (decodeVmove w) := by
  unfold decodeVmove
  split
  case h_5 => exact faithful_error
  case h_4 =>
    rename_i hs
    refine faithful_encR rfl hm.symm hs rfl (fun _ hb => ?_) fun hz => by simp [hz.standsAt_zero]
    simpa [Instr.wf.eq_def, okFmt, Nat.lt_succ_iff] using hb
  all_goals
    rename_i hs
    exact faithful_encR rfl hm.symm hs rfl (fun _ _ => rfl) fun hz => by simp [hz.standsAt_zero, laneIdx]

theorem faithful_system {w : BitVec 32} (hm : w.extractLsb' 26 6 = 0x30#6) : Faithful [w] (decodeSystem w) := by
  unfold decodeSystem
  split
  case h_12 => exact faithful_error
  case h_8 =>
    rename_i hs
    split
    · rename_i hk
      have h1 : StandsAt 1#2 w 0 := (eq_of_beq hk).symm
      refine faithful_encR rfl hm.symm hs rfl (fun _ _ => rfl) fun hz => ?_
      have hmod : StandsAt 1#6 w 0 := (standsAt_append 0#4 1#2 w).2 ⟨hz.standsAt_zero rfl, h1⟩
      simp [hz.standsAt_zero, hmod]
    · rename_i hk
      refine faithful_encR rfl hm.symm hs rfl (fun hz hb => ?_) fun hz => by simp [hz.standsAt_zero]
      have ha : gA w = 0#5 := hz.extract_eq_zero rfl
      have h3 : f2 w 0 ≠ 3#2 := by simpa using hb
      simp [Instr.wf.eq_def, ha, h3]
  all_goals
    rename_i hs
    exact faithful_encR rfl hm.symm hs rfl (fun _ _ => rfl) fun hz => by simp [hz.standsAt_zero, sysNum]

theorem faithful_order {w : BitVec 32} (hm : w.extractLsb' 26 6 = 0x18#6) : Faithful [w] (decodeOrder w) := by
  unfold decodeOrder
  split
  case h_1 =>
    rename_i hs
    refine faithful_encR rfl hm.symm hs rfl (fun _ hb => ?_) fun hz => by simp [hz.standsAt_zero, fenceMask]
    obtain ⟨hk, hscope, hmask⟩ : f2 w 4 ≠ 0#2 ∧ (f4 w 0).toNat < 11 ∧ fenceMask w ≠ 0#8 := by simpa using hb
    simpa [Instr.wf.eq_def, hk, hmask] using Nat.lt_succ_iff.1 hscope
  case h_2 =>
    rename_i hs
    split
    · rename_i hk
      refine faithful_encR rfl hm.symm hs rfl (fun hz hb => ?_) fun hz => by simp [hz.standsAt_zero, arcId]
      have hoc : f3 w 0 = 0#3 := hz.extract_eq_zero rfl
      simp_all [Instr.wf.eq_def]
    · rename_i hk
      refine faithful_encR rfl hm.symm hs rfl (fun hz hb => ?_) fun hz => by simp [hz.standsAt_zero, arcId]
      have hd : gD w = 0#5 := hz.extract_eq_zero rfl
      simp_all [Instr.wf.eq_def]
  case h_3 => exact faithful_error

theorem faithful_compare {w : BitVec 32} (h : 4 ≤ (w.extractLsb' 26 6).toNat) (h' : (w.extractLsb' 26 6).toNat ≤ 11) :
    Faithful [w] (decodeB w) := by
  unfold decodeB
  split
  case h_1 | h_2 | h_3 | h_4 | h_5 | h_6 =>
    rename_i hm
    exact faithful_ok rfl (congrArg (fun x => [x]) ((encI_eq_iff ..).2 ⟨standsAt_of_toNat hm, by simp⟩))
  case h_7 =>
    rename_i hm
    exact faithful_chk fun hz _ => ⟨rfl, congrArg (fun x => [x]) ((encI_eq_iff ..).2 ⟨standsAt_of_toNat hm, by simp [hz.standsAt_zero]⟩)⟩
  case h_8 =>
    have hm : (w.extractLsb' 26 6).toNat = 11 := by simp_all; omega
    exact faithful_chk fun hz _ => ⟨rfl, congrArg (fun x => [x]) ((encI_eq_iff ..).2 ⟨standsAt_of_toNat hm, by simp [hz.standsAt_zero]⟩)⟩

theorem faithful_memory {w : BitVec 32} (h : (w.extractLsb' 26 6).toNat ∈ [0x10, 0x11, 0x12, 0x13, 0x15]) :
    Faithful [w] (decodeM w) := by
  unfold decodeM
  split
  case h_1 =>
    rename_i hm
    refine faithful_chk fun hz hb => ⟨by simpa [Instr.wf.eq_def] using hb, ?_⟩
    exact congrArg (fun x => [x]) ((encM_eq_iff ..).2 ⟨standsAt_of_toNat hm, by simp⟩)
  case h_2 =>
    rename_i hm
    refine faithful_chk fun hz hb => ⟨by simpa [Instr.wf.eq_def] using hb, ?_⟩
    exact congrArg (fun x => [x]) ((encM_eq_iff ..).2 ⟨standsAt_of_toNat hm, by simp⟩)
  case h_3 | h_4 =>
    rename_i hm
    refine faithful_chk fun hz hb => ⟨by simpa [Instr.wf.eq_def, okFmt, Nat.lt_succ_iff] using hb, ?_⟩
    exact congrArg (fun x => [x]) ((encM_eq_iff ..).2 ⟨standsAt_of_toNat hm, by simp [hz.standsAt_zero]⟩)
  case h_5 =>
    have hm : (w.extractLsb' 26 6).toNat = 0x15 := by simp_all
    refine faithful_chk fun hz hb => ⟨by simpa [Instr.wf.eq_def, Nat.lt_succ_iff] using hb, ?_⟩
    exact congrArg (fun x => [x]) ((encM_eq_iff ..).2 ⟨standsAt_of_toNat hm, by simp [hz.standsAt_zero]⟩)

theorem faithful_immediate {w : BitVec 32} (h : (w.extractLsb' 26 6).toNat ∈ [0x0E, 0x20, 0x21, 0x22, 0x23, 0x24, 0x25, 0x26, 0x27]) :
    Faithful [w] (decodeI w) := by
  unfold decodeI
  split
  case h_1 =>
    rename_i hm
    refine faithful_chk fun hz hb => ⟨by simpa [Instr.wf.eq_def] using hb, ?_⟩
    exact congrArg (fun x => [x]) ((encI_eq_iff ..).2 ⟨standsAt_of_toNat hm, by simp [hz.standsAt_zero]⟩)
  case h_9 =>
    have hm : (w.extractLsb' 26 6).toNat = 0x27 := by simp_all
    exact faithful_chk fun hz _ => ⟨rfl, congrArg (fun x => [x]) ((encI_eq_iff ..).2 ⟨standsAt_of_toNat hm, by simp [hz.standsAt_zero]⟩)⟩
  all_goals
    rename_i hm
    exact faithful_ok rfl (congrArg (fun x => [x]) ((encI_eq_iff ..).2 ⟨standsAt_of_toNat hm, by simp⟩))

/-- An L form is faithful when every field of its encoding stands in its first word. -/
theorem faithful_encL {w v z : BitVec 32} {bads : List (Bool × Nat)} {i : Instr} {inner : BitVec 6} {d a : BitVec 5}
    {mod : BitVec 10} {n : Nat} (he : encode i = [encL inner d a mod, v]) (hmaj : StandsAt 0x3F#6 w 26)
    (hin : (w.extractLsb' 20 6).toNat = n) (hn : inner = BitVec.ofNat 6 n)
    (hwf : Clear w z → (∀ b ∈ bads, b.1 = false) → i.wf = true)
    (hf : Clear w z → StandsAt d w 15 ∧ StandsAt a w 10 ∧ StandsAt mod w 0) :
    Faithful [w, v] (chk w z bads i) := by
  refine faithful_chk fun hz hb => ⟨hwf hz hb, ?_⟩
  rw [he, (encL_eq_iff ..).2 ⟨hmaj, hn ▸ standsAt_of_toNat hin, hf hz⟩]

@[simp] theorem standsAt_lD (w : BitVec 32) : StandsAt (lD w) w 15 := standsAt_extract w
@[simp] theorem standsAt_lA (w : BitVec 32) : StandsAt (lA w) w 10 := standsAt_extract w

theorem faithful_long {w v : BitVec 32} (hm : w.extractLsb' 26 6 = 0x3F#6) : Faithful [w, v] (decodeL w v) := by
  unfold decodeL
  split
  case h_3 =>
    rename_i hs
    exact faithful_encL rfl hm.symm hs rfl (fun _ hb => by simpa [Instr.wf.eq_def] using hb) fun hz => by simp [hz.standsAt_zero]
  case h_4 =>
    rename_i hs
    exact faithful_encL rfl hm.symm hs rfl (fun _ hb => by simpa [Instr.wf.eq_def] using hb) fun hz => by simp [hz.standsAt_zero]
  case h_5 | h_6 =>
    rename_i hs
    exact faithful_encL rfl hm.symm hs rfl (fun _ hb => by simpa [Instr.wf.eq_def, okFmt, Nat.lt_succ_iff] using hb) fun hz => by
      simp [hz.standsAt_zero]
  case h_7 =>
    rename_i hs
    exact faithful_encL rfl hm.symm hs rfl (fun _ hb => by simpa [Instr.wf.eq_def, Nat.lt_succ_iff] using hb) fun hz => by
      simp [hz.standsAt_zero]
  case h_15 =>
    rename_i hs
    split
    · rename_i h0
      refine faithful_encL rfl hm.symm hs rfl (fun _ _ => rfl) fun hz => ?_
      have hmod : StandsAt 1#10 w 0 := (standsAt_append 0#9 1#1 w).2 ⟨hz.standsAt_zero rfl, standsAt_one_of_bit h0⟩
      simp [hz.standsAt_zero, hmod]
    · rename_i h0
      refine faithful_encL rfl hm.symm hs rfl (fun _ _ => rfl) fun hz => ?_
      have hmod : StandsAt 0#10 w 0 := (standsAt_append 0#9 0#1 w).2 ⟨hz.standsAt_zero rfl, standsAt_zero_of_bit h0⟩
      simp [hz.standsAt_zero, hmod]
  case h_16 => exact faithful_error
  all_goals
    rename_i hs
    exact faithful_encL rfl hm.symm hs rfl (fun _ _ => rfl) fun hz => by simp [hz.standsAt_zero]

theorem faithful_wait {w : BitVec 32} (hm : w.extractLsb' 26 6 = 0x29#6) : Faithful [w] (decodeWait w) := by
  refine faithful_chk fun hz _ => ⟨rfl, congrArg (fun x => [x]) ((eq_iff_standsAt ..).2 ?_)⟩
  have hmaj : StandsAt 0x29#6 w 26 := hm.symm
  simp [hz.standsAt_zero, hmaj]

theorem faithful_jal {w : BitVec 32} (hm : w.extractLsb' 26 6 = 0x0C#6) : Faithful [w] (.ok (.jal (gD w) (w.extractLsb' 0 21))) := by
  refine faithful_ok rfl (congrArg (fun x => [x]) ((eq_iff_standsAt ..).2 ?_))
  have hmaj : StandsAt 0x0C#6 w 26 := hm.symm
  simp [hmaj]

/-- One word, by its major opcode; an L form needs its second word. -/
theorem faithful_decodeWords_none (w : BitVec 32) : Faithful [w] (decodeWords w none) := by
  unfold decodeWords
  split
  all_goals rename_i hm
  case h_1 => exact faithful_int (standsAt_of_toNat hm).symm
  case h_2 => exact faithful_shift (standsAt_of_toNat hm).symm
  case h_3 => exact faithful_addr (standsAt_of_toNat hm).symm
  case h_4 | h_5 | h_6 | h_7 | h_8 | h_9 | h_10 | h_11 => exact faithful_compare (by simp [hm]) (by simp [hm])
  case h_12 => exact faithful_jal (standsAt_of_toNat hm).symm
  case h_13 => exact faithful_ctrl (standsAt_of_toNat hm).symm
  case h_14 | h_31 | h_32 | h_33 | h_34 | h_35 | h_36 | h_37 | h_38 => exact faithful_immediate (by simp [hm])
  case h_15 | h_16 | h_17 | h_18 | h_19 => exact faithful_memory (by simp [hm])
  case h_20 => exact faithful_fe (standsAt_of_toNat hm).symm
  case h_21 => exact faithful_amo (standsAt_of_toNat hm).symm
  case h_22 => exact faithful_red (standsAt_of_toNat hm).symm
  case h_23 => exact faithful_order (standsAt_of_toNat hm).symm
  case h_24 => exact faithful_sync (standsAt_of_toNat hm).symm
  case h_25 => exact faithful_pennant (standsAt_of_toNat hm).symm
  case h_26 => exact faithful_stream (standsAt_of_toNat hm).symm
  case h_27 => exact faithful_vfp (standsAt_of_toNat hm).symm
  case h_28 => exact faithful_vint (standsAt_of_toNat hm).symm
  case h_29 => exact faithful_vhor (standsAt_of_toNat hm).symm
  case h_30 => exact faithful_vcvt (standsAt_of_toNat hm).symm
  case h_39 => exact faithful_vmove (standsAt_of_toNat hm).symm
  case h_40 => exact faithful_wait (standsAt_of_toNat hm).symm
  case h_41 => exact faithful_system (standsAt_of_toNat hm).symm
  case h_42 | h_43 => exact faithful_error

/-- The two words of an L form. -/
theorem faithful_decodeWords_some {w : BitVec 32} (v : BitVec 32) (h : isLong w = true) : Faithful [w, v] (decodeWords w (some v)) := by
  have hm : w.extractLsb' 26 6 = 0x3F#6 := eq_of_beq h
  simpa [decodeWords, hm] using faithful_long hm

/-- The decoder's answer for a stream word, if it is one, is well-formed and has exactly its bits. -/
def FaithfulSw (w : BitVec 128) (r : Except Nat Instr) : Prop := ∀ i, r = .ok i → i.wf = true ∧ encodeSw i = some w

theorem encSw_eq_iff (sop : BitVec 8) (h : SwHdr) (wf : BitVec 2) (p : BitVec 96) (w : BitVec 128) : encSw sop h wf p = w ↔
    StandsAt sop w 120 ∧ StandsAt h.port w 112 ∧ StandsAt h.oc w 109 ∧ StandsAt 0#1 w 108 ∧ StandsAt (.ofBool h.await) w 107 ∧
    StandsAt (.ofBool h.post) w 106 ∧ StandsAt wf w 104 ∧ StandsAt h.arc w 96 ∧ StandsAt p w 0 := by
  rw [eq_iff_standsAt]
  simp [encSw, and_assoc]

@[simp] theorem standsAt_fw (w : BitVec 128) (lo n : Nat) : StandsAt (fw w lo n) w lo := standsAt_extract w

/-- A stream word is faithful when its flags and payload stand in the word read. -/
theorem faithfulSw_chkSw {w z : BitVec 128} {bads : List (Bool × Nat)} {i : Instr} {sop : BitVec 8} {wf : BitVec 2} {p : BitVec 96}
    {n : Nat} (he : encodeSw i = some (encSw sop (swHdr w) wf p)) (hs : (fw w 120 8).toNat = n) (hn : sop = BitVec.ofNat 8 n)
    (h108 : z.extractLsb' 108 1 = 1#1)
    (hwf : Clear w z → (swHdr w).okArc = true → (∀ b ∈ bads, b.1 = false) → i.wf = true)
    (hf : Clear w z → StandsAt wf w 104 ∧ StandsAt p w 0) : FaithfulSw w (chkSw w z bads i) := by
  intro j hj
  obtain ⟨hz, harc, hb, rfl⟩ := (chkSw_eq_ok_iff ..).1 hj
  refine ⟨hwf hz (by simpa using harc) hb, ?_⟩
  rw [he, (encSw_eq_iff ..).2 ⟨hn ▸ standsAt_of_toNat hs, ?_⟩]
  simp [swHdr, hz.standsAt_zero, h108, hf hz]

/-- A field is a multiple of `2 ^ k` when its low `k` bits are zero in the word. -/
theorem fw_mod_eq_zero {n k lo : Nat} {w : BitVec 128} (hk : k ≤ n) (h : fw w lo k = 0#k) : (fw w lo n).toNat % 2 ^ k = 0 := by
  rw [← lowBits_eq_zero_iff, fw, extract_extract _ (by omega)]
  exact h

theorem fw_mod16 {n lo : Nat} {w : BitVec 128} (hn : 4 ≤ n) (h : fw w lo 4 = 0#4) : (fw w lo n).toNat % 16 = 0 :=
  fw_mod_eq_zero hn h

theorem fw_mod8 {n lo : Nat} {w : BitVec 128} (hn : 3 ≤ n) (h : fw w lo 3 = 0#3) : (fw w lo n).toNat % 8 = 0 :=
  fw_mod_eq_zero hn h

theorem aligned4_fw {n lo : Nat} {w : BitVec 128} (hn : 2 ≤ n) (h : fw w lo 2 = 0#2) : aligned4 (fw w lo n) = true := by
  simpa [aligned4] using fw_mod_eq_zero hn h

theorem quadruples_fw {w : BitVec 128} (h : fw w 18 2 = 3#2) : ((fw w 18 7).toNat + 1) % 4 = 0 := by
  rw [← lowBits2_eq_three_iff, fw, extract_extract _ (by omega)]
  exact h

@[simp] theorem swHdr_post (w : BitVec 128) : (swHdr w).post = w.getLsbD 106 := rfl
@[simp] theorem swHdr_arc (w : BitVec 128) : (swHdr w).arc = fw w 96 8 := rfl

theorem faithfulSw_decodeSw (w : BitVec 128) : FaithfulSw w (decodeSw w) := by
  unfold decodeSw
  dsimp only
  split
  all_goals rename_i hs
  case h_1 | h_2 =>
    exact faithfulSw_chkSw rfl hs rfl rfl (fun _ _ _ => by simp_all [Instr.wf.eq_def, portSide]) fun hz => by
      simp [hz.standsAt_zero]
  case h_3 | h_5 | h_6 | h_7 | h_10 | h_18 | h_20 | h_17 | h_22 | h_23 =>
    exact faithfulSw_chkSw rfl hs rfl rfl (fun _ _ _ => by simp_all [Instr.wf.eq_def, Nat.lt_succ_iff]) fun hz => by
      simp [hz.standsAt_zero]
  case h_4 =>
    exact faithfulSw_chkSw rfl hs rfl rfl (fun _ _ _ => by simp_all [Instr.wf.eq_def, fw_mod16]) fun hz => by
      simp [hz.standsAt_zero]
  case h_8 =>
    exact faithfulSw_chkSw rfl hs rfl rfl (fun _ _ _ => by cases ht : w[105] <;> simp_all [Instr.wf.eq_def]) fun hz => by
      simp [hz.standsAt_zero]
  case h_9 =>
    exact faithfulSw_chkSw rfl hs rfl rfl (fun _ _ _ => by cases ht : w[38] <;> simp_all [Instr.wf.eq_def]) fun hz => by
      simp [hz.standsAt_zero]
  case h_12 | h_13 | h_14 | h_21 | h_24 | h_25 | h_26 =>
    exact faithfulSw_chkSw rfl hs rfl rfl (fun _ _ _ => by simp_all [Instr.wf.eq_def, aligned4_fw, okMode, Nat.lt_succ_iff]) fun hz => by
      simp [hz.standsAt_zero]
  case h_19 =>
    exact faithfulSw_chkSw rfl hs rfl rfl (fun hz ha hb => by
      have hv : aligned4 (fw w 64 19) = true := aligned4_fw (by decide) (by simpa using (hb _ (by simp : swAlign w 64 2 ∈ _)))
      cases ht : w[104] <;> simp_all [Instr.wf.eq_def]) fun hz => by
      simp [hz.standsAt_zero]
  case h_16 =>
    exact faithfulSw_chkSw rfl hs rfl rfl (fun _ _ _ => by simp_all [Instr.wf.eq_def, aligned4_fw, fw_mod8]) fun hz => by
      simp [hz.standsAt_zero]
  case h_11 =>
    exact faithfulSw_chkSw rfl hs rfl rfl (fun _ _ _ => by
      by_cases hm : fw w 0 2 = 2#2 <;> cases hp : w[106] <;> simp_all [Instr.wf.eq_def, quadruples_fw]) fun hz => by
      simp [hz.standsAt_zero]
  case h_15 =>
    split
    · rename_i h104
      refine faithfulSw_chkSw rfl hs rfl rfl (fun _ _ _ => by simp_all [Instr.wf.eq_def]) fun hz => ?_
      have hflags : StandsAt 1#2 w 104 := (standsAt_append 0#1 1#1 w).2 ⟨hz.standsAt_zero rfl, standsAt_one_of_bit h104⟩
      simp [hz.standsAt_zero, hflags]
    · rename_i h104
      refine faithfulSw_chkSw rfl hs rfl rfl (fun _ _ _ => by simp_all [Instr.wf.eq_def]) fun hz => ?_
      have hflags : StandsAt 0#2 w 104 := (standsAt_append 0#1 0#1 w).2 ⟨hz.standsAt_zero rfl, standsAt_zero_of_bit h104⟩
      simp [hz.standsAt_zero, hflags]
  case h_27 => exact fun _ h => by cases h

/-- Settles O4: in every case of the decoders the fields that the instruction takes and the zeros that the check demands
cover the word. -/
theorem decodedWordsAreWellFormed : Obligations.DecodedWordsAreWellFormed :=
  ⟨faithful_decodeWords_none, fun _ v i hl hi => faithful_decodeWords_some v hl i hi, faithfulSw_decodeSw⟩

end Sys2Proof
end

section
/-! PROOF. Words printed in the manual. -/

namespace Sys2Proof

/-- Settles O1, by evaluating the decoder on each word. -/
theorem decodeKnownWords : Obligations.DecodeKnownWords := by
  unfold Obligations.DecodeKnownWords
  and_intros <;> rfl

end Sys2Proof
end

section
/-! PROOF. Register instructions that complete: immediates, loads of immediates, branches and jumps (R303, R309, R310,
R313, R315-R318). -/

namespace Sys2Proof.Machine

@[simp] theorem arithVal_one (f : List Word → Word) (x : Word) : arithVal f [.ofWord x] = .ofWord (f [x]) := rfl
@[simp] theorem arithVal_two (f : List Word → Word) (x y : Word) : arithVal f [.ofWord x, .ofWord y] = .ofWord (f [x, y]) := rfl

theorem boolWord_ltS (x y : Word) : boolWord (ltS x y) = if x.slt y then 1 else 0 := rfl
theorem boolWord_ltU (x y : Word) : boolWord (ltU x y) = if x < y then 1 else 0 := by
  simp [boolWord, ltU, BitVec.lt_def]

/-- A one-operand instruction on a valid operand. -/
theorem intR_ok {size : Nat} {f : Word → Word} {d a : GReg} {s t : State} {x : Word} (h : s.mayIssue [a] [d])
    (hr : s.reads [a] = [.ofWord x]) (hw : (s.afterReads [a]).writeG d (.ofWord (f x)) = .ok t) :
    intR size f d a s = .next (t.advance size) :=
  scalar_ok h (by rw [hr]; rfl) hw

/-- A two-operand instruction on valid operands. -/
theorem intRR_ok {f : Word → Word → Word} {d a b : GReg} {s t : State} {x y : Word} (h : s.mayIssue [a, b] [d])
    (hr : s.reads [a, b] = [.ofWord x, .ofWord y]) (hw : (s.afterReads [a, b]).writeG d (.ofWord (f x y)) = .ok t) :
    intRR f d a b s = .next (t.advance 4) :=
  scalar_ok h (by rw [hr]; rfl) hw

/-! What the immediate forms and the moves of immediates compute (R309, R310, R313). -/

section Arms
variable (d a : GReg) (n : BitVec 16) (m : BitVec 32) (s : State)
theorem exec_addImm : exec (.addImm d a n) s = intR 4 (· + n.signExtend 64) d a s := rfl
theorem exec_addLong : exec (.addLong d a m) s = intR 8 (· + m.signExtend 64) d a s := rfl
theorem exec_mulImm : exec (.mulImm d a n) s = intR 4 (· * n.signExtend 64) d a s := rfl
theorem exec_mulLong : exec (.mulLong d a m) s = intR 8 (· * m.signExtend 64) d a s := rfl
theorem exec_andImm : exec (.andImm d a n) s = intR 4 (· &&& n.signExtend 64) d a s := rfl
theorem exec_andLong : exec (.andLong d a m) s = intR 8 (· &&& m.signExtend 64) d a s := rfl
theorem exec_orImm : exec (.orImm d a n) s = intR 4 (· ||| n.signExtend 64) d a s := rfl
theorem exec_orLong : exec (.orLong d a m) s = intR 8 (· ||| m.signExtend 64) d a s := rfl
theorem exec_xorImm : exec (.xorImm d a n) s = intR 4 (· ^^^ n.signExtend 64) d a s := rfl
theorem exec_xorLong : exec (.xorLong d a m) s = intR 8 (· ^^^ m.signExtend 64) d a s := rfl
theorem exec_sltImm : exec (.sltImm d a n) s = intR 4 (fun x => boolWord (ltS x (n.signExtend 64))) d a s := rfl
theorem exec_sltLong : exec (.sltLong d a m) s = intR 8 (fun x => boolWord (ltS x (m.signExtend 64))) d a s := rfl
theorem exec_sltzImm : exec (.sltzImm d a n) s = intR 4 (fun x => boolWord (ltU x (n.signExtend 64))) d a s := rfl
theorem exec_sltzLong : exec (.sltzLong d a m) s = intR 8 (fun x => boolWord (ltU x (m.signExtend 64))) d a s := rfl
theorem exec_lih : exec (.lih d n) s = scalar 4 [] d (fun _ => .ok (.ofWord ((n ++ (0 : BitVec 16)).signExtend 64))) s := rfl
theorem exec_li : exec (.li d m) s = scalar 8 [] d (fun _ => .ok (.ofWord (m.signExtend 64))) s := rfl
theorem exec_liH : exec (.liH d m) s = scalar 8 [d] d (fun vs =>
    .ok (if (vs.getD 0 .zero).valid then .ofWord (m ++ (vs.getD 0 .zero).bits.extractLsb' 0 32) else vs.getD 0 .zero)) s := rfl
theorem exec_leaLong : exec (.leaLong d a m) s = intR 8 (· + m.signExtend 64) d a s := rfl
end Arms

/-- Settles O14: every immediate form is a one-operand instruction on the sign-extended immediate. -/
theorem immediateResults : Obligations.ImmediateResults := by
  constructor
  · intro s t d a x n h hr
    simp only [List.forall_mem_cons, List.not_mem_nil, false_imp_iff, implies_true, and_true, exec_addImm, exec_mulImm, exec_andImm, exec_orImm, exec_xorImm, exec_sltImm, exec_sltzImm,
      ← boolWord_ltS, ← boolWord_ltU]
    exact ⟨fun hw => intR_ok h hr hw, fun hw => intR_ok h hr hw, fun hw => intR_ok h hr hw, fun hw => intR_ok h hr hw, fun hw => intR_ok h hr hw, fun hw => intR_ok h hr hw, fun hw => intR_ok h hr hw⟩
  · intro s t d a x n h hr
    simp only [List.forall_mem_cons, List.not_mem_nil, false_imp_iff, implies_true, and_true, exec_addLong, exec_mulLong, exec_andLong, exec_orLong, exec_xorLong, exec_sltLong, exec_sltzLong,
      ← boolWord_ltS, ← boolWord_ltU]
    exact ⟨fun hw => intR_ok h hr hw, fun hw => intR_ok h hr hw, fun hw => intR_ok h hr hw, fun hw => intR_ok h hr hw, fun hw => intR_ok h hr hw, fun hw => intR_ok h hr hw, fun hw => intR_ok h hr hw⟩

/-- LIH's value: the immediate above 16 zero bits, sign-extended, is the sign-extended immediate shifted (R310). -/
theorem signExtend_append_zero (n : BitVec 16) : (n ++ (0 : BitVec 16)).signExtend 64 = (n.signExtend 64 : Word) <<< 16 := by
  refine BitVec.eq_of_getLsbD_eq fun i hi => ?_
  have hmsb : (n ++ (0 : BitVec 16)).msb = n.msb := BitVec.msb_append
  rw [BitVec.getLsbD_signExtend, BitVec.getLsbD_shiftLeft, BitVec.getLsbD_signExtend, BitVec.getLsbD_append, hmsb]
  by_cases h16 : i < 16
  · simp [h16, hi]; omega
  · have : i < 32 ↔ i - 16 < 16 := by omega
    simp [h16, hi, this]; omega

/-- Settles O15. -/
theorem loadImmediateResults : Obligations.LoadImmediateResults := by
  refine ⟨fun s t d n h hw => ?_, fun s t d n h hw => ?_, fun s t d v n h hr hw => ?_, fun s t d a x n h hr hw => ?_⟩
  · rw [exec_lih]
    exact scalar_ok h rfl (by rwa [State.afterReads_nil, signExtend_append_zero])
  · rw [exec_li]
    exact scalar_ok h rfl (by rwa [State.afterReads_nil])
  · rw [exec_liH]
    exact scalar_ok h (by rw [hr]; rfl) hw
  · rw [exec_leaLong]
    exact intR_ok h hr hw

end Sys2Proof.Machine
end

section
/-! PROOF. Branches, jumps and links (R315-R318). -/

namespace Sys2Proof.Machine

theorem pcRel_eq (pc off : Word) : pcRel pc off = pc + 4 * off := by
  have h : off <<< 2 = 4 * off := by
    apply BitVec.eq_of_toNat_eq
    simp [Nat.shiftLeft_eq, Nat.mul_comm]
  rw [pcRel, h]

theorem not_ltS (x y : Word) : (!ltS x y) = y.sle x := BitVec.sle_eq_not_slt.symm
theorem ltU_eq (x y : Word) : ltU x y = decide (x < y) := by simp [ltU, BitVec.lt_def]
theorem not_ltU (x y : Word) : (!ltU x y) = decide (y ≤ x) := by simp [ltU_eq, ← BitVec.not_lt]

/-- No operand is invalid, so no trap. -/
theorem consume_eq_none {vs : List Val} (h : vs.find? (!·.valid) = none) : consume vs = none := by rw [consume, h]; rfl
/-- The first invalid operand traps. -/
theorem consume_eq_some {vs : List Val} {v : Val} (h : vs.find? (!·.valid) = some v) : consume vs = some (poisonTrap v) := by
  rw [consume, h]; rfl

/-- A transfer that may issue and decides by a condition. -/
theorem transfer_ite {srcs : List GReg} {f : List Val → Except Trap (Option Word)} {s : State} {c : Bool} {target : Word}
    (h : s.mayIssue srcs []) (hf : f (s.reads srcs) = .ok (if c then some target else none)) :
    transfer srcs f s = .next (if c then (s.afterReads srcs).jump target else (s.afterReads srcs).advance 4) := by
  cases c
  · exact transfer_ok (o := none) h hf
  · exact transfer_ok (o := some target) h hf

/-- A compare branch on valid operands. -/
theorem branch_ok {f : Word → Word → Bool} {a b : GReg} {n : BitVec 16} {s : State} {x y : Word} (h : s.mayIssue [a, b] [])
    (hr : s.reads [a, b] = [.ofWord x, .ofWord y]) : branch f a b n s = .next (if f x y then
      (s.afterReads [a, b]).jump (s.cur.pc + 4 * n.signExtend 64) else (s.afterReads [a, b]).advance 4) := by
  unfold branch
  refine transfer_ite h ?_
  rw [hr, consume_eq_none rfl, ← pcRel_eq]
  rfl

/-- A compare branch on an invalid operand. -/
theorem branch_poison {f : Word → Word → Bool} {a b : GReg} {n : BitVec 16} {s : State} {v : Val} (h : s.mayIssue [a, b] [])
    (hv : (s.reads [a, b]).find? (!·.valid) = some v) : branch f a b n s = .next (s.trapNow (poisonTrap v)) :=
  transfer_trap h (by rw [consume_eq_some hv])

/-- A validity branch. -/
theorem branchVal_ok {want : Bool} {a : GReg} {n : BitVec 16} {s : State} {v : Val} (h : s.mayIssue [a] [])
    (hr : s.reads [a] = [v]) : branchVal want a n s = .next (if v.valid == want then
      (s.afterReads [a]).jump (s.cur.pc + 4 * n.signExtend 64) else (s.afterReads [a]).advance 4) := by
  unfold branchVal
  refine transfer_ite h ?_
  rw [hr, ← pcRel_eq]
  rfl

section Arms
variable (a b d : GReg) (n : BitVec 16) (s : State)
theorem exec_beq : exec (.beq a b n) s = branch (· == ·) a b n s := rfl
theorem exec_bne : exec (.bne a b n) s = branch (· != ·) a b n s := rfl
theorem exec_blt : exec (.blt a b n) s = branch ltS a b n s := rfl
theorem exec_bge : exec (.bge a b n) s = branch (fun x y => !ltS x y) a b n s := rfl
theorem exec_blo : exec (.blo a b n) s = branch ltU a b n s := rfl
theorem exec_bhs : exec (.bhs a b n) s = branch (fun x y => !ltU x y) a b n s := rfl
theorem exec_bval : exec (.bval a n) s = branchVal true a n s := rfl
theorem exec_binv : exec (.binv a n) s = branchVal false a n s := rfl
theorem exec_jal (m : BitVec 21) : exec (.jal d m) s = execJal d m s := rfl
theorem exec_jalLong (m : BitVec 32) : exec (.jalLong d m) s = execJalLong d m s := rfl
theorem exec_jr : exec (.jr d a) s = execJr d a s := rfl
end Arms

/-- Settles O23. -/
theorem branchResults : Obligations.BranchResults := by
  refine ⟨fun s a b n x y h hr => ?_, fun s a n v h hr => ?_, fun s a b n v h hv => ?_⟩
  · simp only [List.forall_mem_cons, List.not_mem_nil, false_imp_iff, implies_true, and_true, exec_beq, exec_bne, exec_blt, exec_bge,
      exec_blo, exec_bhs, branch_ok h hr]
    exact ⟨trivial, trivial, rfl, by rw [not_ltS], by rw [ltU_eq], by rw [not_ltU]⟩
  · rw [exec_bval, exec_binv, branchVal_ok h hr, branchVal_ok h hr]
    cases v.valid <;> exact ⟨rfl, rfl⟩
  · simp only [List.forall_mem_cons, List.not_mem_nil, false_imp_iff, implies_true, exec_beq, exec_bne, exec_blt, exec_bge,
      exec_blo, exec_bhs, branch_poison h hv, poisonTrap, and_self]

/-- A link that is written and the jump. -/
theorem linkJump_ok {srcs : List GReg} {d : GReg} {link target : Word} {s t : State}
    (hw : (s.afterReads srcs).writeG d (.ofWord link) = .ok t) : linkJump srcs d link target s = .next (t.jump target) := by
  rw [linkJump, hw]

theorem and_three_ne_zero_iff (x : Word) : (x &&& 3 != 0) = true ↔ x.toNat % 4 ≠ 0 := by
  have h : (x &&& 3).toNat = x.toNat % 4 := by
    rw [BitVec.toNat_and]
    exact Nat.and_two_pow_sub_one_eq_mod _ 2
  rw [bne_iff_ne, ← h, ne_eq, ← BitVec.toNat_inj]
  rfl

/-- Settles O24. -/
theorem jumpResults : Obligations.JumpResults := by
  refine ⟨fun s t d n hb hw => ?_, fun s t d n hb hw => ?_, fun s d a v h hr => ?_⟩
  · rw [exec_jal, execJal, hb, pcRel_eq]
    exact linkJump_ok (by rwa [State.afterReads_nil])
  · rw [exec_jalLong, execJalLong, hb, pcRel_eq]
    exact linkJump_ok (by rwa [State.afterReads_nil])
  · obtain ⟨hb, hbad⟩ := h
    have hbad' : s.badReg [(0, a)] = none := hbad
    simp only [exec_jr, execJr, hb, hbad', hr, List.getD_cons_zero, Bool.false_eq_true, if_false, and_three_ne_zero_iff]
    refine ⟨fun t hv h4 hw => ?_, fun hv h4 => ?_, fun hv => ?_⟩
    · simp only [hv, Bool.not_true, Bool.false_eq_true, if_false, h4, ne_eq, not_true_eq_false]
      exact linkJump_ok hw
    · simp only [hv, Bool.not_true, Bool.false_eq_true, if_false, if_pos h4]
      rfl
    · simp only [hv, Bool.not_false, if_true]
      rfl

end Sys2Proof.Machine
end

section
/-! PROOF. Registers and memory read after they are written (R11, R22-R24, R69, R157). -/

namespace Sys2Proof.Machine

/-- A byte reads as the last one written at its address. -/
theorem Memory.byte_setByte (m : Memory) (a c : Nat) (b : Byte) : (m.setByte a b).byte c = if c = a then b else m.byte c := by
  by_cases h : c = a
  · subst h
    unfold Memory.setByte Memory.byte
    by_cases hb : b = freshByte c
    · simp [hb, tget_tdel]
    · simp [hb]
  · rw [if_neg h, m.byte_setByte_ne b h]

/-- The four bytes of a word read back after it was written. -/
theorem Memory.byte_setWord (m : Memory) (a i : Nat) (w : W32) (hi : i < 4) :
    (m.setWord a w).byte (a + i) = w.bits.extractLsb' (8 * i) 8 := by
  have h2 : a ≠ a + 1 + 1 := by omega
  have h3 : a ≠ a + 1 + 1 + 1 := by omega
  have hcases : i = 0 ∨ i = 1 ∨ i = 2 ∨ i = 3 := by omega
  rcases hcases with rfl | rfl | rfl | rfl <;>
    simp [Memory.setWord, Memory.setBytes, Memory.byte_setByte, h2, h3]

/-- The four bytes of a word are the word. -/
theorem wordBytes_append (b : BitVec 32) :
    b.extractLsb' 24 8 ++ b.extractLsb' 16 8 ++ b.extractLsb' 8 8 ++ b.extractLsb' 0 8 = b := by
  rw [eq_iff_standsAt]
  simp

/-- A word's validity bit reads back, and every other word's stays. -/
theorem Memory.valid_setValid (m : Memory) (a c : Nat) (v : Bool) (ha : a % 4 = 0) (hc : c % 4 = 0) :
    ((freshWord c).valid != nmem (m.setValid a v).odd (c / 4)) =
      if c = a then v else (freshWord c).valid != nmem m.odd (c / 4) := by
  have hdiv : c / 4 = a / 4 ↔ c = a := by omega
  unfold Memory.setValid
  by_cases h : c = a
  · subst h
    by_cases hv : v = (freshWord c).valid
    · simp [← hv, nmem_ndel]
    · simp [hv, nmem_nins]
      cases v <;> simp_all
  · by_cases hv : v = (freshWord a).valid <;> simp [hv, h, hdiv, nmem_ndel, nmem_nins]

/-- A word on a word boundary reads back with its bits and validity; another word is as before. -/
theorem Memory.word_setWord (m : Memory) (a c : Nat) (w : W32) (ha : a % 4 = 0) (hc : c % 4 = 0) :
    (m.setWord a w).word c = if c = a then w else m.word c := by
  have hvalid := Memory.valid_setValid (m.setBytes a [w.bits.extractLsb' 0 8, w.bits.extractLsb' 8 8, w.bits.extractLsb' 16 8,
    w.bits.extractLsb' 24 8]) a c w.valid ha hc
  have hodd : (m.setBytes a [w.bits.extractLsb' 0 8, w.bits.extractLsb' 8 8, w.bits.extractLsb' 16 8,
    w.bits.extractLsb' 24 8]).odd = m.odd := rfl
  by_cases h : c = a
  · subst h
    rw [if_pos rfl] at hvalid ⊢
    have h0 := m.byte_setWord c 0 w (by omega)
    have h1 := m.byte_setWord c 1 w (by omega)
    have h2 := m.byte_setWord c 2 w (by omega)
    have h3 := m.byte_setWord c 3 w (by omega)
    unfold Memory.word
    rw [h3, h2, h1, show (m.setWord c w).byte c = _ from h0, wordBytes_append]
    exact congrArg (W32.mk · w.bits) hvalid
  · rw [if_neg h] at hvalid ⊢
    unfold Memory.word
    rw [m.byte_setWord_of_lt a c w (by omega), m.byte_setWord_of_lt a (c + 1) w (by omega),
      m.byte_setWord_of_lt a (c + 2) w (by omega), m.byte_setWord_of_lt a (c + 3) w (by omega)]
    exact congrArg (W32.mk · _) hvalid

/-- A granule's bit reads back, and every other granule's stays. -/
theorem Memory.fe_setFe (m : Memory) (a c : Nat) (f : Bool) : (m.setFe a f).fe c = if c / 16 = a / 16 then f else m.fe c := by
  unfold Memory.fe Memory.setFe
  by_cases h : c / 16 = a / 16 <;> cases f <;> simp [h, nmem_nins, nmem_ndel]

/-- Settles O11. -/
theorem memoryReadAfterWrite : Obligations.MemoryReadAfterWrite :=
  ⟨fun m a c b => ⟨m.byte_setByte a c b, rfl, rfl⟩, fun m a c w ha hc => ⟨m.word_setWord a c w ha hc, rfl⟩,
    fun m a c f => ⟨m.fe_setFe a c f, rfl⟩⟩

/-- Settles O12. -/
theorem registerAccess : Obligations.RegisterAccess := by
  refine ⟨fun s d v hd => if_pos hd, fun s d v h0 h30 h31 => ?_, fun s v => rfl, fun x p => ⟨rfl, rfl⟩, fun s a b ha hb => ?_,
    fun s f g rest a ha hfl => ?_⟩
  · have hw : s.writeG d v = .ok (s.modCur fun x => x.putG d v) := by
      rw [State.writeG, if_neg (by tauto), if_neg h30]
    refine ⟨_, hw, rfl, ?_, fun n hn => ?_, fun k hk => tget_tset_ne _ _ _ hk⟩
    · rw [State.cur_modCur, Slot.gReg_putG _ _ _ _ h0 h30]
    · rw [State.cur_modCur, Slot.gReg_putG_ne _ _ _ hn]
  · exact s.reads_of_not_mem [a, b] (by
      simp only [List.mem_cons, List.not_mem_nil, or_false, not_or]
      exact ⟨Ne.symm ha, Ne.symm hb⟩)
  · unfold State.reads
    rw [hfl]
    have ha' : ¬ a = 31#5 := ha
    simp [srcVals, ha']

end Sys2Proof.Machine
end

section
/-! PROOF. Shifts and bit counts (R311): what the model's recursions compute, bit by bit. -/

namespace Sys2Proof.Machine

theorem shlN_eq (x : Word) (n : Nat) : shlN x n = x <<< n := by
  unfold shlN
  split
  · rfl
  · exact (BitVec.shiftLeft_eq_zero (by omega)).symm

theorem shrN_eq (x : Word) (n : Nat) : shrN x n = x >>> n := by
  unfold shrN
  split
  · rfl
  · exact (BitVec.ushiftRight_eq_zero (by omega)).symm

/-- From 63 on, every bit of an arithmetic shift is the sign bit. -/
theorem getLsbD_sshiftRight_of_le {x : Word} {n i : Nat} (h : 63 ≤ n) (hi : i < 64) : (x.sshiftRight n).getLsbD i = x.msb := by
  rw [BitVec.getLsbD_sshiftRight, decide_eq_false (by omega), Bool.not_false, Bool.true_and]
  split
  · rw [show n + i = 63 by omega, BitVec.msb_eq_getLsbD_last]
  · rfl

theorem sarN_eq (x : Word) (n : Nat) : sarN x n = x.sshiftRight n := by
  unfold sarN
  rcases Nat.le_total n 63 with h | h
  · rw [Nat.min_eq_left h]
  · refine BitVec.eq_of_getLsbD_eq fun i hi => ?_
    rw [Nat.min_eq_right h, getLsbD_sshiftRight_of_le le_rfl hi, getLsbD_sshiftRight_of_le h hi]

theorem rolN_eq (x : Word) (n : Nat) : rolN x n = x.rotateLeft n := by
  unfold rolN BitVec.rotateLeft BitVec.rotateLeftAux
  by_cases h : n % 64 = 0
  · simp [h, BitVec.ushiftRight_eq_zero (le_refl 64)]
  · rw [if_neg h]

/-- A count of leading zeros is the number of zero bits above the highest one bit. -/
theorem clzN_eq {x : Nat} : ∀ {n r : Nat}, r ≤ n → (∀ j, n - r ≤ j → j < n → x.testBit j = false) →
    (r < n → x.testBit (n - 1 - r) = true) → clzN x n = r
  | 0, r, hr, _, _ => by rw [Nat.le_zero.mp hr]; rfl
  | n + 1, r, hr, hz, ho => by
    rw [clzN, ← Nat.toNat_testBit]
    rcases r with _ | r
    · simp_all
    · have ih : clzN x n = r := clzN_eq (by omega) (fun j h1 h2 => hz j (by omega) (by omega))
        (fun h => by have := ho (by omega); rwa [show n + 1 - 1 - (r + 1) = n - 1 - r by omega] at this)
      simp [hz n (by omega) (by omega), ih]

/-- A count of trailing zeros is the number of zero bits below the lowest one bit. -/
theorem ctzN_eq : ∀ {n x r : Nat}, r ≤ n → (∀ j < r, x.testBit j = false) → (r < n → x.testBit r = true) → ctzN x n = r
  | 0, _, r, hr, _, _ => by rw [Nat.le_zero.mp hr]; rfl
  | n + 1, x, 0, _, _, ho => by simpa [ctzN] using ho (by omega)
  | n + 1, x, r + 1, hr, hz, ho => by
    have ih : ctzN (x / 2) n = r := ctzN_eq (by omega) (fun j h => by rw [Nat.testBit_div_two]; exact hz _ (by omega))
      (fun h => by rw [Nat.testBit_div_two]; exact ho (by omega))
    have h0 := hz 0 (by omega)
    have hx : ¬ x % 2 = 1 := by simpa using h0
    rw [ctzN, if_neg hx, ih]

/-- A population count is the number of positions of one bits. -/
theorem popcN_eq : ∀ (n x : Nat), popcN x n = ((List.range n).filter x.testBit).length
  | 0, _ => rfl
  | n + 1, x => by
    have hshift : (x.testBit ∘ Nat.succ) = (x / 2).testBit := funext fun j => (Nat.testBit_div_two x j).symm
    rw [popcN, popcN_eq n, List.range_succ_eq_map, List.filter_cons, List.filter_map, hshift]
    rcases Nat.mod_two_eq_zero_or_one x with h | h <;> simp [h, Nat.add_comm]

/-- Bit k of a reversal of n bits is bit n - 1 - k. -/
theorem testBit_brevN : ∀ (n x acc k : Nat),
    (brevN x n acc).testBit k = if k < n then x.testBit (n - 1 - k) else acc.testBit (k - n)
  | 0, _, _, _ => by simp [brevN]
  | n + 1, x, acc, k => by
    rw [brevN, testBit_brevN n]
    rcases Nat.lt_trichotomy k n with h | rfl | h
    · rw [if_pos h, if_pos (by omega), Nat.testBit_div_two]
      congr 1
      omega
    · simp
    · obtain ⟨j, rfl⟩ : ∃ j, k = n + 1 + j := ⟨k - (n + 1), by omega⟩
      rw [if_neg (by omega), if_neg (by omega), show n + 1 + j - n = j + 1 by omega, Nat.testBit_succ,
        show (2 * acc + x % 2) / 2 = acc by omega, Nat.add_sub_cancel_left]

section Arms
variable (d a b : GReg) (n : BitVec 6) (s : State)
theorem exec_shl : exec (.shl d a b) s = intRR (fun x y => x <<< y.toNat) d a b s := by simp only [← shlN_eq]; rfl
theorem exec_shr : exec (.shr d a b) s = intRR (fun x y => x >>> y.toNat) d a b s := by simp only [← shrN_eq]; rfl
theorem exec_sar : exec (.sar d a b) s = intRR (fun x y => x.sshiftRight y.toNat) d a b s := by simp only [← sarN_eq]; rfl
theorem exec_rol : exec (.rol d a b) s = intRR (fun x y => x.rotateLeft y.toNat) d a b s := by simp only [← rolN_eq]; rfl
theorem exec_shlImm : exec (.shlImm d a n) s = intR 4 (· <<< n.toNat) d a s := by simp only [← shlN_eq]; rfl
theorem exec_shrImm : exec (.shrImm d a n) s = intR 4 (· >>> n.toNat) d a s := by simp only [← shrN_eq]; rfl
theorem exec_sarImm : exec (.sarImm d a n) s = intR 4 (·.sshiftRight n.toNat) d a s := by simp only [← sarN_eq]; rfl
theorem exec_rolImm : exec (.rolImm d a n) s = intR 4 (·.rotateLeft n.toNat) d a s := by simp only [← rolN_eq]; rfl
theorem exec_clz : exec (.clz d a) s = intR 4 (fun x => BitVec.ofNat 64 (clzN x.toNat 64)) d a s := rfl
theorem exec_ctz : exec (.ctz d a) s = intR 4 (fun x => BitVec.ofNat 64 (ctzN x.toNat 64)) d a s := rfl
theorem exec_popc : exec (.popc d a) s = intR 4 (fun x => BitVec.ofNat 64 (popcN x.toNat 64)) d a s := rfl
theorem exec_brev : exec (.brev d a) s = intR 4 (fun x => BitVec.ofNat 64 (brevN x.toNat 64 0)) d a s := rfl
end Arms

/-- Settles O16: the shifts are those of `BitVec`, and each count is its recursion's value. -/
theorem shiftAndBitResults : Obligations.ShiftAndBitResults := by
  refine ⟨fun s t d a b x y h hr => ?_, fun s t d a x n h hr => ?_, fun s t d a x r h hr hw => ?_⟩
  · simp only [List.forall_mem_cons, List.not_mem_nil, false_imp_iff, implies_true, and_true, exec_shl, exec_shr, exec_sar, exec_rol]
    exact ⟨fun hw => intRR_ok h hr hw, fun hw => intRR_ok h hr hw, fun hw => intRR_ok h hr hw, fun hw => intRR_ok h hr hw⟩
  · simp only [List.forall_mem_cons, List.not_mem_nil, false_imp_iff, implies_true, and_true, exec_shlImm, exec_shrImm, exec_sarImm,
      exec_rolImm]
    exact ⟨fun hw => intR_ok h hr hw, fun hw => intR_ok h hr hw, fun hw => intR_ok h hr hw, fun hw => intR_ok h hr hw⟩
  · have hval : ∀ {n : Nat}, n = r.toNat → BitVec.ofNat 64 n = r := fun e => by rw [e, BitVec.ofNat_toNat, BitVec.setWidth_eq]
    refine ⟨fun ⟨hle, hz, ho⟩ => ?_, fun ⟨hle, hz, ho⟩ => ?_, fun hp => ?_, fun hb => ?_⟩
    · rw [exec_clz]
      exact intR_ok h hr (by rwa [hval (clzN_eq hle (fun j hj _ => hz j hj) ho)])
    · rw [exec_ctz]
      exact intR_ok h hr (by rwa [hval (ctzN_eq hle hz ho)])
    · rw [exec_popc]
      exact intR_ok h hr (by rwa [hval ((popcN_eq _ _).trans hp.symm)])
    · have hrev : BitVec.ofNat 64 (brevN x.toNat 64 0) = r := by
        refine BitVec.eq_of_getLsbD_eq fun i hi => ?_
        have := hb (63 - i) (by omega)
        rw [show 63 - (63 - i) = i by omega] at this
        rw [this, BitVec.getLsbD_ofNat, testBit_brevN]
        simp [hi, BitVec.getLsbD]
      rw [exec_brev]
      exact intR_ok h hr (by rwa [hrev])

end Sys2Proof.Machine
end

section
/-! PROOF. The frame of the register instructions (R304, R305). -/

namespace Sys2Proof.Machine

/-- Every register form reads its sources and writes what it makes of them. -/
theorem exec_of_regForm {i : Instr} {srcs : List GReg} {d : GReg} (s : State) (h : i.regForm = some (srcs, d)) :
    ∃ size f, exec i s = scalar size srcs d f s := by
  cases i <;> cases h <;>
  · refine ⟨?_, ?_, ?_⟩
    rotate_left 2
    delta exec execAdd execSub execMul execMulh execMulhz execDiv execDivz execRem execRemz execAnd execOr execXor execAndn execSlt execSltz
      execMin execMax execMinz execMaxz execShl execShr execSar execRol execBext execLea execIdx2 execPack execAddImm execMulImm
      execAndImm execOrImm execXorImm execSltImm execSltzImm execLeaLong execAddLong execMulLong execAndLong execOrLong execXorLong
      execSltLong execSltzLong execShlImm execShrImm execSarImm execRolImm execClz execCtz execPopc execBrev execBins execSel
      execLih execLi execLiH intRR intR intDiv
    exact rfl

/-- Falling through changes the pc and the loop stack of the issuing slot. -/
theorem State.cur_advance (s : State) (n : Nat) :
    (s.advance n).cur = { s.cur with pc := (s.advance n).cur.pc, loops := (s.advance n).cur.loops } := by
  rw [State.advance, State.cur_modCur]
  split <;> rfl

/-- No slot but the issuing one changes when that one is modified. -/
theorem State.modCur_slots_ne (s : State) (f : Slot → Slot) {k : Nat} (h : k ≠ 8 * s.focus.plot + s.focus.slot) :
    tget Slot.init (s.modCur f).slots k = tget Slot.init s.slots k :=
  tget_tset_ne _ _ _ h

/-- What a register write leaves: the other registers of the slot, the other slots, and all but what a flit adds. -/
structure State.WritesG (s t : State) (d : GReg) : Prop where
  state : t = { s with slots := t.slots, outs := t.outs, nextId := t.nextId }
  slots : ∀ k, k ≠ 8 * s.focus.plot + s.focus.slot → tget Slot.init t.slots k = tget Slot.init s.slots k
  cur : t.cur = { s.cur with g := t.cur.g, bad := t.cur.bad }
  regs : ∀ n, n ≠ d → t.cur.gReg s.focus.plot n = s.cur.gReg s.focus.plot n
  bad : ∀ b, b.1 ≠ 0 ∨ b.2.1 ≠ d → (b ∈ t.cur.bad ↔ b ∈ s.cur.bad)
  flit : d ≠ 30 → t.outs = s.outs ∧ t.nextId = s.nextId

/-- A write that touches no slot is a register write. -/
theorem State.writesG_of_slots {s t : State} {d : GReg} (h : t = { s with outs := t.outs, nextId := t.nextId })
    (hflit : d ≠ 30 → t.outs = s.outs ∧ t.nextId = s.nextId) : s.WritesG t d := by
  have hslots : t.slots = s.slots := by rw [h]
  have hcur : t.cur = s.cur := by rw [h]; rfl
  refine ⟨?_, fun _ _ => by rw [hslots], ?_, fun _ _ => by rw [hcur], fun _ _ => by rw [hcur], hflit⟩
  · rw [hslots]; exact h
  · rw [hcur]

theorem State.writesG_writeG {s t : State} {d : GReg} {v : Val} (h : s.writeG d v = .ok t) : s.WritesG t d := by
  rcases State.writeG_ok h with ⟨_, rfl⟩ | ⟨rfl, e⟩ | ⟨_, _, _, rfl⟩
  · exact State.writesG_of_slots rfl fun _ => ⟨rfl, rfl⟩
  · exact State.writesG_of_slots e fun h => absurd rfl h
  · refine ⟨rfl, fun _ hk => s.modCur_slots_ne _ hk, ?_, fun n hn => ?_, fun b hb => ?_, fun _ => ⟨rfl, rfl⟩⟩
    · rw [State.cur_modCur]; rfl
    · rw [State.cur_modCur, Slot.gReg_putG_ne _ _ _ hn]
    · have hkeep : (!(b.2.1 == d && (b.1 == 0 || (0 == (2 : BitVec 3) && b.1 == 4)))) = true := by
        rcases hb with hb | hb
        · simp [show ¬ b.1 = 0#3 from hb]
        · simp [hb]
      simp only [State.cur_modCur, Slot.putG, Slot.mend, List.mem_filter, hkeep, and_true]

/-- What a register instruction that completes changes. -/
theorem State.onlyWritesG_advance {s t : State} {srcs : List GReg} {d : GReg} {size : Nat} (h : (s.afterReads srcs).WritesG t d) :
    s.onlyWritesG (t.advance size) srcs d := by
  obtain ⟨hstate, hslots, hcur, hregs, hbad, hflit⟩ := h
  have hplots : t.plots = (s.afterReads srcs).plots := by rw [hstate]
  have hplotAt : ∀ p, (t.advance size).plotAt p = (s.afterReads srcs).plotAt p := fun p => by
    simp only [State.plotAt, State.advance_plots, hplots]
  have hfocus : t.focus = s.focus := by rw [hstate, State.afterReads_focus]
  have hcur' := t.cur_advance size
  simp only [State.afterReads_focus, State.afterReads_cur, State.afterReads_slots, State.afterReads_outs, State.afterReads_nextId]
    at hslots hcur hregs hbad hflit
  refine ⟨?_, ?_, fun k hk => ?_, ?_, fun n hn => ?_, fun b hb => ?_, fun h31 => ?_, fun p hp => ?_, ?_, hflit⟩
  · calc t.advance size = { t with slots := (t.advance size).slots } := rfl
      _ = { s.afterReads srcs with slots := (t.advance size).slots, outs := t.outs, nextId := t.nextId } :=
        congrArg (fun x : State => { x with slots := (t.advance size).slots }) hstate
      _ = { s with slots := (t.advance size).slots, plots := (s.afterReads srcs).plots, outs := t.outs, nextId := t.nextId } :=
        congrArg (fun x : State => { x with slots := (t.advance size).slots, outs := t.outs, nextId := t.nextId }) (s.afterReads_eq srcs)
      _ = _ := by rw [State.advance_plots, hplots, State.advance_outs, State.advance_nextId]
  · have hmem : t.mem = s.mem := by rw [hstate, State.afterReads_mem]
    rw [State.advance_mem, hmem]; exact fun _ => rfl
  · rw [State.advance, State.modCur_slots_ne _ _ (by rwa [hfocus]), hslots k hk]
  · rw [hcur', hcur]
  · rw [← hregs n hn, hcur']; rfl
  · rw [← hbad b hb, hcur']
  · rw [State.advance_plots, hplots, State.afterReads_of_not_mem _ _ h31]
  · rw [hplotAt, State.afterReads_plotAt_ne _ _ hp]
  · rw [hplotAt, State.afterReads_plotAt]

/-- Settles O21. -/
theorem registerFormFrame : Obligations.RegisterFormFrame := by
  intro s t i srcs d hi h
  obtain ⟨size, f, hexec⟩ := exec_of_regForm s hi
  rcases scalar_cases (hexec.symm.trans h) with rfl | htrap | ⟨v, s', _, hw, rfl⟩
  · exact .inl rfl
  · exact .inr (.inl htrap)
  · exact .inr (.inr (State.onlyWritesG_advance (State.writesG_writeG hw)))

end Sys2Proof.Machine
end

section
/-! PROOF. LOOP and YIELD (R319, R320). -/

namespace Sys2Proof.Machine

/-- A filter on keys keeps the entries it accepts and drops the others. -/
theorem tget_filter_key {α : Type} (d : α) (t : Tab α) (c : Nat → Prop) [DecidablePred c] (k : Nat) :
    tget d (t.filter fun e => c e.1) k = if c k then tget d t k else d := by
  induction t with
  | nil => simp
  | cons e t ih => obtain ⟨j, x⟩ := e; grind [tget]

theorem exec_loop (a : GReg) (n : BitVec 16) (s : State) : exec (.loop a n) s = execLoop a n s := rfl
theorem exec_yield (s : State) : exec .yield s = execYield s := rfl

/-- Settles O25. -/
theorem loopAndYield : Obligations.LoopAndYield := by
  refine ⟨fun s a n x h hr hih => ?_, fun s hc => ?_, fun s hc => ?_⟩
  · obtain ⟨hb, hbad⟩ := h
    have hbad' : s.badReg [(0, a)] = none := hbad
    have hlast : s.cur.pc + n.signExtend 64 <<< 2 = s.cur.pc + 4 * n.signExtend 64 := pcRel_eq _ _
    simp only [exec_loop, execLoop, hb, hbad', hr, hih, hlast, List.getD_cons_zero, Val.ofWord, Bool.not_true, Bool.false_eq_true, if_false]
    generalize s.cur.pc + 4 * n.signExtend 64 = last
    refine ⟨fun hn hfits => ?_, fun hz => if_pos hz, fun hn hfits => ⟨loopWord a n, ?_⟩⟩
    · rw [if_neg hn, if_neg]
      · simp only [State.modCur, State.afterReads_cur]
      · rcases hl : s.cur.loops with _ | ⟨e, l⟩
        · simp
        · simpa [hl, ← Nat.lt_sub_iff_add_lt] using hfits
    · rw [if_neg hn, if_pos]
      rcases hl : s.cur.loops with _ | ⟨e, l⟩
      · simp [hl] at hfits
      · simpa [hl, or_iff_not_imp_left, ← Nat.lt_sub_iff_add_lt] using hfits
  · rw [exec_yield, execYield]
    simp only [hc, bne_self_eq_false, Bool.false_eq_true, if_false]
    refine ⟨_, rfl, rfl, ?_⟩
    rw [State.cur_setCur]
    refine ⟨rfl, rfl, fun m h0 h30 => if_neg (by tauto), rfl, rfl, rfl, fun m => ?_, rfl⟩
    unfold Slot.vReg
    exact tget_filter_key _ _ (· < 4) _
  · rw [exec_yield, execYield]
    exact if_pos (by simpa using hc)

end Sys2Proof.Machine
end

section
/-! PROOF. What issuing a request does (R179, R180): a rule for `State.issue`, and one for every memory instruction. -/

namespace Sys2Proof.Machine

/-- Only L1 lines and the order of translation caches differ. -/
structure State.CacheEffect (s t : State) : Prop where
  state : t = { s with plots := t.plots }
  plotAt : ∀ p, t.plotAt p = { s.plotAt p with l1 := (t.plotAt p).l1, tlb := (t.plotAt p).tlb }
  tlb : ∀ p x, x ∈ (t.plotAt p).tlb ↔ x ∈ (s.plotAt p).tlb

theorem State.CacheEffect.refl (s : State) : s.CacheEffect s := ⟨rfl, fun _ => rfl, fun _ _ => Iff.rfl⟩

theorem State.CacheEffect.trans {s t u : State} (h : s.CacheEffect t) (h' : t.CacheEffect u) : s.CacheEffect u where
  state := h'.state.trans (congrArg (fun x : State => { x with plots := u.plots }) h.state)
  plotAt p := (h'.plotAt p).trans (congrArg (fun x : Plot => { x with l1 := (u.plotAt p).l1, tlb := (u.plotAt p).tlb }) (h.plotAt p))
  tlb p x := (h'.tlb p x).trans (h.tlb p x)

/-- A change of one plot's caches. -/
theorem State.cacheEffect_modPlot (s : State) (p : Nat) (f : Plot → Plot) (hf : ∀ x, f x = { x with l1 := (f x).l1, tlb := (f x).tlb })
    (htlb : ∀ y, y ∈ (f (s.plotAt p)).tlb ↔ y ∈ (s.plotAt p).tlb) : s.CacheEffect (s.modPlot p f) where
  state := rfl
  plotAt q := by
    by_cases h : q = p
    · rw [h, State.plotAt_modPlot]; exact hf _
    · rw [State.plotAt_modPlot_ne _ _ h]
  tlb q y := by
    by_cases h : q = p
    · rw [h, State.plotAt_modPlot]; exact htlb y
    · rw [State.plotAt_modPlot_ne _ _ h]

theorem State.cacheEffect_issueL1 (s : State) (r : Req) : s.CacheEffect (s.issueL1 r) := by
  unfold State.issueL1
  split
  · exact .refl s
  · split
    · exact .refl s
    · split
      · exact s.cacheEffect_modPlot _ _ (fun _ => rfl) fun _ => Iff.rfl
      · split
        · exact s.cacheEffect_modPlot _ _ (fun _ => rfl) fun _ => Iff.rfl
        · exact .refl s

theorem State.cacheEffect_touchTlb (s : State) (p : Nat) (va : Word) : s.CacheEffect (s.touchTlb p va) := by
  unfold State.touchTlb
  dsimp only
  split
  next e he =>
    split
    · exact .refl s
    · refine s.cacheEffect_modPlot _ _ (fun _ => rfl) fun y => ?_
      have hmem : e ∈ (s.plotAt p).tlb := List.mem_of_find?_eq_some he
      by_cases hy : y = e <;> simp [hy, hmem]
  · exact .refl s

/-- The issuing slot after its counter was raised by an access. -/
def Slot.countedBy (x : Slot) (o : Op) : Slot :=
  { x with cntld := if o.reads then x.cntld + 1 else x.cntld, cntst := if o.reads then x.cntst else x.cntst + 1 }
theorem Slot.countUp_counts (x : Slot) (o : Op) : x.countUp o.counts = x.countedBy o := by
  unfold Slot.countUp Slot.countedBy Op.counts
  cases o.reads <;> rfl

/-- What the issue of a request of the issuing slot changes. -/
structure State.IssueEffect (s t : State) (r : Req) : Prop where
  reqs : t.reqs = s.reqs ++ [(s.nextId, r)]
  state : t = { s with slots := t.slots, plots := t.plots, reqs := t.reqs, nextId := s.nextId + 1 }
  slots : t.slots = (s.modCur fun x => { x.countedBy r.op with wait := if r.retained then some s.nextId else x.wait }).slots
  plotAt : ∀ p, t.plotAt p = { s.plotAt p with l1 := (t.plotAt p).l1, tlb := (t.plotAt p).tlb }
  tlb : ∀ p x, x ∈ (t.plotAt p).tlb ↔ x ∈ (s.plotAt p).tlb

theorem State.issueEffect_issue (s : State) (r : Req) (hp : r.plot = s.focus.plot) (hk : r.slot = s.focus.slot) : s.IssueEffect (s.issue r) r := by
  unfold State.issue
  rw [hp, hk]
  simp only [Slot.countUp_counts]
  generalize hs0 : (s.modSlot s.focus.plot s.focus.slot _) = s0
  have hcache := (s0.cacheEffect_issueL1 r).trans ((s0.issueL1 r).cacheEffect_touchTlb s.focus.plot r.va)
  generalize (s0.issueL1 r).touchTlb s.focus.plot r.va = u at hcache
  obtain ⟨hstate, hplotAt, htlb⟩ := hcache
  subst hs0
  refine ⟨?_, ?_, ?_, hplotAt, htlb⟩
  · rw [hstate]; rfl
  · rw [hstate]; rfl
  · rw [hstate]; rfl

/-- The issuing slot once a request is issued. -/
theorem State.IssueEffect.cur {s t : State} {r : Req} (h : s.IssueEffect t r) :
    t.cur = { s.cur.countedBy r.op with wait := if r.retained then some s.nextId else s.cur.wait } := by
  have hfocus : t.focus = s.focus := by rw [h.state]
  calc t.cur = tget Slot.init t.slots (8 * s.focus.plot + s.focus.slot) := by rw [State.cur, hfocus]; rfl
    _ = (s.modCur fun x => { x.countedBy r.op with wait := if r.retained then some s.nextId else x.wait }).cur := by rw [h.slots]; rfl
    _ = _ := State.cur_modCur ..

theorem State.IssueEffect.slots_ne {s t : State} {r : Req} (h : s.IssueEffect t r) {k : Nat} (hk : k ≠ 8 * s.focus.plot + s.focus.slot) :
    tget Slot.init t.slots k = tget Slot.init s.slots k := by
  rw [h.slots, State.modCur_slots_ne _ _ hk]

/-- Falling through depends on the pc, the loop stack and the handler bit only. -/
theorem State.cur_advance_of {s t : State} {n : Nat} (hih : t.cur.ih = s.cur.ih) (hpc : t.cur.pc = s.cur.pc)
    (hloops : t.cur.loops = s.cur.loops) :
    (t.advance n).cur = { t.cur with pc := (s.advance n).cur.pc, loops := (s.advance n).cur.loops } := by
  rw [State.advance, State.cur_modCur, State.advance, State.cur_modCur, hih, hpc, hloops]
  split
  · rw [← hpc, ← hloops]
  · rfl

/-- Reading sources leaves every translation cache. -/
theorem State.afterReads_tlb (s : State) (srcs : List GReg) (p : Nat) : ((s.afterReads srcs).plotAt p).tlb = (s.plotAt p).tlb := by
  by_cases h : p = s.focus.plot
  · rw [h, State.afterReads_plotAt]
  · rw [State.afterReads_plotAt_ne _ _ h]

section Issued
variable {s : State} {a : Access} {ea : Word} {e : Tlb} {srcs : List GReg} {keep : List W32} {size : Nat}

/-- A request issued with its instruction left behind. -/
theorem State.issued_advance (hw : s.cur.wait = none) :
    s.issued (((s.afterReads srcs).issue (s.request a ea (e.addr ea) e.host [])).advance size) (some size) srcs a.op a.dest a.oc a.acq a.rel ea e
      a.val a.cmp a.vec := by
  have h := (s.afterReads srcs).issueEffect_issue (s.request a ea (e.addr ea) e.host []) (by rw [State.afterReads_focus]; rfl)
    (by rw [State.afterReads_focus]; rfl)
  have hcur := h.cur
  have hne := fun k => h.slots_ne (k := k)
  generalize (s.afterReads srcs).issue (s.request a ea (e.addr ea) e.host []) = t at *
  obtain ⟨hreqs, hstate, -, hplotAt, htlb⟩ := h
  have hfocus : t.focus = s.focus := by rw [hstate, State.afterReads_focus]
  simp only [State.afterReads_reqs, State.afterReads_nextId, State.afterReads_cur, State.afterReads_focus, State.afterReads_slots]
    at hreqs hcur hne
  refine ⟨⟨_, hreqs, rfl, rfl, rfl, rfl, rfl, rfl, rfl, rfl, rfl, rfl, rfl, rfl, fun _ => rfl, rfl⟩, ?_, fun k hk => ?_, ?_, fun p x => ?_, fun h31 p => ?_⟩
  · calc t.advance size = { t with slots := (t.advance size).slots } := rfl
      _ = { s.afterReads srcs with slots := (t.advance size).slots, plots := t.plots, reqs := t.reqs, nextId := (s.afterReads srcs).nextId + 1 } :=
        congrArg (fun x : State => { x with slots := (t.advance size).slots }) hstate
      _ = { s with slots := (t.advance size).slots, plots := t.plots, reqs := t.reqs, nextId := s.nextId + 1 } :=
        congrArg (fun x : State => { x with slots := (t.advance size).slots, plots := t.plots, reqs := t.reqs, nextId := x.nextId + 1 })
          (s.afterReads_eq srcs)
      _ = _ := by rw [State.advance_plots, State.advance_reqs]
  · rw [State.advance, State.modCur_slots_ne _ _ (by rwa [hfocus]), hne k hk]
  · have hret : (s.request a ea (e.addr ea) e.host []).retained = false := rfl
    have hadv : (t.advance size).cur = _ := State.cur_advance_of (s := s) (by rw [hcur]; rfl) (by rw [hcur]; rfl) (by rw [hcur]; rfl)
    rw [hadv, hcur, hret, hw]
    rfl
  · rw [State.plotAt_advance, htlb, State.afterReads_tlb]
  · rw [State.plotAt_advance, hplotAt, State.afterReads_of_not_mem _ _ h31]

/-- A request issued with its instruction kept. -/
theorem State.issued_retained (vec : List W32) (hk : keep ≠ []) :
    s.issued (s.issue (s.request a ea (e.addr ea) e.host keep)) none [] a.op a.dest a.oc a.acq a.rel ea e a.val a.cmp vec := by
  have h := s.issueEffect_issue (s.request a ea (e.addr ea) e.host keep) rfl rfl
  refine ⟨⟨_, h.reqs, rfl, rfl, rfl, rfl, rfl, rfl, rfl, rfl, rfl, rfl, rfl, rfl, fun h => absurd rfl h, rfl⟩, h.state, fun k hk => h.slots_ne hk,
    ?_, h.tlb, fun _ => h.plotAt⟩
  have hret : (s.request a ea (e.addr ea) e.host keep).retained = true := by
    simpa [State.request] using hk
  rw [h.cur, hret]
  rfl
end Issued

/-- What an access of R179 reads: only reads may be kept at their instruction. -/
theorem State.retains_of_not_reads {s : State} {o : Op} {host : Bool} {pa : Nat} (h : o.reads = false) : s.retains o host pa = false := by
  rw [State.retains, h, Bool.false_and]

section Access
variable {size : Nat} {srcs dsts : List GReg} {vs : List VNum} {qs : List QNum} {rv : List (BitVec 3 × BitVec 5)} {build : List Val → Access}
  {s : State} {e : Tlb} {a : Access} {base ea : Word}

/-- A memory instruction whose base is valid and whose checks pass issues its request; a read that R85, R195 or R203 keeps stays. -/
theorem memAccess_issued (h : s.memReady srcs dsts vs qs rv) (hbase : (s.reads srcs).getD 0 .zero = .ofWord base)
    (ha : build (s.reads srcs) = a) (hpre : a.pre = none) (hea : base + a.disp = ea) (hok : s.accessOk a.op a.oc ea e) :
    ∃ t, memAccess size srcs dsts vs qs rv build s = .next t ∧
      s.issued t (if s.retains a.op e.host (e.addr ea).toNat then none else some size)
        (if s.retains a.op e.host (e.addr ea).toNat then [] else srcs) a.op a.dest a.oc a.acq a.rel ea e a.val a.cmp a.vec := by
  subst hea
  obtain ⟨hwait, hb, hv, hq, hbad⟩ := h
  obtain ⟨halign, htrans, htarget⟩ := hok
  have hbits : ((s.reads srcs).getD 0 .zero).bits = base := by rw [hbase]; rfl
  have hmem := memAccess_ok (size := size) (srcs := srcs) (dsts := dsts) (vs := vs) (qs := qs) (rv := rv) (build := build) (s := s) (e := e)
    (by rw [hwait, hb, hv, hq]; rfl) hbad (by rw [hbase]; rfl) (by rw [hbits, ha]; exact halign) (by rw [hbits, ha]; exact htrans)
    (by rw [hbits, ha]; exact htarget) (by rw [ha]; exact hpre)
  simp only [hbits, ha] at hmem
  refine ⟨_, hmem, ?_⟩
  cases s.retains a.op e.host (e.addr (base + a.disp)).toNat
  · exact State.issued_advance hwait
  · exact State.issued_retained _ (by simp)

/-- The same for an access that never stays at its instruction. -/
theorem memAccess_issued_of_not_reads (h : s.memReady srcs dsts vs qs rv) (hbase : (s.reads srcs).getD 0 .zero = .ofWord base)
    (ha : build (s.reads srcs) = a) (hpre : a.pre = none) (hea : base + a.disp = ea) (hok : s.accessOk a.op a.oc ea e)
    (hreads : a.op.reads = false) :
    ∃ t, memAccess size srcs dsts vs qs rv build s = .next t ∧
      s.issued t (some size) srcs a.op a.dest a.oc a.acq a.rel ea e a.val a.cmp a.vec := by
  simpa only [State.retains_of_not_reads hreads, Bool.false_eq_true, if_false] using
    memAccess_issued (size := size) (dsts := dsts) (vs := vs) (qs := qs) (rv := rv) (build := build) h hbase ha hpre hea hok

/-- The same for an access that always stays at its instruction. -/
theorem memAccess_issued_of_retains (h : s.memReady srcs dsts vs qs rv) (hbase : (s.reads srcs).getD 0 .zero = .ofWord base)
    (ha : build (s.reads srcs) = a) (hpre : a.pre = none) (hea : base + a.disp = ea) (hok : s.accessOk a.op a.oc ea e)
    (hkeep : ∀ host pa, s.retains a.op host pa = true) :
    ∃ t, memAccess size srcs dsts vs qs rv build s = .next t ∧
      s.issued t none [] a.op a.dest a.oc a.acq a.rel ea e a.val a.cmp a.vec := by
  simpa only [hkeep, if_true] using
    memAccess_issued (size := size) (dsts := dsts) (vs := vs) (qs := qs) (rv := rv) (build := build) h hbase ha hpre hea hok

/-- A memory instruction with a check of its own that fails traps once the checks of R179 have passed. -/
theorem memAccess_pre {tr : Trap} (h : s.memReady srcs dsts vs qs rv) (hbase : (s.reads srcs).getD 0 .zero = .ofWord base)
    (ha : build (s.reads srcs) = a) (hpre : a.pre = some tr) (hea : base + a.disp = ea) (hok : s.accessOk a.op a.oc ea e) :
    memAccess size srcs dsts vs qs rv build s = .next (s.trapNow tr) := by
  subst hea
  obtain ⟨hwait, hb, hv, hq, hbad⟩ := h
  obtain ⟨halign, htrans, htarget⟩ := hok
  have hbits : (Val.ofWord base).bits = base := rfl
  have hvalid : (Val.ofWord base).valid = true := rfl
  unfold memAccess
  simp only [hwait, hb, hv, hq, hbad, hbase, ha, hbits, hvalid, halign, htrans, htarget, hpre, Option.isSome_none, Bool.or_self, Bool.not_true,
    bne_self_eq_false, Bool.false_eq_true, if_false]
end Access

end Sys2Proof.Machine
end

section
/-! PROOF. Loads, stores and atomics issue their requests (R187-R203). -/

namespace Sys2Proof.Machine

theorem ldSigned_eq (k : BitVec 3) : ldSigned k = (decide (k.toNat % 2 = 0) && decide (k.toNat < 6)) := by
  revert k; decide

section Arms
variable (d a b x : GReg) (v : VNum) (q : QNum) (oc k : BitVec 3) (acq rel clr w : Bool) (n : BitVec 9) (m : BitVec 32) (f : BitVec 4) (s : State)
theorem exec_ld : exec (.ld d a oc acq k n) s = loadOp 4 d a oc acq k (n.signExtend 64 <<< (k.toNat / 2)) s := rfl
theorem exec_ldLong : exec (.ldLong d a oc acq k m) s = loadOp 8 d a oc acq k (m.signExtend 64) s := rfl
theorem exec_ldv : exec (.ldv v a oc f n) s = loadV 4 v a oc f (n.signExtend 64 <<< 6) s := rfl
theorem exec_ldvLong : exec (.ldvLong v a oc f m) s = loadV 8 v a oc f (m.signExtend 64) s := rfl
theorem exec_feq : exec (.feq d a oc) s = execFeq d a oc s := rfl
theorem exec_ldfe : exec (.ldfe d a oc clr) s = execLdfe d a oc clr s := rfl
theorem exec_sqld : exec (.sqld q a oc) s = execSqld q a oc s := rfl
theorem exec_st : exec (.st x a oc rel k n) s = storeOp 4 x a oc rel k (n.signExtend 64 <<< k.toNat) s := rfl
theorem exec_stLong : exec (.stLong x a oc rel k m) s = storeOp 8 x a oc rel k (m.signExtend 64) s := rfl
theorem exec_stv : exec (.stv v a oc f n) s = storeV 4 v a oc f (n.signExtend 64 <<< 6) s := rfl
theorem exec_stvLong : exec (.stvLong v a oc f m) s = storeV 8 v a oc f (m.signExtend 64) s := rfl
theorem exec_stfe : exec (.stfe a b oc) s = execStfe a b oc s := rfl
theorem exec_feset : exec (.feset a oc clr) s = execFeset a oc clr s := rfl
theorem exec_redadd : exec (.redadd a b rel w oc) s = redOp 0 a b rel w oc s := rfl
theorem exec_redmin : exec (.redmin a b rel w oc) s = redOp 1 a b rel w oc s := rfl
theorem exec_redmax : exec (.redmax a b rel w oc) s = redOp 2 a b rel w oc s := rfl
theorem exec_redfadd : exec (.redfadd a b rel w oc) s = redOp 10 a b rel w oc s := rfl
theorem exec_redor : exec (.redor a b rel w oc) s = redOp 6 a b rel w oc s := rfl
end Arms

theorem loadOp_issued {size : Nat} {d a : GReg} {oc : BitVec 3} {acq : Bool} {k : BitVec 3} {disp base : Word} {s : State} {e : Tlb}
    (h : s.memReady [a] [d] [] [] []) (hr : s.reads [a] = [.ofWord base])
    (hok : s.accessOk (.ld (2 ^ (k.toNat / 2)) (k.toNat % 2 = 0 && k.toNat < 6)) oc (base + disp) e) :
    ∃ t, loadOp size d a oc acq k disp s = .next t ∧
      s.issued t (if s.retains (.ld (2 ^ (k.toNat / 2)) (k.toNat % 2 = 0 && k.toNat < 6)) e.host (e.addr (base + disp)).toNat then none else some size)
        (if s.retains (.ld (2 ^ (k.toNat / 2)) (k.toNat % 2 = 0 && k.toNat < 6)) e.host (e.addr (base + disp)).toNat then [] else [a])
        (.ld (2 ^ (k.toNat / 2)) (k.toNat % 2 = 0 && k.toNat < 6)) (.g d) oc acq false (base + disp) e .zero .zero [] := by
  rw [← ldSigned_eq] at *
  exact memAccess_issued h (by rw [hr]; rfl) rfl rfl rfl hok

/-- Settles O27. -/
theorem loadsIssue : Obligations.LoadsIssue := by
  refine ⟨fun s d a oc acq k base e n m hk h hr => ?_, fun s d a oc f base e n m h hr => ?_, fun s d a oc base e h hr => ?_,
    fun s q a oc base e h hr => ?_⟩
  · simp only [List.forall_mem_cons, List.not_mem_nil, false_imp_iff, implies_true, and_true, exec_ld, exec_ldLong]
    exact ⟨fun hok => loadOp_issued h hr hok, fun hok => loadOp_issued h hr hok⟩
  · simp only [List.forall_mem_cons, List.not_mem_nil, false_imp_iff, implies_true, and_true, exec_ldv, exec_ldvLong]
    exact ⟨fun hok => memAccess_issued h (by rw [hr]; rfl) rfl rfl rfl hok, fun hok => memAccess_issued h (by rw [hr]; rfl) rfl rfl rfl hok⟩
  · simp only [exec_feq, exec_ldfe]
    refine ⟨fun hok => memAccess_issued h (by rw [hr]; rfl) rfl rfl (BitVec.add_zero _) hok, fun c hok => ?_⟩
    exact memAccess_issued_of_retains h (by rw [hr]; rfl) rfl rfl (BitVec.add_zero _) hok fun _ _ => by cases c <;> rfl
  · rw [exec_sqld]
    exact fun hok => memAccess_issued_of_retains h (by rw [hr]; rfl) rfl rfl (BitVec.add_zero _) hok fun _ _ => rfl

theorem storeOp_issued {size : Nat} {x a : GReg} {oc : BitVec 3} {rel : Bool} {k : BitVec 3} {disp base : Word} {v : Val} {s : State} {e : Tlb}
    (h : s.memReady [a, x] [] [] [] []) (hr : s.reads [a, x] = [.ofWord base, v]) (hok : s.accessOk (.st (2 ^ k.toNat)) oc (base + disp) e) :
    ∃ t, storeOp size x a oc rel k disp s = .next t ∧
      s.issued t (some size) [a, x] (.st (2 ^ k.toNat)) .none oc false rel (base + disp) e v .zero [] :=
  memAccess_issued_of_not_reads (a := ⟨.st (2 ^ k.toNat), .none, oc, false, rel, disp, v, .zero, [], none⟩) h (by rw [hr]; rfl) (by rw [hr]; rfl) rfl
    rfl hok rfl

theorem redOp_issued {sel : BitVec 4} {a b : GReg} {oc : BitVec 3} {rel w : Bool} {base : Word} {v : Val} {s : State} {e : Tlb}
    (h : s.memReady [a, b] [] [] [] []) (hr : s.reads [a, b] = [.ofWord base, v]) (hok : s.accessOk (.red sel w) oc base e) :
    ∃ t, redOp sel a b rel w oc s = .next t ∧ s.issued t (some 4) [a, b] (.red sel w) .none oc false rel base e v .zero [] :=
  memAccess_issued_of_not_reads (a := ⟨.red sel w, .none, oc, false, rel, 0, v, .zero, [], none⟩) h (by rw [hr]; rfl) (by rw [hr]; rfl) rfl
    (BitVec.add_zero _) hok rfl

theorem execStfe_issued {a b : GReg} {oc : BitVec 3} {base : Word} {v : Val} {s : State} {e : Tlb}
    (h : s.memReady [a, b] [] [] [] []) (hr : s.reads [a, b] = [.ofWord base, v]) (hok : s.accessOk .stfe oc base e) :
    ∃ t, execStfe a b oc s = .next t ∧ s.issued t (some 4) [a, b] .stfe .none oc false true base e v .zero [] :=
  memAccess_issued_of_not_reads (a := ⟨.stfe, .none, oc, false, true, 0, v, .zero, [], none⟩) h (by rw [hr]; rfl) (by rw [hr]; rfl) rfl
    (BitVec.add_zero _) hok rfl

/-- An STV issues the words of its register when its format code is 0 or the tag's, and raises FORMAT_MISMATCH when it is neither. -/
theorem storeV_issued {size : Nat} {x : VNum} {a : GReg} {oc : BitVec 3} {f : BitVec 4} {disp base : Word} {s : State} {e : Tlb}
    (h : s.memReady [a] [] [x] [] ((2, x.zeroExtend 5) :: if f != 0 then [(4, x.zeroExtend 5)] else [])) (hr : s.reads [a] = [.ofWord base])
    (hok : s.accessOk .stv oc (base + disp) e) :
    (f = 0 ∨ (s.vGet x).tag.extractLsb' 0 4 = f → ∃ t, storeV size x a oc f disp s = .next t ∧
      s.issued t (some size) [a] .stv .none oc false false (base + disp) e .zero .zero (vregWords (s.vGet x))) ∧
    (f ≠ 0 → (s.vGet x).tag.extractLsb' 0 4 ≠ f → storeV size x a oc f disp s = .next (s.trapNow ⟨0x32, (s.vGet x).tag.zeroExtend 64, 0⟩)) := by
  unfold storeV
  constructor
  · intro hf
    have hpre : (if (f != 0 && (s.vGet x).tag.extractLsb' 0 4 != f) = true then some (mkTrap 0x32 ((s.vGet x).tag.zeroExtend 64)) else none) = none :=
      if_neg (by simpa [or_iff_not_imp_left] using hf)
    exact memAccess_issued_of_not_reads (a := ⟨.stv, .none, oc, false, false, disp, .zero, .zero, vregWords (s.vGet x), _⟩) h (by rw [hr]; rfl) rfl hpre
      rfl hok rfl
  · intro hf hne
    have hpre : (if (f != 0 && (s.vGet x).tag.extractLsb' 0 4 != f) = true then some (mkTrap 0x32 ((s.vGet x).tag.zeroExtend 64)) else none) =
        some ⟨0x32, (s.vGet x).tag.zeroExtend 64, 0⟩ := if_pos (by simpa [bne_iff_ne] using ⟨hf, hne⟩)
    exact memAccess_pre (a := ⟨.stv, .none, oc, false, false, disp, .zero, .zero, vregWords (s.vGet x), _⟩) h (by rw [hr]; rfl) rfl hpre rfl hok

/-- Settles O28. -/
theorem storesIssue : Obligations.StoresIssue := by
  refine ⟨fun s x a oc rel k base v e n m hk h hr => ?_, fun s x a oc f base e n m h hr => ?_, fun s a b oc base v e h hr rel w => ?_,
    fun s a oc full base e h hr hok => ?_⟩
  · simp only [List.forall_mem_cons, List.not_mem_nil, false_imp_iff, implies_true, and_true, exec_st, exec_stLong]
    exact ⟨fun hok => storeOp_issued h hr hok, fun hok => storeOp_issued h hr hok⟩
  · simp only [List.forall_mem_cons, List.not_mem_nil, false_imp_iff, implies_true, and_true, exec_stv, exec_stvLong]
    exact ⟨fun hok => storeV_issued h hr hok, fun hok => storeV_issued h hr hok⟩
  · simp only [List.forall_mem_cons, List.not_mem_nil, false_imp_iff, implies_true, and_true, exec_stfe, exec_redadd, exec_redmin, exec_redmax,
      exec_redfadd, exec_redor]
    exact ⟨fun hok => execStfe_issued h hr hok, fun hok => redOp_issued h hr hok, fun hok => redOp_issued h hr hok,
      fun hok => redOp_issued h hr hok, fun hok => redOp_issued h hr hok, fun hok => redOp_issued h hr hok⟩
  · rw [exec_feset]
    exact memAccess_issued_of_not_reads h (by rw [hr]; rfl) rfl rfl (BitVec.add_zero _) hok rfl

/-- A slot whose g[1] holds the first address of plot 0's SRAM, on a die that has learnt of a sequence number it does not cover: the line of a
prefetch must wait (R116). -/
def waitingPrefetch : State :=
  { State.reset with
    slots := [(0, Slot.init.putG 1 (.ofWord 0x30000000000))]
    causal := [(0, { Causal.init with dv := [0, 1, 0, 0, 0, 0, 0, 0] })] }

/-- The prefetch goes on as a walk of its own, which takes a number. -/
theorem exec_prf_waitingPrefetch : ∃ t, exec (.prf 0 1 0 0) waitingPrefetch = .next t ∧ t.nextId = 1 := ⟨_, rfl, by decide⟩

/-- Refutes O29: a PRF whose line must wait is under way as a walk (R191), so `walks` and `nextId` change, which the frame of its third part
leaves out. -/
theorem not_atomicsIssue : ¬ Obligations.AtomicsIssue := by
  rintro ⟨-, -, hprf⟩
  obtain ⟨⟨t, ht, hframe, -⟩, -⟩ := hprf waitingPrefetch 0 1 0 0 0 (by decide) (.prf 0 1 0 0, 4) List.mem_cons_self
  obtain ⟨t', ht', hid⟩ := exec_prf_waitingPrefetch
  obtain rfl : t = t' := by simpa using ht.symm.trans ht'
  have h0 : t.nextId = 0 := by rw [hframe]; rfl
  omega

end Sys2Proof.Machine
end

section
/-! PROOF. A full/empty store that serves a waiting load (R193, R194). -/

namespace Sys2Proof.Machine

/-- A request of slot 0 of plot 0 for the first doubleword of its own scratchpad. -/
def spadReq (op : Op) (arr : Nat) : Req :=
  { plot := 0, slot := 0, op, dest := .none, oc := 0, acq := false, rel := false, va := 0x30000000000, pa := 0x30000000000, unit := 0, val := .zero,
    cmp := .zero, vec := [], stamp := List.replicate 8 0, stage := .issued, resp := [], retained := false, sig := 0, cls := 0, reb := 0, arr,
    refill := false, replayed := false, since := 0 }

/-- An STFE and an LDFE that waits on its granule, outstanding under one number. -/
def sharedNumber : State := { State.reset with reqs := [(0, spadReq .stfe 0), (0, spadReq (.ldfe false) 1)] }

/-- Refutes O31: with the STFE and the LDFE that it serves under one number, the finished store takes the load's entry away, though the fifth
part says both that nothing stands under the number and that the load served does. The statement does not ask for distinct numbers. -/
theorem not_storesPerform : ¬ Obligations.StoresPerform := by
  intro h
  obtain ⟨-, -, -, -, hstfe, -⟩ := h sharedNumber 0 (spadReq .stfe 0) rfl (by decide) (by decide)
  obtain ⟨t, -, hgone, -, -, hserved, -⟩ := hstfe rfl
  obtain ⟨⟨z, hz, -⟩, -⟩ := hserved 0 (spadReq (.ldfe false) 1) 0 0 (by decide) (by decide) (by decide)
  rw [hgone] at hz
  exact absurd hz (by simp)

end Sys2Proof.Machine
end

section
/-! PROOF. Every instruction, word, command and event answers a next state (R45, R305, R386). -/

namespace Sys2Proof.Machine

/-- The outcome is a next state. -/
def Answers (r : Result) : Prop := ∃ t, r = .next t

@[simp] theorem answers_next (s : State) : Answers (.next s) := ⟨s, rfl⟩

@[simp] theorem answers_scalar (size : Nat) (srcs : List GReg) (d : GReg) (f : List Val → Except Trap Val) (s : State) : Answers (scalar size srcs d f s) := by
  unfold scalar
  repeat' split
  all_goals exact answers_next _
@[simp] theorem answers_control (size : Nat) (srcs dsts : List GReg) (f : List Val → State → Except Trap (Option State)) (s : State) : Answers (control size srcs dsts f s) := by
  unfold control
  repeat' split
  all_goals exact answers_next _
@[simp] theorem answers_transfer (srcs : List GReg) (f : List Val → Except Trap (Option Word)) (s : State) : Answers (transfer srcs f s) := by
  unfold transfer
  repeat' split
  all_goals exact answers_next _
@[simp] theorem answers_memAccess (size : Nat) (srcs dsts : List GReg) (vs : List VNum) (qs : List QNum) (rv : List (BitVec 3 × BitVec 5)) (build : List Val → Access) (s : State) : Answers (memAccess size srcs dsts vs qs rv build s) := by
  unfold memAccess
  dsimp only
  repeat' split
  all_goals exact answers_next _
@[simp] theorem answers_prefetchOp (size : Nat) (t : BitVec 5) (a : GReg) (oc : BitVec 3) (disp : Word) (s : State) : Answers (prefetchOp size t a oc disp s) := by
  unfold prefetchOp
  dsimp only
  repeat' split
  all_goals exact answers_next _
@[simp] theorem State.answers_nodeFinish (s : State) (srcs : List GReg) (d : GReg) (arrival : Option (BitVec 8)) : Answers (State.nodeFinish s srcs d arrival) := by
  unfold State.nodeFinish
  dsimp only
  repeat' split
  all_goals exact answers_next _
@[simp] theorem answers_vectorOp (vs : List VNum) (gs : List GReg) (d : VNum) (f : List Val → Except Trap VOut) (s : State) : Answers (vectorOp vs gs d f s) := by
  unfold vectorOp
  repeat' split
  all_goals exact answers_next _
@[simp] theorem State.answers_configEnd (s : State) (d a : GReg) (status : Word) : Answers (State.configEnd s d a status) := by
  unfold State.configEnd
  dsimp only
  repeat' split
  all_goals exact answers_next _
@[simp] theorem answers_linkJump (srcs : List GReg) (d : GReg) (link target : Word) (s : State) : Answers (linkJump srcs d link target s) := by
  unfold linkJump
  repeat' split
  all_goals exact answers_next _
@[simp] theorem State.answers_pnFinish (s : State) (d a : GReg) : Answers (State.pnFinish s d a) := by
  unfold State.pnFinish
  dsimp only
  repeat' split
  all_goals exact answers_next _
@[simp] theorem answers_command (check : Cmd → State → Option (BitVec 8)) (run : Nat → Cmd → State → State) (s : State) : Answers (command check run s) := by
  unfold command
  dsimp only
  repeat' split
  all_goals exact answers_next _
@[simp] theorem answers_startWord (run : Nat → SWord → SwHdr → State → Started) (s : State) : Answers (startWord run s) := by
  unfold startWord
  dsimp only
  repeat' split
  all_goals exact answers_next _


/-! The forms that are special cases of these. -/

@[simp] theorem answers_intRR (f : Word → Word → Word) (d a b : GReg) (s : State) : Answers (intRR f d a b s) := answers_scalar ..
@[simp] theorem answers_intR (size : Nat) (f : Word → Word) (d a : GReg) (s : State) : Answers (intR size f d a s) := answers_scalar ..
@[simp] theorem answers_intDiv (f : Word → Word → Word) (d a b : GReg) (s : State) : Answers (intDiv f d a b s) := answers_scalar ..
@[simp] theorem answers_branch (f : Word → Word → Bool) (a b : GReg) (imm : BitVec 16) (s : State) : Answers (branch f a b imm s) := answers_transfer ..
@[simp] theorem answers_branchVal (want : Bool) (a : GReg) (imm : BitVec 16) (s : State) : Answers (branchVal want a imm s) := answers_transfer ..
@[simp] theorem answers_loadOp (size : Nat) (d a : GReg) (oc : BitVec 3) (acq : Bool) (t : BitVec 3) (disp : Word) (s : State) : Answers (loadOp size d a oc acq t disp s) := answers_memAccess ..
@[simp] theorem answers_storeOp (size : Nat) (x a : GReg) (oc : BitVec 3) (rel : Bool) (t : BitVec 3) (disp : Word) (s : State) : Answers (storeOp size x a oc rel t disp s) := answers_memAccess ..
@[simp] theorem answers_loadV (size : Nat) (d : VNum) (a : GReg) (oc : BitVec 3) (fmt : BitVec 4) (disp : Word) (s : State) : Answers (loadV size d a oc fmt disp s) := answers_memAccess ..
@[simp] theorem answers_storeV (size : Nat) (x : VNum) (a : GReg) (oc : BitVec 3) (fmt : BitVec 4) (disp : Word) (s : State) : Answers (storeV size x a oc fmt disp s) := by
  unfold storeV
  exact answers_memAccess ..
@[simp] theorem answers_amoOp (sel : BitVec 4) (d a b : GReg) (k : BitVec 2) (w : Bool) (oc : BitVec 3) (s : State) : Answers (amoOp sel d a b k w oc s) := answers_memAccess ..
@[simp] theorem answers_redOp (sel : BitVec 4) (a b : GReg) (rel w : Bool) (oc : BitVec 3) (s : State) : Answers (redOp sel a b rel w oc s) := answers_memAccess ..
@[simp] theorem answers_vfpOp (vs : List VNum) (d : VNum) (m : BitVec 3) (f : Nat → Nat → Bool → List Nat → Lane × Flags) (s : State) : Answers (vfpOp vs d m f s) := answers_vectorOp ..
@[simp] theorem answers_vintOp (a b d : VNum) (plain : Bool) (f : Nat → Nat → Nat → Nat) (s : State) : Answers (vintOp a b d plain f s) := answers_vectorOp ..
@[simp] theorem answers_vbitOp (a b d : VNum) (f : BitVec 32 → BitVec 32 → BitVec 32) (s : State) : Answers (vbitOp a b d f s) := answers_vectorOp ..
@[simp] theorem answers_vshiftR (a b d : VNum) (f : Nat → Nat → Nat → Nat) (s : State) : Answers (vshiftR a b d f s) := answers_vectorOp ..
@[simp] theorem answers_vshiftI (a d : VNum) (n : BitVec 6) (f : Nat → Nat → Nat → Nat) (s : State) : Answers (vshiftI a d n f s) := answers_vectorOp ..
@[simp] theorem answers_reduceOp (d a : VNum) (comb : Nat → Bool → Nat → Nat → Nat × Flags) (fin : Nat → List (Option Nat) → Option (Nat × Flags)) (s : State) : Answers (reduceOp d a comb fin s) := answers_vectorOp ..
@[simp] theorem answers_convertOp (d a : VNum) (gs : List GReg) (p : BitVec 3) (src dst : BitVec 16 → Bool)
    (one : List Val → BitVec 16 → BitVec 16 → Nat → Lane × Flags) (s : State) : Answers (convertOp d a gs p src dst one s) := answers_vectorOp ..
@[simp] theorem answers_vvalQuery (d a : VNum) (s : State) : Answers (vvalQuery d a s) := answers_vectorOp ..
@[simp] theorem answers_vvalApply (d a b : VNum) (s : State) : Answers (vvalApply d a b s) := answers_vectorOp ..
@[simp] theorem answers_regionOp (d a : GReg) (f : Option (Nat × Region) → State → Except Trap (Option State)) (s : State) : Answers (regionOp d a f s) := answers_control ..
@[simp] theorem answers_matrixWord (s : State) : Answers (matrixWord s) := answers_startWord ..

/-! The forms that choose between these. -/

@[simp] theorem answers_pnInstr (d a : GReg) (prepare : Word → State → Except (Trap × State) ((Option (PnOp × Word)) × State)) (s : State) : Answers (pnInstr d a prepare s) := by
  unfold pnInstr
  dsimp only
  repeat' split
  all_goals simp
@[simp] theorem State.answers_configGoes (s : State) (d a : GReg) (i : Nat) (x : Inst) (l : List Word × Nat × Bool) : Answers (State.configGoes s d a i x l) := by
  unfold State.configGoes
  repeat' split
  all_goals simp
@[simp] theorem answers_copyWord (prepare : Nat → SWord → State → State) (s : State) : Answers (copyWord prepare s) := by
  unfold copyWord
  dsimp only
  repeat' split
  all_goals simp
@[simp] theorem answers_bindWord (h : SwHdr) (read : Bool) (rc : BitVec 13) (hold : Bool) (s : State) : Answers (bindWord h read rc hold s) := by
  unfold bindWord
  dsimp only
  repeat' split
  all_goals simp
@[simp] theorem answers_pnWord (s : State) : Answers (pnWord s) := by
  unfold pnWord
  dsimp only
  repeat' split
  all_goals simp
@[simp] theorem answers_startBn (s : State) : Answers (startBn s) := by
  unfold startBn
  dsimp only
  repeat' split
  all_goals simp
/-! Every constructor, in three ranges of `Instr`: one that is a form answers by its form, and every branch of the others ends in a next
state or in a form. -/

/-- Instructions of a core. -/
theorem exec_answers_of_core (i : Instr) (s : State) (h : i.ctorIdx < 186) : Answers (exec i s) := by
  revert h
  cases i <;> simp only [Instr.ctorIdx, Nat.reduceLT, false_imp_iff, true_imp_iff]
  all_goals simp only [exec.eq_def, execAdd, execSub, execMul, execMulh, execMulhz, execDiv, execDivz, execRem, execRemz, execAnd, execOr, execXor, execAndn,
    execSlt, execSltz, execMin, execMax, execMinz, execMaxz, execSel, execAddImm, execMulImm, execAndImm, execOrImm, execXorImm,
    execSltImm, execSltzImm, execLih, execLi, execLiH, execLeaLong, execAddLong, execMulLong, execAndLong, execOrLong,
    execXorLong, execSltLong, execSltzLong, execShl, execShlImm, execShr, execShrImm, execSar, execSarImm, execRol, execRolImm,
    execClz, execCtz, execPopc, execBrev, execBext, execBins, execLea, execIdx2, execPack, execBeq, execBne, execBlt, execBge,
    execBlo, execBhs, execBval, execBinv, execJal, execJalLong, execJr, execYield, execLoop, execLd, execLdLong, execSt,
    execStLong, execLdv, execLdvLong, execStv, execStvLong, execPrf, execPrfLong, execLdfe, execStfe, execFeq, execFeset,
    execAmadd, execAmmin, execAmmax, execAmminz, execAmmaxz, execAmand, execAmor, execAmxor, execAmswp, execAmcas, execAmfadd,
    execAminc, execRedadd, execRedmin, execRedmax, execRedfadd, execRedor, execFence, execArc, execEvsig, execEvwait,
    execBarrive, execBwait, execBskip, execPrio, execTrigbind, execTrigdrop, execFreeze, execThaw, execPndef, execPnatt,
    execPndet, execPndrop, execPnrel, execPnq, execSqset, execSqld, execSqiss, execSqwait, execConfig, execArm, execDisarm,
    execVadd, execVsub, execVmul, execVfma, execVfms, execVdiv, execVsqrt, execVrsq, execVrcp, execVmin, execVmax, execVabs,
    execVneg, execVexp2, execVlog2, execVscale, execViadd, execVisub, execVimul, execVimin, execVimax, execVand, execVor,
    execVxor, execVshl, execVshlImm, execVshr, execVshrImm, execVsar, execVsarImm, execVsum, execVhmax, execVhmin, execVcmp,
    execVsel, execVval, execVperm, execVbcast, execVslide, execVcvt, execVqnt, execVdqnt, execVtag, execVtagrd, execVpack,
    execVunpk, execVmov, execVext, execVins, execVzero, execWait, execNop, execTrap, execEret, execSysrd, execSyswr, execSavec,
    execRestc, execTcinv, execIcinv, execIdle, execBrk, answers_next, answers_scalar, answers_control, answers_memAccess,
    answers_prefetchOp, answers_vectorOp, answers_intRR, answers_intR, answers_intDiv, answers_branch, answers_branchVal,
    answers_loadOp, answers_storeOp, answers_loadV, answers_storeV, answers_amoOp, answers_redOp, answers_vfpOp, answers_vintOp,
    answers_vbitOp, answers_vshiftR, answers_vshiftI, answers_reduceOp, answers_convertOp, answers_regionOp, answers_pnInstr]
  all_goals repeat' split
  all_goals simp

/-- Stream words, commands and faults. -/
theorem exec_answers_of_word (i : Instr) (s : State) (h : 186 ≤ i.ctorIdx ∧ i.ctorIdx < 244) : Answers (exec i s) := by
  revert h
  cases i <;> simp only [Instr.ctorIdx, Nat.reduceLeDiff, Nat.reduceLT, false_imp_iff, true_imp_iff, and_true, and_false]
  all_goals simp only [exec.eq_def, asWord, execBindr, execBindw, execUnbind, execCpy, execCpyp, execGath, execScat, execMcst, execPhase, execArrv, execPatch,
    execEvt, execWld, execWstr, execMtok, execAccz, execDrn, execSteer, execRingMember, execRingSource, execRace, execBnalloc,
    execBnfree, execBnshare, execBnxl, execPnevict, execPnfill, execQueueOpen, execQueueClose, execQueueReset, execLinkCreate,
    execLinkDestroy, execImageInstall, execImageRemove, execBindStreams, execPreempt, execRestore, execSlotResume, execSlotKill,
    execPnAdminDrop, execPnAdminEvict, execPnAdminFill, execPnAdminList, execRegionDeclare, execRegionUndeclare, execFaultReplay,
    execFaultDecline, execShootdownAsid, execShootdownPage, execShootdownAll, execDieFence, execPartitionSet, execHostCopy,
    execLogRead, execDecodeFault, execFetchFault, execG30Write, execG31Read, answers_next, answers_command]
  all_goals repeat' split
  all_goals simp

/-- Events. -/
theorem exec_answers_of_event (i : Instr) (s : State) (h : 244 ≤ i.ctorIdx) : Answers (exec i s) := by
  revert h
  cases i <;> simp only [Instr.ctorIdx, Nat.reduceLeDiff, false_imp_iff, true_imp_iff]
  all_goals simp only [exec.eq_def, execFlitArrive, execLoadComplete, execStorePerform, execAmoPerform, execRedPerform, execReadServe, execReadResponseMerge,
    execHostPageAccess, execPageWalk, execCountedPacketSend, execPacketArrive, execDeliveryAck, execFrontierRequest,
    execFrontierFlitSend, execFrontierFlitReceive, execMastLinkError, execRebaseQuiet, execRebaseReset, execRingRetune,
    execRingHeaterSaturate, execRingReassignDone, execVbusRetrain, execVbusRetrainForced, execVbusRetrainEnd,
    execDeadlockRecoveryStart, execDeadlockRecoveryEnd, execDcarveWrite, execControlRegisterWrite, execBindrBeat, execBindwBeat,
    execStreamWordComplete, execMtokConsumed, execMtokDone, execRingGroupProduct, execPlotWake, execConfigScrub,
    execRegionReloadDone, execStorageScrub, execArrvApply, execBarrierTimeout, execFiringStart, execPermitReceive, execActorDone,
    execGuidonDoneReceive, execWatchdog, execIdleTimeout, execAsyncTrap, execPreemptRegionFreeze, execPennantIdleEvict,
    execDoorbell, execCommandDispatch, execPatchArrive, execCommandComplete, execSessionOpen, execSessionClose, execAttest,
    execSyncstate, execSessionTimeout, execQpLinkDown, execRdmaAtomic, execPowerOn, execThermalLimit, execCriticalTrip,
    execChannelBeatArrive, execRdmaWrite, execHostWriteAcknowledged, execPeerWriteAcknowledged, execTemperatureBelowLimit,
    execDefectEntryAdded, answers_next]
  all_goals repeat' split
  all_goals simp

theorem exec_answers (i : Instr) (s : State) : Answers (exec i s) := by
  rcases Nat.lt_or_ge i.ctorIdx 186 with h | h
  · exact exec_answers_of_core i s h
  · rcases Nat.lt_or_ge i.ctorIdx 244 with h' | h'
    · exact exec_answers_of_word i s ⟨h, h'⟩
    · exact exec_answers_of_event i s h'

/-! Steps: what issues, what is listed, and what happens by itself. -/

theorem answers_runDecoded (r : Except Reject Instr) (w0 : BitVec 32) (s : State) : Answers (runDecoded r w0 s) := by
  unfold runDecoded
  split
  · exact exec_answers _ _
  · exact exec_answers (.decodeFault true _ w0) s
  · exact exec_answers (.decodeFault false _ w0) s
  · exact answers_next s

theorem answers_issueSlot (p k : Nat) (s : State) : Answers (issueSlot p k s) := by
  unfold issueSlot runInstr
  split
  · exact answers_next s
  · split
    · exact exec_answers (.asyncTrap _ _) s
    · split
      · exact answers_next _
      · exact answers_next _
      · exact answers_runDecoded _ _ _

theorem answers_issueClk (p k : Nat) (s : State) : Answers (issueClk p k s) := by
  obtain ⟨t, ht⟩ := answers_issueSlot p k (s.atSlot p k)
  unfold issueClk
  rw [ht]
  split
  · exact answers_next _
  · exact answers_next _

theorem answers_autoStep (s : State) : Answers (autoStep s) := by
  unfold autoStep
  repeat' split
  all_goals exact answers_next _

theorem answers_runSched (a : Sched) (s : State) : Answers (runSched a s) := by
  unfold runSched
  repeat' split
  all_goals simp only [answers_next, exec_answers, answers_issueClk]

/-- Settles O8. -/
theorem everyInstructionAnswers : Obligations.EveryInstructionAnswers := by
  refine ⟨exec_answers, fun s h => ?_, fun s h => ?_⟩
  · rw [step, h]
    simp only [Bool.false_eq_true, if_false]
    split
    · exact answers_runSched _ _
    · exact answers_autoStep s
  · rw [step, h, if_pos rfl]

end Sys2Proof.Machine
end

section
/-! PROOF. Fetch, issue and step (R87, R116, R358, R387, R392). -/

namespace Sys2Proof.Machine

/-! ## The focus does not matter to whether a slot may issue -/

section AtSlot
variable (s : State) (p k : Nat)
theorem State.atSlot_readWord (q a : Nat) : (s.atSlot p k).readWord q a = s.readWord q a := rfl
theorem State.atSlot_spadWord (q off : Nat) : (s.atSlot p k).spadWord q off = s.spadWord q off := by
  rw [State.spadWord, State.spadWord, State.atSlot_readWord]
theorem State.atSlot_spadWords (q off n : Nat) : (s.atSlot p k).spadWords q off n = s.spadWords q off n := by
  induction n generalizing off with
  | zero => rfl
  | succ n ih => rw [State.spadWords, State.spadWords, ih, State.atSlot_spadWord]
theorem State.atSlot_patternAt (q : Nat) (r : BitVec 13) : (s.atSlot p k).patternAt q r = s.patternAt q r := by
  simp only [State.patternAt, State.atSlot_spadWords]
theorem State.atSlot_wordPatterns (w : SWord) : (s.atSlot p k).wordPatterns w = s.wordPatterns w := by
  simp only [State.wordPatterns, State.atSlot_patternAt]
theorem State.atSlot_wordSpans (w : SWord) : (s.atSlot p k).wordSpans w = s.wordSpans w := by
  unfold State.wordSpans
  rw [State.atSlot_wordPatterns]
  rfl
theorem State.atSlot_wordPhys (w : SWord) : (s.atSlot p k).wordPhys w = s.wordPhys w := rfl
theorem State.atSlot_splitSpans (w : SWord) : (s.atSlot p k).splitSpans w = s.splitSpans w := rfl
theorem State.atSlot_spanReaches (q : Nat) (r : Nat × Nat) (host : Bool) (pa len : Nat) :
    (s.atSlot p k).spanReaches q r host pa len = s.spanReaches q r host pa len := rfl
theorem State.atSlot_wordHolds (q j id : Nat) (oc : BitVec 3) (host : Bool) (pa len : Nat) :
    (s.atSlot p k).wordHolds q j id oc host pa len = s.wordHolds q j id oc host pa len := by
  simp only [State.wordHolds, State.atSlot_words, State.atSlot_wordSpans, State.atSlot_wordPhys, State.atSlot_splitSpans, State.atSlot_spanReaches]
theorem State.atSlot_reqsOf (q j : Nat) : (s.atSlot p k).reqsOf q j = s.reqsOf q j := rfl
theorem State.atSlot_flitsOut (q j : Nat) : (s.atSlot p k).flitsOut q j = s.flitsOut q j := rfl
theorem State.atSlot_perfOk (id : Nat) : (s.atSlot p k).perfOk id = s.perfOk id := rfl
theorem State.atSlot_relOk (id : Nat) : (s.atSlot p k).relOk id = s.relOk id := rfl
theorem State.atSlot_mayLeave (id : Nat) (r : Req) (l1 : Bool) : (s.atSlot p k).mayLeave id r l1 = s.mayLeave id r l1 := by
  simp only [State.mayLeave, State.atSlot_reqsOf, State.atSlot_flitsOut, State.atSlot_perfOk, State.atSlot_relOk, State.atSlot_wordHolds]
theorem State.atSlot_maySend (a b : Nat) : (s.atSlot p k).maySend a b = s.maySend a b := rfl
theorem State.atSlot_outStalls (e : Out) : (s.atSlot p k).outStalls e = s.outStalls e := rfl
theorem State.atSlot_isRemoved (d : Nat) : (s.atSlot p k).isRemoved d = s.isRemoved d := rfl
theorem State.atSlot_sendStalled (q j : Nat) : (s.atSlot p k).sendStalled q j = s.sendStalled q j := by
  simp only [State.sendStalled, State.atSlot_outs, State.atSlot_outStalls, State.atSlot_reqsOf, State.atSlot_isRemoved, State.atSlot_maySend,
    State.atSlot_mayLeave]
theorem State.atSlot_slotAt (q j : Nat) : (s.atSlot p k).slotAt q j = s.slotAt q j := rfl
theorem State.atSlot_instAt (q : Nat) : (s.atSlot p k).instAt q = s.instAt q := rfl
theorem State.atSlot_canIssue (q j : Nat) : (s.atSlot p k).canIssue q j = s.canIssue q j := by
  simp only [State.canIssue, State.atSlot_slotAt, State.atSlot_sendStalled, State.atSlot_instAt]
theorem State.atSlot_pnHeld (key : Nat) : (s.atSlot p k).pnHeld key = s.pnHeld key := rfl
end AtSlot

/-- A slot that may issue and has no trap pending runs the instruction at its pc. -/
theorem issueSlot_eq_runInstr {s : State} {p k : Nat} (hcan : s.canIssue p k = true) (hpend : (s.slotAt p k).nextPend = none) :
    issueSlot p k (s.atSlot p k) = runInstr p k (s.atSlot p k) := by
  unfold issueSlot
  simp only [State.atSlot_canIssue, State.atSlot_slotAt, hcan, hpend, Bool.not_true, Bool.false_eq_true, if_false, Option.isSome_none,
    Bool.false_and]
  rfl

theorem canIssue_of_couldIssue {s : State} {p k : Nat} (h : s.couldIssue p k = true) : s.canIssue p k = true := by
  unfold State.couldIssue at h
  exact (Bool.and_eq_true_iff.mp h).1

/-- A slot could issue exactly when its instruction changes the state. -/
theorem couldIssue_iff {s t : State} {p k : Nat} (hcan : s.canIssue p k = true) (hpend : (s.slotAt p k).nextPend = none)
    (hrun : runInstr p k (s.atSlot p k) = .next t) : s.couldIssue p k = true ↔ t ≠ s.atSlot p k := by
  unfold State.couldIssue
  rw [hcan, issueSlot_eq_runInstr hcan hpend, hrun]
  simp

/-- A slot that could issue and whose turn it is: the state of its instruction, with the others passed over. -/
theorem issueClk_eq {s t : State} {p k : Nat} (hcould : s.couldIssue p k = true) (hturn : s.issueTurn p k = true)
    (hpend : (s.slotAt p k).nextPend = none) (hrun : runInstr p k (s.atSlot p k) = .next t) :
    issueClk p k s = .next (t.passOver p k (s.rivals p k)) := by
  unfold issueClk
  simp only [hcould, hturn, Bool.not_true, Bool.or_self, Bool.false_eq_true, if_false,
    issueSlot_eq_runInstr (canIssue_of_couldIssue hcould) hpend, hrun]

theorem issueClk_of_not {s : State} {p k : Nat} (h : s.couldIssue p k = false ∨ s.issueTurn p k = false) :
    issueClk p k s = .next (s.tick 1) := by
  unfold issueClk
  rcases h with h | h <;> simp [h]

theorem step_cons {s : State} {a : Sched} {rest : List Sched} (hh : s.halted = false) (hs : s.sched = a :: rest) :
    step s = runSched a { s with sched := rest } := by
  simp only [step, hh, hs, Bool.false_eq_true, if_false]

/-- The words fetched at a slot's pc are decoded and run. -/
theorem runInstr_words {s s1 : State} {p k : Nat} {w0 : BitVec 32} {w1 : Option (BitVec 32)} (h : s.fetchInstr p k = .words w0 w1 s1) :
    runInstr p k s = runDecoded (decodeWords w0 w1) w0 s1 := by
  rw [runInstr, h]

/-! ## Slots passed over -/

/-- A slot's clk without issue. -/
def Slot.passedOver (x : Slot) : Slot := { x with waited := x.waited + 1 }
/-- Slots of a plot passed over. -/
def State.passSlots (s : State) (p : Nat) (l : List Nat) : State := l.foldl (fun s j => s.modSlot p j Slot.passedOver) s

theorem State.passSlots_eq (s : State) (p : Nat) (l : List Nat) : s.passSlots p l = { s with slots := (s.passSlots p l).slots } := by
  induction l generalizing s with
  | nil => rfl
  | cons j l ih => exact ih (s.modSlot p j Slot.passedOver)

theorem State.passSlots_slots_ne (s : State) (p : Nat) {l : List Nat} {n : Nat} (h : ∀ j ∈ l, n ≠ 8 * p + j) :
    tget Slot.init (s.passSlots p l).slots n = tget Slot.init s.slots n := by
  induction l generalizing s with
  | nil => rfl
  | cons j l ih =>
    rw [List.forall_mem_cons] at h
    exact (ih (s.modSlot p j Slot.passedOver) h.2).trans (tget_tset_ne _ _ _ h.1)

theorem State.slotAt_passSlots (s : State) (p : Nat) {l : List Nat} {j : Nat} (hl : l.Nodup) (hj : j ∈ l) :
    (s.passSlots p l).slotAt p j = (s.slotAt p j).passedOver := by
  induction l generalizing s with
  | nil => cases hj
  | cons i l ih =>
    obtain ⟨hi, hl⟩ := List.nodup_cons.mp hl
    rcases List.mem_cons.mp hj with rfl | hj
    · have h := State.passSlots_slots_ne (s.modSlot p j Slot.passedOver) p (l := l) (n := 8 * p + j) fun m hm e => hi (by rwa [show j = m by omega])
      exact h.trans (State.slotAt_modSlot s p j _)
    · have hne : j ≠ i := fun e => hi (e ▸ hj)
      rw [show s.passSlots p (i :: l) = (s.modSlot p i Slot.passedOver).passSlots p l from rfl, ih _ hl hj,
        State.slotAt_modSlot_ne _ _ (by omega)]

/-- The slot that issues in a clk. -/
def Slot.issuedNow (x : Slot) : Slot := { x with waited := 0, resumed := none }
theorem State.passOver_eq (s : State) (p k : Nat) (l : List Nat) : s.passOver p k l = ((s.modSlot p k Slot.issuedNow).passSlots p l).tick 1 := rfl

theorem passOver_frame {s : State} {p k : Nat} {l : List Nat} (hl : l.Nodup) (hk : k ∉ l) :
    s.passOver p k l = { s with slots := (s.passOver p k l).slots, clock := s.clock + 1 } ∧
    (s.passOver p k l).slotAt p k = (s.slotAt p k).issuedNow ∧ (∀ j ∈ l, (s.passOver p k l).slotAt p j = (s.slotAt p j).passedOver) ∧
    (∀ n, n ≠ 8 * p + k → (∀ j ∈ l, n ≠ 8 * p + j) → tget Slot.init (s.passOver p k l).slots n = tget Slot.init s.slots n) := by
  rw [State.passOver_eq]
  refine ⟨?_, ?_, fun j hj => ?_, fun n hn hln => ?_⟩
  · exact congrArg (fun x : State => { x with clock := x.clock + 1 }) ((s.modSlot p k Slot.issuedNow).passSlots_eq p l)
  · have h := (s.modSlot p k Slot.issuedNow).passSlots_slots_ne p (l := l) (n := 8 * p + k) fun j hj e => hk (by rwa [show k = j by omega])
    exact h.trans (State.slotAt_modSlot s p k _)
  · have hne : j ≠ k := fun e => hk (e ▸ hj)
    have h := (s.modSlot p k Slot.issuedNow).slotAt_passSlots p hl hj
    exact h.trans (by rw [State.slotAt_modSlot_ne _ _ (by omega)])
  · exact ((s.modSlot p k Slot.issuedNow).passSlots_slots_ne p hln).trans (tget_tset_ne _ _ _ hn)

end Sys2Proof.Machine
end

section
/-! PROOF. A word fetched from memory, and what a step runs (R87, R116, R206, R375, R392). -/

namespace Sys2Proof.Machine

/-- Words read one after the other. -/
theorem State.getElem?_readWords (s : State) (issuer a n i : Nat) (h : i < n) :
    (s.readWords issuer a n)[i]? = some (s.readWord issuer (a + 4 * i)) := by
  induction n generalizing a i with
  | zero => omega
  | succ n ih =>
    cases i with
    | zero => rfl
    | succ i =>
      rw [State.readWords, List.getElem?_cons_succ, ih _ _ (by omega), show a + 4 + 4 * i = a + 4 * (i + 1) by omega]

theorem State.length_readWords (s : State) (issuer a n : Nat) : (s.readWords issuer a n).length = n := by
  induction n generalizing a with
  | zero => rfl
  | succ n ih => rw [State.readWords, List.length_cons, ih]

/-- A list of entries put into a table. -/
def tputs {α : Type} (b : Nat) (l : List (Nat × α)) (t : Tab α) : Tab α := l.foldl (fun t e => tset t (b + e.1) e.2) t

theorem tfind_tputs_of_not_mem {α : Type} (b k : Nat) (l : List (Nat × α)) (t : Tab α) (h : ∀ e ∈ l, e.1 ≠ k) :
    tfind (tputs b l t) (b + k) = tfind t (b + k) := by
  induction l generalizing t with
  | nil => rfl
  | cons e l ih =>
    rw [List.forall_mem_cons] at h
    have hne : ¬ b + k = b + e.1 := by omega
    exact (ih _ h.2).trans (by rw [tfind_tset, if_neg hne])

theorem tfind_tputs {α : Type} (b k : Nat) (x : α) (l : List (Nat × α)) (t : Tab α) (hl : (l.map (·.1)).Nodup) (h : (k, x) ∈ l) :
    tfind (tputs b l t) (b + k) = some x := by
  induction l generalizing t with
  | nil => cases h
  | cons e l ih =>
    obtain ⟨hnot, hl⟩ := List.nodup_cons.mp hl
    rcases List.mem_cons.mp h with rfl | h
    · have hl' : ∀ e ∈ l, e.1 ≠ k := fun e he hk => hnot (List.mem_map.mpr ⟨e, he, hk⟩)
      exact (tfind_tputs_of_not_mem b k l _ hl').trans (by rw [tfind_tset, if_pos rfl])
    · exact ih _ hl h

/-- What a fetched line adds to the instruction cache. -/
theorem State.icache_fillIcache_eq (s : State) (p k pa : Nat) : ∃ old, ((s.fillIcache p k pa).plotAt p).icache =
    tputs (pa / 64 * 64 / 4) ((List.range 16).zip (s.readWords p (pa / 64 * 64) 16)) old := by
  unfold State.fillIcache
  simp only [State.plotAt_modPlot, tputs]
  generalize s.readWords p (pa / 64 * 64) 16 = ws
  exact ⟨_, rfl⟩

/-- A line fetched stands in the instruction cache word by word. -/
theorem State.icache_fillIcache (s : State) (p k pa : Nat) (h4 : pa % 4 = 0) :
    tfind ((s.fillIcache p k pa).plotAt p).icache (pa / 4) = some (s.readWord p pa) := by
  have hlt : pa % 64 / 4 < 16 := by omega
  have hword := s.getElem?_readWords p (pa / 64 * 64) 16 (pa % 64 / 4) hlt
  rw [show pa / 64 * 64 + 4 * (pa % 64 / 4) = pa by omega] at hword
  obtain ⟨old, hold⟩ := s.icache_fillIcache_eq p k pa
  rw [hold, show pa / 4 = pa / 64 * 64 / 4 + pa % 64 / 4 by omega]
  have hlen := s.length_readWords p (pa / 64 * 64) 16
  generalize s.readWords p (pa / 64 * 64) 16 = ws at hword hlen
  refine tfind_tputs _ _ _ _ _ ?_ ?_
  · rw [List.map_fst_zip (by rw [List.length_range, hlen])]
    exact List.nodup_range
  · exact List.mem_of_getElem? (i := pa % 64 / 4) (by rw [List.getElem?_zip_eq_some]; exact ⟨by simp [hlt], hword⟩)

theorem State.fetchWord_eq {s : State} {p k : Nat} {va : Word} {e : Tlb} (hcan : canonical va = true) (hlook : s.lookup p va = some e)
    (hperm : e.permits 2 = true) (hhost : e.host = false) (h4 : (e.addr va).toNat % 4 = 0)
    (htarget : s.targetTrap .read false (e.addr va).toNat va = none) (hcache : tfind (s.plotAt p).icache ((e.addr va).toNat / 4) = none)
    (hvalid : (s.readWord p (e.addr va).toNat).valid = true) (hfetch : s.mayFetch p (e.addr va).toNat = true) :
    s.fetchWord p k va = .word (s.readWord p (e.addr va).toNat).bits (s.fillIcache p k (e.addr va).toNat) := by
  have htrans : s.translate p k none 0 va 2 = .hit e := by
    simp only [State.translate, hcan, hlook, hperm, Bool.not_true, Bool.false_eq_true, if_false, if_true]
  unfold State.fetchWord
  simp only [htrans, hhost, htarget, hcache, hfetch, Option.isSome_none, Bool.not_true, Bool.not_false, Bool.and_false, Bool.and_self,
    Bool.false_eq_true, if_false, if_true, State.icache_fillIcache s p k _ h4, hvalid]

theorem runSched_word {s : State} {id : Nat} {w : SWord} (h : tfind s.words id = some w) :
    runSched (.word id) s = exec w.instr { s with focus := { s.focus with word := id } } := by
  rw [runSched, h]
theorem runSched_command {s : State} {id : Nat} {c : Cmd} {i : Instr} (h : tfind s.cmds id = some c) (hi : c.instr = some i) :
    runSched (.command id) s = exec i { s with focus := { s.focus with cmd := id } } := by
  simp only [runSched, h, hi]
theorem runSched_event {s : State} {i : Instr} (h : isEvent i = true) : runSched (.event i) s = exec i s := if_pos h
theorem runSched_message {s : State} {i : Instr} {port : BitVec 2} (h : isEvent i = true) :
    runSched (.message port i) s = exec i { s with focus := { s.focus with port := port } } := if_pos h

/-- Settles O9. -/
theorem stepRunsDecodedInstruction : Obligations.StepRunsDecodedInstruction := by
  refine ⟨fun s s1 t p k rest w0 w1 i hh hs hcould hturn hpend hfetch => ?_, fun s p k => ⟨canIssue_of_couldIssue, fun t => couldIssue_iff⟩,
    fun s p k rest hh hs h => (step_cons hh hs).trans (issueClk_of_not h), fun s p k l hl hk _ _ => passOver_frame hl hk,
    fun s p k va e hcan hlook hperm hhost h4 htarget hcache hvalid hfetch =>
      State.fetchWord_eq hcan hlook hperm hhost h4 htarget hcache hvalid hfetch, fun s rest hh => ?_⟩
  · have hrun := runInstr_words hfetch
    refine ⟨fun hd ht => ?_, fun b hd => ?_, fun b hd => ?_⟩ <;> refine (step_cons hh hs).trans (issueClk_eq hcould hturn hpend (hrun.trans ?_))
    · rw [hd]; exact ht
    · rw [hd]; rfl
    · rw [hd]; rfl
  · exact ⟨fun id w hs hw => (step_cons hh hs).trans (runSched_word hw), fun id c i hs hc hi => (step_cons hh hs).trans (runSched_command hc hi),
      fun i hs he => (step_cons hh hs).trans (runSched_event he), fun port i hs he => (step_cons hh hs).trans (runSched_message he),
      fun n hs => step_cons hh hs⟩

end Sys2Proof.Machine
end

section
/-! PROOF. The state after reset (R22, R80, R112, R131, R359, R396). -/

namespace Sys2Proof.Machine

/-- No slot is listed at reset, so every slot is the initial one. -/
theorem State.slotAt_reset (p k : Nat) : State.reset.slotAt p k = Slot.init := rfl

theorem vecAt_replicate_zero (n j : Nat) : vecAt (List.replicate n 0) j = 0 := by
  unfold vecAt
  rcases Nat.lt_or_ge j n with h | h
  · simp [h]
  · simp [h]

/-- What nobody has written, by the deep SRAM window (R132, log 1). -/
theorem freshWord_eq (a : Nat) : freshWord a = if 0x10000000000 ≤ a ∧ a < 0x12000000000 then
    ⟨false, payloadBits 6 (deepPlot ((a - 0x10000000000) / 0x400000000) ((a - 0x10000000000) % 0x400000000)) 0⟩ else W32.zero := by
  unfold freshWord window
  by_cases h : 0x10000000000 ≤ a ∧ a < 0x12000000000
  · have hdram : ¬ a < 0x8000000000 := by omega
    simp only [if_neg hdram, if_pos h]
  · simp only [if_neg h]
    split_ifs <;> rfl

/-- The bytes of a word lie in the window and the slice of its first. -/
theorem freshWord_add {a i : Nat} (ha : a % 4 = 0) (hi : i < 4) : freshWord (a + i) = freshWord a := by
  have hwin : (0x10000000000 ≤ a + i ∧ a + i < 0x12000000000) ↔ (0x10000000000 ≤ a ∧ a < 0x12000000000) := by omega
  rw [freshWord_eq, freshWord_eq]
  simp only [hwin]
  split
  next h =>
    have hdie : (a + i - 0x10000000000) / 0x400000000 = (a - 0x10000000000) / 0x400000000 := by omega
    have hline : (a + i - 0x10000000000) % 0x400000000 / 128 = (a - 0x10000000000) % 0x400000000 / 128 := by omega
    rw [deepPlot, deepPlot, hdie, hline]
  · rfl

/-- A word that nothing has written reads as the fresh word. -/
theorem Memory.word_empty {a : Nat} (ha : a % 4 = 0) : Memory.word ⟨[], [], []⟩ a = freshWord a := by
  have hbyte : ∀ i, i < 4 → freshByte (a + i) = (freshWord a).bits.extractLsb' (8 * i) 8 := fun i hi => by
    rw [freshByte, freshWord_add ha hi, show (a + i) % 4 = i by omega]
  have h0 := hbyte 0 (by omega)
  have h1 := hbyte 1 (by omega)
  have h2 := hbyte 2 (by omega)
  have h3 := hbyte 3 (by omega)
  simp only [Memory.word, Memory.byte, tget_nil, h1, h2, h3, show freshByte a = _ from h0, nmem, Bool.bne_false]
  exact congrArg (W32.mk _) (wordBytes_append _)

/-- Settles O5. -/
theorem resetState : Obligations.ResetState := by
  refine ⟨rfl, rfl, rfl, rfl, rfl, fun p k => ?_, fun d => ⟨rfl, fun j => ⟨vecAt_replicate_zero 8 j, ?_⟩⟩, fun n => rfl, fun a ha => ?_⟩
  · rw [State.slotAt_reset]
    refine ⟨rfl, rfl, rfl, rfl, rfl, rfl, rfl, rfl, rfl, rfl, rfl, rfl, rfl, rfl, rfl, rfl, rfl, fun n h0 h30 => if_neg (by tauto),
      fun n => rfl, fun n => rfl⟩
  · unfold State.cvOf
    split
    · rfl
    · exact vecAt_replicate_zero 8 j
  · exact Memory.word_empty ha

end Sys2Proof.Machine
end

section
/-! PROOF. System instructions (R45-R47, R389-R404). -/

namespace Sys2Proof.Machine

section Arms
variable (a d : GReg) (num : BitVec 12) (k : BitVec 2) (s : State)
theorem exec_sysrd : exec (.sysrd d num) s = execSysrd d num s := rfl
theorem exec_syswr : exec (.syswr d num) s = execSyswr d num s := rfl
theorem exec_tcinv : exec (.tcinv a k) s = execTcinv a k s := rfl
theorem exec_idle : exec (.idle a) s = execIdle a s := rfl
theorem exec_savec : exec (.savec a) s = execSavec a s := rfl
theorem exec_restc : exec (.restc a) s = execRestc a s := rfl
theorem exec_eret : exec .eret s = .next (if s.cur.ih then s.eretReturn else s.trapNow (mkTrap 0x0A 0)) := rfl
end Arms

/-- A register instruction traps where its function does. -/
theorem scalar_trap {size : Nat} {srcs : List GReg} {d : GReg} {f : List Val → Except Trap Val} {s : State} {tr : Trap} (h : s.mayIssue srcs [d])
    (hf : f (s.reads srcs) = .error tr) : scalar size srcs d f s = .next (s.trapNow tr) := by
  unfold scalar
  simp only [h.1, h.2, hf, Bool.false_eq_true, if_false]

/-! ## Reading and writing system registers -/

/-- SYSRD of a register that holds no uncorrectable error. -/
theorem execSysrd_ok {s t : State} {d : GReg} {num : BitVec 12} {v : Val} (h : s.mayIssue [] [d])
    (hbad : 0x010 ≤ num.toNat ∧ num.toNat ≤ 0x017 → s.badReg [(1, (num - 0x010).setWidth 5)] = none) (hv : s.sysRead num = .ok v)
    (hw : s.writeG d v = .ok t) : execSysrd d num s = .next (t.advance 4) := by
  have hnone : (if 0x010 ≤ num.toNat ∧ num.toNat ≤ 0x017 then s.badReg [(1, (num - 0x010).setWidth 5)] else none) = none := by
    split
    · exact hbad ‹_›
    · rfl
  unfold execSysrd
  rw [hnone]
  exact scalar_ok h hv (by rwa [State.afterReads_nil])

/-- SYSRD of a number that is no a register, and that cannot be read. -/
theorem execSysrd_error {s : State} {d : GReg} {num : BitVec 12} {tr : Trap} (h : s.mayIssue [] [d])
    (hnum : ¬ (0x010 ≤ num.toNat ∧ num.toNat ≤ 0x017)) (hv : s.sysRead num = .error tr) : execSysrd d num s = .next (s.trapNow tr) := by
  unfold execSysrd
  rw [if_neg hnum]
  exact scalar_trap h hv

/-- A number that the table does not have reads nothing. -/
theorem State.sysRead_error (s : State) {num : BitVec 12} (h : num ∉ [(0x000 : BitVec 12), 0x001, 0x002, 0x003, 0x004, 0x005, 0x010, 0x011, 0x012, 0x013,
    0x014, 0x015, 0x016, 0x017, 0x020, 0x021, 0x030, 0x031, 0x032, 0x033, 0x040, 0x041, 0x042, 0x043, 0x044, 0x050, 0x051, 0x052, 0x053, 0x054, 0x060,
    0x061]) : ¬ (0x010 ≤ num.toNat ∧ num.toNat ≤ 0x017) ∧ s.sysRead num = .error (regTrap num) := by
  simp only [List.mem_cons, List.not_mem_nil, or_false, not_or, ← BitVec.toNat_inj, BitVec.ofNat_eq_ofNat, BitVec.toNat_ofNat, Nat.reduceMod,
    Nat.reducePow] at h
  have hrange : ¬ (0x010 ≤ num.toNat ∧ num.toNat ≤ 0x017) := by omega
  refine ⟨hrange, ?_⟩
  unfold State.sysRead
  simp only [if_neg hrange]
  split <;> simp_all

theorem State.sysRead_fxdat_ok {s : State} {w : Word} (h : s.fxdat = .ok w) : s.sysRead 0x061 = .ok (.ofWord w) := by
  simp [State.sysRead, h]
theorem State.sysRead_fxdat_error {s : State} {tr : Trap} (h : s.fxdat = .error tr) : s.sysRead 0x061 = .error tr := by
  simp [State.sysRead, h]

/-- A number that is not in the table of writable registers is not written. -/
theorem Slot.sysWrite_eq_none (x : Slot) (v : Val) {num : BitVec 12} (h : num ∉ [(0x010 : BitVec 12), 0x011, 0x012, 0x013, 0x014, 0x015, 0x016, 0x017,
    0x020, 0x021, 0x030, 0x032, 0x033, 0x051, 0x054, 0x060]) : x.sysWrite num.toNat v = none := by
  simp only [List.mem_cons, List.not_mem_nil, or_false, not_or, ← BitVec.toNat_inj, BitVec.ofNat_eq_ofNat, BitVec.toNat_ofNat, Nat.reduceMod,
    Nat.reducePow] at h
  unfold Slot.sysWrite
  rw [if_neg (by omega)]
  split <;> simp_all

/-- SYSWR of a value that the register takes. -/
theorem execSyswr_ok {s : State} {d : GReg} {num : BitVec 12} {v : Val} {f : Slot → Slot} (h : s.mayIssue [d] []) (hr : s.reads [d] = [v])
    (hv : v.valid = true ∨ 0x010 ≤ num.toNat ∧ num.toNat ≤ 0x017) (hx : s.cur.sysWrite num.toNat v = some (f s.cur)) :
    execSyswr d num s = .next (((s.afterReads [d]).modCur f).advance 4) := by
  refine control_ok h ?_
  have hgo : (!v.valid && !(decide (0x010 ≤ num.toNat) && decide (num.toNat ≤ 0x017))) = false := by
    rcases hv with hv | hv <;> simp [hv]
  simp only [hr, List.getD_cons_zero, hgo, Bool.false_eq_true, if_false, State.afterReads_cur, hx, State.modCur]

/-- SYSWR of a number that is not writable. -/
theorem execSyswr_readOnly {s : State} {d : GReg} {num : BitVec 12} {v : Val} (h : s.mayIssue [d] []) (hr : s.reads [d] = [v])
    (hv : v.valid = true) (hx : s.cur.sysWrite num.toNat v = none) : execSyswr d num s = .next (s.trapNow (regTrap num)) := by
  refine control_trap h ?_
  simp only [hr, List.getD_cons_zero, hv, Bool.not_true, Bool.false_and, Bool.false_eq_true, if_false, State.afterReads_cur, hx]

/-- SYSWR of an invalid value consumes it, but into an address register. -/
theorem execSyswr_poison {s : State} {d : GReg} {num : BitVec 12} {v : Val} (h : s.mayIssue [d] []) (hr : s.reads [d] = [v])
    (hv : v.valid = false) (hnum : ¬ (0x010 ≤ num.toNat ∧ num.toNat ≤ 0x017)) : execSyswr d num s = .next (s.trapNow (poisonTrap v)) := by
  refine control_trap h ?_
  have hstop : (!v.valid && !(decide (0x010 ≤ num.toNat) && decide (num.toNat ≤ 0x017))) = true := by
    rw [hv, ← Bool.decide_and, decide_eq_false hnum]
    rfl
  simp only [hr, List.getD_cons_zero, hstop, if_true]

/-! ## TCINV and IDLE -/

theorem execTcinv_ok {s : State} {a : GReg} {k : BitVec 2} {w : Word} (h : s.mayIssue (if k = 1 then [a] else []) [])
    (hr : k = 1 → s.reads [a] = [.ofWord w]) : execTcinv a k s =
      .next (((s.afterReads (if k = 1 then [a] else [])).modPlot s.focus.plot fun p => { p with tlb := p.tlb.filter fun e =>
        if k = 0 then e.glob || e.asid != p.asid else if k = 1 then (!(e.hits p.asid (vaNat w))) else false }).advance 4) := by
  refine control_ok h ?_
  by_cases hk : k = 1
  · simp only [if_pos hk, hr hk, consume_eq_none (vs := [.ofWord w]) rfl]
    rfl
  · simp only [if_neg hk, show s.reads [] = [] from State.reads_of_not_mem s [] List.not_mem_nil, consume_eq_none (vs := []) rfl]

/-- An operand that must be valid. -/
theorem execTcinv_poison {s : State} {a : GReg} {v : Val} (h : s.mayIssue [a] []) (hr : s.reads [a] = [v]) (hv : v.valid = false) :
    execTcinv a 1 s = .next (s.trapNow (poisonTrap v)) := by
  refine control_trap h ?_
  simp only [if_true, hr, consume_eq_some (vs := [v]) (v := v) (by simp [hv])]
theorem execIdle_poison {s : State} {a : GReg} {v : Val} (h : s.mayIssue [a] []) (hr : s.reads [a] = [v]) (hv : v.valid = false) :
    execIdle a s = .next (s.trapNow (poisonTrap v)) := by
  refine control_trap h ?_
  simp only [hr, consume_eq_some (vs := [v]) (v := v) (by simp [hv])]

theorem execIdle_ok {s : State} {a : GReg} {w : Word} (h : s.mayIssue [a] []) (hr : s.reads [a] = [.ofWord w]) :
    execIdle a s = .next (((s.afterReads [a]).modCur fun x => { x with idleEnd :=
      (if w = 0 ∨ (s.afterReads [a]).cur.pend ≠ [] ∨ (s.afterReads [a]).flits s.focus.plot s.focus.slot ≠ [] then none
        else some (s.clock + min w.toNat 65535)) }).advance 4) := by
  refine control_ok h ?_
  have hw0 : w = 0 ↔ w.toNat = 0 := by
    rw [← BitVec.toNat_inj]
    rfl
  have hzero : min w.toNat 65535 = 0 ↔ w = 0 := by
    rw [hw0]
    omega
  simp only [hr, consume_eq_none (vs := [.ofWord w]) rfl, List.getD_cons_zero, show (Val.ofWord w).bits = w from rfl, hzero, Bool.or_eq_true, decide_eq_true_eq, bne_iff_ne,
    or_assoc]

/-! ## SAVEC and RESTC -/

theorem execSavec_eq {s : State} (a : GReg) {i : Nat} {x : Inst} (hs : (s.plotAt s.focus.plot).service = true)
    (hi : s.instAt s.focus.plot = some (i, x)) : execSavec a s = .next (if x.saved = .halting ∧ (∀ c ∈ x.ctx, c.plot ≠ s.focus.plot) ∧
      s.busHeldAt (((tfind x.areas s.focus.plot).map (·.1)).getD 0) = false then s.savePlot i x s.focus.plot else s) := by
  unfold execSavec
  simp only [hs, hi, Bool.not_true, Bool.false_eq_true, if_false]
  simp [and_assoc]

/-- RESTC finds nothing to restore. -/
theorem execRestc_none {s : State} (a : GReg) {i : Nat} {x : Inst} (hs : (s.plotAt s.focus.plot).service = true)
    (hi : s.instAt s.focus.plot = some (i, x))
    (h : x.saved ≠ .restoring ∨ x.ctx.find? (fun c => c.plot == s.focus.plot && !c.restored) = none) : execRestc a s = .next s := by
  unfold execRestc
  simp only [hs, hi, Bool.not_true, Bool.false_eq_true, if_false]
  by_cases hsaved : x.saved = .restoring
  · simp only [hsaved, ne_eq, not_true_eq_false, false_or] at h
    simp only [hsaved, bne_self_eq_false, Bool.false_eq_true, if_false, h]
  · exact if_pos (by simpa using hsaved)

/-- RESTC finds a context. -/
theorem execRestc_some {s : State} (a : GReg) {i : Nat} {x : Inst} {c : Ctx} (hs : (s.plotAt s.focus.plot).service = true)
    (hi : s.instAt s.focus.plot = some (i, x)) (hsaved : x.saved = .restoring)
    (hc : x.ctx.find? (fun c => c.plot == s.focus.plot && !c.restored) = some c) : execRestc a s =
      if s.busHeldAt c.area then .next s
      else if s.ctxOk i c then .next (s.restorePlot i s.focus.plot c)
      else .next ((s.endLaunch i 4).modInst i fun x => { x with saved := .saved }) := by
  unfold execRestc
  simp only [hs, hi, hsaved, hc, Bool.not_true, Bool.false_eq_true, if_false, bne_self_eq_false]

/-- Settles O47. -/
theorem systemInstructions : Obligations.SystemInstructions := by
  refine ⟨fun s => rfl, fun s => ⟨fun h => ?_, fun h => ⟨?_, ?_⟩⟩, fun s t d num v h hv hw => ?_, fun s d h tr htr => ?_, fun s d num h hnum => ?_,
    fun s d w h hr num f hf => ?_, fun s d num v h hr => ⟨fun hlo hhi => ?_, fun hv hnum => ?_, fun hv hnum => ?_⟩, fun s a k w => ?_,
    fun s a v h hr hv => ⟨execTcinv_poison h hr hv, execIdle_poison h hr hv⟩, fun s => rfl, fun s a w h hr => execIdle_ok h hr,
    fun s a => ⟨fun h => ?_, fun h hi => ?_, fun h i x hi => ?_⟩, fun s ill strad bit w c va => ⟨rfl, rfl⟩⟩
  · rw [exec_eret, h]; rfl
  · rw [exec_eret, if_pos h]; rfl
  · rw [State.cur_modCur]
    simp [Slot.ih]
  · rw [exec_sysrd]
    rcases hv with ⟨hlo, hhi, hbad, rfl⟩ | ⟨rfl, w, hfx, rfl⟩ | hmem
    · exact execSysrd_ok h (fun _ => hbad) (if_pos ⟨hlo, hhi⟩) hw
    · exact execSysrd_ok h (fun h => absurd h (by decide)) (State.sysRead_fxdat_ok hfx) hw
    · simp only [List.mem_cons, Prod.mk.injEq, List.not_mem_nil, or_false] at hmem
      rcases hmem with ⟨rfl, rfl⟩ | ⟨rfl, rfl⟩ | ⟨rfl, rfl⟩ | ⟨rfl, rfl⟩ | ⟨rfl, rfl⟩ | ⟨rfl, rfl⟩ | ⟨rfl, rfl⟩ | ⟨rfl, rfl⟩ | ⟨rfl, rfl⟩ | ⟨rfl, rfl⟩ | ⟨rfl, rfl⟩ | ⟨rfl, rfl⟩ | ⟨rfl, rfl⟩ | ⟨rfl, rfl⟩ | ⟨rfl, rfl⟩ | ⟨rfl, rfl⟩ | ⟨rfl, rfl⟩ | ⟨rfl, rfl⟩ | ⟨rfl, rfl⟩ | ⟨rfl, rfl⟩ | ⟨rfl, rfl⟩ | ⟨rfl, rfl⟩ | ⟨rfl, rfl⟩ <;>
        exact execSysrd_ok h (fun h => absurd h (by decide)) rfl hw
  · exact execSysrd_error h (by decide) (State.sysRead_fxdat_error htr)
  · obtain ⟨hrange, hread⟩ := s.sysRead_error hnum
    exact execSysrd_error h hrange hread
  · rw [exec_syswr]
    simp only [List.mem_cons, Prod.mk.injEq, List.not_mem_nil, or_false] at hf
    rcases hf with ⟨rfl, rfl⟩ | ⟨rfl, rfl⟩ | ⟨rfl, rfl⟩ | ⟨rfl, rfl⟩ | ⟨rfl, rfl⟩ | ⟨rfl, rfl⟩ | ⟨rfl, rfl⟩ | ⟨rfl, rfl⟩ <;>
      exact execSyswr_ok h hr (.inl rfl) rfl
  · exact execSyswr_ok h hr (.inr ⟨hlo, hhi⟩) (if_pos ⟨hlo, hhi⟩)
  · exact execSyswr_poison h hr hv hnum
  · exact execSyswr_readOnly h hr hv (Slot.sysWrite_eq_none _ _ hnum)
  · exact fun h hr => execTcinv_ok h hr
  · rw [exec_savec, exec_restc, execSavec, execRestc, h]
    exact ⟨rfl, rfl⟩
  · rw [exec_savec, exec_restc, execSavec, execRestc, h, hi]
    exact ⟨rfl, rfl⟩
  · rw [exec_savec, exec_restc, execSavec_eq a h hi]
    refine ⟨fun hsaved hctx hbus => ?_, fun hno => ?_, fun hno => execRestc_none a h hi ?_, fun hsaved c hc => ?_⟩
    · rw [if_pos ⟨hsaved, hctx, hbus⟩]
    · rw [if_neg]
      rintro ⟨hsaved, hctx, hbus⟩
      rcases hno with hno | ⟨c, hc, hplot⟩ | hno
      · exact hno hsaved
      · exact hctx c hc hplot
      · rw [hbus] at hno
        exact absurd hno (by decide)
    · refine hno.imp_right fun hall => List.find?_eq_none.mpr fun c hc => ?_
      simpa using hall c hc
    · rw [execRestc_some a h hi hsaved hc]
      refine ⟨fun hbus => if_pos hbus, fun hbus hok => ?_, fun hbus hok => ?_⟩
      · rw [hbus, hok]; rfl
      · rw [hbus, hok]; rfl

end Sys2Proof.Machine
end

section
/-! PROOF. A CONFIG whose container lies on a removed die (R121, R246, R391). -/

namespace Sys2Proof.Machine

/-- What runs on plot 0. -/
def loaderInst : Inst :=
  { sess := 0, image := 0, gang := none, variant := 0, adapted := false, remap := [], asid := 0, root := 0, plots := [0], actors := [], guidons := [],
    launch := none, rootDone := false, saved := .running, haltAt := 0, areas := [], ctx := [] }
/-- Its slot 0, with g[1] at the scratchpad of a plot of die 1, which is removed. -/
def removedContainer : State :=
  { State.reset with
    removed := 2
    slots := [(0, Slot.init.putG 1 (.ofWord 0x30020000000))]
    plots := [(0, { Plot.init with inst := some 0 })]
    insts := [(0, loaderInst)] }

/-- The read finds the die removed: cause 0x48, with the number that names the die. -/
theorem readContainer_removedContainer : removedContainer.readContainer 0 0 0x30020000000 = .bad 0x48 2304 removedContainer := by decide +kernel

/-- TINFO of a trap just taken. -/
def tinfoOf (r : Result) : Option Word :=
  match r with
  | .next t => some t.cur.tinfo
  | _ => none

/-- CONFIG names the removed die in TINFO (R391). -/
theorem exec_config_removedContainer : tinfoOf (exec (.config 2 1) removedContainer) = some 0x1000001 := by decide +kernel

/-- Refutes O48: when the read of a container finds a removed die, TINFO holds the die too (R391), which the statement's value leaves out. -/
theorem not_streamIssueInstructions : ¬ Obligations.StreamIssueInstructions := by
  rintro ⟨-, -, -, -, -, hconfig⟩
  obtain ⟨-, -, hread⟩ := hconfig removedContainer 2 1 0 loaderInst rfl
  obtain ⟨-, -, hok⟩ := hread (.ofWord 0x30020000000) rfl ⟨by decide, by decide⟩ (by decide) (by decide) rfl
  obtain ⟨-, hbad, -⟩ := hok rfl (by decide)
  have htinfo := exec_config_removedContainer
  rw [hbad 0x48 2304 removedContainer readContainer_removedContainer] at htinfo
  exact absurd htinfo (by decide +kernel)

end Sys2Proof.Machine
end

section
/-! PROOF. Memory stays canonical: shared operations and accesses (R69, R157, R183). -/

namespace Sys2Proof.Machine

/-- The two sides of a choice. -/
@[simp] theorem State.ite_mem (c : Prop) [Decidable c] (s t : State) : (if c then s else t).mem = if c then s.mem else t.mem := apply_ite State.mem c s t
@[simp] theorem Memory.ite_wf (c : Prop) [Decidable c] (m n : Memory) (hm : m.wf) (hn : n.wf) : (if c then m else n).wf := by split <;> assumption
/-- Where no step of a fold writes memory, the fold writes none. -/
theorem State.foldl_mem {α : Type} (f : State → α → State) (hf : ∀ s a, (f s a).mem = s.mem) (l : List α) (s : State) : (l.foldl f s).mem = s.mem := by
  induction l generalizing s with
  | nil => rfl
  | cons a l ih => exact (ih _).trans (hf s a)
/-- Where every step of a fold keeps memory canonical, the fold does. -/
theorem State.foldl_wf {α : Type} (f : State → α → State) (hf : ∀ s a, s.mem.wf → (f s a).mem.wf) (l : List α) {s : State} (h : s.mem.wf) : (l.foldl f s).mem.wf := by
  induction l generalizing s with
  | nil => exact h
  | cons a l ih => exact ih (hf s a h)

/-! ## Shared operations -/

@[simp] theorem State.startRebase_mem (s : State) : s.startRebase.mem = s.mem := by simp [State.startRebase]
@[simp] theorem State.setPartition_mem (s : State) (n : Nat) (p : PartitionVal) : (s.setPartition n p).mem = s.mem := by simp [State.setPartition]
theorem State.sendFlit_mem {s t : State} {v : Val} (h : s.sendFlit v = .ok t) : t.mem = s.mem := by rw [State.sendFlit_ok h]
theorem State.sendLoaded_mem {s t : State} {id p k : Nat} {v : Val} (h : s.sendLoaded id p k v = .ok t) : t.mem = s.mem := by
  unfold State.sendLoaded at h
  split at h
  · cases h
  · cases h; rfl
theorem State.writeG_mem {s t : State} {d : GReg} {v : Val} (h : s.writeG d v = .ok t) : t.mem = s.mem := by rw [State.writeG_slots h]
@[simp] theorem State.touch_mem (s : State) (a : Nat) : (s.touch a).mem = s.mem := by
  unfold State.touch
  split
  · simp
  · rfl
@[simp] theorem State.fireTrigger_mem (s : State) (p e : Nat) : (s.fireTrigger p e).mem = s.mem := by
  unfold State.fireTrigger
  split
  · rfl
  · split <;> simp
@[simp] theorem State.raiseStamps_mem (s : State) (id : Nat) (r : Req) : (s.raiseStamps id r).mem = s.mem := rfl
@[simp] theorem State.respond_mem (s : State) (id : Nat) (r : Req) (ws : List W32) : (s.respond id r ws).mem = s.mem := by simp [State.respond]
/-- Serving the LDFEs that wait may empty the granule again. -/
@[simp] theorem State.serveFill_wf (s : State) (a n : Nat) (h : s.mem.wf) : (s.serveFill a n).mem.wf := by
  induction n generalizing s with
  | zero => exact h
  | succ n ih =>
    unfold State.serveFill
    split
    · exact h
    · dsimp only
      split
      · exact Memory.wf_setFe _ _ _ (by simp [h])
      · exact ih _ (by simp [h])
@[simp] theorem State.setFe_wf (s : State) (a : Nat) (full : Bool) (h : s.mem.wf) : (s.setFe a full).mem.wf := by
  have h1 : (s.mem.setFe (s.place a) full).wf := Memory.wf_setFe _ _ _ h
  unfold State.setFe
  dsimp only
  split
  · split
    · exact State.serveFill_wf _ _ _ (by rw [State.foldl_mem _ fun t e => t.fireTrigger_mem _ e]; exact h1)
    · exact h1
  · exact h1
@[simp] theorem State.engineWrite_wf (s : State) (a : Nat) (w : W32) (h : s.mem.wf) : (s.engineWrite a w).mem.wf := by
  have h1 : (s.mem.setWord (s.place a) w).wf := Memory.wf_setWord _ _ _ h
  unfold State.engineWrite
  split
  · exact h
  · dsimp only
    split
    · split
      · exact State.setFe_wf _ _ _ h1
      · exact h1
    · exact h1
@[simp] theorem State.engineWrites_wf (s : State) (ws : List (BitVec 48 × W32)) (h : s.mem.wf) : (s.engineWrites ws).mem.wf :=
  State.foldl_wf _ (fun t _ ht => t.engineWrite_wf _ _ ht) _ h
@[simp] theorem State.sliceUse_mem (s : State) (a : Nat) (sig : BitVec 12) (u : SliceUse) : (s.sliceUse a sig u).mem = s.mem := by
  unfold State.sliceUse
  repeat' split
  all_goals rfl
@[simp] theorem State.engineStores_wf (s : State) (sig : BitVec 12) (ws : List (BitVec 48 × W32)) (h : s.mem.wf) : (s.engineStores sig ws).mem.wf :=
  State.engineWrites_wf _ _ (by simp [State.foldl_mem, h])
@[simp] theorem State.fillInvalid_wf (s : State) (reason : BitVec 8) (a n : Nat) (h : s.mem.wf) : (s.fillInvalid reason a n).mem.wf :=
  Memory.wf_setBulk _ _ _ h
/-- DCARVE leaves entries out. -/
@[simp] theorem State.dcarve_wf (s : State) (d : Nat) (c : BitVec 4) (h : s.mem.wf) : (s.dcarve d c).mem.wf := by
  unfold State.dcarve
  split
  · exact h
  · have hf := Memory.wf_filter s.mem
      (fun e => e.1 < 0x10000000000 + d * 0x400000000 + (12 - max (s.dieAt d).cways.toNat c.toNat) * 0x40000000 ||
        0x10000000000 + d * 0x400000000 + (12 - min (s.dieAt d).cways.toNat c.toNat) * 0x40000000 ≤ e.1)
      (fun e => e * 4 < 0x10000000000 + d * 0x400000000 + (12 - max (s.dieAt d).cways.toNat c.toNat) * 0x40000000 ||
        0x10000000000 + d * 0x400000000 + (12 - min (s.dieAt d).cways.toNat c.toNat) * 0x40000000 ≤ e * 4) (fun _ => true) h
    rwa [List.filter_true] at hf
@[simp] theorem State.ctrlWrite_wf (s : State) (a : Nat) (v : Word) (h : s.mem.wf) : (s.ctrlWrite a v).mem.wf := by
  unfold State.ctrlWrite
  repeat' split
  all_goals simp [h]

/-! ## Translation, the plot L1 and requests -/

@[simp] theorem State.mergeRead_mem (s : State) (plot a : Nat) : (s.mergeRead plot a).mem = s.mem := by simp [State.mergeRead]
theorem State.readTables_mem {s t : State} {plot : Nat} {stamp : List (BitVec 10)} {l : List Nat} (h : s.readTables plot stamp l = .done t) : t.mem = s.mem := by
  induction l generalizing s with
  | nil => cases h; rfl
  | cons a l ih =>
    unfold State.readTables at h
    split at h
    · cases h
    · split at h
      · cases h
      · simpa using ih h
theorem State.walkTables_mem {s t : State} {plot : Nat} {stamp : List (BitVec 10)} {va : Word} (h : s.walkTables plot stamp va = .done t) : t.mem = s.mem :=
  State.readTables_mem h
@[simp] theorem State.fillTlb_mem (s : State) (plot : Nat) (e : Tlb) : (s.fillTlb plot e).mem = s.mem := rfl
@[simp] theorem State.touchTlb_mem (s : State) (plot : Nat) (va : Word) : (s.touchTlb plot va).mem = s.mem := by
  unfold State.touchTlb
  dsimp only
  split <;> simp
theorem State.translate_trap_mem {s t : State} {p k : Nat} {o : Option Nat} {oc : BitVec 3} {va : Word} {n : Nat} {tr : Trap}
    (h : s.translate p k o oc va n = .trap tr t) : t.mem = s.mem := by rw [State.translate_trap h]
theorem State.translate_miss_mem {s t : State} {p k : Nat} {o : Option Nat} {oc : BitVec 3} {va : Word} {n : Nat}
    (h : s.translate p k o oc va n = .miss t) : t.mem = s.mem := by rw [State.translate_miss h]
@[simp] theorem State.allocL1_mem (s : State) (plot pa : Nat) : (s.allocL1 plot pa).mem = s.mem := rfl
@[simp] theorem State.performL1_mem (s : State) (r : Req) : (s.performL1 r).mem = s.mem := by simp [State.performL1]
@[simp] theorem State.issueL1_mem (s : State) (r : Req) : (s.issueL1 r).mem = s.mem := by
  unfold State.issueL1
  split
  · rfl
  · split <;> simp
@[simp] theorem State.choose_mem (s : State) : s.choose.2.mem = s.mem := by
  unfold State.choose
  split <;> rfl
@[simp] theorem State.issue_mem (s : State) (r : Req) : (s.issue r).mem = s.mem := by simp [State.issue]
theorem State.prefetchLine_mem {s t : State} {n : BitVec 5} {plot : Nat} {sig : BitVec 12} {stamp : List (BitVec 10)} {e : Tlb} {va : Word}
    (h : s.prefetchLine n plot sig stamp e va = some t) : t.mem = s.mem := by
  unfold State.prefetchLine at h
  dsimp only at h
  split at h
  · cases h; rfl
  · split at h
    · cases h
    · cases h; simp
theorem State.prefetchNow_mem {s t : State} {n : BitVec 5} {plot : Nat} {sig : BitVec 12} {stamp : List (BitVec 10)} {va : Word}
    (h : s.prefetchNow n plot sig stamp va = some t) : t.mem = s.mem := by
  unfold State.prefetchNow at h
  split at h
  · cases h; rfl
  · split at h
    · simpa using State.prefetchLine_mem h
    · split at h
      · cases h
      · cases h; rfl
      · rename_i s' hs
        have hm := State.walkTables_mem hs
        split at h
        · cases h; exact hm
        · simpa [hm] using State.prefetchLine_mem h
@[simp] theorem State.prefetch_mem (s : State) (t : BitVec 5) (plot slot : Nat) (oc : BitVec 3) (sig : BitVec 12) (va : Word) :
    (s.prefetch t plot slot oc sig va).mem = s.mem := by
  unfold State.prefetch
  dsimp only
  split
  · exact State.prefetchNow_mem ‹_›
  · rfl
@[simp] theorem State.storeAt_wf (s : State) (a : Nat) (ws : List W32) (h : s.mem.wf) : (s.storeAt a ws).mem.wf := by
  unfold State.storeAt
  split
  · exact h
  · exact Memory.wf_setWords _ _ _ h
/-- Words stored to control registers, two by two. -/
@[simp] theorem State.ctrlWords_wf (s : State) (a : Nat) (ws : List W32) (h : s.mem.wf) : (s.ctrlWords a ws).mem.wf := by
  induction s, a, ws using State.ctrlWords.induct with
  | case1 s a lo hi t ih =>
    unfold State.ctrlWords
    exact ih (by simp [h])
  | case2 s a ws hne =>
    unfold State.ctrlWords
    split
    · exact absurd rfl (hne _ _ _)
    · exact h
@[simp] theorem State.ctrlStore_wf (s : State) (a n : Nat) (v : Val) (h : s.mem.wf) : (s.ctrlStore a n v).mem.wf := by simp [State.ctrlStore, h]
@[simp] theorem State.performWrite_wf (s : State) (r : Req) (h : s.mem.wf) : (s.performWrite r).mem.wf := by
  unfold State.performWrite
  dsimp only
  split
  · simp [h]
  · simp [h]
  · simp [h]
  · simp [h]
  · split
    · simp [h]
    · split <;> simp [h]
  · split
    · simp [h]
    · split <;> simp [h]
  · simp [h]
@[simp] theorem State.readEffect_wf (s : State) (r : Req) (h : s.mem.wf) : (s.readEffect r).mem.wf := by
  unfold State.readEffect
  repeat' split
  all_goals simp [h]
@[simp] theorem State.dropRetained_mem (s : State) (id : Nat) (r : Req) (t : Trap) : (s.dropRetained id r t).mem = s.mem := by simp [State.dropRetained]
@[simp] theorem State.answer_wf (s : State) (id : Nat) (r : Req) (h : s.mem.wf) : (s.answer id r).mem.wf := by simp [State.answer, h]
@[simp] theorem State.finishWrite_mem (s : State) (id : Nat) (r : Req) : (s.finishWrite id r).mem = s.mem := rfl
@[simp] theorem State.writeDest_mem (s : State) (id : Nat) (r : Req) : (s.writeDest id r).mem = s.mem := by
  unfold State.writeDest
  dsimp only
  split
  · rfl
  · rfl
  · rfl
  · split
    · rfl
    · split
      · split
        · exact State.sendLoaded_mem ‹_›
        · rfl
      · rfl
@[simp] theorem State.resumeRetained_mem (s : State) (r : Req) : (s.resumeRetained r).mem = s.mem := by simp [State.resumeRetained]
@[simp] theorem State.parkReport_mem (s : State) (plot slot : Nat) (oc : BitVec 3) (va : Word) (cause : BitVec 8) (walker : Bool) (kind place pa : Nat) :
    (s.parkReport plot slot oc va cause walker kind place pa).2.mem = s.mem := by
  unfold State.parkReport
  dsimp only
  split <;> rfl

end Sys2Proof.Machine
end

section
/-! PROOF. Memory stays canonical: regions, synchronisation, actors and the engines (R69, R157). -/

namespace Sys2Proof.Machine

/-! ## Regions and ports -/

@[simp] theorem State.modRegion_mem (s : State) (k : Nat) (f : Region → Region) : (s.modRegion k f).mem = s.mem := by
  unfold State.modRegion
  split <;> rfl
@[simp] theorem State.bufAdd_mem (s : State) (key : Nat) (b : Beat) : (s.bufAdd key b).mem = s.mem := rfl
@[simp] theorem State.steerFeed_mem (s : State) (key n : Nat) : (s.steerFeed key n).mem = s.mem := by
  induction n generalizing s with
  | zero => rfl
  | succ n ih =>
    unfold State.steerFeed
    dsimp only
    split
    · split
      · rfl
      · split
        · simp [ih]
        · rfl
    · rfl
@[simp] theorem State.drainPush_mem (s : State) (key : Nat) (b : Beat) : (s.drainPush key b).mem = s.mem := by
  unfold State.drainPush
  dsimp only
  repeat' split
  all_goals simp

/-! ## Guidons, events, barriers and tokens -/

@[simp] theorem State.modInst_mem (s : State) (i : Nat) (f : Inst → Inst) : (s.modInst i f).mem = s.mem := by
  unfold State.modInst
  split <;> rfl
@[simp] theorem State.modGuidon_mem (s : State) (i e : Nat) (f : Guidon → Guidon) : (s.modGuidon i e f).mem = s.mem := by simp [State.modGuidon]
@[simp] theorem State.sendToken_mem (s : State) (plot die : Nat) (p : Payload) : (s.sendToken plot die p).mem = s.mem := rfl
@[simp] theorem State.sendPermit_mem (s : State) (i : Nat) (g : Guidon) (child : Bool × Nat) : (s.sendPermit i g child).mem = s.mem := by
  unfold State.sendPermit
  split
  · rfl
  · dsimp only
    split <;> simp
@[simp] theorem State.sendDue_mem (s : State) (i e n : Nat) : (s.sendDue i e n).mem = s.mem := by
  induction n generalizing s with
  | zero => rfl
  | succ n ih =>
    unfold State.sendDue
    split
    · rfl
    · split
      · rfl
      · simp [ih]
@[simp] theorem State.sendDone_mem (s : State) (i e : Nat) (g : Guidon) : (s.sendDone i e g).mem = s.mem := by
  unfold State.sendDone
  split
  · simp
  · split <;> simp
@[simp] theorem State.advanceGuidon_mem (s : State) (i e n : Nat) : (s.advanceGuidon i e n).mem = s.mem := by
  induction n generalizing s with
  | zero => rfl
  | succ n ih =>
    unfold State.advanceGuidon
    dsimp only
    split
    · simp
    · simp [ih]
@[simp] theorem State.permitGuidon_mem (s : State) (i e : Nat) : (s.permitGuidon i e).mem = s.mem := by
  unfold State.permitGuidon
  split
  · rfl
  · simp
@[simp] theorem State.doneGuidon_mem (s : State) (i e : Nat) (child : Bool × Nat) : (s.doneGuidon i e child).mem = s.mem := by
  unfold State.doneGuidon
  split
  · rfl
  · split <;> simp
@[simp] theorem State.eventEffects_mem (s : State) (i e die : Nat) : (s.eventEffects i e die).mem = s.mem := by
  unfold State.eventEffects
  dsimp only
  split <;> simp [State.foldl_mem]
@[simp] theorem State.tellDies_mem (s : State) (i plot : Nat) (p : Payload) : (s.tellDies i plot p).mem = s.mem := by
  unfold State.tellDies
  split
  · rfl
  · exact State.foldl_mem _ (fun t d => t.sendToken_mem plot d p) _ _
@[simp] theorem State.grantRaises_mem (s : State) (i e n : Nat) : (s.grantRaises i e n).mem = s.mem := by
  induction n generalizing s with
  | zero => rfl
  | succ n ih =>
    unfold State.grantRaises
    split
    · rfl
    · split
      · rfl
      · split
        · rfl
        · split <;> simp [ih]
@[simp] theorem State.raiseOnce_mem (s : State) (i e : Nat) (g : Guidon) (t : List Nat) : (s.raiseOnce i e g t).mem = s.mem := by
  simp [State.raiseOnce, State.foldl_mem]
@[simp] theorem State.applyEvents_mem (s : State) (i die n : Nat) : (s.applyEvents i die n).mem = s.mem := by
  induction n generalizing s with
  | zero => rfl
  | succ n ih =>
    unfold State.applyEvents
    split
    · rfl
    · split <;> simp [ih]
@[simp] theorem State.addEvent_mem (s : State) (i e : Nat) (n : BitVec 32) : (s.addEvent i e n).mem = s.mem := by
  unfold State.addEvent
  split
  · rfl
  · dsimp only
    split <;> simp
/-- Lending priorities changes slots only. -/
@[simp] theorem State.lendOnce_mem (s : State) (x : Inst) : (s.lendOnce x).mem = s.mem := by
  refine State.foldl_mem _ (fun t a => ?_) _ _
  dsimp only
  split
  · rfl
  · split
    · rfl
    · split
      · rfl
      · exact State.foldl_mem _ (fun u k => by simp) _ _
@[simp] theorem State.lendN_mem (s : State) (x : Inst) (n : Nat) : (s.lendN x n).mem = s.mem := by
  induction n generalizing s with
  | zero => rfl
  | succ n ih => simpa [State.lendN] using ih (s.lendOnce x)
@[simp] theorem State.relend_mem (s : State) (i : Nat) : (s.relend i).mem = s.mem := by
  unfold State.relend
  split
  · rfl
  · simp [State.foldl_mem]
@[simp] theorem State.loseArrivals_mem (s : State) (i : Nat) (e : BitVec 8) (w : BitVec 32) (die : Nat) : (s.loseArrivals i e w die).mem = s.mem := by
  unfold State.loseArrivals
  split
  · rfl
  · simp [State.foldl_mem]
@[simp] theorem State.seeBarrier_mem (s : State) (i : Nat) (e : BitVec 8) (die : Nat) (gen : BitVec 32) (abort : Bool) :
    (s.seeBarrier i e die gen abort).mem = s.mem := by simp [State.seeBarrier]
@[simp] theorem State.applyBarrier_mem (s : State) (i e : Nat) : (s.applyBarrier i e).mem = s.mem := by
  unfold State.applyBarrier
  split
  · rfl
  · split <;> simp
theorem State.answerG_mem {s t : State} {d : GReg} {v : Word} (h : s.answerG d v = .ok (some t)) : t.mem = s.mem := by
  unfold State.answerG at h
  split at h
  · cases h
  · cases h; exact State.writeG_mem ‹_›
theorem State.meetBarrier_mem {s t : State} {i : Nat} {e : BitVec 8} {p : Nat} {barwd : Word} {skip : Bool} {n : BitVec 32}
    (h : s.meetBarrier i e p barwd skip = .ok (t, n)) : t.mem = s.mem := by
  unfold State.meetBarrier at h
  split at h
  · cases h
  · split at h
    · cases h
    · cases h; simp
@[simp] theorem State.askHome_mem (s : State) (op : PnOp) (name : Word) (home : Nat) : (s.askHome op name home).mem = s.mem := rfl
theorem State.inbound_mem {s t : State} {id plot : Nat} {p : Payload} (h : s.inbound id plot p = some t) : t.mem = s.mem := by
  unfold State.inbound at h
  split at h
  · cases h
  · cases h; simp
theorem State.intoSaved_mem {s t : State} {id plot : Nat} {p : Payload} (h : s.intoSaved id plot p = some t) : t.mem = s.mem := by
  obtain ⟨s1, h1, rfl⟩ := Option.map_eq_some_iff.mp h
  simp [State.inbound_mem h1]
@[simp] theorem State.actEvent_mem (s : State) (die : Nat) (p : Payload) : (s.actEvent die p).mem = s.mem := by
  unfold State.actEvent
  repeat' split
  all_goals simp
@[simp] theorem State.takeEvent_mem (s : State) (id die : Nat) (p : Payload) : (s.takeEvent id die p).mem = s.mem := by
  unfold State.takeEvent
  cases h : (s.eventPlot die p).bind fun q => s.inbound id q p with
  | none => simp
  | some t =>
    obtain ⟨q, -, hq⟩ := Option.bind_eq_some_iff.mp h
    exact State.inbound_mem hq
@[simp] theorem State.arrivalFires_mem (s : State) (p c n : Nat) : (s.arrivalFires p c n).mem = s.mem := by
  induction n generalizing s with
  | zero => rfl
  | succ n ih =>
    unfold State.arrivalFires
    dsimp only
    split
    · rfl
    · simp [ih]
@[simp] theorem State.dropPnReq_mem (s : State) (key : Nat) : (s.dropPnReq key).mem = s.mem := by simp [State.dropPnReq]
@[simp] theorem State.leaveEvents_mem (s : State) (i key : Nat) : (s.leaveEvents i key).mem = s.mem := by
  unfold State.leaveEvents
  split
  · rfl
  · simp [State.foldl_mem]
@[simp] theorem State.withdraw_mem (s : State) (p k : Nat) : (s.withdraw p k).mem = s.mem := by
  unfold State.withdraw
  dsimp only
  repeat' split
  all_goals simp
@[simp] theorem State.orphan_mem (s : State) (p k : Nat) : (s.orphan p k).mem = s.mem := by
  unfold State.orphan
  dsimp only
  repeat' split
  all_goals rfl

/-! ## Stream words and the copy engine -/

@[simp] theorem State.dropWalks_mem (s : State) (id : Nat) (all : Bool) : (s.dropWalks id all).mem = s.mem := rfl
@[simp] theorem State.endWord_mem (s : State) (id : Nat) : (s.endWord id).mem = s.mem := by
  unfold State.endWord
  split <;> rfl
@[simp] theorem State.pendWord_mem (s : State) (p k : Nat) (ticket : BitVec 16) (kind : PendKind) (cause : BitVec 8) (tval tinfo : Word) :
    (s.pendWord p k ticket kind cause tval tinfo).mem = s.mem := by
  unfold State.pendWord
  dsimp only
  repeat' split
  all_goals simp
@[simp] theorem State.wordFault_mem (s : State) (id : Nat) (cause : BitVec 8) (tval : Word) (idx : Nat) : (s.wordFault id cause tval idx).mem = s.mem := by
  unfold State.wordFault
  split <;> simp

/-- The state that an engine's access leaves, `s` where it leaves that. -/
def EngAddr.state (s : State) : EngAddr → State
  | .wait t => t
  | .fault _ t => t
  | _ => s
/-- The state that an engine's reads or writes leave. -/
def EngOut.state {α : Type} : EngOut α → State
  | .done _ t => t
  | .wait t => t
  | .fault _ _ _ _ t => t
@[simp] theorem EngOut.state_done {α : Type} (x : α) (t : State) : (EngOut.done x t).state = t := rfl
@[simp] theorem EngOut.state_wait {α : Type} (t : State) : (EngOut.wait t : EngOut α).state = t := rfl
@[simp] theorem EngOut.state_fault {α : Type} (c : BitVec 8) (v : Word) (i : Nat) (x : α) (t : State) : (EngOut.fault c v i x t).state = t := rfl

theorem State.engineParks_mem {s : State} {plot slot id : Nat} {va : Word} {data : Option W32} {pa : Nat} {o : EngAddr}
    (h : s.engineParks plot slot id va data pa = o) : (o.state s).mem = s.mem := by
  subst h
  unfold State.engineParks
  dsimp only
  split
  · split
    · rfl
    · split <;> rfl
  · split
    · rfl
    · split
      · rfl
      · exact State.parkReport_mem ..
theorem State.engineAddr_mem {s : State} {plot slot id : Nat} {va : Word} {data : Option W32} {o : EngAddr}
    (h : s.engineAddr plot slot id va data = o) : (o.state s).mem = s.mem := by
  subst h
  unfold State.engineAddr
  dsimp only
  split
  · exact State.translate_trap_mem ‹_›
  · exact State.translate_miss_mem ‹_›
  · split
    · rfl
    · split
      · rfl
      · repeat' split
        · rfl
        · exact State.engineParks_mem rfl
        · rfl
        · exact State.engineParks_mem rfl
theorem State.engineRead_mem {s : State} {plot slot id : Nat} {sig : BitVec 12} {prev : Option Word} {l : List Src} {acc : List W32} {o : EngOut (List W32)}
    (h : s.engineRead plot slot id sig prev l acc = o) : o.state.mem = s.mem := by
  subst h
  induction l generalizing s prev acc with
  | nil => rfl
  | cons x l ih =>
    unfold State.engineRead
    split
    · exact ih
    · rfl
    · split
      · exact ih
      · exact State.engineAddr_mem ‹_›
      · exact State.engineAddr_mem ‹_›
      · exact ih
      · split
        · exact ih
        · rfl
      · split
        · rfl
        · repeat' split
          all_goals simp [ih]
theorem State.resolveAll_mem {s : State} {plot slot id : Nat} {l : List (Src × W32)} {acc : List (Bool × Nat × W32)} {o : EngOut (List (Bool × Nat × W32))}
    (h : s.resolveAll plot slot id l acc = o) : o.state.mem = s.mem := by
  subst h
  induction l generalizing acc with
  | nil => rfl
  | cons x l ih =>
    unfold State.resolveAll
    split
    · exact ih
    · rfl
    · split
      · exact ih
      · exact State.engineAddr_mem ‹_›
      · exact State.engineAddr_mem ‹_›
      · exact ih
      · split
        · rfl
        · exact ih
theorem State.foldl_snd_mem {α β : Type} (f : β × State → α → β × State) (hf : ∀ r a, (f r a).2.mem = r.2.mem) (l : List α) (r : β × State) :
    (l.foldl f r).2.mem = r.2.mem := by
  induction l generalizing r with
  | nil => rfl
  | cons a l ih => exact (ih _).trans (hf r a)
@[simp] theorem State.writeResolved_wf (s : State) (plot slot id : Nat) (sig : BitVec 12) (l : List (Bool × Nat × W32)) (h : s.mem.wf) :
    (s.writeResolved plot slot id sig l).2.mem.wf := by
  unfold State.writeResolved
  dsimp only
  rw [State.foldl_snd_mem _ fun r d => by split <;> rfl]
  split
  · simp [h]
  · split <;> simp [h]
theorem State.engineStore_wf {s : State} {plot slot id : Nat} {sig : BitVec 12} {l : List (Src × W32)} {o : EngOut (List Nat × List W32)}
    (h : s.mem.wf) (ho : s.engineStore plot slot id sig l = o) : o.state.mem.wf := by
  subst ho
  unfold State.engineStore
  split
  · rename_i t ht
    have hm : t.mem = s.mem := State.resolveAll_mem ht
    simpa [hm] using h
  · rename_i r t ht
    have hm : t.mem = s.mem := State.resolveAll_mem ht
    exact State.writeResolved_wf _ _ _ _ _ _ (by simpa [hm] using h)
  · rename_i c v k r t ht
    have hm : t.mem = s.mem := State.resolveAll_mem ht
    exact State.writeResolved_wf _ _ _ _ _ _ (by simpa [hm] using h)
@[simp] theorem State.drnTrapped_mem (s : State) (k : Nat) (d : DrnTrap) : (s.drnTrapped k d).mem = s.mem := by simp [State.drnTrapped]
@[simp] theorem State.beatsLeft_mem (s : State) (key n : Nat) : (s.beatsLeft key n).mem = s.mem := by
  unfold State.beatsLeft
  split
  · simp [State.foldl_mem]
  · rfl
@[simp] theorem State.bufPop_mem (s : State) (key : Nat) : (s.bufPop key).mem = s.mem := by simp [State.bufPop]
@[simp] theorem State.setWaiters_mem (s : State) (p : Nat) (id : BitVec 8) (l : List Nat) : (s.setWaiters p id l).mem = s.mem := rfl
@[simp] theorem State.lowerArc_mem (s : State) (p : Nat) (id : BitVec 8) : (s.lowerArc p id).mem = s.mem := by simp [State.lowerArc]
@[simp] theorem State.takeArc_mem (s : State) (p : Nat) (id : BitVec 8) (w : Nat) : (s.takeArc p id w).mem = s.mem := by simp [State.takeArc]
@[simp] theorem State.postArc_mem (s : State) (p : Nat) (arc : BitVec 8) : (s.postArc p arc).mem = s.mem := rfl
@[simp] theorem State.postEnd_mem (s : State) (p : Nat) (arc : BitVec 8) : (s.postEnd p arc).mem = s.mem := by simp [State.postEnd]
@[simp] theorem State.joinArc_mem (s : State) (p : Nat) (id : BitVec 8) (w : Nat) : (s.joinArc p id w).mem = s.mem := by simp [State.joinArc]
@[simp] theorem State.setWord_mem (s : State) (id : Nat) (w : SWord) : (s.setWord id w).mem = s.mem := rfl
@[simp] theorem State.finishing_mem (s : State) (id : Nat) (outs : List Nat) : (s.finishing id outs).mem = s.mem := by
  unfold State.finishing
  split <;> rfl

end Sys2Proof.Machine
end

section
/-! PROOF. Memory stays canonical: stream words and ports (R69, R157). -/

namespace Sys2Proof.Machine

/-! ## The bunting store -/

theorem State.allocBlock_mem {s t : State} {name b : Nat} (h : s.allocBlock name = some (b, t)) : t.mem = s.mem := by
  unfold State.allocBlock at h
  dsimp only at h
  split at h
  · cases h
  · cases h; rfl
@[simp] theorem State.dropRef_mem (s : State) (block : Nat) : (s.dropRef block).mem = s.mem := by simp [State.dropRef]
@[simp] theorem State.touchBlock_mem (s : State) (block : Nat) : (s.touchBlock block).mem = s.mem := by
  unfold State.touchBlock
  split
  · rfl
  · exact State.foldl_mem _ (fun t i => t.touch_mem _) _ _
@[simp] theorem State.blankBlock_wf (s : State) (block : Nat) (h : s.mem.wf) : (s.blankBlock block).mem.wf := by simp [State.blankBlock, h]
@[simp] theorem State.copyBlock_wf (s : State) (src dst : Nat) (h : s.mem.wf) : (s.copyBlock src dst).mem.wf := by
  simp [State.copyBlock, Memory.wf_setBulk _ _ _ h]
@[simp] theorem State.setName_mem (s : State) (name block : Nat) : (s.setName name block).mem = s.mem := rfl
@[simp] theorem State.freeName_mem (s : State) (n : Nat) : (s.freeName n).mem = s.mem := by
  unfold State.freeName
  split <;> simp
theorem bnAlloc_wf {names : List Nat} {i : Nat} {res out : List (BitVec 32)} {s t : State} (h : s.mem.wf) (ho : bnAlloc names i res s = .ok (out, t)) :
    t.mem.wf := by
  induction names generalizing i res s with
  | nil => cases ho; exact h
  | cons n names ih =>
    unfold bnAlloc at ho
    split at ho
    · exact ih h ho
    · split at ho
      · cases ho
      · rename_i ha
        exact ih (by simp [State.allocBlock_mem ha, h]) ho
theorem bnShare_wf {pairs : List (Nat × Nat)} {i : Nat} {out : List (BitVec 32)} {s t : State} (h : s.mem.wf) (ho : bnShare pairs i s = .ok (out, t)) :
    t.mem.wf := by
  induction pairs generalizing i s with
  | nil => cases ho; exact h
  | cons p pairs ih =>
    unfold bnShare at ho
    dsimp only at ho
    split at ho
    · cases ho
    · split at ho
      · exact ih (by simp [h]) ho
      · split at ho
        · cases ho
        · split at ho
          · cases ho
          · rename_i ha
            exact ih (by simp [State.allocBlock_mem ha, h]) ho
theorem bnXl_wf {write : Bool} {names : List Nat} {i : Nat} {res out : List (BitVec 32)} {s t : State} (h : s.mem.wf)
    (ho : bnXl write names i res s = .ok (out, t)) : t.mem.wf := by
  induction names generalizing i res s with
  | nil => cases ho; exact h
  | cons n names ih =>
    unfold bnXl at ho
    split at ho
    · cases ho
    · split at ho
      · split at ho
        · cases ho
        · split at ho
          · cases ho
          · rename_i ha
            exact ih (by simp [State.allocBlock_mem ha, h]) ho
      · exact ih h ho
theorem State.bnOp_wf {s t : State} {i : Instr} {out : List (BitVec 32)} (h : s.mem.wf) (ho : s.bnOp i = .ok (out, t)) : t.mem.wf := by
  unfold State.bnOp at ho
  split at ho
  · exact bnAlloc_wf h ho
  · split at ho
    · cases ho
    · cases ho
      rwa [State.foldl_mem _ State.freeName_mem]
  · split at ho
    · cases ho
    · exact bnShare_wf h ho
  · split at ho
    · cases ho
    · exact bnXl_wf h ho
  · cases ho; exact h
@[simp] theorem State.putResults_wf (s : State) (plot off : Nat) (ws : List (BitVec 32)) (h : s.mem.wf) : (s.putResults plot off ws).mem.wf := by
  induction ws generalizing s off with
  | nil => exact h
  | cons w ws ih =>
    unfold State.putResults
    dsimp only
    refine ih _ _ ?_
    have hw : (if s.backed (plotBase plot + off) then
        { (s.touch (plotBase plot + off)) with mem := s.mem.setWord (s.place (plotBase plot + off)) ⟨true, w⟩ } else s).mem.wf := by
      split
      · exact Memory.wf_setWord _ _ _ h
      · exact h
    split
    · exact State.setFe_wf _ _ _ hw
    · exact hw
@[simp] theorem State.buntPerform_wf (s : State) (id : Nat) (h : s.mem.wf) : (s.buntPerform id).mem.wf := by
  unfold State.buntPerform
  split
  · exact h
  · split
    · simp [h]
    · rename_i ho
      have h1 := State.bnOp_wf h ho
      split
      · simp [h1]
      · split <;> simp [h, h1]
@[simp] theorem State.askEngines_mem (s : State) (id : Nat) (w : SWord) (far : List Nat) : (s.askEngines id w far).mem = s.mem :=
  State.foldl_mem _ (fun t die => t.post_mem ..) _ _
@[simp] theorem State.buntDrain_wf (s : State) (n : Nat) (h : s.mem.wf) : (s.buntDrain n).mem.wf := by
  induction n generalizing s with
  | zero => exact h
  | succ n ih =>
    unfold State.buntDrain
    split
    · exact h
    · exact ih _ (by simp [h])
@[simp] theorem State.buntArrive_wf (s : State) (id die : Nat) (h : s.mem.wf) : (s.buntArrive id die).mem.wf := by
  unfold State.buntArrive
  split
  · exact h
  · exact State.buntDrain_wf _ _ h
theorem State.openPattern_wf {s t : State} {p q : Pattern} {write : Bool} (h : s.mem.wf) (ho : s.openPattern p write = .ok (q, t)) : t.mem.wf := by
  unfold State.openPattern at ho
  dsimp only at ho
  split at ho
  · cases ho; exact h
  · split at ho
    · cases ho
    · split at ho
      · cases ho
      · rename_i hx
        cases ho
        exact bnXl_wf h hx
theorem State.openAll_wf {s t : State} {l : List (Pattern × BitVec 13 × Bool)} {acc ps : List Pattern} (h : s.mem.wf) (ho : s.openAll l acc = .ok (ps, t)) :
    t.mem.wf := by
  induction l generalizing s acc with
  | nil => cases ho; exact h
  | cons x l ih =>
    unfold State.openAll at ho
    split at ho
    · cases ho
    · rename_i hx
      exact ih (State.openPattern_wf h hx) ho
/-- A word whose names are translated first goes on as `go`, or is lost as `lose`. -/
theorem State.withNames_wf {s : State} {id : Nat} {w : SWord} {recs : List (BitVec 13 × Bool)} {lose : State → State} {go : SWord → State → State} (h : s.mem.wf)
    (hl : ∀ t, t.mem.wf → (lose t).mem.wf) (hg : ∀ w t, t.mem.wf → (go w t).mem.wf) : (s.withNames id w recs lose go).mem.wf := by
  unfold State.withNames
  dsimp only
  split
  · exact hg _ _ h
  · split
    · exact h
    · split
      · split
        · simp [hl _ h]
        · simp [h]
      · split
        · exact h
        · split
          · simp [hl _ h]
          · rename_i ho
            exact hg _ _ (by simp [State.openAll_wf h ho])

/-! ## Copies, multicasts and bindings -/

@[simp] theorem State.copyStep_wf (s : State) (id : Nat) (w : SWord) (h : s.mem.wf) : (s.copyStep id w).mem.wf := by
  unfold State.copyStep
  dsimp only
  split
  · exact h
  · split
    · rename_i s1 hr
      have hm : s1.mem = s.mem := State.engineRead_mem hr
      rwa [hm]
    · rename_i c v k l s1 hr
      have hm : s1.mem = s.mem := State.engineRead_mem hr
      simp [hm, h]
    · rename_i ws s1 hr
      have hm : s1.mem = s.mem := State.engineRead_mem hr
      have h1 : s1.mem.wf := by rwa [hm]
      split
      · rename_i s2 hs
        exact State.engineStore_wf h1 hs
      · rename_i c v k l s2 hs
        have h2 : s2.mem.wf := State.engineStore_wf h1 hs
        simp [h2]
      · rename_i outs s2 hs
        have h2 : s2.mem.wf := State.engineStore_wf h1 hs
        simp [h2]
@[simp] theorem State.copyOn_wf (s : State) (id : Nat) (w : SWord) (h : s.mem.wf) : (s.copyOn id w).mem.wf :=
  State.withNames_wf h (fun _ ht => ht) fun w t ht => t.copyStep_wf id w ht
@[simp] theorem State.copyRecords_wf (s : State) (id : Nat) (w : SWord) (src dst : BitVec 13) (srcKind dstKind : Nat → Bool) (h : s.mem.wf) :
    (s.copyRecords id w src dst srcKind dstKind).mem.wf := by
  unfold State.copyRecords
  repeat' split
  all_goals simp [h]
@[simp] theorem State.mcstStep_wf (s : State) (id : Nat) (w : SWord) (key : Nat) (eos : Bool) (h : s.mem.wf) : (s.mcstStep id w key eos).mem.wf := by
  unfold State.mcstStep
  split
  · exact h
  · rename_i a rest _
    dsimp only
    split
    · exact h
    · split
      · rename_i s1 hr
        have hm : s1.mem = s.mem := State.engineRead_mem hr
        rwa [hm]
      · rename_i c v k l s1 hr
        have hm : s1.mem = s.mem := State.engineRead_mem hr
        simp [hm, h]
      · rename_i ws s1 hr
        have hm : s1.mem = s.mem := State.engineRead_mem hr
        have h1 : s1.mem.wf := by rwa [hm]
        have hs : ∀ o, (match rest with
            | b :: _ => s1.engineStore w.plot w.slot id (copySigs w).2 ((b.srcs (key / 16) w.progress (min 8 ((a.bytes - w.progress) / 4))).zip ws)
            | [] => .done ([], []) s1) = o → o.state.mem.wf := by
          rintro o rfl
          split
          · exact State.engineStore_wf h1 rfl
          · exact h1
        split
        · exact hs _ ‹_›
        · rename_i c v k l s2 ho
          have h2 : s2.mem.wf := hs _ ho
          simp [h2]
        · exact hs _ ‹_›
@[simp] theorem State.mcstOn_wf (s : State) (id : Nat) (w : SWord) (key : Nat) (eos : Bool) (h : s.mem.wf) : (s.mcstOn id w key eos).mem.wf :=
  State.withNames_wf h (fun _ ht => ht) fun w t ht => t.mcstStep_wf id w key eos ht
@[simp] theorem State.mcstStart_wf (s : State) (id : Nat) (w : SWord) (key : Nat) (m : PortMap) (src : BitVec 13) (store : Option (BitVec 13)) (eos : Bool)
    (h : s.mem.wf) : (s.mcstStart id w key m src store eos).mem.wf := by
  unfold State.mcstStart
  repeat' split
  all_goals simp [h]
@[simp] theorem State.installBinding_mem (s : State) (key : Nat) (b : Binding) : (s.installBinding key b).mem = s.mem := rfl
@[simp] theorem State.bindOn_wf (s : State) (id : Nat) (w : SWord) (h : SwHdr) (read : Bool) (rc : BitVec 13) (hold : Bool) (key : Nat) (m : PortMap)
    (hs : s.mem.wf) : (s.bindOn id w h read rc hold key m).mem.wf := by
  refine State.withNames_wf hs (fun t ht => by simp [ht]) fun x t ht => ?_
  split <;> simp [ht]
@[simp] theorem State.bindStart_wf (s : State) (id : Nat) (w : SWord) (h : SwHdr) (read : Bool) (rc : BitVec 13) (hold : Bool)
    (hs : s.mem.wf) : (s.bindStart id w h read rc hold).mem.wf := by
  unfold State.bindStart
  repeat' split
  all_goals simp [hs]
@[simp] theorem State.phaseOn_wf (s : State) (id : Nat) (w : SWord) (h : SwHdr) (rc : BitVec 13) (hs : s.mem.wf) : (s.phaseOn id w h rc).mem.wf := by
  unfold State.phaseOn
  split
  · simp [hs]
  · refine State.withNames_wf hs (fun _ ht => ht) fun x t ht => ?_
    split <;> simp [ht]
@[simp] theorem State.phaseStart_wf (s : State) (id : Nat) (w : SWord) (h : SwHdr) (rc : BitVec 13) (hs : s.mem.wf) : (s.phaseStart id w h rc).mem.wf := by
  unfold State.phaseStart
  repeat' split
  all_goals simp [hs]

/-! ## The region's words -/

@[simp] theorem State.takeBeats_mem (s : State) (keys : List Nat) : (s.takeBeats keys).2.mem = s.mem := by
  induction keys generalizing s with
  | nil => rfl
  | cons k keys ih => simp [State.takeBeats, ih]
@[simp] theorem State.matrixFault_mem (s : State) (k : Nat) (x : MWord) (cause : BitVec 8) (tval : Word) : (s.matrixFault k x cause tval).mem = s.mem := by
  simp [State.matrixFault]
@[simp] theorem State.matrixDone_mem (s : State) (k : Nat) (x : MWord) : (s.matrixDone k x).mem = s.mem := by simp [State.matrixDone]
@[simp] theorem State.matrixStart_wf (s : State) (k : Nat) (r : Region) (x : MWord) (h : s.mem.wf) : (s.matrixStart k r x).mem.wf := by
  unfold State.matrixStart
  dsimp only
  repeat' split
  all_goals simp [h]
theorem State.wldMove_mem {s t : State} {k : Nat} {r : Region} {x : MWord} (h : s.wldMove k r x = some t) : t.mem = s.mem := by
  unfold State.wldMove at h
  split at h
  · split at h
    · cases h
    · dsimp only at h
      split at h
      · cases h
      · split at h
        · cases h; simp
        · cases h; simp
  · cases h
theorem State.wstrMove_mem {s t : State} {k : Nat} {r : Region} {x : MWord} (h : s.wstrMove k r x = some t) : t.mem = s.mem := by
  unfold State.wstrMove at h
  split at h
  · dsimp only at h
    split at h
    · cases h
    · split at h
      · cases h
      · cases h; simp
  · cases h
theorem State.takeWave_mem {s t : State} {k : Nat} {r : Region} {x : MWord} (h : s.takeWave k r x = some t) : t.mem = s.mem := by
  unfold State.takeWave at h
  split at h
  · obtain ⟨-, ht⟩ := Option.ite_none_left_eq_some.mp h
    cases ht
    simp [State.foldl_mem]
  · cases h
theorem State.mtokMove_mem {s t : State} {k : Nat} {r : Region} {x : MWord} (h : s.mtokMove k r x = some t) : t.mem = s.mem := by
  unfold State.mtokMove at h
  split at h
  · cases h; simp
  · exact State.takeWave_mem h
theorem State.drnMove_mem {s t : State} {k : Nat} {r : Region} {earlier : List MWord} {x : MWord} (h : s.drnMove k r earlier x = some t) : t.mem = s.mem := by
  unfold State.drnMove at h
  split at h
  · extract_lets side o f clear at h
    split at h
    · cases h
    · extract_lets key w0 out outs first ord lanes status x' s1 s2 s3 at h
      obtain ⟨-, h⟩ := Option.ite_none_left_eq_some.mp h
      have h1 : s1.mem = s.mem := State.modRegion_mem ..
      have h2 : s2.mem = s.mem := (State.drainPush_mem ..).trans h1
      have h3 : s3.mem = s.mem := by
        unfold s3
        split
        · split <;> simp [h2]
        · exact h2
      cases h
      simp [h3]
  · cases h
theorem State.drnEnd_mem {s t : State} {k : Nat} {x : MWord} (h : s.drnEnd k x = some t) : t.mem = s.mem := by
  unfold State.drnEnd at h
  split at h
  · split at h
    · cases h; simp
    · cases h
  · cases h
theorem State.matrixMove_wf {s t : State} {k : Nat} {r : Region} {earlier : List MWord} {x : MWord} (hs : s.mem.wf)
    (h : s.matrixMove k r earlier x = some t) : t.mem.wf := by
  unfold State.matrixMove at h
  dsimp only at h
  split at h
  · obtain ⟨-, ht⟩ := Option.ite_none_right_eq_some.mp h
    cases ht
    simp [hs]
  · split at h
    · cases h
    · have hm : t.mem = s.mem := by
        split at h
        · cases h; exact State.drnEnd_mem ‹_›
        · split at h
          · exact State.wldMove_mem h
          · exact State.wstrMove_mem h
          · exact State.mtokMove_mem h
          · exact State.drnMove_mem h
          · cases h
      rwa [hm]
theorem State.firstMove_wf {s t : State} {k : Nat} {r : Region} {earlier l : List MWord} (hs : s.mem.wf) (h : s.firstMove k r earlier l = some t) :
    t.mem.wf := by
  induction l generalizing earlier with
  | nil => cases h
  | cons x l ih =>
    unfold State.firstMove at h
    split at h
    · cases h; exact State.matrixMove_wf hs ‹_›
    · exact ih h
theorem State.pumpN_wf (s : State) (k n : Nat) (h : s.mem.wf) : (s.pumpN k n).mem.wf := by
  induction n generalizing s with
  | zero => exact h
  | succ n ih =>
    unfold State.pumpN
    split
    · exact h
    · split
      · exact h
      · exact ih _ (State.firstMove_wf h ‹_›)
@[simp] theorem State.pump_wf (s : State) (k : Nat) (h : s.mem.wf) : (s.pump k).mem.wf := s.pumpN_wf k _ h
@[simp] theorem State.pumpPort_wf (s : State) (key : Nat) (h : s.mem.wf) : (s.pumpPort key).mem.wf := by
  unfold State.pumpPort
  split <;> simp [h]
@[simp] theorem State.modToken_wf (s : State) (w : SWord) (f : Region → Region) (h : s.mem.wf) : (s.modToken w f).mem.wf := by
  unfold State.modToken
  split <;> simp [h]

/-! ## Steering, rings and expert choice -/

@[simp] theorem State.steerMove_wf (s : State) (id : Nat) (w : SWord) (key off n : Nat) (h : s.mem.wf) : (s.steerMove id w key off n).mem.wf := by
  unfold State.steerMove
  dsimp only
  split <;> simp [h]
@[simp] theorem State.ringEmit_mem (s : State) (id : Nat) (w : SWord) (k : Nat) (r : Region) (x0 nexp m lines passes : Nat) :
    (s.ringEmit id w k r x0 nexp m lines passes).mem = s.mem := by
  unfold State.ringEmit
  split
  · rfl
  · dsimp only
    split
    · rfl
    · split
      · exact State.engineRead_mem ‹_›
      · rename_i c v i l s1 hr
        have hm : s1.mem = s.mem := State.engineRead_mem hr
        simp [hm]
      · rename_i ws s1 hr
        have hm : s1.mem = s.mem := State.engineRead_mem hr
        simp [hm]
@[simp] theorem State.ringOn_wf (s : State) (id : Nat) (w : SWord) (rc : BitVec 13) (x0 nexp m lines passes : Nat) (h : s.mem.wf) :
    (s.ringOn id w rc x0 nexp m lines passes).mem.wf := by
  refine State.withNames_wf h (fun _ ht => ht) fun x t ht => ?_
  split <;> simp [ht]
@[simp] theorem State.ringPass_mem (s : State) (k : Nat) (r : Region) (g : RingGroup) : (s.ringPass k r g).mem = s.mem := by
  unfold State.ringPass
  dsimp only
  split <;> simp
theorem State.raceStore_wf {s : State} {id plot : Nat} {l : List (Nat × W32)} {t : State} (h : s.mem.wf)
    (ho : s.raceStore id plot l = .ok t ∨ s.raceStore id plot l = .error t) : t.mem.wf := by
  induction l generalizing s with
  | nil => rcases ho with ho | ho <;> cases ho; exact h
  | cons x l ih =>
    unfold State.raceStore at ho
    split at ho
    · exact ih (by simp [h]) ho
    · rcases ho with ho | ho <;> cases ho; simp [h]
theorem State.raceTokens_wf {s : State} {id plot soff ooff e k : Nat} {toks wins : List Nat} {t : State} (h : s.mem.wf)
    (ho : (∃ l, s.raceTokens id plot soff ooff e k toks wins = .ok (l, t)) ∨ s.raceTokens id plot soff ooff e k toks wins = .error t) : t.mem.wf := by
  induction toks generalizing s wins with
  | nil =>
    rcases ho with ⟨l, ho⟩ | ho <;> cases ho
    exact h
  | cons i toks ih =>
    unfold State.raceTokens at ho
    dsimp only at ho
    split at ho
    · rename_i s1 h1
      rcases ho with ⟨l, ho⟩ | ho <;> cases ho
      exact State.raceStore_wf h (.inr h1)
    · rename_i s1 h1
      exact ih (State.raceStore_wf h (.inl h1)) ho
@[simp] theorem State.race_wf (s : State) (id plot soff ntok ooff e k coff : Nat) (wcnt : Bool) (h : s.mem.wf) :
    (s.race id plot soff ntok ooff e k coff wcnt).mem.wf := by
  unfold State.race
  split
  · exact State.raceTokens_wf h (.inr ‹_›)
  · rename_i wins s1 h1
    have hs1 := State.raceTokens_wf h (.inl ⟨wins, h1⟩)
    split
    · exact State.raceStore_wf hs1 (.inr ‹_›)
    · rename_i s2 h2
      simp [State.raceStore_wf hs1 (.inl h2)]

/-! ## Ports and channels -/

@[simp] theorem State.endUnbind_mem (s : State) (b : Binding) : (s.endUnbind b).mem = s.mem := State.foldl_mem _ (fun t id => t.finishing_mem id []) _ _
@[simp] theorem State.bindTrap_mem (s : State) (b : Binding) (cause : BitVec 8) (tval : Word) (idx : Nat) : (s.bindTrap b cause tval idx).mem = s.mem := by
  unfold State.bindTrap
  split <;> simp
@[simp] theorem State.setBinding_mem (s : State) (key : Nat) (b : Binding) : (s.setBinding key b).mem = s.mem := rfl
@[simp] theorem State.pushBeat_mem (s : State) (key : Nat) (b : Binding) (ws : List W32) : (s.pushBeat key b ws).mem = s.mem := rfl
@[simp] theorem State.pushEos_mem (s : State) (key : Nat) (b : Binding) : (s.pushEos key b).mem = s.mem := by simp [State.pushEos]
@[simp] theorem State.pushPoison_mem (s : State) (key : Nat) (b : Binding) : (s.pushPoison key b).mem = s.mem := rfl
@[simp] theorem State.readBeat_mem (s : State) (key : Nat) (b : Binding) (n : Nat) : (s.readBeat key b n).mem = s.mem := by
  induction n generalizing s b with
  | zero => rfl
  | succ n ih =>
    unfold State.readBeat
    dsimp only
    split
    · split
      · split <;> simp [ih]
      · split <;> simp
    · split
      · rename_i s1 hr
        have hm : s1.mem = s.mem := State.engineRead_mem hr
        simp [hm]
      · rename_i c v i ws s1 hr
        have hm : s1.mem = s.mem := State.engineRead_mem hr
        simp [hm]
      · rename_i ws s1 hr
        have hm : s1.mem = s.mem := State.engineRead_mem hr
        split <;> simp [ih, hm]
@[simp] theorem State.closePort_mem (s : State) (key : Nat) : (s.closePort key).mem = s.mem := by simp [State.closePort]
@[simp] theorem State.endWrite_mem (s : State) (key : Nat) (b : Binding) : (s.endWrite key b).mem = s.mem := by simp [State.endWrite]
@[simp] theorem State.settleWrite_mem (s : State) (b : Binding) : (s.settleWrite b).mem = s.mem := by
  unfold State.settleWrite
  dsimp only
  repeat' split
  all_goals simp
@[simp] theorem State.settlePort_mem (s : State) (key : Nat) : (s.settlePort key).mem = s.mem :=
  State.foldl_mem _ State.settleWrite_mem _ _
@[simp] theorem State.writeBeat_wf (s : State) (key : Nat) (b : Binding) (n : Nat) (h : s.mem.wf) : (s.writeBeat key b n).mem.wf := by
  induction n generalizing s b with
  | zero => exact h
  | succ n ih =>
    unfold State.writeBeat
    split
    · exact h
    · dsimp only
      split
      · simp [h]
      · split
        · exact ih _ _ h
        · split
          · split
            · exact ih _ _ h
            · split
              · exact ih _ _ h
              · exact h
          · split
            · rename_i s1 hs
              exact State.engineStore_wf h hs
            · rename_i c v i o s1 hs
              have h1 : s1.mem.wf := State.engineStore_wf h hs
              exact ih _ _ (by simp [h1])
            · rename_i o s1 hs
              have h1 : s1.mem.wf := State.engineStore_wf h hs
              exact ih _ _ (by simp [h1])
@[simp] theorem State.takeIn_mem (s : State) (dst : Nat) (b : Beat) : (s.takeIn dst b).mem = s.mem := by
  unfold State.takeIn
  dsimp only
  split <;> simp
@[simp] theorem State.mcstDone_mem (s : State) (id : Nat) : (s.mcstDone id).mem = s.mem := by
  unfold State.mcstDone
  repeat' split
  all_goals simp

end Sys2Proof.Machine
end

section
/-! PROOF. Memory stays canonical: the loader and the pennants (R69, R157, R162). -/

namespace Sys2Proof.Machine

/-! ## The loader -/

/-- The state that reading a container leaves. -/
def ReadOut.state : ReadOut → State
  | .done _ t => t
  | .wait t => t
  | .bad _ _ t => t
theorem State.readContainer_mem {s : State} {plot slot : Nat} {va : Word} {o : ReadOut} (h : s.readContainer plot slot va = o) : o.state.mem = s.mem := by
  subst h
  unfold State.readContainer
  dsimp only
  split
  · rename_i s1 hr
    exact State.engineRead_mem hr
  · rename_i c v k l s1 hr
    exact State.engineRead_mem hr
  · rename_i head s1 hr
    have h1 : s1.mem = s.mem := State.engineRead_mem hr
    split
    · exact h1
    · split
      · rename_i s2 hr2
        exact (State.engineRead_mem hr2).trans h1
      · rename_i c v k l s2 hr2
        exact (State.engineRead_mem hr2).trans h1
      · rename_i rest s2 hr2
        split
        · exact (State.engineRead_mem hr2).trans h1
        · exact (State.engineRead_mem hr2).trans h1
@[simp] theorem State.removeRegion_mem (s : State) (k : Nat) : (s.removeRegion k).mem = s.mem := by
  unfold State.removeRegion
  split
  · rfl
  · exact State.foldl_mem _ (fun t p => t.modPlot_mem p _) _ _
@[simp] theorem State.writeRegion_mem (s : State) (inst : Nat) (v : Variant) (r : RegionRec) : (s.writeRegion inst v r).mem = s.mem := by
  unfold State.writeRegion
  rw [State.foldl_mem _ fun t p => t.modPlot_mem p _]
  dsimp only
  rw [State.foldl_mem _ fun t p => t.modPlot_mem p _, State.foldl_mem _ fun t k => t.removeRegion_mem k]
@[simp] theorem State.writeRegions_mem (s : State) (inst : Nat) (v : Variant) : (s.writeRegions inst v).mem = s.mem := by
  simp [State.writeRegions, State.foldl_mem]
@[simp] theorem State.pumpInst_wf (s : State) (inst : Nat) (h : s.mem.wf) : (s.pumpInst inst).mem.wf :=
  State.foldl_wf _ (fun t e ht => t.pump_wf _ ht) _ h
@[simp] theorem State.configLost_mem (s : State) (inst idx : Nat) : (s.configLost inst idx).mem = s.mem := by
  unfold State.configLost
  dsimp only
  split <;> simp [State.foldl_mem]

/-! ## Pennants -/

@[simp] theorem State.modPennant_mem (s : State) (k : Nat) (f : Pennant → Pennant) : (s.modPennant k f).mem = s.mem := by
  unfold State.modPennant
  split <;> rfl
/-- As `foldl_wf`, with the state that a step leaves named: the kernel then compares steps and not the memories they leave. -/
theorem State.foldl_wf_of_eq {α : Type} (f : State → α → State) (hf : ∀ s a t, f s a = t → s.mem.wf → t.mem.wf) (l : List α) {s : State} (h : s.mem.wf) :
    (l.foldl f s).mem.wf := State.foldl_wf f (fun s a => hf s a _ rfl) l h
@[simp] theorem State.blankRange_wf (s : State) (p : Pennant) (empty : Bool) (h : s.mem.wf) : (s.blankRange p empty).mem.wf := by
  unfold State.blankRange
  refine State.foldl_wf_of_eq _ (fun t q u hu ht => ?_) _ h
  subst hu
  dsimp only
  split
  · refine State.foldl_wf_of_eq _ (fun u i v hv hu => ?_) _ (by simp [ht])
    subst hv
    simp [hu]
  · simp [ht]
@[simp] theorem State.dropPennant_wf (s : State) (k : Nat) (h : s.mem.wf) : (s.dropPennant k).mem.wf := by
  unfold State.dropPennant
  split <;> simp [h]
@[simp] theorem State.endAttachments_mem (s : State) (inst : Nat) : (s.endAttachments inst).mem = s.mem := rfl
@[simp] theorem State.moveStamp_mem (s : State) (p : Pennant) (src dst : Nat) : (s.moveStamp p src dst).mem = s.mem := by simp [State.moveStamp]
@[simp] theorem State.beginEvict_wf (s : State) (k : Nat) (mover : Option Nat) (h : s.mem.wf) : (s.beginEvict k mover).mem.wf := by
  unfold State.beginEvict
  split
  · exact h
  · simp [Memory.wf_setBulk _ _ _ h]
@[simp] theorem State.beginFill_mem (s : State) (k : Nat) (mover : Option Nat) (origin : Nat) : (s.beginFill k mover origin).mem = s.mem := by
  simp [State.beginFill]
@[simp] theorem State.rangeWrite_wf (s : State) (a : Nat) (w : W32) (h : s.mem.wf) : (s.rangeWrite a w).mem.wf := by
  simp [State.rangeWrite, Memory.wf_setWord _ _ _ h]
@[simp] theorem State.fillWords_wf (s : State) (p : Pennant) (n : Nat) (h : s.mem.wf) : (s.fillWords p n).mem.wf := by
  unfold State.fillWords
  rw [State.moveStamp_mem]
  refine State.foldl_wf_of_eq _ (fun t i u hu ht => ?_) _ h
  subst hu
  exact t.rangeWrite_wf _ _ ht
@[simp] theorem State.endMove_wf (s : State) (k : Nat) (p : Pennant) (st : PnState) (h : s.mem.wf) : (s.endMove k p st).mem.wf := by
  unfold State.endMove
  repeat' split
  all_goals simp [h]
@[simp] theorem State.movePennant_wf (s : State) (k : Nat) (h : s.mem.wf) : (s.movePennant k).mem.wf := by
  unfold State.movePennant
  split
  · exact h
  · extract_lets n s1 p'
    have h1 : s1.mem.wf := by
      unfold s1
      split <;> simp [h]
    clear_value s1
    repeat' split
    all_goals simp [h, h1]
@[simp] theorem State.joinPennant_mem (s : State) (k who : Nat) : (s.joinPennant k who).mem = s.mem := by simp [State.joinPennant]
@[simp] theorem State.leavePennant_mem (s : State) (k who : Nat) : (s.leavePennant k who).mem = s.mem := by simp [State.leavePennant]
@[simp] theorem State.pnDefine_mem (s : State) (plot : Nat) (ws : List W32) : (s.pnDefine plot ws).2.mem = s.mem := by
  unfold State.pnDefine
  extract_lets +onlyGivenNames d sess shape
  split
  · rfl
  · split
    · rfl
    · split
      · split <;> rfl
      · split
        · rfl
        · extract_lets +onlyGivenNames home n
          split
          · rfl
          · split
            · rfl
            · rename_i a _
              exact s.modDie_mem (dieOf d.origin) fun x => { x with backUsed := x.backUsed ++ [(a, n)] }
@[simp] theorem State.pnAttach_mem (s : State) (k key : Nat) (p : Pennant) : (s.pnAttach k key p).2.mem = s.mem := by
  unfold State.pnAttach
  dsimp only
  repeat' split
  all_goals simp
@[simp] theorem State.pnAct_wf (s : State) (key : Nat) (r : PnReq) (h : s.mem.wf) : (s.pnAct key r).2.mem.wf := by
  unfold State.pnAct
  extract_lets who plot ans
  have hans (x : PnAnswer × State) : (ans x).2 = x.2 := rfl
  split
  case h_1 => simp [hans, h]
  case h_2 => exact h
  case h_3 =>
    split
    · exact h
    · split
      · extract_lets s1
        have h1 : s1.mem.wf := s.movePennant_wf _ h
        split
        · split
          · exact h1
          · split <;> simp [hans, h1]
        · exact h1
      · split
        · simp [h]
        · extract_lets s1
          have h1 : s1.mem.wf := by simp [s1, h]
          split
          · simp [hans, h1]
          · split
            · exact h1
            · split
              · exact h1
              · split <;> simp [h1]
  case h_4 => repeat' split
              all_goals simp [h]
  case h_5 => repeat' split
              all_goals simp [h]
  case h_6 => repeat' split
              all_goals simp [h]
  case h_7 | h_8 =>
    split
    · exact h
    · rename_i hb
      simpa only [State.meetBarrier_mem hb] using h
  case h_9 => split <;> simp [h]
@[simp] theorem State.pnPerform_wf (s : State) (key : Nat) (h : s.mem.wf) : (s.pnPerform key).mem.wf := by
  unfold State.pnPerform
  split
  · exact h
  · rename_i r hr
    have ha := s.pnAct_wf key r h
    split
    · exact h
    · split
      · simp_all
      · simp_all
@[simp] theorem State.pnArrive_wf (s : State) (key id : Nat) (h : s.mem.wf) : (s.pnArrive key id).mem.wf := by
  unfold State.pnArrive
  repeat' split
  all_goals simp [h]
@[simp] theorem State.pnSend_wf (s : State) (op : PnOp) (name : Word) (h : s.mem.wf) : (s.pnSend op name).mem.wf := by simp [State.pnSend, h]
@[simp] theorem State.pnWordEnd_wf (s : State) (id : Nat) (w : SWord) (st : Nat) (h : s.mem.wf) : (s.pnWordEnd id w st).mem.wf := by
  unfold State.pnWordEnd
  dsimp only
  split <;> simp [h]
@[simp] theorem State.pnWordAct_wf (s : State) (id : Nat) (w : SWord) (h : s.mem.wf) : (s.pnWordAct id w).mem.wf := by
  unfold State.pnWordAct
  dsimp only
  repeat' split
  all_goals simp [h]
@[simp] theorem State.pnWordArrive_wf (s : State) (id : Nat) (h : s.mem.wf) : (s.pnWordArrive id).mem.wf := by
  unfold State.pnWordArrive
  split <;> simp [h]
@[simp] theorem State.evictLogged_wf (s : State) (k case : Nat) (mover : Option Nat) (h : s.mem.wf) : (s.evictLogged k case mover).mem.wf := by
  unfold State.evictLogged
  split <;> simp [h]
@[simp] theorem State.managerEvict_wf (s : State) (k case : Nat) (h : s.mem.wf) : (s.managerEvict k case).mem.wf := by
  unfold State.managerEvict
  split <;> simp [h]

end Sys2Proof.Machine
end

section
/-! PROOF. Memory stays canonical: packets, dies and commands (R69, R157). -/

namespace Sys2Proof.Machine

/-! ## Counted packets, rebase and dies -/

@[simp] theorem State.sendPacket_mem (s : State) (id : Nat) (o : Out) : (s.sendPacket id o).mem = s.mem := rfl
@[simp] theorem State.noteDelivery_mem (s : State) (p : Packet) : (s.noteDelivery p).mem = s.mem := by simp [State.noteDelivery]
@[simp] theorem State.performPayload_wf (s : State) (id dst : Nat) (p : Payload) (h : s.mem.wf) : (s.performPayload id dst p).mem.wf := by
  unfold State.performPayload
  repeat' split
  all_goals simp [h]
@[simp] theorem State.toPeer_mem (s : State) (id : Nat) (p : Payload) : (s.toPeer id p).mem = s.mem := by
  unfold State.toPeer
  split <;> rfl
@[simp] theorem State.removedTrap_mem (s : State) (plot slot die : Nat) (tval : Word) : (s.removedTrap plot slot die tval).mem = s.mem := rfl
@[simp] theorem State.losePayload_mem (s : State) (die : Nat) (p : Payload) : (s.losePayload die p).mem = s.mem := by
  unfold State.losePayload
  repeat' split
  all_goals simp
@[simp] theorem State.forgetPacket_mem (s : State) (id : Nat) (p : Packet) : (s.forgetPacket id p).mem = s.mem := rfl
theorem State.foldl_fst_mem {α β : Type} (f : State × β → α → State × β) (hf : ∀ r a, (f r a).1.mem = r.1.mem) (l : List α) (r : State × β) :
    (l.foldl f r).1.mem = r.1.mem := by
  induction l generalizing r with
  | nil => rfl
  | cons a l ih => exact (ih _).trans (hf r a)
@[simp] theorem State.splitWrites_mem (s : State) (id : Nat) (o : Out) (w : Nat) (sig : BitVec 12) (ws : List (BitVec 48 × W32)) :
    (s.splitWrites id o w sig ws).1.mem = s.mem := by
  unfold State.splitWrites
  dsimp only
  split
  · rfl
  · exact State.foldl_fst_mem _ (fun r e => by rfl) _ _
@[simp] theorem State.rehome_mem (s : State) : s.rehome.mem = s.mem := by
  refine State.foldl_mem _ (fun t e => ?_) _ _
  split <;> simp
@[simp] theorem State.loseReq_mem (s : State) (die id : Nat) (r : Req) : (s.loseReq die id r).mem = s.mem := by simp [State.loseReq]
@[simp] theorem State.losePnReqs_mem (s : State) (die : Nat) : (s.losePnReqs die).mem = s.mem := rfl
@[simp] theorem State.removeDie_mem (s : State) (d : Nat) : (s.removeDie d).mem = s.mem := by simp [State.removeDie, State.foldl_mem]
@[simp] theorem State.startRetrain_mem (s : State) (d : Nat) (forced : Bool) : (s.startRetrain d forced).mem = s.mem := by simp [State.startRetrain]
@[simp] theorem State.stopBulk_mem (s : State) (plot slot : Nat) (arc : BitVec 8) (done : Nat) : (s.stopBulk plot slot arc done).mem = s.mem := rfl
@[simp] theorem State.logAt_mem (s : State) (t kind d0 d1 : Nat) : (s.logAt t kind d0 d1).mem = s.mem := by simp [State.logAt]

/-! ## Commands, installing and removing -/

@[simp] theorem State.modCmd_mem (s : State) (id : Nat) (f : Cmd → Cmd) : (s.modCmd id f).mem = s.mem := by
  unfold State.modCmd
  split <;> rfl
@[simp] theorem State.cmdDone_mem (s : State) (id : Nat) (f : Cmd → Cmd) : (s.cmdDone id f).mem = s.mem := by simp [State.cmdDone]
@[simp] theorem State.cmdRefuse_mem (s : State) (id : Nat) (cause : BitVec 8) : (s.cmdRefuse id cause).mem = s.mem := by simp [State.cmdRefuse]
@[simp] theorem State.hostQuads_mem (s : State) (sess off : Nat) (l : List Word) : (s.hostQuads sess off l).2.mem = s.mem := by
  unfold State.hostQuads
  split <;> rfl
/-- An install empties the granules of its plots. -/
@[simp] theorem State.resetPlot_wf (s : State) (inst : Option Nat) (asid : BitVec 12) (root : BitVec 48) (p : Nat) (h : s.mem.wf) :
    (s.resetPlot inst asid root p).mem.wf := by
  unfold State.resetPlot
  dsimp only
  split
  · have hf := Memory.wf_filter s.mem (fun _ => true) (fun _ => true) (fun g => g < plotBase p / 16 || plotBase p / 16 + 0x8000 ≤ g) h
    rwa [List.filter_true, List.filter_true] at hf
  · exact h
@[simp] theorem State.putRecords_mem (s : State) (inst : Nat) (v : Variant) : (s.putRecords inst v).mem = s.mem := by
  unfold State.putRecords
  dsimp only
  rw [State.writeRegions_mem, State.foldl_mem _ fun t x => t.modPlot_mem _ _, State.foldl_mem _ fun t x => t.modPlot_mem _ _,
    State.foldl_mem _ fun t x => t.setSlot_mem _ _ _]
theorem State.installOne_wf {s t : State} {sess : Nat} {root : BitVec 48} {gang : Option Nat} {remap : List (BitVec 3)} {qs : List Word} (h : s.mem.wf)
    (ho : s.installOne sess root gang remap qs = .ok t) : t.mem.wf := by
  unfold State.installOne at ho
  split at ho
  · cases ho
  · extract_lets x plots at ho
    split at ho
    · cases ho
    · split at ho
      · cases ho
      · split at ho
        · cases ho
        · split at ho
          · cases ho
          · split at ho
            · cases ho
            · split at ho
              · cases ho
              · cases ho
                rw [State.ite_mem, State.logRec_mem, ite_self, State.putRecords_mem]
                exact State.foldl_wf _ (fun u p hu => u.resetPlot_wf _ _ _ p hu) _ h
theorem State.installAll_cons (s : State) (sess : Nat) (root : BitVec 48) (gang : Option Nat) (m : List (BitVec 3)) (qs : List Word)
    (l : List (List (BitVec 3) × List Word)) :
    s.installAll sess root gang ((m, qs) :: l) = match s.installOne sess root gang m qs with
      | .error c => .error c
      | .ok s1 => s1.installAll sess root gang l := by
  delta State.installAll
  rfl
theorem State.installAll_wf {s t : State} {sess : Nat} {root : BitVec 48} {gang : Option Nat} {l : List (List (BitVec 3) × List Word)} (h : s.mem.wf)
    (ho : s.installAll sess root gang l = .ok t) : t.mem.wf := by
  induction l generalizing s with
  | nil =>
    obtain rfl := Except.ok.inj ho
    exact h
  | cons x l ih =>
    rw [State.installAll_cons] at ho
    split at ho
    · exact nomatch ho
    · rename_i s1 h1
      exact ih (State.installOne_wf h h1) ho
theorem State.installPlan_wf {s t : State} {sess : Nat} {pa root : BitVec 48} {k : BitVec 5} {gang : Bool} {members1 : BitVec 2} {remaps : List (BitVec 24)}
    {others : List (BitVec 48)} (h : s.mem.wf) (ho : s.installPlan sess pa root k gang members1 remaps others = .ok t) : t.mem.wf := by
  unfold State.installPlan at ho
  dsimp only at ho
  split at ho
  · cases ho
  · split at ho
    · cases ho
    · exact State.installAll_wf h ho
@[simp] theorem State.clearPennants_wf (s : State) (keys : List Nat) (case : Nat) (h : s.mem.wf) : (s.clearPennants keys case).mem.wf := by
  refine State.foldl_wf _ (fun t k ht => ?_) _ h
  repeat' split
  all_goals simp [ht]
@[simp] theorem State.dropReq_mem (s : State) (id : Nat) (r : Req) : (s.dropReq id r).mem = s.mem := by
  unfold State.dropReq
  split <;> simp
@[simp] theorem State.removeInst_wf (s : State) (i : Nat) (h : s.mem.wf) : (s.removeInst i).mem.wf := by
  unfold State.removeInst
  split
  · exact h
  · refine State.foldl_wf _ (fun t p ht => t.resetPlot_wf _ _ _ p ht) _ ?_
    rw [State.endAttachments_mem, State.foldl_mem _ fun t k => t.removeRegion_mem k, State.foldl_mem, State.foldl_mem]
    · exact h
    · intro t e
      simp
    · intro t e
      split
      · split <;> simp
      · rfl
@[simp] theorem State.endLaunch_mem (s : State) (i : Nat) (status : BitVec 8) : (s.endLaunch i status).mem = s.mem := by
  unfold State.endLaunch
  split
  · rfl
  · split <;> simp
@[simp] theorem State.killInst_wf (s : State) (i : Nat) (h : s.mem.wf) : (s.killInst i).mem.wf := by simp [State.killInst, h]
@[simp] theorem State.noteDown_mem (s : State) : s.noteDown.mem = s.mem := rfl
@[simp] theorem State.dropQueue_mem (s : State) (k : Nat) : (s.dropQueue k).mem = s.mem := rfl
@[simp] theorem State.abortFrom_mem (s : State) (sess queue k pos tail n : Nat) : (s.abortFrom sess queue k pos tail n).2.mem = s.mem := by
  induction n generalizing s pos with
  | zero => rfl
  | succ n ih =>
    unfold State.abortFrom
    dsimp only
    split
    · rfl
    · split
      · rfl
      · split
        · rfl
        · simp [ih]
@[simp] theorem State.abortLaunches_mem (s : State) (sess queue : Nat) : (s.abortLaunches sess queue).2.mem = s.mem :=
  State.foldl_mem _ (fun t e => by simp) _ _
@[simp] theorem State.pnDone_mem (s : State) (id : Nat) (st : BitVec 8) : (s.pnDone id st).mem = s.mem := by simp [State.pnDone]
@[simp] theorem State.pnMoved_wf (s : State) (id k : Nat) (h : s.mem.wf) : (s.pnMoved id k).mem.wf := by
  unfold State.pnMoved
  dsimp only
  split <;> simp [h]
@[simp] theorem State.performWalk_mem (s : State) (id : Nat) (w : Walk) (k : Nat) (x : Session) : (s.performWalk id w k x).mem = s.mem := by
  simp [State.performWalk]
@[simp] theorem State.replayWalks_mem (s : State) (f : Nat) : (s.replayWalks f).mem = s.mem := by
  refine State.foldl_snd_mem _ (fun r e => ?_) _ _
  dsimp only
  split
  · simp
  · split
    · rfl
    · exact State.parkReport_mem ..
@[simp] theorem State.replayParked_mem (s : State) (f : Nat) : (s.replayParked f).mem = s.mem := by simp [State.replayParked]
@[simp] theorem State.declineReq_mem (s : State) (k : Nat) (r : Req) : (s.declineReq k r).mem = s.mem := by simp [State.declineReq]
@[simp] theorem State.declineParked_mem (s : State) (f : Nat) : (s.declineParked f).mem = s.mem := by
  refine State.foldl_mem _ (fun t k => ?_) _ _
  split <;> simp
@[simp] theorem State.shoot_mem (s : State) (keep : Tlb → Bool) : (s.shoot keep).mem = s.mem := rfl
@[simp] theorem State.loseEntries_mem (s : State) (d : Nat) : (s.loseEntries d).mem = s.mem := State.foldl_mem _ (fun t e => t.modDie_mem _ _) _ _
@[simp] theorem State.recount_mem (s : State) : s.recount.2.mem = s.mem := by
  refine State.foldl_snd_mem _ (fun r e => ?_) _ _
  dsimp only
  split
  · rfl
  · split <;> rfl

end Sys2Proof.Machine
end

section
/-! PROOF. Memory stays canonical: launches, pre-emption and the front end (R69, R157). -/

namespace Sys2Proof.Machine

/-! ## Launches and pre-emption -/

@[simp] theorem State.launchRecords_wf (s : State) (ports : List (Nat × PortMap)) (l : List (List Word)) (h : s.mem.wf) : (s.launchRecords ports l).mem.wf := by
  induction l generalizing s with
  | nil => exact h
  | cons e l ih =>
    unfold State.launchRecords
    split
    · exact ih _ h
    · exact ih _ (Memory.wf_setWords _ _ _ h)
theorem State.bindItem_wf {s t : State} {cmd : Nat} {sink : Bool} {k key : Nat} {m : PortMap} (h : s.mem.wf) (ho : s.bindItem cmd sink k key m = .ok t) :
    t.mem.wf := by
  unfold State.bindItem at ho
  dsimp only at ho
  split at ho
  · cases ho
  · split at ho
    · cases ho
    · split at ho
      · cases ho
      · rename_i hp
        cases ho
        simp [State.openPattern_wf h hp]
theorem State.bindItems_wf {s t : State} {cmd sink k : Nat} {ports : List (Nat × PortMap)} {l : List (List Word)} (h : s.mem.wf)
    (ho : s.bindItems cmd sink ports k l = .ok t ∨ ∃ c, s.bindItems cmd sink ports k l = .error (c, t)) : t.mem.wf := by
  induction l generalizing s k with
  | nil =>
    rcases ho with ho | ⟨c, ho⟩ <;> cases ho
    exact h
  | cons e l ih =>
    unfold State.bindItems at ho
    split at ho
    · rcases ho with ho | ⟨c, ho⟩ <;> cases ho
      exact h
    · split at ho
      · rcases ho with ho | ⟨c, ho⟩ <;> cases ho
        exact h
      · exact ih (State.bindItem_wf h ‹_›) ho
@[simp] theorem State.bindFault_mem (s : State) (cmd i : Nat) (cause : BitVec 8) : (s.bindFault cmd i cause).mem = s.mem := by simp [State.bindFault]
@[simp] theorem State.launchPrio_mem (s : State) (i : Nat) : (s.launchPrio i).mem = s.mem := by
  unfold State.launchPrio
  split
  · rfl
  · rw [State.relend_mem, State.foldl_mem _ fun t a => t.modSlot_mem _ _ _]
@[simp] theorem State.cancelWalks_mem (s : State) (x : Inst) : (s.cancelWalks x).mem = s.mem := rfl
@[simp] theorem State.withdrawInst_mem (s : State) (x : Inst) : (s.withdrawInst x).mem = s.mem := by
  refine (State.cancelWalks_mem _ _).trans (State.foldl_mem _ (fun t p => State.foldl_mem _ (fun u k => ?_) _ _) _ _)
  simp
@[simp] theorem State.enterService_mem (s : State) (x : Inst) : (s.enterService x).mem = s.mem := by
  unfold State.enterService
  dsimp only
  rw [State.foldl_mem _ fun t p => t.modPlot_mem p _, State.cancelWalks_mem, State.foldl_mem]
  intro t e
  simp
theorem copyFull_wf (m : Memory) (src dst n : Nat) (h : m.wf) : (copyFull m src dst n).wf := by
  induction n generalizing m with
  | zero => exact h
  | succ n ih => exact ih _ (Memory.wf_setFe _ _ _ h)
@[simp] theorem State.savePlot_wf (s : State) (i : Nat) (x : Inst) (p : Nat) (h : s.mem.wf) : (s.savePlot i x p).mem.wf := by
  unfold State.savePlot
  extract_lets area discard size own m1 m2 s1 s2
  have h1 : m1.wf := Memory.wf_setBulk _ _ _ (Memory.wf_setWords _ _ _ h)
  have h2 : m2.wf := Memory.ite_wf _ _ _ h1 (copyFull_wf _ _ _ _ (Memory.wf_setBulk _ _ _ h1))
  have hs : s2.mem = m2 := State.modInst_mem ..
  rw [State.modInst_mem, hs]
  exact h2
@[simp] theorem State.poisonItem_mem (s : State) (p : Nat) (x : Config.CtxItem) : (s.poisonItem p x).mem = s.mem := by
  unfold State.poisonItem
  split
  · split <;> rfl
  · rfl
  · rfl
@[simp] theorem State.resumeTimers_mem (s : State) (i : Nat) : (s.resumeTimers i).mem = s.mem := by
  unfold State.resumeTimers
  split
  · rfl
  · refine State.foldl_mem _ (fun t c => ?_) _ _
    dsimp only
    rw [State.foldl_mem, State.modInst_mem]
    intro u k
    simp
@[simp] theorem State.restorePlot_wf (s : State) (i p : Nat) (c : Ctx) (h : s.mem.wf) : (s.restorePlot i p c).mem.wf := by
  unfold State.restorePlot
  extract_lets image lost m1 m2 s1 s2
  have h1 : m1.wf := Memory.wf_setBulk _ _ _ h
  have h2 : m2.wf := Memory.ite_wf _ _ _ h1 (copyFull_wf _ _ _ _ h1)
  have hs1 : s1.mem = m2 := State.modInst_mem ..
  have hs2 : s2.mem = m2 := (State.foldl_mem _ (fun t x => t.poisonItem_mem p x) _ _).trans hs1
  rw [State.foldl_mem _ fun t k => by simp, hs2]
  exact h2
@[simp] theorem State.refillOne_wf (s : State) (k origin : Nat) (h : s.mem.wf) : (s.refillOne k origin).mem.wf := by
  unfold State.refillOne
  repeat' split
  all_goals simp [h]
@[simp] theorem State.refill_wf (s : State) (l : List (Nat × Nat)) (h : s.mem.wf) : (s.refill l).mem.wf :=
  State.foldl_wf _ (fun t e ht => t.refillOne_wf _ _ ht) _ h

/-! ## The front end and the host -/

@[simp] theorem State.modQueue_mem (s : State) (k : Nat) (f : CQueue → CQueue) : (s.modQueue k f).mem = s.mem := by
  unfold State.modQueue
  split <;> rfl
@[simp] theorem State.takeToken_mem (s : State) (k : Nat) : (s.takeToken k).mem = s.mem := by
  unfold State.takeToken
  split <;> rfl
@[simp] theorem State.addToken_mem (s : State) (k : Nat) : (s.addToken k).mem = s.mem := by
  unfold State.addToken
  split <;> simp
@[simp] theorem State.dropPatches_mem (s : State) (k pos keep : Nat) : (s.dropPatches k pos keep).mem = s.mem := by
  unfold State.dropPatches
  dsimp only
  repeat' split
  all_goals simp [State.foldl_mem]
@[simp] theorem State.refuseAt_mem (s : State) (sess queue k : Nat) (q : CQueue) (pos : Nat) : (s.refuseAt sess queue k q pos).mem = s.mem := by
  simp [State.refuseAt]
@[simp] theorem State.dispatchAt_mem (s : State) (sess queue k : Nat) (q : CQueue) (pos : Nat) (e : List Word) (i : Instr) (inst : Option Nat) :
    (s.dispatchAt sess queue k q pos e i inst).mem = s.mem := by
  unfold State.dispatchAt
  dsimp only
  repeat' split
  all_goals simp [State.foldl_mem]
@[simp] theorem State.reply_mem (s : State) (port : BitVec 2) (req sess status length : Nat) (body : List Byte) :
    (s.reply port req sess status length body).mem = s.mem := rfl
@[simp] theorem State.closeSession_wf (s : State) (k : Nat) (h : s.mem.wf) : (s.closeSession k).mem.wf := by
  unfold State.closeSession
  refine State.foldl_wf _ (fun t e ht => ?_) _ (State.foldl_wf _ (fun t e ht => t.killInst_wf _ ht) _ h)
  split <;> simp [ht]
@[simp] theorem State.sign_mem (s : State) (body : List Byte) : (s.sign body).2.mem = s.mem := rfl
@[simp] theorem State.failDie_mem (s : State) (d step : Nat) : (s.failDie d step).mem = s.mem := by simp [State.failDie]
@[simp] theorem State.reportAll_mem (s : State) (kind : Nat) (q : List Nat) : (s.reportAll kind q).mem = s.mem := foldl_report_mem _ _ _ _
@[simp] theorem State.holdSlot_mem (s : State) (p k : Nat) (t : Trap) : (s.holdSlot p k t).mem = s.mem := by simp [State.holdSlot]
@[simp] theorem State.storageLost_wf (s : State) (t : ScrubTarget) (h : s.mem.wf) : (s.storageLost t).mem.wf := by
  unfold State.storageLost
  dsimp only
  split <;> simp [h, State.foldl_mem]

end Sys2Proof.Machine
end

section
/-! PROOF. Memory stays canonical: the forms of an instruction (R69, R157). -/

namespace Sys2Proof.Machine

/-! ## The forms of an instruction -/

/-- Where a result goes on, memory is canonical. -/
def KeepsWf (r : Result) : Prop := ∀ t, r = .next t → t.mem.wf
@[simp] theorem keepsWf_next (s : State) : KeepsWf (.next s) ↔ s.mem.wf := ⟨fun h => h s rfl, fun h t ht => by cases ht; exact h⟩
@[simp] theorem keepsWf_scalar (size : Nat) (srcs : List GReg) (d : GReg) (f : List Val → Except Trap Val) (s : State) (h : s.mem.wf) :
    KeepsWf (scalar size srcs d f s) := by
  unfold scalar
  split
  · simp [h]
  · split
    · simp [h]
    · split
      · simp [h]
      · split
        · simp [h]
        · simp [State.writeG_mem ‹_›, h]
/-- An instruction of the form `control` keeps memory canonical when what it does with the state after its reads does. -/
theorem keepsWf_control {size : Nat} {srcs dsts : List GReg} {f : List Val → State → Except Trap (Option State)} {s : State} (h : s.mem.wf)
    (hf : ∀ vs u t, u.mem.wf → f vs u = .ok (some t) → t.mem.wf) : KeepsWf (control size srcs dsts f s) := by
  unfold control
  split
  · simp [h]
  · split
    · simp [h]
    · split
      · simp [h]
      · simp [h]
      · rename_i t ht
        simpa using hf _ _ t (by simpa using h) ht
@[simp] theorem keepsWf_transfer (srcs : List GReg) (f : List Val → Except Trap (Option Word)) (s : State) (h : s.mem.wf) : KeepsWf (transfer srcs f s) := by
  unfold transfer
  repeat' split
  all_goals simp [h]
@[simp] theorem keepsWf_linkJump (srcs : List GReg) (d : GReg) (link target : Word) (s : State) (h : s.mem.wf) : KeepsWf (linkJump srcs d link target s) := by
  unfold linkJump
  split
  · simp [h]
  · simp [State.writeG_mem ‹_›, h]
@[simp] theorem keepsWf_memAccess (size : Nat) (srcs dsts : List GReg) (vs : List VNum) (qs : List QNum) (rv : List (BitVec 3 × BitVec 5))
    (build : List Val → Access) (s : State) (h : s.mem.wf) : KeepsWf (memAccess size srcs dsts vs qs rv build s) := by
  unfold memAccess
  dsimp only
  split
  · simp [h]
  · split
    · simp [h]
    · split
      · simp [h]
      · split
        · simp [h]
        · split
          · rename_i tr t ht
            simp [State.translate_trap_mem ht, h]
          · rename_i t ht
            simp [State.translate_miss_mem ht, h]
          · repeat' split
            all_goals simp [h]
@[simp] theorem keepsWf_prefetchOp (size : Nat) (t : BitVec 5) (a : GReg) (oc : BitVec 3) (disp : Word) (s : State) (h : s.mem.wf) :
    KeepsWf (prefetchOp size t a oc disp s) := by
  unfold prefetchOp
  dsimp only
  repeat' split
  all_goals simp [h]
@[simp] theorem keepsWf_nodeFinish (s : State) (srcs : List GReg) (d : GReg) (arrival : Option (BitVec 8)) (h : s.mem.wf) :
    KeepsWf (s.nodeFinish srcs d arrival) := by
  unfold State.nodeFinish
  dsimp only
  split
  · simp [h]
  · split
    · simp [h]
    · split
      · simp [h]
      · split
        · simp [h]
        · rename_i hw
          rw [keepsWf_next, State.advance_mem, State.writeG_mem hw, State.afterReads_mem]
          split <;> simp [h]
@[simp] theorem keepsWf_vectorOp (vs : List VNum) (gs : List GReg) (d : VNum) (f : List Val → Except Trap VOut) (s : State) (h : s.mem.wf) :
    KeepsWf (vectorOp vs gs d f s) := by
  unfold vectorOp
  repeat' split
  all_goals simp [h]
@[simp] theorem keepsWf_configEnd (s : State) (d a : GReg) (status : Word) (h : s.mem.wf) : KeepsWf (s.configEnd d a status) := by
  unfold State.configEnd
  dsimp only
  split
  · simp [h]
  · simp [State.writeG_mem ‹_›, h]
@[simp] theorem keepsWf_configGoes (s : State) (d a : GReg) (i : Nat) (x : Inst) (l : List Word × Nat × Bool) (h : s.mem.wf) :
    KeepsWf (s.configGoes d a i x l) := by
  unfold State.configGoes
  repeat' split
  all_goals simp [h]
@[simp] theorem keepsWf_pnFinish (s : State) (d a : GReg) (h : s.mem.wf) : KeepsWf (s.pnFinish d a) := by
  unfold State.pnFinish
  dsimp only
  split
  · simp [h]
  · split
    · simp [h]
    · split
      · split <;> simp [h]
      · split
        · split <;> simp [h]
        · rename_i hw
          rw [keepsWf_next, State.advance_mem, State.writeG_mem hw, State.afterReads_mem]
          repeat' split
          all_goals simp [h]
theorem keepsWf_pnInstr {d a : GReg} {prepare : Word → State → Except (Trap × State) ((Option (PnOp × Word)) × State)} {s : State} (h : s.mem.wf)
    (hp : ∀ w r, prepare w s = r → ∀ t, (∃ x, r = .error (x, t)) ∨ (∃ o, r = .ok (o, t)) → t.mem.wf) : KeepsWf (pnInstr d a prepare s) := by
  unfold pnInstr
  split
  · simp [h]
  · split
    · simp [h]
    · split
      · simp [h]
      · dsimp only
        split
        · simp [h]
        · split
          · rename_i x t ht
            simpa using hp _ _ ht t (.inl ⟨x, rfl⟩)
          · rename_i t ht
            simpa using hp _ _ ht t (.inr ⟨_, rfl⟩)
          · rename_i o n t ht
            have h1 := hp _ _ ht t (.inr ⟨_, rfl⟩)
            split <;> simp [h1]
/-- A command keeps memory canonical when what it runs does. -/
theorem keepsWf_command {check : Cmd → State → Option (BitVec 8)} {run : Nat → Cmd → State → State} {s : State} (h : s.mem.wf)
    (hr : ∀ id c t, t.mem.wf → (run id c t).mem.wf) : KeepsWf (command check run s) := by
  unfold command
  dsimp only
  split
  · simp [h]
  · split
    · simp [h]
    · split
      · exact (keepsWf_next _).mpr (hr _ _ _ h)
      · split
        · simp [h]
        · exact (keepsWf_next _).mpr (hr _ _ _ (by simpa using h))
/-- The state of a stream word that starts or waits. -/
def Started.state : Started → State
  | .yes s => s
  | .no s => s
@[simp] theorem Started.state_yes (s : State) : (Started.yes s).state = s := rfl
@[simp] theorem Started.state_no (s : State) : (Started.no s).state = s := rfl
theorem keepsWf_startWord {run : Nat → SWord → SwHdr → State → Started} {s : State} (h : s.mem.wf)
    (hr : ∀ id w hd t, t.mem.wf → (run id w hd t).state.mem.wf) : KeepsWf (startWord run s) := by
  unfold startWord
  dsimp only
  split
  · simp [h]
  · split
    · simp [h]
    · split
      · simp [h]
      · rename_i w _ _ hd _ _
        have h1 := hr s.focus.word { w with stage := .running } hd (s.setWord s.focus.word { w with stage := .running }) h
        split
        · rename_i t ht
          rw [ht] at h1
          rw [keepsWf_next, State.modPlot_mem]
          split <;> simpa using h1
        · rename_i t ht
          rw [ht] at h1
          rw [keepsWf_next]
          split <;> simpa using h1
theorem keepsWf_asWord {i : Instr} {s : State} {r : Result} (h : s.mem.wf) (hr : KeepsWf r) : KeepsWf (asWord i s r) := by
  unfold asWord
  split
  · split
    · exact hr
    · simp [h]
  · simp [h]
theorem keepsWf_copyWord {prepare : Nat → SWord → State → State} {s : State} (h : s.mem.wf) (hp : ∀ id w t, t.mem.wf → (prepare id w t).mem.wf) :
    KeepsWf (copyWord prepare s) := by
  unfold copyWord
  dsimp only
  split
  · simp [h]
  · split
    · split <;> simp [h]
    · exact keepsWf_startWord h fun id w _ t ht => hp id w t ht
@[simp] theorem keepsWf_bindWord (hd : SwHdr) (read : Bool) (rc : BitVec 13) (hold : Bool) (s : State) (h : s.mem.wf) :
    KeepsWf (bindWord hd read rc hold s) := by
  unfold bindWord
  dsimp only
  split
  · simp [h]
  · split
    · repeat' split
      all_goals simp [h]
    · exact keepsWf_startWord h fun id w hd t ht => t.bindStart_wf _ _ _ _ _ _ ht
@[simp] theorem keepsWf_pnWord (s : State) (h : s.mem.wf) : KeepsWf (pnWord s) := by
  unfold pnWord
  dsimp only
  split
  · simp [h]
  · split
    · split <;> simp [h]
    · refine keepsWf_startWord h fun id w _ t ht => ?_
      repeat' split
      all_goals simp [ht]
@[simp] theorem keepsWf_startBn (s : State) (h : s.mem.wf) : KeepsWf (startBn s) := by
  have hgo : KeepsWf (startWord (fun id w _ s =>
      let owners := s.bnOwners w.plot w.instr
      let far := owners.filter (· != dieOf w.plot)
      let here := if owners.contains (dieOf w.plot) then [(dieOf w.plot, s.nextId)] else []
      if far.any s.isRemoved then .yes (s.wordFault id 0x48 0 0)
      else .yes ((({ s with nextId := s.nextId + 1 } : State).askEngines id { w with came := here } far).buntDrain s.words.length)) s) := by
    refine keepsWf_startWord h fun id w _ t ht => ?_
    dsimp only
    split <;> simp [ht]
  unfold startBn
  dsimp only
  split
  · split
    · simp [h]
    · exact hgo
  · exact hgo
theorem keepsWf_regionOp {d a : GReg} {f : Option (Nat × Region) → State → Except Trap (Option State)} {s : State} (h : s.mem.wf)
    (hf : ∀ o u t, u.mem.wf → f o u = .ok (some t) → t.mem.wf) : KeepsWf (regionOp d a f s) := by
  refine keepsWf_control h fun vs u t hu ht => ?_
  split at ht
  · cases ht
  · dsimp only at ht
    split at ht
    · exact hf _ _ _ hu ht
    · split at ht <;> exact hf _ _ _ hu ht
@[simp] theorem keepsWf_matrixWord (s : State) (h : s.mem.wf) : KeepsWf (matrixWord s) := by
  refine keepsWf_startWord h fun id w _ t ht => ?_
  split <;> simp [ht]

/-! ## The forms that are special cases of these -/

@[simp] theorem keepsWf_intRR (f : Word → Word → Word) (d a b : GReg) (s : State) (h : s.mem.wf) : KeepsWf (intRR f d a b s) := keepsWf_scalar _ _ _ _ _ h
@[simp] theorem keepsWf_intR (size : Nat) (f : Word → Word) (d a : GReg) (s : State) (h : s.mem.wf) : KeepsWf (intR size f d a s) := keepsWf_scalar _ _ _ _ _ h
@[simp] theorem keepsWf_intDiv (f : Word → Word → Word) (d a b : GReg) (s : State) (h : s.mem.wf) : KeepsWf (intDiv f d a b s) := keepsWf_scalar _ _ _ _ _ h
@[simp] theorem keepsWf_branch (f : Word → Word → Bool) (a b : GReg) (imm : BitVec 16) (s : State) (h : s.mem.wf) : KeepsWf (branch f a b imm s) :=
  keepsWf_transfer _ _ _ h
@[simp] theorem keepsWf_branchVal (want : Bool) (a : GReg) (imm : BitVec 16) (s : State) (h : s.mem.wf) : KeepsWf (branchVal want a imm s) :=
  keepsWf_transfer _ _ _ h
@[simp] theorem keepsWf_loadOp (size : Nat) (d a : GReg) (oc : BitVec 3) (acq : Bool) (t : BitVec 3) (disp : Word) (s : State) (h : s.mem.wf) :
    KeepsWf (loadOp size d a oc acq t disp s) := keepsWf_memAccess _ _ _ _ _ _ _ _ h
@[simp] theorem keepsWf_storeOp (size : Nat) (x a : GReg) (oc : BitVec 3) (rel : Bool) (t : BitVec 3) (disp : Word) (s : State) (h : s.mem.wf) :
    KeepsWf (storeOp size x a oc rel t disp s) := keepsWf_memAccess _ _ _ _ _ _ _ _ h
@[simp] theorem keepsWf_loadV (size : Nat) (d : VNum) (a : GReg) (oc : BitVec 3) (fmt : BitVec 4) (disp : Word) (s : State) (h : s.mem.wf) :
    KeepsWf (loadV size d a oc fmt disp s) := keepsWf_memAccess _ _ _ _ _ _ _ _ h
@[simp] theorem keepsWf_storeV (size : Nat) (x : VNum) (a : GReg) (oc : BitVec 3) (fmt : BitVec 4) (disp : Word) (s : State) (h : s.mem.wf) :
    KeepsWf (storeV size x a oc fmt disp s) := by
  unfold storeV
  exact keepsWf_memAccess _ _ _ _ _ _ _ _ h
@[simp] theorem keepsWf_amoOp (sel : BitVec 4) (d a b : GReg) (k : BitVec 2) (w : Bool) (oc : BitVec 3) (s : State) (h : s.mem.wf) :
    KeepsWf (amoOp sel d a b k w oc s) := keepsWf_memAccess _ _ _ _ _ _ _ _ h
@[simp] theorem keepsWf_redOp (sel : BitVec 4) (a b : GReg) (rel w : Bool) (oc : BitVec 3) (s : State) (h : s.mem.wf) :
    KeepsWf (redOp sel a b rel w oc s) := keepsWf_memAccess _ _ _ _ _ _ _ _ h
@[simp] theorem keepsWf_vfpOp (vs : List VNum) (d : VNum) (m : BitVec 3) (f : Nat → Nat → Bool → List Nat → Lane × Flags) (s : State) (h : s.mem.wf) :
    KeepsWf (vfpOp vs d m f s) := keepsWf_vectorOp _ _ _ _ _ h
@[simp] theorem keepsWf_vintOp (a b d : VNum) (plain : Bool) (f : Nat → Nat → Nat → Nat) (s : State) (h : s.mem.wf) : KeepsWf (vintOp a b d plain f s) :=
  keepsWf_vectorOp _ _ _ _ _ h
@[simp] theorem keepsWf_vbitOp (a b d : VNum) (f : BitVec 32 → BitVec 32 → BitVec 32) (s : State) (h : s.mem.wf) : KeepsWf (vbitOp a b d f s) :=
  keepsWf_vectorOp _ _ _ _ _ h
@[simp] theorem keepsWf_vshiftR (a b d : VNum) (f : Nat → Nat → Nat → Nat) (s : State) (h : s.mem.wf) : KeepsWf (vshiftR a b d f s) :=
  keepsWf_vectorOp _ _ _ _ _ h
@[simp] theorem keepsWf_vshiftI (a d : VNum) (n : BitVec 6) (f : Nat → Nat → Nat → Nat) (s : State) (h : s.mem.wf) : KeepsWf (vshiftI a d n f s) :=
  keepsWf_vectorOp _ _ _ _ _ h
@[simp] theorem keepsWf_reduceOp (d a : VNum) (comb : Nat → Bool → Nat → Nat → Nat × Flags) (fin : Nat → List (Option Nat) → Option (Nat × Flags)) (s : State)
    (h : s.mem.wf) : KeepsWf (reduceOp d a comb fin s) := keepsWf_vectorOp _ _ _ _ _ h
@[simp] theorem keepsWf_convertOp (d a : VNum) (gs : List GReg) (p : BitVec 3) (src dst : BitVec 16 → Bool)
    (one : List Val → BitVec 16 → BitVec 16 → Nat → Lane × Flags) (s : State) (h : s.mem.wf) : KeepsWf (convertOp d a gs p src dst one s) :=
  keepsWf_vectorOp _ _ _ _ _ h
@[simp] theorem keepsWf_vvalQuery (d a : VNum) (s : State) (h : s.mem.wf) : KeepsWf (vvalQuery d a s) := keepsWf_vectorOp _ _ _ _ _ h
@[simp] theorem keepsWf_vvalApply (d a b : VNum) (s : State) (h : s.mem.wf) : KeepsWf (vvalApply d a b s) := keepsWf_vectorOp _ _ _ _ _ h

end Sys2Proof.Machine
end

section
/-! PROOF. Memory stays canonical: the instructions of a core (R69, R157). -/

namespace Sys2Proof.Machine

/-! ## The instructions of a core that do more than a form says -/

@[simp] theorem keepsWf_execArc (d : GReg) (id : BitVec 8) (k : BitVec 2) (oc : BitVec 3) (s : State) (h : s.mem.wf) : KeepsWf (execArc d id k oc s) := by
  unfold execArc
  dsimp only
  repeat' split
  all_goals simp [h]
@[simp] theorem keepsWf_execEvsig (a : GReg) (e : BitVec 8) (s : State) (h : s.mem.wf) : KeepsWf (execEvsig a e s) := by
  refine keepsWf_control h fun vs u t hu ht => ?_
  split at ht
  · cases ht
  · split at ht
    · cases ht
    · dsimp only at ht
      split at ht
      · cases ht
      · split at ht <;> (cases ht; simpa using hu)
@[simp] theorem keepsWf_execEvwait (d : GReg) (e : BitVec 8) (s : State) (h : s.mem.wf) : KeepsWf (execEvwait d e s) := by
  unfold execEvwait
  extract_lets me
  split
  · simp [h]
  · split
    · simp [h]
    · split
      · simp [h]
      · extract_lets first s1
        clear_value first
        split
        · simp [h]
        · split
          · simp [h]
          · have h1 : s1.mem = s.mem := by simp [s1]
            split
            · simp [h]
            · simp [State.writeG_mem ‹_›, h1, h]
@[simp] theorem keepsWf_execBarrive (d : GReg) (e : BitVec 8) (s : State) (h : s.mem.wf) : KeepsWf (execBarrive d e s) := by
  unfold execBarrive
  split
  · simp [h]
  · split
    · repeat' split
      all_goals simp [h]
    · refine keepsWf_control h fun vs u t hu ht => ?_
      split at ht
      · cases ht
      · split at ht
        · cases ht
        · split at ht
          · cases ht
          · rename_i s1 n hb
            split at ht
            · cases ht
            · simpa [State.answerG_mem ht, State.meetBarrier_mem hb] using hu
@[simp] theorem keepsWf_execBwait (d : GReg) (e : BitVec 8) (s : State) (h : s.mem.wf) : KeepsWf (execBwait d e s) := by
  unfold execBwait
  dsimp only
  split
  · simp [h]
  · split
    · simp [h]
    · split
      · simp [h]
      · split
        · simp [h]
        · split
          · simp [h]
          · simp [State.writeG_mem ‹_›, h]
@[simp] theorem keepsWf_execBskip (a : GReg) (e : BitVec 8) (s : State) (h : s.mem.wf) : KeepsWf (execBskip a e s) := by
  unfold execBskip
  split
  · simp [h]
  · split
    · repeat' split
      all_goals simp [h]
    · refine keepsWf_control h fun vs u t hu ht => ?_
      split at ht
      · cases ht
      · split at ht
        · cases ht
        · split at ht
          · cases ht
          · split at ht
            · cases ht
            · rename_i s1 n hb
              split at ht
              · cases ht
              · cases ht
                simpa [State.meetBarrier_mem hb] using hu
@[simp] theorem keepsWf_execPrio (c : BitVec 2) (s : State) (h : s.mem.wf) : KeepsWf (execPrio c s) := by
  unfold execPrio
  dsimp only
  repeat' split
  all_goals simp [h]
@[simp] theorem keepsWf_execTrigbind (d a b : GReg) (s : State) (h : s.mem.wf) : KeepsWf (execTrigbind d a b s) := by
  refine keepsWf_control h fun vs u t hu ht => ?_
  split at ht
  · cases ht
  · dsimp only at ht
    split at ht
    · cases ht
    · split at ht
      · cases ht
      · split at ht
        · cases ht
        · simpa [State.answerG_mem ht] using hu
@[simp] theorem keepsWf_execTrigdrop (d a : GReg) (s : State) (h : s.mem.wf) : KeepsWf (execTrigdrop d a s) := by
  refine keepsWf_control h fun vs u t hu ht => ?_
  split at ht
  · cases ht
  · dsimp only at ht
    split at ht
    · cases ht
    · simpa [State.answerG_mem ht] using hu
@[simp] theorem keepsWf_execFreeze (d a : GReg) (s : State) (h : s.mem.wf) : KeepsWf (execFreeze d a s) := by
  refine keepsWf_regionOp h fun o u t hu ht => ?_
  split at ht <;> simpa [State.answerG_mem ht] using hu
@[simp] theorem keepsWf_execThaw (d a : GReg) (s : State) (h : s.mem.wf) : KeepsWf (execThaw d a s) := by
  refine keepsWf_regionOp h fun o u t hu ht => ?_
  split at ht
  · simpa [State.answerG_mem ht] using hu
  · split at ht
    · simpa [State.answerG_mem ht] using hu
    · split at ht
      · cases ht
      · rw [State.answerG_mem ht]
        exact State.pumpInst_wf _ _ (by simpa using hu)
@[simp] theorem keepsWf_execPndef (d a : GReg) (s : State) (h : s.mem.wf) : KeepsWf (execPndef d a s) := by
  refine keepsWf_pnInstr h fun va r hr t ht => ?_
  subst hr
  dsimp only at ht
  split at ht
  · rcases ht with ⟨x, hx⟩ | ⟨o, hx⟩ <;> cases hx
    exact h
  · split at ht
    · rename_i s1 hr
      rcases ht with ⟨x, hx⟩ | ⟨o, hx⟩ <;> cases hx
      rw [show t.mem = s.mem from State.engineRead_mem hr]
      exact h
    · rename_i c v n l s1 hr
      have hm : s1.mem = s.mem := State.engineRead_mem hr
      rcases ht with ⟨x, hx⟩ | ⟨o, hx⟩ <;> cases hx
      simp [hm, h]
    · rename_i ws s1 hr
      have hm : s1.mem = s.mem := State.engineRead_mem hr
      split at ht <;> rcases ht with ⟨x, hx⟩ | ⟨o, hx⟩ <;> cases hx <;> simp [hm, h]
/-- A PENNANT instruction whose name stands in the register leaves the state as it was before its request. -/
theorem keepsWf_pnInstr_pure {d a : GReg} {op : PnOp} {s : State} (h : s.mem.wf) : KeepsWf (pnInstr d a (fun n s => .ok (some (op, n), s)) s) := by
  refine keepsWf_pnInstr h fun w r hr t ht => ?_
  subst hr
  rcases ht with ⟨x, hx⟩ | ⟨o, hx⟩ <;> cases hx
  exact h
@[simp] theorem keepsWf_execSqset (q : QNum) (a b : GReg) (k : BitVec 2) (s : State) (h : s.mem.wf) : KeepsWf (execSqset q a b k s) := by
  unfold execSqset
  split
  · simp [h]
  · refine keepsWf_control h fun vs u t hu ht => ?_
    split at ht
    · cases ht
    · cases ht
      simpa using hu
@[simp] theorem keepsWf_execSqiss (d : GReg) (q : QNum) (s : State) (h : s.mem.wf) : KeepsWf (execSqiss d q s) := by
  unfold execSqiss
  split
  · simp [h]
  · split
    · simp [h]
    · refine keepsWf_control h fun vs u t hu ht => ?_
      dsimp only at ht
      split at ht
      · cases ht
      · split at ht
        · cases ht
        · rw [State.answerG_mem ht, State.modCur_mem, State.modPlot_mem]
          repeat' split
          all_goals simpa using hu
@[simp] theorem keepsWf_execSqwait (a : GReg) (s : State) (h : s.mem.wf) : KeepsWf (execSqwait a s) := by
  refine keepsWf_control h fun vs u t hu ht => ?_
  split at ht
  · cases ht
  · dsimp only at ht
    split at ht
    · cases ht
    · cases ht
      exact hu
@[simp] theorem keepsWf_execConfig (d a : GReg) (s : State) (h : s.mem.wf) : KeepsWf (execConfig d a s) := by
  unfold execConfig
  dsimp only
  split
  · simp [h]
  · split
    · simp [h]
    · split
      · simp [h]
      · split
        · simp [h]
        · split
          · simp [h]
          · split
            · simp [h]
            · split
              · rename_i s1 hr
                have hm : s1.mem = s.mem := State.readContainer_mem hr
                simp [hm, h]
              · rename_i c n s1 hr
                have hm : s1.mem = s.mem := State.readContainer_mem hr
                simp [hm, h]
              · rename_i qs s1 hr
                have hm : s1.mem = s.mem := State.readContainer_mem hr
                repeat' split
                all_goals simp [hm, h]
@[simp] theorem keepsWf_execArm (d a : GReg) (s : State) (h : s.mem.wf) : KeepsWf (execArm d a s) := by
  refine keepsWf_regionOp h fun o u t hu ht => ?_
  split at ht
  · simpa [State.answerG_mem ht] using hu
  · split at ht
    · simpa [State.answerG_mem ht] using hu
    · split at ht
      · simpa [State.answerG_mem ht] using hu
      · split at ht
        · cases ht
        · rw [State.answerG_mem ht]
          exact State.pump_wf _ _ (by simpa using hu)
@[simp] theorem keepsWf_execDisarm (d a : GReg) (s : State) (h : s.mem.wf) : KeepsWf (execDisarm d a s) := by
  unfold execDisarm
  refine keepsWf_regionOp (by split <;> simp [h]) fun o u t hu ht => ?_
  split at ht
  · simpa [State.answerG_mem ht] using hu
  · split at ht
    · cases ht
    · simpa [State.answerG_mem ht] using hu
@[simp] theorem keepsWf_execSyswr (d : GReg) (num : BitVec 12) (s : State) (h : s.mem.wf) : KeepsWf (execSyswr d num s) := by
  refine keepsWf_control h fun vs u t hu ht => ?_
  dsimp only at ht
  split at ht
  · cases ht
  · split at ht
    · cases ht
    · cases ht
      simpa using hu
@[simp] theorem keepsWf_execSavec (a : GReg) (s : State) (h : s.mem.wf) : KeepsWf (execSavec a s) := by
  unfold execSavec
  dsimp only
  repeat' split
  all_goals simp [h]
@[simp] theorem keepsWf_execRestc (a : GReg) (s : State) (h : s.mem.wf) : KeepsWf (execRestc a s) := by
  unfold execRestc
  dsimp only
  repeat' split
  all_goals simp [h]
@[simp] theorem keepsWf_execTcinv (a : GReg) (k : BitVec 2) (s : State) (h : s.mem.wf) : KeepsWf (execTcinv a k s) := by
  refine keepsWf_control h fun vs u t hu ht => ?_
  split at ht
  · cases ht
  · cases ht
    simpa using hu
@[simp] theorem keepsWf_execIdle (a : GReg) (s : State) (h : s.mem.wf) : KeepsWf (execIdle a s) := by
  refine keepsWf_control h fun vs u t hu ht => ?_
  split at ht
  · cases ht
  · cases ht
    simpa using hu

/-- Instructions of a core. -/
theorem keepsWf_exec_of_core (i : Instr) (s : State) (hs : s.mem.wf) (h : i.ctorIdx < 186) : KeepsWf (exec i s) := by
  revert h
  cases i <;> simp only [Instr.ctorIdx, Nat.reduceLT, false_imp_iff, true_imp_iff]
  all_goals simp only [exec.eq_def, execAdd, execSub, execMul, execMulh, execMulhz, execDiv, execDivz, execRem, execRemz, execAnd, execOr, execXor, execAndn,
    execSlt, execSltz, execMin, execMax, execMinz, execMaxz, execSel, execAddImm, execMulImm, execAndImm, execOrImm, execXorImm,
    execSltImm, execSltzImm, execLih, execLi, execLiH, execLeaLong, execAddLong, execMulLong, execAndLong, execOrLong,
    execXorLong, execSltLong, execSltzLong, execShl, execShlImm, execShr, execShrImm, execSar, execSarImm, execRol, execRolImm,
    execClz, execCtz, execPopc, execBrev, execBext, execBins, execLea, execIdx2, execPack, execBeq, execBne, execBlt, execBge,
    execBlo, execBhs, execBval, execBinv, execJal, execJalLong, execJr, execYield, execLoop, execLd, execLdLong, execSt,
    execStLong, execLdv, execLdvLong, execStv, execStvLong, execPrf, execPrfLong, execLdfe, execStfe, execFeq, execFeset,
    execAmadd, execAmmin, execAmmax, execAmminz, execAmmaxz, execAmand, execAmor, execAmxor, execAmswp, execAmcas, execAmfadd,
    execAminc, execRedadd, execRedmin, execRedmax, execRedfadd, execRedor, execFence, execPnatt, execPndet, execPndrop, execPnrel,
    execPnq, execSqld, execVadd, execVsub, execVmul, execVfma, execVfms, execVdiv, execVsqrt, execVrsq, execVrcp, execVmin, execVmax,
    execVabs, execVneg, execVexp2, execVlog2, execVscale, execViadd, execVisub, execVimul, execVimin, execVimax, execVand, execVor,
    execVxor, execVshl, execVshlImm, execVshr, execVshrImm, execVsar, execVsarImm, execVsum, execVhmax, execVhmin, execVcmp,
    execVsel, execVval, execVperm, execVbcast, execVslide, execVcvt, execVqnt, execVdqnt, execVtag, execVtagrd, execVpack,
    execVunpk, execVmov, execVext, execVins, execVzero, execWait, execNop, execTrap, execEret, execSysrd, execIcinv, execBrk,
    keepsWf_next, keepsWf_scalar, keepsWf_memAccess, keepsWf_prefetchOp, keepsWf_vectorOp, keepsWf_intRR, keepsWf_intR, keepsWf_intDiv,
    keepsWf_branch, keepsWf_branchVal, keepsWf_loadOp, keepsWf_storeOp, keepsWf_loadV, keepsWf_storeV, keepsWf_amoOp, keepsWf_redOp,
    keepsWf_vfpOp, keepsWf_vintOp, keepsWf_vbitOp, keepsWf_vshiftR, keepsWf_vshiftI, keepsWf_reduceOp, keepsWf_convertOp,
    keepsWf_pnInstr_pure, hs]
  all_goals repeat' split
  all_goals simp [hs]

end Sys2Proof.Machine
end

section
/-! PROOF. Memory stays canonical: stream words that start (R69, R157). -/

namespace Sys2Proof.Machine

/-! ## Stream words -/

@[simp] theorem keepsWf_execUnbind (hd : SwHdr) (abort : Bool) (s : State) (h : s.mem.wf) : KeepsWf (execUnbind hd abort s) := by
  refine keepsWf_asWord h (keepsWf_startWord h fun id w hd t ht => ?_)
  repeat' split
  all_goals simp [ht]
@[simp] theorem keepsWf_execMcst (hd : SwHdr) (src store : BitVec 13) (eos hasStore : Bool) (s : State) (h : s.mem.wf) :
    KeepsWf (execMcst hd src store eos hasStore s) := by
  refine keepsWf_asWord h ?_
  dsimp only
  split
  · simp [h]
  · split
    · exact keepsWf_startWord h fun id w _ t ht => by simp [ht]
    · split
      · split <;> simp [h]
      · exact keepsWf_startWord h fun id w _ t ht => t.mcstStart_wf id w _ _ _ _ _ ht
@[simp] theorem keepsWf_execPhase (hd : SwHdr) (rc : BitVec 13) (s : State) (h : s.mem.wf) : KeepsWf (execPhase hd rc s) := by
  refine keepsWf_asWord h ?_
  dsimp only
  split
  · simp [h]
  · split
    · split <;> simp [h]
    · exact keepsWf_startWord h fun id w hd t ht => t.phaseStart_wf id w hd _ ht
@[simp] theorem keepsWf_execArrv (hd : SwHdr) (plot : BitVec 13) (ctr : BitVec 4) (batch : BitVec 16) (row n1 : BitVec 6) (s : State) (h : s.mem.wf) :
    KeepsWf (execArrv hd plot ctr batch row n1 s) := by
  refine keepsWf_asWord h (keepsWf_startWord h fun id w _ t ht => ?_)
  repeat' split
  all_goals simp [ht]
@[simp] theorem keepsWf_execPatch (hd : SwHdr) (queue : BitVec 8) (slot : BitVec 2) (tag : BitVec 16) (value : BitVec 32) (voff : BitVec 19)
    (indirect : Bool) (s : State) (h : s.mem.wf) : KeepsWf (execPatch hd queue slot tag value voff indirect s) := by
  refine keepsWf_asWord h (keepsWf_startWord h fun id w _ t ht => ?_)
  dsimp only
  repeat' split
  all_goals simp [ht]
@[simp] theorem keepsWf_execEvt (hd : SwHdr) (event : BitVec 8) (amount : BitVec 16) (s : State) (h : s.mem.wf) : KeepsWf (execEvt hd event amount s) := by
  refine keepsWf_asWord h (keepsWf_startWord h fun id w _ t ht => ?_)
  dsimp only
  repeat' split
  all_goals simp [ht]
@[simp] theorem keepsWf_execSteer (hd : SwHdr) (ioff : BitVec 19) (n1 : BitVec 8) (s : State) (h : s.mem.wf) : KeepsWf (execSteer hd ioff n1 s) := by
  refine keepsWf_asWord h ?_
  dsimp only
  split
  · simp [h]
  · split
    · exact keepsWf_startWord h fun id w _ t ht => by simp [ht]
    · split
      · split <;> simp [h]
      · refine keepsWf_startWord h fun id w _ t ht => ?_
        split <;> simp [ht]
@[simp] theorem keepsWf_execRingMember (hd : SwHdr) (mask : Word) (w : BitVec 3) (e0 m1 : BitVec 6) (acc : Bool) (s : State) (h : s.mem.wf) :
    KeepsWf (execRingMember hd mask w e0 m1 acc s) := by
  refine keepsWf_asWord h (keepsWf_startWord h fun id w _ t ht => ?_)
  repeat' split
  all_goals simp [ht]
@[simp] theorem keepsWf_execRingSource (hd : SwHdr) (rc : BitVec 13) (x0 nexp1 m1 : BitVec 6) (lines1 : BitVec 7) (passes1 : BitVec 8) (s : State)
    (h : s.mem.wf) : KeepsWf (execRingSource hd rc x0 nexp1 m1 lines1 passes1 s) := by
  refine keepsWf_asWord h ?_
  dsimp only
  split
  · simp [h]
  · split
    · split <;> simp [h]
    · refine keepsWf_startWord h fun id w _ t ht => ?_
      repeat' split
      all_goals simp [ht]
@[simp] theorem keepsWf_execRace (hd : SwHdr) (soff : BitVec 19) (t1 : BitVec 13) (ooff : BitVec 19) (e1 : BitVec 6) (k1 : BitVec 3) (coff : BitVec 19)
    (wcnt : Bool) (s : State) (h : s.mem.wf) : KeepsWf (execRace hd soff t1 ooff e1 k1 coff wcnt s) :=
  keepsWf_asWord h (keepsWf_startWord h fun id w _ t ht => by simp [ht])

/-- Stream words. -/
theorem keepsWf_exec_of_word (i : Instr) (s : State) (hs : s.mem.wf) (h : 186 ≤ i.ctorIdx ∧ i.ctorIdx < 213) : KeepsWf (exec i s) := by
  revert h
  cases i <;> simp only [Instr.ctorIdx, Nat.reduceLeDiff, Nat.reduceLT, false_imp_iff, true_imp_iff, and_true, and_false]
  all_goals simp only [exec.eq_def, keepsWf_execUnbind, keepsWf_execMcst, keepsWf_execPhase, keepsWf_execArrv, keepsWf_execPatch, keepsWf_execEvt,
    keepsWf_execSteer, keepsWf_execRingMember, keepsWf_execRingSource, keepsWf_execRace, hs]
  case cpy | cpyp | gath | scat => exact keepsWf_asWord hs (keepsWf_copyWord hs fun id w t ht => by simp [ht])
  all_goals exact keepsWf_asWord hs (by simp [hs])

end Sys2Proof.Machine
end

section
/-! PROOF. Memory stays canonical: events (R69, R157). -/

namespace Sys2Proof.Machine

/-! ## Events -/

@[simp] theorem keepsWf_execFlitArrive (id : Nat) (s : State) (h : s.mem.wf) : KeepsWf (execFlitArrive id s) := by
  unfold execFlitArrive
  split
  · split
    · simp [h]
    · split
      · simp [State.intoSaved_mem ‹_›, h]
      · split <;> simp [h]
  · simp [h]
@[simp] theorem keepsWf_execPermitReceive (id : Nat) (s : State) (h : s.mem.wf) : KeepsWf (execPermitReceive id s) := by
  unfold execPermitReceive
  split
  · extract_lets plot
    clear_value plot
    split
    · simp [h]
    · split
      · simp [State.intoSaved_mem ‹_›, h]
      · repeat' split
        all_goals simp [h]
  · simp [h]
@[simp] theorem keepsWf_execGuidonDoneReceive (id : Nat) (s : State) (h : s.mem.wf) : KeepsWf (execGuidonDoneReceive id s) := by
  unfold execGuidonDoneReceive
  split
  · split
    · simp [h]
    · split
      · simp [State.intoSaved_mem ‹_›, h]
      · simp [h]
  · simp [h]
@[simp] theorem keepsWf_execArrvApply (id : Nat) (s : State) (h : s.mem.wf) : KeepsWf (execArrvApply id s) := by
  unfold execArrvApply
  split
  · extract_lets done a s1
    have hd (t : State) : (done t).mem = t.mem := by
      unfold done
      split <;> rfl
    split
    · rename_i t ht
      have hm := State.intoSaved_mem ht
      split <;> simp [hd, hm, h]
    · simp [hd, s1, h]
  · simp [h]
@[simp] theorem keepsWf_execLoadComplete (id : Nat) (s : State) (h : s.mem.wf) : KeepsWf (execLoadComplete id s) := by
  unfold execLoadComplete
  split
  · simp [h]
  · split
    · simp [h]
    · split
      · simp [h]
      · dsimp only
        split <;> simp [h]
@[simp] theorem keepsWf_execReadResponseMerge (id : Nat) (s : State) (h : s.mem.wf) : KeepsWf (execReadResponseMerge id s) := by
  unfold execReadResponseMerge
  dsimp only
  repeat' split
  all_goals simp [h]
@[simp] theorem keepsWf_execReadServe (id : Nat) (s : State) (h : s.mem.wf) : KeepsWf (execReadServe id s) := by
  unfold execReadServe
  split
  · simp [h]
  · rename_i r _
    split
    · simp [h]
    · extract_lets hit s0 waiting s1 s2
      have hh : ∀ x, hit = some x → x.1.mem = s.mem := by
        intro x hx
        have hc := s.choose_mem
        unfold hit at hx
        split at hx
        · split at hx
          · split at hx <;> (cases hx; simp_all)
          · cases hx
        · cases hx
      have h0 : s0.mem = s.mem := by
        cases hx : hit with
        | none => simp [s0, hx]
        | some x => simpa [s0, hx] using hh x hx
      have h2 : s2.mem = s.mem := by
        unfold s2
        repeat' split
        all_goals simp [s1, h0]
      have hw : waiting.mem = s.mem := by simp [waiting, h0]
      clear_value s2 s1 waiting s0 hit
      split
      · rw [keepsWf_next, show State.mem _ = s.mem from hh _ rfl]
        exact h
      · repeat' split
        all_goals simp [h0, hw, h2, h]
@[simp] theorem keepsWf_execPageWalk (id : Nat) (s : State) (h : s.mem.wf) : KeepsWf (execPageWalk id s) := by
  unfold execPageWalk
  split
  · simp [h]
  · split
    · simp [h]
    · split
      · split
        · simp [State.prefetchNow_mem ‹_›, h]
        · simp [h]
      · split
        · split <;> simp [h]
        · split
          · simp [h]
          · split
            · simp [h]
            · simp [h]
            · rename_i s1 h1
              have hm := State.walkTables_mem h1
              split
              · simp [hm, h]
              · split <;> simp [hm, h]
@[simp] theorem keepsWf_execRingHeaterSaturate (stack : BitVec 4) (wg : BitVec 5) (wl : BitVec 4) (s : State) (h : s.mem.wf) :
    KeepsWf (execRingHeaterSaturate stack wg wl s) := by
  unfold execRingHeaterSaturate
  dsimp only
  split
  · simp [h]
  · split
    · simp [h]
    · rw [keepsWf_next, State.foldl_mem _ fun t e => t.report_mem _ _ _]
      simp [h]
@[simp] theorem keepsWf_execFiringStart (plot : BitVec 13) (slot : BitVec 3) (s : State) (h : s.mem.wf) : KeepsWf (execFiringStart plot slot s) := by
  unfold execFiringStart
  dsimp only
  split
  · simp [h]
  · split
    · simp [h]
    · rw [keepsWf_next, State.flushL1_mem, State.modSlot_mem, State.foldl_mem _ fun t j => t.modSlot_mem _ _ _]
      exact h
@[simp] theorem keepsWf_execPowerOn (boot : BootChoices) (s : State) (h : s.mem.wf) : KeepsWf (execPowerOn boot s) := by
  unfold execPowerOn
  extract_lets s1 s2 s3 s4 s5
  have h2 : s2.mem = s.mem := State.foldl_mem _ (fun t e => t.modDie_mem _ _) _ _
  have h3 : s3.mem.wf := State.foldl_wf _ (fun t e ht => t.dcarve_wf _ _ ht) _ (by rwa [h2])
  have h5 : s5.mem = s3.mem := State.foldl_mem _ (fun t e => t.modDie_mem _ _) _ _
  split
  · simp [h]
  · rw [keepsWf_next, State.foldl_mem _ fun t e => t.failDie_mem _ _, h5]
    exact h3
@[simp] theorem keepsWf_execChannelBeatArrive (id : Nat) (s : State) (h : s.mem.wf) : KeepsWf (execChannelBeatArrive id s) := by
  unfold execChannelBeatArrive
  split
  · simp [h]
  · extract_lets first b s1 s2 s3 s4
    have h2 : s2.mem = s.mem := by
      unfold s2
      split <;> simp [s1]
    have h3 : s3.mem = s.mem := (State.foldl_mem _ (fun t d => t.takeIn_mem _ _) _ _).trans h2
    have h4 : s4.mem = s.mem := by
      unfold s4
      split <;> simp [h3]
    split
    · simp [h]
    · exact (keepsWf_next _).mpr (State.foldl_wf _ (fun t d ht => t.pumpPort_wf _ ht) _ (State.pumpPort_wf _ _ (by rwa [h4])))

/-- Events. -/
theorem keepsWf_exec_of_event (i : Instr) (s : State) (hs : s.mem.wf) (h : 244 ≤ i.ctorIdx) : KeepsWf (exec i s) := by
  revert h
  cases i <;> simp only [Instr.ctorIdx, Nat.reduceLeDiff, false_imp_iff, true_imp_iff]
  all_goals simp only [exec.eq_def, keepsWf_execFlitArrive, keepsWf_execPermitReceive, keepsWf_execGuidonDoneReceive, keepsWf_execArrvApply,
    keepsWf_execLoadComplete, keepsWf_execReadResponseMerge, keepsWf_execReadServe, keepsWf_execPageWalk, keepsWf_execRingHeaterSaturate,
    keepsWf_execFiringStart, keepsWf_execPowerOn, keepsWf_execChannelBeatArrive, hs]
  all_goals simp only [execStorePerform, execAmoPerform, execRedPerform, execHostPageAccess, execCountedPacketSend, execPacketArrive, execDeliveryAck,
    execFrontierRequest, execFrontierFlitSend, execFrontierFlitReceive, execMastLinkError, execRebaseQuiet, execRebaseReset, execRingRetune,
    execRingReassignDone, execVbusRetrain, execVbusRetrainForced, execVbusRetrainEnd, execDeadlockRecoveryStart, execDeadlockRecoveryEnd, execDcarveWrite,
    execControlRegisterWrite, execBindrBeat, execBindwBeat, execStreamWordComplete, execMtokConsumed, execMtokDone, execRingGroupProduct, execPlotWake,
    execConfigScrub, execRegionReloadDone, execStorageScrub, execBarrierTimeout, execActorDone, execWatchdog, execIdleTimeout, execAsyncTrap,
    execPreemptRegionFreeze, execPennantIdleEvict, execDoorbell, execCommandDispatch, execPatchArrive, execCommandComplete, execSessionOpen,
    execSessionClose, execAttest, execSyncstate, execSessionTimeout, execQpLinkDown, execRdmaAtomic, execThermalLimit, execCriticalTrip,
    execRdmaWrite, execHostWriteAcknowledged, execPeerWriteAcknowledged, execTemperatureBelowLimit, execDefectEntryAdded, keepsWf_next]
  all_goals repeat' split
  all_goals simp [hs, State.foldl_mem]

end Sys2Proof.Machine
end

section
/-! PROOF. Memory stays canonical: commands and faults (R69, R157). -/

namespace Sys2Proof.Machine

/-! ## Commands -/

@[simp] theorem keepsWf_execImageInstall (pa root : BitVec 48) (k : BitVec 5) (gang : Bool) (members1 : BitVec 2) (remaps : List (BitVec 24))
    (others : List (BitVec 48)) (s : State) (h : s.mem.wf) : KeepsWf (execImageInstall pa root k gang members1 remaps others s) := by
  refine keepsWf_command h fun id c t ht => ?_
  split
  · split
    · simp [ht]
    · rename_i s1 h1
      have hs1 := State.installPlan_wf ht h1
      dsimp only
      split <;> simp [ht, hs1]
  · split <;> simp [ht]
@[simp] theorem keepsWf_execBindStreams (image : Word) (sink : BitVec 8) (pna pnb : Word) (exts : List (List Word)) (s : State) (h : s.mem.wf) :
    KeepsWf (execBindStreams image sink pna pnb exts s) := by
  unfold execBindStreams
  dsimp only
  split
  · simp [h]
  · split
    · simp [h]
    · split
      · simp [h]
      · split
        · simp [h]
        · split
          · rename_i cause s1 ho
            have h1 : s1.mem.wf := State.bindItems_wf (State.launchRecords_wf _ _ _ h) (.inr ⟨cause, ho⟩)
            simp [h1]
          · rename_i s1 ho
            have h1 : s1.mem.wf := State.bindItems_wf (State.launchRecords_wf _ _ _ h) (.inl ho)
            rw [keepsWf_next]
            split <;> simp [h1]
@[simp] theorem keepsWf_execPreempt (inst : BitVec 16) (s : State) (h : s.mem.wf) : KeepsWf (execPreempt inst s) := by
  refine keepsWf_command h fun id c t ht => ?_
  extract_lets l halted entered
  have hh : halted.mem = t.mem := by
    refine State.foldl_mem _ (fun u i => ?_) _ _
    split <;> simp
  have he : entered.mem = t.mem := by
    refine State.foldl_mem _ (fun u i => ?_) _ _
    repeat' split
    all_goals simp
  clear_value halted entered
  split
  · simp [hh, ht]
  · split <;> simp [he, ht]
/-- What goes on from a state that it leaves canonical is canonical. -/
theorem runOn_wf {f : State → Result} {s : State} (h : s.mem.wf) (hf : KeepsWf (f s)) : (runOn f s).mem.wf := by
  unfold runOn
  split
  · exact hf _ ‹_›
  · exact h
@[simp] theorem State.replayItem_wf (s : State) (plot : Nat) (e : Nat × Payload) (h : s.mem.wf) : (s.replayItem plot e).mem.wf := by
  unfold State.replayItem
  dsimp only
  split
  · exact runOn_wf h (keepsWf_execFlitArrive _ _ h)
  · exact runOn_wf h (keepsWf_execPermitReceive _ _ h)
  · exact runOn_wf h (keepsWf_execGuidonDoneReceive _ _ h)
  · exact runOn_wf h (keepsWf_execArrvApply _ _ h)
  · simp [h]
@[simp] theorem State.replay_wf (s : State) (i : Nat) (h : s.mem.wf) : (s.replay i).mem.wf := by
  unfold State.replay
  split
  · exact h
  · exact State.foldl_wf _ (fun t c ht => State.foldl_wf _ (fun u e hu => u.replayItem_wf _ _ hu) _ ht) _ (by simp [h])
@[simp] theorem State.deliverHeld_wf (s : State) (plots : List Nat) (h : s.mem.wf) : (s.deliverHeld plots).mem.wf := by
  refine State.foldl_wf _ (fun t e ht => ?_) _ h
  split
  · have h1 := runOn_wf ht (keepsWf_execReadResponseMerge e.1 t ht)
    exact runOn_wf h1 (keepsWf_execLoadComplete e.1 _ h1)
  · exact ht
@[simp] theorem keepsWf_execRestore (inst : BitVec 16) (s : State) (h : s.mem.wf) : KeepsWf (execRestore inst s) := by
  refine keepsWf_command h fun id c t ht => ?_
  have hsave (v : Saved) (u : State) (l : List Nat) : (l.foldl (fun s i => s.modInst i fun x => { x with saved := v }) u).mem = u.mem :=
    State.foldl_mem _ (fun t e => t.modInst_mem _ _) _ _
  extract_lets l is keys plots s0 s1 s2 s3
  have hr : (l.foldl (fun s i => s.resumeTimers i) t).mem = t.mem := State.foldl_mem _ (fun t e => t.resumeTimers_mem _) _ _
  have h0 : s0.mem.wf := State.foldl_wf _ (fun t i hu => t.replay_wf _ hu) _ (by rwa [hr])
  have h1 : s1.mem.wf := State.deliverHeld_wf _ _ (by rwa [hsave])
  have h3 : s3.mem = s1.mem := State.foldl_mem _ (fun t e => t.modPlot_mem _ _) _ _
  split
  · split
    · exact ht
    · split
      · rw [State.cmdDone_mem, State.foldl_mem _ fun t e => by simp]
        exact ht
      · split
        · exact State.refill_wf _ _ ht
        · rw [State.modCmd_mem, hsave]
          exact ht
  · split
    · rw [State.cmdDone_mem, hsave]
      exact ht
    · split
      · rw [State.cmdDone_mem]
        exact State.foldl_wf _ (fun t e hu => t.pumpInst_wf _ hu) _ (by rwa [h3])
      · exact ht
@[simp] theorem keepsWf_execDieFence (die : BitVec 3) (s : State) (h : s.mem.wf) : KeepsWf (execDieFence die s) := by
  refine keepsWf_command h fun id c t ht => ?_
  extract_lets d s1 s1' r
  have h1 : s1.mem.wf := State.foldl_wf _ (fun u i hu => u.killInst_wf _ hu) _ ht
  have hr : r.2.mem = t.mem := by
    unfold r
    rw [State.recount_mem, State.foldl_mem _ fun u e => u.report_mem _ _ _]
    simp [s1']
  split
  · split <;> simp [ht, h1]
  · split <;> simp [ht, hr]
@[simp] theorem keepsWf_execHostCopy (hoff : BitVec 48) (addr : Word) (len : BitVec 40) (toHost phys : Bool) (inst : BitVec 16) (s : State) (h : s.mem.wf) :
    KeepsWf (execHostCopy hoff addr len toHost phys inst s) := by
  refine keepsWf_command h fun id c t ht => ?_
  dsimp only
  split
  · split
    · split
      · exact ht
      · split
        · simp [ht]
        · rw [State.cmdDone_mem]
          exact State.foldl_wf _ (fun u e hu => u.storeAt_wf _ _ hu) _ ht
    · simp [ht]
  · split <;> simp [ht]

/-- Commands and faults. -/
theorem keepsWf_exec_of_command (i : Instr) (s : State) (hs : s.mem.wf) (h : 213 ≤ i.ctorIdx ∧ i.ctorIdx < 240) : KeepsWf (exec i s) := by
  revert h
  cases i <;> simp only [Instr.ctorIdx, Nat.reduceLeDiff, Nat.reduceLT, false_imp_iff, true_imp_iff, and_true, and_false]
  all_goals simp only [exec.eq_def, keepsWf_execImageInstall, keepsWf_execBindStreams, keepsWf_execPreempt, keepsWf_execRestore, keepsWf_execDieFence,
    keepsWf_execHostCopy, hs]
  all_goals refine keepsWf_command hs fun id c t ht => ?_
  all_goals try dsimp only
  all_goals repeat' split
  all_goals simp [ht]
theorem keepsWf_exec_of_fault (i : Instr) (s : State) (hs : s.mem.wf) (h : 240 ≤ i.ctorIdx ∧ i.ctorIdx < 244) : KeepsWf (exec i s) := by
  revert h
  cases i <;> simp only [Instr.ctorIdx, Nat.reduceLeDiff, Nat.reduceLT, false_imp_iff, true_imp_iff, and_true, and_false]
  all_goals simp only [exec.eq_def, execDecodeFault, execFetchFault, execG30Write, execG31Read]
  case decodeFault => simp [hs]
  case fetchFault => simp [hs]
  case g30Write =>
    split
    · simp [State.sendFlit_mem ‹_›, hs]
    · simp [hs]
  case g31Read =>
    split
    · simp [hs]
    · split
      · simp [State.writeG_mem ‹_›, hs]
      · simp [hs]

end Sys2Proof.Machine
end

section
/-! PROOF. Memory stays canonical: every step (R69, R157, R183). -/

namespace Sys2Proof.Machine

/-! ## Every instruction, the fetch and a step -/

theorem keepsWf_exec (i : Instr) (s : State) (h : s.mem.wf) : KeepsWf (exec i s) := by
  rcases Nat.lt_or_ge i.ctorIdx 186 with h1 | h1
  · exact keepsWf_exec_of_core i s h h1
  · rcases Nat.lt_or_ge i.ctorIdx 213 with h2 | h2
    · exact keepsWf_exec_of_word i s h ⟨h1, h2⟩
    · rcases Nat.lt_or_ge i.ctorIdx 240 with h3 | h3
      · exact keepsWf_exec_of_command i s h ⟨h2, h3⟩
      · rcases Nat.lt_or_ge i.ctorIdx 244 with h4 | h4
        · exact keepsWf_exec_of_fault i s h ⟨h3, h4⟩
        · exact keepsWf_exec_of_event i s h h4

/-- The state that a fetch leaves. -/
def Fetched.state : Fetched → State
  | .word _ s => s
  | .trap _ s => s
  | .wait s => s
/-- The state that the fetch of an instruction leaves. -/
def FetchedInstr.state : FetchedInstr → State
  | .words _ _ s => s
  | .trap _ s => s
  | .wait s => s
theorem State.fetchHost_mem {s : State} {p k : Nat} {va : Word} {off : Nat} {r : Fetched} (h : s.fetchHost p k va off = r) : r.state.mem = s.mem := by
  subst h
  unfold State.fetchHost
  split
  · split
    · rfl
    · split
      · split
        · rfl
        · split <;> rfl
      · split
        · rfl
        · exact State.parkReport_mem ..
  · rfl
@[simp] theorem State.fillIcache_mem (s : State) (p k pa : Nat) : (s.fillIcache p k pa).mem = s.mem := by simp [State.fillIcache]
theorem State.fetchWord_mem {s : State} {p k : Nat} {va : Word} {r : Fetched} (h : s.fetchWord p k va = r) : r.state.mem = s.mem := by
  subst h
  unfold State.fetchWord
  split
  · exact State.translate_trap_mem ‹_›
  · exact State.translate_miss_mem ‹_›
  · extract_lets pa cached c s1
    have hc : c.2.mem = s.mem := by
      unfold c
      split <;> simp
    have h1 : s1.mem = s.mem := by
      unfold s1
      split <;> simp [hc]
    clear_value c s1
    split
    · exact State.fetchHost_mem rfl
    · split
      · rfl
      · split
        · rfl
        · split
          · split <;> exact h1
          · exact h1
@[simp] theorem State.fetchAhead_mem (s : State) (p k : Nat) : (s.fetchAhead p k).mem = s.mem := by
  unfold State.fetchAhead
  extract_lets c va chosen s1
  have hc : c.2.mem = s.mem := s.choose_mem
  have h1 : s1.mem = s.mem := hc
  clear_value s1 chosen c
  split
  · exact hc
  · split
    · exact h1
    · dsimp only
      split
      · exact h1
      · split <;> simp [h1]
theorem State.fetchInstr_mem {s : State} {p k : Nat} {r : FetchedInstr} (h : s.fetchInstr p k = r) : r.state.mem = s.mem := by
  subst h
  unfold State.fetchInstr
  dsimp only
  split
  · rename_i t s1 h1
    exact State.fetchWord_mem h1
  · rename_i s1 h1
    exact State.fetchWord_mem h1
  · rename_i w0 s1 h1
    have hm1 : s1.mem = s.mem := State.fetchWord_mem h1
    split
    · exact (State.fetchAhead_mem ..).trans hm1
    · split
      · rename_i t s2 h2
        exact (State.fetchWord_mem h2).trans hm1
      · rename_i s2 h2
        exact (State.fetchWord_mem h2).trans hm1
      · rename_i w1 s2 h2
        have hm2 : s2.mem = s1.mem := State.fetchWord_mem h2
        exact (State.fetchAhead_mem ..).trans (hm2.trans hm1)
theorem keepsWf_runDecoded (r : Except Reject Instr) (w0 : BitVec 32) (s : State) (h : s.mem.wf) : KeepsWf (runDecoded r w0 s) := by
  unfold runDecoded
  split
  · exact keepsWf_exec _ s h
  · exact keepsWf_exec (.decodeFault true _ w0) s h
  · exact keepsWf_exec (.decodeFault false _ w0) s h
  · simp [h]
theorem keepsWf_issueSlot (p k : Nat) (s : State) (h : s.mem.wf) : KeepsWf (issueSlot p k s) := by
  unfold issueSlot runInstr
  split
  · simp [h]
  · split
    · exact keepsWf_exec (.asyncTrap _ _) s h
    · split
      · rename_i t s1 h1
        have hm : s1.mem = s.mem := State.fetchInstr_mem h1
        simp [hm, h]
      · rename_i s1 h1
        have hm : s1.mem = s.mem := State.fetchInstr_mem h1
        simp [hm, h]
      · rename_i w0 w1 s1 h1
        have hm : s1.mem = s.mem := State.fetchInstr_mem h1
        exact keepsWf_runDecoded _ _ _ (by rwa [hm])
@[simp] theorem State.passOver_mem (s : State) (p k : Nat) (l : List Nat) : (s.passOver p k l).mem = s.mem := by
  unfold State.passOver
  rw [State.tick_mem, State.foldl_mem _ fun t j => t.modSlot_mem _ _ _, State.modSlot_mem]
theorem keepsWf_issueClk (p k : Nat) (s : State) (h : s.mem.wf) : KeepsWf (issueClk p k s) := by
  unfold issueClk
  split
  · simp [h]
  · split
    · rename_i t ht
      simpa using keepsWf_issueSlot p k (s.atSlot p k) h t ht
    · exact keepsWf_issueSlot p k (s.atSlot p k) h
/-- A happening keeps memory canonical. -/
def EventKeepsWf (f : State → Result) : Prop := ∀ s, s.mem.wf → KeepsWf (f s)
theorem eventKeepsWf_of_exec {f : State → Result} (i : Instr) (h : ∀ s, f s = exec i s) : EventKeepsWf f := fun s hs => by
  rw [h s]
  exact keepsWf_exec i s hs
/-- An instruction executed with the focus elsewhere, which comes back. -/
theorem eventKeepsWf_focused (i : Instr) (g : State → State) (hg : ∀ s, (g s).mem = s.mem) : EventKeepsWf fun s => match exec i (g s) with
    | .next s' => .next { s' with focus := s.focus }
    | r => r := fun s hs => by
  have h1 := keepsWf_exec i (g s) (by rwa [hg])
  dsimp only
  split
  · rename_i t ht
    exact (keepsWf_next _).mpr (h1 t ht)
  · exact h1
theorem State.attempt_wf {s t : State} {f : State → Result} (hs : s.mem.wf) (hf : EventKeepsWf f) (h : s.attempt f = some t) : t.mem.wf := by
  unfold State.attempt at h
  split at h
  · rename_i u hu
    split at h
    · cases h
    · cases h
      exact hf s hs t hu
  · cases h
theorem State.firstOf_wf {s t : State} {l : List (State → Result)} (hs : s.mem.wf) (hl : ∀ f ∈ l, EventKeepsWf f) (h : s.firstOf l = some t) : t.mem.wf := by
  induction l with
  | nil => cases h
  | cons f l ih =>
    unfold State.firstOf at h
    split at h
    · cases h
      exact State.attempt_wf hs (hl f List.mem_cons_self) ‹_›
    · exact ih (fun g hg => hl g (List.mem_cons_of_mem _ hg)) h
theorem State.memoryEvents_wf (s : State) : ∀ f ∈ s.memoryEvents, EventKeepsWf f := by
  intro f hf
  simp only [State.memoryEvents, List.mem_append, List.mem_flatMap, List.mem_map, List.mem_cons, List.not_mem_nil, or_false] at hf
  rcases hf with ((⟨e, -, rfl | rfl | rfl | rfl | rfl | rfl | rfl | rfl⟩ | ⟨e, -, rfl⟩) | ⟨e, -, rfl⟩) | ⟨e, -, rfl | rfl⟩
  · exact eventKeepsWf_of_exec (.loadComplete e.1) fun _ => rfl
  · exact eventKeepsWf_of_exec (.readResponseMerge e.1) fun _ => rfl
  · exact eventKeepsWf_of_exec (.storePerform e.1) fun _ => rfl
  · exact eventKeepsWf_of_exec (.amoPerform e.1) fun _ => rfl
  · exact eventKeepsWf_of_exec (.redPerform e.1) fun _ => rfl
  · exact eventKeepsWf_of_exec (.readServe e.1) fun _ => rfl
  · exact eventKeepsWf_of_exec (.hostPageAccess e.1) fun _ => rfl
  · exact eventKeepsWf_of_exec (.countedPacketSend e.1) fun _ => rfl
  · exact eventKeepsWf_of_exec (.pageWalk e.1) fun _ => rfl
  · exact eventKeepsWf_of_exec (.countedPacketSend e.1) fun _ => rfl
  · exact eventKeepsWf_of_exec (.packetArrive e.1) fun _ => rfl
  · exact eventKeepsWf_of_exec (.deliveryAck e.1) fun _ => rfl
theorem State.causalEvents_wf (s : State) : ∀ f ∈ s.causalEvents, EventKeepsWf f := by
  intro f hf
  simp only [State.causalEvents, List.mem_append, List.mem_flatMap, List.mem_map, List.mem_cons, List.not_mem_nil, or_false] at hf
  rcases hf with (⟨e, -, rfl⟩ | ⟨n, -, hn⟩) | rfl | rfl
  · exact eventKeepsWf_of_exec (.frontierFlitReceive e.1) fun _ => rfl
  · split at hn
    · cases hn
    · rcases List.mem_append.mp hn with hn | hn
      · split at hn
        · obtain rfl := List.mem_singleton.mp hn
          exact eventKeepsWf_of_exec (.frontierRequest _ _) fun _ => rfl
        · cases hn
      · obtain rfl := List.mem_singleton.mp hn
        exact eventKeepsWf_of_exec (.frontierFlitSend _ _) fun _ => rfl
  · exact eventKeepsWf_of_exec .rebaseQuiet fun _ => rfl
  · exact eventKeepsWf_of_exec .rebaseReset fun _ => rfl
theorem State.wordEvents_wf (s : State) : ∀ f ∈ s.wordEvents, EventKeepsWf f := by
  intro f hf
  simp only [State.wordEvents, List.mem_append, List.mem_flatMap, List.mem_cons, List.not_mem_nil, or_false] at hf
  rcases hf with ⟨e, -, rfl | rfl | rfl | rfl⟩ | ⟨e, -, rfl | rfl | rfl | rfl⟩
  · exact eventKeepsWf_of_exec (.flitArrive e.1) fun _ => rfl
  · exact eventKeepsWf_of_exec (.permitReceive e.1) fun _ => rfl
  · exact eventKeepsWf_of_exec (.guidonDoneReceive e.1) fun _ => rfl
  · exact eventKeepsWf_of_exec (.arrvApply e.1) fun _ => rfl
  · exact eventKeepsWf_focused _ (fun s => { s with focus := { s.focus with word := e.1 } }) fun _ => rfl
  · exact eventKeepsWf_of_exec (.mtokConsumed _ _ _) fun _ => rfl
  · exact eventKeepsWf_of_exec (.mtokDone _ _ _) fun _ => rfl
  · exact eventKeepsWf_of_exec (.streamWordComplete _ _ _) fun _ => rfl
theorem State.portEvents_wf (s : State) : ∀ f ∈ s.portEvents, EventKeepsWf f := by
  intro f hf
  simp only [State.portEvents, List.mem_append, List.mem_flatMap, List.mem_map, List.mem_cons, List.not_mem_nil, or_false] at hf
  rcases hf with ((⟨e, -, he⟩ | ⟨e, -, rfl⟩) | ⟨e, -, rfl | rfl | rfl⟩) | ⟨e, -, rfl⟩
  · split at he
    · simp only [List.mem_cons, List.not_mem_nil, or_false] at he
      rcases he with rfl | rfl
      · exact eventKeepsWf_of_exec (.bindrBeat _ _) fun _ => rfl
      · exact eventKeepsWf_of_exec (.bindwBeat _ _) fun _ => rfl
    · cases he
  · exact eventKeepsWf_of_exec (.channelBeatArrive e.1) fun _ => rfl
  · exact eventKeepsWf_of_exec (.ringGroupProduct _ _) fun _ => rfl
  · exact eventKeepsWf_of_exec (.regionReloadDone _ _ true) fun _ => rfl
  · exact eventKeepsWf_of_exec (.preemptRegionFreeze _ _) fun _ => rfl
  · exact eventKeepsWf_of_exec (.plotWake _) fun _ => rfl
theorem eventKeepsWf_serviceOf (p : Nat) : EventKeepsWf (serviceOf p) := by
  intro s hs
  unfold serviceOf
  dsimp only
  split
  · rename_i t ht
    have h1 : t.mem.wf := State.attempt_wf (s := s.atSlot p 0) hs (fun u hu => keepsWf_execSavec 0 u hu) ht
    exact (keepsWf_next _).mpr h1
  · have h1 := keepsWf_execRestc 0 (s.atSlot p 0) hs
    split
    · rename_i t ht
      exact (keepsWf_next _).mpr (h1 t ht)
    · exact h1
theorem State.actorEvents_wf (s : State) : ∀ f ∈ s.actorEvents, EventKeepsWf f := by
  intro f hf
  simp only [State.actorEvents, List.mem_append, List.mem_flatMap, List.mem_map, List.mem_cons, List.not_mem_nil, or_false] at hf
  rcases hf with (⟨e, -, rfl | rfl | rfl | rfl⟩ | ⟨e, -, he⟩) | ⟨e, -, g, -, rfl⟩
  · exact eventKeepsWf_of_exec (.actorDone e.1) fun _ => rfl
  · exact eventKeepsWf_of_exec (.watchdog _ _) fun _ => rfl
  · exact eventKeepsWf_of_exec (.idleTimeout _ _) fun _ => rfl
  · exact eventKeepsWf_of_exec (.firingStart _ _) fun _ => rfl
  · split at he
    · obtain rfl := List.mem_singleton.mp he
      exact eventKeepsWf_serviceOf e.1
    · cases he
  · exact eventKeepsWf_of_exec (.barrierTimeout _ _) fun _ => rfl
theorem State.hostEvents_wf (s : State) : ∀ f ∈ s.hostEvents, EventKeepsWf f := by
  intro f hf
  simp only [State.hostEvents, List.mem_append, List.mem_flatMap, List.mem_map, List.mem_cons] at hf
  rcases hf with (((((((⟨e, -, rfl⟩ | ⟨e, -, rfl | he⟩) | ⟨e, -, rfl⟩) | ⟨e, -, rfl⟩) | ⟨e, -, rfl⟩) | ⟨e, -, b, -, rfl⟩) | he) | ⟨e, -, rfl⟩) | ⟨e, -, rfl⟩
  · exact eventKeepsWf_of_exec (.patchArrive e.1) fun _ => rfl
  · exact eventKeepsWf_of_exec (.commandComplete e.1) fun _ => rfl
  · split at he
    · obtain rfl := List.mem_singleton.mp he
      exact eventKeepsWf_focused _ (fun s => { s with focus := { s.focus with cmd := e.1 } }) fun _ => rfl
    · cases he
  · exact eventKeepsWf_of_exec (.commandDispatch _ _) fun _ => rfl
  · exact eventKeepsWf_of_exec (.pennantIdleEvict _ _) fun _ => rfl
  · exact eventKeepsWf_of_exec (.sessionTimeout e.1) fun _ => rfl
  · split
    · exact eventKeepsWf_of_exec (.ringReassignDone _ _) fun _ => rfl
    · exact fun s hs => (keepsWf_next s).mpr hs
  · split at he
    · simp only [List.mem_flatMap, List.mem_cons, List.not_mem_nil, or_false] at he
      obtain ⟨d, -, rfl | rfl | rfl⟩ := he
      · exact eventKeepsWf_of_exec (.vbusRetrainEnd _) fun _ => rfl
      · exact eventKeepsWf_of_exec (.vbusRetrainForced _) fun _ => rfl
      · exact eventKeepsWf_of_exec (.vbusRetrain _) fun _ => rfl
    · cases he
  · exact eventKeepsWf_of_exec (.hostWriteAcknowledged e.1) fun _ => rfl
  · exact eventKeepsWf_of_exec (.peerWriteAcknowledged e.1) fun _ => rfl
theorem State.lateRequests_wf (s : State) : ∀ f ∈ s.lateRequests, EventKeepsWf f := by
  intro f hf
  obtain ⟨n, -, hn⟩ := List.mem_flatMap.mp hf
  split at hn
  · cases hn
  · obtain rfl := List.mem_singleton.mp hn
    exact eventKeepsWf_of_exec (.frontierRequest _ _) fun _ => rfl
theorem State.issuePlot_wf {s t : State} {p : Nat} (hs : s.mem.wf) (h : s.issuePlot p = some t) : t.mem.wf := by
  unfold State.issuePlot at h
  split at h
  · cases h
  · split at h
    · rename_i u hu
      cases h
      exact keepsWf_issueClk _ _ s hs t hu
    · cases h
theorem keepsWf_autoStep (s : State) (hs : s.mem.wf) : KeepsWf (autoStep s) := by
  unfold autoStep
  split
  · rename_i t ht
    refine (keepsWf_next t).mpr (State.firstOf_wf hs (fun f hf => ?_) ht)
    simp only [List.mem_append] at hf
    rcases hf with ((((hf | hf) | hf) | hf) | hf) | hf
    · exact s.memoryEvents_wf f hf
    · exact s.causalEvents_wf f hf
    · exact s.wordEvents_wf f hf
    · exact s.portEvents_wf f hf
    · exact s.actorEvents_wf f hf
    · exact s.hostEvents_wf f hf
  · split
    · rename_i t ht
      obtain ⟨p, -, hp⟩ := List.exists_of_findSome?_eq_some ht
      exact (keepsWf_next t).mpr (State.issuePlot_wf hs hp)
    · split
      · exact (keepsWf_next _).mpr (State.firstOf_wf hs s.lateRequests_wf ‹_›)
      · simp [hs]
theorem keepsWf_runSched (a : Sched) (s : State) (hs : s.mem.wf) : KeepsWf (runSched a s) := by
  unfold runSched
  split
  · simp [hs]
  · split
    · exact keepsWf_exec _ _ hs
    · simp [hs]
  · split
    · exact keepsWf_exec _ _ hs
    · simp [hs]
  · exact keepsWf_issueClk _ _ s hs
  · split
    · exact keepsWf_exec _ _ hs
    · simp [hs]
  · repeat' split
    · exact keepsWf_exec _ _ hs
    · simp [hs]
    · simp [hs]

/-- Settles O6: at reset nothing is listed. -/
theorem resetMemoryCanonical : Obligations.ResetMemoryCanonical := Memory.wf_empty

/-- Settles O7: every function of the model that changes memory does it by an operation that keeps it canonical, and all others leave it as it is. -/
theorem stepKeepsMemoryCanonical : Obligations.StepKeepsMemoryCanonical := by
  intro s t hs ht
  unfold step at ht
  split at ht
  · cases ht
  · split at ht
    · rename_i a l _
      exact keepsWf_runSched a { s with sched := l } hs t ht
    · exact keepsWf_autoStep s hs t ht

end Sys2Proof.Machine
end

section
/-! PROOF. Vector instructions that may issue, and the integer ones (R283, R284, R290). -/

namespace Sys2Proof.Machine

/-! ## The form of a vector instruction -/

theorem vectorOp_of_mayIssueV {vs : List VNum} {gs : List GReg} {d : VNum} {f : List Val → Except Trap VOut} {s : State} {v : VReg} {fl : List (Nat × Flags)}
    (h : s.mayIssueV vs gs d) (hf : f (s.reads gs) = .ok (v, fl)) : vectorOp vs gs d f s = s.vecResult gs d v fl := by
  obtain ⟨hg, hv, hr⟩ := h
  unfold State.vecResult
  cases hl : laneTrap s.cur.fpctl fl with
  | none => exact vectorOp_ok (by simp [hg, hv]) hr hf hl
  | some t =>
    unfold vectorOp
    simp only [hg, hv, hr, hf, hl, Bool.or_self, Bool.false_eq_true, if_false]
theorem vectorOp_of_error {vs : List VNum} {gs : List GReg} {d : VNum} {f : List Val → Except Trap VOut} {s : State} {t : Trap}
    (h : s.mayIssueV vs gs d) (hf : f (s.reads gs) = .error t) : vectorOp vs gs d f s = .next (s.trapNow t) := by
  obtain ⟨hg, hv, hr⟩ := h
  unfold vectorOp
  simp only [hg, hv, hr, hf, Bool.or_self, Bool.false_eq_true, if_false]
/-- A result without flags never traps. -/
@[simp] theorem State.vecResult_nil (s : State) (gs : List GReg) (d : VNum) (v : VReg) : s.vecResult gs d v [] = .next (s.wroteV gs d v []) := rfl

/-! ## Tag checks -/

@[simp] theorem checkTags_nil : checkTags [] = .ok () := rfl
@[simp] theorem checkTags_true (g : BitVec 16) (l : List (Bool × BitVec 16)) : checkTags ((true, g) :: l) = checkTags l := rfl
@[simp] theorem checkTags_false (g : BitVec 16) (l : List (Bool × BitVec 16)) : checkTags ((false, g) :: l) = .error (tagTrap g) := rfl

/-! ## Integer and bitwise instructions -/

theorem vintOp_ok {s : State} {d a b : VNum} {plain : Bool} (f : Nat → Nat → Nat → Nat) (h : s.mayIssueV [a, b] [] d)
    (hx : intTag (s.vGet a).tag = true) (hp : plain = true → tagScale (s.vGet a).tag = 0) (hy : intTag (s.vGet b).tag = true)
    (he : tagEq (s.vGet a).tag (s.vGet b).tag = true) :
    vintOp a b d plain f s = .next (s.wroteV [] d (vregOfLanes (s.vGet a).tag
      ((mapLanes (laneCount (tagFmt (s.vGet a).tag)) [lanes s.focus.plot (tagFmt (s.vGet a).tag) (s.vGet a), lanes s.focus.plot (tagFmt (s.vGet a).tag) (s.vGet b)]
        fun l => (.ok (f (tagFmt (s.vGet a).tag) (l.getD 0 0) (l.getD 1 0)), 0)).map (·.1))) []) := by
  have hq : (!plain || tagScale (s.vGet a).tag == 0) = true := by
    cases plain with
    | false => rfl
    | true => simp [hp rfl]
  refine (vectorOp_of_mayIssueV h ?_).trans (State.vecResult_nil ..)
  simp only [hx, hy, he, hq, Bool.and_true, checkTags_true, checkTags_nil]
  rfl
theorem vbitOp_ok {s : State} {d a b : VNum} (f : BitVec 32 → BitVec 32 → BitVec 32) (h : s.mayIssueV [a, b] [] d)
    (hx : tagMalformed (s.vGet a).tag = false) (hy : tagMalformed (s.vGet b).tag = false) (he : tagFmt (s.vGet a).tag = tagFmt (s.vGet b).tag) :
    vbitOp a b d f s = .next (s.wroteV [] d (vregOf (s.vGet a).tag ((List.range 16).map fun m =>
      if (s.vGet a).ok.getLsbD m = false then ⟨false, wordPayload (s.vGet a) m⟩ else if (s.vGet b).ok.getLsbD m = false then ⟨false, wordPayload (s.vGet b) m⟩
      else ⟨true, f ((s.vGet a).bits.extractLsb' (32 * m) 32) ((s.vGet b).bits.extractLsb' (32 * m) 32)⟩)) []) := by
  refine (vectorOp_of_mayIssueV h ?_).trans (State.vecResult_nil ..)
  simp only [hx, hy, he, beq_self_eq_true, Bool.not_false, Bool.and_true, checkTags_true, checkTags_nil, Bool.not_eq_true']
  rfl
theorem vshiftR_ok {s : State} {d a b : VNum} (f : Nat → Nat → Nat → Nat) (h : s.mayIssueV [a, b] [] d)
    (hx : intTag (s.vGet a).tag = true) (hy : intTag (s.vGet b).tag = true) (hw : fmtWidth (tagFmt (s.vGet b).tag) = fmtWidth (tagFmt (s.vGet a).tag)) :
    vshiftR a b d f s = .next (s.wroteV [] d (vregOfLanes (s.vGet a).tag
      ((mapLanes (laneCount (tagFmt (s.vGet a).tag)) [lanes s.focus.plot (tagFmt (s.vGet a).tag) (s.vGet a), lanes s.focus.plot (tagFmt (s.vGet b).tag) (s.vGet b)]
        fun l => (.ok (f (fmtWidth (tagFmt (s.vGet a).tag)) (l.getD 0 0) (l.getD 1 0)), 0)).map (·.1))) []) := by
  refine (vectorOp_of_mayIssueV h ?_).trans (State.vecResult_nil ..)
  simp only [hx, hy, hw, maskTag, beq_self_eq_true, Bool.and_true, checkTags_true, checkTags_nil]
  rfl
theorem vshiftI_ok {s : State} {d a : VNum} {n : BitVec 6} (f : Nat → Nat → Nat → Nat) (h : s.mayIssueV [a] [] d) (hx : intTag (s.vGet a).tag = true) :
    vshiftI a d n f s = .next (s.wroteV [] d (vregOfLanes (s.vGet a).tag
      ((mapLanes (laneCount (tagFmt (s.vGet a).tag)) [lanes s.focus.plot (tagFmt (s.vGet a).tag) (s.vGet a)]
        fun l => (.ok (f (fmtWidth (tagFmt (s.vGet a).tag)) (l.getD 0 0) n.toNat), 0)).map (·.1))) []) := by
  refine (vectorOp_of_mayIssueV h ?_).trans (State.vecResult_nil ..)
  simp only [hx, checkTags_true, checkTags_nil]
  rfl

/-- Settles O42: each row is its form with its lane operation. -/
theorem vectorIntegerResults : Obligations.VectorIntegerResults := by
  refine ⟨fun s d a b h => ⟨fun hx hy he i op hi => ?_, fun hx hy hw i op hi => ?_, fun hx hy he i op hi => ?_⟩, fun s d a n h => ?_⟩
  · rcases List.mem_append.mp hi with hi | hi
    · simp only [List.mem_cons, Prod.mk.injEq, List.not_mem_nil, or_false] at hi
      rcases hi with ⟨rfl, rfl⟩ | ⟨rfl, rfl⟩ | ⟨rfl, rfl⟩ | ⟨rfl, rfl⟩
      · change execViadd d a b s = _
        exact vintOp_ok _ h hx nofun hy he
      · change execVisub d a b s = _
        exact vintOp_ok _ h hx nofun hy he
      · change execVimin d a b s = _
        exact vintOp_ok _ h hx nofun hy he
      · change execVimax d a b s = _
        exact vintOp_ok _ h hx nofun hy he
    · split at hi
      · rename_i hs
        obtain ⟨rfl, rfl⟩ := Prod.mk.injEq .. ▸ List.mem_singleton.mp hi
        change execVimul d a b s = _
        exact vintOp_ok _ h hx (fun _ => hs) hy he
      · cases hi
  · simp only [List.mem_cons, Prod.mk.injEq, List.not_mem_nil, or_false] at hi
    rcases hi with ⟨rfl, rfl⟩ | ⟨rfl, rfl⟩ | ⟨rfl, rfl⟩
    · change execVshl d a b s = _
      exact vshiftR_ok laneShl h hx hy hw
    · change execVshr d a b s = _
      exact vshiftR_ok laneShr h hx hy hw
    · change execVsar d a b s = _
      exact vshiftR_ok laneSar h hx hy hw
  · simp only [List.mem_cons, Prod.mk.injEq, List.not_mem_nil, or_false] at hi
    rcases hi with ⟨rfl, rfl⟩ | ⟨rfl, rfl⟩ | ⟨rfl, rfl⟩
    · change execVand d a b s = _
      exact vbitOp_ok _ h hx hy he
    · change execVor d a b s = _
      exact vbitOp_ok _ h hx hy he
    · change execVxor d a b s = _
      exact vbitOp_ok _ h hx hy he
  · intro x f w hx i op hi
    simp only [List.mem_cons, Prod.mk.injEq, List.not_mem_nil, or_false] at hi
    rcases hi with ⟨rfl, rfl⟩ | ⟨rfl, rfl⟩ | ⟨rfl, rfl⟩
    · change execVshlImm d a n s = _
      exact vshiftI_ok laneShl h hx
    · change execVshrImm d a n s = _
      exact vshiftI_ok laneShr h hx
    · change execVsarImm d a n s = _
      exact vshiftI_ok laneSar h hx

end Sys2Proof.Machine
end

section
/-! PROOF. Floating-point vector instructions (R283-R285, R288, R289). -/

namespace Sys2Proof.Machine

@[simp] theorem tagEq_self (t : BitVec 16) : tagEq t t = true := by simp [tagEq]

/-- A VFP instruction whose tags pass their checks computes its lanes. -/
theorem vfpOp_ok {s : State} {vs : List VNum} {d : VNum} {m : BitVec 3} {t : BitVec 16} (f : Nat → Nat → Bool → List Nat → Lane × Flags)
    (h : s.mayIssueV vs [] d) (ht : ((vs.map s.vGet).map (·.tag)).headD 0 = t)
    (hc : checkTags ((vs.map s.vGet).map fun r => (vfpTag r.tag && tagEq r.tag t, r.tag)) = .ok ()) :
    vfpOp vs d m f s = s.vecResult [] d
      (vregOfLanes t ((mapLanes (laneCount (tagFmt t)) ((vs.map s.vGet).map (lanes s.focus.plot (tagFmt t)))
        (f (tagFmt t) (resolveMode s.cur.fpctl m) (tagSat t))).map (·.1)))
      (numbered (mapLanes (laneCount (tagFmt t)) ((vs.map s.vGet).map (lanes s.focus.plot (tagFmt t)))
        (f (tagFmt t) (resolveMode s.cur.fpctl m) (tagSat t)))) := by
  refine vectorOp_of_mayIssueV h ?_
  simp only [ht, hc]
  rfl
theorem vfpOp_two {s : State} {d a b : VNum} {m : BitVec 3} (f : Nat → Nat → Bool → List Nat → Lane × Flags) (h : s.mayIssueV [a, b] [] d)
    (hx : vfpTag (s.vGet a).tag = true) (hy : vfpTag (s.vGet b).tag = true) (he : tagEq (s.vGet b).tag (s.vGet a).tag = true)
    {out : List (Lane × Flags)}
    (ho : out = mapLanes (laneCount (tagFmt (s.vGet a).tag)) [lanes s.focus.plot (tagFmt (s.vGet a).tag) (s.vGet a), lanes s.focus.plot (tagFmt (s.vGet a).tag) (s.vGet b)]
      (f (tagFmt (s.vGet a).tag) (resolveMode s.cur.fpctl m) (tagSat (s.vGet a).tag))) :
    vfpOp [a, b] d m f s = s.vecResult [] d (vregOfLanes (s.vGet a).tag (out.map (·.1))) (numbered out) := by
  subst ho
  exact vfpOp_ok f h rfl (by simp [hx, hy, he])
theorem vfpOp_one {s : State} {d a : VNum} {m : BitVec 3} (f : Nat → Nat → Bool → List Nat → Lane × Flags) (h : s.mayIssueV [a] [] d)
    (hx : vfpTag (s.vGet a).tag = true) {out : List (Lane × Flags)}
    (ho : out = mapLanes (laneCount (tagFmt (s.vGet a).tag)) [lanes s.focus.plot (tagFmt (s.vGet a).tag) (s.vGet a)]
      (f (tagFmt (s.vGet a).tag) (resolveMode s.cur.fpctl m) (tagSat (s.vGet a).tag))) :
    vfpOp [a] d m f s = s.vecResult [] d (vregOfLanes (s.vGet a).tag (out.map (·.1))) (numbered out) := by
  subst ho
  exact vfpOp_ok f h rfl (by simp [hx])
theorem vfpOp_three {s : State} {d a b : VNum} {m : BitVec 3} (f : Nat → Nat → Bool → List Nat → Lane × Flags) (h : s.mayIssueV [a, b, d] [] d)
    (hx : vfpTag (s.vGet a).tag = true) (hy : vfpTag (s.vGet b).tag = true) (he : tagEq (s.vGet b).tag (s.vGet a).tag = true)
    (hz : vfpTag (s.vGet d).tag = true) (hd : tagEq (s.vGet d).tag (s.vGet a).tag = true) {out : List (Lane × Flags)}
    (ho : out = mapLanes (laneCount (tagFmt (s.vGet a).tag)) [lanes s.focus.plot (tagFmt (s.vGet a).tag) (s.vGet a),
        lanes s.focus.plot (tagFmt (s.vGet a).tag) (s.vGet b), lanes s.focus.plot (tagFmt (s.vGet a).tag) (s.vGet d)]
      (f (tagFmt (s.vGet a).tag) (resolveMode s.cur.fpctl m) (tagSat (s.vGet a).tag))) :
    vfpOp [a, b, d] d m f s = s.vecResult [] d (vregOfLanes (s.vGet a).tag (out.map (·.1))) (numbered out) := by
  subst ho
  exact vfpOp_ok f h rfl (by simp [hx, hy, he, hz, hd])
/-- A first operand whose tag is no floating-point tag traps with that tag. -/
theorem vfpOp_badTag {s : State} {d a b : VNum} {m : BitVec 3} (f : Nat → Nat → Bool → List Nat → Lane × Flags) (h : s.mayIssueV [a, b] [] d)
    (hx : vfpTag (s.vGet a).tag = false) : vfpOp [a, b] d m f s = .next (s.trapNow ⟨0x32, (s.vGet a).tag.zeroExtend 64, 0⟩) := by
  refine vectorOp_of_error h ?_
  simp only [List.map_cons, List.headD_cons, hx, Bool.false_and, checkTags_false]
  rfl
theorem execVscale_valid {s : State} {d a : VNum} {b : GReg} {m : BitVec 3} {g : Val} (h : s.mayIssueV [a] [b] d) (hr : s.reads [b] = [g])
    (hx : vfpTag (s.vGet a).tag = true) (hg : g.valid = true) {out : List (Lane × Flags)}
    (ho : out = mapLanes (laneCount (tagFmt (s.vGet a).tag)) [lanes s.focus.plot (tagFmt (s.vGet a).tag) (s.vGet a)] fun l =>
      roundLane (tagFmt (s.vGet a).tag) (resolveMode s.cur.fpctl m) (tagSat (s.vGet a).tag)
        ((decodeFloat (tagFmt (s.vGet a).tag) (l.getD 0 0)).scale (max (-4096) (min 4096 g.bits.toInt)), 0)) :
    execVscale d a b m s = s.vecResult [b] d (vregOfLanes (s.vGet a).tag (out.map (·.1))) (numbered out) := by
  subst ho
  refine vectorOp_of_mayIssueV h ?_
  simp only [hr, hx, hg, List.getD_cons_zero, checkTags_true, checkTags_nil, Bool.not_true, Bool.false_eq_true, if_false]
  rfl
theorem execVscale_invalid {s : State} {d a : VNum} {b : GReg} {m : BitVec 3} {g : Val} (h : s.mayIssueV [a] [b] d) (hr : s.reads [b] = [g])
    (hx : vfpTag (s.vGet a).tag = true) (hg : g.valid = false) :
    execVscale d a b m s = .next (s.wroteV [b] d (vregOf (s.vGet a).tag (List.replicate 16 ⟨false, normPayload (g.bits.extractLsb' 0 32)⟩)) []) := by
  refine (vectorOp_of_mayIssueV h ?_).trans (State.vecResult_nil ..)
  simp only [hr, hx, hg, List.getD_cons_zero, checkTags_true, checkTags_nil, Bool.not_false, if_true]
  rfl

/-- Settles O41: each row is the form of VFP with its lane operation. -/
theorem vectorFloatResults : Obligations.VectorFloatResults := by
  refine ⟨fun s d a b m h => ⟨fun hx hy he i op hi out ho => ?_, fun hx i hi => ?_⟩, fun s d a b m h hx hy he hz hd i neg hi out ho => ?_,
    fun s d a m h hx i op hi out ho => ?_, fun s d a b m g h hr hx => ⟨fun hg out ho => ?_, fun hg => ?_⟩⟩
  · simp only [List.mem_cons, Prod.mk.injEq, List.not_mem_nil, or_false] at hi
    rcases hi with ⟨rfl, rfl⟩ | ⟨rfl, rfl⟩ | ⟨rfl, rfl⟩ | ⟨rfl, rfl⟩ | ⟨rfl, rfl⟩ | ⟨rfl, rfl⟩
    · change execVadd d a b m s = _
      exact vfpOp_two _ h hx hy he ho
    · change execVsub d a b m s = _
      exact vfpOp_two _ h hx hy he ho
    · change execVmul d a b m s = _
      exact vfpOp_two _ h hx hy he ho
    · change execVdiv d a b m s = _
      exact vfpOp_two _ h hx hy he ho
    · change execVmin d a b m s = _
      exact vfpOp_two _ h hx hy he ho
    · change execVmax d a b m s = _
      exact vfpOp_two _ h hx hy he ho
  · simp only [List.mem_cons, List.not_mem_nil, or_false] at hi
    rcases hi with rfl | rfl | rfl | rfl | rfl | rfl
    · change execVadd d a b m s = _
      exact vfpOp_badTag _ h hx
    · change execVsub d a b m s = _
      exact vfpOp_badTag _ h hx
    · change execVmul d a b m s = _
      exact vfpOp_badTag _ h hx
    · change execVdiv d a b m s = _
      exact vfpOp_badTag _ h hx
    · change execVmin d a b m s = _
      exact vfpOp_badTag _ h hx
    · change execVmax d a b m s = _
      exact vfpOp_badTag _ h hx
  · simp only [List.mem_cons, Prod.mk.injEq, List.not_mem_nil, or_false] at hi
    rcases hi with ⟨rfl, rfl⟩ | ⟨rfl, rfl⟩
    · change execVfma d a b m s = _
      exact vfpOp_three _ h hx hy he hz hd ho
    · change execVfms d a b m s = _
      exact vfpOp_three _ h hx hy he hz hd ho
  · simp only [List.mem_cons, Prod.mk.injEq, List.not_mem_nil, or_false] at hi
    rcases hi with ⟨rfl, rfl⟩ | ⟨rfl, rfl⟩ | ⟨rfl, rfl⟩ | ⟨rfl, rfl⟩ | ⟨rfl, rfl⟩ | ⟨rfl, rfl⟩ | ⟨rfl, rfl⟩
    · change execVsqrt d a m s = _
      exact vfpOp_one _ h hx ho
    · change execVrsq d a m s = _
      exact vfpOp_one _ h hx ho
    · change execVrcp d a m s = _
      exact vfpOp_one _ h hx ho
    · change execVexp2 d a m s = _
      exact vfpOp_one _ h hx ho
    · change execVlog2 d a m s = _
      exact vfpOp_one _ h hx ho
    · change execVabs d a m s = _
      exact vfpOp_one _ h hx ho
    · change execVneg d a m s = _
      exact vfpOp_one _ h hx ho
  · change execVscale d a b m s = _
    exact execVscale_valid h hr hx hg ho
  · change execVscale d a b m s = _
    exact execVscale_invalid h hr hx hg

end Sys2Proof.Machine
end

section
/-! PROOF. Reductions, compares, selection and lane movement (R291-R296). -/

namespace Sys2Proof.Machine

/-! ## Reductions -/

theorem reduceOp_poison {s : State} {d a : VNum} {p : BitVec 32} (comb : Nat → Bool → Nat → Nat → Nat × Flags)
    (fin : Nat → List (Option Nat) → Option (Nat × Flags)) (h : s.mayIssueV [a] [] d) (ht : numTag (s.vGet a).tag = true)
    (hp : poisonWord (s.vGet a) = some p) :
    reduceOp d a comb fin s =
      .next (s.wroteV [] d (vregOfLanes (s.vGet a).tag (.bad p :: List.replicate (laneCount (tagFmt (s.vGet a).tag) - 1) (.ok 0))) []) := by
  refine (vectorOp_of_mayIssueV h ?_).trans (State.vecResult_nil ..)
  simp only [ht, hp, checkTags_true, checkTags_nil]
  rfl
theorem reduceOp_fin {s : State} {d a : VNum} {comb : Nat → Bool → Nat → Nat → Nat × Flags} {fin : Nat → List (Option Nat) → Option (Nat × Flags)}
    {r : Nat × Flags} (h : s.mayIssueV [a] [] d) (ht : numTag (s.vGet a).tag = true) (hp : poisonWord (s.vGet a) = none)
    (hf : fin (tagFmt (s.vGet a).tag) (maskedLanes s.focus.plot (tagFmt (s.vGet a).tag) (s.vGet a)) = some r) :
    reduceOp d a comb fin s = s.vecResult [] d
      (vregOfLanes (s.vGet a).tag (.ok r.1 :: List.replicate (laneCount (tagFmt (s.vGet a).tag) - 1) (.ok 0))) [(0, r.2)] := by
  refine vectorOp_of_mayIssueV h ?_
  simp only [ht, hp, hf, checkTags_true, checkTags_nil]
  rfl
theorem reduceOp_tree {s : State} {d a : VNum} {comb : Nat → Bool → Nat → Nat → Nat × Flags} {fin : Nat → List (Option Nat) → Option (Nat × Flags)}
    {r : Option Nat × Flags} {q : Nat × Flags} (h : s.mayIssueV [a] [] d) (ht : numTag (s.vGet a).tag = true) (hp : poisonWord (s.vGet a) = none)
    (hf : fin (tagFmt (s.vGet a).tag) (maskedLanes s.focus.plot (tagFmt (s.vGet a).tag) (s.vGet a)) = none)
    (hr : r = reduceTree (comb (tagFmt (s.vGet a).tag) (tagSat (s.vGet a).tag)) (laneLevels (tagFmt (s.vGet a).tag))
      (maskedLanes s.focus.plot (tagFmt (s.vGet a).tag) (s.vGet a)))
    (hq : q = quieted (tagFmt (s.vGet a).tag) (r.1.getD 0)) :
    reduceOp d a comb fin s = s.vecResult [] d
      (vregOfLanes (s.vGet a).tag (.ok q.1 :: List.replicate (laneCount (tagFmt (s.vGet a).tag) - 1) (.ok 0))) [(0, r.2 ||| q.2)] := by
  subst hq hr
  refine vectorOp_of_mayIssueV h ?_
  simp only [ht, hp, hf, checkTags_true, checkTags_nil]
  rfl
theorem hmComb_float {f : Nat} (hf : isFloat f = true) (big sat : Bool) : hmComb big f sat = fun p q => laneNat (minMaxLane f big p q) := by
  funext p q
  simp [hmComb, hf]
theorem quieted_eq (f p : Nat) : quieted f p = match decodeFloat f p with
    | .nan sg => if isFloat f then (canonNaN f, if sg then fInvalid else 0) else (p, 0)
    | _ => (p, 0) := by
  unfold quieted
  cases hf : isFloat f with
  | true =>
    rw [if_pos rfl]
    cases decodeFloat f p <;> rfl
  | false =>
    rw [if_neg Bool.false_ne_true]
    cases decodeFloat f p <;> rfl
/-- A lane that is absent adds nothing to a sum of integers. -/
theorem foldl_present_sum (f : Nat) (l : List (Option Nat)) (t : Int) :
    l.foldl (fun t x => t + (match x with
      | some b => intValue f b
      | none => 0)) t = l.foldl (fun t o => match o with
      | some b => t + intValue f b
      | none => t) t := by
  congr 1
  funext t o
  cases o with
  | none => exact Int.add_zero t
  | some b => rfl

/-! ## Comparison, selection and movement -/

theorem execVcmp_ok {s : State} {d a b : VNum} {c : BitVec 3} (h : s.mayIssueV [a, b] [] d) (hx : numTag (s.vGet a).tag = true)
    (hy : numTag (s.vGet b).tag = true) (he : tagEq (s.vGet a).tag (s.vGet b).tag = true) {out : List (Lane × Flags)}
    (ho : out = mapLanes (laneCount (tagFmt (s.vGet a).tag)) [lanes s.focus.plot (tagFmt (s.vGet a).tag) (s.vGet a), lanes s.focus.plot (tagFmt (s.vGet a).tag) (s.vGet b)]
      fun l => (.ok (if (cmpNum c.toNat (decodeNum (tagFmt (s.vGet a).tag) (l.getD 0 0)) (decodeNum (tagFmt (s.vGet a).tag) (l.getD 1 0))).1
          then 2 ^ fmtWidth (tagFmt (s.vGet a).tag) - 1 else 0),
        (cmpNum c.toNat (decodeNum (tagFmt (s.vGet a).tag) (l.getD 0 0)) (decodeNum (tagFmt (s.vGet a).tag) (l.getD 1 0))).2)) :
    execVcmp d a b c s = s.vecResult [] d (vregOfLanes (fmtTag (maskFmt (tagFmt (s.vGet a).tag))) (out.map (·.1))) (numbered out) := by
  subst ho
  refine vectorOp_of_mayIssueV h ?_
  simp only [hx, hy, he, Bool.and_true, checkTags_true, checkTags_nil]
  rfl
theorem execVsel_ok {s : State} {d a b : VNum} (h : s.mayIssueV [a, b] [] d) (hx : moveTag (s.vGet a).tag = true) (hy : moveTag (s.vGet b).tag = true)
    (he : tagEq (s.vGet a).tag (s.vGet b).tag = true) (hm : maskTag (tagFmt (s.vGet a).tag) (s.vGet d).tag = true) {out : List Lane}
    (ho : (lanes s.focus.plot (tagFmt (s.vGet d).tag) (s.vGet d)).zipIdx.map (fun e => match e.1 with
      | .bad p => Lane.bad p
      | .ok v => if v ≠ 0 then (lanes s.focus.plot (tagFmt (s.vGet a).tag) (s.vGet a)).getD e.2 (.ok 0)
        else (lanes s.focus.plot (tagFmt (s.vGet a).tag) (s.vGet b)).getD e.2 (.ok 0)) = out) :
    execVsel d a b s = .next (s.wroteV [] d (vregOfLanes (s.vGet a).tag out) []) := by
  subst ho
  refine (vectorOp_of_mayIssueV h ?_).trans (State.vecResult_nil ..)
  simp only [hx, hy, he, hm, Bool.and_true, checkTags_true, checkTags_nil]
  rfl
theorem vvalApply_ok {s : State} {d a b : VNum} (h : s.mayIssueV [a, b] [] d) (hx : moveTag (s.vGet a).tag = true)
    (hm : maskTag (tagFmt (s.vGet a).tag) (s.vGet b).tag = true) :
    vvalApply d a b s = .next (s.wroteV [] d (vregOf (s.vGet a).tag ((List.range 16).map fun k =>
      if (s.vGet b).ok.getLsbD k = false then ⟨false, wordPayload (s.vGet b) k⟩ else if vWord (s.vGet b) k = 0 then ⟨false, payloadBits 0 s.focus.plot 0⟩
      else if (s.vGet a).ok.getLsbD k then ⟨true, (s.vGet a).bits.extractLsb' (32 * k) 32⟩ else ⟨false, wordPayload (s.vGet a) k⟩)) []) := by
  refine (vectorOp_of_mayIssueV h ?_).trans (State.vecResult_nil ..)
  simp only [hx, hm, checkTags_true, checkTags_nil, Bool.not_eq_true']
  rfl
theorem vvalQuery_ok {s : State} {d a : VNum} (h : s.mayIssueV [a] [] d) (hx : moveTag (s.vGet a).tag = true) {out : List Lane}
    (ho : (lanes s.focus.plot (tagFmt (s.vGet a).tag) (s.vGet a)).map (fun
      | .ok _ => Lane.ok (2 ^ fmtWidth (tagFmt (s.vGet a).tag) - 1)
      | .bad _ => .ok 0) = out) :
    vvalQuery d a s = .next (s.wroteV [] d (vregOfLanes (fmtTag (maskFmt (tagFmt (s.vGet a).tag))) out) []) := by
  subst ho
  refine (vectorOp_of_mayIssueV h ?_).trans (State.vecResult_nil ..)
  simp only [hx, checkTags_true, checkTags_nil]
  rfl
theorem execVperm_ok {s : State} {d a b : VNum} (h : s.mayIssueV [a, b] [] d) (hx : moveTag (s.vGet a).tag = true)
    (hm : maskTag (tagFmt (s.vGet a).tag) (s.vGet b).tag = true) {out : List Lane}
    (ho : (lanes s.focus.plot (tagFmt (s.vGet b).tag) (s.vGet b)).map (fun
      | .bad p => Lane.bad p
      | .ok j => (lanes s.focus.plot (tagFmt (s.vGet a).tag) (s.vGet a)).getD j (.bad (payloadBits 4 s.focus.plot 0))) = out) :
    execVperm d a b s = .next (s.wroteV [] d (vregOfLanes (s.vGet a).tag out) []) := by
  subst ho
  refine (vectorOp_of_mayIssueV h ?_).trans (State.vecResult_nil ..)
  simp only [hx, hm, checkTags_true, checkTags_nil]
  rfl
theorem execVslide_ok {s : State} {d a b : VNum} {n : BitVec 6} (h : s.mayIssueV [a, b] [] d) (hx : moveTag (s.vGet a).tag = true)
    (hy : moveTag (s.vGet b).tag = true) (he : tagEq (s.vGet a).tag (s.vGet b).tag = true) :
    execVslide d a b n s = .next (s.wroteV [] d (vregOfLanes (s.vGet a).tag ((List.range (laneCount (tagFmt (s.vGet a).tag))).map fun i =>
      (lanes s.focus.plot (tagFmt (s.vGet a).tag) (s.vGet a) ++ lanes s.focus.plot (tagFmt (s.vGet a).tag) (s.vGet b)).getD (i + n.toNat) (.ok 0))) []) := by
  refine (vectorOp_of_mayIssueV h ?_).trans (State.vecResult_nil ..)
  simp only [hx, hy, he, Bool.and_true, checkTags_true, checkTags_nil]
  rfl
theorem execVbcast_ok {s : State} {d a : VNum} {j : BitVec 7} (h : s.mayIssueV [a] [] d) (hx : moveTag (s.vGet a).tag = true)
    (hj : j.toNat < laneCount (tagFmt (s.vGet a).tag)) :
    execVbcast d a j s = .next (s.wroteV [] d (vregOfLanes (s.vGet a).tag
      (List.replicate (laneCount (tagFmt (s.vGet a).tag)) (laneAt s.focus.plot (tagFmt (s.vGet a).tag) (s.vGet a) j.toNat))) []) := by
  refine (vectorOp_of_mayIssueV h ?_).trans (State.vecResult_nil ..)
  simp only [hx, checkTags_true, checkTags_nil, if_neg (Nat.not_le.mpr hj)]
  rfl
theorem execVbcast_past {s : State} {d a : VNum} {j : BitVec 7} (h : s.mayIssueV [a] [] d) (hx : moveTag (s.vGet a).tag = true)
    (hj : laneCount (tagFmt (s.vGet a).tag) ≤ j.toNat) : execVbcast d a j s = .next (s.trapNow ⟨0x33, j.zeroExtend 64, 0⟩) := by
  refine vectorOp_of_error h ?_
  simp only [hx, checkTags_true, checkTags_nil, if_pos hj]
  rfl

/-- Settles O44: each instruction with the tags that it admits. -/
theorem vectorLaneResults : Obligations.VectorLaneResults := by
  refine ⟨fun s d a m h ht => ⟨fun p hp i hi => ?_, fun hp hf i comb hi r hr q hq => ?_, fun p => quieted_eq _ p, fun hp hf => ⟨fun r hr => ?_, fun i big hi r hr q hq => ?_⟩⟩,
    fun s d a b c n h => ⟨fun hx hy he out ho => ?_, fun hx hy he hm => ?_, fun hx hm => ⟨?_, ?_⟩, fun hx hy he => ?_⟩,
    fun s d a b j h hx => ⟨?_, fun hj => ?_, fun hj => ?_⟩⟩
  · simp only [List.mem_cons, List.not_mem_nil, or_false] at hi
    rcases hi with rfl | rfl | rfl
    · change execVsum d a m s = _
      exact reduceOp_poison _ _ h ht hp
    · change execVhmax d a s = _
      exact reduceOp_poison _ _ h ht hp
    · change execVhmin d a s = _
      exact reduceOp_poison _ _ h ht hp
  · simp only [List.mem_cons, Prod.mk.injEq, List.not_mem_nil, or_false] at hi
    rcases hi with ⟨rfl, rfl⟩ | ⟨rfl, rfl⟩ | ⟨rfl, rfl⟩
    · change execVsum d a m s = _
      exact reduceOp_tree h ht hp (if_pos hf) hr hq
    · change execVhmax d a s = _
      exact reduceOp_tree h ht hp rfl (by rw [hmComb_float hf]; exact hr) hq
    · change execVhmin d a s = _
      exact reduceOp_tree h ht hp rfl (by rw [hmComb_float hf]; exact hr) hq
  · change execVsum d a m s = _
    subst hr
    refine reduceOp_fin h ht hp ?_
    rw [if_neg (by simp [hf])]
    exact congrArg (fun t => some (satInt _ t)) (foldl_present_sum _ _ _)
  · simp only [List.mem_cons, Prod.mk.injEq, List.not_mem_nil, or_false] at hi
    rcases hi with ⟨rfl, rfl⟩ | ⟨rfl, rfl⟩
    · change execVhmax d a s = _
      exact reduceOp_tree h ht hp rfl hr hq
    · change execVhmin d a s = _
      exact reduceOp_tree h ht hp rfl hr hq
  · change execVcmp d a b c s = _
    exact execVcmp_ok h hx hy he ho
  · change execVsel d a b s = _
    exact execVsel_ok h hx hy he hm rfl
  · change vvalApply d a b s = _
    exact vvalApply_ok h hx hm
  · change execVperm d a b s = _
    exact execVperm_ok h hx hm rfl
  · change execVslide d a b n s = _
    exact execVslide_ok h hx hy he
  · change vvalQuery d a s = _
    exact vvalQuery_ok h hx rfl
  · change execVbcast d a j s = _
    exact execVbcast_ok h hx hj
  · change execVbcast d a j s = _
    exact execVbcast_past h hx hj

end Sys2Proof.Machine
end

section
/-! PROOF. Conversions between vector formats (R297-R299). -/

namespace Sys2Proof.Machine

/-! ## Conversions -/

/-- Lane `k` of the source converted: an invalid register of `gs` gives its payload. -/
def State.convLane (s : State) (a d : VNum) (gs : List GReg) (one : List Val → BitVec 16 → BitVec 16 → Nat → Lane × Flags) (k : Nat) : Lane × Flags :=
  match (s.reads gs).find? (!·.valid) with
  | some g => (.bad (poisonedWord g).bits, 0)
  | none => mapLane [(lanes s.focus.plot (tagFmt (s.vGet a).tag) (s.vGet a)).getD k (.ok 0)] fun l => one (s.reads gs) (s.vGet a).tag (s.vGet d).tag (l.getD 0 0)
theorem State.convLane_one {s : State} {b : GReg} {g : Val} (hr : s.reads [b] = [g]) (a d : VNum)
    (one : List Val → BitVec 16 → BitVec 16 → Nat → Lane × Flags) (k : Nat) :
    s.convLane a d [b] one k = if g.valid = false then (.bad (normPayload (g.bits.extractLsb' 0 32)), 0)
      else mapLane [(lanes s.focus.plot (tagFmt (s.vGet a).tag) (s.vGet a)).getD k (.ok 0)] fun l => one [g] (s.vGet a).tag (s.vGet d).tag (l.getD 0 0) := by
  unfold State.convLane
  rw [hr]
  cases hg : g.valid with
  | false => simp [hg, poisonedWord]
  | true => simp [hg]

section
variable {s : State} {d a : VNum} {gs : List GReg} {p : BitVec 3} {src dst : BitVec 16 → Bool} {one : List Val → BitVec 16 → BitVec 16 → Nat → Lane × Flags}

/-- A ratio of the lane counts that is no whole number up to 8. -/
theorem convertOp_mismatch (h : s.mayIssueV [a] gs d) (hs : src (s.vGet a).tag = true) (hd : dst (s.vGet d).tag = true)
    (hl : max (laneCount (tagFmt (s.vGet a).tag)) (laneCount (tagFmt (s.vGet d).tag)) % min (laneCount (tagFmt (s.vGet a).tag)) (laneCount (tagFmt (s.vGet d).tag)) ≠ 0 ∨
      8 < max (laneCount (tagFmt (s.vGet a).tag)) (laneCount (tagFmt (s.vGet d).tag)) / min (laneCount (tagFmt (s.vGet a).tag)) (laneCount (tagFmt (s.vGet d).tag))) :
    convertOp d a gs p src dst one s = .next (s.trapNow ⟨0x32, (s.vGet a).tag.zeroExtend 64, 0⟩) := by
  refine vectorOp_of_error h ?_
  simp only [hs, hd, checkTags_true, checkTags_nil, if_pos hl]
  rfl
variable (hm : max (laneCount (tagFmt (s.vGet a).tag)) (laneCount (tagFmt (s.vGet d).tag)) % min (laneCount (tagFmt (s.vGet a).tag)) (laneCount (tagFmt (s.vGet d).tag)) = 0)
  (hq : max (laneCount (tagFmt (s.vGet a).tag)) (laneCount (tagFmt (s.vGet d).tag)) / min (laneCount (tagFmt (s.vGet a).tag)) (laneCount (tagFmt (s.vGet d).tag)) ≤ 8)
include hm hq

theorem convertOp_past (h : s.mayIssueV [a] gs d) (hs : src (s.vGet a).tag = true) (hd : dst (s.vGet d).tag = true)
    (hp : max (laneCount (tagFmt (s.vGet a).tag)) (laneCount (tagFmt (s.vGet d).tag)) / min (laneCount (tagFmt (s.vGet a).tag)) (laneCount (tagFmt (s.vGet d).tag)) ≤ p.toNat) :
    convertOp d a gs p src dst one s = .next (s.trapNow ⟨0x33, p.zeroExtend 64, 0⟩) := by
  refine vectorOp_of_error h ?_
  simp only [hs, hd, checkTags_true, checkTags_nil, if_neg (not_or.mpr ⟨not_not.mpr hm, Nat.not_lt.mpr hq⟩), if_pos hp]
  rfl
/-- A source with no more lanes than the destination fills a part of it. -/
theorem convertOp_fewer (h : s.mayIssueV [a] gs d) (hs : src (s.vGet a).tag = true) (hd : dst (s.vGet d).tag = true)
    (hp : p.toNat < max (laneCount (tagFmt (s.vGet a).tag)) (laneCount (tagFmt (s.vGet d).tag)) / min (laneCount (tagFmt (s.vGet a).tag)) (laneCount (tagFmt (s.vGet d).tag)))
    (hle : laneCount (tagFmt (s.vGet a).tag) ≤ laneCount (tagFmt (s.vGet d).tag)) {out : List (Lane × Flags)}
    (ho : out = (List.range (laneCount (tagFmt (s.vGet a).tag))).map (s.convLane a d gs one)) :
    convertOp d a gs p src dst one s = s.vecResult gs d (mergeWords s.focus.plot (s.vGet d).tag (s.vGet d) ((List.range (laneCount (tagFmt (s.vGet d).tag))).map fun k =>
      if p.toNat * laneCount (tagFmt (s.vGet a).tag) ≤ k ∧ k < (p.toNat + 1) * laneCount (tagFmt (s.vGet a).tag)
      then (out[k - p.toNat * laneCount (tagFmt (s.vGet a).tag)]?).map (·.1) else none)) (numbered out) := by
  subst ho
  refine vectorOp_of_mayIssueV h ?_
  simp only [hs, hd, checkTags_true, checkTags_nil, if_neg (not_or.mpr ⟨not_not.mpr hm, Nat.not_lt.mpr hq⟩), if_neg (Nat.not_le.mpr hp), if_pos hle]
  rfl
/-- A part of a source with more lanes fills the destination. -/
theorem convertOp_more (h : s.mayIssueV [a] gs d) (hs : src (s.vGet a).tag = true) (hd : dst (s.vGet d).tag = true)
    (hp : p.toNat < max (laneCount (tagFmt (s.vGet a).tag)) (laneCount (tagFmt (s.vGet d).tag)) / min (laneCount (tagFmt (s.vGet a).tag)) (laneCount (tagFmt (s.vGet d).tag)))
    (hlt : laneCount (tagFmt (s.vGet d).tag) < laneCount (tagFmt (s.vGet a).tag)) {out : List (Nat × Lane × Flags)}
    (ho : out = (List.range (laneCount (tagFmt (s.vGet d).tag))).map fun k =>
      (p.toNat * laneCount (tagFmt (s.vGet d).tag) + k, s.convLane a d gs one (p.toNat * laneCount (tagFmt (s.vGet d).tag) + k))) :
    convertOp d a gs p src dst one s =
      s.vecResult gs d (vregOfLanes (s.vGet d).tag (out.map (·.2.1))) (out.map fun e => (e.1, e.2.2)) := by
  subst ho
  refine vectorOp_of_mayIssueV h ?_
  simp only [hs, hd, checkTags_true, checkTags_nil, if_neg (not_or.mpr ⟨not_not.mpr hm, Nat.not_lt.mpr hq⟩), if_neg (Nat.not_le.mpr hp), if_neg (Nat.not_le.mpr hlt)]
  rfl
end

/-- What a conversion does, by the lane counts of its source and destination and with its lanes named. -/
theorem convertOp_results {s : State} {d a : VNum} {gs : List GReg} {p : BitVec 3} {src dst : BitVec 16 → Bool}
    {one : List Val → BitVec 16 → BitVec 16 → Nat → Lane × Flags} {conv : Nat → Lane × Flags} {ls ld : Nat} (hls : laneCount (tagFmt (s.vGet a).tag) = ls)
    (hld : laneCount (tagFmt (s.vGet d).tag) = ld) (hc : conv = s.convLane a d gs one) (h : s.mayIssueV [a] gs d) (hs : src (s.vGet a).tag = true)
    (hd : dst (s.vGet d).tag = true) {r : Host.Outcome State Fault Refusal} (hr : r = convertOp d a gs p src dst one s) :
    (max ls ld % min ls ld ≠ 0 ∨ 8 < max ls ld / min ls ld → r = .next (s.trapNow ⟨0x32, (s.vGet a).tag.zeroExtend 64, 0⟩)) ∧
    (max ls ld % min ls ld = 0 → max ls ld / min ls ld ≤ 8 →
      (max ls ld / min ls ld ≤ p.toNat → r = .next (s.trapNow ⟨0x33, p.zeroExtend 64, 0⟩)) ∧
      (p.toNat < max ls ld / min ls ld → ls ≤ ld → ∀ out, out = (List.range ls).map conv →
        r = s.vecResult gs d (mergeWords s.focus.plot (s.vGet d).tag (s.vGet d) ((List.range ld).map fun k =>
          if p.toNat * ls ≤ k ∧ k < (p.toNat + 1) * ls then (out[k - p.toNat * ls]?).map (·.1) else none)) (numbered out)) ∧
      (p.toNat < max ls ld / min ls ld → ld < ls → ∀ out, out = (List.range ld).map (fun k => (p.toNat * ld + k, conv (p.toNat * ld + k))) →
        r = s.vecResult gs d (vregOfLanes (s.vGet d).tag (out.map (·.2.1))) (out.map fun e => (e.1, e.2.2)))) := by
  subst hls hld hc hr
  exact ⟨convertOp_mismatch h hs hd, fun hm hq => ⟨convertOp_past hm hq h hs hd, fun hp hle out ho => convertOp_fewer hm hq h hs hd hp hle ho,
    fun hp hlt out ho => convertOp_more hm hq h hs hd hp hlt ho⟩⟩

/-- Settles O45: the three conversions are one form with three ways to convert a lane. -/
theorem vectorConversions : Obligations.VectorConversions := by
  intro s d a b p m g x y ls ld mode sl i gs src dst one hi h hg hs hd
  simp only [List.mem_cons, Prod.mk.injEq, List.not_mem_nil, or_false] at hi
  rcases hi with ⟨rfl, rfl, rfl, rfl, rfl⟩ | ⟨rfl, rfl, rfl, rfl, rfl⟩ | ⟨rfl, rfl, rfl, rfl, rfl⟩
  · refine convertOp_results (one := fun _ ts td v => convertTo s.focus.plot mode td (scaledNum ts v) 0) rfl rfl ?_ h hs hd
      (show execVcvt d a p m s = _ from rfl)
    funext k
    exact if_neg fun hn => hn.1 rfl
  · refine convertOp_results (one := quantLane s.focus.plot mode) rfl rfl ?_ h hs hd (show execVqnt d a b p m s = _ from rfl)
    funext k
    rw [State.convLane_one (hg rfl)]
    exact if_congr (and_iff_right (List.cons_ne_nil _ _)) rfl rfl
  · refine convertOp_results (one := quantLane s.focus.plot mode) rfl rfl ?_ h hs hd (show execVdqnt d a b p m s = _ from rfl)
    funext k
    rw [State.convLane_one (hg rfl)]
    exact if_congr (and_iff_right (List.cons_ne_nil _ _)) rfl rfl

end Sys2Proof.Machine
end

section
/-! PROOF. Lanes written into a vector register read back (R282, R284). -/

namespace Sys2Proof.Machine

/-! ## Words of a register -/

/-- Bit `i` of word `k` of words placed side by side. -/
theorem getLsbD_placedWords (f : Nat → BitVec 32) (n k i : Nat) (hk : k < 16) (hi : i < 32) :
    ((List.range n).foldl (fun b m => b ||| ((f m).zeroExtend 512 <<< (32 * m))) (0 : BitVec 512)).getLsbD (32 * k + i) =
      (decide (k < n) && (f k).getLsbD i) := by
  induction n with
  | zero => simp
  | succ n ih =>
    rw [List.range_succ, List.foldl_append]
    simp only [List.foldl_cons, List.foldl_nil, BitVec.getLsbD_or, ih, BitVec.getLsbD_shiftLeft, BitVec.zeroExtend, BitVec.getLsbD_setWidth]
    rcases Nat.lt_trichotomy k n with h | rfl | h
    · simp [show 32 * k + i < 32 * n by omega, h, Nat.lt_succ_of_lt h]
    · simp [show 32 * k + i < 512 by omega, show i < 512 by omega]
    · have hz : (f n).getLsbD (32 * k + i - 32 * n) = false := BitVec.getLsbD_of_ge _ _ (by omega)
      simp [hz, Nat.not_lt_of_lt h, show ¬ k < n + 1 by omega]
theorem getLsbD_bit {m k : Nat} (hk : k < 16) : ((1 <<< m : Nat) : BitVec 16).getLsbD k = decide (m = k) := by
  rw [BitVec.natCast_eq_ofNat, BitVec.getLsbD_ofNat, Nat.one_shiftLeft, Nat.testBit_two_pow]
  simp [hk]
/-- Bit `k` of a mask of the words that are valid. -/
theorem getLsbD_validMask (v : Nat → Bool) (n k : Nat) (hk : k < 16) :
    ((List.range n).foldl (fun o m => if v m then o ||| ((1 <<< m : Nat) : BitVec 16) else o) (0 : BitVec 16)).getLsbD k = (decide (k < n) && v k) := by
  induction n with
  | zero => simp
  | succ n ih =>
    rw [List.range_succ, List.foldl_append, List.foldl_cons, List.foldl_nil]
    have hkn : decide (k < n + 1) = (decide (k < n) || decide (n = k)) := by
      rw [← Bool.decide_or]
      exact decide_eq_decide.mpr (by omega)
    cases hv : v n with
    | true =>
      rw [if_pos rfl, BitVec.getLsbD_or, ih, getLsbD_bit hk, hkn]
      by_cases h : n = k
      · simp [← h, hv]
      · simp [h]
    | false =>
      rw [if_neg Bool.false_ne_true, ih, hkn]
      by_cases h : n = k
      · simp [← h, hv]
      · simp [h]
theorem vregOf_ok (tag : BitVec 16) (ws : List W32) {m : Nat} (h : m < 16) : (vregOf tag ws).ok.getLsbD m = (ws.getD m W32.zero).valid := by
  unfold vregOf
  rw [getLsbD_validMask (fun m => (ws.getD m W32.zero).valid) 16 m h]
  simp [h]
theorem vregOf_word (tag : BitVec 16) (ws : List W32) {m : Nat} (h : m < 16) : (vregOf tag ws).bits.extractLsb' (32 * m) 32 = (ws.getD m W32.zero).bits := by
  refine BitVec.eq_of_getLsbD_eq fun i hi => ?_
  unfold vregOf
  rw [BitVec.getLsbD_extractLsb', getLsbD_placedWords (fun m => (ws.getD m W32.zero).bits) 16 m i h hi]
  simp [h, hi]
@[simp] theorem vregOfLanes_tag (tag : BitVec 16) (l : List Lane) : (vregOfLanes tag l).tag = tag := rfl
theorem vregOfLanes_ok (tag : BitVec 16) (l : List Lane) {m : Nat} (h : m < 16) :
    (vregOfLanes tag l).ok.getLsbD m = (wordOfLanes (tagFmt tag) l m).valid := by
  rw [vregOfLanes, vregOf_ok tag _ h]
  simp [h]
theorem vregOfLanes_word (tag : BitVec 16) (l : List Lane) {m : Nat} (h : m < 16) :
    (vregOfLanes tag l).bits.extractLsb' (32 * m) 32 = (wordOfLanes (tagFmt tag) l m).bits := by
  simp [vregOfLanes, vregOf_word tag _ h, h]
theorem wordPayload_vregOfLanes (tag : BitVec 16) (l : List Lane) {m : Nat} (h : m < 16) :
    wordPayload (vregOfLanes tag l) m = normPayload (wordOfLanes (tagFmt tag) l m).bits := by
  rw [wordPayload, vregOfLanes_word tag l h]
theorem vWord_vregOfLanes (tag : BitVec 16) (l : List Lane) {m : Nat} (h : m < 16) :
    vWord (vregOfLanes tag l) m = (wordOfLanes (tagFmt tag) l m).bits.toNat := by
  rw [vWord, vregOfLanes_word tag l h]

/-! ## Lanes packed into a word -/

theorem packBits_lt (w : Nat) (l : List Lane) : packBits w l < 2 ^ (w * l.length) := by
  have hstep (b n k : Nat) (hb : b < 2 ^ w) (hn : n < 2 ^ (w * k)) : b + 2 ^ w * n < 2 ^ (w * (k + 1)) := by
    calc b + 2 ^ w * n < 2 ^ w + 2 ^ w * n := Nat.add_lt_add_right hb _
      _ = 2 ^ w * (n + 1) := by ring
      _ ≤ 2 ^ w * 2 ^ (w * k) := Nat.mul_le_mul_left _ hn
      _ = 2 ^ (w * (k + 1)) := by ring
  induction l with
  | nil => simp [packBits]
  | cons x t ih =>
    cases x with
    | ok b => exact hstep _ _ _ (Nat.mod_lt _ (Nat.two_pow_pos w)) ih
    | bad p => simpa [packBits] using hstep 0 _ _ (Nat.two_pow_pos w) ih
/-- A lane packed into a word reads back from its place. -/
theorem packBits_lane (w : Nat) {l : List Lane} {j b : Nat} (hb : b < 2 ^ w) (hj : l[j]? = some (.ok b)) : packBits w l / 2 ^ (w * j) % 2 ^ w = b := by
  induction l generalizing j with
  | nil => cases hj
  | cons x t ih =>
    cases j with
    | zero =>
      obtain rfl : x = .ok b := Option.some.inj hj
      simp [packBits, Nat.add_mod, Nat.mod_eq_of_lt hb]
    | succ j =>
      have hd (c n : Nat) (hc : c < 2 ^ w) : (c + 2 ^ w * n) / 2 ^ (w * (j + 1)) = n / 2 ^ (w * j) := by
        rw [Nat.mul_succ, Nat.pow_add, Nat.mul_comm (2 ^ (w * j)), ← Nat.div_div_eq_div_mul, Nat.add_mul_div_left _ _ (Nat.two_pow_pos w),
          Nat.div_eq_of_lt hc, Nat.zero_add]
      cases x with
      | ok c =>
        rw [packBits, hd _ _ (Nat.mod_lt _ (Nat.two_pow_pos w))]
        exact ih hj
      | bad p =>
        rw [packBits, ← Nat.zero_add (2 ^ w * _), hd _ _ (Nat.two_pow_pos w)]
        exact ih hj
/-- Where no lane is invalid, each is its bits. -/
theorem firstBad_none_getElem {l : List Lane} {j : Nat} (h : firstBad l = none) (hj : j < l.length) : ∃ b, l[j]? = some (.ok b) := by
  induction l generalizing j with
  | nil => cases hj
  | cons x t ih =>
    cases x with
    | bad p => cases h
    | ok b =>
      cases j with
      | zero => exact ⟨b, rfl⟩
      | succ j => exact ih h (Nat.lt_of_succ_lt_succ hj)

/-! ## Reading back -/

/-- How many lanes of a format share a word. -/
def lanesPerWord (f : Nat) : Nat := if f = 11 then 5 else if fmtWidth f = 64 then 1 else 32 / fmtWidth f
/-- A well-formed format has one of five layouts of its lanes. -/
theorem fmtWidth_layouts {f : Nat} (h : f ≤ 12) :
    (fmtWidth f = 64 ∧ laneCount f = 8 ∧ f ≠ 11) ∨ (f = 11) ∨ (f ≠ 11 ∧ laneCount f * fmtWidth f = 512 ∧ (fmtWidth f = 32 ∨ fmtWidth f = 16 ∨ fmtWidth f = 8)) := by
  decide +revert
/-- A word of lanes that share it. -/
theorem wordOfLanes_shared {f : Nat} (hf : fmtWidth f ≠ 64) (l : List Lane) (m : Nat) :
    wordOfLanes f l m = match firstBad ((l.drop (lanesPerWord f * m)).take (lanesPerWord f)) with
      | some p => ⟨false, p⟩
      | none => ⟨true, BitVec.ofNat 32 (packBits (fmtWidth f) ((l.drop (lanesPerWord f * m)).take (lanesPerWord f)))⟩ := by
  unfold wordOfLanes lanesPerWord
  simp only [if_neg hf] <;> rfl

section
variable {tag : BitVec 16} {l : List Lane} {i : Nat}

/-- Lane `i` of a format whose lanes share words, by its word and its place there. -/
theorem laneAt_shared (plot : Nat) (hw : fmtWidth (tagFmt tag) ≠ 64) (h11 : tagFmt tag = 11 ∨ fmtWidth (tagFmt tag) = 32 ∨ fmtWidth (tagFmt tag) = 16 ∨ fmtWidth (tagFmt tag) = 8)
    (hm : i / lanesPerWord (tagFmt tag) < 16) (hb : tagFmt tag = 11 → (wordOfLanes (tagFmt tag) l (i / 5)).valid = true → (wordOfLanes (tagFmt tag) l (i / 5)).bits.toNat < 2 ^ 30) :
    laneAt plot (tagFmt tag) (vregOfLanes tag l) i =
      if (wordOfLanes (tagFmt tag) l (i / lanesPerWord (tagFmt tag))).valid
      then .ok ((wordOfLanes (tagFmt tag) l (i / lanesPerWord (tagFmt tag))).bits.toNat / 2 ^ (fmtWidth (tagFmt tag) * (i % lanesPerWord (tagFmt tag))) %
        2 ^ fmtWidth (tagFmt tag))
      else .bad (normPayload (wordOfLanes (tagFmt tag) l (i / lanesPerWord (tagFmt tag))).bits) := by
  by_cases hf : tagFmt tag = 11
  · have h5 : lanesPerWord (tagFmt tag) = 5 := by simp [lanesPerWord, hf]
    have h6 : fmtWidth (tagFmt tag) = 6 := by rw [hf]; rfl
    rw [h5] at hm ⊢
    unfold laneAt
    rw [if_neg hw, if_pos hf]
    dsimp only
    rw [vregOfLanes_ok tag l hm, wordPayload_vregOfLanes tag l hm, vWord_vregOfLanes tag l hm]
    cases hv : (wordOfLanes (tagFmt tag) l (i / 5)).valid with
    | false => rfl
    | true => simp [h6, show _ < 1073741824 from hb hf hv]
  · have hd : i * fmtWidth (tagFmt tag) / 32 = i / lanesPerWord (tagFmt tag) ∧
        i * fmtWidth (tagFmt tag) % 32 = fmtWidth (tagFmt tag) * (i % lanesPerWord (tagFmt tag)) := by
      unfold lanesPerWord
      rcases h11 with h | h | h | h
      · exact absurd h hf
      all_goals rw [if_neg hf, if_neg hw, h]; omega
    unfold laneAt
    rw [if_neg hw, if_neg hf]
    dsimp only
    rw [hd.1, hd.2, vregOfLanes_ok tag l hm, wordPayload_vregOfLanes tag l hm, vWord_vregOfLanes tag l hm]
/-- A part of the lanes starts at a lane. -/
theorem getElem?_part {per : Nat} (hp : 0 < per) : ((l.drop (per * (i / per))).take per)[i % per]? = l[i]? := by
  rw [List.getElem?_take_of_lt (Nat.mod_lt _ hp), List.getElem?_drop, Nat.div_add_mod]
theorem getD_of_getElem? {b : Nat} (h : l[i]? = some (.ok b)) : l.getD i (.ok 0) = .ok b := by
  rw [List.getD_eq_getElem?_getD, h, Option.getD_some]
theorem firstBad_singleton (x : Lane) : firstBad [x] = match x with
    | .bad p => some p
    | .ok _ => none := by cases x <;> rfl
/-- A lane of 64 bits reads back, or has the payload it was given. -/
theorem laneAt_wide (plot : Nat) (hw : fmtWidth (tagFmt tag) = 64) (hi : i < 8) (hb : ∀ b, l.getD i (.ok 0) = .ok b → b < 2 ^ 64) :
    laneAt plot (tagFmt tag) (vregOfLanes tag l) i = match l.getD i (.ok 0) with
      | .ok b => .ok b
      | .bad p => .bad (normPayload p) := by
  have hword (m : Nat) (hm : m / 2 = i) : wordOfLanes (tagFmt tag) l m = match l.getD i (.ok 0) with
      | .ok b => ⟨true, BitVec.ofNat 32 (b / 2 ^ (32 * (m % 2)))⟩
      | .bad p => ⟨false, p⟩ := by
    subst hm
    refine (if_pos hw).trans ?_
    cases l.getD (m / 2) (.ok 0) <;> rfl
  unfold laneAt
  rw [if_pos hw, vregOfLanes_ok tag l (by omega), vregOfLanes_ok tag l (by omega), wordPayload_vregOfLanes tag l (by omega),
    wordPayload_vregOfLanes tag l (by omega), vWord_vregOfLanes tag l (by omega), vWord_vregOfLanes tag l (by omega),
    hword (2 * i) (by omega), hword (2 * i + 1) (by omega)]
  cases hx : l.getD i (.ok 0) with
  | bad p => rfl
  | ok b =>
    have hlt := hb b hx
    have h0 : 2 * i % 2 = 0 := by omega
    have h1 : (2 * i + 1) % 2 = 1 := by omega
    simp only [h0, h1, Bool.not_true, Bool.false_eq_true, if_false, BitVec.toNat_ofNat, Lane.ok.injEq]
    omega
theorem lanesPerWord_fits {f : Nat} (hw : fmtWidth f ≠ 64) (h : f = 11 ∨ fmtWidth f = 32 ∨ fmtWidth f = 16 ∨ fmtWidth f = 8) :
    0 < lanesPerWord f ∧ fmtWidth f * lanesPerWord f ≤ 32 ∧ (f = 11 → fmtWidth f * lanesPerWord f = 30) := by
  by_cases hf : f = 11
  · subst hf
    decide
  · unfold lanesPerWord
    rw [if_neg hf, if_neg hw]
    rcases h with h | h | h | h
    · exact absurd h hf
    all_goals
      rw [h]
      exact ⟨by decide, by decide, fun h => absurd h hf⟩
/-- The bits of a word that lanes share, when none of them is invalid. -/
theorem wordOfLanes_bits (hw : fmtWidth (tagFmt tag) ≠ 64)
    (h11 : tagFmt tag = 11 ∨ fmtWidth (tagFmt tag) = 32 ∨ fmtWidth (tagFmt tag) = 16 ∨ fmtWidth (tagFmt tag) = 8) (m : Nat)
    (hn : firstBad ((l.drop (lanesPerWord (tagFmt tag) * m)).take (lanesPerWord (tagFmt tag))) = none) :
    (wordOfLanes (tagFmt tag) l m).valid = true ∧ (wordOfLanes (tagFmt tag) l m).bits.toNat =
      packBits (fmtWidth (tagFmt tag)) ((l.drop (lanesPerWord (tagFmt tag) * m)).take (lanesPerWord (tagFmt tag))) ∧
      (wordOfLanes (tagFmt tag) l m).bits.toNat < 2 ^ (fmtWidth (tagFmt tag) * lanesPerWord (tagFmt tag)) := by
  have hlt : packBits (fmtWidth (tagFmt tag)) ((l.drop (lanesPerWord (tagFmt tag) * m)).take (lanesPerWord (tagFmt tag))) <
      2 ^ (fmtWidth (tagFmt tag) * lanesPerWord (tagFmt tag)) :=
    (packBits_lt _ _).trans_le (Nat.pow_le_pow_right Nat.two_pos (Nat.mul_le_mul_left _ (List.length_take_le _ _)))
  have hle := Nat.pow_le_pow_right Nat.two_pos (lanesPerWord_fits hw h11).2.1
  rw [wordOfLanes_shared hw, hn]
  have hmod : (BitVec.ofNat 32 (packBits (fmtWidth (tagFmt tag)) ((l.drop (lanesPerWord (tagFmt tag) * m)).take (lanesPerWord (tagFmt tag))))).toNat =
      packBits (fmtWidth (tagFmt tag)) ((l.drop (lanesPerWord (tagFmt tag) * m)).take (lanesPerWord (tagFmt tag))) := by
    rw [BitVec.toNat_ofNat]
    exact Nat.mod_eq_of_lt (hlt.trans_le hle)
  exact ⟨rfl, hmod, hmod.trans_lt hlt⟩
/-- Where no lane of its word is invalid, a lane that shares a word reads back. -/
theorem laneAt_shared_ok (plot : Nat) (hw : fmtWidth (tagFmt tag) ≠ 64)
    (h11 : tagFmt tag = 11 ∨ fmtWidth (tagFmt tag) = 32 ∨ fmtWidth (tagFmt tag) = 16 ∨ fmtWidth (tagFmt tag) = 8)
    (hm : i / lanesPerWord (tagFmt tag) < 16) (hi : i < l.length) (hb : ∀ b, Lane.ok b ∈ l → b < 2 ^ fmtWidth (tagFmt tag))
    (hn : firstBad ((l.drop (lanesPerWord (tagFmt tag) * (i / lanesPerWord (tagFmt tag)))).take (lanesPerWord (tagFmt tag))) = none) :
    laneAt plot (tagFmt tag) (vregOfLanes tag l) i = l.getD i (.ok 0) := by
  obtain ⟨hp, -, h30⟩ := lanesPerWord_fits hw h11
  obtain ⟨hv, hbits, hlt⟩ := wordOfLanes_bits hw h11 _ hn
  have hlen : i % lanesPerWord (tagFmt tag) <
      ((l.drop (lanesPerWord (tagFmt tag) * (i / lanesPerWord (tagFmt tag)))).take (lanesPerWord (tagFmt tag))).length := by
    have := Nat.div_add_mod i (lanesPerWord (tagFmt tag))
    have := Nat.mod_lt i hp
    simp only [List.length_take, List.length_drop]
    omega
  obtain ⟨b, hj⟩ := firstBad_none_getElem hn hlen
  have hli : l[i]? = some (.ok b) := (getElem?_part hp).symm.trans hj
  have hlb : b < 2 ^ fmtWidth (tagFmt tag) := hb b (List.mem_of_getElem? hli)
  rw [laneAt_shared plot hw h11 hm, if_pos hv, hbits, packBits_lane _ hlb hj, getD_of_getElem? hli]
  intro hf _
  have h5 : lanesPerWord (tagFmt tag) = 5 := by simp [lanesPerWord, hf]
  rw [h30 hf, h5] at hlt
  exact hlt
/-- Where a lane of its word is invalid, a lane that shares a word is invalid with the payload of the lowest such. -/
theorem laneAt_shared_bad (plot : Nat) (hw : fmtWidth (tagFmt tag) ≠ 64)
    (h11 : tagFmt tag = 11 ∨ fmtWidth (tagFmt tag) = 32 ∨ fmtWidth (tagFmt tag) = 16 ∨ fmtWidth (tagFmt tag) = 8)
    (hm : i / lanesPerWord (tagFmt tag) < 16) {p : BitVec 32}
    (hn : firstBad ((l.drop (lanesPerWord (tagFmt tag) * (i / lanesPerWord (tagFmt tag)))).take (lanesPerWord (tagFmt tag))) = some p) :
    laneAt plot (tagFmt tag) (vregOfLanes tag l) i = .bad (normPayload p) := by
  have hword : wordOfLanes (tagFmt tag) l (i / lanesPerWord (tagFmt tag)) = ⟨false, p⟩ := by rw [wordOfLanes_shared hw, hn]
  rw [laneAt_shared plot hw h11 hm, hword]
  · rfl
  · intro hf
    have h5 : lanesPerWord (tagFmt tag) = 5 := by simp [lanesPerWord, hf]
    rw [h5] at hword
    rw [hword]
    exact fun h => nomatch h
end

/-- Settles O43: lanes of 64 bits lie in two words each, others share one. -/
theorem vectorLanesReadBack : Obligations.VectorLanesReadBack := by
  intro plot tag l i hm hl hi hb w per part
  refine ⟨rfl, ?_⟩
  have hper : per = lanesPerWord (tagFmt tag) := rfl
  have hf : tagFmt tag ≤ 12 := by
    simp only [tagMalformed, Bool.or_eq_false_iff, decide_eq_false_iff_not] at hm
    omega
  rcases fmtWidth_layouts hf with ⟨hw, hc, h11⟩ | h
  · have h1 : per = 1 := by simp [per, w, hw, h11]
    have hil : i < l.length := by omega
    have hpart : part = [l.getD i (.ok 0)] := by simp [part, h1, List.take_one_drop_eq_of_lt_length, hil]
    have hb' (b : Nat) (hx : l.getD i (.ok 0) = .ok b) : b < 2 ^ 64 := by
      rw [List.getD_eq_getElem _ _ hil] at hx
      exact hw ▸ hb b (hx ▸ List.getElem_mem hil)
    rw [hpart, firstBad_singleton, laneAt_wide plot hw (by omega) hb']
    cases l.getD i (.ok 0) with
    | ok b => exact ⟨fun _ => rfl, fun p hp => nomatch hp⟩
    | bad q =>
      refine ⟨fun hn => (nomatch hn), fun p hp => ?_⟩
      cases hp
      rfl
  · have hs : fmtWidth (tagFmt tag) ≠ 64 ∧ (tagFmt tag = 11 ∨ fmtWidth (tagFmt tag) = 32 ∨ fmtWidth (tagFmt tag) = 16 ∨ fmtWidth (tagFmt tag) = 8) ∧
        i / lanesPerWord (tagFmt tag) < 16 := by
      rcases h with h | ⟨h11, hc, h⟩
      · rw [h] at hi ⊢
        exact ⟨by decide, .inl rfl, Nat.div_lt_of_lt_mul hi⟩
      · have hne : fmtWidth (tagFmt tag) ≠ 64 := by omega
        refine ⟨hne, .inr h, ?_⟩
        unfold lanesPerWord
        rw [if_neg h11, if_neg hne]
        rcases h with h | h | h <;> rw [h] at hc ⊢ <;> omega
    exact ⟨laneAt_shared_ok plot hs.1 hs.2.1 hs.2.2 (by omega) hb, fun p => laneAt_shared_bad plot hs.1 hs.2.1 hs.2.2⟩

end Sys2Proof.Machine
end

section
/-! PROOF. Atomics and reductions at their home (R72, R84, R180, R183, R196-R198, R200, R324). -/

namespace Sys2Proof.Machine

/-! ## Memory words written read back, wherever they lie -/

/-- A validity bit reads back at its own address. -/
theorem Memory.valid_setValid_same (m : Memory) (a : Nat) (v : Bool) :
    ((freshWord a).valid != nmem (m.setValid a v).odd (a / 4)) = v := by
  unfold Memory.setValid
  by_cases hv : v = (freshWord a).valid
  · simp [← hv, nmem_ndel]
  · simp [hv, nmem_nins]
    cases v <;> simp_all

theorem Memory.nmem_setValid_ne (m : Memory) {a c : Nat} (v : Bool) (h : c / 4 ≠ a / 4) :
    nmem (m.setValid a v).odd (c / 4) = nmem m.odd (c / 4) := by
  unfold Memory.setValid
  by_cases hv : v = (freshWord a).valid <;> simp [hv, h, nmem_ndel, nmem_nins]

/-- A word reads back at its own address, on a word boundary or not. -/
theorem Memory.word_setWord_same (m : Memory) (a : Nat) (w : W32) : (m.setWord a w).word a = w := by
  have h0 := m.byte_setWord a 0 w (by omega)
  have h1 := m.byte_setWord a 1 w (by omega)
  have h2 := m.byte_setWord a 2 w (by omega)
  have h3 := m.byte_setWord a 3 w (by omega)
  unfold Memory.word
  rw [h3, h2, h1, show (m.setWord a w).byte a = _ from h0, wordBytes_append]
  exact congrArg (W32.mk · w.bits) (Memory.valid_setValid_same _ a w.valid)

/-- A word below the one written is as before. -/
theorem Memory.word_setWord_of_le (m : Memory) {a c : Nat} (w : W32) (h : c + 4 ≤ a) : (m.setWord a w).word c = m.word c := by
  unfold Memory.word
  rw [m.byte_setWord_of_lt a c w (by omega), m.byte_setWord_of_lt a (c + 1) w (by omega),
    m.byte_setWord_of_lt a (c + 2) w (by omega), m.byte_setWord_of_lt a (c + 3) w (by omega)]
  exact congrArg (fun n => W32.mk ((freshWord c).valid != n) _) (Memory.nmem_setValid_ne _ w.valid (by omega))

theorem Memory.word_setWords_of_le (m : Memory) {a c : Nat} (l : List W32) (h : c + 4 ≤ a) : (m.setWords a l).word c = m.word c := by
  induction l generalizing m a with
  | nil => rfl
  | cons w l ih => rw [Memory.setWords, ih _ (by omega), m.word_setWord_of_le w h]

/-- Words written one after the other read back. -/
theorem Memory.word_setWords (m : Memory) (a : Nat) (l : List W32) (i : Nat) (h : i < l.length) :
    (m.setWords a l).word (a + 4 * i) = l[i] := by
  induction l generalizing m a i with
  | nil => cases h
  | cons w l ih =>
    cases i with
    | zero => exact (Memory.word_setWords_of_le _ l (by omega)).trans (m.word_setWord_same a w)
    | succ i =>
      rw [Memory.setWords, show a + 4 * (i + 1) = a + 4 + 4 * i by omega]
      exact ih _ _ _ (by simpa using h)

/-! ## What a slice's use and the L1 leave a word of memory to read as -/

/-- Two states in which every address reads the same. -/
structure State.ReadsAs (s t : State) : Prop where
  part : t.part = s.part
  partitions : t.partitions = s.partitions
  insts : t.insts = s.insts
  transients : t.transients = s.transients
  clock : t.clock = s.clock
  mem : t.mem = s.mem
  cways : ∀ d, (t.dieAt d).cways = (s.dieAt d).cways
  l1size : ∀ p, (t.plotAt p).l1size = (s.plotAt p).l1size

theorem State.ReadsAs.refl (s : State) : s.ReadsAs s := ⟨rfl, rfl, rfl, rfl, rfl, rfl, fun _ => rfl, fun _ => rfl⟩

theorem State.ReadsAs.expired {s t : State} (h : s.ReadsAs t) (a : Nat) : t.expired a = s.expired a := by
  simp only [State.expired, State.transientOf, h.transients, h.clock]
theorem State.ReadsAs.ctxOf {s t : State} (h : s.ReadsAs t) (p : Nat) : t.ctxOf p = s.ctxOf p := by
  rw [State.ctxOf, State.ctxOf, h.insts]
theorem State.ReadsAs.place {s t : State} (h : s.ReadsAs t) (a : Nat) : t.place a = s.place a := by
  simp only [State.place, h.ctxOf]
theorem State.ReadsAs.partitionOf {s t : State} (h : s.ReadsAs t) (a : Nat) : t.partitionOf a = s.partitionOf a := by
  simp only [State.partitionOf, h.partitions]
theorem State.ReadsAs.present {s t : State} (h : s.ReadsAs t) (d : Nat) : t.present d = s.present d := by
  rw [State.present, State.present, h.part]
theorem State.ReadsAs.backed {s t : State} (h : s.ReadsAs t) (a : Nat) : t.backed a = s.backed a := by
  simp only [State.backed, h.partitionOf, h.present, h.cways, h.ctxOf, State.spad, h.l1size] <;> rfl
theorem State.ReadsAs.homePlot {s t : State} (h : s.ReadsAs t) (a : Nat) : t.homePlot a = s.homePlot a := by
  simp only [State.homePlot, h.partitionOf]
theorem State.ReadsAs.ctrlRead {s t : State} (h : s.ReadsAs t) (a : Nat) : t.ctrlRead a = s.ctrlRead a := by
  simp only [State.ctrlRead, h.partitions, h.cways]
theorem State.ReadsAs.loadWord {s t : State} (h : s.ReadsAs t) (p a : Nat) : t.loadWord p a = s.loadWord p a := by
  simp only [State.loadWord, State.readWord, State.memWord, h.ctrlRead, h.backed, h.expired, h.homePlot, h.present, h.mem, h.place]
theorem State.ReadsAs.loadWords {s t : State} (h : s.ReadsAs t) (p a n : Nat) : t.loadWords p a n = s.loadWords p a n := by
  induction n generalizing a with
  | zero => rfl
  | succ n ih => rw [State.loadWords, State.loadWords, h.loadWord, ih]

theorem Die.countHit_cways (x : Die) (slice : Nat) (l : SliceLine) : (x.countHit slice l).cways = x.cways := by
  unfold Die.countHit
  dsimp only
  split <;> rfl
theorem Die.countDead_cways (x : Die) (slice : Nat) (l : SliceLine) : (x.countDead slice l).cways = x.cways := by
  unfold Die.countDead
  dsimp only
  split <;> rfl
theorem Die.toWays_cways (x : Die) (slice : Nat) (l : SliceLine) : (x.toWays slice l).cways = x.cways := by
  unfold Die.toWays
  dsimp only
  split <;> rfl
theorem Die.toNear_cways (x : Die) (slice : Nat) (l : SliceLine) : (x.toNear slice l).cways = x.cways := by
  unfold Die.toNear
  dsimp only
  split
  · rfl
  · split
    · rfl
    · split
      · rw [Die.toWays_cways, Die.countDead_cways]
      · rw [Die.countDead_cways]
theorem Die.fromWays_cways (x : Die) (slice line : Nat) : (x.fromWays slice line).cways = x.cways := rfl
theorem Die.useLine_cways (x : Die) (slice a : Nat) (sig : BitVec 12) (u : SliceUse) : (x.useLine slice a sig u).cways = x.cways := by
  unfold Die.useLine
  dsimp only
  repeat' split
  all_goals simp only [Die.toNear_cways, Die.toWays_cways, Die.countHit_cways, Die.fromWays_cways]

/-- A slice's cache changes no word read. -/
theorem State.sliceUse_readsAs (s : State) (a : Nat) (sig : BitVec 12) (u : SliceUse) : s.ReadsAs (s.sliceUse a sig u) := by
  unfold State.sliceUse
  split
  · rename_i slice _
    refine ⟨rfl, rfl, rfl, rfl, rfl, rfl, fun d => ?_, fun _ => rfl⟩
    by_cases h : d = slice / 128
    · rw [h, State.dieAt_modDie, Die.useLine_cways]
    · exact congrArg Die.cways (tget_tset_ne _ _ _ h)
  · exact .refl s

/-- The L1 of a plot changes no word read from a home. -/
theorem State.performL1_readsAs (s : State) (r : Req) : s.ReadsAs (s.performL1 r) := by
  unfold State.performL1
  split
  · refine ⟨rfl, rfl, rfl, rfl, rfl, rfl, fun _ => rfl, fun p => ?_⟩
    by_cases h : p = r.plot
    · rw [h, State.plotAt_modPlot]
    · rw [State.plotAt_modPlot_ne _ _ h]
  · exact .refl s

/-! ## What an atomic leaves in memory -/

/-- Memory with words written at an address, when there are any to write. -/
def State.putWords (s : State) (a : Nat) : Option (List W32) → Memory
  | some ws => s.mem.setWords (s.place a) ws
  | none => s.mem

/-- Memory after an AMO or RED of selector `k` at its home. -/
def State.amoMem (s : State) (r : Req) (k : BitVec 4) (wide : Bool) : Memory :=
  if s.expired r.pa.toNat then s.mem
  else s.putWords r.pa.toNat (amoWords k.toNat wide (s.loadWords r.plot r.pa.toNat (if wide then 2 else 1)) r.val r.cmp)

theorem State.ReadsAs.putWords {s t : State} (h : s.ReadsAs t) (a : Nat) (o : Option (List W32)) : t.putWords a o = s.putWords a o := by
  cases o <;> simp only [State.putWords, h.mem, h.place]
theorem State.ReadsAs.amoMem {s t : State} (h : s.ReadsAs t) (r : Req) (k : BitVec 4) (wide : Bool) : t.amoMem r k wide = s.amoMem r k wide := by
  simp only [State.amoMem, h.expired, h.loadWords, h.mem, h.putWords]

theorem State.storeAt_mem (s : State) {a : Nat} (ws : List W32) (h : a < 0xF0000000000) :
    (s.storeAt a ws).mem = s.mem.setWords (s.place a) ws := by
  rw [State.storeAt, if_neg (by omega)]

theorem State.performWrite_atomic_mem (s : State) {r : Req} {k : BitVec 4} {wide : Bool} (hop : r.op = .amo k wide ∨ r.op = .red k wide)
    (ha : r.pa.toNat < 0xF0000000000) : (s.performWrite r).mem = s.amoMem r k wide := by
  have hr := s.sliceUse_readsAs r.pa.toNat r.sig (.write (r.op == .stv))
  rw [← hr.amoMem]
  rcases hop with hop | hop
  all_goals
    simp only [State.performWrite, State.amoMem, hop]
    split
    · exact State.touch_mem _ _
    · cases amoWords k.toNat wide _ r.val r.cmp with
      | none => exact State.touch_mem _ _
      | some ws => exact State.storeAt_mem _ ws ha

theorem State.unit_of_homeReady {s : State} {id : Nat} {r : Req} (h : s.homeReady id r = true) : r.unit = dieOf r.plot := by
  simp only [State.homeReady, Bool.and_eq_true, beq_iff_eq] at h
  exact h.1.1.1.2

/-- An atomic whose answer its instruction does not wait for is answered with the words that lay there. -/
theorem amoPerform_ok {s : State} {id : Nat} {r : Req} {k : BitVec 4} {wide : Bool} (hf : tfind s.reqs id = some r)
    (hh : s.homeReady id r = true) (hc : s.covers r.unit r.stamp 8 = true) (hret : r.retained = false) (hacq : r.acq = false)
    (ha : r.pa.toNat < 0xF0000000000) (hj : s.justWritten r.pa.toNat = false) (hop : r.op = .amo k wide) :
    ∃ t, exec (.amoPerform id) s = .next t ∧ t.mem = s.amoMem r k wide ∧
      ∃ y, tfind t.reqs id = some y ∧ y.resp = s.loadWords r.plot r.pa.toNat (if wide then 2 else 1) ∧ y.stage = .served := by
  have hu := State.unit_of_homeReady hh
  have hp := s.performL1_readsAs r
  have hexp : (s.performL1 r).expiryTrap r = false := by simp [State.expiryTrap, hret]
  have hres : (s.performL1 r).readResult r = s.loadWords r.plot r.pa.toNat (if wide then 2 else 1) := by
    simp only [State.readResult, hop, Req.readSpan, hp.loadWords]
  have heff : (s.performL1 r).readEffect r = (s.performL1 r).performWrite r := by simp only [State.readEffect, hop]
  refine ⟨(s.performL1 r).answer id r, ?_, ?_, ?_⟩
  · change execAmoPerform id s = _
    simp only [execAmoPerform, hf, hop, hh, hc, hj, Bool.not_false, Bool.and_self, if_true]
  · simp only [State.answer, hexp, Bool.false_eq_true, if_false, State.respond_mem, heff,
      State.performWrite_atomic_mem _ (.inl hop) ha, hp.amoMem]
  · refine ⟨{ r with stage := .served, resp := s.loadWords r.plot r.pa.toNat (if wide then 2 else 1) }, ?_, rfl, rfl⟩
    simp only [State.answer, hexp, Bool.false_eq_true, if_false, State.respond, hu, decide_true, Bool.true_or, if_true, hacq, hres,
      State.setReq, tfind_tset]

/-- A reduction ends with its write. -/
theorem redPerform_ok {s : State} {id : Nat} {r : Req} {k : BitVec 4} {wide : Bool} (hf : tfind s.reqs id = some r)
    (hh : s.homeReady id r = true) (ha : r.pa.toNat < 0xF0000000000) (hj : s.justWritten r.pa.toNat = false) (hop : r.op = .red k wide) :
    ∃ t, exec (.redPerform id) s = .next t ∧ t.mem = s.amoMem r k wide ∧ tfind t.reqs id = none := by
  refine ⟨((s.performWrite r).performL1 r).finishWrite id r, ?_, ?_, ?_⟩
  · change execRedPerform id s = _
    simp only [execRedPerform, hf, hop, hh, hj, Bool.not_false, Bool.and_self, if_true]
  · rw [State.finishWrite_mem, State.performL1_mem, State.performWrite_atomic_mem _ (.inr hop) ha]
  · simp only [State.finishWrite, tfind_tdel, if_true]

/-! ## Values -/

/-- The words of a number, by their place. -/
theorem getElem_wordsOfNat {wide : Bool} {W : Nat} (hW : W = 32 ∧ wide = false ∨ W = 64 ∧ wide = true) (n : Nat) :
    (wordsOfNat wide n).length = W / 32 ∧
    ∀ i (h : i < (wordsOfNat wide n).length), (wordsOfNat wide n)[i] = ⟨true, (BitVec.ofNat W n).extractLsb' (32 * i) 32⟩ := by
  rcases hW with ⟨rfl, rfl⟩ | ⟨rfl, rfl⟩
  · refine ⟨rfl, fun i h => ?_⟩
    obtain rfl : i = 0 := by simpa [wordsOfNat] using h
    simp only [wordsOfNat, Bool.false_eq_true, if_false, List.getElem_cons_zero, W32.mk.injEq, true_and]
    refine BitVec.eq_of_toNat_eq ?_
    simp
  · refine ⟨rfl, fun i h => ?_⟩
    have h2 : i = 0 ∨ i = 1 := by simp [wordsOfNat] at h; omega
    rcases h2 with rfl | rfl
    all_goals
      simp only [wordsOfNat, if_true, List.getElem_cons_zero, List.getElem_cons_succ, W32.mk.injEq, true_and]
      refine BitVec.eq_of_toNat_eq ?_
      simp only [BitVec.extractLsb'_toNat, BitVec.toNat_ofNat, Nat.shiftRight_eq_div_pow]
      omega

/-- The number that words hold. -/
theorem natOfWords_eq {W : Nat} (hW : W = 32 ∨ W = 64) {l : List W32} (hl : l.length = W / 32) {old : BitVec W}
    (h : ∀ i, i < W / 32 → (l.getD i W32.zero).bits = old.extractLsb' (32 * i) 32) : natOfWords l = old.toNat := by
  have hlt := old.isLt
  rcases hW with rfl | rfl
  · match l, hl with
    | [w], _ =>
      have h0 := congrArg BitVec.toNat (h 0 (by omega))
      simp only [List.getD_cons_zero, BitVec.extractLsb'_toNat, Nat.shiftRight_eq_div_pow] at h0
      simp only [natOfWords]
      omega
  · match l, hl with
    | [w, v], _ =>
      have h0 := congrArg BitVec.toNat (h 0 (by omega))
      have h1 := congrArg BitVec.toNat (h 1 (by omega))
      simp only [List.getD_cons_zero, List.getD_cons_succ, BitVec.extractLsb'_toNat, Nat.shiftRight_eq_div_pow] at h0 h1
      simp only [natOfWords]
      omega

/-- The new value of each operation but AMCAS, as the statement lists them. -/
def amoValues {W : Nat} (wide : Bool) (old x : BitVec W) : List (BitVec 4 × BitVec W) :=
  [(0, old + x), (1, if x.slt old then x else old), (2, if old.slt x then x else old), (3, if x < old then x else old),
    (4, if old < x then x else old), (5, old &&& x), (6, old ||| x), (7, old ^^^ x), (8, x),
    (10, BitVec.ofNat W (fpAdd (if wide then 1 else 2) old.toNat x.toNat)), (11, if x ≤ old then 0 else old + 1)]

theorem ofNat_ite_toNat {W : Nat} {c : Prop} [Decidable c] (x y : BitVec W) :
    BitVec.ofNat W (if c then x.toNat else y.toNat) = if c then x else y := by
  split <;> simp

theorem ofNat_toNat_self {W : Nat} (x : BitVec W) : BitVec.ofNat W x.toNat = x := by simp

theorem ofNat_amoNew {wide : Bool} {W : Nat} (hW : W = 32 ∧ wide = false ∨ W = 64 ∧ wide = true) (old x : BitVec W) :
    ∀ e ∈ amoValues wide old x, BitVec.ofNat W (amoNew e.1.toNat W old.toNat x.toNat) = e.2 := by
  have hwide : (if W = 64 then 1 else 2) = if wide then 1 else 2 := by rcases hW with ⟨rfl, rfl⟩ | ⟨rfl, rfl⟩ <;> rfl
  have hslt (u v : BitVec W) : (if u.toNat < 2 ^ (W - 1) then (u.toNat : Int) else (u.toNat : Int) - 2 ^ W) <
      (if v.toNat < 2 ^ (W - 1) then (v.toNat : Int) else (v.toNat : Int) - 2 ^ W) ↔ u.slt v = true := by
    rcases hW with ⟨rfl, rfl⟩ | ⟨rfl, rfl⟩ <;> rw [BitVec.slt_iff_toInt_lt, BitVec.toInt_eq_toNat_cond, BitVec.toInt_eq_toNat_cond] <;> omega
  simp only [amoValues, List.forall_mem_cons]
  refine ⟨?_, ?_, ?_, ?_, ?_, ?_, ?_, ?_, ?_, ?_, ?_, by simp⟩
  · refine BitVec.eq_of_toNat_eq ?_
    simp [amoNew]
  · exact (congrArg (BitVec.ofNat W) (if_congr (hslt x old) rfl rfl)).trans (ofNat_ite_toNat x old)
  · exact (congrArg (BitVec.ofNat W) (if_congr (hslt old x) rfl rfl)).trans (ofNat_ite_toNat x old)
  · have h : min old.toNat x.toNat = if x < old then x.toNat else old.toNat := by
      simp only [BitVec.lt_def]; split <;> omega
    exact (congrArg (BitVec.ofNat W) h).trans (ofNat_ite_toNat x old)
  · have h : max old.toNat x.toNat = if old < x then x.toNat else old.toNat := by
      simp only [BitVec.lt_def]; split <;> omega
    exact (congrArg (BitVec.ofNat W) h).trans (ofNat_ite_toNat x old)
  · exact (congrArg (BitVec.ofNat W) (BitVec.toNat_and ..).symm).trans (ofNat_toNat_self _)
  · exact (congrArg (BitVec.ofNat W) (BitVec.toNat_or ..).symm).trans (ofNat_toNat_self _)
  · exact (congrArg (BitVec.ofNat W) (BitVec.toNat_xor ..).symm).trans (ofNat_toNat_self _)
  · exact ofNat_toNat_self x
  · exact congrArg (fun f => BitVec.ofNat W (fpAdd f old.toNat x.toNat)) hwide
  · have h : amoNew 11 W old.toNat x.toNat = if x ≤ old then (0#W).toNat else old.toNat + 1 := by
      simp only [amoNew, BitVec.le_def, BitVec.toNat_zero]
    refine (congrArg (BitVec.ofNat W) h).trans ?_
    split
    · simp
    · refine BitVec.eq_of_toNat_eq ?_
      simp

/-! ## The words an atomic writes -/

/-- An invalid old word is left as it is by every operation but AMSWP. -/
theorem amoWords_of_invalid_old {k : Nat} {wide : Bool} {old : List W32} (x cmp : Val) (h : ∃ w ∈ old, w.valid = false) (hk : k ≠ 8) :
    amoWords k wide old x cmp = none := by
  have h1 : old.any (!·.valid) = true := by simpa using h
  simp only [amoWords, h1, if_true, if_neg hk]

/-- AMSWP writes whatever lay there: its operand, or the payload of an invalid one in every word. -/
theorem amoWords_swap_of_invalid_old {wide : Bool} {old : List W32} (x cmp : Val) (h : ∃ w ∈ old, w.valid = false) :
    amoWords 8 wide old x cmp = some (if x.valid then wordsOfNat wide (x.bits.toNat % 2 ^ (if wide then 64 else 32))
      else if wide then [invWord x, invWord x] else [invWord x]) := by
  have h1 : old.any (!·.valid) = true := by simpa using h
  simp only [amoWords, h1, if_true]

/-- An AMCAS whose expected value is invalid or another writes nothing. -/
theorem amoWords_cas_ne {wide : Bool} {old : List W32} (x : Val) {cmp : Val} (h : ∀ w ∈ old, w.valid = true)
    (hc : cmp.valid = false ∨ natOfWords old ≠ cmp.bits.toNat % 2 ^ (if wide then 64 else 32)) : amoWords 9 wide old x cmp = none := by
  have h1 : old.any (!·.valid) = false := by simpa using h
  have h2 : (!cmp.valid || natOfWords old != cmp.bits.toNat % 2 ^ (if wide then 64 else 32)) = true := by
    simpa using hc
  simp only [amoWords, h1, Bool.false_eq_true, if_false, h2, decide_true, Bool.and_self, if_true]

/-- Any other atomic on valid words writes. -/
theorem amoWords_of_valid_old {k : Nat} {wide : Bool} {old : List W32} (x : Val) {cmp : Val} (h : ∀ w ∈ old, w.valid = true)
    (hc : k = 9 → cmp.valid = true ∧ natOfWords old = cmp.bits.toNat % 2 ^ (if wide then 64 else 32)) :
    amoWords k wide old x cmp = some (if x.valid then
      wordsOfNat wide (amoNew k (if wide then 64 else 32) (natOfWords old) (x.bits.toNat % 2 ^ (if wide then 64 else 32)))
      else if wide then [invWord x, invWord x] else [invWord x]) := by
  have h1 : old.any (!·.valid) = false := by simpa using h
  have h2 : (decide (k = 9) && (!cmp.valid || natOfWords old != cmp.bits.toNat % 2 ^ (if wide then 64 else 32))) = false := by
    by_cases hk : k = 9
    · simp [hk, hc hk]
    · simp [hk]
  simp only [amoWords, h1, Bool.false_eq_true, if_false, h2]
  exact (apply_ite some _ _ _).symm

/-! ## What the statement asks of the memory an atomic leaves -/

/-- The bytes outside the operand are as before, and its words are those listed by `f`. -/
def State.putsWords (s : State) (a n : Nat) (m : Memory) (f : Nat → W32) : Prop :=
  (∀ c, c < s.place a ∨ s.place a + 4 * n ≤ c → m.byte c = s.mem.byte c) ∧ ∀ i, i < n → m.word (s.place a + 4 * i) = f i

theorem State.putsWords_setWords (s : State) (a : Nat) {n : Nat} {ws : List W32} {f : Nat → W32} (hl : ws.length = n)
    (h : ∀ i (hi : i < ws.length), ws[i] = f i) : s.putsWords a n (s.mem.setWords (s.place a) ws) f := by
  subst hl
  exact ⟨fun c hc => s.mem.byte_setWords_of_lt _ c ws hc, fun i hi => (s.mem.word_setWords _ ws i hi).trans (h i hi)⟩

section
variable {s : State} {r : Req} {wide : Bool} {W : Nat} (hW : W = 32 ∧ wide = false ∨ W = 64 ∧ wide = true)
include hW

theorem width_eq : (if wide then 64 else 32) = W ∧ (if wide then 2 else 1) = W / 32 := by
  rcases hW with ⟨rfl, rfl⟩ | ⟨rfl, rfl⟩ <;> simp

theorem State.putsWords_wordsOfNat (n : Nat) :
    s.putsWords r.pa.toNat (W / 32) (s.mem.setWords (s.place r.pa.toNat) (wordsOfNat wide n))
      fun i => ⟨true, (BitVec.ofNat W n).extractLsb' (32 * i) 32⟩ := by
  obtain ⟨hl, h⟩ := getElem_wordsOfNat hW n
  exact s.putsWords_setWords _ hl h

theorem State.putsWords_poison (x : Val) :
    s.putsWords r.pa.toNat (W / 32) (s.mem.setWords (s.place r.pa.toNat) (if wide then [invWord x, invWord x] else [invWord x]))
      fun _ => invWord x := by
  rcases hW with ⟨rfl, rfl⟩ | ⟨rfl, rfl⟩
  · exact s.putsWords_setWords _ rfl fun i hi => by
      have h : i = 0 := by simpa using hi
      subst h; rfl
  · exact s.putsWords_setWords _ rfl fun i hi => by
      have h : i = 0 ∨ i = 1 := by simp at hi; omega
      rcases h with rfl | rfl <;> rfl

end

/-! ## Atomics and reductions at their home -/

/-- An operation that may perform at its home: what the statement asks of its request. -/
structure State.AtHome (s : State) (id : Nat) (r : Req) : Prop where
  found : tfind s.reqs id = some r
  ready : s.homeReady id r = true
  covers : s.covers r.unit r.stamp 8 = true
  retained : r.retained = false
  acq : r.acq = false
  low : r.pa.toNat < 0xF0000000000
  free : s.justWritten r.pa.toNat = false

section
variable {s : State} {id : Nat} {r : Req} {wide : Bool} {W : Nat} (hW : W = 32 ∧ wide = false ∨ W = 64 ∧ wide = true) (ho : s.AtHome id r)
include hW ho

/-- How an AMO ends, when memory is left as `p` says. -/
theorem amoEnds_of {k : BitVec 4} {p : Memory → Prop} (h : p (s.amoMem r k wide)) : r.op = .amo k wide →
    ∃ t, exec (.amoPerform id) s = .next t ∧ p t.mem ∧
      ∃ y, tfind t.reqs id = some y ∧ y.resp = s.loadWords r.plot r.pa.toNat (W / 32) ∧ y.stage = .served := by
  intro hop
  obtain ⟨t, ht, hm, hy⟩ := amoPerform_ok ho.found ho.ready ho.covers ho.retained ho.acq ho.low ho.free hop
  rw [(width_eq hW).2] at hy
  exact ⟨t, ht, hm ▸ h, hy⟩

omit hW in
/-- How a RED ends, when memory is left as `p` says. -/
theorem redEnds_of {k : BitVec 4} {p : Memory → Prop} (h : p (s.amoMem r k wide)) : r.op = .red k wide →
    ∃ t, exec (.redPerform id) s = .next t ∧ p t.mem ∧ tfind t.reqs id = none := by
  intro hop
  obtain ⟨t, ht, hm, hn⟩ := redPerform_ok ho.found ho.ready ho.low ho.free hop
  exact ⟨t, ht, hm ▸ h, hn⟩

end

section
variable {s : State} {r : Req} {wide : Bool} {W : Nat} (hW : W = 32 ∧ wide = false ∨ W = 64 ∧ wide = true)

theorem State.amoMem_of_expired (k : BitVec 4) (h : s.expired r.pa.toNat = true) : s.amoMem r k wide = s.mem := by
  rw [State.amoMem, if_pos h]

include hW in
theorem State.amoMem_of_amoWords {k : BitVec 4} {o : Option (List W32)} (h : s.expired r.pa.toNat = false)
    (ho : amoWords k.toNat wide (s.loadWords r.plot r.pa.toNat (W / 32)) r.val r.cmp = o) :
    s.amoMem r k wide = s.putWords r.pa.toNat o := by
  rw [State.amoMem, h, if_neg Bool.false_ne_true, (width_eq hW).2, ho]

/-- The payload of an invalid operand fills the words. -/
def State.spoils (s : State) (r : Req) (n : Nat) (m : Memory) : Prop := s.putsWords r.pa.toNat n m fun _ => invWord r.val
/-- A value fills the words. -/
def State.stores (s : State) (r : Req) {W : Nat} (v : BitVec W) (m : Memory) : Prop :=
  s.putsWords r.pa.toNat (W / 32) m fun i => ⟨true, v.extractLsb' (32 * i) 32⟩

variable (hx : s.expired r.pa.toNat = false)
include hW hx

section
variable (hb : ∀ w ∈ s.loadWords r.plot r.pa.toNat (W / 32), w.valid = true)
include hb

theorem State.amoMem_spoils {k : BitVec 4} (hv : r.val.valid = false)
    (hc : k = 9 → r.cmp.valid = true ∧ natOfWords (s.loadWords r.plot r.pa.toNat (W / 32)) = r.cmp.bits.toNat % 2 ^ W) :
    s.spoils r (W / 32) (s.amoMem r k wide) := by
  have h := amoWords_of_valid_old (k := k.toNat) (wide := wide) r.val hb (cmp := r.cmp)
    fun h9 => (width_eq hW).1 ▸ hc (BitVec.eq_of_toNat_eq h9)
  rw [State.amoMem_of_amoWords hW hx h, hv]
  exact State.putsWords_poison hW r.val

theorem State.amoMem_stores {k : BitVec 4} {old v : BitVec W} (hv : r.val.valid = true)
    (hold : natOfWords (s.loadWords r.plot r.pa.toNat (W / 32)) = old.toNat)
    (hc : k = 9 → r.cmp.valid = true ∧ natOfWords (s.loadWords r.plot r.pa.toNat (W / 32)) = r.cmp.bits.toNat % 2 ^ W)
    (hval : BitVec.ofNat W (amoNew k.toNat W old.toNat (r.val.bits.extractLsb' 0 W).toNat) = v) :
    s.stores r v (s.amoMem r k wide) := by
  have h := amoWords_of_valid_old (k := k.toNat) (wide := wide) r.val hb (cmp := r.cmp)
    fun h9 => (width_eq hW).1 ▸ hc (BitVec.eq_of_toNat_eq h9)
  rw [State.amoMem_of_amoWords hW hx h, hv, if_pos rfl, (width_eq hW).1, hold]
  subst hval
  have := State.putsWords_wordsOfNat (s := s) (r := r) hW (amoNew k.toNat W old.toNat (r.val.bits.toNat % 2 ^ W))
  simpa [State.stores, State.putWords] using this

theorem State.amoMem_cas_ne (hc : r.cmp.valid = false ∨ natOfWords (s.loadWords r.plot r.pa.toNat (W / 32)) ≠ r.cmp.bits.toNat % 2 ^ W) :
    s.amoMem r 9 wide = s.mem := by
  refine State.amoMem_of_amoWords hW (k := 9) hx (amoWords_cas_ne r.val hb ?_)
  rwa [(width_eq hW).1]

end

section
variable (hb : ∃ w ∈ s.loadWords r.plot r.pa.toNat (W / 32), w.valid = false)
include hb

theorem State.amoMem_of_invalid_old {k : BitVec 4} (hk : k ≠ 8) : s.amoMem r k wide = s.mem :=
  State.amoMem_of_amoWords hW hx (amoWords_of_invalid_old r.val r.cmp hb fun h => hk (BitVec.eq_of_toNat_eq h))

theorem State.amoMem_swap_stores (hv : r.val.valid = true) : s.stores r (r.val.bits.extractLsb' 0 W) (s.amoMem r 8 wide) := by
  rw [State.amoMem_of_amoWords hW (k := 8) hx (amoWords_swap_of_invalid_old r.val r.cmp hb), hv, if_pos rfl, (width_eq hW).1]
  have := State.putsWords_wordsOfNat (s := s) (r := r) hW (r.val.bits.toNat % 2 ^ W)
  have he : BitVec.ofNat W (r.val.bits.toNat % 2 ^ W) = r.val.bits.extractLsb' 0 W := BitVec.eq_of_toNat_eq (by simp)
  rwa [he] at this

theorem State.amoMem_swap_spoils (hv : r.val.valid = false) : s.spoils r (W / 32) (s.amoMem r 8 wide) := by
  rw [State.amoMem_of_amoWords hW (k := 8) hx (amoWords_swap_of_invalid_old r.val r.cmp hb), hv]
  exact State.putsWords_poison hW r.val

end
end

theorem State.length_loadWords (s : State) (p a n : Nat) : (s.loadWords p a n).length = n := by
  induction n generalizing a with
  | zero => rfl
  | succ n ih => rw [State.loadWords, List.length_cons, ih]

/-- Settles O32: an atomic writes the words that `amoWords` gives from the words before it, which are also its answer. -/
theorem atomicsPerform : Obligations.AtomicsPerform := by
  unfold Obligations.AtomicsPerform
  intro s id W wide r hfound hready hcovers hret hacq hlow hfree hW _
  have ho : s.AtHome id r := ⟨hfound, hready, hcovers, hret, hacq, hlow, hfree⟩
  have hbytes : W / 8 = 4 * (W / 32) := by rcases hW with ⟨rfl, _⟩ | ⟨rfl, _⟩ <;> rfl
  rw [hbytes]
  intro before frame kept wrote spoiled amoEnds redEnds ops
  have keptAmo (k : BitVec 4) (h : s.amoMem r k wide = s.mem) : amoEnds k kept :=
    amoEnds_of hW ho (p := fun m => ∀ c, m.byte c = s.mem.byte c) fun c => by rw [h]
  have keptRed (k : BitVec 4) (h : s.amoMem r k wide = s.mem) : redEnds k kept :=
    redEnds_of ho (p := fun m => ∀ c, m.byte c = s.mem.byte c) fun c => by rw [h]
  refine ⟨fun hx k => ⟨keptAmo k (s.amoMem_of_expired k hx), keptRed k (s.amoMem_of_expired k hx)⟩,
    fun hx hb x old hxv hold => ?_, fun hx hb => ⟨fun k hk => ?_, fun hv => ?_, fun hv => ?_⟩⟩
  · have hnat : natOfWords before = old.toNat :=
      natOfWords_eq (hW.imp And.left And.left) (s.length_loadWords _ _ _) hold
    have hcmp : r.cmp.bits.toNat % 2 ^ W = (r.cmp.bits.extractLsb' 0 W).toNat := by simp
    subst hxv
    refine ⟨fun hv => ⟨fun e he => ?_, fun hcv hc => ?_⟩, fun hv => ⟨fun k hk => ?_, fun hcv hc => ?_⟩, fun hc => ?_⟩
    · have hne : e.1 = 9 → False := by
        revert e; simp
      have h := State.amoMem_stores hW hx hb hv hnat (fun h9 => (hne h9).elim) (ofNat_amoNew hW old _ e he)
      exact ⟨amoEnds_of hW ho h, redEnds_of ho h⟩
    · exact amoEnds_of hW ho (State.amoMem_stores hW hx hb hv hnat (fun _ => ⟨hcv, by rw [hcmp, hc, hnat]⟩) (ofNat_toNat_self _))
    · have hne : k ≠ 9 := by
        revert k; decide
      have h := State.amoMem_spoils hW hx hb hv (k := k) (fun h9 => (hne h9).elim)
      exact ⟨amoEnds_of hW ho h, redEnds_of ho h⟩
    · exact amoEnds_of hW ho (State.amoMem_spoils hW hx hb hv (k := 9) fun _ => ⟨hcv, by rw [hcmp, hc, hnat]⟩)
    · refine keptAmo 9 (State.amoMem_cas_ne hW hx hb (hc.imp_right fun h h' => h (BitVec.eq_of_toNat_eq ?_)))
      rw [← hcmp, ← h', hnat]
  · have h := State.amoMem_of_invalid_old hW hx hb hk
    exact ⟨keptAmo k h, keptRed k h⟩
  · exact amoEnds_of hW ho (State.amoMem_swap_stores hW hx hb hv)
  · exact amoEnds_of hW ho (State.amoMem_swap_spoils hW hx hb hv)

end Sys2Proof.Machine
end

section
/-! PROOF. What a DRN sends when the regions are listed out of order (R262, R270). -/

namespace Sys2Proof.Machine

/-! The table of regions may list a region behind one of a higher number. Setting such a region's entry then adds a second entry in front, the routes of
the region count twice, and a steer word that lies past the one destination before lies within the two after. -/

/-- The south port of line 0, with a steered connection. -/
def steeredDrain : PortMap := ⟨0, 0, 8, 4, 9, 0, 0, 0, 0, 0⟩
/-- A route of one lane from that port to the north port of line 0. -/
def steeredRoute : Route := ⟨0, 8, 0, 0, 4, 0, 0, 0, 0, [], 0⟩
/-- A started DRN of entry 0 of column 0, INT32. -/
def drainInstr : Instr := .drn ⟨0, 0, false, false, 0⟩ false 0 0 0 false 0 false false 0 0 false false
def drainWord : MWord := ⟨9, drainInstr, 0, 0, true, 0, 9, 0, 0, false, [], false, []⟩
/-- A region of one plot with that port and that route. -/
def drainRegion : Region :=
  { index := 0, die := 0, y0 := 0, x0 := 0, w := 1, h := 1, modes := 3, l1 := 0, discard := false, east := 0, south := 0, north := 0, west := 0, sig := 0
    rows := [0], cols := [0], ports := [steeredDrain], routes := [steeredRoute], armed := true, disarming := [], frozenProg := false, frozenTrap := false
    frozenLoad := false, frozenPre := false, trapDue := [], errors := 0, lost := false, wtag := [], wreg := [], xid := [], btag := [(0, 9)], bank := []
    status := 0, mq := [drainWord], member := none, ring := [] }
/-- Region 0 listed behind region 1, and a steer word of index 1 at the port. -/
def misorderedRegions : State :=
  { State.reset with
    plots := [(0, { Plot.init with region := some 0 })]
    regions := [(1, { drainRegion with routes := [] }), (0, drainRegion)]
    ports := [(8, { Port.init with steer := [⟨true, 1⟩] })] }

/-- The beat of the move is the output, since the index is then within the two routes counted; the beat of the statement is the index's fault. -/
theorem drnMove_misorderedRegions_ports :
    (misorderedRegions.drnMove 0 drainRegion [] drainWord).map (·.ports) ≠
      some (misorderedRegions.drainPush 8 (beatOf (drnWords 9 0 0 [.bad (payloadBits 6 0 0)]))).ports := by decide +kernel

/-- Refutes O10: in a state whose regions are not listed by rising number, the beat that a DRN sends through a steered port is steered among the routes
counted after its region's entry was set, not among those of the state before. -/
theorem not_matrixMoves : ¬ Obligations.MatrixMoves := by
  unfold Obligations.MatrixMoves
  rintro ⟨-, -, -, -, -, -, hdrn, -⟩
  obtain ⟨-, hmove⟩ := hdrn misorderedRegions 0 drainRegion [] drainWord ⟨0, 0, false, false, 0⟩ false false false false false false 0 0 0 0 0 0
    steeredDrain rfl rfl rfl
  obtain ⟨hsent, -⟩ := hmove rfl (by decide +kernel) (by simp)
  obtain ⟨t, ht, -, hp⟩ := hsent (.inl rfl)
  refine drnMove_misorderedRegions_ports ?_
  rw [ht, Option.map_some, hp]
  decide +kernel

end Sys2Proof.Machine
end

section
/-! PROOF. A finite number rounded into a float format (R53, R61-R64). -/

namespace Sys2Proof.Machine

/-! ## Rounding a real magnitude to whole units -/

/-- `n` is what `a` rounds to in a mode, for a magnitude of the sign given (R61). -/
def RoundsUnit (mode : Nat) (neg : Bool) (a : ℝ) (n : Nat) : Prop :=
  match mode with
  | 1 => (n : ℝ) ≤ a ∧ a < n + 1
  | 2 => if neg then (n : ℝ) ≤ a ∧ a < n + 1 else a ≤ n ∧ (n : ℝ) < a + 1
  | 3 => if neg then a ≤ n ∧ (n : ℝ) < a + 1 else (n : ℝ) ≤ a ∧ a < n + 1
  | _ => |a - n| ≤ 1 / 2 ∧ (|a - n| = 1 / 2 → if mode = 0 then n % 2 = 0 else a < n)

/-- A mode is one of five. -/
theorem mode_cases {mode : Nat} (h : mode < 5) : mode = 0 ∨ mode = 1 ∨ mode = 2 ∨ mode = 3 ∨ mode = 4 := by omega

/-- Rounding moves a magnitude by less than a unit. -/
theorem RoundsUnit.near {mode : Nat} {neg : Bool} {a : ℝ} {n : Nat} (hm : mode < 5) (h : RoundsUnit mode neg a n) :
    (n : ℝ) < a + 1 ∧ a < n + 1 := by
  have hnearest (h1 : |a - n| ≤ 1 / 2) : (n : ℝ) < a + 1 ∧ a < n + 1 := by
    obtain ⟨h2, h3⟩ := abs_le.mp h1
    constructor <;> linarith
  rcases mode_cases hm with rfl | rfl | rfl | rfl | rfl <;> simp only [RoundsUnit] at h
  · exact hnearest h.1
  · constructor <;> linarith
  · cases neg <;> simp only [if_true, Bool.false_eq_true, if_false] at h <;> constructor <;> linarith
  · cases neg <;> simp only [if_true, Bool.false_eq_true, if_false] at h <;> constructor <;> linarith
  · exact hnearest h.1

/-- A whole magnitude rounds to itself. -/
theorem RoundsUnit.self {mode : Nat} (hm : mode < 5) (neg : Bool) (n : Nat) : RoundsUnit mode neg n n := by
  rcases mode_cases hm with rfl | rfl | rfl | rfl | rfl <;> cases neg <;> simp [RoundsUnit] <;> norm_num

/-- The decision to round up, from whether the fraction is not zero, more than a half, a half. -/
def upBy (mode : Nat) (neg : Bool) (n : Nat) (any hi tie : Bool) : Bool :=
  match mode with
  | 0 => hi || (tie && n % 2 == 1)
  | 1 => false
  | 2 => any && !neg
  | 3 => any && neg
  | _ => hi || tie

/-- A whole part and a fraction. -/
structure Fraction (a : ℝ) (n : Nat) (fr : ℝ) : Prop where
  eq : a = n + fr
  nonneg : 0 ≤ fr
  lt_one : fr < 1

/-- Rounding down keeps the whole part. -/
theorem Fraction.floor {a fr : ℝ} {n : Nat} (h : Fraction a n fr) : (n : ℝ) ≤ a ∧ a < n + 1 := by
  obtain ⟨rfl, h0, h1⟩ := h
  exact ⟨by linarith, by linarith⟩

/-- Rounding up adds one when the fraction is not zero. -/
theorem Fraction.ceil {a fr : ℝ} {n : Nat} (h : Fraction a n fr) {any : Bool} (hany : any = true ↔ fr ≠ 0) :
    a ≤ (n + if any then 1 else 0 : Nat) ∧ ((n + if any then 1 else 0 : Nat) : ℝ) < a + 1 := by
  obtain ⟨rfl, h0, h1⟩ := h
  cases any with
  | false =>
    have hz : fr = 0 := by simpa using hany
    simp [hz]
  | true =>
    have hpos := lt_of_le_of_ne h0 (Ne.symm (hany.mp rfl))
    rw [if_pos rfl]
    push_cast
    exact ⟨by linarith, by linarith⟩

/-- Rounding up above a half and down below it moves by at most a half, and by a half only from a half. -/
theorem Fraction.nearest {a fr : ℝ} {n : Nat} (h : Fraction a n fr) {up : Bool} (hup : 1 / 2 < fr → up = true) (hdown : fr < 1 / 2 → up = false) :
    |a - (n + if up then 1 else 0 : Nat)| ≤ 1 / 2 ∧ (|a - (n + if up then 1 else 0 : Nat)| = 1 / 2 → fr = 1 / 2) := by
  obtain ⟨rfl, h0, h1⟩ := h
  cases up with
  | false =>
    have hle : fr ≤ 1 / 2 := not_lt.mp fun h => Bool.false_ne_true (hup h)
    have e : |(n : ℝ) + fr - (n + if false = true then 1 else 0 : Nat)| = fr := by
      simp [abs_of_nonneg h0]
    rw [e]
    exact ⟨hle, id⟩
  | true =>
    have hle : 1 / 2 ≤ fr := not_lt.mp fun h => Bool.false_ne_true (hdown h).symm
    have e : |(n : ℝ) + fr - (n + if true = true then 1 else 0 : Nat)| = 1 - fr := by
      rw [if_pos rfl, abs_of_nonpos (by push_cast; linarith)]
      push_cast
      ring
    rw [e]
    exact ⟨by linarith, fun h => by linarith⟩

/-- A magnitude rounds down when the decision is no, and up when it is yes. -/
theorem Fraction.roundsUnit {mode : Nat} (hm : mode < 5) (neg : Bool) {a fr : ℝ} {n : Nat} {any hi tie : Bool} (h : Fraction a n fr)
    (hany : any = true ↔ fr ≠ 0) (hhi : hi = true ↔ 1 / 2 < fr) (htie : tie = true ↔ fr = 1 / 2) :
    RoundsUnit mode neg a (n + if upBy mode neg n any hi tie then 1 else 0) := by
  have below (h' : fr < 1 / 2) : hi = false ∧ tie = false :=
    ⟨Bool.eq_false_iff.mpr fun e => by linarith [hhi.mp e], Bool.eq_false_iff.mpr fun e => by linarith [htie.mp e]⟩
  have at_half (e : fr = 1 / 2) : hi = false ∧ tie = true := ⟨Bool.eq_false_iff.mpr fun e' => by linarith [hhi.mp e'], htie.mpr e⟩
  rcases mode_cases hm with rfl | rfl | rfl | rfl | rfl
  case inl =>
    obtain ⟨h1, h2⟩ := h.nearest (up := hi || (tie && n % 2 == 1)) (fun h' => by simp [hhi.mpr h']) (fun h' => by simp [below h'])
    refine ⟨h1, fun h' => ?_⟩
    obtain ⟨e1, e2⟩ := at_half (h2 h')
    simp only [upBy, e1, e2, Bool.false_or, Bool.true_and, beq_iff_eq, if_true]
    split <;> omega
  case inr.inl => exact h.floor
  case inr.inr.inl =>
    cases neg with
    | false => simpa [RoundsUnit, upBy] using h.ceil hany
    | true => simpa [RoundsUnit, upBy] using h.floor
  case inr.inr.inr.inl =>
    cases neg with
    | false => simpa [RoundsUnit, upBy] using h.floor
    | true => simpa [RoundsUnit, upBy] using h.ceil hany
  case inr.inr.inr.inr =>
    obtain ⟨h1, h2⟩ := h.nearest (up := hi || tie) (fun h' => by simp [hhi.mpr h']) (fun h' => by simp [below h'])
    refine ⟨h1, fun h' => ?_⟩
    obtain ⟨e1, e2⟩ := at_half (h2 h')
    simp only [upBy, e1, e2, Bool.false_or, if_true]
    push_cast
    linarith [h.eq, h.lt_one]

/-! ## What `roundAt` gives -/

/-- `m` units of 2^e, and more below exactly when `sticky`: the magnitude `a`. -/
structure Stands (m : Nat) (e : Int) (sticky : Bool) (a : ℝ) : Prop where
  le : (m : ℝ) * 2 ^ e ≤ a
  lt : a < (m + 1) * 2 ^ e
  exact_iff : sticky = false ↔ a = m * 2 ^ e

theorem roundsUp_eq (mode : Nat) (neg : Bool) (n rem k : Nat) (sticky : Bool) :
    roundsUp mode neg n rem (k + 1) sticky = upBy mode neg n (rem != 0 || sticky) (decide (2 ^ k < rem) || (rem == 2 ^ k && sticky)) (rem == 2 ^ k && !sticky) := by
  unfold roundsUp upBy
  simp <;> rfl

/-- The part of a unit that lies below `m` whole ones. -/
theorem Stands.rest {m : Nat} {e : Int} {sticky : Bool} {a : ℝ} (h : Stands m e sticky a) :
    ∃ d : ℝ, a = (m + d) * 2 ^ e ∧ 0 ≤ d ∧ d < 1 ∧ (sticky = false ↔ d = 0) := by
  have hpos : (0 : ℝ) < 2 ^ e := by positivity
  have ha : a = (m + (a / 2 ^ e - m)) * 2 ^ e := by field_simp; ring
  refine ⟨a / 2 ^ e - m, ha, ?_, ?_, ?_⟩
  · have := (le_div_iff₀ hpos).mpr h.le
    linarith
  · have := (div_lt_iff₀ hpos).mpr h.lt
    linarith
  · rw [h.exact_iff, sub_eq_zero, div_eq_iff hpos.ne']

/-- Comparing `rem` whole units and a part `d` of one with `half` whole units. -/
theorem compare_units {rem half : Nat} {d : ℝ} {sticky : Bool} (h0 : 0 ≤ d) (h1 : d < 1) (hd : sticky = false ↔ d = 0) :
    ((rem != 0 || sticky) = true ↔ (rem : ℝ) + d ≠ 0) ∧
      ((decide (half < rem) || (rem == half && sticky)) = true ↔ (half : ℝ) < rem + d) ∧ ((rem == half && !sticky) = true ↔ (rem : ℝ) + d = half) := by
  have hrem : (0 : ℝ) ≤ rem := Nat.cast_nonneg _
  have hsum : (rem : ℝ) + d = 0 ↔ rem = 0 ∧ d = 0 := by
    rw [add_eq_zero_iff_of_nonneg hrem h0, Nat.cast_eq_zero]
  have hs : sticky = true ↔ 0 < d := by
    rw [← not_iff_not, Bool.not_eq_true, hd, not_lt]
    exact ⟨fun h => h.le, fun h => le_antisymm h h0⟩
  refine ⟨?_, ?_, ?_⟩
  · rw [Ne, hsum, ← hd]
    cases sticky <;> simp
  · rcases lt_trichotomy rem half with h | h | h
    · have hR : (rem : ℝ) + 1 ≤ half := by exact_mod_cast h
      simp only [not_lt.mpr h.le, h.ne, beq_iff_eq, decide_false, Bool.false_or, Bool.and_eq_true, false_and, false_iff, not_lt]
      linarith
    · subst h
      simpa using hs
    · have hR : (half : ℝ) + 1 ≤ rem := by exact_mod_cast h
      simp only [h, decide_true, Bool.true_or, true_iff]
      linarith
  · rcases lt_trichotomy rem half with h | h | h
    · have hR : (rem : ℝ) + 1 ≤ half := by exact_mod_cast h
      simp only [h.ne, beq_iff_eq, Bool.and_eq_true, false_and, false_iff]
      exact fun h' => by linarith
    · subst h
      simpa using hd
    · have hR : (half : ℝ) + 1 ≤ rem := by exact_mod_cast h
      simp only [h.ne', beq_iff_eq, Bool.and_eq_true, false_and, false_iff]
      exact fun h' => by linarith

/-- Units of 2^e counted in coarser ones: the whole part, and a fraction with its comparisons. -/
theorem Stands.fraction {m k : Nat} {e : Int} {sticky : Bool} {a : ℝ} (h : Stands m e sticky a) :
    ∃ fr, Fraction (a / 2 ^ (e + (k + 1 : Nat))) (m / 2 ^ (k + 1)) fr ∧ ((m % 2 ^ (k + 1) != 0 || sticky) = true ↔ fr ≠ 0) ∧
      ((decide (2 ^ k < m % 2 ^ (k + 1)) || (m % 2 ^ (k + 1) == 2 ^ k && sticky)) = true ↔ 1 / 2 < fr) ∧
      ((m % 2 ^ (k + 1) == 2 ^ k && !sticky) = true ↔ fr = 1 / 2) := by
  obtain ⟨d, ha, h0, h1, hd⟩ := h.rest
  have hsplit : (m : ℝ) = (m / 2 ^ (k + 1) : Nat) * 2 ^ (k + 1) + (m % 2 ^ (k + 1) : Nat) := by
    exact_mod_cast (Nat.div_add_mod' m (2 ^ (k + 1))).symm
  have hrem : m % 2 ^ (k + 1) < 2 ^ (k + 1) := Nat.mod_lt _ (by positivity)
  generalize m / 2 ^ (k + 1) = n at *
  generalize m % 2 ^ (k + 1) = rem at *
  have hk : (0 : ℝ) < 2 ^ (k + 1) := by positivity
  have hhalf : (1 : ℝ) / 2 = 2 ^ k / 2 ^ (k + 1) := by rw [pow_succ]; field_simp
  have hremR : (rem : ℝ) + 1 ≤ 2 ^ (k + 1) := by exact_mod_cast hrem
  refine ⟨(rem + d) / 2 ^ (k + 1), ⟨?_, by positivity, ?_⟩, ?_, ?_, ?_⟩
  · rw [ha, hsplit, zpow_add₀ two_ne_zero, zpow_natCast]
    field_simp
    ring
  · rw [div_lt_one hk]
    linarith
  · rw [(compare_units (half := 0) h0 h1 hd).1, Ne, Ne, div_eq_zero_iff, or_iff_left hk.ne']
  · rw [(compare_units (half := 2 ^ k) h0 h1 hd).2.1, hhalf, div_lt_div_iff_of_pos_right hk]
    push_cast
    rfl
  · rw [(compare_units (half := 2 ^ k) h0 h1 hd).2.2, hhalf, div_left_inj' hk.ne']
    push_cast
    rfl

/-- A fraction is zero exactly when the whole part, or one more, is the magnitude. -/
theorem Fraction.eq_zero_iff {a fr : ℝ} {n : Nat} (h : Fraction a n fr) (up : Bool) (hup : fr = 0 → up = false) :
    fr = 0 ↔ a = (n + if up then 1 else 0 : Nat) := by
  obtain ⟨rfl, h0, h1⟩ := h
  cases up with
  | false => simp
  | true =>
    constructor
    · intro h
      cases hup h
    · intro h
      rw [if_pos rfl] at h
      push_cast at h
      linarith

theorem upBy_of_exact (mode : Nat) (neg : Bool) (n : Nat) : upBy mode neg n false false false = false := by
  unfold upBy
  split <;> rfl

/-- A magnitude rounded to a multiple of 2^q; a sticky one lies in finer units. -/
theorem roundAt_roundsUnit {mode : Nat} (hm : mode < 5) (neg : Bool) {m : Nat} {e q : Int} {sticky : Bool} {a : ℝ} (h : Stands m e sticky a)
    (hq : sticky = true → e < q) :
    RoundsUnit mode neg (a / 2 ^ q) (roundAt mode neg m e q sticky).1 ∧
      ((roundAt mode neg m e q sticky).2 = false ↔ a / 2 ^ q = (roundAt mode neg m e q sticky).1) := by
  by_cases hle : q ≤ e
  · have hs : sticky = false := Bool.eq_false_iff.mpr fun hs => absurd (hq hs) (by omega)
    subst hs
    have hup : roundsUp mode neg (2 * m <<< (e - q).toNat) 0 1 false = false :=
      (roundsUp_eq mode neg _ 0 0 false).trans (upBy_of_exact mode neg _)
    have hr : roundAt mode neg m e q false = (m <<< (e - q).toNat, false) := by
      simp only [roundAt, if_pos hle, hup, Bool.false_eq_true, if_false, Nat.add_zero]
    have ha : a / 2 ^ q = (m <<< (e - q).toNat : Nat) := by
      obtain ⟨k, rfl⟩ := Int.le.dest hle
      rw [h.exact_iff.mp rfl, show (q + k - q).toNat = k by omega, Nat.shiftLeft_eq, zpow_add₀ two_ne_zero, zpow_natCast]
      push_cast
      field_simp
    rw [hr, ha]
    exact ⟨RoundsUnit.self hm neg _, by simp⟩
  · obtain ⟨k, rfl⟩ : ∃ k : Nat, q = e + (k + 1 : Nat) := ⟨(q - e).toNat - 1, by omega⟩
    have hk : (e + (k + 1 : Nat) - e).toNat = k + 1 := by omega
    obtain ⟨fr, hfr, hany, hhi, htie⟩ := h.fraction (k := k)
    have hr : roundAt mode neg m e (e + (k + 1 : Nat)) sticky = (m / 2 ^ (k + 1) + if upBy mode neg (m / 2 ^ (k + 1)) (m % 2 ^ (k + 1) != 0 || sticky)
        (decide (2 ^ k < m % 2 ^ (k + 1)) || (m % 2 ^ (k + 1) == 2 ^ k && sticky)) (m % 2 ^ (k + 1) == 2 ^ k && !sticky) then 1 else 0,
        m % 2 ^ (k + 1) != 0 || sticky) := by
      simp only [roundAt, if_neg hle, hk, roundsUp_eq]
    rw [hr]
    refine ⟨hfr.roundsUnit hm neg hany hhi htie, Iff.trans (not_iff_not.mp ?_) (hfr.eq_zero_iff _ fun h0 => ?_)⟩
    · rw [Bool.not_eq_false]
      exact hany
    · have e1 := Bool.eq_false_iff.mpr fun e => hany.mp e h0
      have e2 := Bool.eq_false_iff.mpr fun e => by linarith [hhi.mp e]
      have e3 := Bool.eq_false_iff.mpr fun e => by linarith [htie.mp e]
      rw [e1, e2, e3]
      exact upBy_of_exact mode neg _

/-! ## Codes of a float format and their values -/

section
variable {f : Nat} (h1 : 1 ≤ f) (h6 : f ≤ 6)
include h1 h6

/-- A float format is one of six. -/
theorem float_cases : f = 1 ∨ f = 2 ∨ f = 3 ∨ f = 4 ∨ f = 5 ∨ f = 6 := by omega

theorem fmtWidth_eq_bits : fmtWidth f = expBits f + fracBits f + 1 := by
  rcases float_cases h1 h6 with rfl | rfl | rfl | rfl | rfl | rfl <;> rfl
theorem fracBits_bounds : 2 ≤ fracBits f ∧ fracBits f ≤ 52 := by
  rcases float_cases h1 h6 with rfl | rfl | rfl | rfl | rfl | rfl <;> decide
theorem four_le_expBits : 4 ≤ expBits f := by
  rcases float_cases h1 h6 with rfl | rfl | rfl | rfl | rfl | rfl <;> decide

end

/-- The exponent of the lowest unit of a float format. -/
def lowExp (f : Nat) : Int := 1 - fBias f - fracBits f
/-- The exponent of the highest unit. -/
def topExp (f : Nat) : Int := (if f == 5 then 8 else fBias f) - fracBits f
/-- The most of the highest units that a finite code has. -/
def topUnits (f : Nat) : Nat := if f == 5 then 2 ^ (fracBits f + 1) - 2 else 2 ^ (fracBits f + 1) - 1
/-- The code with a sign, an exponent field and a fraction field. -/
def floatCode (f : Nat) (neg : Bool) (ex fr : Nat) : Nat := (if neg then 1 else 0) * 2 ^ (expBits f + fracBits f) + ex * 2 ^ fracBits f + fr
/-- Its value. -/
def fieldsValue (f : Nat) (neg : Bool) (ex fr : Nat) : Option Rat :=
  if ex = 2 ^ expBits f - 1 ∧ (f ≠ 5 ∨ fr = 7) then none
  else if ex = 0 then some ((if neg then -1 else 1) * fr * (2 : Rat) ^ lowExp f)
  else some ((if neg then -1 else 1) * (2 ^ fracBits f + fr : Nat) * (2 : Rat) ^ (lowExp f + (ex - 1 : Nat)))

/-- The fields of a code. -/
theorem floatCode_fields (f : Nat) (neg : Bool) {ex fr : Nat} (hex : ex < 2 ^ expBits f) (hfr : fr < 2 ^ fracBits f) :
    floatCode f neg ex fr / 2 ^ (expBits f + fracBits f) % 2 = (if neg then 1 else 0) ∧ floatCode f neg ex fr / 2 ^ fracBits f % 2 ^ expBits f = ex ∧
      floatCode f neg ex fr % 2 ^ fracBits f = fr := by
  have hlow : ex * 2 ^ fracBits f + fr < 2 ^ (expBits f + fracBits f) := by
    rw [pow_add]
    calc ex * 2 ^ fracBits f + fr < ex * 2 ^ fracBits f + 2 ^ fracBits f := by omega
      _ = (ex + 1) * 2 ^ fracBits f := by ring
      _ ≤ 2 ^ expBits f * 2 ^ fracBits f := Nat.mul_le_mul_right _ hex
  have hdiv : (ex * 2 ^ fracBits f + fr) / 2 ^ fracBits f = ex := by
    rw [Nat.mul_comm, Nat.mul_add_div (by positivity), Nat.div_eq_of_lt hfr, Nat.add_zero]
  refine ⟨?_, ?_, ?_⟩
  · unfold floatCode
    rw [Nat.add_assoc, Nat.mul_comm, Nat.mul_add_div (by positivity), Nat.div_eq_of_lt hlow]
    cases neg <;> rfl
  · unfold floatCode
    rw [Nat.add_assoc, pow_add, ← Nat.mul_assoc, Nat.mul_comm _ (2 ^ fracBits f), Nat.mul_add_div (by positivity), hdiv, Nat.add_comm,
      Nat.add_mul_mod_self_right, Nat.mod_eq_of_lt hex]
  · unfold floatCode
    rw [pow_add, ← Nat.mul_assoc, ← Nat.add_mul, Nat.mul_add_mod_self_right, Nat.mod_eq_of_lt hfr]

section
variable {f : Nat} (h1 : 1 ≤ f) (h6 : f ≤ 6)
include h1 h6

/-- Every code has fields. -/
theorem exists_floatCode {b : Nat} (hb : b < 2 ^ fmtWidth f) :
    ∃ neg ex fr, b = floatCode f neg ex fr ∧ ex < 2 ^ expBits f ∧ fr < 2 ^ fracBits f := by
  rw [fmtWidth_eq_bits h1 h6, pow_succ] at hb
  have hsign : b / 2 ^ (expBits f + fracBits f) < 2 := Nat.div_lt_of_lt_mul hb
  refine ⟨decide (b / 2 ^ (expBits f + fracBits f) = 1), b / 2 ^ fracBits f % 2 ^ expBits f, b % 2 ^ fracBits f, ?_,
    Nat.mod_lt _ (by positivity), Nat.mod_lt _ (by positivity)⟩
  have hs : (if decide (b / 2 ^ (expBits f + fracBits f) = 1) = true then 1 else 0) = b / 2 ^ fracBits f / 2 ^ expBits f := by
    rw [Nat.div_div_eq_div_mul, ← pow_add, Nat.add_comm (fracBits f)]
    generalize b / 2 ^ (expBits f + fracBits f) = x at hsign
    interval_cases x <;> rfl
  unfold floatCode
  rw [hs, pow_add, ← Nat.mul_assoc, ← Nat.add_mul, Nat.div_add_mod', Nat.div_add_mod']

/-- The value of the code with given fields. -/
theorem floatValue_floatCode (neg : Bool) {ex fr : Nat} (hex : ex < 2 ^ expBits f) (hfr : fr < 2 ^ fracBits f) :
    floatValue f (floatCode f neg ex fr) = fieldsValue f neg ex fr := by
  obtain ⟨hs, he, hr⟩ := floatCode_fields f neg hex hfr
  generalize floatCode f neg ex fr = b at *
  have hsign : (if b / 2 ^ (expBits f + fracBits f) % 2 = 1 then (-1 : Rat) else 1) = if neg then -1 else 1 := by
    rw [hs]
    cases neg <;> rfl
  have hval : floatValue f b = if b / 2 ^ fracBits f % 2 ^ expBits f = 2 ^ expBits f - 1 ∧ (f ≠ 5 ∨ b % 2 ^ fracBits f = 7) then none
      else if b / 2 ^ fracBits f % 2 ^ expBits f = 0 then
        some ((if b / 2 ^ (expBits f + fracBits f) % 2 = 1 then -1 else 1) * (b % 2 ^ fracBits f : Nat) * (2 : Rat) ^ (1 - fBias f - fracBits f))
      else some ((if b / 2 ^ (expBits f + fracBits f) % 2 = 1 then -1 else 1) * (2 ^ fracBits f + b % 2 ^ fracBits f : Nat) *
        (2 : Rat) ^ ((b / 2 ^ fracBits f % 2 ^ expBits f : Nat) - fBias f - fracBits f)) := by
    rcases float_cases h1 h6 with rfl | rfl | rfl | rfl | rfl | rfl <;> rfl
  rw [hval, hsign, he, hr, fieldsValue]
  refine if_congr Iff.rfl rfl ?_
  by_cases h0 : ex = 0
  · rw [if_pos h0, if_pos h0, lowExp]
  · rw [if_neg h0, if_neg h0, lowExp, show (ex : Int) - fBias f - fracBits f = 1 - fBias f - fracBits f + (ex - 1 : Nat) by omega]

theorem topExp_eq : topExp f = lowExp f + (2 ^ expBits f - (if f = 5 then 2 else 3) : Nat) := by
  rcases float_cases h1 h6 with rfl | rfl | rfl | rfl | rfl | rfl <;> decide
theorem topUnits_eq : topUnits f = 2 * 2 ^ fracBits f - (if f = 5 then 2 else 1) := by
  rcases float_cases h1 h6 with rfl | rfl | rfl | rfl | rfl | rfl <;> decide
theorem sixteen_le_two_pow_expBits : 16 ≤ 2 ^ expBits f := Nat.pow_le_pow_right (n := 2) (by omega) (four_le_expBits h1 h6)
omit h1 h6 in
theorem two_pow_fracBits_five (h : f = 5) : 2 ^ fracBits f = 8 ∧ 2 ^ expBits f = 16 := by subst h; decide

/-- A finite code is a number of units of one exponent: its greatest exponent has the fewest of them to spare. -/
theorem form_of_floatValue {c : Nat} {x : Rat} (hc : c < 2 ^ fmtWidth f) (hx : floatValue f c = some x) :
    ∃ (neg : Bool) (m t : Nat), x = (if neg then -1 else 1) * m * (2 : Rat) ^ (lowExp f + t) ∧ m < 2 ^ (fracBits f + 1) ∧ lowExp f + t ≤ topExp f ∧
      (lowExp f + t = topExp f → m ≤ topUnits f) := by
  obtain ⟨neg, ex, fr, rfl, hex, hfr⟩ := exists_floatCode h1 h6 hc
  rw [floatValue_floatCode h1 h6 neg hex hfr, fieldsValue] at hx
  have h16 := sixteen_le_two_pow_expBits h1 h6
  have h5 := two_pow_fracBits_five (f := f)
  rw [topExp_eq h1 h6, topUnits_eq h1 h6, pow_succ]
  split at hx
  · cases hx
  · rename_i hfin
    split at hx
    · refine ⟨neg, fr, 0, by simpa using hx.symm, by omega, ?_, fun h => ?_⟩
      · split <;> omega
      · split at h <;> omega
    · refine ⟨neg, 2 ^ fracBits f + fr, ex - 1, (Option.some.inj hx).symm, by omega, ?_, fun h => ?_⟩
      · split <;> omega
      · split at h <;> split <;> omega

theorem floatCode_lt (neg : Bool) {ex fr : Nat} (hex : ex < 2 ^ expBits f) (hfr : fr < 2 ^ fracBits f) : floatCode f neg ex fr < 2 ^ fmtWidth f := by
  have hmul : (ex + 1) * 2 ^ fracBits f ≤ 2 ^ expBits f * 2 ^ fracBits f := Nat.mul_le_mul_right _ hex
  rw [fmtWidth_eq_bits h1 h6, pow_succ, floatCode, pow_add]
  rw [Nat.add_mul] at hmul
  cases neg <;> simp only [if_true, Bool.false_eq_true, if_false] <;> omega

/-- Units counted from the lowest exponent are the fields of a code: the steps of the exponent, with a carry when they are too many. -/
theorem fields_of_units (neg : Bool) {n t : Nat} (hn : n ≤ 2 ^ (fracBits f + 1)) (hlow : t = 0 ∨ 2 ^ fracBits f ≤ n)
    (htop : lowExp f + t ≤ topExp f) (hmax : lowExp f + t = topExp f → n ≤ topUnits f) :
    ∃ ex fr, ex < 2 ^ expBits f ∧ fr < 2 ^ fracBits f ∧ t * 2 ^ fracBits f + n = ex * 2 ^ fracBits f + fr ∧
      fieldsValue f neg ex fr = some ((if neg then -1 else 1) * n * (2 : Rat) ^ (lowExp f + t)) := by
  have h16 := sixteen_le_two_pow_expBits h1 h6
  have h5 := two_pow_fracBits_five (f := f)
  have hpos : 0 < 2 ^ fracBits f := by positivity
  rw [topExp_eq h1 h6] at htop hmax
  rw [topUnits_eq h1 h6] at hmax
  rw [pow_succ] at hn
  by_cases hsub : n < 2 ^ fracBits f
  · obtain rfl : t = 0 := by omega
    refine ⟨0, n, by omega, hsub, rfl, ?_⟩
    rw [fieldsValue, if_neg (by omega), if_pos rfl]
    simp
  · by_cases hcarry : n = 2 ^ fracBits f * 2
    · refine ⟨t + 2, 0, ?_, hpos, by rw [hcarry]; ring, ?_⟩
      · split at htop <;> split at hmax <;> omega
      · have hfin : ¬ (t + 2 = 2 ^ expBits f - 1 ∧ (f ≠ 5 ∨ 0 = 7)) := by
          rintro ⟨ht, h | h⟩
          · rw [if_neg h, if_neg h] at *
            omega
          · cases h
        rw [fieldsValue, if_neg hfin, if_neg (by omega), hcarry, show lowExp f + (t + 2 - 1 : Nat) = lowExp f + t + 1 by omega,
          zpow_add_one₀ two_ne_zero]
        push_cast
        congr 1
        ring
    · refine ⟨t + 1, n - 2 ^ fracBits f, ?_, by omega, by rw [Nat.add_mul]; omega, ?_⟩
      · split at htop <;> omega
      · have hfin : ¬ (t + 1 = 2 ^ expBits f - 1 ∧ (f ≠ 5 ∨ n - 2 ^ fracBits f = 7)) := by
          rintro ⟨ht, h⟩
          split at htop <;> split at hmax <;> omega
        rw [fieldsValue, if_neg hfin, if_neg (by omega), show 2 ^ fracBits f + (n - 2 ^ fracBits f) = n by omega, Nat.add_sub_cancel]

/-- A number of units of one exponent is a finite code, when the exponent is the lowest or the units are enough, and there are not too many. -/
theorem floatValue_of_units (neg : Bool) {n t : Nat} (hn : n ≤ 2 ^ (fracBits f + 1)) (hlow : t = 0 ∨ 2 ^ fracBits f ≤ n)
    (htop : lowExp f + t ≤ topExp f) (hmax : lowExp f + t = topExp f → n ≤ topUnits f) :
    let b := (if neg then 2 ^ (expBits f + fracBits f) else 0) + t * 2 ^ fracBits f + n
    b < 2 ^ fmtWidth f ∧ b % 2 = n % 2 ∧ floatValue f b = some ((if neg then -1 else 1) * n * (2 : Rat) ^ (lowExp f + t)) := by
  intro b
  obtain ⟨ex, fr, hex, hfr, hsum, hval⟩ := fields_of_units h1 h6 neg hn hlow htop hmax
  have hb : b = floatCode f neg ex fr := by
    simp only [b, floatCode, Nat.add_assoc, hsum]
    cases neg <;> simp
  refine ⟨hb ▸ floatCode_lt h1 h6 neg hex hfr, ?_, by rw [hb, floatValue_floatCode h1 h6 neg hex hfr, hval]⟩
  have hmb := fracBits_bounds h1 h6
  obtain ⟨j, hj⟩ : ∃ j, fracBits f = j + 1 := ⟨fracBits f - 1, by omega⟩
  have heven : ((if neg then 2 ^ (expBits f + fracBits f) else 0) + t * 2 ^ fracBits f) % 2 = 0 := by
    rw [hj, ← Nat.add_assoc, pow_succ, pow_succ, ← Nat.mul_assoc]
    cases neg <;> simp only [if_true, Bool.false_eq_true, if_false] <;> omega
  simp only [b]
  omega

end

/-! ## A code among all codes -/

/-- What `roundsTo` asks of a result `r` for the number `v` and another value `x`. -/
def RoundsAmong (mode : Nat) (v r x : ℝ) (even : Prop) : Prop :=
  match mode with
  | 1 => (0 ≤ v → r ≤ v ∧ (x ≤ v → x ≤ r)) ∧ (v ≤ 0 → v ≤ r ∧ (v ≤ x → r ≤ x))
  | 2 => v ≤ r ∧ (v ≤ x → r ≤ x)
  | 3 => r ≤ v ∧ (x ≤ v → x ≤ r)
  | _ => (x < r → (x + r) / 2 ≤ v) ∧ (r < x → v ≤ (x + r) / 2) ∧
      (x ≠ r → (x + r) / 2 ≤ v → v ≤ (x + r) / 2 → if mode = 0 then even else x * x < r * r)

/-- Values a code may have, in the units that a magnitude is rounded to: whole ones, and any that are less than `low` in magnitude. -/
def Grid (low : Nat) (x : ℝ) : Prop := (∃ j : Int, x = j) ∨ |x| < low

theorem Grid.neg {low : Nat} {x : ℝ} (h : Grid low x) : Grid low (-x) := by
  rcases h with ⟨j, rfl⟩ | h
  · exact .inl ⟨-j, by push_cast; rfl⟩
  · exact .inr (by rwa [abs_neg])

section
variable {low n : Nat} {a x : ℝ} (hlow : (low : ℝ) ≤ a) (hx : Grid low x)
include hlow hx

/-- No value lies between a magnitude and the whole units below it. -/
theorem Grid.le_of_le (h : a < n + 1) (h' : x ≤ a) : x ≤ n := by
  rcases hx with ⟨j, rfl⟩ | hx
  · have hj : j < (n : Int) + 1 := by exact_mod_cast h'.trans_lt h
    exact_mod_cast Int.lt_add_one_iff.mp hj
  · have hl : low < n + 1 := by exact_mod_cast hlow.trans_lt h
    have hl' : (low : ℝ) ≤ n := by exact_mod_cast Nat.lt_succ_iff.mp hl
    exact ((le_abs_self x).trans hx.le).trans hl'

/-- No value lies between a magnitude and the whole units above it. -/
theorem Grid.ge_of_ge (h : (n : ℝ) < a + 1) (h' : a ≤ x) : (n : ℝ) ≤ x := by
  rcases hx with ⟨j, rfl⟩ | hx
  · have hj : (n : Int) < j + 1 := by
      have : (n : ℝ) < j + 1 := by linarith
      exact_mod_cast this
    exact_mod_cast Int.lt_add_one_iff.mp hj
  · have := (le_abs_self x).trans_lt hx
    linarith

/-- The nearest whole units are nearer than any other value; where one is as near, the magnitude is a half away. -/
theorem Grid.nearest (h : |a - n| ≤ 1 / 2) :
    (x < n → (x + n) / 2 ≤ a) ∧ ((n : ℝ) < x → a ≤ (x + n) / 2) ∧ (x ≠ n → (x + n) / 2 = a → |a - n| = 1 / 2 ∧ (a < n → |x| < n)) := by
  obtain ⟨ha, ha'⟩ := abs_le.mp h
  rcases hx with ⟨j, rfl⟩ | hx
  · have hdown (hj : (j : ℝ) < n) : (j : ℝ) ≤ n - 1 := by
      have hj' : j < (n : Int) := by exact_mod_cast hj
      exact_mod_cast Int.le_sub_one_of_lt hj'
    have hup (hj : (n : ℝ) < j) : (n : ℝ) + 1 ≤ j := by
      have hj' : (n : Int) < j := by exact_mod_cast hj
      exact_mod_cast Int.add_one_le_of_lt hj'
    refine ⟨fun hj => by linarith [hdown hj], fun hj => by linarith [hup hj], fun hne htie => ?_⟩
    rcases lt_or_gt_of_ne hne with hj | hj
    · have hj1 := hdown hj
      have ea : a = n - 1 / 2 := by linarith
      have ej : (j : ℝ) = n - 1 := by linarith
      have hn : 1 ≤ n := by
        have : (0 : ℝ) ≤ low := Nat.cast_nonneg _
        have : (0 : ℝ) < n := by linarith
        exact_mod_cast this
      have hnR : (1 : ℝ) ≤ n := by exact_mod_cast hn
      refine ⟨?_, fun _ => ?_⟩
      · rw [ea, abs_of_nonpos (by linarith)]
        ring
      · rw [ej, abs_of_nonneg (by linarith)]
        linarith
    · have hj1 := hup hj
      have ea : a = n + 1 / 2 := by linarith
      refine ⟨?_, fun h' => by linarith⟩
      rw [ea, abs_of_nonneg (by linarith)]
      ring
  · have hxl := (le_abs_self x).trans_lt hx
    have hln : low < n + 1 := by
      have : (low : ℝ) < n + 1 := by linarith
      exact_mod_cast this
    have hmid : x < n ∧ (x + n) / 2 < a := by
      rcases Nat.lt_or_ge low n with hl | hl
      · have hlR : (low : ℝ) + 1 ≤ n := by exact_mod_cast hl
        constructor <;> linarith
      · have hlR : (n : ℝ) ≤ low := by exact_mod_cast hl
        have hlR' : (low : ℝ) ≤ n := by exact_mod_cast Nat.lt_succ_iff.mp hln
        constructor <;> linarith
    exact ⟨fun _ => hmid.2.le, fun h' => by linarith [hmid.1], fun _ htie => absurd htie hmid.2.ne⟩

end

/-- Rounding to nearest, with either sign: what the tie asks, it has. -/
theorem Grid.nearest_among {low n : Nat} {a x : ℝ} (neg : Bool) (hlow : (low : ℝ) ≤ a) (hx : Grid low x) (h : |a - n| ≤ 1 / 2) {tie : Prop}
    (htie : |a - n| = 1 / 2 → (a < n → |x| < n) → tie) :
    let s : ℝ := if neg then -1 else 1
    (x < s * n → (x + s * n) / 2 ≤ s * a) ∧ (s * n < x → s * a ≤ (x + s * n) / 2) ∧
      (x ≠ s * n → (x + s * n) / 2 ≤ s * a → s * a ≤ (x + s * n) / 2 → tie) := by
  cases neg with
  | false =>
    obtain ⟨h1, h2, h3⟩ := Grid.nearest hlow hx h
    simp only [Bool.false_eq_true, if_false, one_mul]
    exact ⟨h1, h2, fun hne h4 h5 => htie (h3 hne (le_antisymm h4 h5)).1 (h3 hne (le_antisymm h4 h5)).2⟩
  | true =>
    obtain ⟨h1, h2, h3⟩ := Grid.nearest hlow hx.neg h
    simp only [if_true, neg_one_mul]
    refine ⟨fun h4 => by linarith [h2 (by linarith)], fun h4 => by linarith [h1 (by linarith)], fun hne h4 h5 => ?_⟩
    obtain ⟨h6, h7⟩ := h3 (fun e => hne (by linarith)) (by linarith)
    rw [abs_neg] at h7
    exact htie h6 h7

/-- Rounding a magnitude down moves toward zero, up away from it, with either sign. -/
theorem Grid.toward_zero {low n : Nat} {a x : ℝ} (neg : Bool) (hlow : (low : ℝ) ≤ a) (hx : Grid low x) (h : (n : ℝ) ≤ a ∧ a < n + 1) :
    if neg then -a ≤ -n ∧ (-a ≤ x → -n ≤ x) else (n : ℝ) ≤ a ∧ (x ≤ a → x ≤ n) := by
  cases neg with
  | false => exact ⟨h.1, Grid.le_of_le hlow hx h.2⟩
  | true => exact ⟨by linarith, fun h' => by linarith [Grid.le_of_le hlow hx.neg h.2 (by linarith)]⟩
theorem Grid.from_zero {low n : Nat} {a x : ℝ} (neg : Bool) (hlow : (low : ℝ) ≤ a) (hx : Grid low x) (h : a ≤ n ∧ (n : ℝ) < a + 1) :
    if neg then -n ≤ -a ∧ (x ≤ -a → x ≤ -n) else a ≤ n ∧ (a ≤ x → n ≤ x) := by
  cases neg with
  | false => exact ⟨h.1, Grid.ge_of_ge hlow hx h.2⟩
  | true => exact ⟨by linarith [h.1], fun h' => by linarith [Grid.ge_of_ge hlow hx.neg h.2 (by linarith)]⟩

/-- A magnitude rounded to whole units is, with its sign, what its mode asks among all values. -/
theorem RoundsUnit.among {mode : Nat} (hm : mode < 5) {neg : Bool} {a x : ℝ} {n low : Nat} (h : RoundsUnit mode neg a n) (hlow : (low : ℝ) ≤ a)
    (hx : Grid low x) {even : Prop} (heven : n % 2 = 0 → even) :
    RoundsAmong mode ((if neg then -1 else 1) * a) ((if neg then -1 else 1) * n) x even := by
  have h0 : (0 : ℝ) ≤ a := (Nat.cast_nonneg _).trans hlow
  rcases mode_cases hm with rfl | rfl | rfl | rfl | rfl
  case inl => exact hx.nearest_among neg hlow h.1 fun h1 _ => heven (h.2 h1)
  case inr.inl =>
    have hz := hx.toward_zero neg hlow h
    cases neg with
    | false =>
      simp only [Bool.false_eq_true, if_false, one_mul] at hz ⊢
      refine ⟨fun _ => hz, fun ha => ?_⟩
      have ha0 : a = 0 := le_antisymm ha h0
      have hn0 : (n : ℝ) = 0 := le_antisymm (hz.1.trans ha) (Nat.cast_nonneg _)
      rw [ha0, hn0]
      exact ⟨le_rfl, id⟩
    | true =>
      simp only [if_true, neg_one_mul] at hz ⊢
      refine ⟨fun ha => ?_, fun _ => hz⟩
      have ha0 : a = 0 := by linarith
      have hn0 : (n : ℝ) = 0 := le_antisymm (by linarith [hz.1]) (Nat.cast_nonneg _)
      rw [ha0, hn0]
      exact ⟨le_rfl, id⟩
  case inr.inr.inl =>
    cases neg with
    | false => simpa [RoundsAmong] using hx.from_zero false hlow h
    | true => simpa [RoundsAmong] using hx.toward_zero true hlow h
  case inr.inr.inr.inl =>
    cases neg with
    | false => simpa [RoundsAmong] using hx.toward_zero false hlow h
    | true => simpa [RoundsAmong] using hx.from_zero true hlow h
  case inr.inr.inr.inr =>
    refine hx.nearest_among neg hlow h.1 fun h1 h2 => ?_
    have habs := h2 (h.2 h1)
    rw [if_neg (by omega)]
    have hs : ((if neg then -1 else 1) * (n : ℝ)) * ((if neg then -1 else 1) * n) = n * n := by cases neg <;> simp
    rw [hs, ← abs_mul_abs_self x]
    exact mul_self_lt_mul_self (abs_nonneg x) habs

/-! ## Rounding to a code -/

/-- Scaling by a unit: `roundsTo` asks of a code what `RoundsAmong` asks of the counts of units. -/
theorem roundsTo_of_among {f mode : Nat} (hm : mode < 5) {q : Int} {v r : ℝ} {z : Rat} {b : Nat} (hb : floatValue f b = some z) (hr : (z : ℝ) = r * 2 ^ q)
    (h : ∀ c x, c < 2 ^ fmtWidth f → floatValue f c = some x → RoundsAmong mode v r ((x : ℝ) / 2 ^ q) (b % 2 = 0)) :
    roundsTo f mode (fun x => (x : ℝ) ≤ v * 2 ^ q) (fun x => v * 2 ^ q ≤ (x : ℝ)) b := by
  have hq : (0 : ℝ) < 2 ^ q := by positivity
  refine ⟨z, hb, fun c x hc hx => ?_⟩
  have hs := h c x hc hx
  generalize hX : (x : ℝ) / 2 ^ q = X at hs
  have hxX : (x : ℝ) = X * 2 ^ q := by rw [← hX]; field_simp
  have hle (u w : ℝ) : u * 2 ^ q ≤ w * 2 ^ q ↔ u ≤ w := mul_le_mul_iff_left₀ hq
  have hlt (u w : ℝ) : u * 2 ^ q < w * 2 ^ q ↔ u < w := mul_lt_mul_iff_left₀ hq
  have hmid : (((x + z) / 2 : Rat) : ℝ) = (X + r) / 2 * 2 ^ q := by push_cast; rw [hxX, hr]; ring
  have hzero : ((0 : Rat) : ℝ) = 0 * 2 ^ q := by simp
  have hxz : x ≤ z ↔ X ≤ r := by rw [← hle, ← hxX, ← hr, Rat.cast_le]
  have hzx : z ≤ x ↔ r ≤ X := by rw [← hle, ← hxX, ← hr, Rat.cast_le]
  have hxz' : x < z ↔ X < r := by rw [← hlt, ← hxX, ← hr, Rat.cast_lt]
  have hzx' : z < x ↔ r < X := by rw [← hlt, ← hxX, ← hr, Rat.cast_lt]
  have hsq : x * x < z * z ↔ X * X < r * r := by
    rw [← Rat.cast_lt (K := ℝ), Rat.cast_mul, Rat.cast_mul, hxX, hr, mul_mul_mul_comm, mul_mul_mul_comm r]
    exact mul_lt_mul_iff_left₀ (by positivity)
  have hne : x ≠ z ↔ X ≠ r := by rw [ne_iff_lt_or_gt, ne_iff_lt_or_gt, hxz', hzx']
  simp only [hmid, hzero, hr, hxX, hle, hxz, hzx, hxz', hzx', hsq, hne]
  rcases mode_cases hm with rfl | rfl | rfl | rfl | rfl <;> exact hs

/-! ## A number rounded into a float format -/

/-- A magnitude in units of the exponent `t` steps above the lowest, fine enough for it: only the lowest units may be fewer than a format's fraction bits count. -/
structure InUnits (f t : Nat) (a : ℝ) : Prop where
  nonneg : 0 ≤ a
  enough : t ≠ 0 → (2 : ℝ) ^ fracBits f ≤ a / 2 ^ (lowExp f + t)
  fit : a / 2 ^ (lowExp f + t) < 2 ^ (fracBits f + 1)

/-- The least magnitude, in units, at which codes have no finer values. -/
def lowUnits (f t : Nat) : Nat := if t = 0 then 0 else 2 ^ fracBits f

theorem InUnits.lowUnits_le {f t : Nat} {a : ℝ} (h : InUnits f t a) : (lowUnits f t : ℝ) ≤ a / 2 ^ (lowExp f + t) := by
  unfold lowUnits
  split
  · have := h.nonneg
    push_cast
    positivity
  · push_cast
    exact h.enough ‹_›

section
variable {f : Nat} (h1 : 1 ≤ f) (h6 : f ≤ 6)
include h1 h6

/-- In the units of a magnitude every code has a whole value or one too small to lie near. -/
theorem grid_of_floatValue (t : Nat) {c : Nat} {x : Rat} (hc : c < 2 ^ fmtWidth f) (hx : floatValue f c = some x) :
    Grid (lowUnits f t) ((x : ℝ) / 2 ^ (lowExp f + t)) := by
  obtain ⟨neg, m, u, rfl, hm, -, -⟩ := form_of_floatValue h1 h6 hc hx
  have hcast : (((if neg then -1 else 1) * m * (2 : Rat) ^ (lowExp f + u) : Rat) : ℝ) = (if neg then -1 else 1) * m * 2 ^ (lowExp f + u) := by
    cases neg <;> push_cast <;> simp
  rw [hcast, mul_div_assoc, ← zpow_sub₀ two_ne_zero, show lowExp f + u - (lowExp f + t) = (u : Int) - t by ring]
  rcases Nat.lt_or_ge u t with ht | ht
  · right
    have hmR : (m : ℝ) < 2 ^ (fracBits f + 1) := by exact_mod_cast hm
    have hpow : (2 : ℝ) ^ ((u : Int) - t) ≤ 2 ^ (-1 : Int) := zpow_le_zpow_right₀ one_le_two (by omega)
    have hpos : (0 : ℝ) < 2 ^ ((u : Int) - t) := by positivity
    have habs : |(if neg then -1 else 1) * (m : ℝ) * 2 ^ ((u : Int) - t)| = m * 2 ^ ((u : Int) - t) := by
      rw [abs_mul, abs_mul, abs_of_pos hpos, Nat.abs_cast]
      cases neg <;> simp
    rw [habs, lowUnits, if_neg (by omega)]
    push_cast
    rw [pow_succ] at hmR
    rw [zpow_neg_one] at hpow
    calc (m : ℝ) * 2 ^ ((u : Int) - t) ≤ m * 2⁻¹ := mul_le_mul_of_nonneg_left hpow (Nat.cast_nonneg m)
      _ < 2 ^ fracBits f := by linarith
  · left
    obtain ⟨d, rfl⟩ := Nat.exists_eq_add_of_le ht
    refine ⟨(if neg then -1 else 1) * m * 2 ^ d, ?_⟩
    rw [show ((t + d : Nat) : Int) - t = d by push_cast; ring, zpow_natCast]
    cases neg <;> push_cast <;> simp

/-- Whole units that a magnitude rounds to, when they are a code, are the code that rounding asks for. -/
theorem roundsTo_of_roundsUnit {mode : Nat} (hm : mode < 5) (neg : Bool) {n t : Nat} {a : ℝ} (ha : InUnits f t a)
    (h : RoundsUnit mode neg (a / 2 ^ (lowExp f + t)) n) (htop : lowExp f + t ≤ topExp f) (hmax : lowExp f + t = topExp f → n ≤ topUnits f) :
    let b := (if neg then 2 ^ (expBits f + fracBits f) else 0) + t * 2 ^ fracBits f + n
    let v : ℝ := (if neg then -1 else 1) * a
    b < 2 ^ fmtWidth f ∧ floatValue f b = some ((if neg then -1 else 1) * n * (2 : Rat) ^ (lowExp f + t)) ∧
      roundsTo f mode (fun x => (x : ℝ) ≤ v) (fun x => v ≤ (x : ℝ)) b := by
  intro b v
  obtain ⟨hnear, hnear'⟩ := h.near hm
  have hn : n ≤ 2 ^ (fracBits f + 1) := by
    have hlt : (n : ℝ) < 2 ^ (fracBits f + 1) + 1 := by linarith [ha.fit]
    have : n < 2 ^ (fracBits f + 1) + 1 := by exact_mod_cast hlt
    omega
  have hlow : t = 0 ∨ 2 ^ fracBits f ≤ n := by
    by_cases ht : t = 0
    · exact .inl ht
    · have hlt : (2 : ℝ) ^ fracBits f < n + 1 := (ha.enough ht).trans_lt hnear'
      have : 2 ^ fracBits f < n + 1 := by exact_mod_cast hlt
      exact .inr (by omega)
  obtain ⟨hb, heven, hval⟩ := floatValue_of_units h1 h6 neg hn hlow htop hmax
  refine ⟨hb, hval, ?_⟩
  have hv : v = (if neg then -1 else 1) * (a / 2 ^ (lowExp f + t)) * 2 ^ (lowExp f + t) := by
    rw [mul_assoc, div_mul_cancel₀ _ (by positivity)]
  rw [hv]
  refine roundsTo_of_among hm (r := (if neg then -1 else 1) * n) hval ?_ fun c x hc hx => ?_
  · cases neg <;> push_cast <;> simp
  · exact h.among hm ha.lowUnits_le (grid_of_floatValue h1 h6 t hc hx) fun h => by rw [heven]; exact h

/-- A magnitude above the most of the highest units exceeds every code. -/
theorem abs_floatValue_lt {c : Nat} {x : Rat} (hc : c < 2 ^ fmtWidth f) (hx : floatValue f c = some x) {a : ℝ}
    (ha : (topUnits f : ℝ) * 2 ^ topExp f < a) : |(x : ℝ)| < a := by
  refine lt_of_le_of_lt ?_ ha
  obtain ⟨neg, m, u, rfl, hm, hu, hmax⟩ := form_of_floatValue h1 h6 hc hx
  have habs : |(((if neg then -1 else 1) * m * (2 : Rat) ^ (lowExp f + u) : Rat) : ℝ)| = m * 2 ^ (lowExp f + u) := by
    have hpos : (0 : ℝ) < 2 ^ (lowExp f + u) := by positivity
    cases neg <;> push_cast <;> simp [abs_mul, abs_of_pos hpos]
  rw [habs]
  rcases eq_or_lt_of_le hu with h | h
  · rw [h]
    exact mul_le_mul_of_nonneg_right (by exact_mod_cast hmax h) (by positivity)
  · have hpow : (2 : ℝ) ^ (lowExp f + u) ≤ 2 ^ (topExp f - 1) := zpow_le_zpow_right₀ one_le_two (by omega)
    have hm2 : m ≤ 2 * topUnits f := by
      have hu := topUnits_eq h1 h6
      have h5 := two_pow_fracBits_five (f := f)
      have h2 : 2 ^ 2 ≤ 2 ^ fracBits f := Nat.pow_le_pow_right (by omega) (fracBits_bounds h1 h6).1
      rw [pow_succ] at hm
      split at hu <;> omega
    have hm2R : (m : ℝ) ≤ 2 * topUnits f := by exact_mod_cast hm2
    calc (m : ℝ) * 2 ^ (lowExp f + u) ≤ 2 * topUnits f * 2 ^ (topExp f - 1) := mul_le_mul hm2R hpow (by positivity) (by positivity)
      _ = topUnits f * 2 ^ topExp f := by rw [zpow_sub_one₀ two_ne_zero]; ring

end

/-- The exponent of the units that a magnitude is rounded to. -/
def unitExp (f m : Nat) (e : Int) : Int := max ((Nat.log2 m : Int) + e - fracBits f) (lowExp f)
/-- The sign's weight in a code. -/
def signWeight (f : Nat) (neg : Bool) : Nat := if neg then 2 ^ (expBits f + fracBits f) else 0
/-- What an out-of-range magnitude gives (R64, log 54). -/
def outOfRange (f mode : Nat) (sat neg : Bool) : Nat × Flags :=
  if sat then (signWeight f neg + maxBits f, fSat ||| fInexact)
  else ((if mode == 0 || 4 ≤ mode || (mode == 2 && !neg) || (mode == 3 && neg) then infBits f neg else signWeight f neg + maxBits f), fOverflow ||| fInexact)
/-- The flags of a number in range. -/
def inRangeFlags (inex tiny : Bool) : Flags := (if inex then fInexact else 0) ||| (if tiny && inex then fUnderflow else 0)

/-- How a magnitude is rounded: in units of `unitExp`, out of range when they are too many. -/
theorem roundFloat_eq (f mode : Nat) (sat neg : Bool) {m : Nat} (hm : m ≠ 0) (e : Int) (sticky : Bool) :
    let q := unitExp f m e
    let r := roundAt mode neg m e q sticky
    ∃ tiny, roundFloat f mode sat neg m e sticky =
      if topExp f < q ∨ q = topExp f ∧ topUnits f < r.1 then outOfRange f mode sat neg
      else (signWeight f neg + (q - lowExp f).toNat * 2 ^ fracBits f + r.1, inRangeFlags r.2 tiny) := by
  intro q r
  have hz : (m == 0 && !sticky) = false := by simp [hm]
  have hlog : (if (m == 0) = true then (0 : Int) else Nat.log2 m) = Nat.log2 m := if_neg (by simp [hm])
  refine ⟨decide ((Nat.log2 m : Int) + e - fracBits f < lowExp f) && decide ((roundAt mode neg m e ((Nat.log2 m : Int) + e - fracBits f) sticky).1 <
    2 ^ (1 - fBias f - ((Nat.log2 m : Int) + e - fracBits f)).toNat), ?_⟩
  unfold roundFloat
  dsimp only
  rw [if_neg (by rw [hz]; exact Bool.false_ne_true), hlog]
  refine if_congr (Bool.or_eq_true_iff.trans (or_congr decide_eq_true_iff ?_)) rfl rfl
  exact Bool.and_eq_true_iff.trans (and_congr beq_iff_eq decide_eq_true_iff)

/-- The lowest code of a magnitude's sign. -/
theorem roundFloat_zero (f mode : Nat) (sat neg : Bool) (e : Int) : roundFloat f mode sat neg 0 e false = (signWeight f neg, 0) := rfl

/-- A magnitude lies in the units it is rounded to. -/
theorem inUnits_unitExp {f m : Nat} (hm : m ≠ 0) {e : Int} {sticky : Bool} {a : ℝ} (h : Stands m e sticky a) :
    unitExp f m e = lowExp f + (unitExp f m e - lowExp f).toNat ∧ InUnits f (unitExp f m e - lowExp f).toNat a := by
  have hq : unitExp f m e = lowExp f + (unitExp f m e - lowExp f).toNat := by
    unfold unitExp
    omega
  have hlog : 2 ^ Nat.log2 m ≤ m := Nat.log2_self_le hm
  have hlog' : m + 1 ≤ 2 ^ (Nat.log2 m + 1) := Nat.lt_log2_self
  have hlogR : (2 : ℝ) ^ Nat.log2 m ≤ m := by exact_mod_cast hlog
  have hlogR' : (m : ℝ) + 1 ≤ 2 ^ (Nat.log2 m + 1) := by exact_mod_cast hlog'
  have hpos : (0 : ℝ) < 2 ^ unitExp f m e := by positivity
  refine ⟨hq, ⟨?_, ?_, ?_⟩⟩
  · exact le_trans (by positivity) h.le
  · intro ht
    have hmax : unitExp f m e = (Nat.log2 m : Int) + e - fracBits f := by
      unfold unitExp at ht ⊢
      omega
    rw [← hq, le_div_iff₀ hpos]
    calc (2 : ℝ) ^ fracBits f * 2 ^ unitExp f m e = 2 ^ Nat.log2 m * 2 ^ e := by
          rw [hmax, ← zpow_natCast, ← zpow_natCast, ← zpow_add₀ two_ne_zero, ← zpow_add₀ two_ne_zero]
          congr 1
          ring
      _ ≤ m * 2 ^ e := mul_le_mul_of_nonneg_right hlogR (by positivity)
      _ ≤ a := h.le
  · rw [← hq, div_lt_iff₀ hpos]
    calc a < (m + 1) * 2 ^ e := h.lt
      _ ≤ 2 ^ (Nat.log2 m + 1) * 2 ^ e := mul_le_mul_of_nonneg_right hlogR' (by positivity)
      _ = 2 ^ ((Nat.log2 m : Int) + 1 + e) := by rw [← zpow_natCast, ← zpow_add₀ two_ne_zero]; push_cast; rfl
      _ ≤ 2 ^ ((fracBits f : Int) + 1 + unitExp f m e) := zpow_le_zpow_right₀ one_le_two (by unfold unitExp; omega)
      _ = 2 ^ (fracBits f + 1) * 2 ^ unitExp f m e := by rw [← zpow_natCast, ← zpow_add₀ two_ne_zero]; push_cast; rfl

/-- A sticky magnitude of enough bits is rounded to coarser units than its own. -/
theorem lt_unitExp {f m : Nat} (h1 : 1 ≤ f) (h6 : f ≤ 6) (e : Int) (hm : 2 ^ 54 ≤ m) : e < unitExp f m e := by
  have hlog : 54 ≤ Nat.log2 m := (Nat.le_log2 (by omega)).mpr hm
  have hmb := (fracBits_bounds h1 h6).2
  unfold unitExp
  omega

section
variable {f : Nat} (h1 : 1 ≤ f) (h6 : f ≤ 6)
include h1 h6

theorem signWeight_add_maxBits_lt (neg : Bool) : signWeight f neg + maxBits f < 2 ^ fmtWidth f ∧ infBits f neg < 2 ^ fmtWidth f := by
  rcases float_cases h1 h6 with rfl | rfl | rfl | rfl | rfl | rfl <;> cases neg <;> decide
theorem signWeight_eq (neg : Bool) : signWeight f neg = if neg then 2 ^ (fmtWidth f - 1) else 0 := by
  rw [fmtWidth_eq_bits h1 h6, Nat.add_sub_cancel, signWeight]

theorem outOfRange_lt (mode : Nat) (sat neg : Bool) : (outOfRange f mode sat neg).1 < 2 ^ fmtWidth f := by
  obtain ⟨hmax, hinf⟩ := signWeight_add_maxBits_lt h1 h6 neg
  unfold outOfRange
  split
  · exact hmax
  · dsimp only
    split
    · exact hinf
    · exact hmax

omit h1 h6 in
theorem outOfRange_flags (mode : Nat) (sat neg : Bool) : (outOfRange f mode sat neg).2 &&& (fOverflow ||| fSat) ≠ 0 := by
  cases sat
  · exact (by decide : (fOverflow ||| fInexact) &&& (fOverflow ||| fSat) ≠ 0)
  · exact (by decide : (fSat ||| fInexact) &&& (fOverflow ||| fSat) ≠ 0)
omit h1 h6 in
theorem inRangeFlags_eq (inex tiny : Bool) : inRangeFlags inex tiny &&& (fOverflow ||| fSat) = 0 ∧ inRangeFlags inex tiny &&& (fInvalid ||| fDivzero) = 0 ∧
    (inRangeFlags inex tiny &&& fInexact = 0 ↔ inex = false) := by
  decide +revert

/-- The rounding of a finite number, once, from its exact magnitude `a`: what R61 to R64 say of a result in range, and out of it. -/
structure FloatRounded (f mode : Nat) (sat neg : Bool) (a : ℝ) (q : Nat × Flags) : Prop where
  code : q.1 < 2 ^ fmtWidth f
  inside : q.2 &&& (fOverflow ||| fSat) = 0 →
    roundsTo f mode (fun x => (x : ℝ) ≤ (if neg then -1 else 1) * a) (fun x => (if neg then -1 else 1) * a ≤ (x : ℝ)) q.1 ∧
      q.2 &&& (fInvalid ||| fDivzero) = 0 ∧ ∃ z, floatValue f q.1 = some z ∧ (q.2 &&& fInexact = 0 ↔ (z : ℝ) = (if neg then -1 else 1) * a) ∧ 0 ≤ (if neg then -1 else 1) * z
  outside : q.2 &&& (fOverflow ||| fSat) ≠ 0 → (∀ c x, c < 2 ^ fmtWidth f → floatValue f c = some x → |(x : ℝ)| < a) ∧ q = outOfRange f mode sat neg

/-- A magnitude that rounds to more than the most of the highest units exceeds every code. -/
theorem top_lt_of_unitExp {t n : Nat} {a : ℝ} {mode : Nat} (hmode : mode < 5) {neg : Bool} (ha : InUnits f t a) (hr : RoundsUnit mode neg (a / 2 ^ (lowExp f + t)) n)
    (hout : topExp f < lowExp f + t ∨ lowExp f + t = topExp f ∧ topUnits f < n) : (topUnits f : ℝ) * 2 ^ topExp f < a := by
  have hpos : (0 : ℝ) < 2 ^ (lowExp f + t) := by positivity
  rcases hout with h | ⟨h, hn⟩
  · have hlow : lowExp f ≤ topExp f := by
      rw [topExp_eq h1 h6]
      omega
    have hunits := (le_div_iff₀ hpos).mp (ha.enough (by omega))
    have htop : topUnits f < 2 * 2 ^ fracBits f := by
      have h2 : 0 < 2 ^ fracBits f := by positivity
      rw [topUnits_eq h1 h6]
      split <;> omega
    have htopR : (topUnits f : ℝ) < 2 * 2 ^ fracBits f := by exact_mod_cast htop
    have hexp : (2 : ℝ) ^ (topExp f + 1) ≤ 2 ^ (lowExp f + t) := zpow_le_zpow_right₀ one_le_two (by omega)
    rw [zpow_add_one₀ two_ne_zero] at hexp
    have h2 : (0 : ℝ) < 2 ^ topExp f := by positivity
    have h3 : (0 : ℝ) < 2 ^ fracBits f := by positivity
    calc (topUnits f : ℝ) * 2 ^ topExp f < 2 * 2 ^ fracBits f * 2 ^ topExp f := mul_lt_mul_of_pos_right htopR h2
      _ = 2 ^ fracBits f * (2 ^ topExp f * 2) := by ring
      _ ≤ 2 ^ fracBits f * 2 ^ (lowExp f + t) := mul_le_mul_of_nonneg_left hexp h3.le
      _ ≤ a := hunits
  · rw [← h, ← lt_div_iff₀ hpos]
    by_contra hle
    have hlt : (n : ℝ) < topUnits f + 1 := by linarith [(hr.near hmode).1, not_lt.mp hle]
    have : n < topUnits f + 1 := by exact_mod_cast hlt
    omega

/-- The number zero rounds to the lowest code of its sign. -/
theorem roundFloat_zero_rounded {mode : Nat} (hmode : mode < 5) (sat neg : Bool) (e : Int) :
    FloatRounded f mode sat neg 0 (roundFloat f mode sat neg 0 e false) := by
  have hunits : InUnits f 0 0 := ⟨le_rfl, fun h => absurd rfl h, by simp⟩
  have hr : RoundsUnit mode neg (0 / 2 ^ (lowExp f + (0 : Nat))) 0 := by
    simpa using RoundsUnit.self hmode neg 0
  have hle : lowExp f + (0 : Nat) ≤ topExp f := by
    rw [topExp_eq h1 h6]
    omega
  obtain ⟨hb, hval, hrounds⟩ := roundsTo_of_roundsUnit h1 h6 hmode neg hunits hr hle (fun _ => Nat.zero_le _)
  rw [roundFloat_zero]
  simp only [Nat.zero_mul, Nat.add_zero] at hb hval hrounds
  refine ⟨hb, fun _ => ⟨hrounds, BitVec.zero_and, _, hval, by simp, by simp⟩, fun h => absurd BitVec.zero_and h⟩

/-- Rounding a magnitude of enough bits. -/
theorem roundFloat_rounded {mode : Nat} (hmode : mode < 5) (sat neg : Bool) {m : Nat} {e : Int} {sticky : Bool} {a : ℝ} (h : Stands m e sticky a)
    (hs : sticky = true → 2 ^ 54 ≤ m) : FloatRounded f mode sat neg a (roundFloat f mode sat neg m e sticky) := by
  by_cases hm : m = 0
  · subst hm
    have hst : sticky = false := Bool.eq_false_iff.mpr fun h => absurd (hs h) (by norm_num)
    subst hst
    have ha : a = 0 := by simpa using h.exact_iff
    rw [ha]
    exact roundFloat_zero_rounded h1 h6 hmode sat neg e
  obtain ⟨hq, hunits⟩ := inUnits_unitExp hm h (f := f)
  obtain ⟨hr, hinex⟩ := roundAt_roundsUnit hmode neg h (q := unitExp f m e) fun h => lt_unitExp h1 h6 e (hs h)
  obtain ⟨tiny, heq⟩ := roundFloat_eq f mode sat neg hm e sticky
  generalize roundAt mode neg m e (unitExp f m e) sticky = r at *
  generalize ht : (unitExp f m e - lowExp f).toNat = t at *
  rw [hq] at hr hinex heq
  rw [heq]
  split
  · rename_i hout
    exact ⟨outOfRange_lt h1 h6 mode sat neg, fun h => absurd h (outOfRange_flags mode sat neg),
      fun _ => ⟨fun c x hc hx => abs_floatValue_lt h1 h6 hc hx (top_lt_of_unitExp h1 h6 hmode hunits hr hout), rfl⟩⟩
  · rename_i hin
    rw [not_or, not_and, not_lt, not_lt] at hin
    obtain ⟨hb, hval, hrounds⟩ := roundsTo_of_roundsUnit h1 h6 hmode neg hunits hr hin.1 hin.2
    obtain ⟨hflag, hflag', hflag''⟩ := inRangeFlags_eq r.2 tiny
    refine ⟨hb, fun _ => ⟨hrounds, hflag', _, hval, ?_, ?_⟩, fun h => absurd hflag h⟩
    · rw [hflag'', hinex, div_eq_iff (by positivity)]
      cases neg <;> push_cast <;> simp [eq_comm]
    · cases neg <;> simp <;> positivity

end

end Sys2Proof.Machine
end

section
/-! PROOF. Values of codes, exact arithmetic, quotients, roots and powers of two (R53, R54, R62, R289). -/

namespace Sys2Proof.Machine

/-! ## Quotients, roots and their reciprocals, to more bits than a format has -/

/-- A number of units with nothing below. -/
theorem Stands.exact (m : Nat) (e : Int) : Stands m e false (m * 2 ^ e) := by
  refine ⟨le_rfl, ?_, by simp⟩
  have : (0 : ℝ) < 2 ^ e := by positivity
  rw [add_mul]
  linarith

/-- A magnitude counted in units of 2^e: whole ones below it, one more above. -/
theorem Stands.of_units {m : Nat} {e : Int} {sticky : Bool} {x : ℝ} (hle : (m : ℝ) ≤ x) (hlt : x < m + 1) (hs : sticky = false ↔ x = m) :
    Stands m e sticky (x * 2 ^ e) := by
  have hpos : (0 : ℝ) < 2 ^ e := by positivity
  refine ⟨mul_le_mul_of_nonneg_right hle hpos.le, mul_lt_mul_of_pos_right hlt hpos, ?_⟩
  rw [hs, mul_left_inj' hpos.ne']

theorem stands_divApprox {m n : Nat} (hm : m ≠ 0) (hn : n ≠ 0) (e g : Int) :
    let r := divApprox m e n g
    Stands r.m r.e r.sticky ((m : ℝ) * 2 ^ e / (n * 2 ^ g)) ∧ 2 ^ 54 ≤ r.m := by
  have hnpos : 0 < n := Nat.pos_of_ne_zero hn
  have hnR : (0 : ℝ) < n := by exact_mod_cast hnpos
  simp only [divApprox, Nat.shiftLeft_eq]
  generalize hk : 120 + Nat.log2 n = k
  have hval : (m : ℝ) * 2 ^ e / (n * 2 ^ g) = ((m * 2 ^ k : Nat) : ℝ) / n * 2 ^ (e - g - k) := by
    rw [zpow_sub₀ two_ne_zero, zpow_sub₀ two_ne_zero, zpow_natCast]
    push_cast
    field_simp
  have hsplit := Nat.div_add_mod (m * 2 ^ k) n
  have hrem := Nat.mod_lt (m * 2 ^ k) hnpos
  rw [hval]
  refine ⟨Stands.of_units ?_ ?_ ?_, ?_⟩
  · exact Nat.cast_div_le
  · rw [div_lt_iff₀ hnR]
    have : m * 2 ^ k < n * (m * 2 ^ k / n + 1) := Nat.lt_mul_div_succ _ hnpos
    rw [mul_comm _ (n : ℝ)]
    exact_mod_cast this
  · rw [bne_eq_false_iff_eq, div_eq_iff hnR.ne', ← Nat.dvd_iff_mod_eq_zero]
    constructor
    · intro h
      exact_mod_cast (Nat.div_mul_cancel h).symm
    · intro h
      exact Dvd.intro_left (m * 2 ^ k / n) (by exact_mod_cast h.symm)
  · have hlog : n < 2 ^ (Nat.log2 n + 1) := Nat.lt_log2_self
    rw [Nat.le_div_iff_mul_le hnpos]
    calc 2 ^ 54 * n ≤ 2 ^ 54 * 2 ^ (Nat.log2 n + 1) := Nat.mul_le_mul_left _ hlog.le
      _ = 2 ^ (54 + (Nat.log2 n + 1)) := (pow_add ..).symm
      _ ≤ 2 ^ k := Nat.pow_le_pow_right (by omega) (by omega)
      _ ≤ m * 2 ^ k := Nat.le_mul_of_pos_left _ (Nat.pos_of_ne_zero hm)

/-- The bits of a square root found from the highest down. -/
theorem isqrt_bounds (k v r : Nat) (hr : r * r ≤ v) (hv : v < (r + 2 ^ k) * (r + 2 ^ k)) :
    isqrt k v r * isqrt k v r ≤ v ∧ v < (isqrt k v r + 1) * (isqrt k v r + 1) := by
  induction k generalizing r with
  | zero => exact ⟨hr, hv⟩
  | succ k ih =>
    simp only [isqrt]
    split
    · refine ih _ ‹_› ?_
      rwa [Nat.add_assoc, ← Nat.two_mul, Nat.mul_comm 2, ← pow_succ]
    · exact ih _ hr (by omega)

theorem isqrt_eq_sqrt {k v : Nat} (hv : v < 2 ^ (2 * k)) : isqrt k v 0 = Nat.sqrt v := by
  obtain ⟨h1, h2⟩ := isqrt_bounds k v 0 (Nat.zero_le _) (by rwa [Nat.zero_add, ← pow_add, ← Nat.two_mul])
  exact Nat.eq_sqrt.mpr ⟨h1, h2⟩

/-- A number as one at an even exponent, as the root approximations take it. -/
theorem evenExp_eq (m : Nat) (e : Int) :
    (m : ℝ) * 2 ^ e = ((if e % 2 != 0 then 2 * m else m : Nat) : ℝ) * (2 ^ ((if e % 2 != 0 then e - 1 else e) / 2)) ^ 2 := by
  rw [← zpow_natCast, ← zpow_mul]
  by_cases h : e % 2 = 0
  · have he : e / 2 * ((2 : Nat) : Int) = e := by push_cast; omega
    have hb : (e % 2 != 0) = false := by simp [h]
    rw [hb]
    simp only [Bool.false_eq_true, if_false, he]
  · have he : (e - 1) / 2 * ((2 : Nat) : Int) = e - 1 := by push_cast; omega
    have hb : (e % 2 != 0) = true := by simp [h]
    rw [hb]
    simp only [if_true, he]
    rw [zpow_sub_one₀ two_ne_zero]
    push_cast
    field_simp

theorem sqrt_mul_evenExp (p : Nat) (h : Int) : √((p : ℝ) * (2 ^ h) ^ 2) = √p * 2 ^ h := by
  rw [Real.sqrt_mul (Nat.cast_nonneg _), Real.sqrt_sq (by positivity)]

/-- A root by its bounds: whole units `r` of a magnitude whose square is `x`. -/
theorem stands_sqrt {r : Nat} {x : ℝ} {sticky : Bool} (e : Int) (hle : (r : ℝ) * r ≤ x) (hlt : x < (r + 1) * (r + 1)) (hs : sticky = false ↔ x = r * r) :
    Stands r e sticky (√x * 2 ^ e) := by
  have hr : (0 : ℝ) ≤ r := Nat.cast_nonneg _
  have hx : 0 ≤ x := (mul_nonneg hr hr).trans hle
  refine Stands.of_units ?_ ?_ ?_
  · exact Real.le_sqrt_of_sq_le (by rwa [sq])
  · rw [Real.sqrt_lt' (by linarith), sq]
    exact hlt
  · rw [hs, Real.sqrt_eq_iff_mul_self_eq hx hr]

theorem stands_sqrtApprox {m : Nat} (hm : m ≠ 0) (e : Int) :
    let r := sqrtApprox m e
    Stands r.m r.e r.sticky (√((m : ℝ) * 2 ^ e)) ∧ 2 ^ 54 ≤ r.m := by
  rw [evenExp_eq, sqrt_mul_evenExp]
  simp only [sqrtApprox, Nat.shiftLeft_eq]
  have hp : (if (e % 2 != 0) = true then 2 * m else m) ≠ 0 := by split <;> omega
  generalize (if (e % 2 != 0) = true then 2 * m else m) = p at *
  generalize (if (e % 2 != 0) = true then e - 1 else e) / 2 = h
  generalize hv : p * 2 ^ 160 = v
  have hlog : v < 2 ^ (2 * (Nat.log2 v / 2 + 1)) := Nat.lt_log2_self.trans_le (Nat.pow_le_pow_right (by omega) (by omega))
  rw [isqrt_eq_sqrt hlog]
  have hval : √(p : ℝ) * 2 ^ h = √(v : ℝ) * 2 ^ (h - 80) := by
    have hvR : (v : ℝ) = p * (2 ^ (80 : Int)) ^ 2 := by rw [← hv]; push_cast; norm_num
    rw [hvR, sqrt_mul_evenExp, mul_assoc, ← zpow_add₀ two_ne_zero]
    congr 2
    ring
  rw [hval]
  refine ⟨stands_sqrt _ ?_ ?_ ?_, ?_⟩
  · exact_mod_cast Nat.sqrt_le v
  · exact_mod_cast Nat.lt_succ_sqrt v
  · rw [bne_eq_false_iff_eq, eq_comm]
    norm_cast
  · rw [Nat.le_sqrt, ← hv]
    calc 2 ^ 54 * 2 ^ 54 ≤ 1 * 2 ^ 160 := by norm_num
      _ ≤ p * 2 ^ 160 := Nat.mul_le_mul_right _ (Nat.pos_of_ne_zero hp)

theorem stands_rsqrtApprox {m : Nat} (hm : m ≠ 0) (e : Int) :
    let r := rsqrtApprox m e
    Stands r.m r.e r.sticky (√((m : ℝ) * 2 ^ e))⁻¹ ∧ 2 ^ 54 ≤ r.m := by
  rw [evenExp_eq, sqrt_mul_evenExp]
  simp only [rsqrtApprox]
  have hp : (if (e % 2 != 0) = true then 2 * m else m) ≠ 0 := by split <;> omega
  generalize (if (e % 2 != 0) = true then 2 * m else m) = p at *
  generalize (if (e % 2 != 0) = true then e - 1 else e) / 2 = h
  have hpos : 0 < p := Nat.pos_of_ne_zero hp
  have hpR : (0 : ℝ) < p := by exact_mod_cast hpos
  have hlog : p < 2 ^ (Nat.log2 p + 1) := Nat.lt_log2_self
  generalize hk : 128 + Nat.log2 p = k
  generalize hv : 2 ^ (2 * k) / p = v
  have hvlt : v < 2 ^ (2 * (k + 1)) := by
    rw [← hv]
    exact (Nat.div_le_self _ _).trans_lt (Nat.pow_lt_pow_right (by omega) (by omega))
  rw [isqrt_eq_sqrt hvlt]
  have hval : (√(p : ℝ) * 2 ^ h)⁻¹ = √((2 : ℝ) ^ (2 * k) / p) * 2 ^ (-h - k) := by
    rw [Real.sqrt_div (by positivity), pow_mul', Real.sqrt_sq (by positivity), zpow_sub₀ two_ne_zero, zpow_natCast, zpow_neg]
    field_simp
  rw [hval]
  refine ⟨stands_sqrt _ ?_ ?_ ?_, ?_⟩
  · rw [le_div_iff₀ hpR]
    have := Nat.mul_le_mul_right p (Nat.sqrt_le v)
    have h2 : v * p ≤ 2 ^ (2 * k) := by rw [← hv]; exact Nat.div_mul_le_self _ _
    exact_mod_cast this.trans h2
  · rw [div_lt_iff₀ hpR]
    have h1 : 2 ^ (2 * k) < (v + 1) * p := by
      rw [← hv, Nat.mul_comm (2 ^ (2 * k) / p + 1)]
      exact Nat.lt_mul_div_succ _ hpos
    have h2 := Nat.mul_le_mul_right p (Nat.succ_le_of_lt (Nat.lt_succ_sqrt v))
    exact_mod_cast h1.trans_le h2
  · rw [bne_eq_false_iff_eq, div_eq_iff hpR.ne']
    norm_cast
    exact eq_comm
  · rw [Nat.le_sqrt, ← hv, Nat.le_div_iff_mul_le hpos]
    calc 2 ^ 54 * 2 ^ 54 * p ≤ 2 ^ 54 * 2 ^ 54 * 2 ^ (Nat.log2 p + 1) := Nat.mul_le_mul_left _ hlog.le
      _ = 2 ^ (108 + (Nat.log2 p + 1)) := by rw [← pow_add, ← pow_add]
      _ ≤ 2 ^ (2 * k) := Nat.pow_le_pow_right (by omega) (by omega)

/-! ## Values of codes and of exact arithmetic -/

section
variable {f : Nat} (h1 : 1 ≤ f) (h6 : f ≤ 6)
include h1 h6

/-- What `decodeFloat` makes of a code's fields. -/
theorem decodeFloat_floatCode (neg : Bool) {ex fr : Nat} (hex : ex < 2 ^ expBits f) (hfr : fr < 2 ^ fracBits f) :
    decodeFloat f (floatCode f neg ex fr) =
      if ex = 2 ^ expBits f - 1 ∧ (f ≠ 5 ∨ fr = 7) then (if f ≠ 5 ∧ fr = 0 then .inf neg else .nan (decide (f ≠ 5 ∧ fr / 2 ^ (fracBits f - 1) = 0)))
      else if ex = 0 then .fin neg fr (lowExp f) else .fin neg (2 ^ fracBits f + fr) (lowExp f + (ex - 1 : Nat)) := by
  obtain ⟨hs, he, hr⟩ := floatCode_fields f neg hex hfr
  have hneg : ((if neg then 1 else 0) == 1) = neg := by cases neg <;> rfl
  simp only [decodeFloat, hs, he, hr, hneg]
  by_cases htop : ex = 2 ^ expBits f - 1 ∧ (f ≠ 5 ∨ fr = 7)
  · rw [if_pos htop]
    obtain ⟨rfl, htop⟩ := htop
    by_cases h5 : f = 5
    · subst h5
      obtain rfl : fr = 7 := by simpa using htop
      rfl
    · have hnan : (f == 5 && 2 ^ expBits f - 1 == 15 && fr == 7) = false := by simp [h5]
      have hinf : (f != 5 && 2 ^ expBits f - 1 == 2 ^ expBits f - 1) = true := by simp [h5]
      rw [hnan, hinf]
      simp only [Bool.false_eq_true, if_false, if_true, beq_iff_eq, h5, ne_eq, not_false_eq_true, true_and]
      refine if_congr Iff.rfl rfl (congrArg Num.nan ?_)
      exact Bool.beq_eq_decide_eq _ _
  · rw [if_neg htop]
    have hnan : (f == 5 && ex == 15 && fr == 7) = false := by
      rw [Bool.eq_false_iff]
      intro h
      simp only [Bool.and_eq_true, beq_iff_eq] at h
      obtain ⟨⟨rfl, rfl⟩, rfl⟩ := h
      exact htop ⟨rfl, .inr rfl⟩
    have hinf : (f != 5 && ex == 2 ^ expBits f - 1) = false := by
      rw [Bool.eq_false_iff]
      intro h
      simp only [Bool.and_eq_true, beq_iff_eq, bne_iff_ne] at h
      exact htop ⟨h.2, .inl h.1⟩
    rw [hnan, hinf]
    by_cases h0 : ex = 0
    · subst h0
      rfl
    · have hb : (ex == 0) = false := by simpa using h0
      rw [if_neg h0, hb, Nat.add_comm fr, lowExp, show (ex : Int) - fBias f - fracBits f = 1 - fBias f - fracBits f + (ex - 1 : Nat) by omega]
      rfl

/-- A code's value is that of its number. -/
theorem value_decodeFloat {b : Nat} (hb : b < 2 ^ fmtWidth f) : (decodeFloat f b).value = floatValue f b := by
  obtain ⟨neg, ex, fr, rfl, hex, hfr⟩ := exists_floatCode h1 h6 hb
  rw [decodeFloat_floatCode h1 h6 neg hex hfr, floatValue_floatCode h1 h6 neg hex hfr, fieldsValue]
  split
  · split <;> rfl
  · split <;> rfl

/-- The codes without a value. -/
theorem decodeFloat_of_none {b : Nat} (hb : b < 2 ^ fmtWidth f) (hv : floatValue f b = none) :
    decodeFloat f b = if f ≠ 5 ∧ b % 2 ^ fracBits f = 0 then .inf (decide (b / 2 ^ (fmtWidth f - 1) = 1))
      else .nan (decide (f ≠ 5 ∧ b / 2 ^ (fracBits f - 1) % 2 = 0)) := by
  obtain ⟨neg, ex, fr, rfl, hex, hfr⟩ := exists_floatCode h1 h6 hb
  rw [floatValue_floatCode h1 h6 neg hex hfr, fieldsValue] at hv
  have hnone : ex = 2 ^ expBits f - 1 ∧ (f ≠ 5 ∨ fr = 7) := by
    by_contra h
    rw [if_neg h] at hv
    split at hv <;> cases hv
  obtain ⟨hs, he, hr⟩ := floatCode_fields f neg hex hfr
  have hsign : decide (floatCode f neg ex fr / 2 ^ (fmtWidth f - 1) = 1) = neg := by
    have hlt : floatCode f neg ex fr / 2 ^ (expBits f + fracBits f) < 2 := by
      rw [fmtWidth_eq_bits h1 h6, pow_succ] at hb
      exact Nat.div_lt_of_lt_mul hb
    rw [fmtWidth_eq_bits h1 h6, Nat.add_sub_cancel]
    rw [Nat.mod_eq_of_lt hlt] at hs
    rw [hs]
    cases neg <;> rfl
  have hquiet : floatCode f neg ex fr / 2 ^ (fracBits f - 1) % 2 = fr / 2 ^ (fracBits f - 1) := by
    obtain ⟨j, hj⟩ : ∃ j, fracBits f = j + 1 := ⟨fracBits f - 1, by have := (fracBits_bounds h1 h6).1; omega⟩
    have hlt : fr / 2 ^ j < 2 := Nat.div_lt_of_lt_mul (by rwa [hj, pow_succ] at hfr)
    rw [floatCode, pow_add, ← Nat.mul_assoc, ← Nat.add_mul, hj, Nat.add_sub_cancel, pow_succ, Nat.mul_comm (2 ^ j) 2, ← Nat.mul_assoc, Nat.add_comm,
      Nat.add_mul_div_right _ _ (by positivity), Nat.add_mul_mod_self_right, Nat.mod_eq_of_lt hlt]
  rw [decodeFloat_floatCode h1 h6 neg hex hfr, if_pos hnone, hr, hsign, hquiet]

end

theorem Num.value_eq_some {x : Num} {u : Rat} (h : x.value = some u) :
    ∃ n m e, x = .fin n m e ∧ u = (if n then -1 else 1) * (m : Rat) * (2 : Rat) ^ e := by
  cases x with
  | nan s => cases h
  | inf n => cases h
  | fin n m e => exact ⟨n, m, e, rfl, (Option.some.inj h).symm⟩

/-- A number at a lower exponent is the same number. -/
theorem alignTo_value (n : Bool) (m : Nat) {e lo : Int} (h : lo ≤ e) :
    ((alignTo n m e lo : Int) : Rat) * (2 : Rat) ^ lo = (if n then -1 else 1) * (m : Rat) * (2 : Rat) ^ e := by
  obtain ⟨d, rfl⟩ := Int.le.dest h
  rw [alignTo, Nat.shiftLeft_eq, show (lo + d - lo).toNat = d by omega, zpow_add₀ two_ne_zero, zpow_natCast]
  cases n <;> push_cast <;> ring

theorem value_addNum (mode : Nat) {x y : Num} {u v : Rat} (hx : x.value = some u) (hy : y.value = some v) :
    (addNum mode x y).1.value = some (u + v) ∧ (addNum mode x y).2 = 0 := by
  obtain ⟨a, m, e, rfl, rfl⟩ := Num.value_eq_some hx
  obtain ⟨b, n, g, rfl, rfl⟩ := Num.value_eq_some hy
  rw [← alignTo_value a m (min_le_left e g), ← alignTo_value b n (min_le_right e g), ← add_mul, ← Int.cast_add]
  simp only [addNum]
  generalize alignTo a m e (min e g) + alignTo b n g (min e g) = w
  by_cases hw : w = 0
  · subst hw
    simp [Num.value]
  · have hb : (w == 0) = false := by simpa using hw
    simp only [hb, Bool.false_eq_true, if_false, Num.value, and_true, Option.some.injEq]
    have hcast : (if decide (w < 0) then -1 else 1) * ((w.natAbs : Nat) : Rat) = (w : Rat) := by
      rcases lt_or_gt_of_ne hw with h | h
      · rw [if_pos (by simpa using h)]
        have : (w.natAbs : Int) = -w := by omega
        rw [← Int.cast_natCast, this]
        push_cast
        ring
      · rw [if_neg (by simpa using h.le)]
        have : (w.natAbs : Int) = w := by omega
        rw [← Int.cast_natCast, this]
        ring
    rw [hcast]

theorem value_mulNum {x y : Num} {u v : Rat} (hx : x.value = some u) (hy : y.value = some v) :
    (mulNum x y).1.value = some (u * v) ∧ (mulNum x y).2 = 0 := by
  obtain ⟨a, m, e, rfl, rfl⟩ := Num.value_eq_some hx
  obtain ⟨b, n, g, rfl, rfl⟩ := Num.value_eq_some hy
  refine ⟨?_, rfl⟩
  simp only [mulNum, Num.value, zpow_add₀ (two_ne_zero (α := Rat))]
  congr 1
  cases a <;> cases b <;> simp <;> ring

theorem value_negate {x : Num} {u : Rat} (hx : x.value = some u) : x.negate.value = some (-u) := by
  obtain ⟨a, m, e, rfl, rfl⟩ := Num.value_eq_some hx
  cases a <;> simp [Num.negate, Num.value]

theorem value_scale {x : Num} {u : Rat} (hx : x.value = some u) (k : Int) : (x.scale k).value = some (u * (2 : Rat) ^ k) := by
  obtain ⟨a, m, e, rfl, rfl⟩ := Num.value_eq_some hx
  simp only [Num.scale, Num.value, zpow_add₀ (two_ne_zero (α := Rat)), mul_assoc]

/-! ## Rounded numbers, quotients and roots as the statement says them -/

theorem roundsTo_congr {f mode : Nat} {lo hi lo' hi' : Rat → Prop} {b : Nat} (hlo : ∀ x, lo x ↔ lo' x) (hhi : ∀ x, hi x ↔ hi' x) :
    roundsTo f mode lo hi b ↔ roundsTo f mode lo' hi' b := by
  rw [show lo = lo' from funext fun x => propext (hlo x), show hi = hi' from funext fun x => propext (hhi x)]

section
variable {f mode : Nat} {sat neg : Bool}

/-- A rounding from a rational magnitude, with its sign. -/
theorem FloatRounded.of_rat {a : ℝ} {q : Nat × Flags} {v : Rat} (h : FloatRounded f mode sat neg a q) (hv : (v : ℝ) = (if neg then -1 else 1) * a)
    (hin : q.2 &&& (fOverflow ||| fSat) = 0) :
    roundsTo f mode (· ≤ v) (v ≤ ·) q.1 ∧ q.2 &&& (fInvalid ||| fDivzero) = 0 ∧ (q.2 &&& fInexact ≠ 0 ↔ floatValue f q.1 ≠ some v) := by
  obtain ⟨hr, hflags, z, hz, hexact, -⟩ := h.inside hin
  rw [← hv] at hr hexact
  refine ⟨(roundsTo_congr (fun x => Rat.cast_le) fun x => Rat.cast_le).mp hr, hflags, ?_⟩
  rw [hz, Ne, Ne, Option.some.injEq, hexact, Rat.cast_inj]

/-- An out-of-range result as R64 lists it. -/
theorem outOfRange_eq (h1 : 1 ≤ f) (h6 : f ≤ 6) (hmode : mode < 5) :
    outOfRange f mode sat neg =
      (if sat then ((if neg then 2 ^ (fmtWidth f - 1) else 0) + maxBits f, fSat ||| fInexact)
        else if mode = 0 ∨ mode = 4 ∨ mode = (if neg then 3 else 2) then (infBits f neg, fOverflow ||| fInexact)
        else ((if neg then 2 ^ (fmtWidth f - 1) else 0) + maxBits f, fOverflow ||| fInexact)) := by
  have hinf : (mode == 0 || decide (4 ≤ mode) || (mode == 2 && !neg) || (mode == 3 && neg)) = true ↔ mode = 0 ∨ mode = 4 ∨ mode = (if neg then 3 else 2) := by
    cases neg <;> simp <;> omega
  rw [outOfRange, signWeight_eq h1 h6]
  refine if_congr Iff.rfl rfl ?_
  by_cases h : mode = 0 ∨ mode = 4 ∨ mode = (if neg then 3 else 2)
  · rw [if_pos h, if_pos (hinf.mpr h)]
  · rw [if_neg h, if_neg fun h' => h (hinf.mp h')]

end

section
variable {f mode : Nat} (h1 : 1 ≤ f) (h6 : f ≤ 6) (hmode : mode < 5)
include h1 h6 hmode

/-- The rounding of a finite number (R61 to R64). -/
theorem roundFloat_in_or_out_of_range (sat neg : Bool) (m : Nat) (e : Int) :
    let v : Rat := (if neg then -1 else 1) * (m : Rat) * (2 : Rat) ^ e
    let q := roundFloat f mode sat neg m e false
    let sign := if neg then 2 ^ (fmtWidth f - 1) else 0
    let outside : Prop := q.2 &&& (fOverflow ||| fSat) ≠ 0
    q.1 < 2 ^ fmtWidth f ∧ (m = 0 → q = (sign, 0)) ∧
    (∀ fl, roundLane f mode sat (.fin neg m e, fl) = (.ok q.1, fl ||| q.2) ∧
      ∀ sg, roundLane f mode sat (.nan sg, fl) = (.ok (canonNaN f), if sg then fl ||| fInvalid else fl)) ∧
    (¬ outside → roundsTo f mode (· ≤ v) (v ≤ ·) q.1 ∧ q.2 &&& (fInvalid ||| fDivzero) = 0 ∧ (q.2 &&& fInexact ≠ 0 ↔ floatValue f q.1 ≠ some v)) ∧
    (outside → (∀ c x, c < 2 ^ fmtWidth f → floatValue f c = some x → x * x < v * v) ∧
      q = (if sat then (sign + maxBits f, fSat ||| fInexact)
        else if mode = 0 ∨ mode = 4 ∨ mode = (if neg then 3 else 2) then (infBits f neg, fOverflow ||| fInexact)
        else (sign + maxBits f, fOverflow ||| fInexact))) := by
  intro v q sign outside
  have hq : FloatRounded f mode sat neg (m * 2 ^ e) q := roundFloat_rounded h1 h6 hmode sat neg (Stands.exact m e) (by simp)
  have hv : (v : ℝ) = (if neg then -1 else 1) * (m * 2 ^ e) := by
    simp only [v]
    cases neg <;> push_cast <;> simp
  refine ⟨hq.code, ?_, fun fl => ⟨rfl, fun sg => rfl⟩, fun hin => hq.of_rat hv (not_not.mp hin), fun hout => ?_⟩
  · rintro rfl
    exact Prod.ext (signWeight_eq h1 h6 neg) rfl
  · obtain ⟨hall, heq⟩ := hq.outside hout
    refine ⟨fun c x hc hx => ?_, heq.trans (outOfRange_eq h1 h6 hmode)⟩
    have habs := hall c x hc hx
    have hvabs : |(v : ℝ)| = m * 2 ^ e := by
      have hpos : (0 : ℝ) ≤ m * 2 ^ e := by positivity
      rw [hv]
      cases neg <;> simp [abs_mul]
    rw [← hvabs] at habs
    have := mul_self_lt_mul_self (abs_nonneg _) habs
    rw [abs_mul_abs_self, abs_mul_abs_self] at this
    exact_mod_cast this

/-- A quotient of numbers other than zero (R289). -/
theorem divLane_rounds (sat : Bool) {x y : Num} {u v : Rat} (hx : x.value = some u) (hy : y.value = some v) (hu : u ≠ 0) (hv : v ≠ 0) :
    ∃ b fl, divLane f mode sat x y = (.ok b, fl) ∧ (fl &&& (fOverflow ||| fSat) = 0 →
      roundsTo f mode (· ≤ u / v) (u / v ≤ ·) b ∧ (fl &&& fInexact ≠ 0 ↔ floatValue f b ≠ some (u / v))) := by
  obtain ⟨a, m, e, rfl, rfl⟩ := Num.value_eq_some hx
  obtain ⟨b, n, g, rfl, rfl⟩ := Num.value_eq_some hy
  have hm : m ≠ 0 := by rintro rfl; simp at hu
  have hn : n ≠ 0 := by rintro rfl; simp at hv
  obtain ⟨hs, h54⟩ := stands_divApprox hm hn e g
  have hq := roundFloat_rounded h1 h6 hmode sat (a != b) hs fun _ => h54
  refine ⟨_, _, (if_neg hn).trans (if_neg hm), fun hin => ?_⟩
  have hcast : (((if a then -1 else 1) * (m : Rat) * (2 : Rat) ^ e / ((if b then -1 else 1) * (n : Rat) * (2 : Rat) ^ g) : Rat) : ℝ) =
      (if (a != b) = true then -1 else 1) * ((m : ℝ) * 2 ^ e / (n * 2 ^ g)) := by
    cases a <;> cases b <;> push_cast <;> simp [neg_div, div_neg]
  obtain ⟨hr, -, hexact⟩ := hq.of_rat hcast hin
  exact ⟨hr, hexact⟩

omit h1 h6 hmode in
/-- A positive number. -/
theorem Num.value_pos {x : Num} {u : Rat} (hx : x.value = some u) (hu : 0 < u) : ∃ m e, x = .fin false m e ∧ m ≠ 0 ∧ (u : ℝ) = m * 2 ^ e := by
  obtain ⟨a, m, e, rfl, rfl⟩ := Num.value_eq_some hx
  have hpos : (0 : Rat) ≤ m * 2 ^ e := by positivity
  cases a with
  | true =>
    simp only [if_true, neg_mul, one_mul] at hu
    linarith
  | false =>
    refine ⟨m, e, rfl, ?_, by push_cast; simp⟩
    rintro rfl
    simp at hu

omit h1 h6 hmode in
/-- Comparing a rational with the root of a positive number. -/
theorem sqrt_bounds {w : ℝ} (hw : 0 < w) (z : ℝ) : (z ≤ √w ↔ z ≤ 0 ∨ z * z ≤ w) ∧ (√w ≤ z ↔ 0 ≤ z ∧ w ≤ z * z) := by
  constructor
  · rcases le_or_gt z 0 with h | h
    · exact iff_of_true (h.trans (Real.sqrt_nonneg w)) (.inl h)
    · rw [Real.le_sqrt' h, sq, or_iff_right h.not_ge]
  · rw [Real.sqrt_le_iff, sq]

/-- A square root of a positive number. -/
theorem sqrtLane_rounds (sat : Bool) {x : Num} {u : Rat} (hx : x.value = some u) (hu : 0 < u) :
    ∃ b fl, sqrtLane f mode sat x = (.ok b, fl) ∧ (fl &&& (fOverflow ||| fSat) = 0 →
      roundsTo f mode (fun z => z ≤ 0 ∨ z * z ≤ u) (fun z => 0 ≤ z ∧ u ≤ z * z) b ∧ (fl &&& fInexact = 0 ↔ ∃ z, floatValue f b = some z ∧ z * z = u)) := by
  obtain ⟨m, e, rfl, hm, hval⟩ := Num.value_pos hx hu
  have huR : (0 : ℝ) < u := by exact_mod_cast hu
  obtain ⟨hs, h54⟩ := stands_sqrtApprox hm e
  rw [← hval] at hs
  have hq := roundFloat_rounded h1 h6 hmode sat false hs fun _ => h54
  refine ⟨_, _, if_neg hm, fun hin => ?_⟩
  obtain ⟨hr, -, z, hz, hexact, hz0⟩ := hq.inside hin
  simp only [Bool.false_eq_true, if_false, one_mul] at hr hexact hz0
  have hz0R : (0 : ℝ) ≤ z := by exact_mod_cast hz0
  refine ⟨(roundsTo_congr (fun x => ?_) fun x => ?_).mp hr, ?_⟩
  · rw [(sqrt_bounds huR _).1]
    norm_cast
  · rw [(sqrt_bounds huR _).2]
    norm_cast
  · rw [hexact, hz, eq_comm, Real.sqrt_eq_iff_mul_self_eq huR.le hz0R]
    constructor
    · intro h
      exact ⟨z, rfl, by exact_mod_cast h.symm⟩
    · rintro ⟨w, hw, h⟩
      cases hw
      exact_mod_cast h.symm

/-- A reciprocal square root of a positive number. -/
theorem rsqLane_rounds (sat : Bool) {x : Num} {u : Rat} (hx : x.value = some u) (hu : 0 < u) :
    ∃ b fl, rsqLane f mode sat x = (.ok b, fl) ∧ (fl &&& (fOverflow ||| fSat) = 0 →
      roundsTo f mode (fun z => z ≤ 0 ∨ z * z * u ≤ 1) (fun z => 0 ≤ z ∧ 1 ≤ z * z * u) b) := by
  obtain ⟨m, e, rfl, hm, hval⟩ := Num.value_pos hx hu
  have huR : (0 : ℝ) < u := by exact_mod_cast hu
  obtain ⟨hs, h54⟩ := stands_rsqrtApprox hm e
  rw [← hval, ← Real.sqrt_inv] at hs
  have hq := roundFloat_rounded h1 h6 hmode sat false hs fun _ => h54
  refine ⟨_, _, if_neg hm, fun hin => ?_⟩
  obtain ⟨hr, -⟩ := hq.inside hin
  simp only [Bool.false_eq_true, if_false, one_mul] at hr
  refine (roundsTo_congr (fun x => ?_) fun x => ?_).mp hr
  · rw [(sqrt_bounds (inv_pos.mpr huR) _).1, ← one_div, le_div_iff₀ huR]
    norm_cast
  · rw [(sqrt_bounds (inv_pos.mpr huR) _).2, ← one_div, div_le_iff₀ huR]
    norm_cast

end

section
variable {f mode : Nat} {sat : Bool} {x y : Num} {u v : Rat}

theorem units_eq_zero_iff (neg : Bool) (m : Nat) (e : Int) : (if neg then -1 else 1) * (m : Rat) * (2 : Rat) ^ e = 0 ↔ m = 0 := by
  have h2 : (2 : Rat) ^ e ≠ 0 := by positivity
  cases neg <;> simp [h2]

/-- Division by zero. -/
theorem divLane_by_zero (hx : x.value = some u) (hy : y.value = some v) (hv : v = 0) :
    (u ≠ 0 → f ≠ 5 → divLane f mode false x y = (.ok (infBits f (x.neg != y.neg)), fDivzero)) ∧
      (u = 0 → divLane f mode sat x y = (.ok (canonNaN f), fInvalid)) := by
  obtain ⟨a, m, e, rfl, rfl⟩ := Num.value_eq_some hx
  obtain ⟨b, n, g, rfl, rfl⟩ := Num.value_eq_some hy
  have hn : n = 0 := (units_eq_zero_iff b n g).mp hv
  subst hn
  refine ⟨fun hu hf => ?_, fun hu => ?_⟩
  · have hm : m ≠ 0 := by rintro rfl; simp at hu
    have h5 : (f == 5) = false := by simpa using hf
    simp only [divLane, if_true, if_neg hm, infLane, encodeFloat, Bool.false_eq_true, if_false, h5, Num.neg]
    rfl
  · have hm : m = 0 := (units_eq_zero_iff a m e).mp hu
    subst hm
    rfl

/-- Roots of a negative number. -/
theorem rootLanes_of_neg (hx : x.value = some u) (hu : u < 0) :
    sqrtLane f mode sat x = (.ok (canonNaN f), fInvalid) ∧ rsqLane f mode sat x = (.ok (canonNaN f), fInvalid) := by
  obtain ⟨a, m, e, rfl, rfl⟩ := Num.value_eq_some hx
  have hpos : (0 : Rat) ≤ m * 2 ^ e := by positivity
  cases a with
  | false =>
    simp only [Bool.false_eq_true, if_false, one_mul] at hu
    linarith
  | true =>
    have hm : m ≠ 0 := by rintro rfl; simp at hu
    exact ⟨if_neg hm, if_neg hm⟩

end

/-! ## Powers of two and their logarithms -/

theorem log2_mul_two_pow {m : Nat} (hm : m ≠ 0) (j : Nat) : Nat.log2 (m * 2 ^ j) = Nat.log2 m + j := by
  have hne : m * 2 ^ j ≠ 0 := Nat.mul_ne_zero hm (by positivity)
  rw [Nat.log2_eq_iff hne, pow_add, Nat.add_right_comm, pow_add _ (Nat.log2 m + 1)]
  exact ⟨Nat.mul_le_mul_right _ (Nat.log2_self_le hm), Nat.mul_lt_mul_of_pos_right Nat.lt_log2_self (by positivity)⟩

theorem roundsUp_of_rem_zero (mode : Nat) (neg : Bool) (n k : Nat) : roundsUp mode neg n 0 (k + 1) false = false := by
  have h : (2 : Nat) ^ k ≠ 0 := by positivity
  rw [roundsUp_eq, show ((0 : Nat) == 2 ^ k) = false by simpa using h.symm]
  exact upBy_of_exact mode neg n

/-- Rounding depends on the magnitude, not on the units it is counted in. -/
theorem roundAt_shift (mode : Nat) (neg : Bool) (m j : Nat) (e q : Int) :
    roundAt mode neg (m * 2 ^ j) (e - j) q false = roundAt mode neg m e q false := by
  have hup (n : Nat) : roundsUp mode neg n 0 1 false = false := roundsUp_of_rem_zero mode neg n 0
  rcases lt_or_ge (e - j) q with hlow | hlow
  · rcases lt_or_ge e q with hq | hq
    · obtain ⟨k, rfl⟩ : ∃ k : Nat, q = e + (k + 1 : Nat) := ⟨(q - e).toNat - 1, by omega⟩
      have hpow : 2 ^ (k + j + 1) = 2 ^ (k + 1) * 2 ^ j := by rw [← pow_add, Nat.add_right_comm]
      have hpos : 0 < 2 ^ j := by positivity
      have hround : roundsUp mode neg (m / 2 ^ (k + 1)) (m % 2 ^ (k + 1) * 2 ^ j) (k + j + 1) false =
          roundsUp mode neg (m / 2 ^ (k + 1)) (m % 2 ^ (k + 1)) (k + 1) false := by
        have h0 : (m % 2 ^ (k + 1) * 2 ^ j != 0) = (m % 2 ^ (k + 1) != 0) := by
          rw [Bool.eq_iff_iff]
          simp
        have hlt : decide (2 ^ (k + j) < m % 2 ^ (k + 1) * 2 ^ j) = decide (2 ^ k < m % 2 ^ (k + 1)) := by
          rw [decide_eq_decide, pow_add, Nat.mul_lt_mul_right hpos]
        have heq : (m % 2 ^ (k + 1) * 2 ^ j == 2 ^ (k + j)) = (m % 2 ^ (k + 1) == 2 ^ k) := by
          rw [Bool.eq_iff_iff, beq_iff_eq, beq_iff_eq, pow_add 2 k j, Nat.mul_left_inj hpos.ne']
        rw [roundsUp_eq, roundsUp_eq, h0, hlt, heq]
      have h0 : (m % 2 ^ (k + 1) * 2 ^ j != 0) = (m % 2 ^ (k + 1) != 0) := by
        rw [Bool.eq_iff_iff]
        simp
      simp only [roundAt, if_neg hlow.not_ge, if_neg hq.not_ge, show (e + (k + 1 : Nat) - (e - j)).toNat = k + j + 1 by omega,
        show (e + (k + 1 : Nat) - e).toNat = k + 1 by omega, hpow, Nat.mul_div_mul_right _ _ hpos, Nat.mul_mod_mul_right, hround, h0]
    · obtain ⟨k, rfl⟩ : ∃ k : Nat, q = e - j + (k + 1 : Nat) := ⟨(q - (e - j)).toNat - 1, by omega⟩
      obtain ⟨d, rfl⟩ : ∃ d, j = k + 1 + d := ⟨j - (k + 1), by omega⟩
      have hmul : m * 2 ^ (k + 1 + d) = m * 2 ^ d * 2 ^ (k + 1) := by rw [pow_add]; ring
      simp only [roundAt, if_neg hlow.not_ge, if_pos hq, show (e - (k + 1 + d : Nat) + (k + 1 : Nat) - (e - (k + 1 + d : Nat))).toNat = k + 1 by omega,
        show (e - (e - (k + 1 + d : Nat) + (k + 1 : Nat))).toNat = d by omega, hmul, Nat.mul_div_cancel _ (show 0 < 2 ^ (k + 1) by positivity),
        Nat.mul_mod_left, roundsUp_of_rem_zero, hup, Nat.shiftLeft_eq, bne_self_eq_false, Bool.or_false]
  · have hq : q ≤ e := by omega
    simp only [roundAt, if_pos hlow, if_pos hq, hup, Nat.shiftLeft_eq, mul_assoc, ← pow_add, show j + (e - j - q).toNat = (e - q).toNat by omega]

theorem roundFloat_shift (f mode : Nat) (sat neg : Bool) {m : Nat} (hm : m ≠ 0) (j : Nat) (e : Int) :
    roundFloat f mode sat neg (m * 2 ^ j) (e - j) false = roundFloat f mode sat neg m e false := by
  have h0 : (m == 0) = false := by simpa using hm
  have h0' : (m * 2 ^ j == 0) = false := by simpa using hm
  have hl : ((Nat.log2 m + j : Nat) : Int) + (e - j) = Nat.log2 m + e := by push_cast; ring
  simp only [roundFloat, h0, h0', Bool.false_and, Bool.false_eq_true, if_false, log2_mul_two_pow hm, hl, roundAt_shift]

/-- A number at an exponent no lower than `lo`, in units of 2^lo. -/
theorem alignTo_eq_of_value {neg : Bool} {m : Nat} {e lo n : Int} {p : Nat} (hlo : lo ≤ e) (hp : lo + p = 0)
    (h : (Num.fin neg m e).value = some (n : Rat)) : alignTo neg m e lo = n * 2 ^ p := by
  have hval := alignTo_value neg m hlo
  rw [Option.some.inj h] at hval
  have h2 : (2 : Rat) ^ lo ≠ 0 := by positivity
  have hlo' : (2 : Rat) ^ lo * 2 ^ p = 1 := by rw [← zpow_natCast, ← zpow_add₀ two_ne_zero, hp, zpow_zero]
  have : ((alignTo neg m e lo : Int) : Rat) = ((n * 2 ^ p : Int) : Rat) := by
    push_cast
    rw [← hval, mul_assoc, hlo', mul_one]
  exact_mod_cast this

/-- With no fraction bit set nothing is multiplied. -/
theorem exp2Frac_zero (n root acc : Nat) : exp2Frac n 0 root acc = acc := by
  induction n generalizing root with
  | zero => rfl
  | succ n ih =>
    have h : (0 / 2 ^ n % 2 == 1) = false := by simp
    simp only [exp2Frac, h, Bool.false_eq_true, if_false, ih]

/-- The approximation of 2^n for a whole n. -/
theorem exp2Approx_of_int {neg : Bool} {m : Nat} {e n : Int} (he : -2000 ≤ e) (h : (Num.fin neg m e).value = some (n : Rat)) :
    exp2Approx neg m e = ⟨1 * 2 ^ exPrec, n - exPrec, false⟩ := by
  have hprec : (exPrec : Int) = 256 := rfl
  have hmax : max e (-2000 - (exPrec : Int)) = e := max_eq_left (by omega)
  have hlow : ¬ e < -2000 - (exPrec : Int) := by omega
  have hal : alignTo neg m e (-2000 - (exPrec : Int)) = n * 2 ^ (2000 + exPrec) := alignTo_eq_of_value (by omega) (by push_cast; ring) h
  have hpos : (2 : Int) ^ (2000 + exPrec) ≠ 0 := by positivity
  simp only [exp2Approx, hmax, hlow, if_false, hal, Int.mul_ediv_cancel _ hpos, Int.mul_emod_left, Int.toNat_zero, Nat.zero_div, exp2Frac_zero,
    decide_false, bne_self_eq_false, Bool.or_false, Nat.one_mul]

section
variable {f mode : Nat} {sat neg : Bool} {m : Nat} {e n : Int}

theorem exp2Lane_of_int (he : -2000 ≤ e) (hn : n.natAbs < 2 ^ 20) (h : (Num.fin neg m e).value = some (n : Rat)) :
    exp2Lane f mode sat (.fin neg m e) = (.ok (roundFloat f mode sat false 1 n false).1, (roundFloat f mode sat false 1 n false).2) := by
  by_cases hm : m = 0
  · subst hm
    have hn0 : n = 0 := by
      have := Option.some.inj h
      simp at this
      exact_mod_cast this.symm
    subst hn0
    rfl
  · have hsmall : ¬ 21 ≤ (Nat.log2 m : Int) + e := by
      intro hbig
      have habs : |(n : Rat)| = m * 2 ^ e := by
        have hpos : (0 : Rat) < 2 ^ e := by positivity
        rw [← Option.some.inj h]
        cases neg <;> simp [abs_mul, abs_of_pos hpos]
      have hnR : |(n : Rat)| < 2 ^ 20 := by
        rw [← Int.cast_abs, Int.abs_eq_natAbs]
        exact_mod_cast hn
      have hlog : (2 : Rat) ^ Nat.log2 m ≤ m := by exact_mod_cast Nat.log2_self_le hm
      have : (2 : Rat) ^ (21 : Int) ≤ |(n : Rat)| :=
        calc (2 : Rat) ^ (21 : Int) ≤ 2 ^ ((Nat.log2 m : Int) + e) := zpow_le_zpow_right₀ one_le_two hbig
          _ = 2 ^ Nat.log2 m * 2 ^ e := by rw [zpow_add₀ two_ne_zero, zpow_natCast]
          _ ≤ m * 2 ^ e := mul_le_mul_of_nonneg_right hlog (by positivity)
          _ = |(n : Rat)| := habs.symm
      norm_num at this hnR
      linarith
    refine ((if_neg hm).trans (if_neg hsmall)).trans ?_
    rw [exp2Approx_of_int he h]
    simp only [roundApprox, roundFloat_shift f mode sat false one_ne_zero exPrec n]

/-- A number that is a power of two is one in its units. -/
theorem eq_two_pow_of_value (h : (Num.fin neg m e).value = some ((2 : Rat) ^ n)) : neg = false ∧ ∃ k : Nat, m = 2 ^ k ∧ n = k + e := by
  have hpos : (0 : Rat) < 2 ^ n := by positivity
  have hval := Option.some.inj h
  have hnonneg : (0 : Rat) ≤ m * 2 ^ e := by positivity
  cases neg with
  | true =>
    simp only [if_true, neg_mul, one_mul] at hval
    linarith
  | false =>
    simp only [Bool.false_eq_true, if_false, one_mul] at hval
    refine ⟨rfl, ?_⟩
    rcases lt_or_ge n e with hlt | hge
    · obtain ⟨d, rfl⟩ : ∃ d : Nat, e = n + (d + 1 : Nat) := ⟨(e - n).toNat - 1, by omega⟩
      rw [zpow_add₀ two_ne_zero, zpow_natCast] at hval
      have hone : (m : Rat) * 2 ^ (d + 1) = 1 := by
        have : (m : Rat) * 2 ^ (d + 1) * 2 ^ n = 1 * 2 ^ n := by
          rw [one_mul, mul_assoc, mul_comm ((2 : Rat) ^ (d + 1)), hval]
        exact mul_right_cancel₀ hpos.ne' this
      have hone' : m * 2 ^ (d + 1) = 1 := by exact_mod_cast hone
      rw [pow_succ, ← Nat.mul_assoc] at hone'
      omega
    · obtain ⟨k, rfl⟩ : ∃ k : Nat, n = k + e := ⟨(n - e).toNat, by omega⟩
      refine ⟨k, ?_, rfl⟩
      rw [zpow_add₀ two_ne_zero, zpow_natCast] at hval
      exact_mod_cast mul_right_cancel₀ (by positivity) hval

theorem log2Lane_of_two_pow (h : (Num.fin neg m e).value = some ((2 : Rat) ^ n)) :
    log2Lane f mode sat (.fin neg m e) =
      (if n = 0 then (.ok 0, 0) else (.ok (roundFloat f mode sat (decide (n < 0)) n.natAbs 0 false).1, (roundFloat f mode sat (decide (n < 0)) n.natAbs 0 false).2)) := by
  obtain ⟨rfl, k, rfl, rfl⟩ := eq_two_pow_of_value h
  have hne : (2 : Nat) ^ k ≠ 0 := by positivity
  have happrox : log2Approx (2 ^ k) e = (decide ((k : Int) + e < 0), ⟨((k : Int) + e).natAbs, 0, false⟩) := by
    simp only [log2Approx, Nat.log2_two_pow, beq_self_eq_true, if_true]
  refine ((if_neg hne).trans (if_neg Bool.false_ne_true)).trans ?_
  rw [happrox]
  by_cases h0 : (k : Int) + e = 0
  · rw [if_pos h0, h0]
    rfl
  · have hb : (((k : Int) + e).natAbs = 0 && !false) = false := by simpa using h0
    rw [if_neg h0]
    simp only [hb, Bool.false_eq_true, if_false, roundApprox]

end

/-- Settles O20: numbers are rounded as `roundFloat_rounded` says of their exact real magnitude, and each lane rounds one once. -/
theorem floatArithmetic : Obligations.FloatArithmetic := by
  unfold Obligations.FloatArithmetic
  refine ⟨by decide, fun f b h1 h6 hb => ⟨value_decodeFloat h1 h6 hb, decodeFloat_of_none h1 h6 hb⟩, fun mode x y u v k hx hy => ?_,
    fun f mode sat neg m e h1 h6 hm => roundFloat_in_or_out_of_range h1 h6 hm sat neg m e, fun f mode sat x y u v h1 h6 hm hx hy => ?_,
    fun f mode sat neg m e n h1 h6 hm he hn => ⟨exp2Lane_of_int he hn, log2Lane_of_two_pow⟩⟩
  · obtain ⟨hadd, hadd'⟩ := value_addNum mode hx hy
    obtain ⟨hmul, hmul'⟩ := value_mulNum hx hy
    exact ⟨hadd, hadd', hmul, hmul', value_negate hx, value_scale hx k⟩
  · exact ⟨divLane_rounds h1 h6 hm sat hx hy, fun hu hv hf => (divLane_by_zero (sat := sat) hx hy hv).1 hu hf,
      fun hu hv => (divLane_by_zero hx hy hv).2 hu, sqrtLane_rounds h1 h6 hm sat hx, rsqLane_rounds h1 h6 hm sat hx, rootLanes_of_neg hx⟩

end Sys2Proof.Machine
end

section
/-! PROOF. The checks of every memory instruction (R77, R90, R121, R154, R177-R179). -/

namespace Sys2Proof.Machine

/-- An outcome is that of `memAccess` in a shape. -/
def MemForm.Gives (f : MemForm) (s : State) (r : Result) : Prop :=
  ∃ build, r = memAccess f.size f.srcs f.dsts f.vs f.qs f.rv build s ∧ (∀ vals, (build vals).op = f.op ∧ (build vals).disp = f.disp) ∧
    f.op.align = f.align

section
variable (size : Nat) (d a b x : GReg) (v : VNum) (oc k : BitVec 3) (acq rel w : Bool) (sel m : BitVec 4) (q : QNum) (clr : Bool) (o : BitVec 2) (disp : Word) (s : State)

theorem gives_loadOp : MemForm.Gives ⟨[a], [d], [], [], [], .ld (2 ^ (k.toNat / 2)) (k.toNat % 2 = 0 && k.toNat < 6), disp, 2 ^ (k.toNat / 2), size⟩ s
    (loadOp size d a oc acq k disp s) :=
  ⟨_, rfl, fun _ => ⟨congrArg (Op.ld _) (ldSigned_eq k), rfl⟩, rfl⟩
theorem gives_storeOp : MemForm.Gives ⟨[a, x], [], [], [], [], .st (2 ^ k.toNat), disp, 2 ^ k.toNat, size⟩ s (storeOp size x a oc rel k disp s) :=
  ⟨_, rfl, fun _ => ⟨rfl, rfl⟩, rfl⟩
theorem gives_loadV : MemForm.Gives ⟨[a], [], [v], [], [], .ldv m, disp, 64, size⟩ s (loadV size v a oc m disp s) :=
  ⟨_, rfl, fun _ => ⟨rfl, rfl⟩, rfl⟩
theorem gives_storeV : MemForm.Gives
    ⟨[a], [], [v], [], (2, v.zeroExtend 5) :: (if m != 0 then [(4, v.zeroExtend 5)] else []), .stv, disp, 64, size⟩ s (storeV size v a oc m disp s) := by
  unfold storeV
  exact ⟨_, rfl, fun _ => ⟨rfl, rfl⟩, rfl⟩
theorem gives_amoOp (hs : sel ≠ 9) : MemForm.Gives ⟨[a, b], [d], [], [], [], .amo sel w, 0, if w then 8 else 4, 4⟩ s (amoOp sel d a b o w oc s) := by
  unfold amoOp
  rw [if_neg hs]
  exact ⟨_, rfl, fun _ => ⟨rfl, rfl⟩, rfl⟩
theorem gives_amcas : MemForm.Gives ⟨[a, b, d], [d], [], [], [], .amo 9 w, 0, if w then 8 else 4, 4⟩ s (amoOp 9 d a b o w oc s) := by
  unfold amoOp
  exact ⟨_, rfl, fun _ => ⟨rfl, rfl⟩, rfl⟩
theorem gives_redOp : MemForm.Gives ⟨[a, b], [], [], [], [], .red sel w, 0, if w then 8 else 4, 4⟩ s (redOp sel a b rel w oc s) :=
  ⟨_, rfl, fun _ => ⟨rfl, rfl⟩, rfl⟩
theorem gives_execLdfe : MemForm.Gives ⟨[a], [d], [], [], [], .ldfe clr, 0, 8, 4⟩ s (execLdfe d a oc clr s) := ⟨_, rfl, fun _ => ⟨rfl, rfl⟩, rfl⟩
theorem gives_execStfe : MemForm.Gives ⟨[a, b], [], [], [], [], .stfe, 0, 8, 4⟩ s (execStfe a b oc s) := ⟨_, rfl, fun _ => ⟨rfl, rfl⟩, rfl⟩
theorem gives_execFeq : MemForm.Gives ⟨[a], [d], [], [], [], .feq, 0, 16, 4⟩ s (execFeq d a oc s) := ⟨_, rfl, fun _ => ⟨rfl, rfl⟩, rfl⟩
theorem gives_execFeset : MemForm.Gives ⟨[a], [], [], [], [], .feset clr, 0, 16, 4⟩ s (execFeset a oc clr s) := ⟨_, rfl, fun _ => ⟨rfl, rfl⟩, rfl⟩
theorem gives_execSqld : MemForm.Gives ⟨[a], [], [], [q], [], .sqld, 0, 16, 4⟩ s (execSqld q a oc s) := ⟨_, rfl, fun _ => ⟨rfl, rfl⟩, rfl⟩
end

/-- Every memory instruction is `memAccess` in the shape that `memForm` gives it. -/
theorem exec_of_memForm {i : Instr} {f : MemForm} (s : State) (hi : memForm i = some f) : f.Gives s (exec i s) := by
  unfold memForm at hi
  split at hi <;> cases hi
  · exact gives_loadOp ..
  · exact gives_loadOp ..
  · exact gives_storeOp ..
  · exact gives_storeOp ..
  · exact gives_loadV ..
  · exact gives_loadV ..
  · exact gives_storeV ..
  · exact gives_storeV ..
  · exact gives_execLdfe ..
  · exact gives_execStfe ..
  · exact gives_execFeq ..
  · exact gives_execFeset ..
  · exact gives_execSqld ..
  iterate 9 exact gives_amoOp _ _ _ _ _ _ _ _ (by decide)
  · exact gives_amcas ..
  iterate 2 exact gives_amoOp _ _ _ _ _ _ _ _ (by decide)
  iterate 5 exact gives_redOp ..

section
variable {size : Nat} {srcs dsts : List GReg} {vs : List VNum} {qs : List QNum} {rv : List (BitVec 3 × BitVec 5)} {build : List Val → Access}
  {s : State} {base : Val} {rest : List Val} {op : Op} {disp : Word}
  (h : s.memReady srcs dsts vs qs rv) (hr : s.reads srcs = base :: rest) (ha : ∀ vals, (build vals).op = op ∧ (build vals).disp = disp)
include h hr ha

omit ha in
/-- The base is checked before all else. -/
theorem memAccess_of_invalid_base (hv : base.valid = false) :
    memAccess size srcs dsts vs qs rv build s = .next (s.trapNow ⟨0x18, payloadOf base, 0⟩) := by
  obtain ⟨hwait, hb, hvs, hq, hbad⟩ := h
  unfold memAccess
  simp only [hwait, hb, hvs, hq, hbad, hr, List.getD_cons_zero, hv, Option.isSome_none, Bool.or_self, Bool.false_eq_true, if_false, Bool.not_false,
    if_true, poisonTrap]

/-- Then the alignment. -/
theorem memAccess_of_misaligned (hv : base.valid = true) (hal : (base.bits + disp).toNat % op.align ≠ 0) :
    memAccess size srcs dsts vs qs rv build s = .next (s.trapNow ⟨0x0B, base.bits + disp, 0⟩) := by
  obtain ⟨hwait, hb, hvs, hq, hbad⟩ := h
  unfold memAccess
  simp only [hwait, hb, hvs, hq, hbad, hr, List.getD_cons_zero, hv, (ha _).1, (ha _).2, Option.isSome_none, Bool.or_self, Bool.false_eq_true, if_false,
    Bool.not_true, bne_iff_ne, ne_eq, hal, not_false_eq_true, if_true, mkTrap]

/-- Then the translation. -/
theorem memAccess_of_trap {t : Trap} {s' : State} (hv : base.valid = true) (hal : (base.bits + disp).toNat % op.align = 0)
    (ht : ∀ oc, s.translate s.focus.plot s.focus.slot none oc (base.bits + disp) op.kind = .trap t s') :
    memAccess size srcs dsts vs qs rv build s = .next (s'.trapNow t) := by
  obtain ⟨hwait, hb, hvs, hq, hbad⟩ := h
  unfold memAccess
  simp only [hwait, hb, hvs, hq, hbad, hr, List.getD_cons_zero, hv, (ha _).1, (ha _).2, Option.isSome_none, Bool.or_self, Bool.false_eq_true, if_false,
    Bool.not_true, bne_iff_ne, ne_eq, hal, not_true_eq_false, ht]

/-- An access whose page is still to be walked waits. -/
theorem memAccess_of_miss (hv : base.valid = true) (hal : (base.bits + disp).toNat % op.align = 0)
    (ht : ∀ oc, ∃ s', s.translate s.focus.plot s.focus.slot none oc (base.bits + disp) op.kind = .miss s') :
    ∃ t, memAccess size srcs dsts vs qs rv build s = .next t ∧ t = { s with walks := t.walks, nextId := t.nextId } := by
  obtain ⟨hwait, hb, hvs, hq, hbad⟩ := h
  obtain ⟨s', ht⟩ := ht (build (s.reads srcs)).oc
  rw [hr] at ht
  refine ⟨s', ?_, State.translate_miss ht⟩
  unfold memAccess
  simp only [hwait, hb, hvs, hq, hbad, hr, List.getD_cons_zero, hv, (ha _).1, (ha _).2, Option.isSome_none, Bool.or_self, Bool.false_eq_true, if_false,
    Bool.not_true, bne_iff_ne, ne_eq, hal, not_true_eq_false, ht]

/-- Then the target. -/
theorem memAccess_of_targetTrap {e : Tlb} {t : Trap} (hv : base.valid = true) (hal : (base.bits + disp).toNat % op.align = 0)
    (ht : ∀ oc, s.translate s.focus.plot s.focus.slot none oc (base.bits + disp) op.kind = .hit e)
    (htarget : s.targetTrap op.target e.host (e.addr (base.bits + disp)).toNat (base.bits + disp) = some t) :
    memAccess size srcs dsts vs qs rv build s = .next (s.trapNow t) := by
  obtain ⟨hwait, hb, hvs, hq, hbad⟩ := h
  unfold memAccess
  simp only [hwait, hb, hvs, hq, hbad, hr, List.getD_cons_zero, hv, (ha _).1, (ha _).2, Option.isSome_none, Bool.or_self, Bool.false_eq_true, if_false,
    Bool.not_true, bne_iff_ne, ne_eq, hal, not_true_eq_false, ht, htarget]

end

section
variable {s : State} {p k kind : Nat} {o : Option Nat} {oc : BitVec 3} {va : Word}

theorem State.translate_of_not_canonical (h : canonical va = false) :
    s.translate p k o oc va kind = .trap ⟨translationCause kind, va, 0x400000000⟩ s := by
  rw [State.translate, h]; rfl

theorem State.translate_of_lookup {e : Tlb} (hc : canonical va = true) (h : s.lookup p va = some e) :
    s.translate p k o oc va kind = if e.permits kind then .hit e else .trap ⟨if kind = 2 then 0x04 else 0x0A, va, 0⟩ s := by
  simp only [State.translate, hc, h, Bool.not_true, Bool.false_eq_true, if_false]

/-- Without a walk that was declined or lost its table, an address with no translation waits. -/
theorem State.translate_of_no_lookup (hc : canonical va = true) (h : s.lookup p va = none)
    (hw : ∀ w ∈ s.walks, w.2.declined = false ∧ w.2.lost = none) : ∃ t, s.translate p k o oc va kind = .miss t := by
  simp only [State.translate, hc, h, Bool.not_true, Bool.false_eq_true, if_false]
  split
  · rename_i id w hfind
    obtain ⟨hd, hl⟩ := hw _ (List.mem_of_find?_eq_some hfind)
    dsimp only at hd hl
    simp [hd, hl]
  · exact ⟨_, rfl⟩
end

/-- The operation is a load for the checks of R179. -/
def Op.isLoad : Op → Bool
  | .ld .. | .ldv .. | .sqld | .ldfe .. | .feq => true
  | _ => false
/-- The operation is an atomic or a reduction. -/
def Op.isAtomic : Op → Bool
  | .amo .. | .red .. => true
  | _ => false
theorem Op.translationCause_kind (o : Op) : translationCause o.kind = if o.isLoad then 0x08 else 0x09 := by cases o <;> rfl
theorem Op.kind_ne_fetch (o : Op) : o.kind ≠ 2 := by cases o <;> simp [Op.kind]
theorem Tlb.permits_kind (e : Tlb) (o : Op) : e.permits o.kind = if o.isLoad then e.r else if o.isAtomic then e.r && e.w && e.atm else e.w := by
  cases o <;> rfl

/-- Settles O30. -/
theorem memoryInstructionChecks : Obligations.MemoryInstructionChecks := by
  unfold Obligations.MemoryInstructionChecks
  refine ⟨fun s i f base rest hi h hr => ?_, fun s k pa va => ?_⟩
  · obtain ⟨build, hexec, ha, halign⟩ := exec_of_memForm s hi
    rw [hexec, ← halign]
    refine ⟨fun hv => memAccess_of_invalid_base h hr hv, fun hv hal => memAccess_of_misaligned h hr ha hv hal, fun hv hal =>
      ⟨fun hc => ?_, fun hc hl hw => ?_, fun e hc hl => ?_⟩⟩
    · refine (memAccess_of_trap h hr ha hv hal fun oc => State.translate_of_not_canonical hc).trans ?_
      rw [Op.translationCause_kind]; rfl
    · exact memAccess_of_miss h hr ha hv hal fun oc => State.translate_of_no_lookup hc hl hw
    · have ht (oc : BitVec 3) := State.translate_of_lookup (k := s.focus.slot) (kind := f.op.kind) (o := none) (oc := oc) hc hl
      simp only [Tlb.permits_kind, if_neg f.op.kind_ne_fetch] at ht
      refine ⟨fun hmay => memAccess_of_trap h hr ha hv hal fun oc => (ht oc).trans (if_neg ?_), fun tr hmay =>
        memAccess_of_targetTrap h hr ha hv hal fun oc => (ht oc).trans (if_pos hmay)⟩
      rw [Bool.not_eq_true]; exact hmay
  · refine ⟨rfl, fun hb hrem => ?_, fun hor => ?_⟩
    · simp [State.targetTrap, hb, hrem]
    · have hno : (s.backed pa && s.isRemoved (s.homeDie pa)) = false := by rcases hor with h | h <;> simp [h]
      simp only [State.targetTrap, hno, Bool.false_eq_true, if_false, Bool.or_eq_true]
      exact ⟨trivial, rfl, rfl, rfl⟩

end Sys2Proof.Machine
end

section
/-! PROOF. Requests of one plot to host pages go one after another (R94, R147). -/

namespace Sys2Proof.Machine

/-- Loads of slots 1 and 0 of one plot from a host page, both of which may leave, with no session's memory behind them. -/
def twoHostLoads : State :=
  { State.reset with reqs := [(0, { spadReq (.ld 4 false) 0 with slot := 1, unit := 16 }), (1, { spadReq (.ld 4 false) 0 with unit := 16 })] }

/-- Refutes O34: a later request of a stream to the front end waits for the earlier one, also one of another slot (R147), so it does not park yet;
the second part asks only that nothing of its own slot holds it. -/
theorem not_hostPagesAndWalks : ¬ Obligations.HostPagesAndWalks := by
  rintro ⟨-, hpark, -⟩
  obtain ⟨t, ht, -, hid, -⟩ := hpark twoHostLoads 1 { spadReq (.ld 4 false) 0 with unit := 16 } rfl rfl rfl (by decide) (by decide) (by decide) rfl
    (by decide) (by decide)
  have hstay : exec (.hostPageAccess 1) twoHostLoads = .next twoHostLoads := by rfl
  obtain rfl : twoHostLoads = t := by simpa using hstay.symm.trans ht
  exact absurd hid (by decide)

end Sys2Proof.Machine
end

section
/-! PROOF. A bunting word that must ask other engines lets the words whose turn has come go first (R106). -/

namespace Sys2Proof.Machine
open Sys2Proof

/-- A BNFREE of one name by slot 0 of plot 0. -/
def freeWord (name : BitVec 44) (stage : WStage) (homed : Bool) : SWord :=
  ⟨0, 0, 1, .bnfree ⟨0, 0, false, false, 0⟩ name 0, stage, [], [], 0, [], false, 0, 0, homed, []⟩

/-- The names of the pool belong to die 1. The first word is about to start; the second has had all its answers, and names something else. -/
def ripeWord : State :=
  { State.reset with
    plots := [(0, { Plot.init with inst := some 0 })]
    insts := [(0, loaderInst)]
    bunting := { State.reset.bunting with parts := [1] }
    words := [(0, freeWord 0 .queued false), (1, freeWord 16777216 .running true)] }

/-- The second word is performed when the first has asked, and ends in its fault. -/
theorem exec_bnfree_ripeWord : ∃ t, exec (freeWord 0 .queued false).instr ripeWord = .next t ∧ tfind t.words 1 = none := ⟨_, rfl, by decide⟩

/-- Refutes O52: a word whose requests leave for another die lets a word that waits with all its answers act (R106), also when it does not act
itself; the statement's state has only the requests. -/
theorem not_buntingAndPennantWords : ¬ Obligations.BuntingAndPennantWords := by
  rintro ⟨hword, -⟩
  obtain ⟨-, -, -, hasked⟩ := hword ripeWord (freeWord 0 .queued false) ⟨0, 0, false, false, 0⟩ _ 0 0 0 0 false (by simp [freeWord])
    ⟨rfl, rfl, rfl, by decide⟩
  obtain ⟨t, ht, hgone⟩ := exec_bnfree_ripeWord
  rw [hasked (by decide) (by decide)] at ht
  cases ht
  exact absurd hgone (by decide)

end Sys2Proof.Machine
end

section
/-! PROOF. Rebases, optics, the vertical bus, recovery and control registers (R80, R82, R122, R123, R125, R126, R131, R139, R141, R149). -/

namespace Sys2Proof.Machine

/-! ## What logging and reporting change -/

/-- Reports to each of a list change what is sent. -/
theorem State.reports_eq {α : Type} (k : α → Nat) (kind : Nat) (q : List Nat) (l : List α) (s : State) :
    ∃ sent, l.foldl (fun s e => s.report (k e) kind q) s = { s with sent } :=
  List.foldlRecOn (motive := fun t => ∃ sent, t = { s with sent }) l _ ⟨_, rfl⟩ fun _ ⟨_, h⟩ _ _ => ⟨_, by rw [h]; rfl⟩

theorem State.ite_reports_eq {α : Type} (c : Prop) [Decidable c] (k : α → Nat) (kind : Nat) (q : List Nat) (l : List α) (s : State) :
    (if c then l.foldl (fun s e => s.report (k e) kind q) s else s) =
      { s with sent := (if c then l.foldl (fun s e => s.report (k e) kind q) s else s).sent } := by
  split
  · obtain ⟨_, h⟩ := State.reports_eq k kind q l s
    rw [h]
  · rfl

/-- A log record touches the log, its counts and what is sent. -/
theorem State.logRec_eq (s : State) (kind d0 d1 : Nat) :
    ∃ log logLost logRead sent, s.logRec kind d0 d1 = { s with log, logSeq := s.logSeq + 1, logLost, logRead, sent } := by
  unfold State.logRec
  dsimp only
  rw [State.ite_reports_eq]
  exact ⟨_, _, _, _, rfl⟩

/-- So does one with an earlier time. -/
theorem State.logAt_eq (s : State) (t kind d0 d1 : Nat) :
    ∃ log logLost logRead sent, s.logAt t kind d0 d1 = { s with log, logSeq := s.logSeq + 1, logLost, logRead, sent } := by
  obtain ⟨_, _, _, _, h⟩ := State.logRec_eq { s with clock := t } kind d0 d1
  rw [State.logAt, h]
  exact ⟨_, _, _, _, rfl⟩

/-- Updates of slots for each of a list change slots only. -/
theorem State.foldl_slots_eq {α : Type} (f : State → α → State) (hf : ∀ s a, ∃ slots, f s a = { s with slots }) (l : List α) (s : State) :
    ∃ slots, l.foldl f s = { s with slots } :=
  List.foldlRecOn (motive := fun t => ∃ slots, t = { s with slots }) l _ ⟨_, rfl⟩ fun _ ⟨_, h⟩ a _ => by
    subst h
    exact hf _ a

/-! ## Rebase -/

theorem State.startRebase_of_none {s : State} (h : s.rebasing = .none) : s.startRebase = { s with rebasing := .draining, rebaseAt := s.clock } := by
  rw [State.startRebase, h]; rfl
theorem State.startRebase_of_ne_none {s : State} (h : s.rebasing ≠ .none) : s.startRebase = s := by
  rw [State.startRebase, if_neg (by simpa using h)]
theorem State.startRebase_rebasing_ne_none (s : State) : s.startRebase.rebasing ≠ .none := by
  by_cases h : s.rebasing = .none
  · rw [State.startRebase_of_none h]; exact nofun
  · rwa [State.startRebase_of_ne_none h]
/-- Beginning a rebase touches its state and its time. -/
theorem State.startRebase_eq (s : State) : ∃ rebasing rebaseAt, s.startRebase = { s with rebasing, rebaseAt } := by
  by_cases h : s.rebasing = .none
  · exact ⟨_, _, State.startRebase_of_none h⟩
  · exact ⟨_, _, State.startRebase_of_ne_none h⟩
/-- A partition that is set is pending; none changes in force. -/
theorem State.setPartition_eq (s : State) (n : Nat) (p : PartitionVal) :
    ∃ rebasing rebaseAt, s.setPartition n p = { s with pendingParts := tset s.pendingParts n p, rebasing, rebaseAt } := by
  obtain ⟨_, _, h⟩ := State.startRebase_eq { s with pendingParts := tset s.pendingParts n p }
  exact ⟨_, _, h⟩

theorem State.splitWrites_eq (s : State) (id : Nat) (o : Out) (w : Nat) (sig : BitVec 12) (ws : List (BitVec 48 × W32)) :
    ∃ outs nextId, (s.splitWrites id o w sig ws).1 = { s with outs, nextId } := by
  unfold State.splitWrites
  dsimp only
  split
  · exact ⟨_, _, rfl⟩
  · exact List.foldlRecOn (motive := fun r : State × List Nat => ∃ outs nextId, r.1 = { s with outs, nextId }) _ _ ⟨_, _, rfl⟩
      fun r ⟨_, _, h⟩ _ _ => ⟨_, _, by rw [h]⟩

theorem State.rehome_eq (s : State) : ∃ reqs outs nextId words ports, s.rehome = { s with reqs, outs, nextId, words, ports } := by
  unfold State.rehome
  refine List.foldlRecOn (motive := fun t => ∃ reqs outs nextId words ports, t = { s with reqs, outs, nextId, words, ports }) _ _ ?_
    fun t ⟨_, _, _, _, _, h⟩ e _ => ?_
  · exact ⟨_, _, _, _, _, rfl⟩
  split
  · rename_i w sig ws _
    subst h
    obtain ⟨_, _, hq⟩ := State.splitWrites_eq _ e.1 e.2 w sig ws
    dsimp only
    rw [hq]
    exact ⟨_, _, _, _, _, rfl⟩
  · exact ⟨_, _, _, _, _, h⟩

/-- What a rebase leaves once no packet is under way. -/
theorem exec_rebaseReset_eq {s : State} (hr : s.rebasing = .retransmitting) (hp : s.packets = []) :
    ∃ reqs pnreqs walks plots outs nextId words ports log logLost logRead sent, exec .rebaseReset s =
      .next { s with causal := [], frontiers := [], asked := [], rebase := s.rebase + 1, rebasing := .none, pendingParts := [],
                     partitions := s.pendingParts.foldl (fun p e => tset p e.1 e.2) s.partitions, logSeq := s.logSeq + 1,
                     reqs, pnreqs, walks, plots, outs, nextId, words, ports, log, logLost, logRead, sent } := by
  change ∃ _ _ _ _ _ _ _ _ _ _ _ _, execRebaseReset s = _
  unfold execRebaseReset
  simp only [hr, hp, bne_self_eq_false, Bool.or_self, Bool.false_eq_true, if_false]
  split
  · obtain ⟨_, _, _, _, hlog⟩ := State.logRec_eq _ 0x04 (s.rebase + 1).toNat (s.clock - s.rebaseAt)
    rw [hlog]
    exact ⟨_, _, _, _, _, _, _, _, _, _, _, _, rfl⟩
  · obtain ⟨_, _, _, _, _, h⟩ := State.rehome_eq _
    rw [h]
    obtain ⟨_, _, _, _, hlog⟩ := State.logRec_eq _ 0x04 (s.rebase + 1).toNat (s.clock - s.rebaseAt)
    rw [hlog]
    exact ⟨_, _, _, _, _, _, _, _, _, _, _, _, rfl⟩

/-- A quiet plane goes on to retransmit, and one that is not quiet stays. -/
theorem exec_rebaseQuiet_of_draining {s : State} (h : s.rebasing = .draining) :
    (s.rebaseAt + 7600 ≤ s.clock → s.lastDelivery + 7600 ≤ s.clock → (∀ e ∈ s.packets, e.2.delivered = true ∨ s.deliverable e.2 = false) →
      exec .rebaseQuiet s = .next { s with rebasing := .retransmitting }) ∧
    (s.clock < s.rebaseAt + 7600 ∨ s.clock < s.lastDelivery + 7600 → exec .rebaseQuiet s = .next s) := by
  constructor
  · intro hat hlast hall
    have hquiet : s.packets.all (fun e => e.2.delivered || !s.deliverable e.2) = true := by simpa using hall
    have hmax : max s.rebaseAt s.lastDelivery + 7600 ≤ s.clock := by omega
    exact if_pos (by simp [h, hquiet, hmax])
  · intro hor
    have hmax : ¬ max s.rebaseAt s.lastDelivery + 7600 ≤ s.clock := by omega
    exact if_neg (by simp [hmax])

/-! ## Optics -/

section
variable {s : State} {k : BitVec 4} {wg : BitVec 5} {wl : BitVec 4}

/-- A first saturated heater takes the spare ring, a second retires the waveguide; both are logged. -/
theorem exec_ringHeaterSaturate_eq (hr : nmem (tget Optics.init s.optics k.toNat).retired wg.toNat = false) :
    let o := tget Optics.init s.optics k.toNat
    let o' := if nmem o.spares wg.toNat then { o with retired := nins o.retired wg.toNat, busy := tdel o.busy wg.toNat }
      else { o with spares := nins o.spares wg.toNat, busy := tset o.busy wg.toNat (s.clock + 38000) }
    ∃ log logLost logRead sent, exec (.ringHeaterSaturate k wg wl) s =
      .next { s with optics := tset s.optics k.toNat o', log, logSeq := s.logSeq + 1, logLost, logRead, sent } := by
  have hexec : exec (.ringHeaterSaturate k wg wl) s = execRingHeaterSaturate k wg wl s := rfl
  dsimp only
  rw [hexec, execRingHeaterSaturate]
  cases nmem (tget Optics.init s.optics k.toNat).spares wg.toNat with
  | false =>
    simp only [hr, Bool.not_false, Bool.false_eq_true, if_true, if_false]
    obtain ⟨_, _, _, _, hlog⟩ := State.logRec_eq _ 0x07 (ringWord k.toNat wg.toNat wl.toNat (tget Optics.init s.optics k.toNat).retired.length) 0
    rw [hlog]
    exact ⟨_, _, _, _, rfl⟩
  | true =>
    simp only [hr, Bool.not_true, Bool.false_eq_true, if_true, if_false]
    obtain ⟨_, _, _, _, hlog⟩ := State.logRec_eq _ 0x07 (ringWord k.toNat wg.toNat wl.toNat (nins (tget Optics.init s.optics k.toNat).retired wg.toNat).length) 0
    rw [hlog]
    obtain ⟨_, hrep⟩ := State.reports_eq (fun e : Nat × Session => e.1) 3 _ s.sessions _
    rw [hrep]
    exact ⟨_, _, _, _, rfl⟩

end

/-! ## The vertical bus -/

section
variable {s : State} {die : BitVec 3}

/-- A retraining that starts. -/
theorem State.startRetrain_eq (s : State) (d : Nat) (forced : Bool) : ∃ log logLost logRead sent, s.startRetrain d forced =
    { s.modDie d (fun x => { x with retraining := some (s.clock + 2850), deferred := none }) with log, logSeq := s.logSeq + 1, logLost, logRead, sent } :=
  State.logRec_eq _ _ _ _

/-- A retraining that starts is logged and leaves memory. -/
theorem State.startRetrain_dieAt (s : State) (d : Nat) (forced : Bool) :
    (s.startRetrain d forced).dieAt d = { s.dieAt d with retraining := some (s.clock + 2850), deferred := none } ∧
      (s.startRetrain d forced).logSeq = s.logSeq + 1 ∧ (s.startRetrain d forced).mem = s.mem := by
  obtain ⟨_, _, _, _, h⟩ := s.startRetrain_eq d forced
  rw [h]
  exact ⟨s.dieAt_modDie d fun x => { x with retraining := some (s.clock + 2850), deferred := none }, rfl, rfl⟩

/-- A due retraining runs or is deferred. -/
theorem exec_vbusRetrain_of_due (hp : s.present die.toNat = true) (hr : (s.dieAt die.toNat).retraining = none)
    (hd : (s.dieAt die.toNat).due ≤ s.clock) :
    exec (.vbusRetrain die) s = if s.deferRetrain die.toNat then
        .next (if (s.dieAt die.toNat).deferred.isSome then s else s.modDie die.toNat fun x => { x with deferred := some s.clock })
      else .next (s.startRetrain die.toNat false) := by
  have hnot : (!s.present die.toNat || (s.dieAt die.toNat).retraining.isSome || decide (s.clock < (s.dieAt die.toNat).due)) = false := by
    simp [hp, hr, hd]
  exact if_neg (by rw [hnot]; exact Bool.false_ne_true)

/-- Transfers stop where they stand, and the retraining is forced. -/
theorem exec_vbusRetrainForced_of_boundary {u : Nat} (hd : (s.dieAt die.toNat).deferred = some u) (hr : (s.dieAt die.toNat).retraining = none)
    (hu : u + 76000 ≤ s.clock) (hw : ∀ e ∈ s.words, die.toNat ∈ s.bulkDies e.1 e.2 → s.atBoundary e.1 e.2 4096 = true) :
    ∃ slots, exec (.vbusRetrainForced die) s = .next ({ s with slots }.startRetrain die.toNat true) := by
  have hnot : ((s.dieAt die.toNat).retraining.isSome || decide (s.clock < u + 76000) ||
      s.words.any fun e => (s.bulkDies e.1 e.2).contains die.toNat && !s.atBoundary e.1 e.2 4096) = false := by
    simpa [hr, hu] using hw
  obtain ⟨slots, hs⟩ := State.foldl_slots_eq
    (fun (s : State) (e : Nat × SWord) => if (s.bulkDies e.1 e.2).contains die.toNat then s.stopBulk e.2.plot e.2.slot (wordArc e.2.instr) e.2.progress else s)
    (fun s e => by split <;> exact ⟨_, rfl⟩) s.words s
  refine ⟨slots, ?_⟩
  rw [← hs]
  change execVbusRetrainForced die s = _
  simp only [execVbusRetrainForced, hd, hnot, Bool.false_eq_true, if_false]

theorem exec_vbusRetrainForced_of_early {u : Nat} (hd : (s.dieAt die.toNat).deferred = some u) (hu : s.clock < u + 76000) :
    exec (.vbusRetrainForced die) s = .next s := by
  change execVbusRetrainForced die s = _
  simp only [execVbusRetrainForced, hd, hu, decide_true, Bool.or_true, Bool.true_or, if_true]

/-- The end of a retraining resumes the stopped transfers. -/
theorem exec_vbusRetrainEnd_of_over {e : Nat} (hr : (s.dieAt die.toNat).retraining = some e) (he : e ≤ s.clock) :
    ∃ slots, exec (.vbusRetrainEnd die) s =
      .next ({ s with slots }.modDie die.toNat fun x => { x with retraining := none, due := s.clock + 3800000 }) := by
  obtain ⟨slots, hs⟩ := State.foldl_slots_eq
    (fun (s : State) (e : Nat × SWord) => if (s.bulkDies e.1 e.2).contains die.toNat then s.modSlot e.2.plot e.2.slot fun x => { x with vprog := x.vprog &&& ~~~1#64 }
      else s) (fun s e => by split <;> exact ⟨_, rfl⟩) s.words s
  refine ⟨slots, ?_⟩
  rw [← hs]
  change execVbusRetrainEnd die s = _
  simp only [execVbusRetrainEnd, hr, if_neg (Nat.not_lt.2 he)]

end

/-! ## Recovery and control registers -/

section
variable {s : State} {p : BitVec 13}

theorem exec_deadlockRecoveryStart_of_none (h : tfind s.recovery p.toNat = none) : exec (.deadlockRecoveryStart p) s =
    .next (if s.headBlocked (dieOf p.toNat) 7600 then { s with recovery := tset s.recovery p.toNat s.clock } else s) := by
  change execDeadlockRecoveryStart p s = _
  simp only [execDeadlockRecoveryStart, h]
  cases s.headBlocked (dieOf p.toNat) 7600 <;> rfl
theorem exec_deadlockRecoveryStart_of_some {e : Nat} (h : tfind s.recovery p.toNat = some e) : exec (.deadlockRecoveryStart p) s = .next s := by
  change execDeadlockRecoveryStart p s = _
  simp only [execDeadlockRecoveryStart, h, Option.isSome_some, Bool.true_or, if_true]
/-- A recovery goes on for its least time and while a head is blocked. -/
theorem exec_deadlockRecoveryEnd_of_blocked {e : Nat} (h : tfind s.recovery p.toNat = some e)
    (hb : s.clock < e + 1900 ∨ s.headBlocked (dieOf p.toNat) 1900 = true) : exec (.deadlockRecoveryEnd p) s = .next s := by
  change execDeadlockRecoveryEnd p s = _
  simp only [execDeadlockRecoveryEnd, h]
  exact congrArg _ (if_pos (by simpa using hb))
/-- Its end is logged. -/
theorem exec_deadlockRecoveryEnd_of_free {e : Nat} (h : tfind s.recovery p.toNat = some e) (he : e + 1900 ≤ s.clock)
    (hb : s.headBlocked (dieOf p.toNat) 1900 = false) : ∃ log logLost logRead sent, exec (.deadlockRecoveryEnd p) s =
      .next { s with recovery := tdel s.recovery p.toNat, log, logSeq := s.logSeq + 1, logLost, logRead, sent } := by
  have hnot : (decide (s.clock < e + 1900) || s.headBlocked (dieOf p.toNat) 1900) = false := by simp [hb, he]
  have hexec : exec (.deadlockRecoveryEnd p) s = .next ({ s with recovery := tdel s.recovery p.toNat }.logAt e 0x06 p.toNat (s.clock - e)) := by
    change execDeadlockRecoveryEnd p s = _
    simp only [execDeadlockRecoveryEnd, h, hnot, Bool.false_eq_true, if_false]
  obtain ⟨_, _, _, _, hlog⟩ := State.logAt_eq { s with recovery := tdel s.recovery p.toNat } e 0x06 p.toNat (s.clock - e)
  rw [hexec, hlog]
  exact ⟨_, _, _, _, rfl⟩

end

/-- A write in the partition registers. -/
theorem exec_controlRegisterWrite_of_partition {s : State} {pa : BitVec 48} {v : Word} (h : partBase ≤ pa.toNat / 8 * 8)
    (h' : pa.toNat / 8 * 8 < partBase + 0x400) :
    let n := (pa.toNat / 8 * 8 - partBase) / 0x80
    let p := partWrite (s.nextPartition n) ((pa.toNat / 8 * 8 - partBase) % 0x80) v
    exec (.controlRegisterWrite pa v) s =
      .next (if (pa.toNat / 8 * 8 - partBase) % 0x80 = 0x60 ∧ s.remapPresent p = false then s else s.setPartition n p) := by
  intro n p
  change execControlRegisterWrite pa v s = _
  unfold execControlRegisterWrite
  rw [if_pos ⟨h, h'⟩]
  refine congrArg Host.Outcome.next (if_congr ?_ rfl rfl)
  simp [n, p]

/-- Settles O54: each event is written out once, with what it leaves. -/
theorem fabricEvents : Obligations.FabricEvents := by
  unfold Obligations.FabricEvents
  refine ⟨fun s => ⟨s.startRebase, rfl, s.startRebase_mem, s.startRebase_rebasing_ne_none, State.startRebase_of_ne_none, State.startRebase_of_none⟩,
    fun s h => exec_rebaseQuiet_of_draining h, fun s hr hp => ?_, fun _ _ => rfl, fun s k wg wl => ⟨fun hr => ?_, fun hr => ?_, ?_⟩, fun s die => ⟨fun hp hr hd => ?_, ?_, ?_⟩,
    fun s p => ⟨exec_deadlockRecoveryStart_of_none, fun e h => ⟨exec_deadlockRecoveryStart_of_some h, exec_deadlockRecoveryEnd_of_blocked h, fun he hb => ?_⟩⟩,
    fun _ _ _ => rfl, fun s pa v h h' => ?_⟩
  · obtain ⟨_, _, _, _, _, _, _, _, _, _, _, _, h⟩ := exec_rebaseReset_eq hr hp
    exact ⟨_, h, rfl, rfl, fun _ => rfl, rfl, rfl, rfl, rfl, rfl, rfl, rfl⟩
  · exact if_pos hr
  · obtain ⟨_, _, _, _, h⟩ := exec_ringHeaterSaturate_eq (wl := wl) hr
    refine ⟨_, h, rfl, rfl, fun hs => ?_, fun hs => ?_⟩
    all_goals simp [hs, nmem_nins, tfind_tset]
  · refine ⟨_, rfl, ?_, rfl⟩
    simp [tfind_tdel]
  · rw [exec_vbusRetrain_of_due hp hr hd]
    refine ⟨fun hdef hnone => ?_, fun hdef hsome => ?_, fun hdef => ?_⟩
    · rw [if_pos hdef, hnone, if_neg (by simp)]
      exact ⟨_, rfl, s.dieAt_modDie die.toNat fun x => { x with deferred := some s.clock }, rfl⟩
    · rw [if_pos hdef, if_pos (Option.isSome_iff_ne_none.2 hsome)]
    · rw [hdef]
      exact ⟨_, rfl, s.startRetrain_dieAt ..⟩
  · intro u hd hr
    refine ⟨exec_vbusRetrainForced_of_early hd, fun hu hw => ?_⟩
    obtain ⟨slots, h⟩ := exec_vbusRetrainForced_of_boundary hd hr hu hw
    exact ⟨_, h, State.startRetrain_dieAt { s with slots } ..⟩
  · intro e hr he
    obtain ⟨slots, h⟩ := exec_vbusRetrainEnd_of_over hr he
    exact ⟨_, h, State.dieAt_modDie { s with slots } .., rfl⟩
  · obtain ⟨_, _, _, _, h⟩ := exec_deadlockRecoveryEnd_of_free h he hb
    exact ⟨_, h, by simp [tfind_tdel], rfl, rfl⟩
  · have hexec := exec_controlRegisterWrite_of_partition (s := s) (v := v) h h'
    intro n off p
    refine ⟨fun hoff hrem => hexec.trans (congrArg _ (if_pos ⟨hoff, hrem⟩)), fun hor => ⟨_, hexec.trans (congrArg _ (if_neg ?_)), ?_⟩⟩
    · rintro ⟨hoff, hrem⟩
      exact hor.elim (· hoff) fun h => Bool.false_ne_true (hrem.symm.trans h)
    · refine ⟨?_, State.startRebase_rebasing_ne_none _, State.setPartition_mem .., ?_⟩
      all_goals
        obtain ⟨_, _, hset⟩ := s.setPartition_eq n p
        rw [show s.nextPartition n = (tfind s.pendingParts n).getD (tget partitionInit s.partitions n) from rfl]
        rw [hset]
      · simp [tfind_tset]

end Sys2Proof.Machine
end

section
/-! PROOF. Reads served at their home (R77, R84, R116, R117, R156, R193, R194). -/

namespace Sys2Proof.Machine

/-- Finding after every entry is changed. -/
theorem tfind_tmap {α : Type} (t : Tab α) (f : Nat → α → α) (k : Nat) : tfind (tmap t f) k = (tfind t k).map (f k) := by
  induction t with
  | nil => rfl
  | cons e t ih =>
    obtain ⟨j, x⟩ := e
    by_cases h : j = k
    · subst h
      simp [tmap, tfind]
    · simpa [tmap, tfind, h] using ih

/-! ## Words read -/

/-- Outside the control registers a word is ABSENT, expired or what lies there. -/
theorem State.loadWord_of_not_listed {s : State} {a : Nat} (p : Nat) (h : ctrlListed a = false) :
    (s.backed a = false → ∃ q, s.loadWord p a = ⟨false, payloadBits 6 q 0⟩) ∧
    (s.backed a = true → s.loadWord p a = if s.expired a then ⟨false, payloadBits 5 (s.homePlot a) 0⟩ else s.mem.word (s.place a)) := by
  simp only [State.loadWord, h, Bool.false_eq_true, if_false]
  refine ⟨fun hb => ⟨_, if_pos (by rw [hb]; rfl)⟩, fun hb => if_neg (by rw [hb]; exact Bool.false_ne_true)⟩

theorem State.getD_loadWords (s : State) (p a : Nat) {n i : Nat} (h : i < n) : (s.loadWords p a n).getD i W32.zero = s.loadWord p (a + 4 * i) := by
  induction n generalizing a i with
  | zero => cases h
  | succ n ih =>
    cases i with
    | zero => rfl
    | succ i =>
      rw [State.loadWords, List.getD_cons_succ, ih _ (Nat.lt_of_succ_lt_succ h), show a + 4 * (i + 1) = a + 4 + 4 * i by omega]

/-! ## A read performed at its home -/

theorem State.ReadsAs.trans {s t u : State} (h : s.ReadsAs t) (h' : t.ReadsAs u) : s.ReadsAs u :=
  ⟨h'.part.trans h.part, h'.partitions.trans h.partitions, h'.insts.trans h.insts, h'.transients.trans h.transients, h'.clock.trans h.clock,
    h'.mem.trans h.mem, fun d => (h'.cways d).trans (h.cways d), fun p => (h'.l1size p).trans (h.l1size p)⟩
theorem State.ReadsAs.readResult {s t : State} (h : s.ReadsAs t) (r : Req) : t.readResult r = s.readResult r := by
  simp only [State.readResult, h.mem, h.place, h.loadWords]

/-- A line that enters an L1 changes no word read from a home. -/
theorem State.allocL1_readsAs (s : State) (p a : Nat) : s.ReadsAs (s.allocL1 p a) := by
  refine ⟨rfl, rfl, rfl, rfl, rfl, rfl, fun _ => rfl, fun q => ?_⟩
  by_cases h : q = p
  · rw [h]
    exact (congrArg Plot.l1size (State.plotAt_modPlot ..)).trans rfl
  · exact congrArg Plot.l1size (State.plotAt_modPlot_ne _ _ h)

/-- A read that its home serves now (R84, R116, R156, R199). -/
structure State.Servable (s : State) (id : Nat) (r : Req) : Prop where
  found : tfind s.reqs id = some r
  issued : r.stage = .issued
  home : r.unit = dieOf r.plot
  notHost : r.unit ≠ 16
  live : r.retained = false ∨ s.expired r.pa.toNat = false
  noLine : s.l1Line r = none
  go : s.mayGo id r false = true
  first : s.firstInStream id r = true
  covered : s.covers r.unit r.stamp 8 = true
  present : s.isRemoved r.unit = false
  settled : s.justWritten r.pa.toNat = false

/-- Raising the stamps of later requests leaves the request itself. -/
theorem State.tfind_raiseStamps_self (s : State) (id : Nat) (r : Req) : tfind (s.raiseStamps id r).reqs id = tfind s.reqs id := by
  have h (x : Req) : (if id < id ∧ x.plot = r.plot ∧ x.slot = r.slot ∧ x.stage = .issued ∧ (r.oc = 7 ∨ x.oc = 7 ∨ x.oc = r.oc)
      then { x with stamp := (s.causalAt (dieOf r.plot)).dv } else x) = x := if_neg fun h => Nat.lt_irrefl _ h.1
  simp only [State.raiseStamps, tfind_tmap, h, Option.map_id']

/-- A response on the reader's own die is served at once. -/
theorem State.tfind_respond {s : State} {r : Req} (id : Nat) (ws : List W32) (h : r.unit = dieOf r.plot) :
    tfind (s.respond id r ws).reqs id = some { r with stage := .served, resp := ws } := by
  unfold State.respond
  simp only [h, decide_true, Bool.true_or, if_true]
  split
  · rw [State.tfind_raiseStamps_self, State.flushL1_reqs, State.setReq, tfind_tset, if_pos rfl]
  · rw [State.setReq, tfind_tset, if_pos rfl]

section
variable {s : State} {id : Nat} {r : Req} (h : s.Servable id r)
include h

/-- It is answered in a state that reads as before. -/
theorem State.Servable.exec_readServe (hop : r.op.pureRead = true) (hf : s.feReady r = true) :
    ∃ t, s.ReadsAs t ∧ exec (.readServe id) s = .next (t.answer id r) := by
  have hexec : exec (.readServe id) s = execReadServe id s := rfl
  have huse := s.sliceUse_readsAs r.pa.toNat r.sig .read
  have hno : (r.stage != .issued || !r.op.pureRead || r.unit == 16) = false := by simp [h.issued, hop, h.notHost]
  rw [hexec, execReadServe]
  simp only [h.found, hno, h.noLine, h.go, h.first, h.covered, h.present, h.settled, hf, Bool.not_true, Bool.or_self, Bool.false_eq_true, if_false]
  refine ⟨_, ?_, rfl⟩
  split
  · split
    · exact huse.trans (State.allocL1_readsAs ..)
    · exact huse
  · split
    · exact huse.trans (State.allocL1_readsAs ..)
    · exact huse
  · exact huse

/-- Its words are those that lie there, and memory is as the read leaves it. -/
theorem State.Servable.answered (hop : r.op.pureRead = true) (hf : s.feReady r = true) :
    ∃ t, exec (.readServe id) s = .next t ∧ (r.op ≠ .ldfe true → t.mem = s.mem) ∧
      (r.op = .ldfe true → t.mem = s.mem.setFe (s.place r.pa.toNat) false) ∧
      ∃ y, tfind t.reqs id = some y ∧ y.stage = .served ∧ y.resp = s.readResult r := by
  obtain ⟨t, ht, hexec⟩ := h.exec_readServe hop hf
  have hexp : t.expiryTrap r = false := by
    rcases h.live with hret | hexp
    · simp [State.expiryTrap, hret]
    · simp [State.expiryTrap, ht.expired, hexp]
  have hans : t.answer id r = (t.readEffect r).respond id r (t.readResult r) := by
    rw [State.answer, hexp]; rfl
  refine ⟨_, hexec, fun hne => ?_, fun heq => ?_, ?_⟩
  · have heff : t.readEffect r = t := by
      cases hr : r.op with
      | ldfe c =>
        cases c with
        | true => exact absurd hr hne
        | false => simp only [State.readEffect, hr]
      | _ => simp_all only [State.readEffect, Op.pureRead, Bool.false_eq_true]
    rw [hans, State.respond_mem, heff, ht.mem]
  · have heff : (t.readEffect r).mem = t.mem.setFe (t.place r.pa.toNat) false := by
      simp only [State.readEffect, heq, State.setFe]
      split <;> rfl
    rw [hans, State.respond_mem, heff, ht.mem, ht.place]
  · rw [hans, State.tfind_respond _ _ h.home, ht.readResult]
    exact ⟨_, rfl, rfl, rfl⟩

/-- An LDFE at an empty granule waits there in its turn. -/
theorem State.Servable.waits {c : Bool} (hop : r.op = .ldfe c) (he : s.mem.fe (s.place r.pa.toNat) = false) :
    ∃ t, exec (.readServe id) s = .next t ∧ t.mem = s.mem ∧ ∃ y, tfind t.reqs id = some y ∧ y.stage = .issued ∧ y.arr ≠ 0 := by
  have hexec : exec (.readServe id) s = execReadServe id s := rfl
  have hno : (r.stage != .issued || !r.op.pureRead || r.unit == 16) = false := by simp [h.issued, hop, h.notHost, Op.pureRead]
  have hf : s.feReady r = false := by simp only [State.feReady, hop, he]
  rw [hexec, execReadServe]
  simp only [h.found, hno, h.noLine, h.go, h.first, h.covered, h.present, h.settled, hf, Bool.not_true, Bool.not_false, Bool.or_self, Bool.false_eq_true,
    if_false, if_true]
  by_cases harr : r.arr = 0
  · rw [if_pos harr]
    refine ⟨_, rfl, rfl, { r with arr := s.nextId + 1 }, ?_, h.issued, Nat.succ_ne_zero _⟩
    simp [State.setReq, tfind_tset]
  · rw [if_neg harr]
    exact ⟨_, rfl, rfl, r, h.found, h.issued, harr⟩

end

/-! ## The value that words make -/

/-- An invalid word passes with its payload. -/
theorem loadVal_of_invalid {ws : List W32} {w : W32} (h : ws.find? (fun w => !w.valid) = some w) (off n : Nat) (sg : Bool) :
    loadVal ws off n sg = ⟨false, w.bits.zeroExtend 64⟩ := by
  simp only [loadVal, h]

/-- One or two words as a 64-bit number. -/
theorem natOfWords_eq_append {ws : List W32} (h : ws.length = 1 ∨ ws.length = 2) :
    natOfWords ws = ((ws.getD 1 ⟨true, 0⟩).bits ++ (ws.getD 0 ⟨true, 0⟩).bits : Word).toNat := by
  have happ (x y : BitVec 32) : (x ++ y : Word).toNat = y.toNat + 2 ^ 32 * x.toNat := by
    rw [BitVec.toNat_append, Nat.shiftLeft_eq, Nat.mul_comm, ← Nat.two_pow_add_eq_or_of_lt y.isLt, Nat.add_comm]
  rcases h with h | h
  · obtain ⟨w, rfl⟩ := List.length_eq_one_iff.1 h
    rw [happ]
    simp [natOfWords]
  · obtain ⟨w, v, rfl⟩ := List.length_eq_two.1 h
    rw [happ]
    simp [natOfWords]

/-- Sign extension by the value's range. -/
theorem signExtend_eq_ite {m : Nat} (hm : 0 < m) (x : BitVec m) :
    x.signExtend 64 = if 2 ^ (m - 1) ≤ x.toNat then BitVec.ofInt 64 ((x.toNat : Int) - 2 ^ m) else BitVec.ofNat 64 x.toNat := by
  obtain ⟨k, rfl⟩ : ∃ k, m = k + 1 := ⟨m - 1, by omega⟩
  have hpow : 2 ^ (k + 1) = 2 * 2 ^ k := by rw [Nat.pow_succ, Nat.mul_comm]
  rw [BitVec.signExtend, BitVec.toInt_eq_toNat_cond, Nat.add_sub_cancel]
  by_cases h : 2 ^ k ≤ x.toNat
  · rw [if_pos h, if_neg (by omega)]
    push_cast
    rfl
  · rw [if_neg h, if_pos (by omega)]
    exact BitVec.ofInt_natCast ..

/-- Valid words make the bytes at an offset, extended. -/
theorem loadVal_of_valid {ws : List W32} (h : ws.find? (fun w => !w.valid) = none) (hl : ws.length = 1 ∨ ws.length = 2) (off : Nat) {n : Nat}
    (hn : 0 < n) (sg : Bool) {x : Word} (hdef : x = ((ws.getD 1 ⟨true, 0⟩).bits ++ (ws.getD 0 ⟨true, 0⟩).bits) >>> (8 * off)) :
    loadVal ws off n sg = .ofWord (if sg then (x.extractLsb' 0 (8 * n)).signExtend 64 else (x.extractLsb' 0 (8 * n)).zeroExtend 64) := by
  have hx : natOfWords ws / 2 ^ (8 * off) % 2 ^ (8 * n) = (x.extractLsb' 0 (8 * n)).toNat := by
    simp [hdef, natOfWords_eq_append hl, Nat.shiftRight_eq_div_pow]
  have hz : (x.extractLsb' 0 (8 * n)).zeroExtend 64 = BitVec.ofNat 64 (x.extractLsb' 0 (8 * n)).toNat := by
    refine BitVec.eq_of_toNat_eq ?_
    simp
  simp only [loadVal, h, hx, hz, signExtend_eq_ite (m := 8 * n) (by omega)]
  cases sg <;> simp

/-! ## A read that completes -/

/-- A read leaves the table and its counter. -/
def State.readEnded (s : State) (id : Nat) (r : Req) : State :=
  { (s.modSlot r.plot r.slot fun x => x.countDown true) with reqs := tdel s.reqs id }
/-- The instruction of a retained read goes on. -/
def State.wentOn (s : State) (r : Req) : State := if r.retained then s.resumeRetained r else s

section
variable {s : State} {id : Nat} {r : Req}

/-- What a read that completes leaves. -/
theorem exec_loadComplete_of_served (hf : tfind s.reqs id = some r) (hr : r.op.reads = true) (hs : r.stage = .served) (hp : s.plotRuns r.plot = true)
    (hq : r.op = .sqld → r.retained = true → ∀ w ∈ r.resp, w.valid = true) :
    exec (.loadComplete id) s = .next (((s.readEnded id r).writeDest id r).wentOn r) := by
  have hexec : exec (.loadComplete id) s = execLoadComplete id s := rfl
  have hfind : (if r.op == .sqld && r.retained then r.resp.find? (!·.valid) else none) = none := by
    split
    · rename_i h
      simp only [Bool.and_eq_true, beq_iff_eq] at h
      simpa using hq h.1 h.2
    · rfl
  rw [hexec, execLoadComplete]
  simp only [hf, hr, hs, hp, hfind, bne_self_eq_false, Bool.not_true, Bool.or_self, Bool.false_eq_true, if_false]
  rfl

/-- SQLD refuses an invalid word. -/
theorem exec_loadComplete_of_invalid {w : W32} (hf : tfind s.reqs id = some r) (hop : r.op = .sqld) (hs : r.stage = .served) (hret : r.retained = true)
    (hp : s.plotRuns r.plot = true) (hw : r.resp.find? (fun w => !w.valid) = some w) :
    exec (.loadComplete id) s = .next (s.dropRetained id r ⟨0x18, (normPayload w.bits).zeroExtend 64, 0⟩) := by
  have hexec : exec (.loadComplete id) s = execLoadComplete id s := rfl
  have hreads : r.op.reads = true := by rw [hop]; rfl
  have hsq : (r.op == .sqld && r.retained) = true := by rw [hop, hret]; rfl
  rw [hexec, execLoadComplete]
  simp only [hf, hreads, hs, hp, hsq, hw, bne_self_eq_false, Bool.not_true, Bool.or_self, Bool.false_eq_true, if_false, if_true]

/-- The slot whose instruction goes on. -/
theorem State.slotAt_resumeRetained (s : State) (r : Req) : ∃ pc loops, (s.resumeRetained r).slotAt r.plot r.slot =
    { s.slotAt r.plot r.slot with wait := none, pc, loops } := by
  have hmod := State.slotAt_modSlot s r.plot r.slot fun x => { x with wait := none }
  generalize hs1 : ({ (s.modSlot r.plot r.slot fun x => { x with wait := none }) with focus := { s.focus with plot := r.plot, slot := r.slot } } : State) = s1
  have hcur : s1.cur = { s.slotAt r.plot r.slot with wait := none } := by
    rw [← hmod, ← hs1]
    rfl
  have hres : (s.resumeRetained r).slotAt r.plot r.slot =
      ((s1.afterReads (List.replicate (r.vec.getD 1 W32.zero).bits.toNat 31)).advance (r.vec.getD 0 W32.zero).bits.toNat).cur := by
    simp only [State.cur, State.advance_focus, State.afterReads_focus]
    rw [← hs1]
    rfl
  rw [hres, State.cur_advance, State.afterReads_cur, hcur]
  exact ⟨_, _, rfl⟩

/-- Going on leaves the registers, the counters and the requests. -/
theorem State.wentOn_spec (s : State) (r : Req) : (s.wentOn r).reqs = s.reqs ∧ (s.wentOn r).mem = s.mem ∧
    ∃ pc loops wait, (s.wentOn r).slotAt r.plot r.slot = { s.slotAt r.plot r.slot with pc, loops, wait } ∧ (r.retained = true → wait = none) := by
  unfold State.wentOn
  split
  · obtain ⟨pc, loops, h⟩ := s.slotAt_resumeRetained r
    refine ⟨?_, s.resumeRetained_mem r, pc, loops, none, h, fun _ => rfl⟩
    simp [State.resumeRetained]
  · rename_i h
    exact ⟨rfl, rfl, _, _, _, rfl, fun hr => absurd hr h⟩

/-- A flit that is sent leaves requests and slots. -/
theorem State.sendLoaded_ok {s t : State} {id p k : Nat} {v : Val} (h : s.sendLoaded id p k v = .ok t) : t.reqs = s.reqs ∧ t.slots = s.slots := by
  unfold State.sendLoaded at h
  split at h
  · cases h
  · cases h
    exact ⟨rfl, rfl⟩

/-- Writing a destination leaves the requests and the load counter. -/
theorem State.writeDest_spec (s : State) (id : Nat) (r : Req) :
    (s.writeDest id r).reqs = s.reqs ∧ ((s.writeDest id r).slotAt r.plot r.slot).cntld = (s.slotAt r.plot r.slot).cntld := by
  unfold State.writeDest
  dsimp only
  split
  · exact ⟨rfl, rfl⟩
  · exact ⟨rfl, by rw [State.slotAt_modSlot]; rfl⟩
  · exact ⟨rfl, by rw [State.slotAt_modSlot]; rfl⟩
  · split
    · exact ⟨rfl, rfl⟩
    · split
      · split
        · rename_i hok
          obtain ⟨hreqs, hslots⟩ := State.sendLoaded_ok hok
          exact ⟨hreqs, by rw [State.slotAt, hslots]; rfl⟩
        · exact ⟨rfl, by rw [State.pendTrap, State.slotAt_modSlot]⟩
      · exact ⟨rfl, by rw [State.slotAt_modSlot]; rfl⟩

/-- The slot after a read left the table. -/
theorem State.slotAt_readEnded (s : State) (id : Nat) (r : Req) : (s.readEnded id r).slotAt r.plot r.slot = (s.slotAt r.plot r.slot).countDown true :=
  State.slotAt_modSlot s r.plot r.slot fun x => x.countDown true

/-- A completed read has left the table and lowered CNTLD; memory is as before (R180). -/
theorem State.completed_frame (s : State) (id : Nat) (r : Req) :
    let t := ((s.readEnded id r).writeDest id r).wentOn r
    tfind t.reqs id = none ∧ t.mem = s.mem ∧
      ((s.slotAt r.plot r.slot).cntld ≠ 0 → (t.slotAt r.plot r.slot).cntld = (s.slotAt r.plot r.slot).cntld - 1) ∧
      (r.retained = true → (t.slotAt r.plot r.slot).wait = none) := by
  obtain ⟨hreqs, hcnt⟩ := (s.readEnded id r).writeDest_spec id r
  obtain ⟨hreqs', hmem', pc, loops, wait, hslot, hwait⟩ := ((s.readEnded id r).writeDest id r).wentOn_spec r
  refine ⟨?_, ?_, fun h => ?_, fun h => ?_⟩
  · rw [hreqs', hreqs]
    exact (tfind_tdel ..).trans (if_pos rfl)
  · rw [hmem', State.writeDest_mem]
    rfl
  · rw [hslot]
    refine hcnt.trans ?_
    rw [State.slotAt_readEnded]
    exact if_neg h
  · rw [hslot]
    exact hwait h

/-- The slot of a read that completes holds what its destination was given. -/
theorem State.slotAt_completed (s : State) (id : Nat) (r : Req) : ∃ pc loops wait,
    (((s.readEnded id r).writeDest id r).wentOn r).slotAt r.plot r.slot = { ((s.readEnded id r).writeDest id r).slotAt r.plot r.slot with pc, loops, wait } := by
  obtain ⟨-, -, pc, loops, wait, h, -⟩ := ((s.readEnded id r).writeDest id r).wentOn_spec r
  exact ⟨pc, loops, wait, h⟩

/-- A g register that takes data (R180). -/
theorem State.gReg_completed (s : State) (id : Nat) {d : GReg} (hd : r.dest = .g d) (h0 : d ≠ 0) (h30 : d ≠ 30) (h31 : d ≠ 31) :
    ((((s.readEnded id r).writeDest id r).wentOn r).slotAt r.plot r.slot).gReg r.plot d = (r.result r.plot).1 := by
  obtain ⟨pc, loops, wait, h⟩ := s.slotAt_completed id r
  have hw : ((s.readEnded id r).writeDest id r).slotAt r.plot r.slot = ((s.readEnded id r).slotAt r.plot r.slot).putG d (r.result r.plot).1 := by
    have hno : ¬(d = 0 ∨ d = 31) := by tauto
    simp only [State.writeDest, hd, if_neg hno, if_neg h30, State.slotAt_modSlot]
  rw [h]
  exact (congrArg (fun x : Slot => x.gReg r.plot d) hw).trans (Slot.gReg_putG _ _ _ _ h0 h30)

/-- g0 and g31 take nothing. -/
theorem State.gReg_completed_of_none (s : State) (id : Nat) {d : GReg} (hd : r.dest = .g d) (h : d = 0 ∨ d = 31) (n : GReg) :
    ((((s.readEnded id r).writeDest id r).wentOn r).slotAt r.plot r.slot).gReg r.plot n = (s.slotAt r.plot r.slot).gReg r.plot n := by
  obtain ⟨pc, loops, wait, hslot⟩ := s.slotAt_completed id r
  have hw : ((s.readEnded id r).writeDest id r).slotAt r.plot r.slot = (s.slotAt r.plot r.slot).countDown true := by
    simp only [State.writeDest, hd, if_pos h, State.slotAt_readEnded]
  rw [hslot]
  exact (congrArg (fun x : Slot => x.gReg r.plot n) hw).trans rfl

/-- g30 sends the value. -/
theorem State.writeDest_of_flit {u : State} (hd : r.dest = .g 30) (h : s.sendLoaded id r.plot r.slot (r.result r.plot).1 = .ok u) : s.writeDest id r = u := by
  have hno : ¬((30 : GReg) = 0 ∨ (30 : GReg) = 31) := by decide
  simp only [State.writeDest, hd, if_neg hno, if_true, h]

/-- A v register that takes data. -/
theorem State.vReg_completed (s : State) (id : Nat) {d : VNum} (hd : r.dest = .v d) :
    ((((s.readEnded id r).writeDest id r).wentOn r).slotAt r.plot r.slot).vReg r.plot d = (r.result r.plot).2.1 := by
  obtain ⟨pc, loops, wait, h⟩ := s.slotAt_completed id r
  have hw : ((s.readEnded id r).writeDest id r).slotAt r.plot r.slot = ((s.readEnded id r).slotAt r.plot r.slot).putV d (r.result r.plot).2.1 := by
    simp only [State.writeDest, hd, State.slotAt_modSlot]
  rw [h]
  exact (congrArg (fun x : Slot => x.vReg r.plot d) hw).trans (tget_tset_self ..)

/-- A q register that takes data. -/
theorem State.qReg_completed (s : State) (id : Nat) {q : QNum} (hd : r.dest = .q q) :
    ((((s.readEnded id r).writeDest id r).wentOn r).slotAt r.plot r.slot).qReg q = (r.result r.plot).2.2 := by
  obtain ⟨pc, loops, wait, h⟩ := s.slotAt_completed id r
  have hw : (((s.readEnded id r).writeDest id r).slotAt r.plot r.slot).q = tset ((s.readEnded id r).slotAt r.plot r.slot).q q.toNat (r.result r.plot).2.2 := by
    simp only [State.writeDest, hd, State.slotAt_modSlot]
    rfl
  rw [h]
  exact (congrArg (fun t => tget 0 t q.toNat) hw).trans (tget_tset_self ..)

/-! ## The registers that words make (R182, R188, R190, R196) -/

/-- The register value of a read's answer, by the bytes at an offset (R188, R72). -/
def Req.bytes (r : Req) (off n : Nat) (sg : Bool) : Val :=
  match r.resp.find? (fun w => !w.valid) with
  | some w => ⟨false, w.bits.zeroExtend 64⟩
  | none =>
    let x : Word := ((r.resp.getD 1 ⟨true, 0⟩).bits ++ (r.resp.getD 0 ⟨true, 0⟩).bits) >>> (8 * off)
    .ofWord (if sg then (x.extractLsb' 0 (8 * n)).signExtend 64 else (x.extractLsb' 0 (8 * n)).zeroExtend 64)

theorem Req.loadVal_resp (r : Req) (hl : r.resp.length = 1 ∨ r.resp.length = 2) (off : Nat) {n : Nat} (hn : 0 < n) (sg : Bool) :
    loadVal r.resp off n sg = r.bytes off n sg := by
  unfold Req.bytes
  split
  · rename_i h
    exact loadVal_of_invalid h ..
  · rename_i h
    exact loadVal_of_valid h hl off hn sg rfl

theorem Req.result_of_ld {n : Nat} {sg : Bool} (hop : r.op = .ld n sg)
    (hl : n = 8 ∧ r.resp.length = 2 ∨ (n = 1 ∨ n = 2 ∨ n = 4) ∧ r.resp.length = 1) :
    (r.result r.plot).1 = r.bytes (if n < 4 then r.pa.toNat % 4 else 0) n sg := by
  simp only [Req.result, hop]
  exact r.loadVal_resp (by tauto) _ (by omega) sg

theorem Req.result_of_amo {k : BitVec 4} {w : Bool} (hop : r.op = .amo k w) (hl : r.resp.length = (if w then 2 else 1)) :
    (r.result r.plot).1 = r.bytes 0 (if w then 8 else 4) (k ∉ [(3 : BitVec 4), 4, 10, 11]) := by
  have hsg : (!(k == 3 || k == 4 || k == 10 || k == 11)) = decide (k ∉ [(3 : BitVec 4), 4, 10, 11]) := by
    simp [Bool.and_assoc, Bool.beq_eq_decide_eq]
  simp only [Req.result, hop]
  rw [← hsg]
  cases w with
  | true => exact r.loadVal_resp (.inr hl) _ (by decide) _
  | false => exact r.loadVal_resp (.inl hl) _ (by decide) _

theorem Req.result_of_granule (hop : r.op = .feq ∨ r.op = .ldfe false ∨ r.op = .ldfe true) (hl : r.resp.length = 2) :
    (r.result r.plot).1 = r.bytes 0 8 false := by
  rcases hop with hop | hop | hop <;>
  · simp only [Req.result, hop]
    exact r.loadVal_resp (.inr hl) _ (by decide) _

/-- A word of an LDV in its lane: a malformed LG6 word is FORMAT (R190). -/
theorem Req.result_of_ldv {f : BitVec 4} (hop : r.op = .ldv f) : (r.result r.plot).2.1.tag = f.zeroExtend 16 ∧
    ∀ m, m < 16 → let w := r.resp.getD m W32.zero
      ((r.result r.plot).2.1.ok.getLsbD m, (r.result r.plot).2.1.bits.extractLsb' (32 * m) 32) =
        if f = 11 ∧ w.valid = true ∧ w.bits.extractLsb' 30 2 ≠ 0 then (false, payloadBits 7 r.plot 0) else (w.valid, w.bits) := by
  let g (w : W32) : W32 := if f == 11 && w.valid && w.bits.extractLsb' 30 2 != 0 then ⟨false, payloadBits 7 r.plot 0⟩ else w
  have hres : (r.result r.plot).2.1 = vregOf (f.zeroExtend 16) (r.resp.map g) := by simp only [Req.result, hop]; rfl
  have hg0 : g W32.zero = W32.zero := by
    refine if_neg ?_
    simp [W32.zero]
  rw [hres]
  refine ⟨rfl, fun m hm => ?_⟩
  have hget : (r.resp.map g).getD m W32.zero = g (r.resp.getD m W32.zero) := by
    rw [← hg0, List.getD_map, hg0]
  rw [vregOf_ok _ _ hm, vregOf_word _ _ hm, hget]
  simp only [g, Bool.and_eq_true, beq_iff_eq, bne_iff_ne, and_assoc]
  split <;> rfl

/-- A word of a q register. -/
theorem Req.result_q {j : Nat} (hj : j < 4) : (r.result r.plot).2.2.extractLsb' (32 * j) 32 = (r.resp.getD j W32.zero).bits := by
  have hq : (r.result r.plot).2.2 = (r.resp.getD 3 W32.zero).bits ++ (r.resp.getD 2 W32.zero).bits ++ (r.resp.getD 1 W32.zero).bits ++ (r.resp.getD 0 W32.zero).bits := by
    unfold Req.result
    split <;> rfl
  have hlanes (a b c d : BitVec 32) : ((d ++ c ++ b ++ a : BitVec 128).extractLsb' (32 * j) 32) = [a, b, c, d].getD j 0 := by
    refine BitVec.eq_of_getLsbD_eq fun i hi => ?_
    obtain rfl | rfl | rfl | rfl : j = 0 ∨ j = 1 ∨ j = 2 ∨ j = 3 := by omega
    all_goals simp [hi]
  rw [hq, hlanes]
  obtain rfl | rfl | rfl | rfl : j = 0 ∨ j = 1 ∨ j = 2 ∨ j = 3 := by omega
  all_goals rfl

end

/-! ## A read's answer from another die (R116, R117) -/

/-- A merge leaves no entry of a vector smaller. -/
theorem serialLe_serialMax (a b : BitVec 10) : serialLe a (serialMax a b) = true := by
  unfold serialMax
  split
  · assumption
  · simp [serialLe]

theorem State.serialLe_mergeDv (s : State) (d : Nat) (st : List (BitVec 10)) {j : Nat} (hj : j < 8) :
    serialLe (vecAt (s.causalAt d).dv j) (vecAt ((s.mergeDv d st).causalAt d).dv j) = true := by
  have hget : vecAt ((s.mergeDv d st).causalAt d).dv j = serialMax (vecAt (s.causalAt d).dv j) (serialMax (vecAt st j) (s.cvOf d j)) := by
    rw [State.mergeDv, State.causalAt_modCausal]
    simp [vecAt, hj]
  rw [hget]
  exact serialLe_serialMax ..

/-- The answer of another die reaches the reader. -/
theorem exec_readResponseMerge_of_answering {s : State} {id : Nat} {r : Req} {st : List (BitVec 10)} (hf : tfind s.reqs id = some r)
    (hs : r.stage = .answering st) (hp : s.plotRuns r.plot = true) :
    ∃ t, exec (.readResponseMerge id) s = .next t ∧ (t.plotAt r.plot).l1 = [] ∧ t.mem = s.mem ∧
      t.causal = (s.mergeDv (dieOf r.plot) st).causal ∧ tfind t.reqs id = some { r with stage := .served } := by
  have hexec : exec (.readResponseMerge id) s = execReadResponseMerge id s := rfl
  have hl1 : (((s.mergeDv (dieOf r.plot) st).flushL1 r.plot).plotAt r.plot).l1 = [] := congrArg Plot.l1 (State.plotAt_modPlot ..)
  rw [hexec, execReadResponseMerge]
  simp only [hf, hs, hp, Bool.not_true, Bool.false_eq_true, if_false]
  split
  · refine ⟨_, rfl, hl1, rfl, rfl, ?_⟩
    rw [State.tfind_raiseStamps_self]
    exact (tfind_tset ..).trans (if_pos rfl)
  · exact ⟨_, rfl, hl1, rfl, rfl, (tfind_tset ..).trans (if_pos rfl)⟩

/-- A halted or saved context receives nothing (R98). -/
theorem exec_of_not_plotRuns {s : State} {id : Nat} {r : Req} (hf : tfind s.reqs id = some r) (hp : s.plotRuns r.plot = false) :
    exec (.loadComplete id) s = .next s ∧ exec (.readResponseMerge id) s = .next s := by
  have hl : exec (.loadComplete id) s = execLoadComplete id s := rfl
  have hm : exec (.readResponseMerge id) s = execReadResponseMerge id s := rfl
  rw [hl, hm, execLoadComplete, execReadResponseMerge]
  simp only [hf, hp, Bool.not_false, Bool.or_true, if_true]
  refine ⟨trivial, ?_⟩
  split <;> rfl

/-- Settles O33: a read served at its home is answered with the words there, and its completion writes what those words make. -/
theorem readsAreServed : Obligations.ReadsAreServed := by
  unfold Obligations.ReadsAreServed
  refine ⟨fun s p a => State.loadWord_of_not_listed p, fun s p a n i hi => s.getD_loadWords p a hi, ?_, ?_,
    fun s id r q w hf hop hs hret hp _ hw => exec_loadComplete_of_invalid hf hop hs hret hp hw, ?_,
    fun s id r hf hp => exec_of_not_plotRuns hf hp⟩
  · intro s id r hf hs hu hh hl h1 hg hfi hc hr hj
    have h : s.Servable id r := ⟨hf, hs, hu, hh, hl, h1, hg, hfi, hc, hr, hj⟩
    have plain (ws : List W32) (hop : r.op.pureRead = true) (hready : s.feReady r = true) (hne : r.op ≠ .ldfe true) (hres : s.readResult r = ws) :
        ∃ t, exec (.readServe id) s = .next t ∧ t.mem = s.mem ∧ ∃ y, tfind t.reqs id = some y ∧ y.stage = .served ∧ y.resp = ws := by
      obtain ⟨t, hexec, hmem, -, y, hy, hst, hresp⟩ := h.answered hop hready
      exact ⟨t, hexec, hmem hne, y, hy, hst, hresp.trans hres⟩
    refine ⟨fun n sg hop => ?_, fun f hop => ?_, fun hop => ?_, fun hop => ?_, fun hfull => ⟨fun hop => ?_, fun hop => ?_⟩, fun hempty c hop => h.waits hop hempty⟩
    · exact plain _ (by rw [hop]; rfl) (by simp only [State.feReady, hop]) (by rw [hop]; simp) (by simp only [State.readResult, Req.readSpan, hop]; rfl)
    · exact plain _ (by rw [hop]; rfl) (by simp only [State.feReady, hop]) (by rw [hop]; simp) (by simp only [State.readResult, Req.readSpan, hop])
    · exact plain _ (by rw [hop]; rfl) (by simp only [State.feReady, hop]) (by rw [hop]; simp) (by simp only [State.readResult, Req.readSpan, hop])
    · exact plain _ (by rw [hop]; rfl) (by simp only [State.feReady, hop]) (by rw [hop]; simp) (by simp only [State.readResult, hop]; rfl)
    · exact plain _ (by rw [hop]; rfl) (by simp only [State.feReady, hop, hfull]) (by rw [hop]; simp) (by simp only [State.readResult, Req.readSpan, hop])
    · obtain ⟨t, hexec, -, hmem, y, hy, hst, hresp⟩ := h.answered (by rw [hop]; rfl) (by simp only [State.feReady, hop, hfull])
      exact ⟨t, hexec, hmem hop, y, hy, hst, hresp.trans (by simp only [State.readResult, Req.readSpan, hop])⟩
  · intro s id r hf hr hs hp hq bytes off v hld hamo hgran hform
    obtain ⟨hfind, hmem, hcnt, hwait⟩ := s.completed_frame id r
    have hval : (∃ f, r.op = .ldv f) ∨ r.op = .sqld ∨ (r.result r.plot).1 = v := by
      rcases hform with ⟨n, sg, hop, hl⟩ | ⟨k, w, hop, hl⟩ | ⟨hop, hl⟩ | ⟨f, hop, -⟩ | ⟨hop, -⟩
      · exact .inr (.inr ((Req.result_of_ld hop hl).trans (hld n sg hop hl).symm))
      · exact .inr (.inr ((Req.result_of_amo hop hl).trans (hamo k w hop hl).symm))
      · exact .inr (.inr ((Req.result_of_granule hop hl).trans (hgran hop hl).symm))
      · exact .inl ⟨f, hop⟩
      · exact .inr (.inl hop)
    refine ⟨_, exec_loadComplete_of_served hf hr hs hp hq, hfind, hmem, hcnt, hwait, fun d hd => ⟨fun h0 h30 h31 => ?_, fun h n => ?_, ?_⟩,
      fun f d hop hd => ?_, fun q hop hd j hj => ?_⟩
    · rw [s.gReg_completed id hd h0 h30 h31]
      exact hval
    · exact s.gReg_completed_of_none id hd h n
    · rintro rfl hldv hsq u hu
      rcases hval with ⟨f, hop⟩ | hop | rfl
      · exact absurd hop (hldv f)
      · exact absurd hop hsq
      · rw [State.writeDest_of_flit (s := s.readEnded id r) hd hu]
        rfl
    · rw [s.vReg_completed id hd]
      exact Req.result_of_ldv hop
    · rw [s.qReg_completed id hd]
      exact Req.result_q hj
  · intro s id r st hf hs hp
    obtain ⟨t, hexec, hl1, hmem, hcausal, hfind⟩ := exec_readResponseMerge_of_answering hf hs hp
    refine ⟨t, hexec, hl1, hmem, fun j hj => ?_, _, hfind, rfl, rfl⟩
    have hc : t.causalAt (dieOf r.plot) = (s.mergeDv (dieOf r.plot) st).causalAt (dieOf r.plot) := by rw [State.causalAt, hcausal]; rfl
    rw [hc]
    exact s.serialLe_mergeDv _ st hj

end Sys2Proof.Machine
end

section
/-! PROOF. A firmware command that begins, goes on or is refused (R414, R417). -/

namespace Sys2Proof.Machine

/-! ## A command's entry -/

theorem State.modCmd_of_tfind {s : State} {id : Nat} {c : Cmd} (h : tfind s.cmds id = some c) (f : Cmd → Cmd) :
    s.modCmd id f = { s with cmds := tset s.cmds id (f c) } := by
  simp only [State.modCmd, h]
theorem State.tfind_modCmd {s : State} {id : Nat} {c : Cmd} (h : tfind s.cmds id = some c) (f : Cmd → Cmd) :
    tfind (s.modCmd id f).cmds id = some (f c) := by
  rw [State.modCmd_of_tfind h]
  exact (tfind_tset ..).trans (if_pos rfl)

/-! ## Its turn -/

/-- The command of the focus has begun. -/
def State.cmdServed (s : State) (c : Cmd) : State := { s with cmds := tset s.cmds s.focus.cmd { c with served := true } }
theorem State.tfind_cmdServed (s : State) (c : Cmd) : tfind (s.cmdServed c).cmds s.focus.cmd = some { c with served := true } :=
  (tfind_tset ..).trans (if_pos rfl)

section
variable {check : Cmd → State → Option (BitVec 8)} {run : Nat → Cmd → State → State} {s : State} {c : Cmd}

theorem command_of_none (h : s.cmdTurn c) (hc : check c s = none) :
    command check run s = .next (run s.focus.cmd { c with served := true } (s.cmdServed c)) := by
  obtain ⟨hf, hr, hs, ht⟩ := h
  have hgo : (c.ready || !s.serving s.focus.cmd) = false := by rw [hr, ht]; rfl
  simp only [command, hf, hgo, hs, hc, State.modCmd_of_tfind hf, Bool.false_eq_true, if_false]
  rfl
theorem command_of_some {cause : BitVec 8} (h : s.cmdTurn c) (hc : check c s = some cause) : ∃ t, command check run s = .next t ∧ t.mem = s.mem ∧ t.slots = s.slots ∧
    tfind t.cmds s.focus.cmd = some { c with ready := true, status := 1, cause, releases := [] } := by
  obtain ⟨hf, hr, hs, ht⟩ := h
  refine ⟨s.cmdRefuse s.focus.cmd cause, ?_, by simp, ?_, State.tfind_modCmd hf _⟩
  · simp only [command, hf, hr, hs, ht, hc, Bool.not_true, Bool.or_self, Bool.false_eq_true, if_false]
  · rw [State.cmdRefuse, State.modCmd_of_tfind hf]
theorem command_of_served (hf : tfind s.cmds s.focus.cmd = some c) (hs : c.served = true) (hr : c.ready = false) (ht : s.serving s.focus.cmd = true) :
    command check run s = .next (run s.focus.cmd c s) := by
  simp only [command, hf, hr, hs, ht, Bool.not_true, Bool.or_self, Bool.false_eq_true, if_false, if_true]

end

section
variable {s u : State} {c : Cmd} (h : u.cmds = (s.cmdServed c).cmds)
include h

/-- What is done without touching a command leaves it to go on as `f` says. -/
theorem State.modCmd_served (f : Cmd → Cmd) :
    ∃ cmds, u.modCmd s.focus.cmd f = { u with cmds } ∧ tfind cmds s.focus.cmd = some (f { c with served := true }) :=
  ⟨_, State.modCmd_of_tfind (h ▸ s.tfind_cmdServed c) f, (tfind_tset ..).trans (if_pos rfl)⟩
/-- Or ends it as its record says. -/
theorem State.cmdDone_served (f : Cmd → Cmd) :
    ∃ cmds, u.cmdDone s.focus.cmd f = { u with cmds } ∧ tfind cmds s.focus.cmd = some { f { c with served := true } with ready := true } :=
  State.modCmd_served h _

end

theorem refuseIf_eq_none {b : Bool} : refuseIf b = none ↔ b = false := by cases b <;> simp [refuseIf]

/-- Quadwords to a session's memory (R326, R416). -/
theorem State.hostQuads_eq (s : State) (sess off : Nat) (l : List Word) : ∃ sessions hostAcks, s.hostQuads sess off l =
    (s.nextId, { s with nextId := s.nextId + 1, sessions, hostAcks }) ∧
    ∀ x, tfind s.sessions sess = some x → tfind sessions sess = some (hostPut x off (l.flatMap quadBytes)) := by
  unfold State.hostQuads
  split
  · rename_i h
    exact ⟨_, _, rfl, fun x hx => nomatch h.symm.trans hx⟩
  · rename_i y h
    refine ⟨_, _, rfl, fun x hx => ?_⟩
    obtain rfl : y = x := Option.some.inj (h.symm.trans hx)
    exact (tfind_tset ..).trans (if_pos rfl)

end Sys2Proof.Machine
end

section
/-! PROOF. Commands on pennants (R163, R174, R414, R416). -/

namespace Sys2Proof.Machine

/-! ## What the directory's operations change -/

theorem State.modPennant_eq (s : State) (k : Nat) (f : Pennant → Pennant) : ∃ pennants, s.modPennant k f = { s with pennants } ∧
    ∀ p, tfind s.pennants k = some p → tfind pennants k = some (f p) := by
  unfold State.modPennant
  split
  · rename_i q h
    refine ⟨_, rfl, fun p hp => ?_⟩
    obtain rfl : q = p := Option.some.inj (h.symm.trans hp)
    exact (tfind_tset ..).trans (if_pos rfl)
  · rename_i h
    exact ⟨_, rfl, fun p hp => nomatch h.symm.trans hp⟩
/-- A range made invalid is a change of memory alone. -/
theorem State.blankRange_eq (s : State) (p : Pennant) : ∃ mem, s.blankRange p false = { s with mem } :=
  List.foldlRecOn (motive := fun t => ∃ mem, t = { s with mem }) p.plots _ ⟨_, rfl⟩ fun _ ⟨_, h⟩ _ _ => ⟨_, by rw [h]; rfl⟩
/-- A pennant dropped is gone, with its backing's use (R160). -/
theorem State.dropPennant_eq {s : State} {k : Nat} : ∃ mem dies pennants, s.dropPennant k = { s with mem, dies, pennants } ∧
    ∀ p, tfind s.pennants k = some p → tfind pennants k = none := by
  unfold State.dropPennant
  split
  · rename_i h
    exact ⟨_, _, _, rfl, fun p hp => nomatch h.symm.trans hp⟩
  · rename_i q _
    have hgone (p : Pennant) (_ : tfind s.pennants k = some p) : tfind (tdel s.pennants k) k = none := (tfind_tdel ..).trans (if_pos rfl)
    obtain ⟨_, hb⟩ := s.blankRange_eq q
    dsimp only
    rw [hb]
    split
    · exact ⟨_, _, _, rfl, hgone⟩
    · exact ⟨_, _, _, rfl, hgone⟩
/-- A move's stamps change causal vectors alone. -/
theorem State.moveStamp_eq (s : State) (p : Pennant) (src dst : Nat) : ∃ causal, s.moveStamp p src dst = { s with causal } := by
  unfold State.moveStamp
  dsimp only
  split <;> split <;> exact ⟨_, rfl⟩
/-- An eviction that begins is logged; the pennant is being evicted for its mover (R163). -/
theorem State.evictLogged_eq {s : State} {k : Nat} {p : Pennant} (h : tfind s.pennants k = some p) (case : Nat) (mover : Option Nat) :
    ∃ mem causal log logLost logRead sent, s.evictLogged k case mover =
      { s with mem, causal, log, logSeq := s.logSeq + 1, logLost, logRead, sent,
               pennants := tset s.pennants k { p with state := .evicting, mover, moved := 0, idleFrom := none } } := by
  simp only [State.evictLogged, State.beginEvict, h]
  obtain ⟨_, hstamp⟩ := State.moveStamp_eq _ p (dieOf p.origin) p.backDie
  rw [hstamp]
  obtain ⟨_, _, _, _, hlog⟩ := State.logRec_eq _ 0x0D p.name.toNat case
  rw [hlog]
  exact ⟨_, _, _, _, _, _, rfl⟩

/-! ## PN_ADMIN -/

section
variable {s : State} {c : Cmd} {name : Word} {k : Nat} {p : Pennant} (h : s.cmdTurn c) (hv : s.visible (some c.sess) name = some (k, p))
include h hv

theorem exec_pnAdminDrop_of_visible : exec (.pnAdminDrop name) s = .next (
    let u := s.cmdServed c
    let who := pnCmdWaiter s.focus.cmd
    if p.attachers != [] then (u.leavePennant k who).pnDone s.focus.cmd 6 else if p.mustWait who then u.joinPennant k who
    else (u.dropPennant k).pnDone s.focus.cmd 0) := by
  have hv' : (s.cmdServed c).visible (some c.sess) name = some (k, p) := hv
  have hexec : exec (.pnAdminDrop name) s = execPnAdminDrop name s := rfl
  rw [hexec, execPnAdminDrop, command_of_none h (refuseIf_eq_none.2 (by rw [hv]; rfl))]
  simp only [hv']
theorem exec_pnAdminEvict_of_visible (hm : p.mover ≠ some (pnCmdWaiter s.focus.cmd)) : exec (.pnAdminEvict name) s = .next (
    let u := s.cmdServed c
    let who := pnCmdWaiter s.focus.cmd
    if p.state == .evicted then (u.leavePennant k who).pnDone s.focus.cmd 0 else if !s.evictable p then (u.leavePennant k who).pnDone s.focus.cmd 6
    else if p.mustWait who then u.joinPennant k who else if (s.moveRemoved p p.origin).isSome then (u.leavePennant k who).pnDone s.focus.cmd 4
    else if s.moveHeld p true then u.joinPennant k who else (u.leavePennant k who).evictLogged k 2 (some who)) := by
  have hv' : (s.cmdServed c).visible (some c.sess) name = some (k, p) := hv
  have hm' : (p.mover == some (pnCmdWaiter s.focus.cmd)) = false := by simpa using hm
  have hexec : exec (.pnAdminEvict name) s = execPnAdminEvict name s := rfl
  rw [hexec, execPnAdminEvict, command_of_none h (refuseIf_eq_none.2 (by rw [hv]; rfl))]
  simp only [hv', hm', Bool.false_eq_true, if_false]
  rfl
theorem exec_pnAdminFill_of_visible (hm : p.mover ≠ some (pnCmdWaiter s.focus.cmd)) (o : BitVec 13) : exec (.pnAdminFill name o) s = .next (
    let u := s.cmdServed c
    let who := pnCmdWaiter s.focus.cmd
    if p.state == .resident then (u.leavePennant k who).pnDone s.focus.cmd 0 else if p.mustWait who then u.joinPennant k who
    else if !s.fillOrigin c.sess o || !s.placeOk (s.minePlots o.toNat) o.toNat p.w p.h p.off p.len
        || s.rangeTaken (some k) ((rectPlots o.toNat p.w p.h).getD []) p.off p.len || (s.moveRemoved p o.toNat).isSome then (u.leavePennant k who).pnDone s.focus.cmd 4
    else (u.leavePennant k who).beginFill k (some who) o.toNat) := by
  have hv' : (s.cmdServed c).visible (some c.sess) name = some (k, p) := hv
  have hm' : (p.mover == some (pnCmdWaiter s.focus.cmd)) = false := by simpa using hm
  have hexec : exec (.pnAdminFill name o) s = execPnAdminFill name o s := rfl
  rw [hexec, execPnAdminFill, command_of_none h (refuseIf_eq_none.2 (by rw [hv]; rfl))]
  simp only [hv', hm', Bool.false_eq_true, if_false]
  rfl

end

/-- One that leaves the queue changes it alone. -/
theorem State.leavePennant_eq (s : State) (k who : Nat) : ∃ pennants, s.leavePennant k who = { s with pennants } ∧
    ∀ p, tfind s.pennants k = some p → tfind pennants k = some { p with queue := p.queue.filter (· != who) } := s.modPennant_eq k _

theorem State.pnDone_served {s u : State} {c : Cmd} (h : u.cmds = (s.cmdServed c).cmds) (st : BitVec 8) :
    ∃ cmds, u.pnDone s.focus.cmd st = { u with cmds } ∧ tfind cmds s.focus.cmd = some { c with served := true, ready := true, cause := st } :=
  State.cmdDone_served h fun c => { c with cause := st }

/-- An answer of PN_ADMIN once it waits no more. -/
theorem State.tfind_pnDone_leavePennant (s : State) (c : Cmd) (k who : Nat) (st : BitVec 8) :
    tfind (((s.cmdServed c).leavePennant k who).pnDone s.focus.cmd st).cmds s.focus.cmd = some { c with served := true, ready := true, cause := st } := by
  obtain ⟨_, h, -⟩ := (s.cmdServed c).leavePennant_eq k who
  have hcmds : ((s.cmdServed c).leavePennant k who).cmds = (s.cmdServed c).cmds := by rw [h]
  obtain ⟨_, hdone, hc⟩ := State.pnDone_served hcmds st
  rw [hdone]
  exact hc

section
variable {s : State} {c : Cmd} {name : Word} {k : Nat} {p : Pennant} (h : s.cmdTurn c) (hv : s.visible (some c.sess) name = some (k, p))
include h hv

theorem exec_pnAdminDrop_of_attached (ha : p.attachers ≠ []) :
    ∃ t, exec (.pnAdminDrop name) s = .next t ∧ tfind t.cmds s.focus.cmd = some { c with served := true, ready := true, cause := 6 } := by
  have ha' : (p.attachers != []) = true := by simpa using ha
  rw [exec_pnAdminDrop_of_visible h hv]
  dsimp only
  rw [if_pos ha']
  exact ⟨_, rfl, State.tfind_pnDone_leavePennant ..⟩
theorem exec_pnAdminDrop_of_free (ha : p.attachers = []) (hw : p.mustWait (pnCmdWaiter s.focus.cmd) = false) :
    ∃ t, exec (.pnAdminDrop name) s = .next t ∧ tfind t.cmds s.focus.cmd = some { c with served := true, ready := true, cause := 0 } ∧
      (tfind s.pennants k = some p → tfind t.pennants k = none) := by
  rw [exec_pnAdminDrop_of_visible h hv]
  simp only [ha, hw, bne_self_eq_false, Bool.false_eq_true, if_false]
  obtain ⟨_, _, _, hdrop, hgone⟩ := State.dropPennant_eq (s := s.cmdServed c) (k := k)
  have hcmds : ((s.cmdServed c).dropPennant k).cmds = (s.cmdServed c).cmds := by rw [hdrop]
  obtain ⟨_, hdone, hc⟩ := State.pnDone_served hcmds 0
  rw [hdone]
  exact ⟨_, rfl, hc, fun hp => (congrArg (fun t => tfind (State.pennants t) k) hdrop).trans (hgone p hp)⟩

variable (hm : p.mover ≠ some (pnCmdWaiter s.focus.cmd))
include hm

/-- Nothing is to move: the command answers at once. -/
theorem exec_pnAdminEvict_of_evicted (hs : p.state = .evicted) :
    ∃ t, exec (.pnAdminEvict name) s = .next t ∧ tfind t.cmds s.focus.cmd = some { c with served := true, ready := true, cause := 0 } := by
  rw [exec_pnAdminEvict_of_visible h hv hm]
  dsimp only
  rw [if_pos (by rw [hs]; rfl)]
  exact ⟨_, rfl, State.tfind_pnDone_leavePennant ..⟩
theorem exec_pnAdminFill_of_resident (hs : p.state = .resident) (o : BitVec 13) :
    ∃ t, exec (.pnAdminFill name o) s = .next t ∧ tfind t.cmds s.focus.cmd = some { c with served := true, ready := true, cause := 0 } := by
  rw [exec_pnAdminFill_of_visible h hv hm]
  dsimp only
  rw [if_pos (by rw [hs]; rfl)]
  exact ⟨_, rfl, State.tfind_pnDone_leavePennant ..⟩

/-- A fill at a permitted placement is refused by a removed die and begins otherwise (R174, log 126). -/
theorem exec_pnAdminFill_of_evicted (hs : p.state = .evicted) (hw : p.mustWait (pnCmdWaiter s.focus.cmd) = false) (hp : tfind s.pennants k = some p)
    {o : BitVec 13} (ho : s.fillOrigin c.sess o = true) (hplace : s.placeOk (s.minePlots o.toNat) o.toNat p.w p.h p.off p.len = true)
    (hfree : s.rangeTaken (some k) ((rectPlots o.toNat p.w p.h).getD []) p.off p.len = false) :
    (s.moveRemoved p o.toNat ≠ none →
      ∃ t, exec (.pnAdminFill name o) s = .next t ∧ tfind t.cmds s.focus.cmd = some { c with served := true, ready := true, cause := 4 }) ∧
    (s.moveRemoved p o.toNat = none → ∃ t q, exec (.pnAdminFill name o) s = .next t ∧ tfind t.pennants k = some q ∧ q.state = .filling ∧
      q.origin = o.toNat ∧ q.mover = some (pnCmdWaiter s.focus.cmd)) := by
  have hres : (p.state == .resident) = false := by rw [hs]; rfl
  rw [exec_pnAdminFill_of_visible h hv hm]
  simp only [hres, hw, ho, hplace, hfree, Bool.not_true, Bool.false_or, Bool.false_eq_true, if_false]
  refine ⟨fun hrem => ?_, fun hrem => ?_⟩
  · rw [if_pos (Option.isSome_iff_ne_none.2 hrem)]
    exact ⟨_, rfl, State.tfind_pnDone_leavePennant ..⟩
  · rw [if_neg (by rw [hrem]; exact Bool.false_ne_true)]
    obtain ⟨_, hleave, hfind⟩ := (s.cmdServed c).leavePennant_eq k (pnCmdWaiter s.focus.cmd)
    rw [hleave, State.beginFill]
    obtain ⟨_, hmod, hfind'⟩ := State.modPennant_eq _ k _
    rw [hmod]
    exact ⟨_, _, rfl, hfind' _ (hfind p hp), rfl, rfl, rfl⟩

theorem exec_pnAdminEvict_of_not_evictable (hs : p.state = .resident) (he : s.evictable p = false) :
    ∃ t, exec (.pnAdminEvict name) s = .next t ∧ tfind t.cmds s.focus.cmd = some { c with served := true, ready := true, cause := 6 } := by
  have hev : (p.state == .evicted) = false := by rw [hs]; rfl
  rw [exec_pnAdminEvict_of_visible h hv hm]
  simp only [hev, he, Bool.not_false, Bool.false_eq_true, if_false, if_true]
  exact ⟨_, rfl, State.tfind_pnDone_leavePennant ..⟩
/-- An eviction is refused by a removed die and begins otherwise, logged (R163, R174, log 126). -/
theorem exec_pnAdminEvict_of_evictable (hs : p.state = .resident) (he : s.evictable p = true) (hw : p.mustWait (pnCmdWaiter s.focus.cmd) = false) :
    (s.moveRemoved p p.origin ≠ none →
      ∃ t, exec (.pnAdminEvict name) s = .next t ∧ tfind t.cmds s.focus.cmd = some { c with served := true, ready := true, cause := 4 }) ∧
    (s.moveRemoved p p.origin = none → s.moveHeld p true = false → tfind s.pennants k = some p → ∃ t q, exec (.pnAdminEvict name) s = .next t ∧
      tfind t.pennants k = some q ∧ q.state = .evicting ∧ q.mover = some (pnCmdWaiter s.focus.cmd) ∧ t.logSeq = s.logSeq + 1) := by
  have hev : (p.state == .evicted) = false := by rw [hs]; rfl
  rw [exec_pnAdminEvict_of_visible h hv hm]
  simp only [hev, he, hw, Bool.not_true, Bool.false_eq_true, if_false]
  refine ⟨fun hrem => ?_, fun hrem hheld hp => ?_⟩
  · rw [if_pos (Option.isSome_iff_ne_none.2 hrem)]
    exact ⟨_, rfl, State.tfind_pnDone_leavePennant ..⟩
  · rw [if_neg (by rw [hrem]; exact Bool.false_ne_true), if_neg (by rw [hheld]; exact Bool.false_ne_true)]
    obtain ⟨pennants, hleave, hfind⟩ := (s.cmdServed c).leavePennant_eq k (pnCmdWaiter s.focus.cmd)
    rw [hleave]
    obtain ⟨_, _, _, _, _, _, hevict⟩ :=
      State.evictLogged_eq (s := { s.cmdServed c with pennants }) (hfind p hp) 2 (some (pnCmdWaiter s.focus.cmd))
    rw [hevict]
    exact ⟨_, _, rfl, (tfind_tset ..).trans (if_pos rfl), rfl, rfl, rfl⟩

end

/-- PN_ADMIN list writes the names in view to the session's memory (R416, R417). -/
theorem exec_pnAdminList_of_stage_zero {s : State} {c : Cmd} (h : s.cmdTurn c) {off : BitVec 48} {cap : BitVec 32}
    (hc : checkList off.toNat (8 * min cap.toNat (s.visibleNames c.sess).length) c s = none) (h0 : c.stage = 0) :
    ∃ t, exec (.pnAdminList off cap) s = .next t ∧ t.mem = s.mem ∧ tfind t.cmds s.focus.cmd =
        some { c with served := true, stage := 1, elems := min cap.toNat (s.visibleNames c.sess).length, waits := [s.nextId] } ∧
      ∀ x, tfind s.sessions c.sess = some x → tfind t.sessions c.sess =
        some (hostPut x off.toNat ((((s.visibleNames c.sess).take cap.toNat).map (BitVec.ofNat 64)).flatMap quadBytes)) := by
  have hexec : exec (.pnAdminList off cap) s = execPnAdminList off cap s := rfl
  have hnames : (s.cmdServed c).visibleNames c.sess = s.visibleNames c.sess := rfl
  rw [hexec, execPnAdminList, command_of_none (check := fun c s => checkList off.toNat (8 * min cap.toNat (s.visibleNames c.sess).length) c s) h hc]
  simp only [h0, hnames, if_true]
  obtain ⟨_, _, hquads, hsess⟩ := (s.cmdServed c).hostQuads_eq c.sess off.toNat (((s.visibleNames c.sess).take cap.toNat).map (BitVec.ofNat 64))
  simp only [hquads]
  rw [State.modCmd_of_tfind (by exact s.tfind_cmdServed c), List.length_take]
  exact ⟨_, rfl, rfl, (tfind_tset ..).trans (if_pos rfl), hsess⟩

end Sys2Proof.Machine
end

section
/-! PROOF. Commands on transient regions, translations, partitions, host memory and the log (R83, R86, R401, R416, R424). -/

namespace Sys2Proof.Machine

section
variable {s : State} {c : Cmd} (h : s.cmdTurn c)
include h

/-! ## Transient regions -/

/-- A region declared is expired until it is written (R83, R84). -/
theorem exec_regionDeclare_of_turn {pa : BitVec 48} {life : BitVec 16} (tf : Bool) (hc : checkDeclare pa life c s = none) :
    ∃ t, exec (.regionDeclare pa life tf) s = .next t ∧ tfind t.cmds s.focus.cmd = some { c with served := true, ready := true } ∧ t.mem = s.mem ∧
      tfind t.transients (pa.toNat / 0x200000) = some ⟨s.clock, life.toNat, tf, [], none⟩ := by
  have hexec : exec (.regionDeclare pa life tf) s = execRegionDeclare pa life tf s := rfl
  rw [hexec, execRegionDeclare, command_of_none h hc, State.cmdDone, State.modCmd_of_tfind (by exact s.tfind_cmdServed c)]
  exact ⟨_, rfl, (tfind_tset ..).trans (if_pos rfl), rfl, (tfind_tset ..).trans (if_pos rfl)⟩
/-- A region undeclared ends; memory changes only where it had expired (R86). -/
theorem exec_regionUndeclare_of_turn {pa : BitVec 48} (hpa : pa.toNat < 0x8000000000) :
    ∃ t, exec (.regionUndeclare pa) s = .next t ∧ tfind t.cmds s.focus.cmd = some { c with served := true, ready := true } ∧
      tfind t.transients (pa.toNat / 0x200000) = none ∧
      (∀ x, tfind s.transients (pa.toNat / 0x200000) = some x → s.clock < x.deadline → t.mem = s.mem) := by
  have hexec : exec (.regionUndeclare pa) s = execRegionUndeclare pa s := rfl
  rw [hexec, execRegionUndeclare, command_of_none h (refuseIf_eq_none.2 (decide_eq_false (by omega)))]
  have hregion : tfind (s.cmdServed c).transients (pa.toNat / 0x200000) = tfind s.transients (pa.toNat / 0x200000) := rfl
  have hclock : (s.cmdServed c).clock = s.clock := rfl
  simp only [State.cmdDone, hregion, hclock]
  cases hx : tfind s.transients (pa.toNat / 0x200000) with
  | none =>
    dsimp only
    rw [State.modCmd_of_tfind (by exact s.tfind_cmdServed c)]
    exact ⟨_, rfl, (tfind_tset ..).trans (if_pos rfl), hx, fun _ => nofun⟩
  | some x =>
    have hgone : tfind (tdel s.transients (pa.toNat / 0x200000)) (pa.toNat / 0x200000) = none := (tfind_tdel ..).trans (if_pos rfl)
    dsimp only
    by_cases hexp : x.deadline ≤ s.clock
    · rw [if_pos hexp, State.modCmd_of_tfind (by exact s.tfind_cmdServed c)]
      refine ⟨_, rfl, (tfind_tset ..).trans (if_pos rfl), hgone, fun y hy hlt => ?_⟩
      obtain rfl := Option.some.inj hy
      omega
    · rw [if_neg hexp, State.modCmd_of_tfind (by exact s.tfind_cmdServed c)]
      exact ⟨_, rfl, (tfind_tset ..).trans (if_pos rfl), hgone, fun _ _ _ => rfl⟩

/-! ## Translations -/

/-- A shootdown drops of each plot's translations those that its case does not keep (R401, R414). -/
theorem exec_shootdown_of_turn {inst : BitVec 16} {va : Word} {a : BitVec 12} (ha : s.asidOf inst.toNat = some a) {i : Instr} {keep : Tlb → Bool}
    (hi : (i, keep) ∈ ([(.shootdownAsid inst, fun e => e.glob || e.asid != a), (.shootdownPage inst va, fun e => !e.hits a (vaNat va)),
      (.shootdownAll inst, fun _ => false)] : List (Instr × (Tlb → Bool)))) :
    ∃ t, exec i s = .next t ∧ tfind t.cmds s.focus.cmd = some { c with served := true, ready := true, inst } ∧ t.mem = s.mem ∧
      t.plots = tmap s.plots fun _ p => { p with tlb := p.tlb.filter keep } := by
  have ha' : (s.cmdServed c).asidOf inst.toNat = some a := ha
  have hexec : exec i s = .next (((s.cmdServed c).shoot keep).cmdDone s.focus.cmd fun c => { c with inst }) := by
    simp only [List.mem_cons, Prod.mk.injEq, List.not_mem_nil, or_false] at hi
    rcases hi with ⟨rfl, rfl⟩ | ⟨rfl, rfl⟩ | ⟨rfl, rfl⟩
    · change execShootdownAsid inst s = _
      rw [execShootdownAsid, command_of_none h rfl]
      simp only [ha']
    · change execShootdownPage inst va s = _
      rw [execShootdownPage, command_of_none h rfl]
      simp only [ha']
    · change execShootdownAll inst s = _
      rw [execShootdownAll, command_of_none h rfl]
  rw [hexec, State.cmdDone, State.modCmd_of_tfind (by exact s.tfind_cmdServed c)]
  exact ⟨_, rfl, (tfind_tset ..).trans (if_pos rfl), rfl, rfl⟩

/-! ## Partitions -/

/-- A partition set is pending, and the rebase that applies it begins (R82, R417). -/
theorem exec_partitionSet_of_turn {n : BitVec 3} {val : PartitionVal} (hi : s.insts = []) (hp : s.remapPresent val = true) (h0 : c.stage = 0) :
    ∃ t, exec (.partitionSet n val) s = .next t ∧ tfind t.pendingParts n.toNat = some val ∧ t.rebasing ≠ .none ∧ t.partitions = s.partitions ∧
      tfind t.cmds s.focus.cmd = some { c with served := true, stage := 1 } := by
  have hexec : exec (.partitionSet n val) s = execPartitionSet n val s := rfl
  have hcheck : refuseIf (s.insts != [] || !s.remapPresent val) = none := by rw [hi, hp]; rfl
  rw [hexec, execPartitionSet, command_of_none (check := fun _ s => refuseIf (s.insts != [] || !s.remapPresent val)) h hcheck]
  simp only [h0, if_true]
  have hreb : ((s.cmdServed c).setPartition n.toNat val).rebasing ≠ .none := State.startRebase_rebasing_ne_none _
  obtain ⟨_, _, hset⟩ := (s.cmdServed c).setPartition_eq n.toNat val
  rw [hset] at hreb ⊢
  rw [State.modCmd_of_tfind (by exact s.tfind_cmdServed c)]
  exact ⟨_, rfl, (tfind_tset ..).trans (if_pos rfl), hreb, rfl, (tfind_tset ..).trans (if_pos rfl)⟩

/-! ## The log -/

/-- What LOG_READ writes it marks as read (R424). -/
theorem exec_logRead_of_stage_zero {off : BitVec 48} {cap : BitVec 32} (hc : checkList off.toNat (32 * min cap.toNat (s.logSeq - s.logRead)) c s = none)
    (h0 : c.stage = 0) : ∃ t, exec (.logRead off cap) s = .next t ∧
      t.logRead = s.logRead + min cap.toNat (s.logSeq - s.logRead) ∧ t.logLost = 0 ∧ t.log = s.log ∧ t.mem = s.mem ∧
      tfind t.cmds s.focus.cmd = some { c with served := true, stage := 1, elems := min cap.toNat (s.logSeq - s.logRead), waits := [s.nextId] } := by
  have hexec : exec (.logRead off cap) s = execLogRead off cap s := rfl
  rw [hexec, execLogRead, command_of_none (check := fun c s => checkList off.toNat (32 * min cap.toNat (s.logSeq - s.logRead)) c s) h hc]
  simp only [h0, if_true]
  obtain ⟨_, _, hquads, -⟩ := State.hostQuads_eq _ c.sess off.toNat _
  rw [hquads]
  dsimp only
  rw [State.modCmd_of_tfind (by exact s.tfind_cmdServed c)]
  exact ⟨_, rfl, rfl, rfl, rfl, rfl, (tfind_tset ..).trans (if_pos rfl)⟩

end

/-! ## Host memory -/

/-- A walk of a page table reads what it read before the command began. -/
theorem State.walkFrom_cmdServed (s : State) (c : Cmd) (plot va n level table : Nat) :
    (s.cmdServed c).walkFrom plot va n level table = s.walkFrom plot va n level table := by
  induction n generalizing level table with
  | zero => rfl
  | succ n ih =>
    simp only [State.walkFrom, ih]
    rfl
theorem State.copyAddr_cmdServed (s : State) (c : Cmd) (addr : Word) (phys : Bool) (inst i : Nat) :
    (s.cmdServed c).copyAddr addr phys inst i = s.copyAddr addr phys inst i := by
  simp only [State.copyAddr, State.walkFrom_cmdServed]
  rfl
theorem State.copyWords_cmdServed (s : State) (c : Cmd) (addr : Word) (phys : Bool) (inst n i : Nat) :
    (s.cmdServed c).copyWords addr phys inst n i = s.copyWords addr phys inst n i := by
  induction n generalizing i with
  | zero => rfl
  | succ n ih =>
    simp only [State.copyWords, ih, State.copyAddr_cmdServed]
    rfl

/-- Storing words neither reads nor changes the commands. -/
theorem State.storeAt_cmds (s : State) (cmds : Tab Cmd) (a : Nat) (ws : List W32) :
    ({ s with cmds } : State).storeAt a ws = { s.storeAt a ws with cmds } := by
  have hregion : ({ s with cmds } : State).transientOf a = s.transientOf a := rfl
  simp only [State.storeAt, State.touch, hregion]
  split
  · rfl
  · split
    · split <;> rfl
    · rfl
theorem State.foldl_storeAt_cmds {α : Type} (s : State) (cmds : Tab Cmd) (l : List α) (a : α → Nat) (ws : α → List W32) :
    l.foldl (fun s e => s.storeAt (a e) (ws e)) { s with cmds } = { l.foldl (fun s e => s.storeAt (a e) (ws e)) s with cmds } := by
  induction l generalizing s with
  | nil => rfl
  | cons e l ih =>
    rw [List.foldl_cons, List.foldl_cons, State.storeAt_cmds]
    exact ih _

section
variable {s : State} {c : Cmd} {hoff : BitVec 48} {addr : Word} {len : BitVec 40} {phys : Bool} {inst : BitVec 16} {x : Session} {l : List Nat}
  (h : s.cmdTurn c) (h0 : c.stage = 0) (hc : checkHostCopy hoff addr len phys inst c s = none) (hx : tfind s.sessions c.sess = some x)
  (hl : s.copyWords addr phys inst.toNat (len.toNat / 4) 0 = some l)
include h h0 hc hx hl

/-- Words copied to the host arrive with their bits; the invalid ones are counted (R416, R417). -/
theorem exec_hostCopy_to_host (hfree : ∀ a ∈ l, s.busHeldAt a = false ∧ s.justWritten a = false) :
    ∃ t, exec (.hostCopy hoff addr len true phys inst) s = .next t ∧ t.mem = s.mem ∧
      tfind t.sessions c.sess = some (hostPut x hoff.toNat ((l.map (s.readWord 0)).flatMap fun w => wordBytesOf w.bits)) ∧
      tfind t.cmds s.focus.cmd = some { c with
        served := true, stage := 1, inst := (if phys then 0xFFFF else inst), elems := len.toNat / 4,
        bad := (l.map (s.readWord 0)).countP (fun w => !w.valid), waits := [s.nextId] } := by
  have hexec : exec (.hostCopy hoff addr len true phys inst) s = execHostCopy hoff addr len true phys inst s := rfl
  have hany : (l.any fun a => (s.cmdServed c).busHeldAt a || (true && (s.cmdServed c).justWritten a)) = false :=
    List.any_eq_false.2 fun a ha => by
      have hb : (s.cmdServed c).busHeldAt a = false := (hfree a ha).1
      have hw : (s.cmdServed c).justWritten a = false := (hfree a ha).2
      rw [hb, hw]
      exact Bool.false_ne_true
  have hx' : tfind (s.cmdServed c).sessions c.sess = some x := hx
  rw [hexec, execHostCopy, command_of_none h hc]
  simp only [h0, State.copyWords_cmdServed, hl, hx', hany, Bool.false_eq_true, if_true, if_false]
  rw [State.modCmd_of_tfind (by exact s.tfind_cmdServed c)]
  exact ⟨_, rfl, rfl, (tfind_tset ..).trans (if_pos rfl), (tfind_tset ..).trans (if_pos rfl)⟩
/-- Words copied from the host are stored one by one. -/
theorem exec_hostCopy_from_host (hfree : ∀ a ∈ l, s.busHeldAt a = false) :
    ∃ t, exec (.hostCopy hoff addr len false phys inst) s = .next t ∧
      t.mem = (((List.range (len.toNat / 4)).zip l).foldl (fun s e => s.storeAt e.2 [hostWord x (hoff.toNat + 4 * e.1)]) s).mem := by
  have hexec : exec (.hostCopy hoff addr len false phys inst) s = execHostCopy hoff addr len false phys inst s := rfl
  have hany : (l.any fun a => (s.cmdServed c).busHeldAt a || (false && (s.cmdServed c).justWritten a)) = false :=
    List.any_eq_false.2 fun a ha => by
      have hb : (s.cmdServed c).busHeldAt a = false := hfree a ha
      rw [hb]
      exact Bool.false_ne_true
  have hx' : tfind (s.cmdServed c).sessions c.sess = some x := hx
  rw [hexec, execHostCopy, command_of_none h hc]
  simp only [h0, State.copyWords_cmdServed, hl, hx', hany, Bool.false_eq_true, if_true, if_false]
  refine ⟨_, rfl, ?_⟩
  rw [State.cmdDone_mem, State.cmdServed]
  have hfold := State.foldl_storeAt_cmds s (tset s.cmds s.focus.cmd { c with served := true }) ((List.range (len.toNat / 4)).zip l) (fun e => e.2)
    fun e => [hostWord x (hoff.toNat + 4 * e.1)]
  rw [hfold]

end

end Sys2Proof.Machine
end

section
/-! PROOF. FAULT_REPLAY and FAULT_DECLINE (R95-R97). -/

namespace Sys2Proof.Machine

/-! ## What a replay changes -/

theorem State.parkReport_eq (s : State) (plot slot : Nat) (oc : BitVec 3) (va : Word) (cause : BitVec 8) (walker : Bool) (kind place pa : Nat) :
    ∃ parkIds sent, (s.parkReport plot slot oc va cause walker kind place pa).2 = { s with parkIds, sent } := by
  unfold State.parkReport
  dsimp only
  split <;> exact ⟨_, _, rfl⟩
theorem State.performWalk_eq (s : State) (id : Nat) (w : Walk) (k : Nat) (x : Session) :
    ∃ sessions hostAcks nextId walks, s.performWalk id w k x = { s with sessions, hostAcks, nextId, walks } := by
  unfold State.performWalk
  dsimp only
  split <;> exact ⟨_, _, _, _, rfl⟩
/-- Engines' accesses replayed leave requests, memory and commands. -/
theorem State.replayWalks_eq (s : State) (f : Nat) :
    ∃ sessions hostAcks nextId walks parkIds sent, s.replayWalks f = { s with sessions, hostAcks, nextId, walks, parkIds, sent } := by
  unfold State.replayWalks
  refine List.foldlRecOn (motive := fun r : Option Nat × State => ∃ sessions hostAcks nextId walks parkIds sent, r.2 =
    { s with sessions, hostAcks, nextId, walks, parkIds, sent }) _ _ ⟨_, _, _, _, _, _, rfl⟩ fun r ⟨_, _, _, _, _, _, h⟩ e _ => ?_
  dsimp only
  split
  · rename_i k x _
    obtain ⟨_, _, _, _, hperf⟩ := r.2.performWalk_eq e.1 e.2 k x
    rw [hperf, h]
    exact ⟨_, _, _, _, _, _, rfl⟩
  · split
    · rw [h]
      exact ⟨_, _, _, _, _, _, rfl⟩
    · obtain ⟨_, _, hpark⟩ := r.2.parkReport_eq e.2.plot e.2.slot e.2.oc e.2.va e.2.cause false e.2.reportKind (slicePlot (walkerSlice e.2.plot e.2.va)) e.2.pa
      rw [hpark, h]
      exact ⟨_, _, _, _, _, _, rfl⟩

/-- An engine's access performed is no walk, or one that has ended. -/
theorem State.tfind_performWalk (s : State) (id : Nat) (w : Walk) (k : Nat) (x : Session) : tfind (s.performWalk id w k x).walks id =
    if w.orphan then none else some { w with parked := none, done := true, data := if w.kind = 11 then w.data else hostWord x w.pa } := by
  unfold State.performWalk
  cases w.orphan with
  | true => exact (tfind_tdel ..).trans (if_pos rfl)
  | false => exact (tfind_tset ..).trans (if_pos rfl)
/-- A write changes the registered memory, a read nothing of it. -/
theorem State.performWalk_sessions (s : State) (id : Nat) (w : Walk) (k : Nat) (x : Session) :
    (w.kind = 11 → tfind (s.performWalk id w k x).sessions k = some (hostPut x w.pa (wordBytesOf w.data.bits))) ∧
    (w.kind ≠ 11 → (s.performWalk id w k x).sessions = s.sessions) := by
  unfold State.performWalk
  constructor
  · intro h
    simp only [if_pos h]
    exact (tfind_tset ..).trans (if_pos rfl)
  · intro h
    simp only [if_neg h]

/-- A walk that is parked no more. -/
def Walk.unparked (f : Nat) (w : Walk) : Walk := if w.parked = some f then { w with parked := none } else w
theorem tfind_unparked {t : Tab Walk} {j : Nat} {y : Option Walk} (h : tfind t j = y) (f : Nat) (hy : ∀ w, y = some w → w.parked = none) :
    tfind (tmap t fun _ w => w.unparked f) j = y := by
  rw [tfind_tmap, h]
  cases y with
  | none => rfl
  | some w => rw [Option.map_some, Walk.unparked, if_neg (by rw [hy w rfl]; exact nofun)]

/-- A request issued again. -/
def Req.reissued (f : Nat) (r : Req) : Req := if r.stage = .parked f then { r with stage := .issued, replayed := true } else r
/-- Replaying what is parked under a fault id issues its requests again. -/
theorem State.replayParked_eq (s : State) (f : Nat) : ∃ sessions hostAcks nextId walks parkIds sent,
    s.replayParked f = { s with sessions, hostAcks, nextId, walks, parkIds, sent, reqs := tmap s.reqs fun _ r => r.reissued f } := by
  obtain ⟨_, _, _, _, _, _, h⟩ := s.replayWalks_eq f
  rw [State.replayParked, h]
  exact ⟨_, _, _, _, _, _, rfl⟩
theorem tfind_reissued {t : Tab Req} {k f : Nat} {r : Req} (h : tfind t k = some r) (hs : r.stage = .parked f) :
    tfind (tmap t fun _ r => r.reissued f) k = some { r with stage := .issued, replayed := true } := by
  rw [tfind_tmap, h, Option.map_some, Req.reissued, if_pos hs]

section
variable {s : State} {c : Cmd} (h : s.cmdTurn c)
include h

/-- A request parked under a fault id is issued again (R95). -/
theorem exec_faultReplay_of_parkedReq {fid : BitVec 32} {k : Nat} {r : Req} (hp : s.parkedReq fid.toNat = some (k, r)) (hf : tfind s.reqs k = some r) :
    ∃ t, exec (.faultReplay fid) s = .next t ∧ tfind t.reqs k = some { r with stage := .issued, replayed := true } ∧ t.mem = s.mem ∧
      tfind t.cmds s.focus.cmd = some { c with served := true, ready := true, cause := if r.op.kind = 0 then 0x08 else 0x09 } := by
  have hexec : exec (.faultReplay fid) s = execFaultReplay fid s := rfl
  have hp' : (s.cmdServed c).parkedReq fid.toNat = some (k, r) := hp
  have hstage : r.stage = .parked fid.toNat := by simpa using List.find?_some hp
  rw [hexec, execFaultReplay, command_of_none h (refuseIf_eq_none.2 (by rw [hp]; rfl))]
  simp only [hp']
  obtain ⟨_, _, _, _, _, _, hreplay⟩ := (s.cmdServed c).replayParked_eq fid.toNat
  rw [hreplay, State.cmdDone, State.modCmd_of_tfind (by exact s.tfind_cmdServed c)]
  exact ⟨_, rfl, tfind_reissued hf hstage, rfl, (tfind_tset ..).trans (if_pos rfl)⟩

/-- An engine's parked access to the registered memory is performed (R95). -/
theorem exec_faultReplay_of_parkedWalk {fid : BitVec 32} {j k : Nat} {w : Walk} {x : Session} (hn : s.parkedReq fid.toNat = none)
    (hw : s.parkedWalk fid.toNat = some (j, w))
    (hone : (s.walks.filter fun e => e.2.parked == some fid.toNat && decide (10 ≤ e.2.kind) && !e.2.declined) = [(j, w)])
    (hx : s.hostSession w.plot = some (k, x)) (hin : w.pa + 4 ≤ x.hlen) :
    ∃ t, exec (.faultReplay fid) s = .next t ∧ t.mem = s.mem ∧ tfind t.cmds s.focus.cmd = some { c with served := true, ready := true, cause := w.cause } ∧
      tfind t.walks j = (if w.orphan then none else some { w with parked := none, done := true, data := if w.kind = 11 then w.data else hostWord x w.pa }) ∧
      (w.kind = 11 → tfind t.sessions k = some (hostPut x w.pa (wordBytesOf w.data.bits))) ∧ (w.kind ≠ 11 → t.sessions = s.sessions) := by
  have hexec : exec (.faultReplay fid) s = execFaultReplay fid s := rfl
  have hn' : (s.cmdServed c).parkedReq fid.toNat = none := hn
  have hw' : (s.cmdServed c).parkedWalk fid.toNat = some (j, w) := hw
  have hone' : ((s.cmdServed c).walks.filter fun e => e.2.parked == some fid.toNat && decide (10 ≤ e.2.kind) && !e.2.declined) = [(j, w)] := hone
  have hx' : (s.cmdServed c).hostSession w.plot = some (k, x) := hx
  have hreplay : (s.cmdServed c).replayWalks fid.toNat = (s.cmdServed c).performWalk j w k x := by
    simp only [State.replayWalks, hone', List.foldl_cons, List.foldl_nil, hx', Option.filter, hin, decide_true, if_true]
  rw [hexec, execFaultReplay, command_of_none h (refuseIf_eq_none.2 (by rw [hn, hw]; rfl))]
  simp only [hn', hw', State.replayParked, hreplay]
  have hwalk := (s.cmdServed c).tfind_performWalk j w k x
  have hsess := (s.cmdServed c).performWalk_sessions j w k x
  obtain ⟨_, _, _, _, hperf⟩ := (s.cmdServed c).performWalk_eq j w k x
  rw [hperf] at hwalk hsess ⊢
  rw [State.cmdDone, State.modCmd_of_tfind (by exact s.tfind_cmdServed c)]
  refine ⟨_, rfl, rfl, (tfind_tset ..).trans (if_pos rfl), tfind_unparked hwalk fid.toNat fun y hy => ?_, hsess⟩
  split at hy
  · cases hy
  · obtain rfl := Option.some.inj hy
    rfl

end

/-! ## What a decline changes -/

theorem State.declineReq_eq (s : State) (k : Nat) (r : Req) : ∃ slots reqs, s.declineReq k r = { s with slots, reqs } := by
  unfold State.declineReq
  split <;> exact ⟨_, _, rfl⟩
/-- A request by its number ends without performing. -/
def State.declineKey (s : State) (k : Nat) : State :=
  match tfind s.reqs k with
  | some r => s.declineReq k r
  | none => s
theorem State.declineKey_eq (s : State) (k : Nat) : ∃ slots reqs, s.declineKey k = { s with slots, reqs } := by
  unfold State.declineKey
  split
  · exact s.declineReq_eq k _
  · exact ⟨_, _, rfl⟩
/-- Another request is as before. -/
theorem State.tfind_declineKey_ne (s : State) {j k : Nat} (h : k ≠ j) : tfind (s.declineKey j).reqs k = tfind s.reqs k := by
  unfold State.declineKey
  split
  · unfold State.declineReq
    split
    · exact (tfind_tset ..).trans (if_neg h)
    · exact (tfind_tdel ..).trans (if_neg h)
  · rfl

/-- A read has been answered with invalid words alone. -/
def State.DeclinedRead (s : State) (k : Nat) : Prop :=
  ∃ q, tfind s.reqs k = some q ∧ q.op.reads = true ∧ q.stage = .served ∧ ∀ w ∈ q.resp, w.valid = false
theorem State.declinedRead_declineKey {s : State} {k : Nat} {r : Req} (h : tfind s.reqs k = some r) (hr : r.op.reads = true) :
    (s.declineKey k).DeclinedRead k := by
  have hkey : s.declineKey k = s.declineReq k r := by simp only [State.declineKey, h]
  rw [hkey, State.declineReq, if_pos hr]
  refine ⟨_, (tfind_tset ..).trans (if_pos rfl), hr, rfl, fun w hw => ?_⟩
  rw [List.eq_of_mem_replicate hw]
theorem State.DeclinedRead.declineKey {s : State} {k : Nat} (h : s.DeclinedRead k) (j : Nat) : (s.declineKey j).DeclinedRead k := by
  obtain ⟨q, hq, hr, hs, hw⟩ := h
  by_cases hj : k = j
  · exact hj ▸ State.declinedRead_declineKey hq hr
  · exact ⟨q, (s.tfind_declineKey_ne hj).trans hq, hr, hs, hw⟩
theorem State.DeclinedRead.foldl {s : State} {k : Nat} (h : s.DeclinedRead k) (l : List Nat) : (l.foldl State.declineKey s).DeclinedRead k :=
  List.foldlRecOn (motive := fun t : State => t.DeclinedRead k) l _ h fun _ ht j _ => ht.declineKey j
/-- A read among those declined ends so. -/
theorem State.declinedRead_foldl {s : State} {k : Nat} {r : Req} {l : List Nat} (hk : k ∈ l) (h : tfind s.reqs k = some r) (hr : r.op.reads = true) :
    (l.foldl State.declineKey s).DeclinedRead k := by
  induction l generalizing s with
  | nil => cases hk
  | cons j l ih =>
    by_cases hj : k = j
    · subst hj
      exact (State.declinedRead_declineKey h hr).foldl l
    · exact ih ((List.mem_cons.1 hk).resolve_left hj) ((s.tfind_declineKey_ne hj).trans h)

/-- What is declined under a fault id: the requests parked, those behind them, and those behind engines' accesses (R97). -/
def State.declinedKeys (s : State) (f : Nat) : List Nat :=
  (((s.reqs.filter fun e => e.2.stage == .parked f).flatMap fun e => e :: s.behind e.1 e.2.plot e.2.slot e.2.oc e.2.va) ++
    ((s.walks.filter fun e => e.2.parked == some f && (e.2.kind == 10 || e.2.kind == 11)).flatMap fun e =>
      s.behind e.1 e.2.plot e.2.slot e.2.oc e.2.va)).map (·.1) |>.eraseDups
theorem State.declineParked_eq (s : State) (f : Nat) :
    ∃ walks, s.declineParked f = { (s.declinedKeys f).foldl State.declineKey s with walks } := ⟨_, rfl⟩
theorem State.foldl_declineKey_eq (s : State) (l : List Nat) : ∃ slots reqs, l.foldl State.declineKey s = { s with slots, reqs } :=
  List.foldlRecOn (motive := fun t : State => ∃ slots reqs, t = { s with slots, reqs }) l _ ⟨_, _, rfl⟩ fun t ⟨_, _, ht⟩ j _ => by
    obtain ⟨_, _, hj⟩ := t.declineKey_eq j
    rw [hj, ht]
    exact ⟨_, _, rfl⟩
/-- A request parked is among them. -/
theorem State.mem_declinedKeys {s : State} {f k : Nat} {r : Req} (h : s.parkedReq f = some (k, r)) : k ∈ s.declinedKeys f := by
  have hstage : (r.stage == .parked f) = true := by simpa using List.find?_some h
  have hmem : (k, r) ∈ s.reqs.filter fun e => e.2.stage == .parked f := List.mem_filter.2 ⟨List.mem_of_find?_eq_some h, hstage⟩
  refine List.mem_eraseDups.2 (List.mem_map.2 ⟨(k, r), List.mem_append_left _ ?_, rfl⟩)
  exact List.mem_flatMap.2 ⟨(k, r), hmem, List.mem_cons_self ..⟩

/-- A parked read that is declined ends with invalid words, and the command is logged (R95-R97). -/
theorem exec_faultDecline_of_parkedReq {s : State} {c : Cmd} (h : s.cmdTurn c) {fid : BitVec 32} {k : Nat} {r : Req}
    (hp : s.parkedReq fid.toNat = some (k, r)) (hf : tfind s.reqs k = some r) (hr : r.op.reads = true) :
    ∃ t q, exec (.faultDecline fid) s = .next t ∧ tfind t.reqs k = some q ∧ q.stage = .served ∧
      (∀ w ∈ q.resp, w.valid = false) ∧ t.mem = s.mem ∧ t.logSeq = s.logSeq + 1 := by
  have hexec : exec (.faultDecline fid) s = execFaultDecline fid s := rfl
  have hp' : (s.cmdServed c).parkedReq fid.toNat = some (k, r) := hp
  have hf' : tfind (s.cmdServed c).reqs k = some r := hf
  rw [hexec, execFaultDecline, command_of_none h (refuseIf_eq_none.2 (by rw [hp]; rfl))]
  simp only [hp']
  obtain ⟨q, hq, -, hs, hw⟩ := State.declinedRead_foldl (State.mem_declinedKeys hp') hf' hr
  obtain ⟨_, hdecline⟩ := (s.cmdServed c).declineParked_eq fid.toNat
  obtain ⟨_, _, hfold⟩ := (s.cmdServed c).foldl_declineKey_eq ((s.cmdServed c).declinedKeys fid.toNat)
  rw [hfold] at hq hdecline
  rw [hdecline]
  obtain ⟨_, _, _, _, hlog⟩ := State.logRec_eq _ 0x08 fid.toNat 0
  rw [hlog, State.cmdDone, State.modCmd_of_tfind (by exact s.tfind_cmdServed c)]
  exact ⟨_, q, rfl, hq, hs, hw, rfl, rfl⟩

end Sys2Proof.Machine
end

section
/-! PROOF. DIE_FENCE (R120, R121, R414, R426). -/

namespace Sys2Proof.Machine

/-! ## What a removal leaves -/

/-- The dies, the removal mask and the commands are as before. -/
structure State.KeepsDies (s t : State) : Prop where
  cmds : t.cmds = s.cmds
  removed : t.removed = s.removed
  dies : t.dies = s.dies
theorem State.KeepsDies.refl (s : State) : s.KeepsDies s := ⟨rfl, rfl, rfl⟩
theorem State.KeepsDies.trans {s t u : State} (h : s.KeepsDies t) (h' : t.KeepsDies u) : s.KeepsDies u :=
  ⟨h'.cmds.trans h.cmds, h'.removed.trans h.removed, h'.dies.trans h.dies⟩
theorem State.KeepsDies.foldl {α : Type} {f : State → α → State} (hf : ∀ (t : State) (a : α), t.KeepsDies (f t a)) (l : List α) (s : State) : s.KeepsDies (l.foldl f s) :=
  List.foldlRecOn (motive := fun t => s.KeepsDies t) l _ (.refl s) fun t h a _ => h.trans (hf t a)

theorem State.logRec_keepsDies (s : State) (kind d0 d1 : Nat) : s.KeepsDies (s.logRec kind d0 d1) := by
  obtain ⟨_, _, _, _, h⟩ := s.logRec_eq kind d0 d1
  rw [h]
  exact ⟨rfl, rfl, rfl⟩
theorem State.pendWord_keepsDies (s : State) (p k : Nat) (ticket : BitVec 16) (kind : PendKind) (cause : BitVec 8) (tval tinfo : Word) :
    s.KeepsDies (s.pendWord p k ticket kind cause tval tinfo) := by
  unfold State.pendWord
  dsimp only
  split
  · exact ⟨rfl, rfl, rfl⟩
  · exact (s.logRec_keepsDies ..).trans ⟨rfl, rfl, rfl⟩
theorem State.endWord_keepsDies (s : State) (id : Nat) : s.KeepsDies (s.endWord id) := by
  unfold State.endWord
  split <;> exact ⟨rfl, rfl, rfl⟩
theorem State.wordFault_keepsDies (s : State) (id : Nat) (cause : BitVec 8) (tval : Word) (idx : Nat) : s.KeepsDies (s.wordFault id cause tval idx) := by
  unfold State.wordFault
  split
  · exact .refl s
  · refine State.KeepsDies.trans ?_ (State.endWord_keepsDies _ id)
    exact (s.pendWord_keepsDies ..).trans ⟨rfl, rfl, rfl⟩
theorem State.bindTrap_keepsDies (s : State) (b : Binding) (cause : BitVec 8) (tval : Word) (idx : Nat) : s.KeepsDies (s.bindTrap b cause tval idx) := by
  unfold State.bindTrap
  split
  · exact s.pendWord_keepsDies ..
  · exact .refl s
/-- What was under way to a removed die is lost (R121). -/
theorem State.losePayload_keepsDies (s : State) (die : Nat) (p : Payload) : s.KeepsDies (s.losePayload die p) := by
  cases p with
  | writes w sig ws =>
    rw [State.losePayload]
    split
    · exact s.wordFault_keepsDies ..
    · split
      · exact (s.bindTrap_keepsDies ..).trans ⟨rfl, rfl, rfl⟩
      · exact .refl s
  | bunt | pnWord | arrv => exact s.wordFault_keepsDies ..
  | pennant key id =>
    rw [State.losePayload]
    split
    · split <;> exact ⟨rfl, rfl, rfl⟩
    · exact .refl s
  | _ => exact ⟨rfl, rfl, rfl⟩
theorem State.loseReq_keepsDies (s : State) (die id : Nat) (r : Req) : s.KeepsDies (s.loseReq die id r) := by
  unfold State.loseReq
  split
  · exact .refl s
  · split <;> exact ⟨rfl, rfl, rfl⟩

/-- A die removed is in the removal mask, with its removal point; all else is the end of what it was to serve (R120). -/
theorem State.removeDie_keepsDies (s : State) (d : Nat) :
    State.KeepsDies { ((s.losePnReqs d).modDie d fun x => { x with removedAt := some (s.causalAt d).seq }) with removed := s.removed ||| (1 <<< d) }
      (s.removeDie d) := by
  have hreqs := State.KeepsDies.foldl (f := fun s (e : Nat × Req) => s.loseReq d e.1 e.2) fun t e => t.loseReq_keepsDies d e.1 e.2
  have houts := State.KeepsDies.foldl (f := fun s (e : Nat × Out) =>
    if e.2.dst < 16 && unitDie e.2.dst == d && e.2.src != d then { (s.losePayload d e.2.payload) with outs := tdel s.outs e.1 } else s) fun t e => by
      dsimp only
      split
      · exact (t.losePayload_keepsDies d e.2.payload).trans ⟨rfl, rfl, rfl⟩
      · exact .refl t
  have hpackets := State.KeepsDies.foldl (f := fun s (e : Nat × Packet) =>
    if unitDie e.2.dst == d && !e.2.delivered then (s.losePayload d e.2.payload).forgetPacket e.1 e.2 else s) fun t e => by
      split
      · exact (t.losePayload_keepsDies d e.2.payload).trans ⟨rfl, rfl, rfl⟩
      · exact .refl t
  exact (((hreqs _ _).trans (houts _ _)).trans (hpackets _ _)).trans ⟨rfl, rfl, rfl⟩

theorem State.removeDie_cmds (s : State) (d : Nat) : (s.removeDie d).cmds = s.cmds := (s.removeDie_keepsDies d).cmds
theorem State.removeDie_fenced (s : State) (d : Nat) : ((s.removeDie d).dieAt d).fenced = (s.dieAt d).fenced := by
  rw [State.dieAt, (s.removeDie_keepsDies d).dies]
  have hdie := congrArg Die.fenced (State.dieAt_modDie (s.losePnReqs d) d fun x => { x with removedAt := some (s.causalAt d).seq })
  exact hdie
theorem State.removeDie_removed (s : State) {d : Nat} (h : d < 8) : (s.removeDie d).removed.getLsbD d = true := by
  rw [(s.removeDie_keepsDies d).removed]
  have hbit : ((1 <<< d : Nat) : BitVec 8).getLsbD d = true := by
    rw [BitVec.natCast_eq_ofNat, BitVec.getLsbD_ofNat, Nat.one_shiftLeft, Nat.testBit_two_pow]
    simp [h]
  exact (BitVec.getLsbD_or ..).trans (by rw [hbit, Bool.or_true])

/-! ## What a fence leaves -/

/-- Entries lost: no pennant has its home on the die (R426). -/
theorem State.loseEntries_eq (s : State) (d : Nat) :
    ∃ dies bunting, s.loseEntries d = { s with dies, bunting, pennants := s.pennants.filter fun e => e.2.home / 128 != d } := by
  obtain ⟨_, h⟩ : ∃ dies, (s.pennants.filter fun e => e.2.home / 128 == d).foldl
      (fun s e => s.modDie e.2.backDie fun x => { x with backUsed := x.backUsed.filter fun u => u.1 != e.2.backing.toNat }) s = { s with dies } :=
    List.foldlRecOn (motive := fun t : State => ∃ dies, t = { s with dies }) _ _ ⟨_, rfl⟩ fun _ ⟨_, h⟩ _ _ => by
      subst h
      exact ⟨_, rfl⟩
  rw [State.loseEntries]
  dsimp only
  rw [h]
  exact ⟨_, _, rfl⟩
theorem State.recount_eq (s : State) : ∃ n bunting, s.recount = (n, { s with bunting }) := by
  unfold State.recount
  refine List.foldlRecOn (motive := fun r : Nat × State => ∃ n bunting, r = (n, { s with bunting })) _ _ ⟨_, _, rfl⟩ fun r ⟨_, _, h⟩ e _ => ?_
  dsimp only
  rw [h]
  split
  · exact ⟨_, _, rfl⟩
  · split <;> exact ⟨_, _, rfl⟩

/-! ## The command -/

/-- The die is removed and the plane rebased; the fence waits for that (R426). -/
theorem exec_dieFence_of_turn {s : State} {c : Cmd} (h : s.cmdTurn c) {die : BitVec 3} (hc : checkFence die c s = none) (h0 : c.stage = 0)
    (hn : (s.dieAt die.toNat).fenced = false) (hi : s.instsOn die.toNat = []) :
    ∃ t, exec (.dieFence die) s = .next t ∧ (t.dieAt die.toNat).fenced = false ∧ t.removed.getLsbD die.toNat = true ∧ t.rebasing ≠ .none ∧
      tfind t.cmds s.focus.cmd = some { c with served := true, stage := 1 } := by
  have hexec : exec (.dieFence die) s = execDieFence die s := rfl
  have hn' : ((s.cmdServed c).dieAt die.toNat).fenced = false := hn
  have hi' : (s.cmdServed c).instsOn die.toNat = [] := hi
  rw [hexec, execDieFence, command_of_none h hc]
  simp only [h0, hn', hi', List.foldl_nil, Bool.false_eq_true, if_true, if_false]
  have hcmds := (s.cmdServed c).removeDie_cmds die.toNat
  have hfenced := ((s.cmdServed c).removeDie_fenced die.toNat).trans hn'
  have hremoved := (s.cmdServed c).removeDie_removed die.isLt
  have hreb := State.startRebase_rebasing_ne_none ((s.cmdServed c).removeDie die.toNat)
  obtain ⟨_, _, hstart⟩ := ((s.cmdServed c).removeDie die.toNat).startRebase_eq
  rw [hstart] at hreb ⊢
  rw [State.modCmd_of_tfind (c := { c with served := true }) (by rw [hcmds]; exact s.tfind_cmdServed c)]
  exact ⟨_, rfl, hfenced, hremoved, hreb, (tfind_tset ..).trans (if_pos rfl)⟩
/-- A fence that has begun waits for the rebase; then the die is fenced and its entries are lost, which is logged (R426). -/
theorem exec_dieFence_of_served {s : State} {c : Cmd} (hf : tfind s.cmds s.focus.cmd = some c) (hs : c.served = true) (hr : c.ready = false)
    (h1 : c.stage = 1) (ht : s.serving s.focus.cmd = true) (die : BitVec 3) :
    (s.rebasing ≠ .none → exec (.dieFence die) s = .next s) ∧
    (s.rebasing = .none → ∃ t n, exec (.dieFence die) s = .next t ∧ (t.dieAt die.toNat).fenced = true ∧ (∀ e ∈ t.pennants, e.2.home / 128 ≠ die.toNat) ∧
      t.mem = s.mem ∧ t.logSeq = s.logSeq + 1 ∧ tfind t.cmds s.focus.cmd = some { c with ready := true, elems := n }) := by
  have hexec : exec (.dieFence die) s = execDieFence die s := rfl
  have hstage : ¬ c.stage = 0 := by omega
  rw [hexec, execDieFence, command_of_served hf hs hr ht]
  dsimp only
  rw [if_neg hstage]
  constructor
  · intro hreb
    rw [if_pos (by simpa using hreb)]
  · intro hreb
    rw [if_neg (by simp [hreb])]
    have hfenced := State.dieAt_modDie (s.loseEntries die.toNat) die.toNat fun x => { x with fenced := true }
    obtain ⟨_, _, hlose⟩ := s.loseEntries_eq die.toNat
    rw [hlose] at hfenced ⊢
    obtain ⟨_, hreports⟩ := State.reports_eq (fun e : Nat × Session => e.1) 5 [die.toNat] s.sessions _
    dsimp only [State.modDie] at hfenced ⊢
    rw [hreports]
    obtain ⟨n, _, hrecount⟩ := State.recount_eq _
    rw [hrecount]
    dsimp only
    obtain ⟨_, _, _, _, hlog⟩ := State.logRec_eq _ 0x11 die.toNat n
    rw [hlog, State.cmdDone, State.modCmd_of_tfind (by exact hf)]
    refine ⟨_, n, rfl, ?_, fun e he => by simpa using (List.mem_filter.1 he).2, rfl, rfl, (tfind_tset ..).trans (if_pos rfl)⟩
    exact congrArg Die.fenced hfenced

end Sys2Proof.Machine
end

section
/-! PROOF. The firmware's service commands settled. -/

namespace Sys2Proof.Machine

/-- Settles O56: what each service command refuses, and what it does when its turn has come. -/
theorem firmwareServiceCommands : Obligations.FirmwareServiceCommands := by
  unfold Obligations.FirmwareServiceCommands
  refine ⟨fun s c cause h name addr origin pa off life inst tf toHost phys cap fid die n val len i chk hi hc => ?_, fun s c h => ?_,
    fun s c die hf hs hr h1 ht => exec_dieFence_of_served hf hs hr h1 ht die⟩
  · have hexec : ∃ run, exec i s = command chk run s := by
      simp only [List.mem_cons, Prod.mk.injEq, List.not_mem_nil, or_false] at hi
      rcases hi with ⟨rfl, rfl⟩ | ⟨rfl, rfl⟩ | ⟨rfl, rfl⟩ | ⟨rfl, rfl⟩ | ⟨rfl, rfl⟩ | ⟨rfl, rfl⟩ | ⟨rfl, rfl⟩ | ⟨rfl, rfl⟩ | ⟨rfl, rfl⟩ | ⟨rfl, rfl⟩ |
        ⟨rfl, rfl⟩ | ⟨rfl, rfl⟩
      exacts [⟨_, show exec (.pnAdminDrop name) s = execPnAdminDrop name s from rfl⟩,
        ⟨_, show exec (.pnAdminEvict name) s = execPnAdminEvict name s from rfl⟩,
        ⟨_, show exec (.pnAdminFill name origin) s = execPnAdminFill name origin s from rfl⟩,
        ⟨_, show exec (.pnAdminList off cap) s = execPnAdminList off cap s from rfl⟩,
        ⟨_, show exec (.regionDeclare pa life tf) s = execRegionDeclare pa life tf s from rfl⟩,
        ⟨_, show exec (.regionUndeclare pa) s = execRegionUndeclare pa s from rfl⟩,
        ⟨_, show exec (.faultReplay fid) s = execFaultReplay fid s from rfl⟩,
        ⟨_, show exec (.faultDecline fid) s = execFaultDecline fid s from rfl⟩,
        ⟨_, show exec (.dieFence die) s = execDieFence die s from rfl⟩,
        ⟨_, show exec (.partitionSet n val) s = execPartitionSet n val s from rfl⟩,
        ⟨_, show exec (.hostCopy off addr len toHost phys inst) s = execHostCopy off addr len toHost phys inst s from rfl⟩,
        ⟨_, show exec (.logRead off cap) s = execLogRead off cap s from rfl⟩]
    obtain ⟨run, hrun⟩ := hexec
    rw [hrun]
    exact command_of_some h hc
  · intro id done
    refine ⟨fun name k p hv => ⟨fun ha => exec_pnAdminDrop_of_attached (c := c) h hv ha, fun ha hw => exec_pnAdminDrop_of_free (c := c) h hv ha hw, fun hm => ?_⟩,
      fun off cap hc h0 => exec_pnAdminList_of_stage_zero h hc h0, fun pa life tf hc => exec_regionDeclare_of_turn h tf hc,
      fun pa hpa => exec_regionUndeclare_of_turn h hpa,
      fun fid k r hp hf => ⟨exec_faultReplay_of_parkedReq h hp hf, fun _ _ _ hr => exec_faultDecline_of_parkedReq h hp hf hr⟩,
      fun fid j w k x hn hw _ hone hx hin => exec_faultReplay_of_parkedWalk h hn hw hone hx hin,
      fun inst va a ha i keep hi => exec_shootdown_of_turn h ha hi, fun die hc h0 hn hi => exec_dieFence_of_turn h hc h0 hn hi,
      fun n val hi hp h0 => exec_partitionSet_of_turn h hi hp h0,
      fun hoff addr len phys inst x l h0 hc hx hl hfree => exec_hostCopy_to_host h h0 hc hx hl hfree,
      fun hoff addr len phys inst x l h0 hc hx hl hfree => exec_hostCopy_from_host h h0 hc hx hl hfree,
      fun off cap hc h0 => exec_logRead_of_stage_zero h hc h0⟩
    exact ⟨fun hs => exec_pnAdminEvict_of_evicted (c := c) h hv hm hs, fun hs o => exec_pnAdminFill_of_resident (c := c) h hv hm hs o,
      fun hs hw hp o ho hplace hfree => exec_pnAdminFill_of_evicted (c := c) h hv hm hs hw hp ho hplace hfree,
      fun hs he => exec_pnAdminEvict_of_not_evictable (c := c) h hv hm hs he, fun hs he hw => exec_pnAdminEvict_of_evictable (c := c) h hv hm hs he hw⟩

end Sys2Proof.Machine
end

section
/-! PROOF. Flits, counted packets and frontier flits (R110, R112-R115, R118, R119, R150-R153). -/

namespace Sys2Proof.Machine

/-! ## Flits sent (R150, R151) -/

section
variable {s : State}

theorem exec_g30Write_of_error {t : Trap} (h : s.flitUnit s.focus.plot s.focus.slot = .error t) (v : Val) :
    exec (.g30Write v) s = .next (s.trapNow t) := by
  change execG30Write v s = _
  simp only [execG30Write, State.sendFlit, h]
theorem exec_g30Write_of_ok {unit : Nat} (h : s.flitUnit s.focus.plot s.focus.slot = .ok unit) (v : Val) :
    exec (.g30Write v) s = .next (s.post s.focus.plot s.focus.slot unit (s.classIds s.focus.plot s.focus.slot 7)
      (s.flitOf s.focus.plot s.focus.slot v)) := by
  change execG30Write v s = _
  simp only [execG30Write, State.sendFlit, h]

/-- Where the issuing slot's MQDST sends a flit. -/
theorem State.flitUnit_cur (s : State) : s.flitUnit s.focus.plot s.focus.slot =
    if mqdstBad s.cur.mqdst || !isCellPlot (s.cur.mqdst.extractLsb' 0 13).toNat ||
        (s.cur.mqdst.getLsbD 31 && !s.peers.getLsbD (s.cur.mqdst.extractLsb' 28 3).toNat) then .error ⟨0x0A, s.cur.mqdst, 0⟩
    else if s.cur.mqdst.getLsbD 31 then .ok (24 + (s.cur.mqdst.extractLsb' 28 3).toNat)
    else if s.isRemoved (dieOf (s.cur.mqdst.extractLsb' 0 13).toNat) then
      .error ⟨0x48, s.cur.mqdst, BitVec.ofNat 64 (dieOf (s.cur.mqdst.extractLsb' 0 13).toNat)⟩
    else .ok (dieOf (s.cur.mqdst.extractLsb' 0 13).toNat) := rfl

/-- An MQDST with a reserved bit, a plot that is no cell, or a peer that is not assigned. -/
theorem State.flitUnit_of_bad (h : mqdstBad s.cur.mqdst = true ∨ isCellPlot (s.cur.mqdst.extractLsb' 0 13).toNat = false ∨
    (s.cur.mqdst.getLsbD 31 = true ∧ s.peers.getLsbD (s.cur.mqdst.extractLsb' 28 3).toNat = false)) :
    s.flitUnit s.focus.plot s.focus.slot = .error ⟨0x0A, s.cur.mqdst, 0⟩ := by
  rw [s.flitUnit_cur, if_pos (by simpa only [Bool.or_eq_true, Bool.and_eq_true, Bool.not_eq_true', or_assoc] using h)]

section
variable (hm : mqdstBad s.cur.mqdst = false) (hc : isCellPlot (s.cur.mqdst.extractLsb' 0 13).toNat = true)
include hm hc

/-- An MQDST that names a plot of this module, whose die may be removed. -/
theorem State.flitUnit_of_plot (hp : s.cur.mqdst.getLsbD 31 = false) : s.flitUnit s.focus.plot s.focus.slot =
    if s.isRemoved (dieOf (s.cur.mqdst.extractLsb' 0 13).toNat) then
      .error ⟨0x48, s.cur.mqdst, BitVec.ofNat 64 (dieOf (s.cur.mqdst.extractLsb' 0 13).toNat)⟩
    else .ok (dieOf (s.cur.mqdst.extractLsb' 0 13).toNat) := by
  rw [s.flitUnit_cur, hm, hc, hp]
  rfl
/-- One that names an assigned peer. -/
theorem State.flitUnit_of_peer (hp : s.cur.mqdst.getLsbD 31 = true) (ha : s.peers.getLsbD (s.cur.mqdst.extractLsb' 28 3).toNat = true) :
    s.flitUnit s.focus.plot s.focus.slot = .ok (24 + (s.cur.mqdst.extractLsb' 28 3).toNat) := by
  rw [s.flitUnit_cur, hm, hc, hp, ha]
  rfl

end
end

/-! ## Flits read (R152, R153) -/

/-- The oldest flits of a slot are those taken. -/
theorem filter_popFlits (k n : Nat) (l : List Flit) : (popFlits k n l).filter (·.slot == k) = (l.filter (·.slot == k)).drop n := by
  induction l generalizing n with
  | nil => cases n <;> rfl
  | cons f l ih =>
    cases n with
    | zero => rfl
    | succ n =>
      cases h : f.slot == k <;> simp [popFlits, h, ih]

theorem State.afterReads_flits (s : State) (srcs : List GReg) :
    (s.afterReads srcs).flits s.focus.plot s.focus.slot = (s.flits s.focus.plot s.focus.slot).drop (g31Count srcs) := by
  unfold State.afterReads
  split
  · rename_i h
    rw [h, List.drop_zero]
  · dsimp only
    split
    all_goals simp [State.flits, State.flushL1, filter_popFlits]

/-- A write of any register but g30 succeeds. -/
theorem State.writeG_of_ne_30 (s : State) {d : GReg} (h : d ≠ 30) (v : Val) :
    s.writeG d v = .ok (if d = 0 ∨ d = 31 then s else s.modCur fun x => x.putG d v) := by
  unfold State.writeG
  by_cases h' : d = 0 ∨ d = 31 <;> simp only [h', h, if_true, if_false]

section
variable {s : State} {d : GReg}

theorem exec_g31Read_of_empty (h : s.flits s.focus.plot s.focus.slot = []) : exec (.g31Read d) s = .next s :=
  if_pos (by simp [State.blocked, h, g31Count])

variable {f : Flit} {rest : List Flit} (h : s.flits s.focus.plot s.focus.slot = f :: rest)
include h

theorem State.reads_g31_of_flit : (s.reads [31]).getD 0 .zero = f.val := by simp [State.reads, h, srcVals]

variable (hb : s.blocked [31] [d] = false)
include hb

theorem exec_g31Read_of_ok {t : State} (ht : (s.afterReads [31]).writeG d f.val = .ok t) : exec (.g31Read d) s = .next t := by
  change execG31Read d s = _
  simp only [execG31Read, hb, State.reads_g31_of_flit h, ht, Bool.false_eq_true, if_false]
theorem exec_g31Read_of_error {tr : Trap} (ht : (s.afterReads [31]).writeG d f.val = .error tr) : exec (.g31Read d) s = .next (s.trapNow tr) := by
  change execG31Read d s = _
  simp only [execG31Read, hb, State.reads_g31_of_flit h, ht, Bool.false_eq_true, if_false]
/-- The flit goes to g[d] and leaves the FIFO. -/
theorem exec_g31Read_of_ne_30 (hd : d ≠ 30) : ∃ t, exec (.g31Read d) s = .next t ∧ t.flits s.focus.plot s.focus.slot = rest ∧ t.mem = s.mem ∧
    (d ≠ 0 → d ≠ 31 → t.cur.gReg s.focus.plot d = f.val) ∧ (∀ n, n ≠ d → t.cur.gReg s.focus.plot n = s.cur.gReg s.focus.plot n) ∧
    t.cur.pc = s.cur.pc := by
  have hrest : (s.afterReads [31]).flits s.focus.plot s.focus.slot = rest := by
    rw [s.afterReads_flits, h]
    rfl
  refine ⟨_, exec_g31Read_of_ok h hb (State.writeG_of_ne_30 _ hd _), ?_⟩
  split
  · rename_i hor
    exact ⟨hrest, s.afterReads_mem _, fun h0 h31 => (hor.elim h0 h31).elim, fun n _ => by rw [s.afterReads_cur], by rw [s.afterReads_cur]⟩
  · refine ⟨hrest, s.afterReads_mem _, fun h0 _ => ?_, fun n hn => ?_, ?_⟩
    · rw [State.cur_modCur, Slot.gReg_putG _ _ _ _ h0 hd]
    · rw [State.cur_modCur, Slot.gReg_putG_ne _ _ _ hn, s.afterReads_cur]
    · rw [State.cur_modCur, s.afterReads_cur]
      rfl

end

/-! ## Flits that arrive (R152, R403) -/

/-- No saved context holds the plot. -/
theorem State.intoSaved_eq_none {s : State} {plot : Nat} (h : ∀ i ∈ s.insts, ∀ c ∈ i.2.ctx, c.plot ≠ plot) (id : Nat) (p : Payload) :
    s.intoSaved id plot p = none := by
  have hfind : s.insts.find? (fun i => i.2.ctx.any fun c => c.plot == plot) = none :=
    List.find?_eq_none.2 fun i hi => by simpa using h i hi
  simp only [State.intoSaved, State.inbound, hfind, Option.map_none]

/-- The first flit of its source enters the FIFO if there is room. -/
theorem exec_flitArrive_of_first {s : State} {id : Nat} {f : Flit} (hf : tfind s.tokens id = some (.flit f)) (hb : s.flitBefore id f = false)
    (hs : ∀ i ∈ s.insts, ∀ c ∈ i.2.ctx, c.plot ≠ f.plot) : exec (.flitArrive id) s =
      if 32 ≤ (s.plotAt f.plot).fifo.length then .next s
      else .next (((s.dropToken id).modPlot f.plot fun x => { x with fifo := x.fifo ++ [f] }).modSlot f.plot f.slot fun x => { x with idleEnd := none }) := by
  change execFlitArrive id s = _
  simp only [execFlitArrive, hf, hb, State.intoSaved_eq_none hs, Bool.false_eq_true, if_false]

/-! ## What leaves (R113, R118, R121, R127) -/

theorem State.causalAt_sendPacket (s : State) (id : Nat) (o : Out) : (s.sendPacket id o).causalAt o.src =
    let c := s.causalAt o.src
    { c with
      seq := c.seq + 1
      dv := c.dv.set o.src (c.seq + 1)
      pairs := tset c.pairs o.dst (tget 0 c.pairs o.dst + 1)
      last := tset c.last o.dst (c.seq + 1)
      undeliv := tset c.undeliv o.dst (tget 0 c.undeliv o.dst + 1) } := tget_tset_self ..
/-- A packet that is sent takes the next numbers of its source, and the source's vector as its stamp. -/
theorem State.sendPacket_eq (s : State) (id : Nat) (o : Out) : ∃ p, tfind (s.sendPacket id o).packets id = some p ∧ p.src = o.src ∧ p.dst = o.dst ∧
    p.seq = (s.causalAt o.src).seq + 1 ∧ p.stamp = (s.causalAt o.src).dv.set o.src ((s.causalAt o.src).seq + 1) ∧ p.delivered = false ∧
    p.payload = o.payload ∧ p.rebase = s.rebase ∧ p.cls = o.cls ∧ ((s.sendPacket id o).causalAt o.src).seq = (s.causalAt o.src).seq + 1 ∧
    tget 0 ((s.sendPacket id o).causalAt o.src).undeliv o.dst = tget 0 (s.causalAt o.src).undeliv o.dst + 1 := by
  refine ⟨_, (tfind_tset ..).trans (if_pos rfl), rfl, rfl, rfl, rfl, rfl, rfl, rfl, rfl, ?_⟩
  rw [State.causalAt_sendPacket]
  exact ⟨rfl, tget_tset_self ..⟩

/-- A write to another die leaves once it may and its die may send. -/
theorem exec_countedPacketSend_of_req {s : State} {id : Nat} {r : Req} (hf : tfind s.reqs id = some r) (hs : r.stage = .issued)
    (hw : r.op.writes = true) (hu : r.unit < 16) (hd : r.unit ≠ dieOf r.plot) (hr : s.isRemoved r.unit = false) (hg : s.mayGo id r false = true)
    (h1 : s.firstInStream id r = true) (hm : s.maySend (dieOf r.plot) r.unit = true) : exec (.countedPacketSend id) s =
      .next ((s.setReq id { r with stage := .sent }).sendPacket id ⟨dieOf r.plot, r.unit, r.plot, r.slot, [], .req id, r.cls⟩) := by
  change execCountedPacketSend id s = _
  simp [execCountedPacketSend, hf, hs, hw, hu, hd, hr, hg, h1, hm]

section
variable {s : State} {id : Nat} {o : Out} (hr : tfind s.reqs id = none) (ho : tfind s.outs id = some o)
include hr ho

/-- What waits for its accesses, or behind its stream, stays. -/
theorem exec_countedPacketSend_of_waiting (h : (∃ w ∈ o.waits, s.relOk w = false) ∨ s.outBefore id o = true) :
    exec (.countedPacketSend id) s = .next s := by
  have hwait : (!o.waits.all s.relOk || s.outBefore id o) = true := by simpa using h
  change execCountedPacketSend id s = _
  simp only [execCountedPacketSend, hr, ho, hwait, if_true]

variable (hw : ∀ w ∈ o.waits, s.relOk w = true) (hb : s.outBefore id o = false)
include hw hb

/-- Where the rest goes. -/
theorem exec_countedPacketSend_of_ready : exec (.countedPacketSend id) s =
    if 24 ≤ o.dst then .next (if s.peerOwed o.plot o.slot then s else State.toPeer { s with outs := tdel s.outs id } id o.payload)
    else if s.unitRemoved o.dst then .next (State.losePayload { s with outs := tdel s.outs id } (unitDie o.dst) o.payload)
    else if o.dst = o.src then
      .next (if s.payloadHeld o.dst o.payload then s else State.performPayload { s with outs := tdel s.outs id } id o.dst o.payload)
    else if s.maySend o.src o.dst then .next (State.sendPacket { s with outs := tdel s.outs id } id o)
    else .next s := by
  have hready : (!o.waits.all s.relOk || s.outBefore id o) = false := by simpa [hb] using hw
  change execCountedPacketSend id s = _
  simp only [execCountedPacketSend, hr, ho, hready, Bool.false_eq_true, if_false]
  rfl

/-- A flit for a peer leaves when the slot's earlier ones there are acknowledged. -/
theorem exec_countedPacketSend_of_peer {f : Flit} (hd : 24 ≤ o.dst) (hp : o.payload = .flit f) : exec (.countedPacketSend id) s =
    .next (if s.peerOwed o.plot o.slot then s else { s with outs := tdel s.outs id, peerOut := tset s.peerOut id f }) := by
  rw [exec_countedPacketSend_of_ready hr ho hw hb, if_pos hd, hp]
  rfl

variable (hd : o.dst < 24)
include hd

theorem exec_countedPacketSend_of_removed (hu : s.unitRemoved o.dst = true) :
    exec (.countedPacketSend id) s = .next (State.losePayload { s with outs := tdel s.outs id } (unitDie o.dst) o.payload) := by
  rw [exec_countedPacketSend_of_ready hr ho hw hb, if_neg (Nat.not_le.2 hd), if_pos hu]

variable (hu : s.unitRemoved o.dst = false)
include hu

/-- Within its die it acts at once, unless it must wait there. -/
theorem exec_countedPacketSend_of_local (hl : o.dst = o.src) : exec (.countedPacketSend id) s =
    .next (if s.payloadHeld o.dst o.payload then s else State.performPayload { s with outs := tdel s.outs id } id o.dst o.payload) := by
  rw [exec_countedPacketSend_of_ready hr ho hw hb, if_neg (Nat.not_le.2 hd), hu, if_neg Bool.false_ne_true, if_pos hl]
/-- To another die it leaves as a counted packet while the limits allow. -/
theorem exec_countedPacketSend_of_far (hl : o.dst ≠ o.src) : exec (.countedPacketSend id) s =
    if s.maySend o.src o.dst then .next (State.sendPacket { s with outs := tdel s.outs id } id o) else .next s := by
  rw [exec_countedPacketSend_of_ready hr ho hw hb, if_neg (Nat.not_le.2 hd), hu, if_neg Bool.false_ne_true, if_neg hl]

end

/-! ## Packets that arrive (R112, R114, R118, R119) -/

theorem vecAt_set_self {l : List (BitVec 10)} {j : Nat} (h : j < l.length) (n : BitVec 10) : vecAt (l.set j n) j = n := by
  simp [vecAt, h]

/-- A merge changes a die's vector only. -/
theorem State.causalAt_mergeDv (s : State) (d : Nat) (l : List (BitVec 10)) :
    (s.mergeDv d l).causalAt d = { s.causalAt d with dv := ((s.mergeDv d l).causalAt d).dv } := by
  rw [State.mergeDv, State.causalAt_modCausal]

/-- A delivery raises the pair entry and the cover entry of its source. -/
theorem State.noteDelivery_entries (s : State) {p : Packet} (hpd : p.src < (s.causalAt p.dst).pd.length)
    (hcv : p.src < (s.causalAt p.dst).cv.length) : vecAt ((s.noteDelivery p).causalAt p.dst).pd p.src = p.pair ∧
      vecAt ((s.noteDelivery p).causalAt p.dst).cv p.src = serialMax (vecAt (s.causalAt p.dst).cv p.src) (vecAt p.stamp p.src) := by
  unfold State.noteDelivery
  dsimp only
  split
  · rw [State.causalAt_mergeDv, State.causalAt_modCausal]
    exact ⟨vecAt_set_self hpd _, vecAt_set_self hcv _⟩
  · rw [State.causalAt_modCausal]
    exact ⟨vecAt_set_self hpd _, vecAt_set_self hcv _⟩

section
variable {s : State} {id : Nat} {p : Packet} (hf : tfind s.packets id = some p) (hd : p.delivered = false) (hr : p.rebase = s.rebase)
  (hp : s.pastRemoval p = false)
include hf hd hr hp

/-- A packet that may be delivered is performed, unless an earlier one may be too or what it does must wait. -/
theorem exec_packetArrive_of_deliverable (h : s.deliverable p = true) :
    let s1 := State.noteDelivery { s with packets := tset s.packets id { p with delivered := true }, lastDelivery := s.clock } p
    exec (.packetArrive id) s = .next (if s.earlierReady p || s.payloadHeld p.dst p.payload then s else
      State.performPayload { s1 with packets := tset s1.packets id { p with delivered := true, ack := s1.respStamp p.dst } } id p.dst p.payload) := by
  intro s1
  have hgo : (p.delivered || p.rebase != s.rebase) = false := by simp [hd, hr]
  change execPacketArrive id s = _
  simp only [execPacketArrive, hf, hgo, hp, h, Bool.false_eq_true, if_true, if_false]
  split <;> rfl
/-- Another waits in the early-packet buffer, which it enters once if there is room. -/
theorem exec_packetArrive_of_early (h : s.deliverable p = false) : exec (.packetArrive id) s =
    if p.arrived = 0 && decide ((s.packets.filter fun e => e.2.dst == p.dst && e.2.arrived != 0 && !e.2.delivered).length < 2048) then
      .next { s with packets := tset s.packets id { p with arrived := s.nextId + 1 }, nextId := s.nextId + 1 }
    else .next s := by
  have hgo : (p.delivered || p.rebase != s.rebase) = false := by simp [hd, hr]
  change execPacketArrive id s = _
  simp only [execPacketArrive, hf, hgo, hp, h, Bool.false_eq_true, if_false]

end

/-- An acknowledged packet is gone, and its source counts one less. -/
theorem exec_deliveryAck_of_delivered {s : State} {id : Nat} {p : Packet} (hf : tfind s.packets id = some p) (hd : p.delivered = true) :
    exec (.deliveryAck id) s = .next (s.forgetPacket id p) := by
  change execDeliveryAck id s = _
  simp only [execDeliveryAck, hf, hd, if_true]
theorem State.causalAt_forgetPacket (s : State) (id : Nat) (p : Packet) : (s.forgetPacket id p).causalAt p.src =
    { s.causalAt p.src with undeliv := tset (s.causalAt p.src).undeliv p.dst (tget 0 (s.causalAt p.src).undeliv p.dst - 1) } := tget_tset_self ..
theorem State.undeliv_forgetPacket (s : State) (id : Nat) (p : Packet) :
    tget 0 ((s.forgetPacket id p).causalAt p.src).undeliv p.dst = tget 0 (s.causalAt p.src).undeliv p.dst - 1 := by
  rw [State.causalAt_forgetPacket]
  exact tget_tset_self ..

/-! ## Frontier flits (R110, R115) -/

section
variable {s : State} {unit : BitVec 4} {die : BitVec 3} (hu : unitDie unit.toNat ≠ die.toNat) (hr : s.isRemoved die.toNat = false)
include hu hr

/-- A unit that waits on a die asks it. -/
theorem exec_frontierRequest_of_waits (hw : s.waitsOn unit.toNat die.toNat = true ∨ s.slotWaitsOn unit.toNat die.toNat = true) :
    exec (.frontierRequest unit die) s =
      .next { s with asked := tset s.asked (16 * die.toNat + unit.toNat) ⟨s.respStamp unit.toNat, s.rebase⟩ } :=
  if_pos (by simpa [hu, hr] using hw)
/-- A die that was asked in this rebase sends its frontier. -/
theorem exec_frontierFlitSend_of_asked (hn : s.unitRemoved unit.toNat = false) {a : Asking}
    (ha : tfind s.asked (16 * die.toNat + unit.toNat) = some a) (hb : a.reb = s.rebase) : exec (.frontierFlitSend die unit) s =
      .next { s.modCausal die.toNat (fun c => { c with last := tset c.last unit.toNat (s.causalAt die.toNat).seq }) with
        frontiers := tset s.frontiers s.nextId ⟨die.toNat, unit.toNat, (s.causalAt die.toNat).seq, tget 0 (s.causalAt die.toNat).pairs unit.toNat,
          (s.causalAt die.toNat).dv, s.rebase⟩
        nextId := s.nextId + 1
        asked := tdel s.asked (16 * die.toNat + unit.toNat) } :=
  if_neg (by simp [hu, hr, hn, ha, hb])

end

section
variable {s : State} {id : Nat} {f : Frontier} (hf : tfind s.frontiers id = some f) (hr : f.reb = s.rebase)
include hf hr

/-- A frontier waits for its pair sequence. -/
theorem exec_frontierFlitReceive_of_early (hp : f.pair ≠ 0) (hl : serialLe f.pair (vecAt (s.causalAt f.unit).pd f.die) = false) :
    exec (.frontierFlitReceive id) s = .next s := by
  change execFrontierFlitReceive id s = _
  simp only [execFrontierFlitReceive, hf, hr, hl, bne_self_eq_false, bne_iff_ne.2 hp, Bool.not_false, Bool.and_self, Bool.or_true, if_true]
/-- Once that is delivered, the cover entry rises. -/
theorem exec_frontierFlitReceive_of_delivered (hp : f.pair = 0 ∨ serialLe f.pair (vecAt (s.causalAt f.unit).pd f.die) = true)
    (hd : f.die < (s.causalAt f.unit).cv.length) : ∃ t, exec (.frontierFlitReceive id) s = .next t ∧ tfind t.frontiers id = none ∧
      vecAt (t.causalAt f.unit).cv f.die = serialMax (vecAt (s.causalAt f.unit).cv f.die) f.seq ∧ t.mem = s.mem := by
  have hgo : (f.reb != s.rebase || (f.pair != 0 && !serialLe f.pair (vecAt (s.causalAt f.unit).pd f.die))) = false := by
    simpa [hr, imp_iff_not_or] using hp
  change ∃ t, execFrontierFlitReceive id s = .next t ∧ _
  simp only [execFrontierFlitReceive, hf, hgo, Bool.false_eq_true, if_false]
  refine ⟨_, rfl, ?_⟩
  split
  · refine ⟨(tfind_tdel ..).trans (if_pos rfl), ?_, rfl⟩
    rw [State.causalAt_mergeDv]
    exact (congrArg (fun c : Causal => vecAt c.cv f.die) (tget_tset_self ..)).trans (vecAt_set_self hd _)
  · exact ⟨(tfind_tdel ..).trans (if_pos rfl),
      (congrArg (fun c : Causal => vecAt c.cv f.die) (tget_tset_self ..)).trans (vecAt_set_self hd _), rfl⟩

end

/-- Settles O53: each event under its conditions, in the order of the statement. -/
theorem flitsAndCausalDelivery : Obligations.FlitsAndCausalDelivery := by
  unfold Obligations.FlitsAndCausalDelivery
  refine ⟨fun s v => ⟨fun h => exec_g30Write_of_error (State.flitUnit_of_bad h) v, fun hm hc hp => ⟨fun hr => ?_, fun hr => ?_⟩,
      fun hm hc hp ha => exec_g30Write_of_ok (State.flitUnit_of_peer hm hc hp ha) v⟩,
    fun s d => ⟨exec_g31Read_of_empty, fun f rest h hb => ⟨fun t => exec_g31Read_of_ok h hb, fun tr => exec_g31Read_of_error h hb⟩,
      fun f rest h hb => exec_g31Read_of_ne_30 h hb⟩,
    fun s id f hf hb hs => ⟨fun hl => ?_, fun hl => ?_⟩, fun s id o hr ho h => exec_countedPacketSend_of_waiting hr ho h,
    fun s id o f hr ho hw hb hd hp => ⟨fun h => ?_, fun h => ?_⟩, fun s id o hr ho hw hb => exec_countedPacketSend_of_removed hr ho hw hb,
    fun s die f i n e g => ⟨rfl, rfl, rfl⟩, fun s id r => exec_countedPacketSend_of_req,
    fun s id o hr ho hw hb hd hu => ⟨fun hl h => ?_, fun hl h => ?_, fun hl h => ?_, fun hl h => ?_⟩,
    fun s id p hf hd hr hp => ⟨fun h he hq => ?_, fun h hq => ?_, fun h h0 hn => ?_, fun h h0 => ?_⟩,
    fun s p _ _ => s.noteDelivery_entries, fun s id p hf hd => ⟨_, exec_deliveryAck_of_delivered hf hd, ?_, s.undeliv_forgetPacket id p, rfl⟩,
    fun s unit die hu hr => ⟨exec_frontierRequest_of_waits hu hr, fun a hn ha hb => ⟨_, exec_frontierFlitSend_of_asked hu hr hn ha hb, ?_, ?_, ?_⟩⟩,
    fun s id f hf _ hd hr => ⟨exec_frontierFlitReceive_of_early hf hr, fun hp => exec_frontierFlitReceive_of_delivered hf hr hp hd⟩⟩
  · exact exec_g30Write_of_error ((State.flitUnit_of_plot hm hc hp).trans (if_pos hr)) v
  · exact exec_g30Write_of_ok ((State.flitUnit_of_plot hm hc hp).trans (if_neg (Bool.eq_false_iff.1 hr))) v
  · exact (exec_flitArrive_of_first hf hb hs).trans (if_pos hl)
  · refine ⟨_, (exec_flitArrive_of_first hf hb hs).trans (if_neg (Nat.not_le.2 hl)), ?_, ?_, (tfind_tdel ..).trans (if_pos rfl), rfl⟩
    · exact congrArg Plot.fifo (tget_tset_self ..)
    · rw [State.slotAt_modSlot]
  · rw [exec_countedPacketSend_of_peer hr ho hw hb hd hp, h, if_neg Bool.false_ne_true]
  · rw [exec_countedPacketSend_of_peer hr ho hw hb hd hp, if_pos h]
  · rw [exec_countedPacketSend_of_local hr ho hw hb hd hu hl, if_pos h]
  · rw [exec_countedPacketSend_of_local hr ho hw hb hd hu hl, h, if_neg Bool.false_ne_true]
  · rw [exec_countedPacketSend_of_far hr ho hw hb hd hu hl, h, if_neg Bool.false_ne_true]
  · obtain ⟨p, hp, hsrc, hdst, hseq, hstamp, hdel, hpay, hreb, hcls, hnext, hund⟩ := State.sendPacket_eq { s with outs := tdel s.outs id } id o
    exact ⟨_, p, (exec_countedPacketSend_of_far hr ho hw hb hd hu hl).trans (if_pos h), hp, hsrc, hdst, hseq, hstamp, hdel, hpay, hreb, hcls, hnext, hund,
      (tfind_tdel ..).trans (if_pos rfl)⟩
  · rw [exec_packetArrive_of_deliverable hf hd hr hp h, he, hq]
    rfl
  · rw [exec_packetArrive_of_deliverable hf hd hr hp h, if_pos (by simpa using hq)]
  · have harrive := exec_packetArrive_of_early hf hd hr hp h
    rw [if_pos (by simpa [h0] using hn)] at harrive
    exact ⟨_, harrive, (tfind_tset ..).trans (if_pos rfl), rfl, rfl⟩
  · rw [exec_packetArrive_of_early hf hd hr hp h, if_neg (by simp [h0])]
  · exact (tfind_tdel ..).trans (if_pos rfl)
  · exact (tfind_tset ..).trans (if_pos rfl)
  · exact (tfind_tdel ..).trans (if_pos rfl)
  · exact (congrArg (fun c : Causal => tget 0 c.last unit.toNat) (tget_tset_self ..)).trans (tget_tset_self ..)

end Sys2Proof.Machine
end

section
/-! PROOF. A PNQ of a slot number that no plot has (R165, R172). -/

namespace Sys2Proof.Machine

/-- Slot 8 of plot 0 is in focus: a plot's slots are 0-7, and 8 x plot + slot is also the number of slot 0 of plot 1. That plot alone is held
by a session, which has a pennant of name 0. -/
def slotBeyondPlot : State :=
  { State.reset with
    focus := ⟨0, 8, 0, 0, 0⟩
    plots := [(1, { Plot.init with inst := some 0 })]
    insts := [(0, loaderInst)]
    pennants := [(0, ⟨0, 0, 1, 1, 0, 4096, 0, .resident, 0, 0, 0, 0, [], none, 0, none, 0, [], false, []⟩)] }

/-- The pennant is not in view of plot 0, but the home answers for plot 1, with the pennant's state. -/
theorem exec_pnq_slotBeyondPlot : ∃ t, exec (.pnq 1 0 0) slotBeyondPlot = .next t ∧ t.cur.gReg 0 1 = .ofWord 0 := ⟨_, rfl, by decide⟩

/-- Refutes O49: the home takes the plot of a request from the number of its slot, so a request is answered as one of the focus's plot only for a
slot below 8, which the statement does not ask for. -/
theorem not_pennantInstructions : ¬ Obligations.PennantInstructions := by
  rintro ⟨-, -, hnamed, -⟩
  obtain ⟨-, hhere⟩ := hnamed slotBeyondPlot 1 0 0 ⟨rfl, ⟨by decide, by decide⟩, by decide, rfl⟩
  obtain ⟨hquery, -⟩ := hhere (by decide)
  have hones := hquery 0 (by decide) _ rfl
  obtain ⟨t, ht, hzero⟩ := exec_pnq_slotBeyondPlot
  rw [hones] at ht
  cases ht
  exact absurd hzero (by decide)

end Sys2Proof.Machine
end
